-- ==== Sys2Proof/Word.lean ====
section
/-! DEFINITION. The word types of the SV-9600 (R6: bit 0 is the least significant bit of any field;
R18: a program text is a sequence of 32-bit parcels). -/

namespace Sys2Proof

/-- A byte. -/
abbrev Byte := BitVec 8

/-- A parcel of program text (R18). -/
abbrev Parcel := BitVec 32

/-- A scalar register's contents, an address, a control register (R149, R160). -/
abbrev Word := BitVec 64

/-- A vector value, 128 bytes (R201). -/
abbrev Vec := BitVec 1024

end Sys2Proof
end

