-- ==== Sys2Proof/Machine/Sparse.lean ====
section
/-! DEFINITION. Sparse data: maps by number, and memory as a list of (address, byte) cells in one
canonical form (addresses strictly rising, no zero byte, since an unlisted byte reads as zero; log 4). -/

namespace Sys2Proof.Machine

/-- A map from numbers, as a list with rising keys. -/
abbrev KMap (α : Type) := List (Nat × α)

def KMap.get? {α : Type} (m : KMap α) (k : Nat) : Option α :=
  match m with
  | [] => none
  | (j, x) :: t => if j == k then some x else KMap.get? t k

def KMap.getD {α : Type} (m : KMap α) (k : Nat) (d : α) : α := (KMap.get? m k).getD d

/-- The map with `k` set to `x`. -/
def KMap.set {α : Type} (m : KMap α) (k : Nat) (x : α) : KMap α :=
  match m with
  | [] => [(k, x)]
  | (j, y) :: t => if k < j then (k, x) :: (j, y) :: t else if j == k then (k, x) :: t else (j, y) :: KMap.set t k x

def KMap.erase {α : Type} (m : KMap α) (k : Nat) : KMap α := m.filter fun e => e.1 != k

/-- The map with `k` changed by `f`, from `d` where it has no entry. -/
def KMap.modify {α : Type} (m : KMap α) (k : Nat) (d : α) (f : α → α) : KMap α := KMap.set m k (f (KMap.getD m k d))

/-- A set of numbers, as a list with rising members. -/
abbrev NSet := List Nat

def NSet.insert (s : NSet) (k : Nat) : NSet :=
  match s with
  | [] => [k]
  | j :: t => if k < j then k :: j :: t else if j == k then j :: t else j :: NSet.insert t k

def NSet.erase (s : NSet) (k : Nat) : NSet := s.filter fun j => j != k

/-- A memory: its listed bytes. -/
abbrev Mem := List Host.Cell

/-- What a memory holds at an address; an unlisted byte reads as zero (log 4). -/
def Mem.byte (m : Mem) (a : Nat) : Byte :=
  match m with
  | [] => 0#8
  | (b, x) :: t => if b == a then x else Mem.byte t a

/-- The `n` bytes from `a` on. -/
def Mem.read (m : Mem) (a n : Nat) : List Byte := (List.range n).map fun i => Mem.byte m (a + i)

/-- The cells that hold `bs` from `a` on, zero bytes left out. -/
def Mem.cells (a : Nat) : List Byte → Mem
  | [] => []
  | b :: t => if b == 0#8 then Mem.cells (a + 1) t else (a, b) :: Mem.cells (a + 1) t

/-- The cells below address `a`. -/
def Mem.below (m : Mem) (a : Nat) : Mem := m.filter fun c => c.1 < a

/-- The cells from address `a` on. -/
def Mem.from (m : Mem) (a : Nat) : Mem := m.filter fun c => a ≤ c.1

/-- The memory with `bs` stored from `a` on. -/
def Mem.write (m : Mem) (a : Nat) (bs : List Byte) : Mem :=
  Mem.below m a ++ Mem.cells a bs ++ Mem.from m (a + bs.length)

/-- The memory with `n` bytes from `a` on set to zero. -/
def Mem.zero (m : Mem) (a n : Nat) : Mem := Mem.below m a ++ Mem.from m (a + n)

/-- The canonical form: addresses strictly rising, and no byte equal to what an unlisted one reads as. -/
def Mem.wf : Mem → Bool
  | [] => true
  | [c] => c.2 != 0#8
  | c :: d :: t => c.2 != 0#8 && decide (c.1 < d.1) && Mem.wf (d :: t)

end Sys2Proof.Machine
end

