-- ==== Sys2Proof/Fields.lean ====
section
/-! DEFINITION. The fields that instructions and events carry: registers, predicates, element types,
operand slots (Tables 2.5 to 2.10), and what crosses the package's boundary as the parameter of an
event (packets, contributions, sluice messages; R1). -/

namespace Sys2Proof

/-- A scalar register field, s0 to s63 (R38). -/
abbrev Reg := BitVec 6

/-- A predicate index, k0 to k15 (R38). -/
abbrev PIdx := BitVec 4

/-- The PRED field of Table 2.6: KIDX and NEG (R30). -/
structure Pred where
  neg : Bool
  k : PIdx
  deriving DecidableEq, Repr, Inhabited

/-- The third operand of an F96S form: s[B] or IMM32 (R172). -/
inductive RegOrImm where
  | reg (r : Reg)
  | imm (v : BitVec 32)
  deriving DecidableEq, Repr, Inhabited

/-- The TYPE codes 0x0 to 0xB of Table 2.10. -/
inductive Ty where
  | n8 | n16 | n32 | n64 | i8 | i16 | i32 | i64 | f16 | bf16 | f32 | nf
  deriving DecidableEq, Repr, Inhabited

/-- An operand field of Table 2.8. Only a vector name can carry PK. -/
inductive Opnd where
  | v (pk : Bool) (n : BitVec 11)
  | p (n : BitVec 11)
  | s (n : BitVec 11)
  deriving DecidableEq, Repr, Inhabited

/-- The TOKEN field of a 96-bit or 192-bit word (R27, R29). -/
structure Tok where
  pop : BitVec 8
  push : BitVec 8
  deriving DecidableEq, Repr, Inhabited

/-- MOD of L, A and W words and of mdrain and mmov (R32). -/
structure VMod where
  col : Bool
  sat : Bool
  rm : BitVec 3
  deriving DecidableEq, Repr, Inhabited

/-- What every L, A and W word carries beside its operands. -/
structure VHead where
  ty : Ty
  mod : VMod
  tok : Tok
  deriving DecidableEq, Repr, Inhabited

/-- The operator of vscan and vscanc, SUB[18:17] (R226). -/
inductive ScanOp where
  | add | max | affine
  deriving DecidableEq, Repr, Inhabited

/-- The op of vmsk (R222). -/
inductive MaskOp where
  | and | or | xor | andn | not | first | all | none
  deriving DecidableEq, Repr, Inhabited

/-- The cond of vbr (R232). -/
inductive BrCond where
  | any | none | all | notall
  deriving DecidableEq, Repr, Inhabited

/-- The op of mchk (R260). -/
inductive ChkOp where
  | off | on | verify
  deriving DecidableEq, Repr, Inhabited

/-- The queues that take engine commands (R128, R271, R312). -/
inductive Unit6 where
  | copy | sluice | batcher | compaction | fabric | collective
  deriving DecidableEq, Repr, Inhabited

/-- The five walkers of a cluster (R161). -/
inductive Eng where
  | S | L | A | W | M
  deriving DecidableEq, Repr, Inhabited

/-- A line that a committed fill owes: a scratchpad line of a cluster (R17), or a tile-buffer line
(R123) given by die, tile row, tile column, slab and line. -/
inductive LineRef where
  | sram (cl : Nat) (line : Nat)
  | tile (die row col slab line : Nat)
  deriving DecidableEq, Repr, Inhabited

/-- What a packet asks of its destination. The spec leaves the numbers of KIND to the commands that
send packets and prints none (Table 12.4), so the model names them. DESIGN CHOICE (log 13). -/
inductive PKind where
  | readReq        -- eget element or window load: read `len` bytes at `addr`
  | readReply      -- its data
  | write          -- eput, emcast or window store data
  | accUpdate      -- eacc element update on a window
  | flagSet        -- the flag of eput or emcast (R316)
  | ack            -- status of a command (R314)
  | carry          -- ecarry lines (R326)
  | permit         -- sluice messages (R280)
  | token          -- sluice token row (R281)
  | contribution   -- in-switch reduction (R321)
  | pullLoad       -- pull-mode load (R325)
  | result         -- reduction result (R325)
  | flush          -- flush notice (R324)
  | collective     -- ecoll data (R329)
  | groupUpdate    -- egroup over tc3 (R319)
  | drain          -- drain marker (R319, R401)
  | barrier        -- gang barrier over tc0 (R354)
  | sweep          -- termination sweep over tc0 (R292)
  | rollback       -- rollback request and confirmation over tc0 (R415)
  | placement      -- placement of a gang over tc3 (R378)
  | spdm           -- SPDM request from a peer over tc3 (R423)
  deriving DecidableEq, Repr, Inhabited

/-- A fabric packet: the header of Table 12.4 and its data (R303); `part` marks one of the packets that a longer message is
cut into (log 13). Two fields are the model's own: the port by which the
packet has reached, or reaches, a device (64 where it starts here), and whether this router carries it at tc1 priority
(R306). -/
structure Packet where
  ddev : Nat
  sdev : Nat
  tc : Nat
  hop : Nat
  ph : Bool
  mc : Bool
  kind : PKind
  imd : Nat
  ctx : Nat
  key : BitVec 32
  gen : BitVec 32
  grp : Nat
  ver : Nat
  seq : BitVec 32
  mbr : Nat
  addr : Nat
  arg : BitVec 64
  dests : BitVec 1024
  data : List Byte
  part : Bool
  via : Nat
  slow : Bool
  deriving DecidableEq, Repr, Inhabited

/-- The number of a reduction: its sequence number, with the generation of the context in which it was counted (R318,
R324). -/
structure Stamp where
  gen : BitVec 32
  seq : BitVec 32
  deriving DecidableEq, Repr, Inhabited

/-- The tag and the values of one reduction contribution, and the device that sends it (R322). Values are FP32 codes: BF16 elements
widened exactly, FP32 elements kept (R16, R321). -/
structure Contribution where
  ctx : Nat
  grp : Nat
  ver : Nat
  gen : BitVec 32
  seq : BitVec 32
  mbr : Nat
  dev : Nat
  vals : List (BitVec 32)
  deriving DecidableEq, Repr, Inhabited

/-- The parameters that every opening, count, request and done message carries (R274). -/
structure RoundParams where
  grp : Nat
  solo : Bool
  dmask : Nat
  km1 : Nat
  det : Bool
  n0 : Nat
  tlm1 : Nat
  deriving DecidableEq, Repr, Inhabited

/-- A sluice message between participants (R277 to R280). `tix0` orders participants of one device
(R274). -/
structure RoundMsg where
  dev : Nat
  die : Nat
  tix0 : Nat
  round : Nat
  gen : BitVec 32
  params : RoundParams
  pass : Nat
  expert : Nat
  count : Nat
  b0 : Nat
  full : Bool
  rows : Nat
  deriving DecidableEq, Repr, Inhabited

/-- What an element of a collective brings from a line member (R329). -/
structure CollBlock where
  coord : Nat
  data : List Byte
  deriving DecidableEq, Repr, Inhabited

/-- A boot image as it reaches the stage before it (R422): its bytes, its Falcon-1024 signature and
its security version. -/
structure BootImage where
  bytes : List Byte
  sig : List Byte
  version : Nat
  deriving DecidableEq, Repr, Inhabited

/-- Who moves next when a word of program text runs (R21, R22, R381). -/
inductive Walker where
  | pc (cl : Nat) (e : Eng)
  | rake (cl : Nat) (thr : Nat)
  | mgr (die : Nat)
  deriving DecidableEq, Repr, Inhabited

end Sys2Proof
end

