-- ==== Sys2Proof/Syntax.lean ====
section
/-! DEFINITION. The one instruction type of the model: one constructor for each row of the table of
operations and events (spec/opcode_table.json). The rows up to `kid` are the words of a program text
(R36); the rows after it are the steps that come about without a word of their own (spec/95), and carry
as fields which agent, command or message they concern and what comes in from the surroundings (R1). -/

namespace Sys2Proof

inductive Instr where
  /-- NOP, R36. Does nothing; the S PC executes it and the other PCs step over it. -/
  | nop
  /-- ADD, R173. Writes (s[A] + s[B]) mod 2^64 to s[D]. -/
  | add (d : Reg) (a : Reg) (b : Reg)
  /-- ADD_LONG, R173. 96-bit F96S form of add, with a register or an IMM32 operand and an optional predicate. -/
  | addLong (p : Pred) (d : Reg) (a : Reg) (b : RegOrImm)
  /-- SUB, R173. Writes (s[A] - s[B]) mod 2^64 to s[D]. -/
  | sub (d : Reg) (a : Reg) (b : Reg)
  /-- SUB_LONG, R173. 96-bit F96S form of sub. -/
  | subLong (p : Pred) (d : Reg) (a : Reg) (b : RegOrImm)
  /-- MUL, R173. Writes the low 64 bits of the product to s[D]. -/
  | mul (d : Reg) (a : Reg) (b : Reg)
  /-- MUL_LONG, R173. 96-bit F96S form of mul. -/
  | mulLong (p : Pred) (d : Reg) (a : Reg) (b : RegOrImm)
  /-- MULH, R173. Writes bits [127:64] of the signed product to s[D]. -/
  | mulh (d : Reg) (a : Reg) (b : Reg)
  /-- MULH_LONG, R173. 96-bit F96S form of mulh. -/
  | mulhLong (p : Pred) (d : Reg) (a : Reg) (b : RegOrImm)
  /-- MULHN, R173. Writes bits [127:64] of the unsigned product to s[D]. -/
  | mulhn (d : Reg) (a : Reg) (b : Reg)
  /-- MULHN_LONG, R173. 96-bit F96S form of mulhn. -/
  | mulhnLong (p : Pred) (d : Reg) (a : Reg) (b : RegOrImm)
  /-- DIV, R173. Signed truncating division, with the fixed results for a zero divisor and for overflow. -/
  | div (d : Reg) (a : Reg) (b : Reg)
  /-- DIV_LONG, R173. 96-bit F96S form of div. -/
  | divLong (p : Pred) (d : Reg) (a : Reg) (b : RegOrImm)
  /-- DIVN, R173. Unsigned division; a zero divisor gives 2^64 - 1. -/
  | divn (d : Reg) (a : Reg) (b : Reg)
  /-- DIVN_LONG, R173. 96-bit F96S form of divn. -/
  | divnLong (p : Pred) (d : Reg) (a : Reg) (b : RegOrImm)
  /-- REM, R173. Signed remainder, with the fixed results for a zero divisor and for overflow. -/
  | rem (d : Reg) (a : Reg) (b : Reg)
  /-- REM_LONG, R173. 96-bit F96S form of rem. -/
  | remLong (p : Pred) (d : Reg) (a : Reg) (b : RegOrImm)
  /-- REMN, R173. Unsigned remainder; a zero divisor gives a. -/
  | remn (d : Reg) (a : Reg) (b : Reg)
  /-- REMN_LONG, R173. 96-bit F96S form of remn. -/
  | remnLong (p : Pred) (d : Reg) (a : Reg) (b : RegOrImm)
  /-- AND, R173. Writes the bitwise AND of s[A] and s[B] to s[D]. -/
  | and (d : Reg) (a : Reg) (b : Reg)
  /-- AND_LONG, R173. 96-bit F96S form of and. -/
  | andLong (p : Pred) (d : Reg) (a : Reg) (b : RegOrImm)
  /-- OR, R173. Writes the bitwise OR of s[A] and s[B] to s[D]. -/
  | or (d : Reg) (a : Reg) (b : Reg)
  /-- OR_LONG, R173. 96-bit F96S form of or. -/
  | orLong (p : Pred) (d : Reg) (a : Reg) (b : RegOrImm)
  /-- XOR, R173. Writes the bitwise XOR of s[A] and s[B] to s[D]. -/
  | xor (d : Reg) (a : Reg) (b : Reg)
  /-- XOR_LONG, R173. 96-bit F96S form of xor. -/
  | xorLong (p : Pred) (d : Reg) (a : Reg) (b : RegOrImm)
  /-- SHL, R173. Logical left shift; a count of 64 or more gives 0. -/
  | shl (d : Reg) (a : Reg) (b : Reg)
  /-- SHL_LONG, R173. 96-bit F96S form of shl. -/
  | shlLong (p : Pred) (d : Reg) (a : Reg) (b : RegOrImm)
  /-- SHR, R173. Logical right shift; a count of 64 or more gives 0. -/
  | shr (d : Reg) (a : Reg) (b : Reg)
  /-- SHR_LONG, R173. 96-bit F96S form of shr. -/
  | shrLong (p : Pred) (d : Reg) (a : Reg) (b : RegOrImm)
  /-- SRA, R173. Arithmetic right shift by min(b, 63). -/
  | sra (d : Reg) (a : Reg) (b : Reg)
  /-- SRA_LONG, R173. 96-bit F96S form of sra. -/
  | sraLong (p : Pred) (d : Reg) (a : Reg) (b : RegOrImm)
  /-- MIN, R173. Writes the signed minimum to s[D]. -/
  | min (d : Reg) (a : Reg) (b : Reg)
  /-- MIN_LONG, R173. 96-bit F96S form of min. -/
  | minLong (p : Pred) (d : Reg) (a : Reg) (b : RegOrImm)
  /-- MAX, R173. Writes the signed maximum to s[D]. -/
  | max (d : Reg) (a : Reg) (b : Reg)
  /-- MAX_LONG, R173. 96-bit F96S form of max. -/
  | maxLong (p : Pred) (d : Reg) (a : Reg) (b : RegOrImm)
  /-- MINN, R173. Writes the unsigned minimum to s[D]. -/
  | minn (d : Reg) (a : Reg) (b : Reg)
  /-- MINN_LONG, R173. 96-bit F96S form of minn. -/
  | minnLong (p : Pred) (d : Reg) (a : Reg) (b : RegOrImm)
  /-- MAXN, R173. Writes the unsigned maximum to s[D]. -/
  | maxn (d : Reg) (a : Reg) (b : Reg)
  /-- MAXN_LONG, R173. 96-bit F96S form of maxn. -/
  | maxnLong (p : Pred) (d : Reg) (a : Reg) (b : RegOrImm)
  /-- CLZ, R173. Writes the number of leading zero bits of s[A] to s[D]. -/
  | clz (d : Reg) (a : Reg)
  /-- CLZ_LONG, R173. 96-bit F96S form of clz, register operand only. -/
  | clzLong (p : Pred) (d : Reg) (a : Reg)
  /-- POPC, R173. Writes the number of one bits of s[A] to s[D]. -/
  | popc (d : Reg) (a : Reg)
  /-- POPC_LONG, R173. 96-bit F96S form of popc. -/
  | popcLong (p : Pred) (d : Reg) (a : Reg)
  /-- SEXT, R173. Sign-extends s[A] from bit 7, 15 or 31, as F selects. -/
  | sext (f : BitVec 2) (d : Reg) (a : Reg)
  /-- SEXT_LONG, R173. 96-bit F96S form of sext, with F in SUB[19:18]. -/
  | sextLong (p : Pred) (f : BitVec 2) (d : Reg) (a : Reg)
  /-- ANDN, R173. Writes s[A] AND NOT s[B] to s[D]. -/
  | andn (d : Reg) (a : Reg) (b : Reg)
  /-- ANDN_LONG, R173. 96-bit F96S form of andn. -/
  | andnLong (p : Pred) (d : Reg) (a : Reg) (b : RegOrImm)
  /-- ADDI, R174. Adds the sign-extended IMM8 to s[A]. -/
  | addi (d : Reg) (a : Reg) (i : BitVec 8)
  /-- ADDI_LONG, R174. 96-bit form of addi, with an IMM32 operand. -/
  | addiLong (p : Pred) (d : Reg) (a : Reg) (i : BitVec 32)
  /-- ANDI, R174. ANDs s[A] with the immediate. -/
  | andi (d : Reg) (a : Reg) (i : BitVec 8)
  /-- ANDI_LONG, R174. 96-bit form of andi. -/
  | andiLong (p : Pred) (d : Reg) (a : Reg) (i : BitVec 32)
  /-- ORI, R174. ORs s[A] with the immediate. -/
  | ori (d : Reg) (a : Reg) (i : BitVec 8)
  /-- ORI_LONG, R174. 96-bit form of ori. -/
  | oriLong (p : Pred) (d : Reg) (a : Reg) (i : BitVec 32)
  /-- XORI, R174. XORs s[A] with the immediate. -/
  | xori (d : Reg) (a : Reg) (i : BitVec 8)
  /-- XORI_LONG, R174. 96-bit form of xori. -/
  | xoriLong (p : Pred) (d : Reg) (a : Reg) (i : BitVec 32)
  /-- SHLI, R174. Shifts s[A] left by an immediate count from 0 to 63. -/
  | shli (d : Reg) (a : Reg) (i : BitVec 8)
  /-- SHLI_LONG, R174. 96-bit form of shli. -/
  | shliLong (p : Pred) (d : Reg) (a : Reg) (i : BitVec 32)
  /-- SHRI, R174. Shifts s[A] right logically by an immediate count. -/
  | shri (d : Reg) (a : Reg) (i : BitVec 8)
  /-- SHRI_LONG, R174. 96-bit form of shri. -/
  | shriLong (p : Pred) (d : Reg) (a : Reg) (i : BitVec 32)
  /-- SRAI, R174. Shifts s[A] right arithmetically by an immediate count. -/
  | srai (d : Reg) (a : Reg) (i : BitVec 8)
  /-- SRAI_LONG, R174. 96-bit form of srai. -/
  | sraiLong (p : Pred) (d : Reg) (a : Reg) (i : BitVec 32)
  /-- LI, R175. Writes the sign-extended IMM14 to s[D]. -/
  | li (d : Reg) (i : BitVec 14)
  /-- LI_LONG, R175. 96-bit form of li, writing the sign-extended IMM32. -/
  | liLong (p : Pred) (d : Reg) (i : BitVec 32)
  /-- LI_HI, R175. Writes IMM32 to s[D][63:32] and keeps s[D][31:0]. -/
  | liHi (p : Pred) (d : Reg) (i : BitVec 32)
  /-- CMPEQ, R176. Writes (a = b) to predicate k[D]. -/
  | cmpeq (k : PIdx) (a : Reg) (b : Reg)
  /-- CMPEQ_LONG, R176. 96-bit form of cmpeq, with a register or an immediate. -/
  | cmpeqLong (p : Pred) (k : PIdx) (a : Reg) (b : RegOrImm)
  /-- CMPNE, R176. Writes (a != b) to predicate k[D]. -/
  | cmpne (k : PIdx) (a : Reg) (b : Reg)
  /-- CMPNE_LONG, R176. 96-bit form of cmpne. -/
  | cmpneLong (p : Pred) (k : PIdx) (a : Reg) (b : RegOrImm)
  /-- CMPLT, R176. Writes the signed comparison (a < b) to predicate k[D]. -/
  | cmplt (k : PIdx) (a : Reg) (b : Reg)
  /-- CMPLT_LONG, R176. 96-bit form of cmplt. -/
  | cmpltLong (p : Pred) (k : PIdx) (a : Reg) (b : RegOrImm)
  /-- CMPLE, R176. Writes the signed comparison (a <= b) to predicate k[D]. -/
  | cmple (k : PIdx) (a : Reg) (b : Reg)
  /-- CMPLE_LONG, R176. 96-bit form of cmple. -/
  | cmpleLong (p : Pred) (k : PIdx) (a : Reg) (b : RegOrImm)
  /-- CMPLTN, R176. Writes the unsigned comparison (a < b) to predicate k[D]. -/
  | cmpltn (k : PIdx) (a : Reg) (b : Reg)
  /-- CMPLTN_LONG, R176. 96-bit form of cmpltn. -/
  | cmpltnLong (p : Pred) (k : PIdx) (a : Reg) (b : RegOrImm)
  /-- CMPLEN, R176. Writes the unsigned comparison (a <= b) to predicate k[D]. -/
  | cmplen (k : PIdx) (a : Reg) (b : Reg)
  /-- CMPLEN_LONG, R176. 96-bit form of cmplen. -/
  | cmplenLong (p : Pred) (k : PIdx) (a : Reg) (b : RegOrImm)
  /-- PAND, R177. Writes k[A] AND k[B] to k[D]. -/
  | pand (d : PIdx) (a : PIdx) (b : PIdx)
  /-- POR, R177. Writes k[A] OR k[B] to k[D]. -/
  | por (d : PIdx) (a : PIdx) (b : PIdx)
  /-- PXOR, R177. Writes k[A] XOR k[B] to k[D]. -/
  | pxor (d : PIdx) (a : PIdx) (b : PIdx)
  /-- PNOT, R177. Writes NOT k[A] to k[D]. -/
  | pnot (d : PIdx) (a : PIdx)
  /-- KGET, R177. Packs the 16 predicates into s[D]. -/
  | kget (d : Reg)
  /-- KSET, R177. Sets k1 to k15 from bits 1 to 15 of s[A]. -/
  | kset (a : Reg)
  /-- LD, R178. Loads an integer element from a coordinate address into s[D], extended by its type. -/
  | ld (t : Ty) (d : Reg) (a : Reg) (i : BitVec 4)
  /-- LD_LONG, R178. 96-bit F96S form of ld, with an IMM32 or register offset. -/
  | ldLong (p : Pred) (t : Ty) (d : Reg) (a : Reg) (o : RegOrImm)
  /-- ST, R179. Stores the low bytes of s[D] to a coordinate address, merging under a byte mask. -/
  | st (t : Ty) (d : Reg) (a : Reg) (i : BitVec 4)
  /-- ST_LONG, R179. 96-bit F96S form of st. -/
  | stLong (p : Pred) (t : Ty) (d : Reg) (a : Reg) (o : RegOrImm)
  /-- LDG, R178. Loads an integer element from a virtual address into s[D], through L1. -/
  | ldg (t : Ty) (d : Reg) (a : Reg) (i : BitVec 4)
  /-- LDG_LONG, R178. 96-bit F96S form of ldg. -/
  | ldgLong (p : Pred) (t : Ty) (d : Reg) (a : Reg) (o : RegOrImm)
  /-- STG, R179. Stores the low bytes of s[D] to a virtual address, performed at the L2 slice. -/
  | stg (t : Ty) (d : Reg) (a : Reg) (i : BitVec 4)
  /-- STG_LONG, R179. 96-bit F96S form of stg. -/
  | stgLong (p : Pred) (t : Ty) (d : Reg) (a : Reg) (o : RegOrImm)
  /-- MFC, R181. Reads a control register into s[D], under its access and order rules. -/
  | mfc (d : Reg) (n : BitVec 14)
  /-- MTC, R181. Writes s[D] to a control register, with that register's checks and side effects. -/
  | mtc (d : Reg) (n : BitVec 14)
  /-- CID, R182. Writes the executing cluster's id and coordinates to s[D]. -/
  | cid (d : Reg)
  /-- CID_LONG, R182. 96-bit F96S form of cid. -/
  | cidLong (p : Pred) (d : Reg)
  /-- NEARAD, R182. Forms a relative coordinate address from an offset and dx, dy. -/
  | nearad (d : Reg) (a : Reg) (b : Reg)
  /-- NEARAD_LONG, R182. 96-bit F96S form of nearad. -/
  | nearadLong (p : Pred) (d : Reg) (a : Reg) (b : RegOrImm)
  /-- CLAD, R182. Forms the absolute coordinate address of a cluster id and an offset. -/
  | clad (d : Reg) (a : Reg) (b : Reg)
  /-- CLAD_LONG, R182. 96-bit F96S form of clad. -/
  | cladLong (p : Pred) (d : Reg) (a : Reg) (b : RegOrImm)
  /-- FENCE, R183. Orders every earlier access of the cluster before every later one, at the named scope. -/
  | fence (i : BitVec 8)
  /-- ISYNC, R184. Brings all PCs together, discards the prefetched parcels and fetches the text anew. -/
  | isync
  /-- YIELD, R185. Pre-emption point: the task is pre-empted if a request or an equal or higher-level stage waits. -/
  | yield
  /-- HALT, R186. Ends the cluster task, or the rake thread, with an exit status once its end conditions hold. -/
  | halt (i : BitVec 8)
  /-- TRAP, R187. Raises software cause 0xE0 + n precisely. -/
  | trap (i : BitVec 8)
  /-- FTST, R188. Writes a flag to a predicate, as an acquire at device scope. -/
  | ftst (k : PIdx) (n : BitVec 14)
  /-- FSET, R188. Sets a flag, as a release at device scope. -/
  | fset (n : BitVec 14)
  /-- FCLR, R188. Clears a flag, as a release at device scope. -/
  | fclr (n : BitVec 14)
  /-- FWAIT, R188. Waits until the flag is 1, then completes as an acquire. -/
  | fwait (n : BitVec 14)
  /-- WLPUSH, R189. Appends an item to a windrow, waiting while it is full. -/
  | wlpush (a : Reg) (b : Reg)
  /-- WLPOP, R190. Pops one windrow item into s[D], or returns the empty marker. -/
  | wlpop (d : Reg) (a : Reg)
  /-- B, R191. Unconditional branch by IMM20 parcels. -/
  | b (i : BitVec 20)
  /-- B_LONG, R191. 96-bit branch by an IMM32 byte offset. -/
  | bLong (i : BitVec 32)
  /-- BK, R191. Branches when the predicate, optionally inverted, is true; the outcome is posted to the other PCs. -/
  | bk (neg : Bool) (k : PIdx) (i : BitVec 15)
  /-- BK_LONG, R191. 96-bit form of bk, with an IMM32 offset. -/
  | bkLong (neg : Bool) (k : PIdx) (i : BitVec 32)
  /-- CALL, R191. Branches and writes the return address to lk. -/
  | call (i : BitVec 20)
  /-- CALL_LONG, R191. 96-bit form of call. -/
  | callLong (i : BitVec 32)
  /-- RET, R191. Branches to lk. -/
  | ret
  /-- JR, R191. Branches to the address in s[A]. -/
  | jr (a : Reg)
  /-- LOOP, R193. Opens a hardware loop whose trip count is in s[D]; every PC pushes a loop-stack entry. -/
  | loop (d : Reg) (i : BitVec 14)
  /-- LOOPI, R193. Opens a hardware loop with an immediate trip count. -/
  | loopi (n : BitVec 32) (len : BitVec 12)
  /-- LEXIT, R194. Leaves the innermost loop when the predicate holds. -/
  | lexit (neg : Bool) (k : PIdx)
  /-- BAR, R195. Arrives at the gang barrier and, once it completes, writes the new superstep number. -/
  | bar (d : Reg)
  /-- MEET, R196. All five PCs meet, and every earlier instruction completes. -/
  | meet
  /-- SIGCHK, R50. Every PC compares its signature register with the table entry and resets it; a mismatch raises 0xC4. -/
  | sigchk (i : BitVec 20)
  /-- VBR, R232. The A engine tests a vector mask and steers every PC to the target or to the fall-through. -/
  | vbr (t : Ty) (c : BrCond) (tok : Tok) (a : Opnd) (i : BitVec 32)
  /-- ECOPY, R134. Issues a strided copy command to the copy engine. -/
  | ecopy (p : Pred) (d : Reg) (a : Reg) (f0 : Reg) (f1 : Reg) (f2 : Reg) (f3 : Reg)
  /-- EGATH, R135. Issues a gather copy whose source rows come from an index list. -/
  | egath (p : Pred) (d : Reg) (a : Reg) (f0 : Reg) (f1 : Reg) (f2 : Reg) (f3 : Reg)
  /-- ESCAT, R135. Issues a scatter copy whose destination rows come from an index list. -/
  | escat (p : Pred) (d : Reg) (a : Reg) (f0 : Reg) (f1 : Reg) (f2 : Reg) (f3 : Reg)
  /-- EACC, R138. Issues an accumulate-on-write command applying OPX to each destination element. -/
  | eacc (p : Pred) (d : Reg) (a : Reg) (f0 : Reg) (f1 : Reg) (f2 : Reg) (f3 : Reg)
  /-- EMARK, R143. Places markers in the named queues and sets a flag when they and the write acknowledgements are done. -/
  | emark (p : Pred) (d : Reg) (a : Reg) (f0 : Reg) (f1 : Reg) (f2 : Reg) (f3 : Reg)
  /-- EARM, R129. Atomically clears and sets scoreboard bits and returns the old scoreboard. -/
  | earm (p : Pred) (d : Reg) (a : Reg) (f0 : Reg)
  /-- EWAIT, R142. Stalls until the retired-through word reaches the target sequence number. -/
  | ewait (p : Pred) (a : Reg)
  /-- EROUTE, R272. Opens a sluice routing round on this die. -/
  | eroute (p : Pred) (d : Reg) (a : Reg) (f0 : Reg) (f1 : Reg) (f2 : Reg) (f3 : Reg)
  /-- EBATCH, R293. Issues an item stream to the conflict batcher. -/
  | ebatch (p : Pred) (d : Reg) (a : Reg) (f0 : Reg) (f1 : Reg) (f2 : Reg) (f3 : Reg)
  /-- ELDRED, R325. Issues a reduction over a group, in pull or push mode. -/
  | eldred (p : Pred) (d : Reg) (a : Reg) (f0 : Reg) (f1 : Reg) (f2 : Reg) (f3 : Reg)
  /-- EGROUP, R319. Sets, queries or clears a multicast group slot and waits for the result. -/
  | egroup (p : Pred) (d : Reg) (a : Reg) (f0 : Reg) (f1 : Reg) (f2 : Reg) (f3 : Reg)
  /-- ECARRY, R326. Sends up to 8 lines on tc0 to a guarded remote mailbox. -/
  | ecarry (p : Pred) (d : Reg) (a : Reg) (f0 : Reg) (f1 : Reg) (f2 : Reg) (f3 : Reg)
  /-- ECOLL, R327. Issues a layout-redistributing collective to the collective engine. -/
  | ecoll (p : Pred) (d : Reg) (a : Reg) (f0 : Reg) (f1 : Reg) (f2 : Reg) (f3 : Reg)
  /-- EGET, R315. Copies from a remote window into local memory. -/
  | eget (p : Pred) (d : Reg) (a : Reg) (f0 : Reg) (f1 : Reg) (f2 : Reg) (f3 : Reg)
  /-- EPUT, R315. Copies local memory into a remote window, optionally setting a flag at the peer. -/
  | eput (p : Pred) (d : Reg) (a : Reg) (f0 : Reg) (f1 : Reg) (f2 : Reg) (f3 : Reg)
  /-- EMCAST, R320. Writes a local source to every member of a group. -/
  | emcast (p : Pred) (d : Reg) (a : Reg) (f0 : Reg) (f1 : Reg) (f2 : Reg) (f3 : Reg)
  /-- EAPPEND, R291. Appends items to windrows, or with OPX 1 arms the termination detector. -/
  | eappend (p : Pred) (d : Reg) (a : Reg) (f0 : Reg) (f1 : Reg) (f2 : Reg) (f3 : Reg)
  /-- EBEXP, R360. Posts a byte-count expectation to a byte counter, optionally advancing bphase. -/
  | ebexp (p : Pred) (d : Reg) (a : Reg) (f0 : Reg) (f1 : Reg) (f2 : Reg) (f3 : Reg)
  /-- ECANCEL, R144. Cancels a copy command by sequence number and reports its state. -/
  | ecancel (p : Pred) (d : Reg) (a : Reg)
  /-- ESTAT, R145. Reads a selected copy-engine status value. -/
  | estat (p : Pred) (d : Reg) (a : Reg)
  /-- EFSET, R356. A copy-family command that sets or clears one flag when its scoreboard bits are set. -/
  | efset (p : Pred) (d : Reg) (a : Reg) (f0 : Reg) (f1 : Reg) (f2 : Reg) (f3 : Reg)
  /-- EDRAIN, R142. Stalls until no copy command occupies a slot and the write-acknowledge count is zero. -/
  | edrain (p : Pred)
  /-- VLD, R214. Loads a run from scratchpad into a vector name, decoding each element. -/
  | vld (hd : VHead) (d : Opnd) (a : Opnd)
  /-- VLDX, R215. Indexed load of elements addressed by a vector of indices. -/
  | vldx (hd : VHead) (d : Opnd) (a : Opnd) (b : Opnd)
  /-- VLDB, R219. Extracts packed bit fields from two scratchpad lines by a pattern. -/
  | vldb (hd : VHead) (base : BitVec 10) (fmt : BitVec 32) (d : Opnd) (a : Opnd) (c : Opnd)
  /-- VLDG, R217. Loads a 128-byte device-memory line raw. -/
  | vldg (hd : VHead) (d : Opnd) (a : Opnd)
  /-- VLDBC, R214. Loads one element and broadcasts it to every lane. -/
  | vldbc (hd : VHead) (d : Opnd) (a : Opnd)
  /-- VLDS, R219. Extracts packed bit fields from two device-memory lines. -/
  | vlds (hd : VHead) (base : BitVec 10) (fmt : BitVec 32) (d : Opnd) (a : Opnd) (c : Opnd)
  /-- VPREF, R218. Requests a line into L1 without architectural effect. -/
  | vpref (hd : VHead) (a : Opnd)
  /-- VLDFL, R218. vldg with translation faults suppressed, writing a success mask. -/
  | vldfl (hd : VHead) (d : Opnd) (a : Opnd) (b : Opnd)
  /-- VST, R214. Stores the lanes of a vector into a scratchpad run. -/
  | vst (hd : VHead) (d : Opnd) (a : Opnd)
  /-- VSTX, R215. Indexed store, with the highest lane standing on a collision. -/
  | vstx (hd : VHead) (d : Opnd) (a : Opnd) (b : Opnd)
  /-- VSTB, R219. Inserts bit fields into two scratchpad lines by a pattern. -/
  | vstb (hd : VHead) (base : BitVec 10) (fmt : BitVec 32) (d : Opnd) (a : Opnd) (c : Opnd)
  /-- VSTG, R217. Stores 128 bytes raw to a device-memory line. -/
  | vstg (hd : VHead) (d : Opnd) (a : Opnd)
  /-- VSTS, R219. Inserts bit fields into two device-memory lines. -/
  | vsts (hd : VHead) (base : BitVec 10) (fmt : BitVec 32) (d : Opnd) (a : Opnd) (c : Opnd)
  /-- VSTM, R216. Stores only the masked elements of a run. -/
  | vstm (hd : VHead) (d : Opnd) (a : Opnd) (b : Opnd)
  /-- VSTC, R216. Compress-stores the masked lanes densely. -/
  | vstc (hd : VHead) (d : Opnd) (a : Opnd) (b : Opnd)
  /-- VMOV, R220. Copies A to D with conversion. -/
  | vmov (hd : VHead) (d : Opnd) (a : Opnd)
  /-- VADD, R220. Element-wise add, rounded once. -/
  | vadd (hd : VHead) (d : Opnd) (a : Opnd) (b : Opnd)
  /-- VSUB, R220. Element-wise subtract. -/
  | vsub (hd : VHead) (d : Opnd) (a : Opnd) (b : Opnd)
  /-- VMUL, R220. Element-wise multiply. -/
  | vmul (hd : VHead) (d : Opnd) (a : Opnd) (b : Opnd)
  /-- VFMA, R220. Fused a*b + c, rounded once. -/
  | vfma (hd : VHead) (d : Opnd) (a : Opnd) (b : Opnd) (c : Opnd)
  /-- VFMS, R220. Fused a*b - c. -/
  | vfms (hd : VHead) (d : Opnd) (a : Opnd) (b : Opnd) (c : Opnd)
  /-- VFNMA, R220. Fused -(a*b) + c. -/
  | vfnma (hd : VHead) (d : Opnd) (a : Opnd) (b : Opnd) (c : Opnd)
  /-- VNEG, R220. Element-wise negation. -/
  | vneg (hd : VHead) (d : Opnd) (a : Opnd)
  /-- VABS, R220. Element-wise absolute value. -/
  | vabs (hd : VHead) (d : Opnd) (a : Opnd)
  /-- VMIN, R220. Element-wise minimum. -/
  | vmin (hd : VHead) (d : Opnd) (a : Opnd) (b : Opnd)
  /-- VMAX, R220. Element-wise maximum. -/
  | vmax (hd : VHead) (d : Opnd) (a : Opnd) (b : Opnd)
  /-- VCLAMP, R220. Element-wise min(max(a, b), c). -/
  | vclamp (hd : VHead) (d : Opnd) (a : Opnd) (b : Opnd) (c : Opnd)
  /-- VMULH, R221. High half of the integer product. -/
  | vmulh (hd : VHead) (d : Opnd) (a : Opnd) (b : Opnd)
  /-- VAVG, R221. Rounded integer average. -/
  | vavg (hd : VHead) (d : Opnd) (a : Opnd) (b : Opnd)
  /-- VABSD, R220. Element-wise absolute difference. -/
  | vabsd (hd : VHead) (d : Opnd) (a : Opnd) (b : Opnd)
  /-- VAND, R221. Bitwise AND. -/
  | vand (hd : VHead) (d : Opnd) (a : Opnd) (b : Opnd)
  /-- VOR, R221. Bitwise OR. -/
  | vor (hd : VHead) (d : Opnd) (a : Opnd) (b : Opnd)
  /-- VXOR, R221. Bitwise XOR. -/
  | vxor (hd : VHead) (d : Opnd) (a : Opnd) (b : Opnd)
  /-- VANDN, R221. Bitwise a AND NOT b. -/
  | vandn (hd : VHead) (d : Opnd) (a : Opnd) (b : Opnd)
  /-- VNOT, R221. Bitwise NOT. -/
  | vnot (hd : VHead) (d : Opnd) (a : Opnd)
  /-- VSHL, R221. Element-wise left shift. -/
  | vshl (hd : VHead) (d : Opnd) (a : Opnd) (b : Opnd)
  /-- VSHR, R221. Element-wise logical right shift. -/
  | vshr (hd : VHead) (d : Opnd) (a : Opnd) (b : Opnd)
  /-- VSRA, R221. Element-wise arithmetic right shift. -/
  | vsra (hd : VHead) (d : Opnd) (a : Opnd) (b : Opnd)
  /-- VCLZ, R221. Leading-zero count per lane. -/
  | vclz (hd : VHead) (d : Opnd) (a : Opnd)
  /-- VPOPC, R221. One-bit count per lane. -/
  | vpopc (hd : VHead) (d : Opnd) (a : Opnd)
  /-- VCMPEQ, R222. Writes the mask of lanes where a = b. -/
  | vcmpeq (hd : VHead) (d : Opnd) (a : Opnd) (b : Opnd)
  /-- VCMPNE, R222. Writes the mask of lanes where a != b. -/
  | vcmpne (hd : VHead) (d : Opnd) (a : Opnd) (b : Opnd)
  /-- VCMPLT, R222. Writes the mask of lanes where a < b. -/
  | vcmplt (hd : VHead) (d : Opnd) (a : Opnd) (b : Opnd)
  /-- VCMPLE, R222. Writes the mask of lanes where a <= b. -/
  | vcmple (hd : VHead) (d : Opnd) (a : Opnd) (b : Opnd)
  /-- VSEL, R222. Selects lanes of A or B by a mask. -/
  | vsel (hd : VHead) (d : Opnd) (a : Opnd) (b : Opnd) (c : Opnd)
  /-- VMSK, R222. Mask logic, chosen by op in SUB. -/
  | vmsk (hd : VHead) (op : MaskOp) (d : Opnd) (a : Opnd) (b : Opnd)
  /-- VCVT, R223. Converts from a source type to T with a part selector. -/
  | vcvt (hd : VHead) (part : BitVec 2) (st : Ty) (d : Opnd) (a : Opnd)
  /-- VRND, R223. Rounds each lane to an integral value. -/
  | vrnd (hd : VHead) (d : Opnd) (a : Opnd)
  /-- VEXP, R224. Exponential by the reference algorithm. -/
  | vexp (hd : VHead) (d : Opnd) (a : Opnd)
  /-- VLOG, R224. Natural logarithm by the reference algorithm. -/
  | vlog (hd : VHead) (d : Opnd) (a : Opnd)
  /-- VRCP, R224. Reciprocal, correctly rounded. -/
  | vrcp (hd : VHead) (d : Opnd) (a : Opnd)
  /-- VRSQRT, R224. Reciprocal square root, correctly rounded. -/
  | vrsqrt (hd : VHead) (d : Opnd) (a : Opnd)
  /-- VTANH, R224. Hyperbolic tangent by the reference algorithm. -/
  | vtanh (hd : VHead) (d : Opnd) (a : Opnd)
  /-- VREDADD, R225. Tree sum of the lanes into lane 0. -/
  | vredadd (hd : VHead) (d : Opnd) (a : Opnd)
  /-- VREDMAX, R225. Tree maximum of the lanes into lane 0. -/
  | vredmax (hd : VHead) (d : Opnd) (a : Opnd)
  /-- VREDMIN, R225. Tree minimum of the lanes into lane 0. -/
  | vredmin (hd : VHead) (d : Opnd) (a : Opnd)
  /-- VSCAN, R226. Brent-Kung inclusive scan, or carry totals, with the add, max or affine operator. -/
  | vscan (hd : VHead) (tot : Bool) (op : ScanOp) (d : Opnd) (e : Opnd) (a : Opnd) (b : Opnd)
  /-- VSCANC, R227. Applies a carry to an already-scanned vector. -/
  | vscanc (hd : VHead) (op : ScanOp) (d : Opnd) (e : Opnd) (a : Opnd) (b : Opnd) (c : Opnd)
  /-- VPERM, R229. Permutes lanes by an index vector. -/
  | vperm (hd : VHead) (d : Opnd) (a : Opnd) (b : Opnd)
  /-- VROT, R229. Rotates lanes. -/
  | vrot (hd : VHead) (d : Opnd) (a : Opnd) (b : Opnd)
  /-- VSHUF, R229. Two-source shuffle by an index vector. -/
  | vshuf (hd : VHead) (d : Opnd) (a : Opnd) (b : Opnd) (c : Opnd)
  /-- VCMPR, R229. Compresses the masked lanes to the front. -/
  | vcmpr (hd : VHead) (d : Opnd) (a : Opnd) (b : Opnd)
  /-- VEXPD, R229. Expands lanes into the masked positions. -/
  | vexpd (hd : VHead) (d : Opnd) (a : Opnd) (b : Opnd)
  /-- VHASH, R230. Hashes each lane and keeps k bits. -/
  | vhash (hd : VHead) (bits : BitVec 7) (d : Opnd) (a : Opnd) (b : Opnd)
  /-- VNFT, R231. Masks the non-finite lanes and sets a flag if any exists. -/
  | vnft (hd : VHead) (d : Opnd) (a : Opnd) (b : Opnd)
  /-- VSPLAT, R229. Writes a scalar to every lane. -/
  | vsplat (hd : VHead) (d : Opnd) (a : Opnd)
  /-- VIOTA, R229. Writes b + i to lane i. -/
  | viota (hd : VHead) (d : Opnd) (a : Opnd)
  /-- VDUP, R229. Broadcasts one selected lane. -/
  | vdup (hd : VHead) (d : Opnd) (a : Opnd) (b : Opnd)
  /-- VCNT, R222. Writes the count of set mask bits to every lane. -/
  | vcnt (hd : VHead) (d : Opnd) (a : Opnd)
  /-- VBFX, R219. Extracts bit fields from a vector operand. -/
  | vbfx (hd : VHead) (base : BitVec 10) (fmt : BitVec 32) (d : Opnd) (a : Opnd) (c : Opnd)
  /-- MMAC, R250. Multiplies slab A rows by slab B rows into an accumulator set across the grove. -/
  | mmac (tok : Tok) (t : Ty) (acc : BitVec 2) (sa : BitVec 3) (sb : BitVec 3) (rms : BitVec 2)
  /-- MMACS, R252. Block-scaled product with BF16 scale slabs. -/
  | mmacs (tok : Tok) (t : Ty) (acc : BitVec 2) (sa : BitVec 3) (sb : BitVec 3) (rms : BitVec 2) (qa : BitVec 3) (ca : BitVec 6) (qb : BitVec 3) (cb : BitVec 6)
  /-- MROT, R251. Product from local slabs, then rotates the slabs around the torus. -/
  | mrot (tok : Tok) (t : Ty) (acc : BitVec 2) (sa : BitVec 3) (sb : BitVec 3) (rms : BitVec 2)
  /-- MGX, R254. Gathers A rows through the latch by an index vector and multiplies them. -/
  | mgx (tok : Tok) (t : Ty) (acc : BitVec 2) (sb : BitVec 3) (rms : BitVec 2) (a : Opnd) (c : Opnd)
  /-- MGRP, R255. Grouped expert product over bins, with weights located by rpol. -/
  | mgrp (tok : Tok) (t : Ty) (acc : BitVec 2) (rms : BitVec 2) (a : Opnd) (b : Opnd) (nb : BitVec 7) (j : BitVec 8) (ks : BitVec 16)
  /-- MCHK, R260. Switches checked mode on or off, or verifies an accumulator set's checksums. -/
  | mchk (tok : Tok) (op : ChkOp) (acc : BitVec 2)
  /-- MSHAPE, R244. Reshapes or releases the cluster's grove. -/
  | mshape (tok : Tok) (a : Opnd)
  /-- MZERO, R257. Zeroes and settles an accumulator set. -/
  | mzero (tok : Tok) (acc : BitVec 2)
  /-- MDRAIN, R258. Converts and writes an accumulator set to scratchpad and settles it. -/
  | mdrain (hd : VHead) (acc : BitVec 2) (d : Opnd)
  /-- MMOV, R259. Moves one accumulator row to a vector name. -/
  | mmov (hd : VHead) (acc : BitVec 2) (d : Opnd) (a : Opnd)
  /-- MFILL, R248. Fills a tile-buffer slab from a scratchpad block. -/
  | mfill (tok : Tok) (col : Bool) (s : BitVec 3) (a : Opnd) (b : Opnd)
  /-- MREL, R249. Releases a slab in every tile, waiting for owed lines. -/
  | mrel (tok : Tok) (s : BitVec 3)
  /-- MKEEP, R257. Settles an accumulator set and marks it kept. -/
  | mkeep (tok : Tok) (acc : BitVec 2)
  /-- MRD, R261. Writes grove status or an rpol register to a vector. -/
  | mrd (tok : Tok) (sel : BitVec 3) (d : Opnd) (a : Opnd)
  /-- RECV, R199. Sleeps until a ring holds a message, then returns its address. -/
  | recv (d : Reg) (a : Reg)
  /-- RECVT, R199. recv with a timeout in clk. -/
  | recvt (p : Pred) (d : Reg) (a : Reg) (b : RegOrImm)
  /-- RPEEK, R199. Returns the number of lines the ring holds, without waiting. -/
  | rpeek (d : Reg) (a : Reg)
  /-- RADV, R199. Advances the ring head, releasing lines. -/
  | radv (a : Reg) (b : Reg)
  /-- RSEND, R199. Sends a message to a ring of a cluster on this device and waits for delivery. -/
  | rsend (p : Pred) (d : Reg) (a : Reg) (b : RegOrImm)
  /-- RBIND, R199. Binds or unbinds a receive ring to the thread. -/
  | rbind (d : Reg) (a : Reg) (b : Reg)
  /-- TDONE, R199. Counts the completion of the thread's outstanding windrow item. -/
  | tdone
  /-- KWAKE, R199. Sets a thread's wake-pending bit. -/
  | kwake (a : Reg)
  /-- KSLEEP, R199. Consumes wake-pending, or sleeps until it is set. -/
  | ksleep
  /-- KID, R199. Writes the thread number plus 256 times the cluster id. -/
  | kid (d : Reg)
  /-- RECVT_TIMEOUT, R199. A recvt gives up after b clk and writes all ones. -/
  | recvtTimeout (cl : Nat) (thr : Nat)
  /-- WALK_DEADLOCK, R168. All five PCs wait on each other; 0x0F is raised within 1,024 clk. -/
  | walkDeadlock (cl : Nat)
  /-- TRAP_ENTRY, R387. A precise cause halts every PC, writes the frame header and the fault log, and sets tpend. -/
  | trapEntry (cl : Nat) (e : Eng) (cause : BitVec 8) (addr : Word)
  /-- PREEMPTION, R391. A pre-emption request halts every engine at an instruction boundary within 94 clk. -/
  | preemption (cl : Nat) (steps : Nat)
  /-- SPILL, R393. Writes a halted task's state to its save frame through the save channel. -/
  | spill (cl : Nat)
  /-- FILL_BACK, R397. Reads a spilled task back, checking the CRCs, and resumes it. -/
  | fillBack (agent : Nat) (ctx : Nat) (cl : Nat)
  /-- RESUME, R392. tctl action 0x00: the trapped or saved task continues and the trapping PC issues again. -/
  | resume (cl : Nat) (thr : Option Nat)
  /-- RESUME_PAST, R392. tctl action 0x01: resume, with the trapping instruction passed without effect. -/
  | resumePast (cl : Nat) (thr : Option Nat)
  /-- SAVE, R392. tctl action 0x02: pre-empts and spills a task. -/
  | save (cl : Nat)
  /-- REPLAY_PARKED, R392. tctl action 0x03: issues every parked element of the context on this die again. -/
  | replayParked (die : Nat) (ctx : Nat)
  /-- KILL, R401. tctl action 0x04: starts teardown of the context on the device. -/
  | kill (ctx : Nat)
  /-- TEARDOWN_COMPLETE, R401. When every drain marker has returned, groves and cluster state are cleared, graphs get 0xA9 and BUSY clears. -/
  | teardownComplete (ctx : Nat)
  /-- TASK_END, R186. The halt conditions hold; the task ends, or is held in the protected gang. -/
  | taskEnd (cl : Nat)
  /-- LAUNCH_RECORD, R366. The scheduler reads a launch record after a tail store, validates the graph and appends ITEM, or refuses. -/
  | launchRecord (ctx : Nat) (q : Nat)
  /-- GRAPH_END, R366. The graph ends, and its status word is written as a release. -/
  | graphEnd (g : Nat)
  /-- STAGE_SCHEDULE, R372. The die scheduler gives a runnable stage a qualifying cluster. -/
  | stageSchedule (die : Nat) (g : Nat) (st : Nat)
  /-- TASK_LAUNCH, R370. A task starts with a cleared scratchpad, the image loaded and its registers set. -/
  | taskLaunch (cl : Nat)
  /-- GANG_PLACEMENT, R376. A ganged stage is placed whole, after confirmation over tc3. -/
  | gangPlacement (gang : Nat) (remote : List (Nat × Nat))
  /-- RESERVATION_RELEASE, R378. A younger gang's reservation is given to an older gang within 2 µs. -/
  | reservationRelease (gang : Nat)
  /-- AGING_PREEMPT, R373. After a stage has waited 32 µs, the scheduler pre-empts a victim. -/
  | agingPreempt (die : Nat) (g : Nat) (st : Nat)
  /-- COMMAND_ACCEPTANCE, R128. An engine takes a slot and sets the owed bits of the destination lines. -/
  | commandAcceptance (cl : Nat) (who : Nat)
  /-- COMMAND_START, R129. A command starts when every WAIT bit is set, and runs its reference program. -/
  | commandStart (u : Unit6) (cl : Nat) (seq : BitVec 32)
  /-- COMMAND_RETIREMENT, R130. Writes the completion word, raises the retired-through word and sets SIG. -/
  | commandRetirement (u : Unit6) (cl : Nat) (seq : BitVec 32)
  /-- FOLLOW_ON, R141. The matrix engine executes a command's FOLLOW word after the last byte lands. -/
  | followOn (cl : Nat) (seq : BitVec 32)
  /-- MARKER_RETIRE, R143. emark markers retire and the write-acknowledge count is zero; the flag is set. -/
  | markerRetire (cl : Nat) (seq : BitVec 32)
  /-- COMBINING_NODE_MERGE, R146. Identical ecopy reads within 64 clk are served by one read multicast to all. -/
  | combiningNodeMerge (die : Nat) (cmds : List (Nat × BitVec 32))
  /-- LINE_LANDING, R17. A committed fill's last byte lands and its owed bit clears. -/
  | lineLanding (l : LineRef)
  /-- EACC_UPDATE, R139. One indivisible read-modify-write of an element at its port. -/
  | eaccUpdate (cl : Nat) (seq : BitVec 32)
  /-- TRANSLATION_WALK, R89. A coalesced page-table walk completes and delivers its result or fault. -/
  | translationWalk (die : Nat) (k : Nat)
  /-- XLINV_PAGE, R90. Invalidates the page at VPG of context CTX on the die. -/
  | xlinvPage (die : Nat) (ctx : Nat) (vpg : BitVec 32)
  /-- XLINV_CONTEXT, R90. Invalidates every entry of context CTX. -/
  | xlinvContext (die : Nat) (ctx : Nat)
  /-- XLINV_ALL, R90. Invalidates every TLB entry of the die. -/
  | xlinvAll (die : Nat)
  /-- INVALIDATION_COMPLETE, R90. Dropped entries' accesses are performed; xlstat BUSY clears. -/
  | invalidationComplete (die : Nat)
  /-- L2PIN_WRITE, R104. Changes pinned ways: writes back, zeroes and invalidates lines. -/
  | l2pinWrite (die : Nat) (v : Word)
  /-- CONTEXT_LOAD, R93. ctxctl LOAD 1: reads a descriptor on every die and serves its launch queues. -/
  | contextLoad (n : Nat)
  /-- CONTEXT_UNLOAD, R93. ctxctl LOAD 0: stops serving the context's launch queues. -/
  | contextUnload (n : Nat)
  /-- FABCFG_WRITE, R299. Firmware sets the field order, device id and enable, or the write is ignored. -/
  | fabcfgWrite (v : Word)
  /-- FABRIC_TABLE_WRITE, R310. fabtsel WR 1: writes a router table entry on both junction dies. -/
  | fabricTableWrite (sel : Word) (dat : BitVec 256)
  /-- FABRIC_TABLE_READ, R310. fabtsel WR 0: reads a router table entry into the data registers. -/
  | fabricTableRead (sel : Word)
  /-- EVRING_WRITE, R383. Sets the event ring and resets evhead and evtail. -/
  | evringWrite (die : Nat) (v : Word)
  /-- EVBIND_WRITE, R381. Binds an event code to a management stage, extending M3 with its image digest. -/
  | evbindWrite (die : Nat) (k : Nat) (v : Word)
  /-- HAPCTL_WRITE, R419. Sets the BAR2 aperture's context and base for later requests. -/
  | hapctlWrite (v : Word)
  /-- REGISTER_WRITE, R160. Write of a control register that has no row of its own, with the layout and privilege checks. -/
  | registerWrite (die : Nat) (num : Nat) (v : Word)
  /-- HOST_APERTURE_READ, R419. A host read through BAR2, translated in the context. -/
  | hostApertureRead (o : Nat) (len : Nat)
  /-- HOST_APERTURE_WRITE, R419. A host posted write through BAR2. -/
  | hostApertureWrite (o : Nat) (bytes : List Byte)
  /-- QUIESCE, R420. Mailbox MOP 0x01: replies once every gang has passed a barrier. -/
  | quiesce (k : Nat)
  /-- FAULT_LOG_STATE, R420. Mailbox MOP 0x03: returns the fault log's tail, head and NOVF. -/
  | faultLogState (k : Nat)
  /-- GET_VERSION, R423. SPDM request answered at version 1.3. -/
  | getVersion (k : Nat)
  /-- GET_CAPABILITIES, R423. SPDM capabilities request. -/
  | getCapabilities (k : Nat)
  /-- NEGOTIATE_ALGORITHMS, R423. SPDM algorithm negotiation for Falcon-1024 and SHAKE256. -/
  | negotiateAlgorithms (k : Nat)
  /-- GET_DIGESTS, R423. SPDM certificate digests request. -/
  | getDigests (k : Nat)
  /-- GET_CERTIFICATE, R423. SPDM certificate chain request. -/
  | getCertificate (k : Nat)
  /-- CHALLENGE, R423. SPDM challenge, signed with the identity key. -/
  | challenge (k : Nat)
  /-- GET_MEASUREMENTS, R423. Returns M0 to M3 and the digests extended into them. -/
  | getMeasurements (k : Nat)
  /-- BOOT, R422. From reset, boot stages verify, check and measure each next image up to ready. -/
  | boot (img : BootImage)
  /-- FUNCTION_LEVEL_RESET, R417. An FLR or hot reset tears down every context and boots again. -/
  | functionLevelReset
  /-- PLACEMENT_TABLE_READ, R275. The sluice reads the placement entries once per round, or parks on a fault. -/
  | placementTableRead (die : Nat) (ctx : Nat) (rd : Nat)
  /-- TOKEN_RANKING, R276. Reads a token's scores and ranks its candidates. -/
  | tokenRanking (die : Nat) (ctx : Nat) (rd : Nat)
  /-- PERMIT_REQUEST, R278. A receiver grants a request for a local bin and sets the owed bits. -/
  | permitRequest (die : Nat) (ctx : Nat) (msg : RoundMsg)
  /-- PERMIT_REPLY, R277. A sender takes a pass's replies, assigns slots, marks bins full and re-routes. -/
  | permitReply (die : Nat) (ctx : Nat) (msg : RoundMsg)
  /-- ROUND_OPENING, R278. A deterministic participant's opening announcement reaches a receiver. -/
  | roundOpening (die : Nat) (ctx : Nat) (msg : RoundMsg)
  /-- DONE_MESSAGE, R280. A sender's done message with its row count reaches a receiver die. -/
  | doneMessage (die : Nat) (ctx : Nat) (msg : RoundMsg)
  /-- ROUND_DEADLINE, R279. After DLN µs a deterministic receiver or sender aborts, logging 0x6D. -/
  | roundDeadline (die : Nat) (ctx : Nat) (rd : Nat)
  /-- BIN_CLOSE, R282. The receiver writes the bin table and report, raises graft hints and signals. -/
  | binClose (die : Nat) (ctx : Nat) (rd : Nat)
  /-- ROUND_RETIREMENT, R287. The round retires with its report final. -/
  | roundRetirement (die : Nat) (ctx : Nat) (rd : Nat)
  /-- WINDROW_APPEND, R290. The home compaction unit commits one command's items in consecutive slots, waiting for room. -/
  | windrowAppend (cl : Nat) (seq : BitVec 32)
  /-- TERMINATION_SWEEP, R292. Every 8 µs, gathers counts; two equal idle sweeps set the arming flags. -/
  | terminationSweep (gang : Nat) (ctx : Nat) (num : Nat)
  /-- BATCH_GROUP, R294. The batcher forms and writes one conflict-free group. -/
  | batchGroup (cl : Nat) (seq : BitVec 32)
  /-- PACKET_ARRIVAL, R309. An arriving packet is key-checked and performed as agent 389, or refused. -/
  | packetArrival (p : Packet)
  /-- PACKET_FORWARD, R301. A router routes a packet, choosing its path at the source for tc1 and tc2. -/
  | packetForward (p : Packet)
  /-- LINK_REPLAY, R304. A CRC error or missing flit is answered by a replay from the retry buffer. -/
  | linkReplay (port : Nat)
  /-- LINK_DOWN, R304. After 16 failed replays the link goes down and packets are re-injected. -/
  | linkDown (port : Nat)
  /-- PARK_BUFFER_RELEASE, R311. Parked arrivals leave in order once their pages are resident. -/
  | parkBufferRelease (jd : Nat)
  /-- REDUCTION_CONTRIBUTION, R323. A router takes a tagged contribution, combines complete subtrees and delivers the result. -/
  | reductionContribution (c : Contribution)
  /-- PULL_LOAD, R325. A member ingress serves a pull load by contributing elements from its landing region. -/
  | pullLoad (ctx : Nat) (grp : Nat) (ver : Nat) (seq : Stamp) (off : Nat) (n : Nat) (frm : Nat)
  /-- REDUCTION_TIMEOUT, R323. At TMO, absent leaves take the identity and the result is flushed with status 1. -/
  | reductionTimeout (ctx : Nat) (grp : Nat) (ver : Nat) (seq : BitVec 32)
  /-- FLUSH_NOTICE, R324. A member's fabric path retires its command of that sequence as late. -/
  | flushNotice (ctx : Nat) (grp : Nat) (ver : Nat) (seq : Stamp) (missing : BitVec 1024)
  /-- CARRY_ARRIVAL, R326. The ingress reserves the mailbox, lands the lines and sets the guard flag, or refuses. -/
  | carryArrival (p : Packet)
  /-- GROUP_SLOT_DRAIN, R319. A draining slot becomes free when every port has returned its drain marker. -/
  | groupSlotDrain (grp : Nat) (slot : Nat)
  /-- COLLECTIVE_STEP, R329. The collective engine performs one derived gather, all-to-all, reduction or slice step. -/
  | collectiveStep (cl : Nat) (seq : BitVec 32) (blocks : List CollBlock)
  /-- RING_ARRIVAL, R198. A message lands in a receive ring and the tail advances. -/
  | ringArrival (cl : Nat) (ring : Nat) (msg : List Byte)
  /-- BYTE_COUNTER_DELIVERY, R358. A tagged line landing counts toward phase P or P + 1. -/
  | byteCounterDelivery (cl : Nat) (off : Nat) (n : Nat) (tag : BitVec 32)
  /-- BARRIER_COMPLETION, R355. The gang barrier advances the generation, empties the logs, snapshots, invalidates L1 and releases bar. -/
  | barrierCompletion (gang : Nat)
  /-- SHADOW_SWEEP, R97. A pass that zeroes the stale shadow words, starting every 1,024 supersteps. -/
  | shadowSweep (ctx : Nat)
  /-- ROLLBACK, R415. A rollback request halts the gang, discards its work, applies undo records and resumes at bar. -/
  | rollback (gang : Nat) (cause : BitVec 8)
  /-- PATROL_SCRUB, R407. Reads every HBM sector at least once every 8 h, poisoning uncorrectable ones. -/
  | patrolScrub (sector : Nat) (unc : Bool)
  /-- COUNTER_REFRESH, R426. Power and temperature counters refresh every 1 µs. -/
  | counterRefresh (n : Nat) (v : Word)
  /-- EVENT_FIRE, R379. Writes an event record to the ring and appends its number to the bound stage's windrow. -/
  | eventFire (die : Nat) (code : Nat) (ea : BitVec 16) (eb : BitVec 16) (rnd : BitVec 32) (val : BitVec 48)
  /-- ISLAND_THROTTLE, R425. After 10 µs above its power limit, an island is throttled in steps. -/
  | islandThrottle (n : Nat)
  /-- WRITE_ACKNOWLEDGE, R143. An acknowledgement of a sent write arrives and decrements the cluster's write-acknowledge count. -/
  | writeAcknowledge (cl : Nat)
  /-- MAILBOX_WRITE, R420. A host write to a BAR0 mailbox is discarded and counted while MSEQ differs from RSEQ; otherwise its MSEQ write starts a request, and an unknown MOP or an unbound mailbox is answered with MST 1 or 2. -/
  | mailboxWrite (k : Nat) (off : Nat) (bytes : List Byte)
  /-- PORT_TRAINING, R299. An Amlyn port trains and its link comes up, so that it becomes a candidate for routing. -/
  | portTraining (port : Nat)
  /-- PCIE_LINK_TRAINING, R417. The PCI Express link trains at width x16, x8 or x4 and at generation 7.0, 6.0 or 5.0. -/
  | pcieLinkTraining (width : Nat) (gen : Nat)
  deriving DecidableEq, Repr, Inhabited

end Sys2Proof
end

