-- ==== Sys2Proof/Machine/Parts.lean ====
section
/-! DEFINITION. The pieces of the machine's state, as plain data: what one cluster, one die and the
package hold. Every field's docstring or its record's names the rule that gives it. -/

namespace Sys2Proof.Machine

/-! ### Walkers -/

/-- An open hardware loop (R165). -/
structure LoopEntry where
  count : Nat
  start : Nat
  stop : Nat
  deriving DecidableEq, Repr, Inhabited

/-- What an agent waits on. The first five, and `order`, are waits for another PC (R168, R171). -/
inductive Wait where
  | slip | token | queue | outcome | steering | order
  | interlock | owed | flag | barrier | engine | windrow | window | room
  deriving DecidableEq, Repr, Inhabited

/-- One of the five PCs of a cluster: text offset, dynamic position, signature register, loop stack,
steering tokens in flight with the position of their `vbr`, wait, stochastic ordinal, the parcels it has fetched and not
issued, by text offset, and whether it has met a cause on the head parcel of its position (R35, R48, R64, R161, R164, R165,
R168, R443). -/
structure Walk where
  pc : Nat
  dp : Nat
  sig : BitVec 32
  loops : List LoopEntry
  steer : List (Nat × Nat)
  wait : Option Wait
  ordinal : Nat
  text : KMap Parcel
  barred : Bool
  deriving DecidableEq, Repr, Inhabited

/-- What the S PC posts at an X instruction (Table 7.5a). -/
inductive BrOut where
  | taken (b : Bool) | target (a : Nat) | count (n : Nat)
  deriving DecidableEq, Repr, Inhabited

/-- An entry of the branch-outcome queue, with the dynamic position that posted it (R163). -/
structure BrEntry where
  dp : Nat
  out : BrOut
  deriving DecidableEq, Repr, Inhabited

/-- Registers that trailing engines read as they stood earlier in text order (R151, R66, R65). -/
inductive VKey where
  | s (n : Nat) | bfmt (n : Nat) | rmode | rseed
  deriving DecidableEq, Repr, Inhabited

/-- A write by S at dynamic position `dp` that trailing engines do not see, with the value before it. -/
structure Ver where
  dp : Nat
  key : VKey
  old : Word
  deriving DecidableEq, Repr, Inhabited

/-! ### Rake threads and rings -/

/-- What a rake thread is doing (R199, R200, R390). -/
inductive RakeState where
  | idle | ready | recv | recvt | ksleep | trapped | ended
  deriving DecidableEq, Repr, Inhabited

/-- The record of a trap: cause, engine (5 = rake thread), thread, faulting address, position, and the number of its
fault-log entry where the log had room (R387, R388). -/
structure TrapRec where
  cause : BitVec 8
  eng : Nat
  thr : Nat
  addr : Word
  pos : Nat
  entry : Option Nat
  deriving DecidableEq, Repr, Inhabited

/-- A rake thread's own state with the parcels it has prefetched (R35, R184, R200); the die manager core holds the same
(R381). -/
structure Rake where
  pc : Nat
  regs : KMap Word
  preds : BitVec 16
  sig : BitVec 32
  item : Option Nat
  wake : Bool
  st : RakeState
  remain : Option Nat
  trap : Option TrapRec
  text : KMap Parcel
  deriving DecidableEq, Repr, Inhabited

/-- A receive ring: descriptor (0 = unbound), owning thread, head and tail (R198). -/
structure Ring where
  desc : Word
  owner : Nat
  head : BitVec 32
  tail : BitVec 32
  deriving DecidableEq, Repr, Inhabited

/-! ### Engine commands -/

/-- An item that a fault holds back (R137). -/
structure Parked where
  item : Nat
  cause : BitVec 8
  addr : Nat
  deriving DecidableEq, Repr, Inhabited

/-- Where a command's follow-on stands (R141). -/
inductive Follow where
  | none | owed | ready | done | failed
  deriving DecidableEq, Repr, Inhabited

/-- An engine command from its kick to its retirement (R124 to R147). `raw` is the command with its hardware
fields, `line` a line captured at issue, `items` what is done, `acks` writes sent to peers and not acknowledged,
`got`, `owing` and `lost` what has come, is to come and was refused of an item's remote source; `born` orders
acceptances. -/
structure Cmd where
  unit : Unit6
  seq : BitVec 32
  raw : BitVec 1024
  cl : Nat
  thr : Option Nat
  die : Nat
  ctx : Nat
  agent : Nat
  gang : Nat
  priv : Bool
  dp : Nat
  tag : BitVec 32
  gen : BitVec 32
  rmode : Word
  seed : Word
  fmts : KMap Word
  sregs : KMap Word
  line : BitVec 1024
  started : Bool
  items : NSet
  parked : List Parked
  next : Nat
  acks : Nat
  follow : Follow
  cancelled : Bool
  status : Nat
  missing : BitVec 1024
  idx : List Nat
  marks : List (Unit6 × BitVec 32 × Nat)
  flagged : Bool
  got : Mem
  owing : KMap Nat
  lost : NSet
  born : Nat
  deriving DecidableEq, Repr, Inhabited

/-- A command that an agent has kicked, until the agent passes the instruction: not yet accepted, or accepted (R128). -/
structure Kick where
  cmd : Cmd
  accepted : Bool
  deriving DecidableEq, Repr, Inhabited

/-- Bytes on their way to a line: the line, the bytes with their offsets in it, the command that owes
them, its phase tag, and whether a byte counter counts them (R17, R358). -/
structure Fill where
  line : LineRef
  bytes : List (Nat × Byte)
  unit : Unit6
  cl : Nat
  seq : BitVec 32
  gang : Nat
  item : Nat
  tag : BitVec 32
  counted : Bool
  full : Bool
  deriving DecidableEq, Repr, Inhabited

/-- A byte counter (R357). -/
structure ByteCounter where
  bound : Bool
  base : Nat
  lines : Nat
  flag : Nat
  phase : BitVec 32
  pst : Bool
  err : Bool
  cur : Int
  nxt : Int
  deriving DecidableEq, Repr, Inhabited

/-- A read of a fabric window under way for one agent of a cluster (R308). -/
structure WinRead where
  addr : Nat
  len : Nat
  reply : Option (List Byte)
  refused : Option Nat
  deriving DecidableEq, Repr, Inhabited

/-! ### Translation -/

/-- A TLB entry: one page of any size, tagged with its context (R88). -/
structure TlbEntry where
  ctx : Nat
  base : Nat
  size : Nat
  leaf : Word
  deriving DecidableEq, Repr, Inhabited

/-- A walk outstanding at a die's translation unit, with the clusters that joined it (R89). -/
structure TWalk where
  ctx : Nat
  page : Nat
  cls : List Nat
  deriving DecidableEq, Repr, Inhabited

/-- A line of L1 (R118). -/
structure L1Line where
  line : Nat
  data : List Byte
  deriving DecidableEq, Repr, Inhabited

/-! ### Tasks -/

/-- What a cluster's task is doing (R185, R186, R376, R387, R393); `placed` has its cluster and has not started. -/
inductive RunState where
  | placed | running | trapped | saved | halted | held
  deriving DecidableEq, Repr, Inhabited

/-- The fields of a kernel image header that outlive the launch (Table 15.4). -/
structure Image where
  textVa : Nat
  textSize : Nat
  entry : Nat
  sigVa : Nat
  sigCnt : Nat
  sigOff : Nat
  fmtVa : Nat
  shpVa : Nat
  segVa : Nat
  nseg : Nat
  deriving DecidableEq, Repr, Inhabited

/-- A task: whose it is, where its text lies, and what it is doing (R344, R370, R385, R387). -/
structure Task where
  ctx : Nat
  agent : Nat
  gang : Nat
  rank : Nat
  size : Nat
  graph : Nat
  stage : Nat
  level : Nat
  priv : Bool
  image : Image
  sram : BitVec 32
  tkc : BitVec 32
  slip : BitVec 32
  rake : Nat
  rent : Nat
  inq : Nat
  item : Option Nat
  itemVal : Word
  ganged : Bool
  state : RunState
  exit : BitVec 8
  trap : Option TrapRec
  preq : Bool
  born : Nat
  deriving DecidableEq, Repr, Inhabited

/-- A grove's state at its owner: tile row and column of its top left tile, height and width (0 for
none), settled and kept bits, checked mode (R239 to R244, R260). -/
structure Grove where
  row : Nat
  col : Nat
  h : Nat
  w : Nat
  settled : BitVec 4
  kept : BitVec 4
  checked : Bool
  deriving DecidableEq, Repr, Inhabited

/-- The progress register of R265. -/
structure Progress where
  dp : Nat
  bins : Nat
  steps : Nat
  deriving DecidableEq, Repr, Inhabited

/-- The counters of one windrow (R290), what the termination detector counts of it, and the gangs that have appended to it or
popped from it (R292). -/
structure Windrow where
  head : BitVec 32
  tail : BitVec 32
  appends : Nat
  pops : Nat
  completions : Nat
  users : NSet
  deriving DecidableEq, Repr, Inhabited

/-- What a cluster's snapshot store takes at a barrier (R412); the group counters of its context with it (R322); whether a
word of it holds an uncorrectable error (R405, R414). -/
structure Snap where
  walks : List Walk
  sregs : KMap Word
  preds : BitVec 16
  ptrs : KMap (List (Nat × Word))
  rmode : Word
  rseed : Word
  bfmt : KMap Word
  slipw : BitVec 32
  tkcnt : BitVec 32
  scoreboard : BitVec 64
  cbm : KMap (BitVec 4096)
  seqs : KMap (BitVec 32)
  rts : KMap (BitVec 32)
  flags : BitVec 4096
  counters : KMap ByteCounter
  bphase : BitVec 32
  rakes : KMap Rake
  rings : KMap Ring
  grove : Grove
  item : Option Nat
  windrows : KMap Windrow
  groupSeq : KMap (BitVec 32)
  broken : Bool
  deriving DecidableEq, Repr, Inhabited

/-! ### A cluster -/

/-- Everything one cluster holds. -/
structure Cluster where
  /-- s0 to s63 of the task (R149). -/
  sregs : KMap Word
  /-- k0 to k15; bit 0 is kept set (R150). -/
  preds : BitVec 16
  /-- Stream pointers: for each, the values written by `mtc` with their positions, newest last (R152, R155). -/
  ptrs : KMap (List (Nat × Word))
  /-- Writes by S that trailing engines do not see yet (R151, R66). -/
  owedVers : List Ver
  /-- Plain vector names (R156). -/
  vnames : KMap Vec
  /-- Queue names, oldest entry first (R156). -/
  vqueues : KMap (List Vec)
  /-- vshp0 to vshp63 (R157). -/
  vshp : KMap Word
  /-- bfmt0 to bfmt47 (R58). -/
  bfmt : KMap Word
  /-- rmode and rseed (R65). -/
  rmode : Word
  rseed : Word
  /-- sramcfg, slipw, tkcnt (Tables 5.3, 7.4, 7.5). -/
  sramcfg : BitVec 32
  slipw : BitVec 32
  tkcnt : BitVec 32
  /-- Increments held at 15, one bit per channel, and the position of the instruction that holds each (R166, R170). -/
  tkheld : BitVec 8
  heldAt : KMap Nat
  /-- sigtab, sigcnt (R49). -/
  sigtab : Word
  sigcnt : Word
  /-- The five PCs (R161). -/
  wS : Walk
  wL : Walk
  wA : Walk
  wW : Walk
  wM : Walk
  /-- The branch-outcome queue (R163). -/
  outcomes : List BrEntry
  /-- The position of the `vbr` that the S PC has decoded (R164). -/
  vbrAt : Option Nat
  /-- MODEL's own: positions and text offsets passed by the leading PC, not yet by the trailing one. -/
  trail : List (Nat × Nat)
  /-- The task of the cluster (R370, R385). -/
  task : Option Task
  /-- Rake threads 0 to 7 (R200). -/
  rakes : KMap Rake
  /-- Receive rings 0 to 15 (R198). -/
  rings : KMap Ring
  /-- The scratchpad's bytes (R107). -/
  sram : Mem
  /-- Lines whose clear bit is off (R371). -/
  written : NSet
  /-- Heartwood lines whose logged bit is set (R116). -/
  logged : NSet
  /-- Bits of the scratchpad in error, each by its number 8·offset + bit; registers, by their numbers, and vector names, that
  hold an uncorrectable error (R405, R406; log 72). -/
  bad : NSet
  regBad : NSet
  nameBad : NSet
  /-- Owed lines, with the number of fills that owe each (R17). -/
  owed : KMap Nat
  /-- f0 to f4095 (R117); the flags that waiting `fwait`s name, by agent, each with whether it has been 1 since (R188). -/
  flags : BitVec 4096
  awaited : KMap (Nat × Bool)
  /-- L1 (R118) and its reliability count (R120). -/
  l1 : List L1Line
  l1errs : Nat
  /-- The first-level TLB (R88). -/
  tlb : List TlbEntry
  /-- Commands held by engines for this cluster, from acceptance on (R128, R271, R312). -/
  cmds : List Cmd
  /-- Commands kicked and not yet accepted, by agent: 8 = the S PC, 0 to 7 = a rake thread (R128). -/
  kicks : KMap Kick
  /-- Last `SEQ` issued and retired-through word of each queue (R130, R270, R313). -/
  seqs : KMap (BitVec 32)
  rts : KMap (BitVec 32)
  /-- Retired numbers above the retired-through word, by queue. -/
  retired : KMap NSet
  /-- The scoreboard (R129). -/
  scoreboard : BitVec 64
  /-- cbm0 to cbm15 (R136). -/
  cbm : KMap (BitVec 4096)
  /-- The write-acknowledge count (R143). -/
  wack : Nat
  /-- Byte counters and the phase register (R357). -/
  counters : KMap ByteCounter
  bphase : BitVec 32
  /-- The snapshot store (R412). -/
  snap : Option Snap
  /-- The grove and the progress register (R239 to R244, R260, R265). -/
  grove : Grove
  progress : Option Progress
  /-- Reads of fabric windows under way, by agent (R308). -/
  winReads : KMap WinRead
  /-- The cluster waits at `bar` and has arrived; the barrier has completed for it (R354, R355). -/
  arrived : Bool
  released : Bool
  /-- A pre-emption request is pending (R185, R391). -/
  preempt : Bool
  /-- Ring messages discarded, and those that wait for room at their ring or for a line, oldest first (R198). -/
  ringDrops : Nat
  inbox : List (Nat × List Byte)
  /-- The places that waiting `wlpush` hold, by agent: windrow and the tick of the first issue (R290). -/
  pushAt : KMap (Nat × Nat)
  deriving DecidableEq, Repr, Inhabited

/-! ### A die -/

/-- A line of a tile buffer (R123). -/
inductive SlabLine where
  | free | owed | full
  deriving DecidableEq, Repr, Inhabited

/-- An exact dyadic number m·2^e, the content of a checksum cell (R260). -/
structure Dyadic where
  m : Int
  e : Int
  deriving DecidableEq, Repr, Inhabited

/-- A tile: accumulator elements (set·4096 + i·64 + j), checksum cells (set·128 + row, or + 64 + column),
slab lines (slab·64 + line) with their states, format tags, who owns the tile, whether it was busy when the
superstep began or has been claimed in it, which sets integer steps wrote last (R159, R236 to R245, R260); the lines and
the elements that hold a parity error, and whether an error has struck the products of its next step (R260, R405). -/
structure Tile where
  acc : KMap (BitVec 32)
  cells : KMap Dyadic
  lines : KMap Vec
  states : KMap SlabLine
  tags : KMap Word
  owner : Option Nat
  busyAtStart : Bool
  claimed : Bool
  ints : BitVec 4
  lineBad : NSet
  accBad : NSet
  upset : Bool
  deriving DecidableEq, Repr, Inhabited

/-- A slot of a token in a round (R276, R277). `st`: 0 wanted, 1 admitted, 2 dropped, 3 refused; `x` the expert
asked for, `tried` all that were; `sent` says that the row has been sent. -/
structure RSlot where
  t : Nat
  s : Nat
  choice : Nat
  x : Nat
  st : Nat
  row : Nat
  pass : Nat
  tried : List Nat
  noc : Bool
  sent : Bool
  deriving DecidableEq, Repr, Inhabited

/-- A local bin of a receiver (R278, R282): expert, capacity, what remains of it, rows landed, requests refused,
local offset, graft threshold. -/
structure RBin where
  e : Nat
  cap : Nat
  rem : Nat
  fill : Nat
  rref : Nat
  off : Nat
  thr : Nat
  deriving DecidableEq, Repr, Inhabited

/-- A round at one participant (R272 to R287), for the sluice command `seq` of cluster `cl`: the participants
(device·4 + die); the placement table once read; as sender, the tokens ranked, scores and candidates by token,
slots, experts marked full, refusals, the pass (3 = all passes over), experts whose reply it awaits; as receiver,
its bins, the openings, requests and done messages that it holds, and the passes granted. `bad` are senders whose
parameters differ, `gaveUp` receivers given up on; `failed` is the report's `STATUS`. -/
structure Round where
  num : Nat
  ctx : Nat
  cl : Nat
  seq : BitVec 32
  gang : Nat
  gen : BitVec 32
  parts : List Nat
  table : Option (List (BitVec 128))
  ranked : Nat
  scores : KMap (List Nat)
  cands : KMap (List Nat)
  slots : List RSlot
  full : NSet
  refs : KMap Nat
  pass : Nat
  waiting : NSet
  bins : List RBin
  openings : List RoundMsg
  requests : List RoundMsg
  served : Nat
  dones : List RoundMsg
  bad : NSet
  gaveUp : NSet
  failed : Bool
  aborted : Bool
  begun : Bool
  closed : Bool
  hints : Nat
  deriving DecidableEq, Repr, Inhabited

/-- A threshold register and the side its counter last stood on (R380). -/
structure Threshold where
  reg : Word
  above : Bool
  deriving DecidableEq, Repr, Inhabited

/-- What one compute die holds. -/
structure Die where
  /-- Tiles by row·24 + column (R239). -/
  tiles : KMap Tile
  /-- rpol0 to rpol1023 (R256). -/
  rpol : KMap Word
  /-- l2pin and l2pstat bit 0; the pinned space (R103, R104). -/
  l2pin : Word
  l2pbusy : Bool
  pinned : Mem
  /-- Sectors of the pinned space (byte / 32) that hold an uncorrectable error (R106, R405). -/
  pinBad : NSet
  /-- xlinv, the invalidation under way, xlstat (R90). -/
  xlinv : Word
  xlbusy : Bool
  /-- The second-level TLB and the walks outstanding (R88, R89). -/
  tlb : List TlbEntry
  walks : List TWalk
  /-- tpend, one bit per die-local cluster index (Table 16.4). -/
  tpend : BitVec 96
  /-- tctl, tstat (Table 16.4). -/
  tctl : Word
  tbusy : Bool
  tres : Nat
  /-- evring, evhead, evtail, cthr0 to 15, evbind0 to 31 (R380 to R383). -/
  evring : Word
  evhead : BitVec 32
  evtail : BitVec 32
  cthr : KMap Threshold
  evbind : KMap Word
  /-- Events counted and not recorded; the die log: cause and detail (R379, R386). -/
  evlost : Nat
  dieLog : List (BitVec 8 × Nat)
  /-- Rounds of the sluice, and messages of rounds not open here yet, with context and type (R271, R278). -/
  rounds : List Round
  early : List (Nat × Nat × RoundMsg)
  /-- Drop counter of the compaction unit (R291). -/
  wldrops : Nat
  /-- The die manager core and the management task on it (R381). -/
  core : Rake
  coreTask : Option Task
  /-- Registers of the die manager core that hold an uncorrectable error, by their numbers (R405). -/
  coreBad : NSet
  deriving DecidableEq, Repr, Inhabited

/-! ### L2 -/

/-- A line that a way of an L2 set holds, with a valid and a dirty bit for each sector (R101, R102). -/
structure L2Line where
  way : Nat
  line : Nat
  valid : BitVec 4
  dirty : BitVec 4
  deriving DecidableEq, Repr, Inhabited

/-! ### The package -/

/-- A loaded context descriptor (Table 4.12). -/
structure Context where
  ckgang : Nat
  flcap : Nat
  root : Nat
  ckbase : Nat
  cksize : Nat
  shbase : Nat
  ulbase : List Nat
  ulsize : List Nat
  svbase : Nat
  flbase : Nat
  wlbase : Nat
  winbase : Nat
  wincnt : Nat
  lqcnt : Nat
  lqbase : Nat
  grant : BitVec 384
  /-- Undo records held by each die (R98). -/
  ulcount : List Nat
  /-- Shadow sweep due (R97). -/
  sweepDue : Bool
  /-- Under teardown, and torn down since it was loaded: what is left of its traffic meets revoked keys (R401, R402). -/
  dying : Bool
  ended : Bool
  /-- Commands discarded at teardown, counted as 0x66 (R401). -/
  discarded : Nat
  /-- Drain markers not yet returned, by 64·(4·device + class) + port (R401). -/
  markers : NSet
  deriving DecidableEq, Repr, Inhabited

/-- A completion that the device returns for a host's read of a BAR: data, or completer abort (R343, R418, R419). -/
structure HostReply where
  bar : Nat
  off : Nat
  data : Option (List Byte)
  deriving DecidableEq, Repr, Inhabited

/-- A gang: its superstep number, members on this device, other devices, who arrived and who ended
(R353, R354, R376 to R378). `members` are the agent clusters of its tasks here, `remote` the device and cluster of
the others; `arrivedDevs` are the devices whose report has come, `goAhead` says that the lowest-numbered device has
answered; `restored` that a rollback has been performed here, `told` that the request came from
another device, `confirmed` who has rolled back; `flowing` that its host writes have overflowed the commit buffer in this
superstep (R413); `sweepIn` what the other devices have answered in the present termination sweep (R292); `num` the number
that the gang has at its home device; `markers` the drain markers of a rollback not yet returned (R415; log 13); `runs` how
often its present superstep has been rolled back. While it waits for its place: `offers` the clusters that other devices have
confirmed to the home device, `offered` those that this device has confirmed to it, `yielding` that it has asked for them
back (R378). At a barrier of several devices: `frozen` from the lowest-numbered device's question to its answer, with no rake
thread moving, `prepared` the devices that have said they are ready, `poll` the number of the question (R354, R412). -/
structure Gang where
  ctx : Nat
  tag : Nat
  graph : Nat
  stage : Nat
  size : Nat
  sstep : BitVec 32
  members : NSet
  remote : List (Nat × Nat)
  ended : NSet
  arrivedDevs : List Nat
  unprotected : Bool
  item : Option Nat
  itemVal : Word
  itemDone : Bool
  stamp : Nat
  home : Nat
  num : Nat
  placed : Bool
  reserved : NSet
  sweeps : List (Nat × Nat × Nat × Bool)
  sweepIn : KMap (List Nat)
  rollback : Option (BitVec 8)
  reported : Bool
  goAhead : Bool
  restored : Bool
  told : Bool
  confirmed : NSet
  flowing : Bool
  markers : NSet
  runs : Nat
  offers : KMap (List Nat)
  offered : NSet
  yielding : Bool
  frozen : Bool
  prepared : NSet
  poll : Nat
  exit : BitVec 8
  deriving DecidableEq, Repr, Inhabited

/-- A task graph that has been launched (R366, R368): `status` is the first non-zero exit status, `cause` what its status
word holds in its low byte. -/
structure Graph where
  ctx : Nat
  va : Nat
  nst : Nat
  entry : Nat
  done : Nat
  status : BitVec 8
  seedv : Bool
  seed : Word
  live : Bool
  statusParked : Bool
  ages : KMap Nat
  stamp : Nat
  cause : BitVec 8
  deriving DecidableEq, Repr, Inhabited

/-- A launch queue in service (R364, R365). -/
structure LaunchQueue where
  ctx : Nat
  idx : Nat
  headVa : Nat
  tailVa : Nat
  rbase : Nat
  sz : Nat
  home : Nat
  parked : Bool
  deriving DecidableEq, Repr, Inhabited

/-- A slot of a group (Table 12.9); `st`: 0 free, 1 active, 2 draining, with the ports whose drain marker is still out
(R319). -/
structure GroupSlot where
  st : Nat
  memb : BitVec 1024
  ver : Nat
  op : Nat
  ity : Bool
  tmo : Nat
  key : BitVec 32
  markers : NSet
  deriving DecidableEq, Repr, Inhabited

/-- A reduction in progress at this router (R322, R323). -/
structure Reduction where
  ctx : Nat
  grp : Nat
  ver : Nat
  gen : BitVec 32
  seq : BitVec 32
  parts : List Contribution
  deriving DecidableEq, Repr, Inhabited

/-- A reduction completed or flushed, kept with its missing-member string (R324). -/
structure Kept where
  ctx : Nat
  grp : Nat
  ver : Nat
  gen : BitVec 32
  seq : BitVec 32
  missing : BitVec 1024
  deriving DecidableEq, Repr, Inhabited

/-- A port (R301 to R306): trained, up, replays failed in a row, packets sent and not yet acknowledged by the
neighbour, bytes in the tc0 buckets of its output and its input, and the turns that each class has left in the present
round (R305). -/
structure Port where
  trained : Bool
  up : Bool
  replays : Nat
  retry : List Packet
  bucket : Nat
  inBucket : Nat
  turns : KMap Nat
  deriving DecidableEq, Repr, Inhabited

/-- A packet on its way over a link: the port that it leaves by, the device and the port at the far end (R298), its flits
(R303). -/
structure OnWire where
  port : Nat
  dev : Nat
  farPort : Nat
  flits : List Byte
  deriving DecidableEq, Repr, Inhabited

/-- A mailbox reserved for a carry, and whose carry it is: cluster, flag, offset, lines to come; sender, number, argument
(R326). -/
structure Carry where
  cl : Nat
  flag : Nat
  off : Nat
  left : Nat
  sdev : Nat
  seq : BitVec 32
  arg : BitVec 64
  deriving DecidableEq, Repr, Inhabited

/-- A mailbox of the host (R420). -/
structure Mailbox where
  mseq : BitVec 32
  rseq : BitVec 32
  mop : BitVec 16
  mst : BitVec 16
  payload : Mem
  ctx : Nat
  pend : List (Nat × BitVec 32)
  deriving DecidableEq, Repr, Inhabited

/-- Bytes of a write to host memory, with the gang and superstep that made it (R348, R413). -/
structure HostWrite where
  gang : Nat
  addr : Nat
  bytes : List Byte
  deriving DecidableEq, Repr, Inhabited

/-- A fault-log entry (Table 16.8). -/
structure LogEntry where
  cause : BitVec 8
  kind : Nat
  agent : Nat
  unit : Nat
  thr : Nat
  seq : BitVec 32
  item : Nat
  step : BitVec 32
  addr : Nat
  xtra : Nat
  deriving DecidableEq, Repr, Inhabited

/-- A spilled task: its task, its cluster's registers and the tiles of its grove, which the frame holds in a
layout that only the device reads (R393, R394). -/
structure Spilled where
  ctx : Nat
  agent : Nat
  from_ : Nat
  image : Cluster
  tiles : KMap Tile
  atBar : Bool
  since : Nat
  fills : List Fill
  deriving DecidableEq, Repr, Inhabited

/-- Who executes a step (R332). -/
inductive Actor where
  | device
  | pc (cl : Nat) (e : Eng)
  | rake (cl : Nat) (thr : Nat)
  | mgr (die : Nat)
  deriving DecidableEq, Repr, Inhabited

/-- A soft error that strikes a store: a bit of a cluster's scratchpad; one of its registers, the entry of one of its vector
names, a register of a die manager core, a sector of an L2 line, of a stack or of a pinned space, each either beyond its code
(`hard`) or corrected; a tile's slab line or accumulator element, the products of a tile's next step, a word of a cluster's
snapshot store, an entry of a router's tables whose port it takes down (R260, R405 to R408, R414; logs 72, 75). -/
inductive Upset where
  | sram (cl bit : Nat)
  | reg (cl num : Nat) (hard : Bool)
  | name (cl n : Nat) (hard : Bool)
  | core (die num : Nat) (hard : Bool)
  | l2 (sector : Nat) (hard : Bool)
  | hbm (sector : Nat) (hard : Bool)
  | pin (die sector : Nat) (hard : Bool)
  | slab (die tile line : Nat)
  | acc (die tile set_ elem : Nat)
  | sums (die tile : Nat)
  | snap (cl : Nat)
  | table (port : Nat)
  deriving DecidableEq, Repr, Inhabited

/-- Steps that the device itself brings about after another step: an event of a die fires (R379), a context
is torn down (R414), a task that has halted ends (R186), messages that wait at their rings are tried (R198), the
action of a register that has been written is performed (R160), a gang's other devices learn that it has lost its protection,
or that its context ends (R414). Four are inputs that only the schedule brings: a soft error, a PC that fetches a parcel ahead
of its issue, a host's read of BAR0 or BAR4, and its write to BAR4 (R35, R418; logs 72, 73). The steps of a product in flight that complete
as the cluster halts are `product` (R265, R389). -/
inductive Soon where
  | fire (die code : Nat) (ea eb : BitVec 16) (rnd : BitVec 32) (val : BitVec 48)
  | kill (ctx : Nat)
  | taskEnd (cl : Nat)
  | ring (cl : Nat)
  | act (die reg : Nat)
  | alert (gang : Nat) (ends : Bool)
  | upset (x : Upset)
  | fetch (w : Walker) (off : Nat)
  | product (cl : Nat)
  | barRead (bar off len : Nat)
  | msixWrite (off : Nat) (bytes : List Byte)
  deriving DecidableEq, Repr, Inhabited

/-- MODEL's own: who moves next, a walker with its next word or an event (log 1). -/
inductive Turn where
  | walk (w : Walker)
  | event (i : Instr)
  | soon (x : Soon)
  deriving DecidableEq, Repr, Inhabited

end Sys2Proof.Machine
end

