-- ==== Sys2Proof/Config.lean ====
section
/-! DEFINITION. What the spec leaves to the implementation or to the surroundings: constants with no body,
so that nothing can be proved of their values. -/

namespace Sys2Proof.Config

open Sys2Proof.Machine

/-- Who moves next when the agenda is empty, by tick (log 1). -/
opaque schedule : Nat → Turn

/-- Free values, by tick: the entropy that `rseed` takes with no seed given (R65; log 18). -/
opaque entropy : Nat → Word

/-- Which entry a full TLB or L1 gives up, by tick (R88, R118; logs 8, 9). -/
opaque victim : Nat → Nat

/-- What host memory holds, by tick and host bus address (R1, R348; log 12). -/
opaque hostByte : Nat → Nat → Byte

/-- What a load through a fabric window returns when the peer refuses it: the spec states no value. By address and byte,
not by tick, since no variation between runs comes from there (R4, R349; log 18). -/
opaque refusedByte : Nat → Nat → Byte

/-- How many of a port's packets the neighbour has acknowledged since the last step, and how many bytes its tc0 bucket
has gained, by tick and port: timing of the links (R304, R306; log 16). -/
opaque linkAcked : Nat → Nat → Nat
opaque tc0Credit : Nat → Nat → Nat

/-- Nanoseconds that the fabric time counter has gained since the last event, by tick: time (R378; log 19). -/
opaque elapsed : Nat → Nat

/-- The clusters that a context is granted on another device, by tick, device and context: its descriptor there, which is that
device's (R93, R376; log 48). -/
opaque farGrant : Nat → Nat → Nat → BitVec 384

/-- What a peer's memory holds is not this package's state; the virtual time of a fabric is its own. The
context in which management stages are named by `evbind` (R381; log 19). -/
opaque mgmtContext : Nat

/-- Whether a Falcon-1024 signature over a digest verifies with the vendor key (R422; log 14). -/
opaque falconOk : List Byte → List Byte → Bool

/-- The fused minimum security version of a stage's image (R422). -/
opaque fusedVersion : Nat → Nat

/-- The failure reason that `hstat` records at a failed boot step (Table 18.2). -/
opaque bootReason : Nat → BitVec 8

/-- What the device decides of an SPDM response, by request code, request and measurements (R423; log 14). -/
opaque spdmBody : Nat → List Byte → List Byte → List Byte

/-- The bytes of a task's control state, and of a tile's, in a save frame: functions of the state that is saved, in a layout read
only by the device (R4, R393; log 17). -/
opaque controlByte : Cluster → Nat → Byte
opaque tileByte : Tile → Nat → Byte

/-- PLIM of an island as firmware sets it (Table 18.3). -/
opaque plim : Nat → BitVec 32

/-- The stepping that `hid` reports (Table 18.2). -/
opaque stepping : BitVec 8

/-- Whether a read that hits L1 finds a parity error, by tick and line (R120; log 15). -/
opaque l1Parity : Nat → Nat → Bool

/-- How many of a product's steps complete before its engine has halted, by tick: timing (R265, R389, R391; log 91). -/
opaque productSteps : Nat → Nat

/-- What a read of a write-only register returns, by register number: the spec states no value (R4; log 18). -/
opaque unreadWord : Nat → Word

/-- What an error in a tile's sums makes of an element where no check runs, by tick and element (R260; log 72). -/
opaque upsetElem : Nat → Nat → BitVec 32

/-- The cause that is logged for a host access while the aperture is off: the spec states none (log 18). -/
opaque apertureCause : BitVec 8

/-- An SPDM request that a fabric peer sends over tc3, by tick and peer (R423; log 14). -/
opaque peerRequest : Nat → Nat → List Byte

/-- The context that the device runtime has bound a mailbox to, by tick and mailbox; 0 for none (R420; log 15). -/
opaque mailboxContext : Nat → Nat → Nat

end Sys2Proof.Config
end

