-- ==== Sys2Proof/WellFormed.lean ====
section
/-! DEFINITION. Which terms of `Instr` are words of Labin: the checks of an encoding's field values
(cause 0x05), of its indices (0x06) and of its token bits (0x07), as R24 orders them. What the decoder
reads passes every one of them. Events carry no word and pass. -/

namespace Sys2Proof

/-- Codes 0x8 to 0xA, the F types of Table 9.1. -/
def Ty.isF : Ty → Bool
  | .f16 | .bf16 | .f32 => true
  | _ => false

/-- Code 0xB. -/
def Ty.isN : Ty → Bool
  | .nf => true
  | _ => false

/-- Codes 0x0 to 0x7, the I types of Table 9.1. -/
def Ty.isI (t : Ty) : Bool := !t.isF && !t.isN

/-- size(T) of Table 9.1. -/
def Ty.bits : Ty → Nat
  | .n8 | .i8 | .nf => 8
  | .n16 | .i16 | .f16 | .bf16 => 16
  | .n32 | .i32 | .f32 => 32
  | .n64 | .i64 => 64

/-- The lane count n of Table 9.1. -/
def Ty.lanes (t : Ty) : Nat := 1024 / t.bits

def Opnd.isV : Opnd → Bool
  | .v _ _ => true
  | _ => false

/-- A vector name that is written: PK is legal on sources only (Table 2.8). -/
def Opnd.isName : Opnd → Bool
  | .v pk _ => !pk
  | _ => false

def Opnd.isP : Opnd → Bool
  | .p _ => true
  | _ => false

def Opnd.isS : Opnd → Bool
  | .s _ => true
  | _ => false

/-- The all-zero slot that an opcode does not use (R28). -/
def Opnd.isZero : Opnd → Bool
  | .v pk n => !pk && n == 0#11
  | _ => false

/-- The index limits of Table 2.8. -/
def Opnd.inRange : Opnd → Bool
  | .v _ n => n.ult 1536#11
  | .p n => n.ult 32#11
  | .s n => n.ult 64#11

/-- The masks of Table 2.9: which channels an engine may pop and push. -/
def Eng.tokMasks : Eng → BitVec 8 × BitVec 8
  | .L => (0x0A#8, 0x01#8)
  | .A => (0x21#8, 0x16#8)
  | .W => (0x44#8, 0x88#8)
  | .M => (0x90#8, 0x60#8)
  | .S => (0#8, 0#8)

/-- R29: only the bits of Table 2.9 are set. -/
def Tok.fits (t : Tok) (e : Eng) : Bool :=
  (t.pop &&& ~~~e.tokMasks.1) == 0#8 && (t.push &&& ~~~e.tokMasks.2) == 0#8

/-- R32: the codes 0b101 and 0b110 of the rounding mode are not assigned. -/
def VMod.rmOk (m : VMod) : Bool := m.rm != 5#3 && m.rm != 6#3

/-- MOD of an instruction that forms no address from a scalar base (R32, R202). -/
def VMod.lanes (m : VMod) : Bool := m.rmOk && !m.col

/-- MOD of an instruction with memory slot `o`: the orientation bit needs a scalar base (R202). -/
def VMod.base (m : VMod) (o : Opnd) : Bool := m.rmOk && (!m.col || o.isS)

/-- MOD of the device-memory forms, where no conversion takes place (R217). -/
def VMod.none (m : VMod) : Bool := !m.col && !m.sat && m.rm == 0#3

/-- R222: which slots of `vmsk` must be zero. -/
def MaskOp.slots (op : MaskOp) (a b : Opnd) : Bool :=
  match op with
  | .and | .or | .xor | .andn => true
  | .not | .first => b.isZero
  | .all | .none => a.isZero && b.isZero

/-- R223: the ratio of the lane counts and the part. -/
def cvtOk (t st : Ty) (part : BitVec 2) : Bool :=
  let ratio := max t.lanes st.lanes / min t.lanes st.lanes
  decide (ratio ≤ 4) && decide (part.toNat < ratio)

/-- R226: the affine pair requires an F type. -/
def ScanOp.typeOk (op : ScanOp) (t : Ty) : Bool :=
  match op with
  | .add | .max => t.isF || t.isI
  | .affine => t.isF

/-- R226, R227: E and B are used by the affine pair alone; E is a second destination. -/
def ScanOp.pairSlots (op : ScanOp) (e b : Opnd) : Bool :=
  match op with
  | .add | .max => e.isZero && b.isZero
  | .affine => e.isName || e.isP

/-- R246, Table 10.4: TYPE of a product, and RNE for integer products. -/
def prodType (t : Ty) (rms : BitVec 2) : Bool :=
  match t with
  | .f32 => true
  | .i32 => rms == 0#2
  | _ => false

/-- The three groups of checks on a decoded word, in the order of R24. -/
structure Checks where
  fields : Bool
  index : Bool
  tokens : Bool
  deriving DecidableEq, Repr

def Checks.pass : Checks := ⟨true, true, true⟩

/-- The checks of each instruction's entry. -/
def checksOf : Instr → Checks
  | .nop => Checks.pass
  | .add _ _ _ => Checks.pass
  | .addLong _ _ _ _ => Checks.pass
  | .sub _ _ _ => Checks.pass
  | .subLong _ _ _ _ => Checks.pass
  | .mul _ _ _ => Checks.pass
  | .mulLong _ _ _ _ => Checks.pass
  | .mulh _ _ _ => Checks.pass
  | .mulhLong _ _ _ _ => Checks.pass
  | .mulhn _ _ _ => Checks.pass
  | .mulhnLong _ _ _ _ => Checks.pass
  | .div _ _ _ => Checks.pass
  | .divLong _ _ _ _ => Checks.pass
  | .divn _ _ _ => Checks.pass
  | .divnLong _ _ _ _ => Checks.pass
  | .rem _ _ _ => Checks.pass
  | .remLong _ _ _ _ => Checks.pass
  | .remn _ _ _ => Checks.pass
  | .remnLong _ _ _ _ => Checks.pass
  | .and _ _ _ => Checks.pass
  | .andLong _ _ _ _ => Checks.pass
  | .or _ _ _ => Checks.pass
  | .orLong _ _ _ _ => Checks.pass
  | .xor _ _ _ => Checks.pass
  | .xorLong _ _ _ _ => Checks.pass
  | .shl _ _ _ => Checks.pass
  | .shlLong _ _ _ _ => Checks.pass
  | .shr _ _ _ => Checks.pass
  | .shrLong _ _ _ _ => Checks.pass
  | .sra _ _ _ => Checks.pass
  | .sraLong _ _ _ _ => Checks.pass
  | .min _ _ _ => Checks.pass
  | .minLong _ _ _ _ => Checks.pass
  | .max _ _ _ => Checks.pass
  | .maxLong _ _ _ _ => Checks.pass
  | .minn _ _ _ => Checks.pass
  | .minnLong _ _ _ _ => Checks.pass
  | .maxn _ _ _ => Checks.pass
  | .maxnLong _ _ _ _ => Checks.pass
  | .clz _ _ => Checks.pass
  | .clzLong _ _ _ => Checks.pass
  | .popc _ _ => Checks.pass
  | .popcLong _ _ _ => Checks.pass
  | .sext f _ _ => ⟨f != 3#2, true, true⟩
  | .sextLong _ f _ _ => ⟨f != 3#2, true, true⟩
  | .andn _ _ _ => Checks.pass
  | .andnLong _ _ _ _ => Checks.pass
  | .addi _ _ _ => Checks.pass
  | .addiLong _ _ _ _ => Checks.pass
  | .andi _ _ _ => Checks.pass
  | .andiLong _ _ _ _ => Checks.pass
  | .ori _ _ _ => Checks.pass
  | .oriLong _ _ _ _ => Checks.pass
  | .xori _ _ _ => Checks.pass
  | .xoriLong _ _ _ _ => Checks.pass
  | .shli _ _ i => ⟨i.ult 64#8, true, true⟩
  | .shliLong _ _ _ i => ⟨i.ult 64#32, true, true⟩
  | .shri _ _ i => ⟨i.ult 64#8, true, true⟩
  | .shriLong _ _ _ i => ⟨i.ult 64#32, true, true⟩
  | .srai _ _ i => ⟨i.ult 64#8, true, true⟩
  | .sraiLong _ _ _ i => ⟨i.ult 64#32, true, true⟩
  | .li _ _ => Checks.pass
  | .liLong _ _ _ => Checks.pass
  | .liHi _ _ _ => Checks.pass
  | .cmpeq _ _ _ => Checks.pass
  | .cmpeqLong _ _ _ _ => Checks.pass
  | .cmpne _ _ _ => Checks.pass
  | .cmpneLong _ _ _ _ => Checks.pass
  | .cmplt _ _ _ => Checks.pass
  | .cmpltLong _ _ _ _ => Checks.pass
  | .cmple _ _ _ => Checks.pass
  | .cmpleLong _ _ _ _ => Checks.pass
  | .cmpltn _ _ _ => Checks.pass
  | .cmpltnLong _ _ _ _ => Checks.pass
  | .cmplen _ _ _ => Checks.pass
  | .cmplenLong _ _ _ _ => Checks.pass
  | .pand _ _ _ => Checks.pass
  | .por _ _ _ => Checks.pass
  | .pxor _ _ _ => Checks.pass
  | .pnot _ _ => Checks.pass
  | .kget _ => Checks.pass
  | .kset _ => Checks.pass
  | .ld t _ _ _ => ⟨t.isI, true, true⟩
  | .ldLong _ t _ _ _ => ⟨t.isI, true, true⟩
  | .st t _ _ _ => ⟨t.isI, true, true⟩
  | .stLong _ t _ _ _ => ⟨t.isI, true, true⟩
  | .ldg t _ _ _ => ⟨t.isI, true, true⟩
  | .ldgLong _ t _ _ _ => ⟨t.isI, true, true⟩
  | .stg t _ _ _ => ⟨t.isI, true, true⟩
  | .stgLong _ t _ _ _ => ⟨t.isI, true, true⟩
  | .mfc _ _ => Checks.pass
  | .mtc _ _ => Checks.pass
  | .cid _ => Checks.pass
  | .cidLong _ _ => Checks.pass
  | .nearad _ _ _ => Checks.pass
  | .nearadLong _ _ _ _ => Checks.pass
  | .clad _ _ _ => Checks.pass
  | .cladLong _ _ _ _ => Checks.pass
  | .fence i => ⟨i.ult 5#8, true, true⟩
  | .isync => Checks.pass
  | .yield => Checks.pass
  | .halt _ => Checks.pass
  | .trap i => ⟨i.ult 32#8, true, true⟩
  | .ftst _ n => ⟨true, n.ult 4096#14, true⟩
  | .fset n => ⟨true, n.ult 4096#14, true⟩
  | .fclr n => ⟨true, n.ult 4096#14, true⟩
  | .fwait n => ⟨true, n.ult 4096#14, true⟩
  | .wlpush _ _ => Checks.pass
  | .wlpop _ _ => Checks.pass
  | .b _ => Checks.pass
  | .bLong i => ⟨i.extractLsb' 0 2 == 0#2, true, true⟩
  | .bk _ _ _ => Checks.pass
  | .bkLong _ _ i => ⟨i.extractLsb' 0 2 == 0#2, true, true⟩
  | .call _ => Checks.pass
  | .callLong i => ⟨i.extractLsb' 0 2 == 0#2, true, true⟩
  | .ret => Checks.pass
  | .jr _ => Checks.pass
  | .loop _ i => ⟨i != 0#14, true, true⟩
  | .loopi _ len => ⟨len != 0#12, true, true⟩
  | .lexit _ _ => Checks.pass
  | .bar _ => Checks.pass
  | .meet => Checks.pass
  | .sigchk _ => Checks.pass
  | .vbr _ _ tok a i => ⟨(a.isV || a.isP) && i.extractLsb' 0 2 == 0#2, a.inRange, tok.fits .A⟩
  | .ecopy _ _ _ _ _ _ _ => Checks.pass
  | .egath _ _ _ _ _ _ _ => Checks.pass
  | .escat _ _ _ _ _ _ _ => Checks.pass
  | .eacc _ _ _ _ _ _ _ => Checks.pass
  | .emark _ _ _ _ _ _ _ => Checks.pass
  | .earm _ _ _ _ => Checks.pass
  | .ewait _ _ => Checks.pass
  | .eroute _ _ _ _ _ _ _ => Checks.pass
  | .ebatch _ _ _ _ _ _ _ => Checks.pass
  | .eldred _ _ _ _ _ _ _ => Checks.pass
  | .egroup _ _ _ _ _ _ _ => Checks.pass
  | .ecarry _ _ _ _ _ _ _ => Checks.pass
  | .ecoll _ _ _ _ _ _ _ => Checks.pass
  | .eget _ _ _ _ _ _ _ => Checks.pass
  | .eput _ _ _ _ _ _ _ => Checks.pass
  | .emcast _ _ _ _ _ _ _ => Checks.pass
  | .eappend _ _ _ _ _ _ _ => Checks.pass
  | .ebexp _ _ _ _ _ _ _ => Checks.pass
  | .ecancel _ _ _ => Checks.pass
  | .estat _ _ _ => Checks.pass
  | .efset _ _ _ _ _ _ _ => Checks.pass
  | .edrain _ => Checks.pass
  | .vld hd d a => ⟨hd.mod.base a && d.isName && (a.isP || a.isS), d.inRange && a.inRange, hd.tok.fits .L⟩
  | .vldx hd d a b => ⟨hd.mod.base a && d.isName && (a.isP || a.isS) && b.isV && !hd.mod.col, d.inRange && a.inRange && b.inRange, hd.tok.fits .L⟩
  | .vldb hd _ _ d a c => ⟨hd.mod.base a && d.isName && (a.isP || a.isS) && c.isS, d.inRange && a.inRange && c.inRange, hd.tok.fits .L⟩
  | .vldg hd d a => ⟨hd.mod.none && d.isName && a.isS, d.inRange && a.inRange, hd.tok.fits .L⟩
  | .vldbc hd d a => ⟨hd.mod.base a && d.isName && (a.isP || a.isS) && (hd.ty.isF || hd.ty.isI), d.inRange && a.inRange, hd.tok.fits .L⟩
  | .vlds hd _ _ d a c => ⟨hd.mod.lanes && d.isName && a.isS && c.isS, d.inRange && a.inRange && c.inRange, hd.tok.fits .L⟩
  | .vpref hd a => ⟨hd.mod.lanes && a.isS && hd.ty == .n8, a.inRange, hd.tok.fits .L⟩
  | .vldfl hd d a b => ⟨hd.mod.none && d.isName && a.isS && b.isName, d.inRange && a.inRange && b.inRange, hd.tok.fits .L⟩
  | .vst hd d a => ⟨hd.mod.base d && a.isV && (d.isP || d.isS), d.inRange && a.inRange, hd.tok.fits .W⟩
  | .vstx hd d a b => ⟨hd.mod.base d && a.isV && (d.isP || d.isS) && b.isV && !hd.mod.col, d.inRange && a.inRange && b.inRange, hd.tok.fits .W⟩
  | .vstb hd _ _ d a c => ⟨hd.mod.base d && a.isV && (d.isP || d.isS) && c.isS, d.inRange && a.inRange && c.inRange, hd.tok.fits .W⟩
  | .vstg hd d a => ⟨hd.mod.none && a.isV && d.isS, d.inRange && a.inRange, hd.tok.fits .W⟩
  | .vsts hd _ _ d a c => ⟨hd.mod.lanes && a.isV && d.isS && c.isS, d.inRange && a.inRange && c.inRange, hd.tok.fits .W⟩
  | .vstm hd d a b => ⟨hd.mod.base d && a.isV && (d.isP || d.isS) && b.isV, d.inRange && a.inRange && b.inRange, hd.tok.fits .W⟩
  | .vstc hd d a b => ⟨hd.mod.base d && a.isV && (d.isP || d.isS) && b.isV, d.inRange && a.inRange && b.inRange, hd.tok.fits .W⟩
  | .vmov hd d a => ⟨hd.mod.lanes && (d.isName || d.isP), d.inRange && a.inRange, hd.tok.fits .A⟩
  | .vadd hd d a b => ⟨hd.mod.lanes && (d.isName || d.isP) && (hd.ty.isF || hd.ty.isI), d.inRange && a.inRange && b.inRange, hd.tok.fits .A⟩
  | .vsub hd d a b => ⟨hd.mod.lanes && (d.isName || d.isP) && (hd.ty.isF || hd.ty.isI), d.inRange && a.inRange && b.inRange, hd.tok.fits .A⟩
  | .vmul hd d a b => ⟨hd.mod.lanes && (d.isName || d.isP) && (hd.ty.isF || hd.ty.isI), d.inRange && a.inRange && b.inRange, hd.tok.fits .A⟩
  | .vfma hd d a b c => ⟨hd.mod.lanes && (d.isName || d.isP) && (hd.ty.isF), d.inRange && a.inRange && b.inRange && c.inRange, hd.tok.fits .A⟩
  | .vfms hd d a b c => ⟨hd.mod.lanes && (d.isName || d.isP) && (hd.ty.isF), d.inRange && a.inRange && b.inRange && c.inRange, hd.tok.fits .A⟩
  | .vfnma hd d a b c => ⟨hd.mod.lanes && (d.isName || d.isP) && (hd.ty.isF), d.inRange && a.inRange && b.inRange && c.inRange, hd.tok.fits .A⟩
  | .vneg hd d a => ⟨hd.mod.lanes && (d.isName || d.isP) && (hd.ty.isF || hd.ty.isI), d.inRange && a.inRange, hd.tok.fits .A⟩
  | .vabs hd d a => ⟨hd.mod.lanes && (d.isName || d.isP) && (hd.ty.isF || hd.ty.isI), d.inRange && a.inRange, hd.tok.fits .A⟩
  | .vmin hd d a b => ⟨hd.mod.lanes && (d.isName || d.isP) && (hd.ty.isF || hd.ty.isI), d.inRange && a.inRange && b.inRange, hd.tok.fits .A⟩
  | .vmax hd d a b => ⟨hd.mod.lanes && (d.isName || d.isP) && (hd.ty.isF || hd.ty.isI), d.inRange && a.inRange && b.inRange, hd.tok.fits .A⟩
  | .vclamp hd d a b c => ⟨hd.mod.lanes && (d.isName || d.isP) && (hd.ty.isF || hd.ty.isI), d.inRange && a.inRange && b.inRange && c.inRange, hd.tok.fits .A⟩
  | .vmulh hd d a b => ⟨hd.mod.lanes && (d.isName || d.isP) && (hd.ty.isI), d.inRange && a.inRange && b.inRange, hd.tok.fits .A⟩
  | .vavg hd d a b => ⟨hd.mod.lanes && (d.isName || d.isP) && (hd.ty.isI), d.inRange && a.inRange && b.inRange, hd.tok.fits .A⟩
  | .vabsd hd d a b => ⟨hd.mod.lanes && (d.isName || d.isP) && (hd.ty.isF || hd.ty.isI), d.inRange && a.inRange && b.inRange, hd.tok.fits .A⟩
  | .vand hd d a b => ⟨hd.mod.lanes && (d.isName || d.isP) && (hd.ty.isI || hd.ty.isN), d.inRange && a.inRange && b.inRange, hd.tok.fits .A⟩
  | .vor hd d a b => ⟨hd.mod.lanes && (d.isName || d.isP) && (hd.ty.isI || hd.ty.isN), d.inRange && a.inRange && b.inRange, hd.tok.fits .A⟩
  | .vxor hd d a b => ⟨hd.mod.lanes && (d.isName || d.isP) && (hd.ty.isI || hd.ty.isN), d.inRange && a.inRange && b.inRange, hd.tok.fits .A⟩
  | .vandn hd d a b => ⟨hd.mod.lanes && (d.isName || d.isP) && (hd.ty.isI || hd.ty.isN), d.inRange && a.inRange && b.inRange, hd.tok.fits .A⟩
  | .vnot hd d a => ⟨hd.mod.lanes && (d.isName || d.isP) && (hd.ty.isI || hd.ty.isN), d.inRange && a.inRange, hd.tok.fits .A⟩
  | .vshl hd d a b => ⟨hd.mod.lanes && (d.isName || d.isP) && (hd.ty.isI), d.inRange && a.inRange && b.inRange, hd.tok.fits .A⟩
  | .vshr hd d a b => ⟨hd.mod.lanes && (d.isName || d.isP) && (hd.ty.isI), d.inRange && a.inRange && b.inRange, hd.tok.fits .A⟩
  | .vsra hd d a b => ⟨hd.mod.lanes && (d.isName || d.isP) && (hd.ty.isI), d.inRange && a.inRange && b.inRange, hd.tok.fits .A⟩
  | .vclz hd d a => ⟨hd.mod.lanes && (d.isName || d.isP) && (hd.ty.isI), d.inRange && a.inRange, hd.tok.fits .A⟩
  | .vpopc hd d a => ⟨hd.mod.lanes && (d.isName || d.isP) && (hd.ty.isI), d.inRange && a.inRange, hd.tok.fits .A⟩
  | .vcmpeq hd d a b => ⟨hd.mod.lanes && (d.isName || d.isP) && (hd.ty.isF || hd.ty.isI), d.inRange && a.inRange && b.inRange, hd.tok.fits .A⟩
  | .vcmpne hd d a b => ⟨hd.mod.lanes && (d.isName || d.isP) && (hd.ty.isF || hd.ty.isI), d.inRange && a.inRange && b.inRange, hd.tok.fits .A⟩
  | .vcmplt hd d a b => ⟨hd.mod.lanes && (d.isName || d.isP) && (hd.ty.isF || hd.ty.isI), d.inRange && a.inRange && b.inRange, hd.tok.fits .A⟩
  | .vcmple hd d a b => ⟨hd.mod.lanes && (d.isName || d.isP) && (hd.ty.isF || hd.ty.isI), d.inRange && a.inRange && b.inRange, hd.tok.fits .A⟩
  | .vsel hd d a b c => ⟨hd.mod.lanes && (d.isName || d.isP), d.inRange && a.inRange && b.inRange && c.inRange, hd.tok.fits .A⟩
  | .vmsk hd op d a b => ⟨hd.mod.lanes && (d.isName || d.isP) && op.slots a b, d.inRange && a.inRange && b.inRange, hd.tok.fits .A⟩
  | .vcvt hd part st d a => ⟨hd.mod.lanes && (d.isName || d.isP) && (hd.ty.isF || hd.ty.isI) && st != .nf && cvtOk hd.ty st part, d.inRange && a.inRange, hd.tok.fits .A⟩
  | .vrnd hd d a => ⟨hd.mod.lanes && (d.isName || d.isP) && (hd.ty.isF), d.inRange && a.inRange, hd.tok.fits .A⟩
  | .vexp hd d a => ⟨hd.mod.lanes && (d.isName || d.isP) && (hd.ty.isF), d.inRange && a.inRange, hd.tok.fits .A⟩
  | .vlog hd d a => ⟨hd.mod.lanes && (d.isName || d.isP) && (hd.ty.isF), d.inRange && a.inRange, hd.tok.fits .A⟩
  | .vrcp hd d a => ⟨hd.mod.lanes && (d.isName || d.isP) && (hd.ty.isF), d.inRange && a.inRange, hd.tok.fits .A⟩
  | .vrsqrt hd d a => ⟨hd.mod.lanes && (d.isName || d.isP) && (hd.ty.isF), d.inRange && a.inRange, hd.tok.fits .A⟩
  | .vtanh hd d a => ⟨hd.mod.lanes && (d.isName || d.isP) && (hd.ty.isF), d.inRange && a.inRange, hd.tok.fits .A⟩
  | .vredadd hd d a => ⟨hd.mod.lanes && (d.isName || d.isP) && (hd.ty.isF || hd.ty.isI), d.inRange && a.inRange, hd.tok.fits .A⟩
  | .vredmax hd d a => ⟨hd.mod.lanes && (d.isName || d.isP) && (hd.ty.isF || hd.ty.isI), d.inRange && a.inRange, hd.tok.fits .A⟩
  | .vredmin hd d a => ⟨hd.mod.lanes && (d.isName || d.isP) && (hd.ty.isF || hd.ty.isI), d.inRange && a.inRange, hd.tok.fits .A⟩
  | .vscan hd _ op d e a b => ⟨hd.mod.lanes && (d.isName || d.isP) && op.typeOk hd.ty && op.pairSlots e b, d.inRange && e.inRange && a.inRange && b.inRange, hd.tok.fits .A⟩
  | .vscanc hd op d e a b c => ⟨hd.mod.lanes && (d.isName || d.isP) && op.typeOk hd.ty && op.pairSlots e b, d.inRange && e.inRange && a.inRange && b.inRange && c.inRange, hd.tok.fits .A⟩
  | .vperm hd d a b => ⟨hd.mod.lanes && (d.isName || d.isP), d.inRange && a.inRange && b.inRange, hd.tok.fits .A⟩
  | .vrot hd d a b => ⟨hd.mod.lanes && (d.isName || d.isP), d.inRange && a.inRange && b.inRange, hd.tok.fits .A⟩
  | .vshuf hd d a b c => ⟨hd.mod.lanes && (d.isName || d.isP), d.inRange && a.inRange && b.inRange && c.inRange, hd.tok.fits .A⟩
  | .vcmpr hd d a b => ⟨hd.mod.lanes && (d.isName || d.isP), d.inRange && a.inRange && b.inRange, hd.tok.fits .A⟩
  | .vexpd hd d a b => ⟨hd.mod.lanes && (d.isName || d.isP), d.inRange && a.inRange && b.inRange, hd.tok.fits .A⟩
  | .vhash hd bits d a b => ⟨hd.mod.lanes && (d.isName || d.isP) && (hd.ty == .n32 || hd.ty == .n64) && bits != 0#7 && decide (bits.toNat ≤ hd.ty.bits), d.inRange && a.inRange && b.inRange, hd.tok.fits .A⟩
  | .vnft hd d a b => ⟨hd.mod.lanes && (d.isName || d.isP) && (hd.ty.isF) && b.isS, d.inRange && a.inRange && b.inRange, hd.tok.fits .A⟩
  | .vsplat hd d a => ⟨hd.mod.lanes && (d.isName || d.isP) && (hd.ty.isF || hd.ty.isI) && a.isS, d.inRange && a.inRange, hd.tok.fits .A⟩
  | .viota hd d a => ⟨hd.mod.lanes && (d.isName || d.isP) && (hd.ty.isI), d.inRange && a.inRange, hd.tok.fits .A⟩
  | .vdup hd d a b => ⟨hd.mod.lanes && (d.isName || d.isP), d.inRange && a.inRange && b.inRange, hd.tok.fits .A⟩
  | .vcnt hd d a => ⟨hd.mod.lanes && (d.isName || d.isP) && (hd.ty.isI), d.inRange && a.inRange, hd.tok.fits .A⟩
  | .vbfx hd _ _ d a c => ⟨hd.mod.lanes && (d.isName || d.isP) && c.isS, d.inRange && a.inRange && c.inRange, hd.tok.fits .A⟩
  | .mmac tok t _ _ _ rms => ⟨prodType t rms, true, tok.fits .M⟩
  | .mmacs tok t _ sa sb rms qa _ qb _ => ⟨prodType t rms && t == .f32 && qa != sa && qa != sb && qb != sa && qb != sb, true, tok.fits .M⟩
  | .mrot tok t _ _ _ rms => ⟨prodType t rms, true, tok.fits .M⟩
  | .mgx tok t _ _ rms a c => ⟨prodType t rms && a.isS && (c.isV || c.isP), a.inRange && c.inRange, tok.fits .M⟩
  | .mgrp tok t _ rms a b nb _ _ => ⟨prodType t rms && a.isS && b.isS && nb != 0#7 && nb.ule 64#7, a.inRange && b.inRange, tok.fits .M⟩
  | .mchk tok op acc => ⟨(op == .verify || acc == 0#2), true, tok.fits .M⟩
  | .mshape tok a => ⟨a.isS, a.inRange, tok.fits .M⟩
  | .mzero tok _ => ⟨true, true, tok.fits .M⟩
  | .mdrain hd _ d => ⟨hd.mod.base d && (d.isP || d.isS), d.inRange, hd.tok.fits .M⟩
  | .mmov hd _ d a => ⟨hd.mod.lanes && d.isName && a.isS && hd.ty != .nf && hd.ty != .n64 && hd.ty != .i64, d.inRange && a.inRange, hd.tok.fits .M⟩
  | .mfill tok _ _ a b => ⟨(a.isP || a.isS) && b.isS, a.inRange && b.inRange, tok.fits .M⟩
  | .mrel tok _ => ⟨true, true, tok.fits .M⟩
  | .mkeep tok _ => ⟨true, true, tok.fits .M⟩
  | .mrd tok sel d a => ⟨d.isName && ((sel == 0#3 && a.isZero) || (sel == 1#3 && a.isS)), d.inRange && a.inRange, tok.fits .M⟩
  | .recv _ _ => Checks.pass
  | .recvt _ _ _ _ => Checks.pass
  | .rpeek _ _ => Checks.pass
  | .radv _ _ => Checks.pass
  | .rsend _ _ _ _ => Checks.pass
  | .rbind _ _ _ => Checks.pass
  | .tdone => Checks.pass
  | .kwake _ => Checks.pass
  | .ksleep => Checks.pass
  | .kid _ => Checks.pass
  | .recvtTimeout _ _ => Checks.pass
  | .walkDeadlock _ => Checks.pass
  | .trapEntry _ _ _ _ => Checks.pass
  | .preemption _ _ => Checks.pass
  | .spill _ => Checks.pass
  | .fillBack _ _ _ => Checks.pass
  | .resume _ _ => Checks.pass
  | .resumePast _ _ => Checks.pass
  | .save _ => Checks.pass
  | .replayParked _ _ => Checks.pass
  | .kill _ => Checks.pass
  | .teardownComplete _ => Checks.pass
  | .taskEnd _ => Checks.pass
  | .launchRecord _ _ => Checks.pass
  | .graphEnd _ => Checks.pass
  | .stageSchedule _ _ _ => Checks.pass
  | .taskLaunch _ => Checks.pass
  | .gangPlacement _ _ => Checks.pass
  | .reservationRelease _ => Checks.pass
  | .agingPreempt _ _ _ => Checks.pass
  | .commandAcceptance _ _ => Checks.pass
  | .commandStart _ _ _ => Checks.pass
  | .commandRetirement _ _ _ => Checks.pass
  | .followOn _ _ => Checks.pass
  | .markerRetire _ _ => Checks.pass
  | .combiningNodeMerge _ _ => Checks.pass
  | .lineLanding _ => Checks.pass
  | .eaccUpdate _ _ => Checks.pass
  | .translationWalk _ _ => Checks.pass
  | .xlinvPage _ _ _ => Checks.pass
  | .xlinvContext _ _ => Checks.pass
  | .xlinvAll _ => Checks.pass
  | .invalidationComplete _ => Checks.pass
  | .l2pinWrite _ _ => Checks.pass
  | .contextLoad _ => Checks.pass
  | .contextUnload _ => Checks.pass
  | .fabcfgWrite _ => Checks.pass
  | .fabricTableWrite _ _ => Checks.pass
  | .fabricTableRead _ => Checks.pass
  | .evringWrite _ _ => Checks.pass
  | .evbindWrite _ _ _ => Checks.pass
  | .hapctlWrite _ => Checks.pass
  | .registerWrite _ _ _ => Checks.pass
  | .hostApertureRead _ _ => Checks.pass
  | .hostApertureWrite _ _ => Checks.pass
  | .quiesce _ => Checks.pass
  | .faultLogState _ => Checks.pass
  | .getVersion _ => Checks.pass
  | .getCapabilities _ => Checks.pass
  | .negotiateAlgorithms _ => Checks.pass
  | .getDigests _ => Checks.pass
  | .getCertificate _ => Checks.pass
  | .challenge _ => Checks.pass
  | .getMeasurements _ => Checks.pass
  | .boot _ => Checks.pass
  | .functionLevelReset => Checks.pass
  | .placementTableRead _ _ _ => Checks.pass
  | .tokenRanking _ _ _ => Checks.pass
  | .permitRequest _ _ _ => Checks.pass
  | .permitReply _ _ _ => Checks.pass
  | .roundOpening _ _ _ => Checks.pass
  | .doneMessage _ _ _ => Checks.pass
  | .roundDeadline _ _ _ => Checks.pass
  | .binClose _ _ _ => Checks.pass
  | .roundRetirement _ _ _ => Checks.pass
  | .windrowAppend _ _ => Checks.pass
  | .terminationSweep _ _ _ => Checks.pass
  | .batchGroup _ _ => Checks.pass
  | .packetArrival _ => Checks.pass
  | .packetForward _ => Checks.pass
  | .linkReplay _ => Checks.pass
  | .linkDown _ => Checks.pass
  | .parkBufferRelease _ => Checks.pass
  | .reductionContribution _ => Checks.pass
  | .pullLoad _ _ _ _ _ _ _ => Checks.pass
  | .reductionTimeout _ _ _ _ => Checks.pass
  | .flushNotice _ _ _ _ _ => Checks.pass
  | .carryArrival _ => Checks.pass
  | .groupSlotDrain _ _ => Checks.pass
  | .collectiveStep _ _ _ => Checks.pass
  | .ringArrival _ _ _ => Checks.pass
  | .byteCounterDelivery _ _ _ _ => Checks.pass
  | .barrierCompletion _ => Checks.pass
  | .shadowSweep _ => Checks.pass
  | .rollback _ _ => Checks.pass
  | .patrolScrub _ _ => Checks.pass
  | .counterRefresh _ _ => Checks.pass
  | .eventFire _ _ _ _ _ _ => Checks.pass
  | .islandThrottle _ => Checks.pass
  | .writeAcknowledge _ => Checks.pass
  | .mailboxWrite _ _ _ => Checks.pass
  | .portTraining _ => Checks.pass
  | .pcieLinkTraining _ _ => Checks.pass

/-- A well-formed instruction: one that some word stands for, and every event. -/
def wf (i : Instr) : Bool := (checksOf i).fields && (checksOf i).index && (checksOf i).tokens

end Sys2Proof
end

