-- ==== Sys2Proof/Decode.lean ====
section
/-! DEFINITION. Decoding a word of program text (chapter 2): from parcels to an instruction or to the
cause that R24 orders first, and after it the encoder of the same tables. Both are total. -/

namespace Sys2Proof

/-! ### Field codes -/

/-- Table 2.10. -/
def Ty.code : Ty → BitVec 4
  | .n8 => 0x0#4 | .n16 => 0x1#4 | .n32 => 0x2#4 | .n64 => 0x3#4
  | .i8 => 0x4#4 | .i16 => 0x5#4 | .i32 => 0x6#4 | .i64 => 0x7#4
  | .f16 => 0x8#4 | .bf16 => 0x9#4 | .f32 => 0xA#4 | .nf => 0xB#4

def Ty.ofCode (c : BitVec 4) : Option Ty :=
  match c.toNat with
  | 0 => some .n8 | 1 => some .n16 | 2 => some .n32 | 3 => some .n64
  | 4 => some .i8 | 5 => some .i16 | 6 => some .i32 | 7 => some .i64
  | 8 => some .f16 | 9 => some .bf16 | 10 => some .f32 | 11 => some .nf
  | _ => none

/-- The cond of `vbr` in SUB (R232). -/
def BrCond.code : BrCond → BitVec 6
  | .any => 0#6 | .none => 1#6 | .all => 2#6 | .notall => 3#6

def BrCond.ofCode (c : BitVec 6) : Option BrCond :=
  match c.toNat with
  | 0 => some .any | 1 => some .none | 2 => some .all | 3 => some .notall
  | _ => Option.none

/-- The op of `vmsk` in SUB (Table 9.5). -/
def MaskOp.code : MaskOp → BitVec 6
  | .and => 0#6 | .or => 1#6 | .xor => 2#6 | .andn => 3#6
  | .not => 4#6 | .first => 5#6 | .all => 6#6 | .none => 7#6

def MaskOp.ofCode (c : BitVec 6) : Option MaskOp :=
  match c.toNat with
  | 0 => some .and | 1 => some .or | 2 => some .xor | 3 => some .andn
  | 4 => some .not | 5 => some .first | 6 => some .all | 7 => some .none
  | _ => Option.none

/-- The operator of `vscan` and `vscanc` in SUB[18:17] (R226). -/
def ScanOp.code : ScanOp → BitVec 2
  | .add => 0#2 | .max => 1#2 | .affine => 2#2

def ScanOp.ofCode (c : BitVec 2) : Option ScanOp :=
  match c.toNat with
  | 0 => some .add | 1 => some .max | 2 => some .affine
  | _ => none

/-- The op of `mchk` in SUB[20:18] (R260). -/
def ChkOp.code : ChkOp → BitVec 3
  | .off => 0#3 | .on => 1#3 | .verify => 2#3

def ChkOp.ofCode (c : BitVec 3) : Option ChkOp :=
  match c.toNat with
  | 0 => some .off | 1 => some .on | 2 => some .verify
  | _ => none

/-- The engine tags of Table 2.1. -/
inductive Tag where
  | S | L | A | W | M | X | C | K
  deriving DecidableEq, Repr

def Tag.code : Tag → BitVec 3
  | .S => 0#3 | .L => 1#3 | .A => 2#3 | .W => 3#3 | .M => 4#3 | .X => 5#3 | .C => 6#3 | .K => 7#3

def Tag.ofCode (c : BitVec 3) : Tag :=
  match c.toNat with
  | 0 => .S | 1 => .L | 2 => .A | 3 => .W | 4 => .M | 5 => .X | 6 => .C | _ => .K

/-! ### The head parcel (Tables 2.1, 2.5, 2.6) -/

def headLen (h : Parcel) : BitVec 2 := h.extractLsb' 0 2
def headTag (h : Parcel) : Tag := Tag.ofCode (h.extractLsb' 2 3)
def headOpc (h : Parcel) : BitVec 7 := h.extractLsb' 5 7

/-- The parcels of an instruction of each length (R18); 0 for the reserved length. -/
def parcelsOf (len : BitVec 2) : Nat :=
  match len.toNat with
  | 0 => 1 | 1 => 3 | 2 => 6
  | _ => 0

/-- The bytes a PC that skips an instruction advances by (R21). -/
def headBytes (h : Parcel) : Nat := 4 * parcelsOf (headLen h)

/-- Table 2.5, F32R. -/
def fD (h : Parcel) : BitVec 6 := h.extractLsb' 12 6
def fA (h : Parcel) : BitVec 6 := h.extractLsb' 18 6
def fB (h : Parcel) : BitVec 6 := h.extractLsb' 24 6
def fF (h : Parcel) : BitVec 2 := h.extractLsb' 30 2
/-- F32I. -/
def fImm8 (h : Parcel) : BitVec 8 := h.extractLsb' 24 8
/-- F32J and F32L. -/
def fImm14 (h : Parcel) : BitVec 14 := h.extractLsb' 18 14
/-- F32M. -/
def fImm4 (h : Parcel) : BitVec 4 := h.extractLsb' 28 4
def fTyM (h : Parcel) : BitVec 4 := h.extractLsb' 24 4
/-- F32B. -/
def fImm20 (h : Parcel) : BitVec 20 := h.extractLsb' 12 20
/-- F32K. -/
def fImm15 (h : Parcel) : BitVec 15 := h.extractLsb' 17 15
def fNeg (h : Parcel) : Bool := h.getLsbD 16
/-- A predicate index in the low four bits of D, A or B. -/
def fK (h : Parcel) : PIdx := h.extractLsb' 12 4
def fKA (h : Parcel) : PIdx := h.extractLsb' 18 4
def fKB (h : Parcel) : PIdx := h.extractLsb' 24 4
/-- Table 2.6. -/
def fPred (h : Parcel) : Pred := ⟨h.getLsbD 16, h.extractLsb' 12 4⟩
def fSub (h : Parcel) : BitVec 6 := h.extractLsb' 17 6
def fTy (h : Parcel) : BitVec 4 := h.extractLsb' 23 4
def fMod (h : Parcel) : BitVec 5 := h.extractLsb' 27 5
/-- R172: F in SUB[19:18], IMMS in SUB[17]. -/
def fSubF (h : Parcel) : BitVec 2 := h.extractLsb' 18 2
def fImms (h : Parcel) : Bool := h.getLsbD 17

/-! ### The later parcels (Table 2.7) -/

def gD (p1 : Parcel) : BitVec 6 := p1.extractLsb' 16 6
def gA (p1 : Parcel) : BitVec 6 := p1.extractLsb' 22 6
def gK (p1 : Parcel) : PIdx := p1.extractLsb' 16 4
def gNeg (p1 : Parcel) : Bool := p1.getLsbD 20
/-- The third operand of F96S: IMM32 when IMMS = 1, else s[B]. -/
def fRI (h p2 : Parcel) : RegOrImm := if fImms h then .imm p2 else .reg (p2.extractLsb' 0 6)
/-- F0 to F3 of F96C. -/
def gF0 (p2 : Parcel) : BitVec 6 := p2.extractLsb' 0 6
def gF1 (p2 : Parcel) : BitVec 6 := p2.extractLsb' 6 6
def gF2 (p2 : Parcel) : BitVec 6 := p2.extractLsb' 12 6
def gF3 (p2 : Parcel) : BitVec 6 := p2.extractLsb' 18 6
/-- Operand and token fields of F96V, F192V and X96V. -/
def vD (p1 : Parcel) : BitVec 14 := p1.extractLsb' 16 14
def vTok (p1 : Parcel) : Tok := ⟨p1.extractLsb' 0 8, p1.extractLsb' 8 8⟩
def vA (p : Parcel) : BitVec 14 := p.extractLsb' 0 14
def vB (p : Parcel) : BitVec 14 := p.extractLsb' 14 14

/-- Table 2.8. PK is legal on kind 0b00 only, and kind 0b11 is reserved. -/
def Opnd.ofBits (x : BitVec 14) : Option Opnd :=
  match (x.extractLsb' 12 2).toNat, x.getLsbD 11 with
  | 0, pk => some (.v pk (x.extractLsb' 0 11))
  | 1, false => some (.p (x.extractLsb' 0 11))
  | 2, false => some (.s (x.extractLsb' 0 11))
  | _, _ => none

def Opnd.bits : Opnd → BitVec 14
  | .v pk n => 0#2 ++ BitVec.ofBool pk ++ n
  | .p n => 1#2 ++ 0#1 ++ n
  | .s n => 2#2 ++ 0#1 ++ n

def Opnd.zero : Opnd := .v false 0#11

/-- MOD of an L, A or W word (R32). -/
def VMod.bits (m : VMod) : BitVec 5 := BitVec.ofBool m.col ++ BitVec.ofBool m.sat ++ m.rm

/-- TYPE, MOD and TOKEN of an L, A or W word. -/
def vhead (h p1 : Parcel) : Option VHead :=
  (Ty.ofCode (fTy h)).map fun t => ⟨t, ⟨h.getLsbD 31, h.getLsbD 30, h.extractLsb' 27 3⟩, vTok p1⟩

/-! ### Laying fields out -/

def w32 (hi : BitVec 20) (opc : BitVec 7) (eng : BitVec 3) : Parcel := hi ++ opc ++ eng ++ 0#2
def hiR (f : BitVec 2) (b a d : BitVec 6) : BitVec 20 := f ++ b ++ a ++ d
def hiI (i : BitVec 8) (a d : BitVec 6) : BitVec 20 := i ++ a ++ d
def hiJ (i : BitVec 14) (d : BitVec 6) : BitVec 20 := i ++ d
def hiM (i t : BitVec 4) (a d : BitVec 6) : BitVec 20 := i ++ t ++ a ++ d
def hiK (i : BitVec 15) (neg : Bool) (k : PIdx) : BitVec 20 := i ++ BitVec.ofBool neg ++ k
def wlong (mod : BitVec 5) (ty : BitVec 4) (sub : BitVec 6) (pred : BitVec 5) (opc : BitVec 7)
    (eng : BitVec 3) (len : BitVec 2) : Parcel := mod ++ ty ++ sub ++ pred ++ opc ++ eng ++ len
def subS (f : BitVec 2) (imms : Bool) : BitVec 6 := 0#3 ++ f ++ BitVec.ofBool imms
def predBits (p : Pred) : BitVec 5 := BitVec.ofBool p.neg ++ p.k
def parcS (a d : BitVec 6) : Parcel := 0#4 ++ a ++ d ++ 0#16
def parcF (f0 f1 f2 f3 : BitVec 6) : Parcel := 0#8 ++ f3 ++ f2 ++ f1 ++ f0
def parcV (t : Tok) (d : Opnd) : Parcel := 0#2 ++ d.bits ++ t.push ++ t.pop
def parcAB (a b : Opnd) : Parcel := 0#4 ++ b.bits ++ a.bits
def regK (k : PIdx) : BitVec 6 := 0#2 ++ k
def regNK (neg : Bool) (k : PIdx) : BitVec 6 := 0#1 ++ BitVec.ofBool neg ++ k

def isImm : RegOrImm → Bool
  | .reg _ => false
  | .imm _ => true

def parcRI : RegOrImm → Parcel
  | .reg r => 0#26 ++ r
  | .imm v => v

/-! ### The opcode map (Tables 2.13 to 2.20)

Each row: opcode, length, and the reading of the fields from the parcels. -/

/-- A row of the opcode map. -/
abbrev OpRow := BitVec 7 × BitVec 2 ×
  (Parcel → Parcel → Parcel → Parcel → Parcel → Parcel → Option Instr)

/-- Table 2.13. -/
def rowsS1 : List OpRow := [
  (0x00#7, 0#2, fun _ _ _ _ _ _ => some .nop),
  (0x01#7, 0#2, fun h _ _ _ _ _ => some (.add (fD h) (fA h) (fB h))),
  (0x01#7, 1#2, fun h p1 p2 _ _ _ => some (.addLong (fPred h) (gD p1) (gA p1) (fRI h p2))),
  (0x02#7, 0#2, fun h _ _ _ _ _ => some (.sub (fD h) (fA h) (fB h))),
  (0x02#7, 1#2, fun h p1 p2 _ _ _ => some (.subLong (fPred h) (gD p1) (gA p1) (fRI h p2))),
  (0x03#7, 0#2, fun h _ _ _ _ _ => some (.mul (fD h) (fA h) (fB h))),
  (0x03#7, 1#2, fun h p1 p2 _ _ _ => some (.mulLong (fPred h) (gD p1) (gA p1) (fRI h p2))),
  (0x04#7, 0#2, fun h _ _ _ _ _ => some (.mulh (fD h) (fA h) (fB h))),
  (0x04#7, 1#2, fun h p1 p2 _ _ _ => some (.mulhLong (fPred h) (gD p1) (gA p1) (fRI h p2))),
  (0x05#7, 0#2, fun h _ _ _ _ _ => some (.mulhn (fD h) (fA h) (fB h))),
  (0x05#7, 1#2, fun h p1 p2 _ _ _ => some (.mulhnLong (fPred h) (gD p1) (gA p1) (fRI h p2))),
  (0x06#7, 0#2, fun h _ _ _ _ _ => some (.div (fD h) (fA h) (fB h))),
  (0x06#7, 1#2, fun h p1 p2 _ _ _ => some (.divLong (fPred h) (gD p1) (gA p1) (fRI h p2))),
  (0x07#7, 0#2, fun h _ _ _ _ _ => some (.divn (fD h) (fA h) (fB h))),
  (0x07#7, 1#2, fun h p1 p2 _ _ _ => some (.divnLong (fPred h) (gD p1) (gA p1) (fRI h p2))),
  (0x08#7, 0#2, fun h _ _ _ _ _ => some (.rem (fD h) (fA h) (fB h))),
  (0x08#7, 1#2, fun h p1 p2 _ _ _ => some (.remLong (fPred h) (gD p1) (gA p1) (fRI h p2))),
  (0x09#7, 0#2, fun h _ _ _ _ _ => some (.remn (fD h) (fA h) (fB h))),
  (0x09#7, 1#2, fun h p1 p2 _ _ _ => some (.remnLong (fPred h) (gD p1) (gA p1) (fRI h p2))),
  (0x0A#7, 0#2, fun h _ _ _ _ _ => some (.and (fD h) (fA h) (fB h))),
  (0x0A#7, 1#2, fun h p1 p2 _ _ _ => some (.andLong (fPred h) (gD p1) (gA p1) (fRI h p2))),
  (0x0B#7, 0#2, fun h _ _ _ _ _ => some (.or (fD h) (fA h) (fB h))),
  (0x0B#7, 1#2, fun h p1 p2 _ _ _ => some (.orLong (fPred h) (gD p1) (gA p1) (fRI h p2))),
  (0x0C#7, 0#2, fun h _ _ _ _ _ => some (.xor (fD h) (fA h) (fB h)))]

/-- Table 2.13. -/
def rowsS2 : List OpRow := [
  (0x0C#7, 1#2, fun h p1 p2 _ _ _ => some (.xorLong (fPred h) (gD p1) (gA p1) (fRI h p2))),
  (0x0D#7, 0#2, fun h _ _ _ _ _ => some (.shl (fD h) (fA h) (fB h))),
  (0x0D#7, 1#2, fun h p1 p2 _ _ _ => some (.shlLong (fPred h) (gD p1) (gA p1) (fRI h p2))),
  (0x0E#7, 0#2, fun h _ _ _ _ _ => some (.shr (fD h) (fA h) (fB h))),
  (0x0E#7, 1#2, fun h p1 p2 _ _ _ => some (.shrLong (fPred h) (gD p1) (gA p1) (fRI h p2))),
  (0x0F#7, 0#2, fun h _ _ _ _ _ => some (.sra (fD h) (fA h) (fB h))),
  (0x0F#7, 1#2, fun h p1 p2 _ _ _ => some (.sraLong (fPred h) (gD p1) (gA p1) (fRI h p2))),
  (0x10#7, 0#2, fun h _ _ _ _ _ => some (.min (fD h) (fA h) (fB h))),
  (0x10#7, 1#2, fun h p1 p2 _ _ _ => some (.minLong (fPred h) (gD p1) (gA p1) (fRI h p2))),
  (0x11#7, 0#2, fun h _ _ _ _ _ => some (.max (fD h) (fA h) (fB h))),
  (0x11#7, 1#2, fun h p1 p2 _ _ _ => some (.maxLong (fPred h) (gD p1) (gA p1) (fRI h p2))),
  (0x12#7, 0#2, fun h _ _ _ _ _ => some (.minn (fD h) (fA h) (fB h))),
  (0x12#7, 1#2, fun h p1 p2 _ _ _ => some (.minnLong (fPred h) (gD p1) (gA p1) (fRI h p2))),
  (0x13#7, 0#2, fun h _ _ _ _ _ => some (.maxn (fD h) (fA h) (fB h))),
  (0x13#7, 1#2, fun h p1 p2 _ _ _ => some (.maxnLong (fPred h) (gD p1) (gA p1) (fRI h p2))),
  (0x14#7, 0#2, fun h _ _ _ _ _ => some (.clz (fD h) (fA h))),
  (0x14#7, 1#2, fun h p1 _ _ _ _ => some (.clzLong (fPred h) (gD p1) (gA p1))),
  (0x15#7, 0#2, fun h _ _ _ _ _ => some (.popc (fD h) (fA h))),
  (0x15#7, 1#2, fun h p1 _ _ _ _ => some (.popcLong (fPred h) (gD p1) (gA p1))),
  (0x16#7, 0#2, fun h _ _ _ _ _ => some (.sext (fF h) (fD h) (fA h))),
  (0x16#7, 1#2, fun h p1 _ _ _ _ => some (.sextLong (fPred h) (fSubF h) (gD p1) (gA p1))),
  (0x17#7, 0#2, fun h _ _ _ _ _ => some (.andn (fD h) (fA h) (fB h))),
  (0x17#7, 1#2, fun h p1 p2 _ _ _ => some (.andnLong (fPred h) (gD p1) (gA p1) (fRI h p2))),
  (0x18#7, 0#2, fun h _ _ _ _ _ => some (.addi (fD h) (fA h) (fImm8 h)))]

/-- Table 2.13. -/
def rowsS3 : List OpRow := [
  (0x18#7, 1#2, fun h p1 p2 _ _ _ => some (.addiLong (fPred h) (gD p1) (gA p1) p2)),
  (0x19#7, 0#2, fun h _ _ _ _ _ => some (.andi (fD h) (fA h) (fImm8 h))),
  (0x19#7, 1#2, fun h p1 p2 _ _ _ => some (.andiLong (fPred h) (gD p1) (gA p1) p2)),
  (0x1A#7, 0#2, fun h _ _ _ _ _ => some (.ori (fD h) (fA h) (fImm8 h))),
  (0x1A#7, 1#2, fun h p1 p2 _ _ _ => some (.oriLong (fPred h) (gD p1) (gA p1) p2)),
  (0x1B#7, 0#2, fun h _ _ _ _ _ => some (.xori (fD h) (fA h) (fImm8 h))),
  (0x1B#7, 1#2, fun h p1 p2 _ _ _ => some (.xoriLong (fPred h) (gD p1) (gA p1) p2)),
  (0x1C#7, 0#2, fun h _ _ _ _ _ => some (.shli (fD h) (fA h) (fImm8 h))),
  (0x1C#7, 1#2, fun h p1 p2 _ _ _ => some (.shliLong (fPred h) (gD p1) (gA p1) p2)),
  (0x1D#7, 0#2, fun h _ _ _ _ _ => some (.shri (fD h) (fA h) (fImm8 h))),
  (0x1D#7, 1#2, fun h p1 p2 _ _ _ => some (.shriLong (fPred h) (gD p1) (gA p1) p2)),
  (0x1E#7, 0#2, fun h _ _ _ _ _ => some (.srai (fD h) (fA h) (fImm8 h))),
  (0x1E#7, 1#2, fun h p1 p2 _ _ _ => some (.sraiLong (fPred h) (gD p1) (gA p1) p2)),
  (0x1F#7, 0#2, fun h _ _ _ _ _ => some (.li (fD h) (fImm14 h))),
  (0x1F#7, 1#2, fun h p1 p2 _ _ _ => (if fSubF h = 1#2 then some (.liHi (fPred h) (gD p1) p2) else some (.liLong (fPred h) (gD p1) p2))),
  (0x20#7, 0#2, fun h _ _ _ _ _ => some (.cmpeq (fK h) (fA h) (fB h))),
  (0x20#7, 1#2, fun h p1 p2 _ _ _ => some (.cmpeqLong (fPred h) (gK p1) (gA p1) (fRI h p2))),
  (0x21#7, 0#2, fun h _ _ _ _ _ => some (.cmpne (fK h) (fA h) (fB h))),
  (0x21#7, 1#2, fun h p1 p2 _ _ _ => some (.cmpneLong (fPred h) (gK p1) (gA p1) (fRI h p2))),
  (0x22#7, 0#2, fun h _ _ _ _ _ => some (.cmplt (fK h) (fA h) (fB h))),
  (0x22#7, 1#2, fun h p1 p2 _ _ _ => some (.cmpltLong (fPred h) (gK p1) (gA p1) (fRI h p2))),
  (0x23#7, 0#2, fun h _ _ _ _ _ => some (.cmple (fK h) (fA h) (fB h))),
  (0x23#7, 1#2, fun h p1 p2 _ _ _ => some (.cmpleLong (fPred h) (gK p1) (gA p1) (fRI h p2))),
  (0x24#7, 0#2, fun h _ _ _ _ _ => some (.cmpltn (fK h) (fA h) (fB h)))]

/-- Table 2.13. -/
def rowsS4 : List OpRow := [
  (0x24#7, 1#2, fun h p1 p2 _ _ _ => some (.cmpltnLong (fPred h) (gK p1) (gA p1) (fRI h p2))),
  (0x25#7, 0#2, fun h _ _ _ _ _ => some (.cmplen (fK h) (fA h) (fB h))),
  (0x25#7, 1#2, fun h p1 p2 _ _ _ => some (.cmplenLong (fPred h) (gK p1) (gA p1) (fRI h p2))),
  (0x26#7, 0#2, fun h _ _ _ _ _ => some (.pand (fK h) (fKA h) (fKB h))),
  (0x27#7, 0#2, fun h _ _ _ _ _ => some (.por (fK h) (fKA h) (fKB h))),
  (0x28#7, 0#2, fun h _ _ _ _ _ => some (.pxor (fK h) (fKA h) (fKB h))),
  (0x29#7, 0#2, fun h _ _ _ _ _ => some (.pnot (fK h) (fKA h))),
  (0x2A#7, 0#2, fun h _ _ _ _ _ => some (.kget (fD h))),
  (0x2B#7, 0#2, fun h _ _ _ _ _ => some (.kset (fA h))),
  (0x2C#7, 0#2, fun h _ _ _ _ _ => ((Ty.ofCode (fTyM h)).map fun t => .ld t (fD h) (fA h) (fImm4 h))),
  (0x2C#7, 1#2, fun h p1 p2 _ _ _ => ((Ty.ofCode (fTy h)).map fun t => .ldLong (fPred h) t (gD p1) (gA p1) (fRI h p2))),
  (0x2D#7, 0#2, fun h _ _ _ _ _ => ((Ty.ofCode (fTyM h)).map fun t => .st t (fD h) (fA h) (fImm4 h))),
  (0x2D#7, 1#2, fun h p1 p2 _ _ _ => ((Ty.ofCode (fTy h)).map fun t => .stLong (fPred h) t (gD p1) (gA p1) (fRI h p2))),
  (0x2E#7, 0#2, fun h _ _ _ _ _ => ((Ty.ofCode (fTyM h)).map fun t => .ldg t (fD h) (fA h) (fImm4 h))),
  (0x2E#7, 1#2, fun h p1 p2 _ _ _ => ((Ty.ofCode (fTy h)).map fun t => .ldgLong (fPred h) t (gD p1) (gA p1) (fRI h p2))),
  (0x2F#7, 0#2, fun h _ _ _ _ _ => ((Ty.ofCode (fTyM h)).map fun t => .stg t (fD h) (fA h) (fImm4 h))),
  (0x2F#7, 1#2, fun h p1 p2 _ _ _ => ((Ty.ofCode (fTy h)).map fun t => .stgLong (fPred h) t (gD p1) (gA p1) (fRI h p2))),
  (0x30#7, 0#2, fun h _ _ _ _ _ => some (.mfc (fD h) (fImm14 h))),
  (0x31#7, 0#2, fun h _ _ _ _ _ => some (.mtc (fD h) (fImm14 h))),
  (0x32#7, 0#2, fun h _ _ _ _ _ => some (.cid (fD h))),
  (0x32#7, 1#2, fun h p1 _ _ _ _ => some (.cidLong (fPred h) (gD p1))),
  (0x33#7, 0#2, fun h _ _ _ _ _ => some (.nearad (fD h) (fA h) (fB h))),
  (0x33#7, 1#2, fun h p1 p2 _ _ _ => some (.nearadLong (fPred h) (gD p1) (gA p1) (fRI h p2))),
  (0x34#7, 0#2, fun h _ _ _ _ _ => some (.clad (fD h) (fA h) (fB h)))]

/-- Table 2.13. -/
def rowsS5 : List OpRow := [
  (0x34#7, 1#2, fun h p1 p2 _ _ _ => some (.cladLong (fPred h) (gD p1) (gA p1) (fRI h p2))),
  (0x35#7, 0#2, fun h _ _ _ _ _ => some (.fence (fImm8 h))),
  (0x36#7, 0#2, fun _ _ _ _ _ _ => some .isync),
  (0x37#7, 0#2, fun _ _ _ _ _ _ => some .yield),
  (0x38#7, 0#2, fun h _ _ _ _ _ => some (.halt (fImm8 h))),
  (0x39#7, 0#2, fun h _ _ _ _ _ => some (.trap (fImm8 h))),
  (0x3A#7, 0#2, fun h _ _ _ _ _ => some (.ftst (fK h) (fImm14 h))),
  (0x3B#7, 0#2, fun h _ _ _ _ _ => some (.fset (fImm14 h))),
  (0x3C#7, 0#2, fun h _ _ _ _ _ => some (.fclr (fImm14 h))),
  (0x3D#7, 0#2, fun h _ _ _ _ _ => some (.fwait (fImm14 h))),
  (0x3E#7, 0#2, fun h _ _ _ _ _ => some (.wlpush (fA h) (fB h))),
  (0x3F#7, 0#2, fun h _ _ _ _ _ => some (.wlpop (fD h) (fA h)))]

def rowsS : List OpRow := rowsS1 ++ rowsS2 ++ rowsS3 ++ rowsS4 ++ rowsS5

/-- Table 2.16. -/
def rowsL : List OpRow := [
  (0x00#7, 1#2, fun h p1 p2 _ _ _ => ((vhead h p1).bind fun hd => (Opnd.ofBits (vD p1)).bind fun d => (Opnd.ofBits (vA p2)).bind fun a => some (.vld hd d a))),
  (0x01#7, 1#2, fun h p1 p2 _ _ _ => ((vhead h p1).bind fun hd => (Opnd.ofBits (vD p1)).bind fun d => (Opnd.ofBits (vA p2)).bind fun a => (Opnd.ofBits (vB p2)).bind fun b => some (.vldx hd d a b))),
  (0x02#7, 2#2, fun h p1 p2 p3 p4 p5 => ((vhead h p1).bind fun hd => (Opnd.ofBits (vD p1)).bind fun d => (Opnd.ofBits (vA p2)).bind fun a => (Opnd.ofBits (vA p3)).bind fun c => some (.vldb hd (p4.extractLsb' 0 10) p5 d a c))),
  (0x03#7, 1#2, fun h p1 p2 _ _ _ => ((vhead h p1).bind fun hd => (Opnd.ofBits (vD p1)).bind fun d => (Opnd.ofBits (vA p2)).bind fun a => some (.vldg hd d a))),
  (0x04#7, 1#2, fun h p1 p2 _ _ _ => ((vhead h p1).bind fun hd => (Opnd.ofBits (vD p1)).bind fun d => (Opnd.ofBits (vA p2)).bind fun a => some (.vldbc hd d a))),
  (0x05#7, 2#2, fun h p1 p2 p3 p4 p5 => ((vhead h p1).bind fun hd => (Opnd.ofBits (vD p1)).bind fun d => (Opnd.ofBits (vA p2)).bind fun a => (Opnd.ofBits (vA p3)).bind fun c => some (.vlds hd (p4.extractLsb' 0 10) p5 d a c))),
  (0x06#7, 1#2, fun h p1 p2 _ _ _ => ((vhead h p1).bind fun hd => (Opnd.ofBits (vA p2)).bind fun a => some (.vpref hd a))),
  (0x07#7, 1#2, fun h p1 p2 _ _ _ => ((vhead h p1).bind fun hd => (Opnd.ofBits (vD p1)).bind fun d => (Opnd.ofBits (vA p2)).bind fun a => (Opnd.ofBits (vB p2)).bind fun b => some (.vldfl hd d a b)))]

/-- Table 2.17. -/
def rowsA1 : List OpRow := [
  (0x00#7, 1#2, fun h p1 p2 _ _ _ => ((vhead h p1).bind fun hd => (Opnd.ofBits (vD p1)).bind fun d => (Opnd.ofBits (vA p2)).bind fun a => some (.vmov hd d a))),
  (0x01#7, 1#2, fun h p1 p2 _ _ _ => ((vhead h p1).bind fun hd => (Opnd.ofBits (vD p1)).bind fun d => (Opnd.ofBits (vA p2)).bind fun a => (Opnd.ofBits (vB p2)).bind fun b => some (.vadd hd d a b))),
  (0x02#7, 1#2, fun h p1 p2 _ _ _ => ((vhead h p1).bind fun hd => (Opnd.ofBits (vD p1)).bind fun d => (Opnd.ofBits (vA p2)).bind fun a => (Opnd.ofBits (vB p2)).bind fun b => some (.vsub hd d a b))),
  (0x03#7, 1#2, fun h p1 p2 _ _ _ => ((vhead h p1).bind fun hd => (Opnd.ofBits (vD p1)).bind fun d => (Opnd.ofBits (vA p2)).bind fun a => (Opnd.ofBits (vB p2)).bind fun b => some (.vmul hd d a b))),
  (0x04#7, 2#2, fun h p1 p2 p3 _ _ => ((vhead h p1).bind fun hd => (Opnd.ofBits (vD p1)).bind fun d => (Opnd.ofBits (vA p2)).bind fun a => (Opnd.ofBits (vB p2)).bind fun b => (Opnd.ofBits (vA p3)).bind fun c => some (.vfma hd d a b c))),
  (0x05#7, 2#2, fun h p1 p2 p3 _ _ => ((vhead h p1).bind fun hd => (Opnd.ofBits (vD p1)).bind fun d => (Opnd.ofBits (vA p2)).bind fun a => (Opnd.ofBits (vB p2)).bind fun b => (Opnd.ofBits (vA p3)).bind fun c => some (.vfms hd d a b c))),
  (0x06#7, 2#2, fun h p1 p2 p3 _ _ => ((vhead h p1).bind fun hd => (Opnd.ofBits (vD p1)).bind fun d => (Opnd.ofBits (vA p2)).bind fun a => (Opnd.ofBits (vB p2)).bind fun b => (Opnd.ofBits (vA p3)).bind fun c => some (.vfnma hd d a b c))),
  (0x07#7, 1#2, fun h p1 p2 _ _ _ => ((vhead h p1).bind fun hd => (Opnd.ofBits (vD p1)).bind fun d => (Opnd.ofBits (vA p2)).bind fun a => some (.vneg hd d a))),
  (0x08#7, 1#2, fun h p1 p2 _ _ _ => ((vhead h p1).bind fun hd => (Opnd.ofBits (vD p1)).bind fun d => (Opnd.ofBits (vA p2)).bind fun a => some (.vabs hd d a))),
  (0x09#7, 1#2, fun h p1 p2 _ _ _ => ((vhead h p1).bind fun hd => (Opnd.ofBits (vD p1)).bind fun d => (Opnd.ofBits (vA p2)).bind fun a => (Opnd.ofBits (vB p2)).bind fun b => some (.vmin hd d a b))),
  (0x0A#7, 1#2, fun h p1 p2 _ _ _ => ((vhead h p1).bind fun hd => (Opnd.ofBits (vD p1)).bind fun d => (Opnd.ofBits (vA p2)).bind fun a => (Opnd.ofBits (vB p2)).bind fun b => some (.vmax hd d a b))),
  (0x0B#7, 2#2, fun h p1 p2 p3 _ _ => ((vhead h p1).bind fun hd => (Opnd.ofBits (vD p1)).bind fun d => (Opnd.ofBits (vA p2)).bind fun a => (Opnd.ofBits (vB p2)).bind fun b => (Opnd.ofBits (vA p3)).bind fun c => some (.vclamp hd d a b c))),
  (0x0C#7, 1#2, fun h p1 p2 _ _ _ => ((vhead h p1).bind fun hd => (Opnd.ofBits (vD p1)).bind fun d => (Opnd.ofBits (vA p2)).bind fun a => (Opnd.ofBits (vB p2)).bind fun b => some (.vmulh hd d a b))),
  (0x0D#7, 1#2, fun h p1 p2 _ _ _ => ((vhead h p1).bind fun hd => (Opnd.ofBits (vD p1)).bind fun d => (Opnd.ofBits (vA p2)).bind fun a => (Opnd.ofBits (vB p2)).bind fun b => some (.vavg hd d a b))),
  (0x0E#7, 1#2, fun h p1 p2 _ _ _ => ((vhead h p1).bind fun hd => (Opnd.ofBits (vD p1)).bind fun d => (Opnd.ofBits (vA p2)).bind fun a => (Opnd.ofBits (vB p2)).bind fun b => some (.vabsd hd d a b))),
  (0x0F#7, 1#2, fun h p1 p2 _ _ _ => ((vhead h p1).bind fun hd => (Opnd.ofBits (vD p1)).bind fun d => (Opnd.ofBits (vA p2)).bind fun a => (Opnd.ofBits (vB p2)).bind fun b => some (.vand hd d a b))),
  (0x10#7, 1#2, fun h p1 p2 _ _ _ => ((vhead h p1).bind fun hd => (Opnd.ofBits (vD p1)).bind fun d => (Opnd.ofBits (vA p2)).bind fun a => (Opnd.ofBits (vB p2)).bind fun b => some (.vor hd d a b))),
  (0x11#7, 1#2, fun h p1 p2 _ _ _ => ((vhead h p1).bind fun hd => (Opnd.ofBits (vD p1)).bind fun d => (Opnd.ofBits (vA p2)).bind fun a => (Opnd.ofBits (vB p2)).bind fun b => some (.vxor hd d a b))),
  (0x12#7, 1#2, fun h p1 p2 _ _ _ => ((vhead h p1).bind fun hd => (Opnd.ofBits (vD p1)).bind fun d => (Opnd.ofBits (vA p2)).bind fun a => (Opnd.ofBits (vB p2)).bind fun b => some (.vandn hd d a b))),
  (0x13#7, 1#2, fun h p1 p2 _ _ _ => ((vhead h p1).bind fun hd => (Opnd.ofBits (vD p1)).bind fun d => (Opnd.ofBits (vA p2)).bind fun a => some (.vnot hd d a))),
  (0x14#7, 1#2, fun h p1 p2 _ _ _ => ((vhead h p1).bind fun hd => (Opnd.ofBits (vD p1)).bind fun d => (Opnd.ofBits (vA p2)).bind fun a => (Opnd.ofBits (vB p2)).bind fun b => some (.vshl hd d a b))),
  (0x15#7, 1#2, fun h p1 p2 _ _ _ => ((vhead h p1).bind fun hd => (Opnd.ofBits (vD p1)).bind fun d => (Opnd.ofBits (vA p2)).bind fun a => (Opnd.ofBits (vB p2)).bind fun b => some (.vshr hd d a b))),
  (0x16#7, 1#2, fun h p1 p2 _ _ _ => ((vhead h p1).bind fun hd => (Opnd.ofBits (vD p1)).bind fun d => (Opnd.ofBits (vA p2)).bind fun a => (Opnd.ofBits (vB p2)).bind fun b => some (.vsra hd d a b))),
  (0x17#7, 1#2, fun h p1 p2 _ _ _ => ((vhead h p1).bind fun hd => (Opnd.ofBits (vD p1)).bind fun d => (Opnd.ofBits (vA p2)).bind fun a => some (.vclz hd d a)))]

/-- Table 2.17. -/
def rowsA2 : List OpRow := [
  (0x18#7, 1#2, fun h p1 p2 _ _ _ => ((vhead h p1).bind fun hd => (Opnd.ofBits (vD p1)).bind fun d => (Opnd.ofBits (vA p2)).bind fun a => some (.vpopc hd d a))),
  (0x19#7, 1#2, fun h p1 p2 _ _ _ => ((vhead h p1).bind fun hd => (Opnd.ofBits (vD p1)).bind fun d => (Opnd.ofBits (vA p2)).bind fun a => (Opnd.ofBits (vB p2)).bind fun b => some (.vcmpeq hd d a b))),
  (0x1A#7, 1#2, fun h p1 p2 _ _ _ => ((vhead h p1).bind fun hd => (Opnd.ofBits (vD p1)).bind fun d => (Opnd.ofBits (vA p2)).bind fun a => (Opnd.ofBits (vB p2)).bind fun b => some (.vcmpne hd d a b))),
  (0x1B#7, 1#2, fun h p1 p2 _ _ _ => ((vhead h p1).bind fun hd => (Opnd.ofBits (vD p1)).bind fun d => (Opnd.ofBits (vA p2)).bind fun a => (Opnd.ofBits (vB p2)).bind fun b => some (.vcmplt hd d a b))),
  (0x1C#7, 1#2, fun h p1 p2 _ _ _ => ((vhead h p1).bind fun hd => (Opnd.ofBits (vD p1)).bind fun d => (Opnd.ofBits (vA p2)).bind fun a => (Opnd.ofBits (vB p2)).bind fun b => some (.vcmple hd d a b))),
  (0x1D#7, 2#2, fun h p1 p2 p3 _ _ => ((vhead h p1).bind fun hd => (Opnd.ofBits (vD p1)).bind fun d => (Opnd.ofBits (vA p2)).bind fun a => (Opnd.ofBits (vB p2)).bind fun b => (Opnd.ofBits (vA p3)).bind fun c => some (.vsel hd d a b c))),
  (0x1E#7, 1#2, fun h p1 p2 _ _ _ => ((vhead h p1).bind fun hd => (MaskOp.ofCode (fSub h)).bind fun op => (Opnd.ofBits (vD p1)).bind fun d => (Opnd.ofBits (vA p2)).bind fun a => (Opnd.ofBits (vB p2)).bind fun b => some (.vmsk hd op d a b))),
  (0x1F#7, 1#2, fun h p1 p2 _ _ _ => ((vhead h p1).bind fun hd => (Ty.ofCode ((fSub h).extractLsb' 0 4)).bind fun st => (Opnd.ofBits (vD p1)).bind fun d => (Opnd.ofBits (vA p2)).bind fun a => some (.vcvt hd ((fSub h).extractLsb' 4 2) st d a))),
  (0x20#7, 1#2, fun h p1 p2 _ _ _ => ((vhead h p1).bind fun hd => (Opnd.ofBits (vD p1)).bind fun d => (Opnd.ofBits (vA p2)).bind fun a => some (.vrnd hd d a))),
  (0x21#7, 1#2, fun h p1 p2 _ _ _ => ((vhead h p1).bind fun hd => (Opnd.ofBits (vD p1)).bind fun d => (Opnd.ofBits (vA p2)).bind fun a => some (.vexp hd d a))),
  (0x22#7, 1#2, fun h p1 p2 _ _ _ => ((vhead h p1).bind fun hd => (Opnd.ofBits (vD p1)).bind fun d => (Opnd.ofBits (vA p2)).bind fun a => some (.vlog hd d a))),
  (0x23#7, 1#2, fun h p1 p2 _ _ _ => ((vhead h p1).bind fun hd => (Opnd.ofBits (vD p1)).bind fun d => (Opnd.ofBits (vA p2)).bind fun a => some (.vrcp hd d a))),
  (0x24#7, 1#2, fun h p1 p2 _ _ _ => ((vhead h p1).bind fun hd => (Opnd.ofBits (vD p1)).bind fun d => (Opnd.ofBits (vA p2)).bind fun a => some (.vrsqrt hd d a))),
  (0x25#7, 1#2, fun h p1 p2 _ _ _ => ((vhead h p1).bind fun hd => (Opnd.ofBits (vD p1)).bind fun d => (Opnd.ofBits (vA p2)).bind fun a => some (.vtanh hd d a))),
  (0x26#7, 1#2, fun h p1 p2 _ _ _ => ((vhead h p1).bind fun hd => (Opnd.ofBits (vD p1)).bind fun d => (Opnd.ofBits (vA p2)).bind fun a => some (.vredadd hd d a))),
  (0x27#7, 1#2, fun h p1 p2 _ _ _ => ((vhead h p1).bind fun hd => (Opnd.ofBits (vD p1)).bind fun d => (Opnd.ofBits (vA p2)).bind fun a => some (.vredmax hd d a))),
  (0x28#7, 1#2, fun h p1 p2 _ _ _ => ((vhead h p1).bind fun hd => (Opnd.ofBits (vD p1)).bind fun d => (Opnd.ofBits (vA p2)).bind fun a => some (.vredmin hd d a))),
  (0x29#7, 2#2, fun h p1 p2 p3 _ _ => ((vhead h p1).bind fun hd => (ScanOp.ofCode ((fSub h).extractLsb' 0 2)).bind fun op => (Opnd.ofBits (vD p1)).bind fun d => (Opnd.ofBits (vB p3)).bind fun e => (Opnd.ofBits (vA p2)).bind fun a => (Opnd.ofBits (vB p2)).bind fun b => some (.vscan hd ((fSub h).getLsbD 2) op d e a b))),
  (0x2A#7, 2#2, fun h p1 p2 p3 _ _ => ((vhead h p1).bind fun hd => (ScanOp.ofCode ((fSub h).extractLsb' 0 2)).bind fun op => (Opnd.ofBits (vD p1)).bind fun d => (Opnd.ofBits (vB p3)).bind fun e => (Opnd.ofBits (vA p2)).bind fun a => (Opnd.ofBits (vB p2)).bind fun b => (Opnd.ofBits (vA p3)).bind fun c => some (.vscanc hd op d e a b c))),
  (0x2B#7, 1#2, fun h p1 p2 _ _ _ => ((vhead h p1).bind fun hd => (Opnd.ofBits (vD p1)).bind fun d => (Opnd.ofBits (vA p2)).bind fun a => (Opnd.ofBits (vB p2)).bind fun b => some (.vperm hd d a b))),
  (0x2C#7, 1#2, fun h p1 p2 _ _ _ => ((vhead h p1).bind fun hd => (Opnd.ofBits (vD p1)).bind fun d => (Opnd.ofBits (vA p2)).bind fun a => (Opnd.ofBits (vB p2)).bind fun b => some (.vrot hd d a b))),
  (0x2D#7, 2#2, fun h p1 p2 p3 _ _ => ((vhead h p1).bind fun hd => (Opnd.ofBits (vD p1)).bind fun d => (Opnd.ofBits (vA p2)).bind fun a => (Opnd.ofBits (vB p2)).bind fun b => (Opnd.ofBits (vA p3)).bind fun c => some (.vshuf hd d a b c))),
  (0x2E#7, 1#2, fun h p1 p2 _ _ _ => ((vhead h p1).bind fun hd => (Opnd.ofBits (vD p1)).bind fun d => (Opnd.ofBits (vA p2)).bind fun a => (Opnd.ofBits (vB p2)).bind fun b => some (.vcmpr hd d a b))),
  (0x2F#7, 1#2, fun h p1 p2 _ _ _ => ((vhead h p1).bind fun hd => (Opnd.ofBits (vD p1)).bind fun d => (Opnd.ofBits (vA p2)).bind fun a => (Opnd.ofBits (vB p2)).bind fun b => some (.vexpd hd d a b)))]

/-- Table 2.17. -/
def rowsA3 : List OpRow := [
  (0x30#7, 2#2, fun h p1 p2 _ p4 _ => ((vhead h p1).bind fun hd => (Opnd.ofBits (vD p1)).bind fun d => (Opnd.ofBits (vA p2)).bind fun a => (Opnd.ofBits (vB p2)).bind fun b => some (.vhash hd (p4.extractLsb' 0 7) d a b))),
  (0x31#7, 1#2, fun h p1 p2 _ _ _ => ((vhead h p1).bind fun hd => (Opnd.ofBits (vD p1)).bind fun d => (Opnd.ofBits (vA p2)).bind fun a => (Opnd.ofBits (vB p2)).bind fun b => some (.vnft hd d a b))),
  (0x32#7, 1#2, fun h p1 p2 _ _ _ => ((vhead h p1).bind fun hd => (Opnd.ofBits (vD p1)).bind fun d => (Opnd.ofBits (vA p2)).bind fun a => some (.vsplat hd d a))),
  (0x33#7, 1#2, fun h p1 p2 _ _ _ => ((vhead h p1).bind fun hd => (Opnd.ofBits (vD p1)).bind fun d => (Opnd.ofBits (vA p2)).bind fun a => some (.viota hd d a))),
  (0x34#7, 1#2, fun h p1 p2 _ _ _ => ((vhead h p1).bind fun hd => (Opnd.ofBits (vD p1)).bind fun d => (Opnd.ofBits (vA p2)).bind fun a => (Opnd.ofBits (vB p2)).bind fun b => some (.vdup hd d a b))),
  (0x35#7, 1#2, fun h p1 p2 _ _ _ => ((vhead h p1).bind fun hd => (Opnd.ofBits (vD p1)).bind fun d => (Opnd.ofBits (vA p2)).bind fun a => some (.vcnt hd d a))),
  (0x36#7, 2#2, fun h p1 p2 p3 p4 p5 => ((vhead h p1).bind fun hd => (Opnd.ofBits (vD p1)).bind fun d => (Opnd.ofBits (vA p2)).bind fun a => (Opnd.ofBits (vA p3)).bind fun c => some (.vbfx hd (p4.extractLsb' 0 10) p5 d a c)))]

def rowsA : List OpRow := rowsA1 ++ rowsA2 ++ rowsA3

/-- Table 2.18. -/
def rowsW : List OpRow := [
  (0x00#7, 1#2, fun h p1 p2 _ _ _ => ((vhead h p1).bind fun hd => (Opnd.ofBits (vD p1)).bind fun d => (Opnd.ofBits (vA p2)).bind fun a => some (.vst hd d a))),
  (0x01#7, 1#2, fun h p1 p2 _ _ _ => ((vhead h p1).bind fun hd => (Opnd.ofBits (vD p1)).bind fun d => (Opnd.ofBits (vA p2)).bind fun a => (Opnd.ofBits (vB p2)).bind fun b => some (.vstx hd d a b))),
  (0x02#7, 2#2, fun h p1 p2 p3 p4 p5 => ((vhead h p1).bind fun hd => (Opnd.ofBits (vD p1)).bind fun d => (Opnd.ofBits (vA p2)).bind fun a => (Opnd.ofBits (vA p3)).bind fun c => some (.vstb hd (p4.extractLsb' 0 10) p5 d a c))),
  (0x03#7, 1#2, fun h p1 p2 _ _ _ => ((vhead h p1).bind fun hd => (Opnd.ofBits (vD p1)).bind fun d => (Opnd.ofBits (vA p2)).bind fun a => some (.vstg hd d a))),
  (0x04#7, 2#2, fun h p1 p2 p3 p4 p5 => ((vhead h p1).bind fun hd => (Opnd.ofBits (vD p1)).bind fun d => (Opnd.ofBits (vA p2)).bind fun a => (Opnd.ofBits (vA p3)).bind fun c => some (.vsts hd (p4.extractLsb' 0 10) p5 d a c))),
  (0x05#7, 1#2, fun h p1 p2 _ _ _ => ((vhead h p1).bind fun hd => (Opnd.ofBits (vD p1)).bind fun d => (Opnd.ofBits (vA p2)).bind fun a => (Opnd.ofBits (vB p2)).bind fun b => some (.vstm hd d a b))),
  (0x06#7, 1#2, fun h p1 p2 _ _ _ => ((vhead h p1).bind fun hd => (Opnd.ofBits (vD p1)).bind fun d => (Opnd.ofBits (vA p2)).bind fun a => (Opnd.ofBits (vB p2)).bind fun b => some (.vstc hd d a b)))]

/-- Table 2.19. -/
def rowsM : List OpRow := [
  (0x00#7, 1#2, fun h p1 _ _ _ _ => ((Ty.ofCode (fTy h)).bind fun t => some (.mmac (vTok p1) t ((fSub h).extractLsb' 4 2) ((fSub h).extractLsb' 1 3) ((fMod h).extractLsb' 2 3) ((fMod h).extractLsb' 0 2)))),
  (0x01#7, 2#2, fun h p1 _ _ p4 _ => ((Ty.ofCode (fTy h)).bind fun t => some (.mmacs (vTok p1) t ((fSub h).extractLsb' 4 2) ((fSub h).extractLsb' 1 3) ((fMod h).extractLsb' 2 3) ((fMod h).extractLsb' 0 2) (p4.extractLsb' 0 3) (p4.extractLsb' 3 6) (p4.extractLsb' 9 3) (p4.extractLsb' 12 6)))),
  (0x02#7, 1#2, fun h p1 _ _ _ _ => ((Ty.ofCode (fTy h)).bind fun t => some (.mrot (vTok p1) t ((fSub h).extractLsb' 4 2) ((fSub h).extractLsb' 1 3) ((fMod h).extractLsb' 2 3) ((fMod h).extractLsb' 0 2)))),
  (0x03#7, 2#2, fun h p1 p2 p3 _ _ => ((Ty.ofCode (fTy h)).bind fun t => (Opnd.ofBits (vA p2)).bind fun a => (Opnd.ofBits (vA p3)).bind fun c => some (.mgx (vTok p1) t ((fSub h).extractLsb' 4 2) ((fMod h).extractLsb' 2 3) ((fMod h).extractLsb' 0 2) a c))),
  (0x04#7, 2#2, fun h p1 p2 _ p4 p5 => ((Ty.ofCode (fTy h)).bind fun t => (Opnd.ofBits (vA p2)).bind fun a => (Opnd.ofBits (vB p2)).bind fun b => some (.mgrp (vTok p1) t ((fSub h).extractLsb' 4 2) ((fMod h).extractLsb' 0 2) a b (p4.extractLsb' 0 7) (p5.extractLsb' 0 8) (p5.extractLsb' 16 16)))),
  (0x05#7, 1#2, fun h p1 _ _ _ _ => ((ChkOp.ofCode ((fSub h).extractLsb' 1 3)).bind fun op => some (.mchk (vTok p1) op ((fSub h).extractLsb' 4 2)))),
  (0x06#7, 1#2, fun _ p1 p2 _ _ _ => ((Opnd.ofBits (vA p2)).bind fun a => some (.mshape (vTok p1) a))),
  (0x07#7, 1#2, fun h p1 _ _ _ _ => some (.mzero (vTok p1) ((fSub h).extractLsb' 4 2))),
  (0x08#7, 1#2, fun h p1 _ _ _ _ => ((vhead h p1).bind fun hd => (Opnd.ofBits (vD p1)).bind fun d => some (.mdrain hd ((fSub h).extractLsb' 4 2) d))),
  (0x09#7, 1#2, fun h p1 p2 _ _ _ => ((vhead h p1).bind fun hd => (Opnd.ofBits (vD p1)).bind fun d => (Opnd.ofBits (vA p2)).bind fun a => some (.mmov hd ((fSub h).extractLsb' 4 2) d a))),
  (0x0A#7, 1#2, fun h p1 p2 _ _ _ => ((Opnd.ofBits (vA p2)).bind fun a => (Opnd.ofBits (vB p2)).bind fun b => some (.mfill (vTok p1) ((fMod h).getLsbD 4) ((fSub h).extractLsb' 1 3) a b))),
  (0x0B#7, 1#2, fun h p1 _ _ _ _ => some (.mrel (vTok p1) ((fSub h).extractLsb' 1 3))),
  (0x0C#7, 1#2, fun h p1 _ _ _ _ => some (.mkeep (vTok p1) ((fSub h).extractLsb' 4 2))),
  (0x0D#7, 1#2, fun h p1 p2 _ _ _ => ((Opnd.ofBits (vD p1)).bind fun d => (Opnd.ofBits (vA p2)).bind fun a => some (.mrd (vTok p1) ((fSub h).extractLsb' 1 3) d a)))]

/-- Table 2.14. -/
def rowsX : List OpRow := [
  (0x00#7, 0#2, fun h _ _ _ _ _ => some (.b (fImm20 h))),
  (0x00#7, 1#2, fun _ _ p2 _ _ _ => some (.bLong p2)),
  (0x01#7, 0#2, fun h _ _ _ _ _ => some (.bk (fNeg h) (fK h) (fImm15 h))),
  (0x01#7, 1#2, fun _ p1 p2 _ _ _ => some (.bkLong (gNeg p1) (gK p1) p2)),
  (0x02#7, 0#2, fun h _ _ _ _ _ => some (.call (fImm20 h))),
  (0x02#7, 1#2, fun _ _ p2 _ _ _ => some (.callLong p2)),
  (0x03#7, 0#2, fun _ _ _ _ _ _ => some .ret),
  (0x04#7, 0#2, fun h _ _ _ _ _ => some (.jr (fA h))),
  (0x05#7, 0#2, fun h _ _ _ _ _ => some (.loop (fD h) (fImm14 h))),
  (0x06#7, 1#2, fun _ p1 p2 _ _ _ => some (.loopi p2 (gA p1 ++ gD p1))),
  (0x07#7, 0#2, fun h _ _ _ _ _ => some (.lexit (fNeg h) (fK h))),
  (0x08#7, 0#2, fun h _ _ _ _ _ => some (.bar (fD h))),
  (0x09#7, 0#2, fun _ _ _ _ _ _ => some .meet),
  (0x0A#7, 0#2, fun h _ _ _ _ _ => some (.sigchk (fImm20 h))),
  (0x0B#7, 1#2, fun h p1 p2 _ _ _ => ((Ty.ofCode (fTy h)).bind fun t => (BrCond.ofCode (fSub h)).bind fun c => (Opnd.ofBits (vD p1)).map fun a => .vbr t c (vTok p1) a p2))]

/-- Table 2.15. -/
def rowsC : List OpRow := [
  (0x00#7, 1#2, fun h p1 p2 _ _ _ => some (.ecopy (fPred h) (gD p1) (gA p1) (gF0 p2) (gF1 p2) (gF2 p2) (gF3 p2))),
  (0x01#7, 1#2, fun h p1 p2 _ _ _ => some (.egath (fPred h) (gD p1) (gA p1) (gF0 p2) (gF1 p2) (gF2 p2) (gF3 p2))),
  (0x02#7, 1#2, fun h p1 p2 _ _ _ => some (.escat (fPred h) (gD p1) (gA p1) (gF0 p2) (gF1 p2) (gF2 p2) (gF3 p2))),
  (0x03#7, 1#2, fun h p1 p2 _ _ _ => some (.eacc (fPred h) (gD p1) (gA p1) (gF0 p2) (gF1 p2) (gF2 p2) (gF3 p2))),
  (0x04#7, 1#2, fun h p1 p2 _ _ _ => some (.emark (fPred h) (gD p1) (gA p1) (gF0 p2) (gF1 p2) (gF2 p2) (gF3 p2))),
  (0x05#7, 1#2, fun h p1 p2 _ _ _ => some (.earm (fPred h) (gD p1) (gA p1) (gF0 p2))),
  (0x06#7, 1#2, fun h p1 _ _ _ _ => some (.ewait (fPred h) (gA p1))),
  (0x07#7, 1#2, fun h p1 p2 _ _ _ => some (.eroute (fPred h) (gD p1) (gA p1) (gF0 p2) (gF1 p2) (gF2 p2) (gF3 p2))),
  (0x08#7, 1#2, fun h p1 p2 _ _ _ => some (.ebatch (fPred h) (gD p1) (gA p1) (gF0 p2) (gF1 p2) (gF2 p2) (gF3 p2))),
  (0x09#7, 1#2, fun h p1 p2 _ _ _ => some (.eldred (fPred h) (gD p1) (gA p1) (gF0 p2) (gF1 p2) (gF2 p2) (gF3 p2))),
  (0x0A#7, 1#2, fun h p1 p2 _ _ _ => some (.egroup (fPred h) (gD p1) (gA p1) (gF0 p2) (gF1 p2) (gF2 p2) (gF3 p2))),
  (0x0B#7, 1#2, fun h p1 p2 _ _ _ => some (.ecarry (fPred h) (gD p1) (gA p1) (gF0 p2) (gF1 p2) (gF2 p2) (gF3 p2))),
  (0x0C#7, 1#2, fun h p1 p2 _ _ _ => some (.ecoll (fPred h) (gD p1) (gA p1) (gF0 p2) (gF1 p2) (gF2 p2) (gF3 p2))),
  (0x0D#7, 1#2, fun h p1 p2 _ _ _ => some (.eget (fPred h) (gD p1) (gA p1) (gF0 p2) (gF1 p2) (gF2 p2) (gF3 p2))),
  (0x0E#7, 1#2, fun h p1 p2 _ _ _ => some (.eput (fPred h) (gD p1) (gA p1) (gF0 p2) (gF1 p2) (gF2 p2) (gF3 p2))),
  (0x0F#7, 1#2, fun h p1 p2 _ _ _ => some (.emcast (fPred h) (gD p1) (gA p1) (gF0 p2) (gF1 p2) (gF2 p2) (gF3 p2))),
  (0x10#7, 1#2, fun h p1 p2 _ _ _ => some (.eappend (fPred h) (gD p1) (gA p1) (gF0 p2) (gF1 p2) (gF2 p2) (gF3 p2))),
  (0x11#7, 1#2, fun h p1 p2 _ _ _ => some (.ebexp (fPred h) (gD p1) (gA p1) (gF0 p2) (gF1 p2) (gF2 p2) (gF3 p2))),
  (0x12#7, 1#2, fun h p1 _ _ _ _ => some (.ecancel (fPred h) (gD p1) (gA p1))),
  (0x13#7, 1#2, fun h p1 _ _ _ _ => some (.estat (fPred h) (gD p1) (gA p1))),
  (0x14#7, 1#2, fun h p1 p2 _ _ _ => some (.efset (fPred h) (gD p1) (gA p1) (gF0 p2) (gF1 p2) (gF2 p2) (gF3 p2))),
  (0x15#7, 1#2, fun h _ _ _ _ _ => some (.edrain (fPred h)))]

/-- Table 2.20. -/
def rowsK : List OpRow := [
  (0x00#7, 0#2, fun h _ _ _ _ _ => some (.recv (fD h) (fA h))),
  (0x01#7, 1#2, fun h p1 p2 _ _ _ => some (.recvt (fPred h) (gD p1) (gA p1) (fRI h p2))),
  (0x02#7, 0#2, fun h _ _ _ _ _ => some (.rpeek (fD h) (fA h))),
  (0x03#7, 0#2, fun h _ _ _ _ _ => some (.radv (fA h) (fB h))),
  (0x04#7, 1#2, fun h p1 p2 _ _ _ => some (.rsend (fPred h) (gD p1) (gA p1) (fRI h p2))),
  (0x05#7, 0#2, fun h _ _ _ _ _ => some (.rbind (fD h) (fA h) (fB h))),
  (0x06#7, 0#2, fun _ _ _ _ _ _ => some .tdone),
  (0x07#7, 0#2, fun h _ _ _ _ _ => some (.kwake (fA h))),
  (0x08#7, 0#2, fun _ _ _ _ _ _ => some .ksleep),
  (0x09#7, 0#2, fun h _ _ _ _ _ => some (.kid (fD h)))]

/-! ### Encoding -/

/-- The parcels of an instruction, head first; an event has none. -/
def encode : Instr → List Parcel
  | .nop => [w32 (hiR 0#2 0#6 0#6 0#6) 0x00#7 0#3]
  | .add d a b => [w32 (hiR 0#2 b a d) 0x01#7 0#3]
  | .addLong p d a b => [wlong 0#5 (0#4) (subS (0#2) (isImm b)) (predBits p) 0x01#7 0#3 1#2, parcS (a) (d), parcRI b]
  | .sub d a b => [w32 (hiR 0#2 b a d) 0x02#7 0#3]
  | .subLong p d a b => [wlong 0#5 (0#4) (subS (0#2) (isImm b)) (predBits p) 0x02#7 0#3 1#2, parcS (a) (d), parcRI b]
  | .mul d a b => [w32 (hiR 0#2 b a d) 0x03#7 0#3]
  | .mulLong p d a b => [wlong 0#5 (0#4) (subS (0#2) (isImm b)) (predBits p) 0x03#7 0#3 1#2, parcS (a) (d), parcRI b]
  | .mulh d a b => [w32 (hiR 0#2 b a d) 0x04#7 0#3]
  | .mulhLong p d a b => [wlong 0#5 (0#4) (subS (0#2) (isImm b)) (predBits p) 0x04#7 0#3 1#2, parcS (a) (d), parcRI b]
  | .mulhn d a b => [w32 (hiR 0#2 b a d) 0x05#7 0#3]
  | .mulhnLong p d a b => [wlong 0#5 (0#4) (subS (0#2) (isImm b)) (predBits p) 0x05#7 0#3 1#2, parcS (a) (d), parcRI b]
  | .div d a b => [w32 (hiR 0#2 b a d) 0x06#7 0#3]
  | .divLong p d a b => [wlong 0#5 (0#4) (subS (0#2) (isImm b)) (predBits p) 0x06#7 0#3 1#2, parcS (a) (d), parcRI b]
  | .divn d a b => [w32 (hiR 0#2 b a d) 0x07#7 0#3]
  | .divnLong p d a b => [wlong 0#5 (0#4) (subS (0#2) (isImm b)) (predBits p) 0x07#7 0#3 1#2, parcS (a) (d), parcRI b]
  | .rem d a b => [w32 (hiR 0#2 b a d) 0x08#7 0#3]
  | .remLong p d a b => [wlong 0#5 (0#4) (subS (0#2) (isImm b)) (predBits p) 0x08#7 0#3 1#2, parcS (a) (d), parcRI b]
  | .remn d a b => [w32 (hiR 0#2 b a d) 0x09#7 0#3]
  | .remnLong p d a b => [wlong 0#5 (0#4) (subS (0#2) (isImm b)) (predBits p) 0x09#7 0#3 1#2, parcS (a) (d), parcRI b]
  | .and d a b => [w32 (hiR 0#2 b a d) 0x0A#7 0#3]
  | .andLong p d a b => [wlong 0#5 (0#4) (subS (0#2) (isImm b)) (predBits p) 0x0A#7 0#3 1#2, parcS (a) (d), parcRI b]
  | .or d a b => [w32 (hiR 0#2 b a d) 0x0B#7 0#3]
  | .orLong p d a b => [wlong 0#5 (0#4) (subS (0#2) (isImm b)) (predBits p) 0x0B#7 0#3 1#2, parcS (a) (d), parcRI b]
  | .xor d a b => [w32 (hiR 0#2 b a d) 0x0C#7 0#3]
  | .xorLong p d a b => [wlong 0#5 (0#4) (subS (0#2) (isImm b)) (predBits p) 0x0C#7 0#3 1#2, parcS (a) (d), parcRI b]
  | .shl d a b => [w32 (hiR 0#2 b a d) 0x0D#7 0#3]
  | .shlLong p d a b => [wlong 0#5 (0#4) (subS (0#2) (isImm b)) (predBits p) 0x0D#7 0#3 1#2, parcS (a) (d), parcRI b]
  | .shr d a b => [w32 (hiR 0#2 b a d) 0x0E#7 0#3]
  | .shrLong p d a b => [wlong 0#5 (0#4) (subS (0#2) (isImm b)) (predBits p) 0x0E#7 0#3 1#2, parcS (a) (d), parcRI b]
  | .sra d a b => [w32 (hiR 0#2 b a d) 0x0F#7 0#3]
  | .sraLong p d a b => [wlong 0#5 (0#4) (subS (0#2) (isImm b)) (predBits p) 0x0F#7 0#3 1#2, parcS (a) (d), parcRI b]
  | .min d a b => [w32 (hiR 0#2 b a d) 0x10#7 0#3]
  | .minLong p d a b => [wlong 0#5 (0#4) (subS (0#2) (isImm b)) (predBits p) 0x10#7 0#3 1#2, parcS (a) (d), parcRI b]
  | .max d a b => [w32 (hiR 0#2 b a d) 0x11#7 0#3]
  | .maxLong p d a b => [wlong 0#5 (0#4) (subS (0#2) (isImm b)) (predBits p) 0x11#7 0#3 1#2, parcS (a) (d), parcRI b]
  | .minn d a b => [w32 (hiR 0#2 b a d) 0x12#7 0#3]
  | .minnLong p d a b => [wlong 0#5 (0#4) (subS (0#2) (isImm b)) (predBits p) 0x12#7 0#3 1#2, parcS (a) (d), parcRI b]
  | .maxn d a b => [w32 (hiR 0#2 b a d) 0x13#7 0#3]
  | .maxnLong p d a b => [wlong 0#5 (0#4) (subS (0#2) (isImm b)) (predBits p) 0x13#7 0#3 1#2, parcS (a) (d), parcRI b]
  | .clz d a => [w32 (hiR 0#2 0#6 a d) 0x14#7 0#3]
  | .clzLong p d a => [wlong 0#5 (0#4) (subS (0#2) false) (predBits p) 0x14#7 0#3 1#2, parcS (a) (d), 0#32]
  | .popc d a => [w32 (hiR 0#2 0#6 a d) 0x15#7 0#3]
  | .popcLong p d a => [wlong 0#5 (0#4) (subS (0#2) false) (predBits p) 0x15#7 0#3 1#2, parcS (a) (d), 0#32]
  | .sext f d a => [w32 (hiR f 0#6 a d) 0x16#7 0#3]
  | .sextLong p f d a => [wlong 0#5 (0#4) (subS (f) false) (predBits p) 0x16#7 0#3 1#2, parcS (a) (d), 0#32]
  | .andn d a b => [w32 (hiR 0#2 b a d) 0x17#7 0#3]
  | .andnLong p d a b => [wlong 0#5 (0#4) (subS (0#2) (isImm b)) (predBits p) 0x17#7 0#3 1#2, parcS (a) (d), parcRI b]
  | .addi d a i => [w32 (hiI i a d) 0x18#7 0#3]
  | .addiLong p d a i => [wlong 0#5 (0#4) (subS (0#2) true) (predBits p) 0x18#7 0#3 1#2, parcS (a) (d), i]
  | .andi d a i => [w32 (hiI i a d) 0x19#7 0#3]
  | .andiLong p d a i => [wlong 0#5 (0#4) (subS (0#2) true) (predBits p) 0x19#7 0#3 1#2, parcS (a) (d), i]
  | .ori d a i => [w32 (hiI i a d) 0x1A#7 0#3]
  | .oriLong p d a i => [wlong 0#5 (0#4) (subS (0#2) true) (predBits p) 0x1A#7 0#3 1#2, parcS (a) (d), i]
  | .xori d a i => [w32 (hiI i a d) 0x1B#7 0#3]
  | .xoriLong p d a i => [wlong 0#5 (0#4) (subS (0#2) true) (predBits p) 0x1B#7 0#3 1#2, parcS (a) (d), i]
  | .shli d a i => [w32 (hiI i a d) 0x1C#7 0#3]
  | .shliLong p d a i => [wlong 0#5 (0#4) (subS (0#2) true) (predBits p) 0x1C#7 0#3 1#2, parcS (a) (d), i]
  | .shri d a i => [w32 (hiI i a d) 0x1D#7 0#3]
  | .shriLong p d a i => [wlong 0#5 (0#4) (subS (0#2) true) (predBits p) 0x1D#7 0#3 1#2, parcS (a) (d), i]
  | .srai d a i => [w32 (hiI i a d) 0x1E#7 0#3]
  | .sraiLong p d a i => [wlong 0#5 (0#4) (subS (0#2) true) (predBits p) 0x1E#7 0#3 1#2, parcS (a) (d), i]
  | .li d i => [w32 (hiJ i d) 0x1F#7 0#3]
  | .liLong p d i => [wlong 0#5 (0#4) (subS (0#2) true) (predBits p) 0x1F#7 0#3 1#2, parcS (0#6) (d), i]
  | .liHi p d i => [wlong 0#5 (0#4) (subS (1#2) true) (predBits p) 0x1F#7 0#3 1#2, parcS (0#6) (d), i]
  | .cmpeq k a b => [w32 (hiR 0#2 b a (regK k)) 0x20#7 0#3]
  | .cmpeqLong p k a b => [wlong 0#5 (0#4) (subS (0#2) (isImm b)) (predBits p) 0x20#7 0#3 1#2, parcS (a) (regK k), parcRI b]
  | .cmpne k a b => [w32 (hiR 0#2 b a (regK k)) 0x21#7 0#3]
  | .cmpneLong p k a b => [wlong 0#5 (0#4) (subS (0#2) (isImm b)) (predBits p) 0x21#7 0#3 1#2, parcS (a) (regK k), parcRI b]
  | .cmplt k a b => [w32 (hiR 0#2 b a (regK k)) 0x22#7 0#3]
  | .cmpltLong p k a b => [wlong 0#5 (0#4) (subS (0#2) (isImm b)) (predBits p) 0x22#7 0#3 1#2, parcS (a) (regK k), parcRI b]
  | .cmple k a b => [w32 (hiR 0#2 b a (regK k)) 0x23#7 0#3]
  | .cmpleLong p k a b => [wlong 0#5 (0#4) (subS (0#2) (isImm b)) (predBits p) 0x23#7 0#3 1#2, parcS (a) (regK k), parcRI b]
  | .cmpltn k a b => [w32 (hiR 0#2 b a (regK k)) 0x24#7 0#3]
  | .cmpltnLong p k a b => [wlong 0#5 (0#4) (subS (0#2) (isImm b)) (predBits p) 0x24#7 0#3 1#2, parcS (a) (regK k), parcRI b]
  | .cmplen k a b => [w32 (hiR 0#2 b a (regK k)) 0x25#7 0#3]
  | .cmplenLong p k a b => [wlong 0#5 (0#4) (subS (0#2) (isImm b)) (predBits p) 0x25#7 0#3 1#2, parcS (a) (regK k), parcRI b]
  | .pand d a b => [w32 (hiR 0#2 (regK b) (regK a) (regK d)) 0x26#7 0#3]
  | .por d a b => [w32 (hiR 0#2 (regK b) (regK a) (regK d)) 0x27#7 0#3]
  | .pxor d a b => [w32 (hiR 0#2 (regK b) (regK a) (regK d)) 0x28#7 0#3]
  | .pnot d a => [w32 (hiR 0#2 0#6 (regK a) (regK d)) 0x29#7 0#3]
  | .kget d => [w32 (hiR 0#2 0#6 0#6 d) 0x2A#7 0#3]
  | .kset a => [w32 (hiR 0#2 0#6 a 0#6) 0x2B#7 0#3]
  | .ld t d a i => [w32 (hiM i t.code a d) 0x2C#7 0#3]
  | .ldLong p t d a o => [wlong 0#5 (t.code) (subS (0#2) (isImm o)) (predBits p) 0x2C#7 0#3 1#2, parcS (a) (d), parcRI o]
  | .st t d a i => [w32 (hiM i t.code a d) 0x2D#7 0#3]
  | .stLong p t d a o => [wlong 0#5 (t.code) (subS (0#2) (isImm o)) (predBits p) 0x2D#7 0#3 1#2, parcS (a) (d), parcRI o]
  | .ldg t d a i => [w32 (hiM i t.code a d) 0x2E#7 0#3]
  | .ldgLong p t d a o => [wlong 0#5 (t.code) (subS (0#2) (isImm o)) (predBits p) 0x2E#7 0#3 1#2, parcS (a) (d), parcRI o]
  | .stg t d a i => [w32 (hiM i t.code a d) 0x2F#7 0#3]
  | .stgLong p t d a o => [wlong 0#5 (t.code) (subS (0#2) (isImm o)) (predBits p) 0x2F#7 0#3 1#2, parcS (a) (d), parcRI o]
  | .mfc d n => [w32 (hiJ n d) 0x30#7 0#3]
  | .mtc d n => [w32 (hiJ n d) 0x31#7 0#3]
  | .cid d => [w32 (hiR 0#2 0#6 0#6 d) 0x32#7 0#3]
  | .cidLong p d => [wlong 0#5 (0#4) (subS (0#2) false) (predBits p) 0x32#7 0#3 1#2, parcS (0#6) (d), 0#32]
  | .nearad d a b => [w32 (hiR 0#2 b a d) 0x33#7 0#3]
  | .nearadLong p d a b => [wlong 0#5 (0#4) (subS (0#2) (isImm b)) (predBits p) 0x33#7 0#3 1#2, parcS (a) (d), parcRI b]
  | .clad d a b => [w32 (hiR 0#2 b a d) 0x34#7 0#3]
  | .cladLong p d a b => [wlong 0#5 (0#4) (subS (0#2) (isImm b)) (predBits p) 0x34#7 0#3 1#2, parcS (a) (d), parcRI b]
  | .fence i => [w32 (hiI i 0#6 0#6) 0x35#7 0#3]
  | .isync => [w32 (hiI 0#8 0#6 0#6) 0x36#7 0#3]
  | .yield => [w32 (hiI 0#8 0#6 0#6) 0x37#7 0#3]
  | .halt i => [w32 (hiI i 0#6 0#6) 0x38#7 0#3]
  | .trap i => [w32 (hiI i 0#6 0#6) 0x39#7 0#3]
  | .ftst k n => [w32 (hiJ n (regK k)) 0x3A#7 0#3]
  | .fset n => [w32 (hiJ n 0#6) 0x3B#7 0#3]
  | .fclr n => [w32 (hiJ n 0#6) 0x3C#7 0#3]
  | .fwait n => [w32 (hiJ n 0#6) 0x3D#7 0#3]
  | .wlpush a b => [w32 (hiR 0#2 b a 0#6) 0x3E#7 0#3]
  | .wlpop d a => [w32 (hiR 0#2 0#6 a d) 0x3F#7 0#3]
  | .b i => [w32 (i) 0x00#7 5#3]
  | .bLong i => [wlong 0#5 (0#4) (subS (0#2) true) (0#5) 0x00#7 5#3 1#2, parcS (0#6) (0#6), i]
  | .bk neg k i => [w32 (hiK i neg k) 0x01#7 5#3]
  | .bkLong neg k i => [wlong 0#5 (0#4) (subS (0#2) true) (0#5) 0x01#7 5#3 1#2, parcS (0#6) (regNK neg k), i]
  | .call i => [w32 (i) 0x02#7 5#3]
  | .callLong i => [wlong 0#5 (0#4) (subS (0#2) true) (0#5) 0x02#7 5#3 1#2, parcS (0#6) (0#6), i]
  | .ret => [w32 (hiR 0#2 0#6 0#6 0#6) 0x03#7 5#3]
  | .jr a => [w32 (hiR 0#2 0#6 a 0#6) 0x04#7 5#3]
  | .loop d i => [w32 (hiJ i d) 0x05#7 5#3]
  | .loopi n len => [wlong 0#5 (0#4) (subS (0#2) true) (0#5) 0x06#7 5#3 1#2, parcS (len.extractLsb' 6 6) (len.extractLsb' 0 6), n]
  | .lexit neg k => [w32 (hiK 0#15 neg k) 0x07#7 5#3]
  | .bar d => [w32 (hiJ 0#14 d) 0x08#7 5#3]
  | .meet => [w32 (hiR 0#2 0#6 0#6 0#6) 0x09#7 5#3]
  | .sigchk i => [w32 (i) 0x0A#7 5#3]
  | .vbr t c tok a i => [wlong 0#5 t.code c.code 0#5 0x0B#7 5#3 1#2, parcV tok a, i]
  | .ecopy p d a f0 f1 f2 f3 => [wlong 0#5 0#4 0#6 (predBits p) 0x00#7 6#3 1#2, parcS (a) (d), parcF f0 f1 f2 f3]
  | .egath p d a f0 f1 f2 f3 => [wlong 0#5 0#4 0#6 (predBits p) 0x01#7 6#3 1#2, parcS (a) (d), parcF f0 f1 f2 f3]
  | .escat p d a f0 f1 f2 f3 => [wlong 0#5 0#4 0#6 (predBits p) 0x02#7 6#3 1#2, parcS (a) (d), parcF f0 f1 f2 f3]
  | .eacc p d a f0 f1 f2 f3 => [wlong 0#5 0#4 0#6 (predBits p) 0x03#7 6#3 1#2, parcS (a) (d), parcF f0 f1 f2 f3]
  | .emark p d a f0 f1 f2 f3 => [wlong 0#5 0#4 0#6 (predBits p) 0x04#7 6#3 1#2, parcS (a) (d), parcF f0 f1 f2 f3]
  | .earm p d a f0 => [wlong 0#5 0#4 0#6 (predBits p) 0x05#7 6#3 1#2, parcS (a) (d), parcF f0 0#6 0#6 0#6]
  | .ewait p a => [wlong 0#5 0#4 0#6 (predBits p) 0x06#7 6#3 1#2, parcS (a) (0#6), 0#32]
  | .eroute p d a f0 f1 f2 f3 => [wlong 0#5 0#4 0#6 (predBits p) 0x07#7 6#3 1#2, parcS (a) (d), parcF f0 f1 f2 f3]
  | .ebatch p d a f0 f1 f2 f3 => [wlong 0#5 0#4 0#6 (predBits p) 0x08#7 6#3 1#2, parcS (a) (d), parcF f0 f1 f2 f3]
  | .eldred p d a f0 f1 f2 f3 => [wlong 0#5 0#4 0#6 (predBits p) 0x09#7 6#3 1#2, parcS (a) (d), parcF f0 f1 f2 f3]
  | .egroup p d a f0 f1 f2 f3 => [wlong 0#5 0#4 0#6 (predBits p) 0x0A#7 6#3 1#2, parcS (a) (d), parcF f0 f1 f2 f3]
  | .ecarry p d a f0 f1 f2 f3 => [wlong 0#5 0#4 0#6 (predBits p) 0x0B#7 6#3 1#2, parcS (a) (d), parcF f0 f1 f2 f3]
  | .ecoll p d a f0 f1 f2 f3 => [wlong 0#5 0#4 0#6 (predBits p) 0x0C#7 6#3 1#2, parcS (a) (d), parcF f0 f1 f2 f3]
  | .eget p d a f0 f1 f2 f3 => [wlong 0#5 0#4 0#6 (predBits p) 0x0D#7 6#3 1#2, parcS (a) (d), parcF f0 f1 f2 f3]
  | .eput p d a f0 f1 f2 f3 => [wlong 0#5 0#4 0#6 (predBits p) 0x0E#7 6#3 1#2, parcS (a) (d), parcF f0 f1 f2 f3]
  | .emcast p d a f0 f1 f2 f3 => [wlong 0#5 0#4 0#6 (predBits p) 0x0F#7 6#3 1#2, parcS (a) (d), parcF f0 f1 f2 f3]
  | .eappend p d a f0 f1 f2 f3 => [wlong 0#5 0#4 0#6 (predBits p) 0x10#7 6#3 1#2, parcS (a) (d), parcF f0 f1 f2 f3]
  | .ebexp p d a f0 f1 f2 f3 => [wlong 0#5 0#4 0#6 (predBits p) 0x11#7 6#3 1#2, parcS (a) (d), parcF f0 f1 f2 f3]
  | .ecancel p d a => [wlong 0#5 0#4 0#6 (predBits p) 0x12#7 6#3 1#2, parcS (a) (d), 0#32]
  | .estat p d a => [wlong 0#5 0#4 0#6 (predBits p) 0x13#7 6#3 1#2, parcS (a) (d), 0#32]
  | .efset p d a f0 f1 f2 f3 => [wlong 0#5 0#4 0#6 (predBits p) 0x14#7 6#3 1#2, parcS (a) (d), parcF f0 f1 f2 f3]
  | .edrain p => [wlong 0#5 0#4 0#6 (predBits p) 0x15#7 6#3 1#2, parcS (0#6) (0#6), 0#32]
  | .vld hd d a => [wlong hd.mod.bits hd.ty.code (0#6) 0#5 0x00#7 1#3 1#2, parcV hd.tok (d), parcAB (a) (Opnd.zero)]
  | .vldx hd d a b => [wlong hd.mod.bits hd.ty.code (0#6) 0#5 0x01#7 1#3 1#2, parcV hd.tok (d), parcAB (a) (b)]
  | .vldb hd base fmt d a c => [wlong hd.mod.bits hd.ty.code (0#6) 0#5 0x02#7 1#3 2#2, parcV hd.tok (d), parcAB (a) (Opnd.zero), parcAB (c) (Opnd.zero), (0#22 ++ base), fmt]
  | .vldg hd d a => [wlong hd.mod.bits hd.ty.code (0#6) 0#5 0x03#7 1#3 1#2, parcV hd.tok (d), parcAB (a) (Opnd.zero)]
  | .vldbc hd d a => [wlong hd.mod.bits hd.ty.code (0#6) 0#5 0x04#7 1#3 1#2, parcV hd.tok (d), parcAB (a) (Opnd.zero)]
  | .vlds hd base fmt d a c => [wlong hd.mod.bits hd.ty.code (0#6) 0#5 0x05#7 1#3 2#2, parcV hd.tok (d), parcAB (a) (Opnd.zero), parcAB (c) (Opnd.zero), (0#22 ++ base), fmt]
  | .vpref hd a => [wlong hd.mod.bits hd.ty.code (0#6) 0#5 0x06#7 1#3 1#2, parcV hd.tok (Opnd.zero), parcAB (a) (Opnd.zero)]
  | .vldfl hd d a b => [wlong hd.mod.bits hd.ty.code (0#6) 0#5 0x07#7 1#3 1#2, parcV hd.tok (d), parcAB (a) (b)]
  | .vst hd d a => [wlong hd.mod.bits hd.ty.code (0#6) 0#5 0x00#7 3#3 1#2, parcV hd.tok (d), parcAB (a) (Opnd.zero)]
  | .vstx hd d a b => [wlong hd.mod.bits hd.ty.code (0#6) 0#5 0x01#7 3#3 1#2, parcV hd.tok (d), parcAB (a) (b)]
  | .vstb hd base fmt d a c => [wlong hd.mod.bits hd.ty.code (0#6) 0#5 0x02#7 3#3 2#2, parcV hd.tok (d), parcAB (a) (Opnd.zero), parcAB (c) (Opnd.zero), (0#22 ++ base), fmt]
  | .vstg hd d a => [wlong hd.mod.bits hd.ty.code (0#6) 0#5 0x03#7 3#3 1#2, parcV hd.tok (d), parcAB (a) (Opnd.zero)]
  | .vsts hd base fmt d a c => [wlong hd.mod.bits hd.ty.code (0#6) 0#5 0x04#7 3#3 2#2, parcV hd.tok (d), parcAB (a) (Opnd.zero), parcAB (c) (Opnd.zero), (0#22 ++ base), fmt]
  | .vstm hd d a b => [wlong hd.mod.bits hd.ty.code (0#6) 0#5 0x05#7 3#3 1#2, parcV hd.tok (d), parcAB (a) (b)]
  | .vstc hd d a b => [wlong hd.mod.bits hd.ty.code (0#6) 0#5 0x06#7 3#3 1#2, parcV hd.tok (d), parcAB (a) (b)]
  | .vmov hd d a => [wlong hd.mod.bits hd.ty.code (0#6) 0#5 0x00#7 2#3 1#2, parcV hd.tok (d), parcAB (a) (Opnd.zero)]
  | .vadd hd d a b => [wlong hd.mod.bits hd.ty.code (0#6) 0#5 0x01#7 2#3 1#2, parcV hd.tok (d), parcAB (a) (b)]
  | .vsub hd d a b => [wlong hd.mod.bits hd.ty.code (0#6) 0#5 0x02#7 2#3 1#2, parcV hd.tok (d), parcAB (a) (b)]
  | .vmul hd d a b => [wlong hd.mod.bits hd.ty.code (0#6) 0#5 0x03#7 2#3 1#2, parcV hd.tok (d), parcAB (a) (b)]
  | .vfma hd d a b c => [wlong hd.mod.bits hd.ty.code (0#6) 0#5 0x04#7 2#3 2#2, parcV hd.tok (d), parcAB (a) (b), parcAB (c) (Opnd.zero), 0#32, 0#32]
  | .vfms hd d a b c => [wlong hd.mod.bits hd.ty.code (0#6) 0#5 0x05#7 2#3 2#2, parcV hd.tok (d), parcAB (a) (b), parcAB (c) (Opnd.zero), 0#32, 0#32]
  | .vfnma hd d a b c => [wlong hd.mod.bits hd.ty.code (0#6) 0#5 0x06#7 2#3 2#2, parcV hd.tok (d), parcAB (a) (b), parcAB (c) (Opnd.zero), 0#32, 0#32]
  | .vneg hd d a => [wlong hd.mod.bits hd.ty.code (0#6) 0#5 0x07#7 2#3 1#2, parcV hd.tok (d), parcAB (a) (Opnd.zero)]
  | .vabs hd d a => [wlong hd.mod.bits hd.ty.code (0#6) 0#5 0x08#7 2#3 1#2, parcV hd.tok (d), parcAB (a) (Opnd.zero)]
  | .vmin hd d a b => [wlong hd.mod.bits hd.ty.code (0#6) 0#5 0x09#7 2#3 1#2, parcV hd.tok (d), parcAB (a) (b)]
  | .vmax hd d a b => [wlong hd.mod.bits hd.ty.code (0#6) 0#5 0x0A#7 2#3 1#2, parcV hd.tok (d), parcAB (a) (b)]
  | .vclamp hd d a b c => [wlong hd.mod.bits hd.ty.code (0#6) 0#5 0x0B#7 2#3 2#2, parcV hd.tok (d), parcAB (a) (b), parcAB (c) (Opnd.zero), 0#32, 0#32]
  | .vmulh hd d a b => [wlong hd.mod.bits hd.ty.code (0#6) 0#5 0x0C#7 2#3 1#2, parcV hd.tok (d), parcAB (a) (b)]
  | .vavg hd d a b => [wlong hd.mod.bits hd.ty.code (0#6) 0#5 0x0D#7 2#3 1#2, parcV hd.tok (d), parcAB (a) (b)]
  | .vabsd hd d a b => [wlong hd.mod.bits hd.ty.code (0#6) 0#5 0x0E#7 2#3 1#2, parcV hd.tok (d), parcAB (a) (b)]
  | .vand hd d a b => [wlong hd.mod.bits hd.ty.code (0#6) 0#5 0x0F#7 2#3 1#2, parcV hd.tok (d), parcAB (a) (b)]
  | .vor hd d a b => [wlong hd.mod.bits hd.ty.code (0#6) 0#5 0x10#7 2#3 1#2, parcV hd.tok (d), parcAB (a) (b)]
  | .vxor hd d a b => [wlong hd.mod.bits hd.ty.code (0#6) 0#5 0x11#7 2#3 1#2, parcV hd.tok (d), parcAB (a) (b)]
  | .vandn hd d a b => [wlong hd.mod.bits hd.ty.code (0#6) 0#5 0x12#7 2#3 1#2, parcV hd.tok (d), parcAB (a) (b)]
  | .vnot hd d a => [wlong hd.mod.bits hd.ty.code (0#6) 0#5 0x13#7 2#3 1#2, parcV hd.tok (d), parcAB (a) (Opnd.zero)]
  | .vshl hd d a b => [wlong hd.mod.bits hd.ty.code (0#6) 0#5 0x14#7 2#3 1#2, parcV hd.tok (d), parcAB (a) (b)]
  | .vshr hd d a b => [wlong hd.mod.bits hd.ty.code (0#6) 0#5 0x15#7 2#3 1#2, parcV hd.tok (d), parcAB (a) (b)]
  | .vsra hd d a b => [wlong hd.mod.bits hd.ty.code (0#6) 0#5 0x16#7 2#3 1#2, parcV hd.tok (d), parcAB (a) (b)]
  | .vclz hd d a => [wlong hd.mod.bits hd.ty.code (0#6) 0#5 0x17#7 2#3 1#2, parcV hd.tok (d), parcAB (a) (Opnd.zero)]
  | .vpopc hd d a => [wlong hd.mod.bits hd.ty.code (0#6) 0#5 0x18#7 2#3 1#2, parcV hd.tok (d), parcAB (a) (Opnd.zero)]
  | .vcmpeq hd d a b => [wlong hd.mod.bits hd.ty.code (0#6) 0#5 0x19#7 2#3 1#2, parcV hd.tok (d), parcAB (a) (b)]
  | .vcmpne hd d a b => [wlong hd.mod.bits hd.ty.code (0#6) 0#5 0x1A#7 2#3 1#2, parcV hd.tok (d), parcAB (a) (b)]
  | .vcmplt hd d a b => [wlong hd.mod.bits hd.ty.code (0#6) 0#5 0x1B#7 2#3 1#2, parcV hd.tok (d), parcAB (a) (b)]
  | .vcmple hd d a b => [wlong hd.mod.bits hd.ty.code (0#6) 0#5 0x1C#7 2#3 1#2, parcV hd.tok (d), parcAB (a) (b)]
  | .vsel hd d a b c => [wlong hd.mod.bits hd.ty.code (0#6) 0#5 0x1D#7 2#3 2#2, parcV hd.tok (d), parcAB (a) (b), parcAB (c) (Opnd.zero), 0#32, 0#32]
  | .vmsk hd op d a b => [wlong hd.mod.bits hd.ty.code (op.code) 0#5 0x1E#7 2#3 1#2, parcV hd.tok (d), parcAB (a) (b)]
  | .vcvt hd part st d a => [wlong hd.mod.bits hd.ty.code (part ++ st.code) 0#5 0x1F#7 2#3 1#2, parcV hd.tok (d), parcAB (a) (Opnd.zero)]
  | .vrnd hd d a => [wlong hd.mod.bits hd.ty.code (0#6) 0#5 0x20#7 2#3 1#2, parcV hd.tok (d), parcAB (a) (Opnd.zero)]
  | .vexp hd d a => [wlong hd.mod.bits hd.ty.code (0#6) 0#5 0x21#7 2#3 1#2, parcV hd.tok (d), parcAB (a) (Opnd.zero)]
  | .vlog hd d a => [wlong hd.mod.bits hd.ty.code (0#6) 0#5 0x22#7 2#3 1#2, parcV hd.tok (d), parcAB (a) (Opnd.zero)]
  | .vrcp hd d a => [wlong hd.mod.bits hd.ty.code (0#6) 0#5 0x23#7 2#3 1#2, parcV hd.tok (d), parcAB (a) (Opnd.zero)]
  | .vrsqrt hd d a => [wlong hd.mod.bits hd.ty.code (0#6) 0#5 0x24#7 2#3 1#2, parcV hd.tok (d), parcAB (a) (Opnd.zero)]
  | .vtanh hd d a => [wlong hd.mod.bits hd.ty.code (0#6) 0#5 0x25#7 2#3 1#2, parcV hd.tok (d), parcAB (a) (Opnd.zero)]
  | .vredadd hd d a => [wlong hd.mod.bits hd.ty.code (0#6) 0#5 0x26#7 2#3 1#2, parcV hd.tok (d), parcAB (a) (Opnd.zero)]
  | .vredmax hd d a => [wlong hd.mod.bits hd.ty.code (0#6) 0#5 0x27#7 2#3 1#2, parcV hd.tok (d), parcAB (a) (Opnd.zero)]
  | .vredmin hd d a => [wlong hd.mod.bits hd.ty.code (0#6) 0#5 0x28#7 2#3 1#2, parcV hd.tok (d), parcAB (a) (Opnd.zero)]
  | .vscan hd tot op d e a b => [wlong hd.mod.bits hd.ty.code (0#3 ++ BitVec.ofBool tot ++ op.code) 0#5 0x29#7 2#3 2#2, parcV hd.tok (d), parcAB (a) (b), parcAB (Opnd.zero) (e), 0#32, 0#32]
  | .vscanc hd op d e a b c => [wlong hd.mod.bits hd.ty.code (0#4 ++ op.code) 0#5 0x2A#7 2#3 2#2, parcV hd.tok (d), parcAB (a) (b), parcAB (c) (e), 0#32, 0#32]
  | .vperm hd d a b => [wlong hd.mod.bits hd.ty.code (0#6) 0#5 0x2B#7 2#3 1#2, parcV hd.tok (d), parcAB (a) (b)]
  | .vrot hd d a b => [wlong hd.mod.bits hd.ty.code (0#6) 0#5 0x2C#7 2#3 1#2, parcV hd.tok (d), parcAB (a) (b)]
  | .vshuf hd d a b c => [wlong hd.mod.bits hd.ty.code (0#6) 0#5 0x2D#7 2#3 2#2, parcV hd.tok (d), parcAB (a) (b), parcAB (c) (Opnd.zero), 0#32, 0#32]
  | .vcmpr hd d a b => [wlong hd.mod.bits hd.ty.code (0#6) 0#5 0x2E#7 2#3 1#2, parcV hd.tok (d), parcAB (a) (b)]
  | .vexpd hd d a b => [wlong hd.mod.bits hd.ty.code (0#6) 0#5 0x2F#7 2#3 1#2, parcV hd.tok (d), parcAB (a) (b)]
  | .vhash hd bits d a b => [wlong hd.mod.bits hd.ty.code (0#6) 0#5 0x30#7 2#3 2#2, parcV hd.tok (d), parcAB (a) (b), parcAB (Opnd.zero) (Opnd.zero), (0#25 ++ bits), 0#32]
  | .vnft hd d a b => [wlong hd.mod.bits hd.ty.code (0#6) 0#5 0x31#7 2#3 1#2, parcV hd.tok (d), parcAB (a) (b)]
  | .vsplat hd d a => [wlong hd.mod.bits hd.ty.code (0#6) 0#5 0x32#7 2#3 1#2, parcV hd.tok (d), parcAB (a) (Opnd.zero)]
  | .viota hd d a => [wlong hd.mod.bits hd.ty.code (0#6) 0#5 0x33#7 2#3 1#2, parcV hd.tok (d), parcAB (a) (Opnd.zero)]
  | .vdup hd d a b => [wlong hd.mod.bits hd.ty.code (0#6) 0#5 0x34#7 2#3 1#2, parcV hd.tok (d), parcAB (a) (b)]
  | .vcnt hd d a => [wlong hd.mod.bits hd.ty.code (0#6) 0#5 0x35#7 2#3 1#2, parcV hd.tok (d), parcAB (a) (Opnd.zero)]
  | .vbfx hd base fmt d a c => [wlong hd.mod.bits hd.ty.code (0#6) 0#5 0x36#7 2#3 2#2, parcV hd.tok (d), parcAB (a) (Opnd.zero), parcAB (c) (Opnd.zero), (0#22 ++ base), fmt]
  | .mmac tok t acc sa sb rms => [wlong (sb ++ rms) (t.code) (acc ++ sa ++ 0#1) 0#5 0x00#7 4#3 1#2, parcV tok (Opnd.zero), parcAB (Opnd.zero) (Opnd.zero)]
  | .mmacs tok t acc sa sb rms qa ca qb cb => [wlong (sb ++ rms) (t.code) (acc ++ sa ++ 0#1) 0#5 0x01#7 4#3 2#2, parcV tok (Opnd.zero), parcAB (Opnd.zero) (Opnd.zero), parcAB (Opnd.zero) Opnd.zero, (0#14 ++ cb ++ qb ++ ca ++ qa), 0#32]
  | .mrot tok t acc sa sb rms => [wlong (sb ++ rms) (t.code) (acc ++ sa ++ 0#1) 0#5 0x02#7 4#3 1#2, parcV tok (Opnd.zero), parcAB (Opnd.zero) (Opnd.zero)]
  | .mgx tok t acc sb rms a c => [wlong (sb ++ rms) (t.code) (acc ++ 0#3 ++ 0#1) 0#5 0x03#7 4#3 2#2, parcV tok (Opnd.zero), parcAB (a) (Opnd.zero), parcAB (c) Opnd.zero, 0#32, 0#32]
  | .mgrp tok t acc rms a b nb j ks => [wlong (0#3 ++ rms) (t.code) (acc ++ 0#3 ++ 0#1) 0#5 0x04#7 4#3 2#2, parcV tok (Opnd.zero), parcAB (a) (b), parcAB (Opnd.zero) Opnd.zero, (0#25 ++ nb), (ks ++ 0#8 ++ j)]
  | .mchk tok op acc => [wlong (0#5) (0#4) (acc ++ op.code ++ 0#1) 0#5 0x05#7 4#3 1#2, parcV tok (Opnd.zero), parcAB (Opnd.zero) (Opnd.zero)]
  | .mshape tok a => [wlong (0#5) (0#4) (0#2 ++ 0#3 ++ 0#1) 0#5 0x06#7 4#3 1#2, parcV tok (Opnd.zero), parcAB (a) (Opnd.zero)]
  | .mzero tok acc => [wlong (0#5) (0#4) (acc ++ 0#3 ++ 0#1) 0#5 0x07#7 4#3 1#2, parcV tok (Opnd.zero), parcAB (Opnd.zero) (Opnd.zero)]
  | .mdrain hd acc d => [wlong (hd.mod.bits) (hd.ty.code) (acc ++ 0#3 ++ 0#1) 0#5 0x08#7 4#3 1#2, parcV hd.tok (d), parcAB (Opnd.zero) (Opnd.zero)]
  | .mmov hd acc d a => [wlong (hd.mod.bits) (hd.ty.code) (acc ++ 0#3 ++ 0#1) 0#5 0x09#7 4#3 1#2, parcV hd.tok (d), parcAB (a) (Opnd.zero)]
  | .mfill tok col s a b => [wlong (BitVec.ofBool col ++ 0#4) (0#4) (0#2 ++ s ++ 0#1) 0#5 0x0A#7 4#3 1#2, parcV tok (Opnd.zero), parcAB (a) (b)]
  | .mrel tok s => [wlong (0#5) (0#4) (0#2 ++ s ++ 0#1) 0#5 0x0B#7 4#3 1#2, parcV tok (Opnd.zero), parcAB (Opnd.zero) (Opnd.zero)]
  | .mkeep tok acc => [wlong (0#5) (0#4) (acc ++ 0#3 ++ 0#1) 0#5 0x0C#7 4#3 1#2, parcV tok (Opnd.zero), parcAB (Opnd.zero) (Opnd.zero)]
  | .mrd tok sel d a => [wlong (0#5) (2#4) (0#2 ++ sel ++ 0#1) 0#5 0x0D#7 4#3 1#2, parcV tok (d), parcAB (a) (Opnd.zero)]
  | .recv d a => [w32 (hiR 0#2 0#6 a d) 0x00#7 7#3]
  | .recvt p d a b => [wlong 0#5 (0#4) (subS (0#2) (isImm b)) (predBits p) 0x01#7 7#3 1#2, parcS (a) (d), parcRI b]
  | .rpeek d a => [w32 (hiR 0#2 0#6 a d) 0x02#7 7#3]
  | .radv a b => [w32 (hiR 0#2 b a 0#6) 0x03#7 7#3]
  | .rsend p d a b => [wlong 0#5 (0#4) (subS (0#2) (isImm b)) (predBits p) 0x04#7 7#3 1#2, parcS (a) (d), parcRI b]
  | .rbind d a b => [w32 (hiR 0#2 b a d) 0x05#7 7#3]
  | .tdone => [w32 (hiR 0#2 0#6 0#6 0#6) 0x06#7 7#3]
  | .kwake a => [w32 (hiR 0#2 0#6 a 0#6) 0x07#7 7#3]
  | .ksleep => [w32 (hiR 0#2 0#6 0#6 0#6) 0x08#7 7#3]
  | .kid d => [w32 (hiR 0#2 0#6 0#6 d) 0x09#7 7#3]
  | .recvtTimeout _ _ => []
  | .walkDeadlock _ => []
  | .trapEntry _ _ _ _ => []
  | .preemption _ _ => []
  | .spill _ => []
  | .fillBack _ _ _ => []
  | .resume _ _ => []
  | .resumePast _ _ => []
  | .save _ => []
  | .replayParked _ _ => []
  | .kill _ => []
  | .teardownComplete _ => []
  | .taskEnd _ => []
  | .launchRecord _ _ => []
  | .graphEnd _ => []
  | .stageSchedule _ _ _ => []
  | .taskLaunch _ => []
  | .gangPlacement _ _ => []
  | .reservationRelease _ => []
  | .agingPreempt _ _ _ => []
  | .commandAcceptance _ _ => []
  | .commandStart _ _ _ => []
  | .commandRetirement _ _ _ => []
  | .followOn _ _ => []
  | .markerRetire _ _ => []
  | .combiningNodeMerge _ _ => []
  | .lineLanding _ => []
  | .eaccUpdate _ _ => []
  | .translationWalk _ _ => []
  | .xlinvPage _ _ _ => []
  | .xlinvContext _ _ => []
  | .xlinvAll _ => []
  | .invalidationComplete _ => []
  | .l2pinWrite _ _ => []
  | .contextLoad _ => []
  | .contextUnload _ => []
  | .fabcfgWrite _ => []
  | .fabricTableWrite _ _ => []
  | .fabricTableRead _ => []
  | .evringWrite _ _ => []
  | .evbindWrite _ _ _ => []
  | .hapctlWrite _ => []
  | .registerWrite _ _ _ => []
  | .hostApertureRead _ _ => []
  | .hostApertureWrite _ _ => []
  | .quiesce _ => []
  | .faultLogState _ => []
  | .getVersion _ => []
  | .getCapabilities _ => []
  | .negotiateAlgorithms _ => []
  | .getDigests _ => []
  | .getCertificate _ => []
  | .challenge _ => []
  | .getMeasurements _ => []
  | .boot _ => []
  | .functionLevelReset => []
  | .placementTableRead _ _ _ => []
  | .tokenRanking _ _ _ => []
  | .permitRequest _ _ _ => []
  | .permitReply _ _ _ => []
  | .roundOpening _ _ _ => []
  | .doneMessage _ _ _ => []
  | .roundDeadline _ _ _ => []
  | .binClose _ _ _ => []
  | .roundRetirement _ _ _ => []
  | .windrowAppend _ _ => []
  | .terminationSweep _ _ _ => []
  | .batchGroup _ _ => []
  | .packetArrival _ => []
  | .packetForward _ => []
  | .linkReplay _ => []
  | .linkDown _ => []
  | .parkBufferRelease _ => []
  | .reductionContribution _ => []
  | .pullLoad _ _ _ _ _ _ _ => []
  | .reductionTimeout _ _ _ _ => []
  | .flushNotice _ _ _ _ _ => []
  | .carryArrival _ => []
  | .groupSlotDrain _ _ => []
  | .collectiveStep _ _ _ => []
  | .ringArrival _ _ _ => []
  | .byteCounterDelivery _ _ _ _ => []
  | .barrierCompletion _ => []
  | .shadowSweep _ => []
  | .rollback _ _ => []
  | .patrolScrub _ _ => []
  | .counterRefresh _ _ => []
  | .eventFire _ _ _ _ _ _ => []
  | .islandThrottle _ => []
  | .writeAcknowledge _ => []
  | .mailboxWrite _ _ _ => []
  | .portTraining _ => []
  | .pcieLinkTraining _ _ => []

/-! ### Decoding -/

/-- The opcode map of each tag. -/
def opRows : Tag → List OpRow
  | .S => rowsS | .L => rowsL | .A => rowsA | .W => rowsW
  | .M => rowsM | .X => rowsX | .C => rowsC | .K => rowsK

/-- The row of an opcode and a length. -/
def findRow (rows : List OpRow) (opc : BitVec 7) (len : BitVec 2) : Option OpRow :=
  rows.find? fun r => r.1 == opc && r.2.1 == len

/-- The token half of parcel 1 of an S, X, C or K word, where no channel touches the engine; an L, A,
W, M or `vbr` word has its own masks (R29). -/
def strayTokens (t : Tag) (opc : BitVec 7) (len : BitVec 2) (p1 : Parcel) : Bool :=
  match t with
  | .S | .C | .K => len == 1#2 && p1.extractLsb' 0 16 != 0#16
  | .X => len == 1#2 && opc != 0x0B#7 && p1.extractLsb' 0 16 != 0#16
  | _ => false

/-- Parcel 1 with stray token bits left out, so that the other reserved bits can be looked at first. -/
def dropTokens (t : Tag) (opc : BitVec 7) (len : BitVec 2) (p1 : Parcel) : Parcel :=
  if strayTokens t opc len p1 then p1 &&& 0xFFFF0000#32 else p1

/-- Parcel `k` of a list, zero beyond its end. -/
def parcelAt (ws : List Parcel) (k : Nat) : Parcel := ws.getD k 0#32

/-- R24 without the causes 0x04 and 0x08, which depend on who executes: the instruction that the
parcels `ws` (head first) hold, or the first decode cause. Every bit that the instruction's fields do
not account for is reserved and must be zero: the word must be the one its instruction encodes to. -/
def decode (ws : List Parcel) : Except (BitVec 8) Instr :=
  let h := parcelAt ws 0
  let t := headTag h
  let opc := headOpc h
  let len := headLen h
  if len == 3#2 then .error 0x02#8
  else if !((opRows t).any fun r => r.1 == opc) then .error 0x01#8
  else
    match findRow (opRows t) opc len with
    | none => .error 0x03#8
    | some row =>
      let p1 := dropTokens t opc len (parcelAt ws 1)
      match row.2.2 h p1 (parcelAt ws 2) (parcelAt ws 3) (parcelAt ws 4) (parcelAt ws 5) with
      | none => .error 0x05#8
      | some i =>
        let word := [h, p1, parcelAt ws 2, parcelAt ws 3, parcelAt ws 4, parcelAt ws 5].take
          (parcelsOf len)
        if encode i != word then .error 0x05#8
        else if !(checksOf i).fields then .error 0x05#8
        else if !(checksOf i).index then .error 0x06#8
        else if !(checksOf i).tokens || strayTokens t opc len (parcelAt ws 1) then .error 0x07#8
        else .ok i

/-- Parcel `k` of the number whose bit 0 is the least significant bit of the first parcel (R18). -/
def parcelOfNat (w k : Nat) : Parcel := BitVec.ofNat 32 (w >>> (32 * k))

/-- The instruction the decoder reads from an instruction whose bits are `w` (R18: bit k of parcel j is
bit 32·j + k); every bit from `nbits` on is zero. -/
def decodeTableWord (nbits w : Nat) : Option Instr :=
  let w' := w % 2 ^ nbits
  match decode ((List.range 6).map (parcelOfNat w')) with
  | .ok i => some i
  | .error _ => none

/-- The signature bytes of an instruction, as parcels: the head, and parcels 1 and 2 (R48). -/
def signatureParcels (i : Instr) : List Parcel := (encode i).take 3

end Sys2Proof
end

