-- ==== Sys2Proof/Machine/Bits.lean ====
section
/-! DEFINITION. Byte order, bit fields, sign extension and the CRC-32C of the signatures and frames. -/

namespace Sys2Proof.Machine

/-- Bytes as a number, least significant byte first (R6). -/
def leNat : List Byte → Nat
  | [] => 0
  | b :: t => b.toNat + 256 * leNat t

/-- The low `n` bytes of a number, least significant first (R6). -/
def natLe (n : Nat) (v : Nat) : List Byte :=
  match n with
  | 0 => []
  | n + 1 => BitVec.ofNat 8 v :: natLe n (v / 256)

/-- Bits [hi:lo] of a number. -/
def bits (v hi lo : Nat) : Nat := (v >>> lo) % 2 ^ (hi + 1 - lo)

/-- Bit `i` of a number. -/
def bit (v i : Nat) : Bool := v.testBit i

/-- A field of `w` bits read as two's complement. -/
def sx (w v : Nat) : Int := if v % 2 ^ w < 2 ^ (w - 1) then (v % 2 ^ w : Nat) else ((v % 2 ^ w : Nat) : Int) - (2 ^ w : Nat)

/-- An integer modulo 2^w. -/
def wrap (w : Nat) (v : Int) : Nat := (v % ((2 ^ w : Nat) : Int)).toNat

/-- A word from an integer, modulo 2^64. -/
def wordOfInt (v : Int) : Word := BitVec.ofInt 64 v

/-- A 32-bit immediate as a 64-bit value (R33). -/
def sext32 (v : BitVec 32) : Word := v.signExtend 64

/-- One bit step of the reflected CRC with polynomial 0x82F63B78 (R48). -/
def crcBit (c : BitVec 32) : BitVec 32 :=
  if c.getLsbD 0 then (c >>> 1) ^^^ 0x82F63B78#32 else c >>> 1

/-- One byte folded into a CRC-32C register (R48). -/
def crcByte (c : BitVec 32) (b : Byte) : BitVec 32 :=
  crcBit (crcBit (crcBit (crcBit (crcBit (crcBit (crcBit (crcBit (c ^^^ b.setWidth 32))))))))

/-- Bytes folded in memory order. -/
def crcBytes (c : BitVec 32) (bs : List Byte) : BitVec 32 := bs.foldl crcByte c

/-- CRC-32C with its final inversion, as R49 expects it and as the frame's checks are kept. -/
def crc32c (bs : List Byte) : BitVec 32 := ~~~ crcBytes 0xFFFFFFFF#32 bs

/-- The bytes of a parcel in memory order. -/
def parcelBytes (p : Parcel) : List Byte := natLe 4 p.toNat

/-- The index of the highest set bit plus one; 0 for zero. Structural on `n`, an upper bound. -/
def bitLen (n : Nat) (v : Nat) : Nat :=
  match n with
  | 0 => 0
  | n + 1 => if v.testBit n then n + 1 else bitLen n v

/-- The number of one bits among bits 0 to n - 1. -/
def popBits (n : Nat) (v : Nat) : Nat :=
  match n with
  | 0 => 0
  | n + 1 => popBits n v + (if v.testBit n then 1 else 0)

/-- Floor of the square root, by bits: the largest `r` of at most `n` bits with r·r ≤ v. -/
def isqrtBits (n : Nat) (v r : Nat) : Nat :=
  match n with
  | 0 => r
  | n + 1 => let r' := r + 2 ^ n; if r' * r' ≤ v then isqrtBits n v r' else isqrtBits n v r

end Sys2Proof.Machine
end

