-- ==== Sys2Proof/Machine/State.lean ====
section
/-! DEFINITION. The machine's state: everything the spec gives one SV-9600 package, as plain data, the
reasons a step can stop, and the state right after reset. Values at reset that the spec does not give are
those of log entries 4 and 5. -/

namespace Sys2Proof.Machine

/-- Why a step ends in a fault. -/
inductive Fault where
  /-- Raised by `step` (Step.lean) when the agenda names a cluster, thread or die that the package does
  not have (R8, R149). Safe: no such agent can act. -/
  | noSuchAgent
  deriving DecidableEq, Repr

/-- Why a step is refused. -/
inductive Refusal where
  /-- Raised by an arm of `exec` that has no meaning yet. Safe: nothing is claimed of it. -/
  | notModelled (mnemonic : String)
  deriving DecidableEq, Repr

/-- The state of a package. -/
structure State where
  /-- MODEL's own (log 1): who moves next; empty means a free choice. -/
  agenda : List Turn
  /-- MODEL's own (log 18): index of the next free value; every step advances it. -/
  tick : Nat
  /-- MODEL's own (log 1): who executes the present step. -/
  actor : Actor
  /-- The clusters by id, 0 to 383 (R8); one that is not listed is as at reset. -/
  clusters : KMap Cluster
  /-- The compute dies, 0 to 3; one that is not listed is as at reset. -/
  dies : KMap Die
  /-- Device memory by DPA (R76). -/
  hbm : Mem
  /-- Sectors (DPA / 32) that hold an uncorrectable error or are poisoned (R407). -/
  poisoned : NSet
  /-- Lines held by L2, by (die·128 + slice)·384 + set, least recently used first (R101, R102), and the sectors of
  them that hold an uncorrectable error (R405). -/
  l2 : KMap (List L2Line)
  l2bad : NSet
  /-- dplace (R77). -/
  dplace : BitVec 128
  /-- ctxbase, ctxctl as last written, ctxstat (Table 4.13). -/
  ctxbase : Word
  ctxctl : Word
  ctxbusy : Bool
  ctxerr : Bool
  /-- Loaded contexts by number (R93). -/
  contexts : KMap Context
  /-- Launch queues in service, by context·16 + index (R364). -/
  queues : KMap LaunchQueue
  /-- Graphs and gangs by the model's own numbers; the next number of each. -/
  graphs : KMap Graph
  nextGraph : Nat
  gangs : KMap Gang
  nextGang : Nat
  /-- Windrow counters by context·4096 + handle (R290). -/
  windrows : KMap Windrow
  /-- KIND 1 fault-log entries that wait for room, with their context (R399). -/
  logWait : List (Nat × LogEntry)
  /-- Spilled tasks (R393). -/
  spilled : List Spilled
  /-- Bytes on their way to lines (R17). -/
  fills : List Fill
  /-- fabcfg (R299). -/
  fabcfg : Word
  /-- Route, key and reach tables by index (R300, R309, R317). -/
  routes : KMap (BitVec 128)
  keys : KMap (BitVec 256)
  reach : KMap (BitVec 1024)
  /-- fabtsel, fabtdat0 to 3, fabtstat (Table 12.15). -/
  fabtsel : Word
  fabtdat : BitVec 256
  fabtbusy : Bool
  fabterr : Bool
  /-- Group slots by group·2 + slot (Table 12.9). -/
  groups : KMap GroupSlot
  /-- Sequence counters by slot·4096 + context (R322). -/
  groupSeq : KMap (BitVec 32)
  /-- Reductions in progress and kept records (R323, R324). -/
  reductions : List Reduction
  kept : List Kept
  /-- Flush notices held by this device's fabric path (R324). -/
  notices : List Kept
  /-- Ports 0 to 63 (R301 to R306). -/
  ports : KMap Port
  /-- Packets that this device has injected or must route on (R302). -/
  net : List Packet
  /-- Packets that leave this device by a port, oldest first (R303). -/
  wire : List OnWire
  /-- Park buffers of the two junction dies (R311). -/
  park0 : List Packet
  park1 : List Packet
  /-- Mailbox reservations of carries (R326). -/
  carries : List Carry
  /-- Parts of longer messages that have come, until the last has (R303; log 13). -/
  trains : List Packet
  /-- Packets dropped at revoked or failed keys and in groups (R309, R318). -/
  dropped : Nat
  /-- Fabric time counter in ns (R378). -/
  fabtime : Nat
  /-- The commit buffer, oldest first (R413), and the writes posted to the host (R348). -/
  commit : List HostWrite
  hostOut : List HostWrite
  /-- How many of the posted writes the last flushing read has pushed to the host (R183, R348; log 105). -/
  hostDone : Nat
  /-- Completions returned for host reads, oldest first (R343, R419). -/
  hostCpl : List HostReply
  /-- hstat: stage, failed, reason; hapctl (Table 18.2). -/
  stage : BitVec 3
  bootFailed : Bool
  bootReason : BitVec 8
  hapctl : Word
  /-- A reset waits until every context is torn down (R417). -/
  resetting : Bool
  /-- Mailboxes 0 to 15 (R420), MSI-X pending bits (R418, R420). -/
  mailboxes : KMap Mailbox
  msix : BitVec 32
  msixTable : KMap (BitVec 128)
  /-- M0 to M3 and the digests extended into them (R422). -/
  meas : KMap (List Byte)
  digests : List (Nat × List Byte)
  /-- The PCI Express link: trained, width, generation (R417). -/
  pcieUp : Bool
  pcieWidth : Nat
  pcieGen : Nat
  /-- islim0 to islim23 (R425), throttle steps by island. -/
  islim : KMap Word
  throttle : KMap Nat
  /-- Counters 0 to 255 that are not derived from other state (R426). -/
  counters : KMap Word
  deriving DecidableEq, Repr, Inhabited

/-! ### After reset -/

/-- A PC before any task (R161; log 5). The signature register holds all ones (R48). -/
def Walk.reset : Walk := ⟨0, 0, 0xFFFFFFFF#32, [], [], none, 0, [], false⟩

/-- A rake thread that has not been started (R370: idle). -/
def Rake.reset : Rake := ⟨0, [], 1#16, 0xFFFFFFFF#32, none, false, .idle, none, none, []⟩

/-- No grove: settled, not kept, checked mode off (R242). -/
def Grove.reset : Grove := ⟨0, 0, 0, 0, 15#4, 0#4, false⟩

/-- A byte counter at launch: unbound, all fields zero (R357). -/
def ByteCounter.reset : ByteCounter := ⟨false, 0, 0, 0, 0#32, false, false, 0, 0⟩

/-- An unbound ring. -/
def Ring.reset : Ring := ⟨0#64, 0, 0#32, 0#32⟩

/-- A cluster at reset: no task, Tables 5.3, 7.4 and 7.5 at their reset values, the rest zero or empty
(log 5). -/
def Cluster.reset : Cluster where
  sregs := []
  preds := 1#16
  ptrs := []
  owedVers := []
  vnames := []
  vqueues := []
  vshp := []
  bfmt := []
  rmode := 0#64
  rseed := 0#64
  sramcfg := 0#32
  slipw := 0x1000#32
  tkcnt := 0#32
  tkheld := 0#8
  heldAt := []
  sigtab := 0#64
  sigcnt := 0#64
  wS := Walk.reset
  wL := Walk.reset
  wA := Walk.reset
  wW := Walk.reset
  wM := Walk.reset
  outcomes := []
  vbrAt := none
  trail := []
  task := none
  rakes := []
  rings := []
  sram := []
  written := []
  logged := []
  bad := []
  regBad := []
  nameBad := []
  owed := []
  flags := 0#4096
  awaited := []
  l1 := []
  l1errs := 0
  tlb := []
  cmds := []
  kicks := []
  seqs := []
  rts := []
  retired := []
  scoreboard := 0#64
  cbm := []
  wack := 0
  counters := []
  bphase := 0#32
  snap := none
  grove := Grove.reset
  progress := none
  winReads := []
  arrived := false
  released := false
  preempt := false
  ringDrops := 0
  inbox := []
  pushAt := []

/-- A tile at reset: idle, zero, free (R239, R242). -/
def Tile.reset : Tile := ⟨[], [], [], [], [], none, false, false, 0#4, [], [], false⟩

/-- A die at reset: Tables 4.6, 5.1, 10.8, 15.8, 15.9, 15.11 at their reset values, the rest zero or
empty (log 5). -/
def Die.reset : Die where
  tiles := []
  rpol := []
  l2pin := 0#64
  l2pbusy := false
  pinned := []
  pinBad := []
  xlinv := 0#64
  xlbusy := false
  tlb := []
  walks := []
  tpend := 0#96
  tctl := 0#64
  tbusy := false
  tres := 0
  evring := 0#64
  evhead := 0#32
  evtail := 0#32
  cthr := []
  evbind := []
  evlost := 0
  dieLog := []
  rounds := []
  early := []
  wldrops := 0
  core := Rake.reset
  coreTask := none
  coreBad := []

/-- A port at reset: down, with full tc0 buckets (R299, R306; log 5). -/
def Port.reset : Port := ⟨false, false, 0, [], 4096, 4096, []⟩

/-- A free group slot. -/
def GroupSlot.reset : GroupSlot := ⟨0, 0#1024, 0, 0xF, false, 0, 0#32, []⟩

/-- A mailbox bound to no context. -/
def Mailbox.reset : Mailbox := ⟨0#32, 0#32, 0#16, 0#16, [], 0, []⟩

/-- A windrow that nothing has used. -/
def Windrow.reset : Windrow := ⟨0#32, 0#32, 0, 0, 0, []⟩

/-- The machine right after reset. -/
def State.reset : State where
  agenda := []
  tick := 0
  actor := .device
  clusters := []
  dies := []
  hbm := []
  poisoned := []
  l2 := []
  l2bad := []
  dplace := 0#128
  ctxbase := 0#64
  ctxctl := 0#64
  ctxbusy := false
  ctxerr := false
  contexts := []
  queues := []
  graphs := []
  nextGraph := 1
  gangs := []
  nextGang := 1
  windrows := []
  logWait := []
  spilled := []
  fills := []
  fabcfg := 0#64
  routes := []
  keys := []
  reach := []
  fabtsel := 0#64
  fabtdat := 0#256
  fabtbusy := false
  fabterr := false
  groups := []
  groupSeq := []
  reductions := []
  kept := []
  notices := []
  ports := []
  net := []
  wire := []
  park0 := []
  park1 := []
  carries := []
  trains := []
  dropped := 0
  fabtime := 0
  commit := []
  hostOut := []
  hostDone := 0
  hostCpl := []
  stage := 0#3
  bootFailed := false
  bootReason := 0#8
  hapctl := 0#64
  resetting := false
  mailboxes := []
  msix := 0#32
  msixTable := []
  meas := []
  digests := []
  pcieUp := false
  pcieWidth := 0
  pcieGen := 0
  islim := []
  throttle := []
  counters := []

end Sys2Proof.Machine
end

