-- ==== Sys2Proof/Machine/Store.lean ====
section
/-! DEFINITION. Clusters and dies by number, and device memory: where it lies, and L2, the one place where it is reached
(R76 to R78, R100 to R103, R405, R407). -/

namespace Sys2Proof.Machine

/-! ### Clusters and dies -/

/-- Cluster `c`. -/
def State.cl (s : State) (c : Nat) : Cluster := KMap.getD s.clusters c Cluster.reset

/-- The state with cluster `c` replaced. -/
def State.setCl (s : State) (c : Nat) (x : Cluster) : State := { s with clusters := KMap.set s.clusters c x }

/-- The state with cluster `c` changed by `f`. -/
def State.modCl (s : State) (c : Nat) (f : Cluster → Cluster) : State := s.setCl c (f (s.cl c))

/-- Die `d`. -/
def State.die (s : State) (d : Nat) : Die := KMap.getD s.dies d Die.reset

def State.setDie (s : State) (d : Nat) (x : Die) : State := { s with dies := KMap.set s.dies d x }

def State.modDie (s : State) (d : Nat) (f : Die → Die) : State := s.setDie d (f (s.die d))

/-- The die of a cluster id, and its place in the die's grid (R8): id = 96·d + 12·y + x. -/
def dieOf (c : Nat) : Nat := c / 96
def rowOf (c : Nat) : Nat := c % 96 / 12
def colOf (c : Nat) : Nat := c % 12
def clusterId (d y x : Nat) : Nat := 96 * d + 12 * y + x

/-! ### Device memory by DPA -/

def State.hbmRead (s : State) (a n : Nat) : List Byte := Mem.read s.hbm a n

def State.hbmNat (s : State) (a n : Nat) : Nat := leNat (Mem.read s.hbm a n)

def State.hbmWrite (s : State) (a : Nat) (bs : List Byte) : State := { s with hbm := Mem.write s.hbm a bs }

/-- The stack that holds a DPA (R77). -/
def stackOf (s : State) (a : Nat) : Nat :=
  if s.dplace.getLsbD (bits a 35 29) then bits a 38 36 else (bits a 38 36) ^^^ (bits a 10 8)

/-- The die whose L2 is the home of a DPA (R76, R100). -/
def homeDie (s : State) (a : Nat) : Nat := stackOf s a / 2

/-! ### Where device memory lies (R76 to R78) -/

/-- The lines that `n` bytes from `a` on touch. -/
def linesOf (a n : Nat) : List Nat :=
  if n == 0 then [] else (List.range ((a + n - 1) / 128 + 1 - a / 128)).map fun i => a / 128 + i

/-- The granule of a DPA within its stack, its pseudo-channel and its slot in the channel (R78). -/
def granuleOf (a : Nat) : Nat := bits a 35 8

def channelOf (a : Nat) : Nat :=
  let q := granuleOf a / 3
  128 * (granuleOf a % 3) + (bits q 6 0 ^^^ bits q 13 7 ^^^ bits q 20 14 ^^^ bits q 26 21)

def channelSlot (a : Nat) : Nat := bits (granuleOf a / 3) 26 7

/-- Stack, pseudo-channel, slot, sector and byte that hold a DPA (R77, R78). -/
def cellOf (s : State) (a : Nat) : Nat × Nat × Nat × Nat × Nat :=
  (stackOf s a, channelOf a, channelSlot a, bits a 7 5, a % 32)

/-- The DPA whose cell, once the placement bits in `diff` have changed, is the one that `a` had: data stay in their
stacks, so those of a changed octet read back permuted (R77). -/
def reseat (diff : BitVec 128) (a : Nat) : Nat :=
  if diff.getLsbD (bits a 35 29) then a ^^^ bits a 10 8 <<< 36 else a

/-- `dplace` written: no byte leaves its stack's cell. L2 holds no line of a changed octet afterwards (R77). -/
def State.setPlacement (s : State) (v : BitVec 128) : State :=
  let diff := s.dplace ^^^ v
  if diff == 0#128 then s
  else
    { s with
      dplace := v
      hbm := s.hbm.foldl (fun m c => Mem.write m (reseat diff c.1) [c.2]) []
      poisoned := s.poisoned.foldl (fun l k => NSet.insert l (reseat diff (32 * k) / 32)) []
      l2 := s.l2.map fun e => (e.1, e.2.filter fun l => !diff.getLsbD (bits (128 * l.line) 35 29))
      l2bad := s.l2bad.filter fun k => !diff.getLsbD (bits (32 * k) 35 29) }

/-! ### Counters of events (R405, R426) -/

/-- `k` events of counter `n` (Table 18.4) of a die. Counters that no die has of its own count at die 0. -/
def State.count (s : State) (die n k : Nat) : State :=
  if k == 0 then s else { s with counters := KMap.modify s.counters (256 * die + n) 0#64 fun v => v + BitVec.ofNat 64 k }

/-! ### L2 (R101 to R103) -/

/-- Slice and set of a DPA in the L2 of its die (R101). -/
def l2Slice (a : Nat) : Nat := bits a 13 7 ^^^ bits a 20 14 ^^^ bits a 27 21 ^^^ bits a 34 28 ^^^ bits a 38 35

def l2Set (a : Nat) : Nat := bits a 38 14 % 384

/-- The number of a DPA's set among all sets of the package. -/
def l2Key (s : State) (a : Nat) : Nat := (128 * homeDie s a + l2Slice a) * 384 + l2Set a

/-- Slice, set and way of byte `b` of a die's pinned space (R103). -/
def pinSlice (b : Nat) : Nat := b / 128 % 128
def pinSet (b : Nat) : Nat := b / 128 / 128 % 384
def pinWay (b : Nat) : Nat := b / 128 / 49152

/-- The pinned ways of a die's slices (Table 5.1). -/
def pinWays (s : State) (d : Nat) : Nat := bits (s.die d).l2pin.toNat 3 0

/-- The sectors of a line that satisfy `p`, by their first byte. -/
def sectorMask (line : Nat) (p : Nat → Bool) : BitVec 4 :=
  BitVec.ofNat 4 (((List.range 4).map fun j => if p (128 * line + 32 * j) then 2 ^ j else 0).sum)

/-- A set after an access to a line: sectors read, wholly written and partly written, and those that its stack holds
poisoned, which no fill makes valid. A read that misses a sector fills every sector that is missing, and a write of part of a
sector that sector alone. A line that misses takes an invalid unpinned way, or that of the least recently used line, which is
returned (R102, R407). -/
def l2Insert (pin : Nat) (ls : List L2Line) (line : Nat) (fill whole part poison : BitVec 4) : List L2Line × Option L2Line :=
  match ls.find? fun l => l.line == line with
  | some l =>
    let put := whole ||| (part &&& (l.valid ||| ~~~poison))
    let valid := if fill &&& ~~~l.valid != 0#4 then l.valid ||| ~~~poison else l.valid
    ((ls.filter fun k => k.line != line) ++ [{ l with valid := valid ||| put, dirty := l.dirty ||| put }], none)
  | none =>
    let put := whole ||| (part &&& ~~~poison)
    let new (w : Nat) : L2Line := ⟨w, line, (if fill != 0#4 then ~~~poison else 0#4) ||| put, put⟩
    match (List.range 16).find? fun w => pin ≤ w && ls.all fun l => l.way != w with
    | some w => (ls ++ [new w], none)
    | none =>
      match ls.find? fun l => pin ≤ l.way with
      | some v => ((ls.filter fun k => k.line != v.line) ++ [new v.way], some v)
      | none => (ls, none)

/-- A sector (DPA / 32) of a stack poisoned, and counted (R407, R426). -/
def State.poison (s : State) (q : Nat) : State :=
  if s.poisoned.contains q then s
  else State.count { s with poisoned := NSet.insert s.poisoned q } (homeDie s (32 * q)) 134 1

/-- Lines that leave L2, written back where they are dirty: what they write is good again in its stack, and a dirty sector in
error is poisoned there (R102, R407). -/
def l2Leave (gone : List L2Line) (s : State) : State :=
  let writes (q : Nat) : Bool := gone.any fun v => v.line == q / 4 && v.dirty.getLsbD (q % 4)
  (s.l2bad.filter writes).foldl State.poison
    { s with
      l2bad := s.l2bad.filter fun q => !(gone.any fun v => v.line == q / 4)
      poisoned := s.poisoned.filter fun q => !writes q }

/-- An access performed at the slice of one line. Data are held by their DPA whether L2 or a stack has them (log 74). -/
def l2One (line : Nat) (fill whole part : BitVec 4) (s : State) : State :=
  let k := l2Key s (128 * line)
  let poison := sectorMask line fun b => s.poisoned.contains (b / 32)
  let r := l2Insert (pinWays s (homeDie s (128 * line))) (KMap.getD s.l2 k []) line fill whole part poison
  l2Leave r.2.toList { s with l2 := KMap.set s.l2 k r.1 }

/-- Whether L2 holds a sector, so that its stack's copy is not read. -/
def l2Holds (s : State) (q : Nat) : Bool :=
  (KMap.getD s.l2 (l2Key s (32 * q)) []).any fun l => l.line == q / 4 && l.valid.getLsbD (q % 4)

/-- A read of `n` bytes at the slices that hold them. -/
def l2Read (a n : Nat) (s : State) : State :=
  (linesOf a n).foldl (fun s l => l2One l (sectorMask l fun b => b < a + n && a < b + 32) 0#4 0#4 s) s

/-- A write of `n` bytes: whole sectors need no fill, a part of one does (R102). -/
def l2Write (a n : Nat) (s : State) : State :=
  (linesOf a n).foldl (fun s l =>
    let whole := sectorMask l fun b => a ≤ b && b + 32 ≤ a + n
    l2One l 0#4 whole ((sectorMask l fun b => b < a + n && a < b + 32) &&& ~~~ whole) s) s

/-- Every L2 line of die `d` in a way below `pin` is written back and given up, as those ways become pinned (R104). -/
def l2Unway (d pin : Nat) (s : State) : State :=
  let gone := (s.l2.filter fun e => e.1 / 49152 == d).flatMap fun e => e.2.filter fun l => l.way < pin
  l2Leave gone { s with l2 := s.l2.map fun e => if e.1 / 49152 == d then (e.1, e.2.filter fun l => pin ≤ l.way) else e }

/-- The cause that a read of `n` bytes consumes (Table 17.1): 0xC1 for a sector in error in L2, 0xC2 for one that its
stack returns. -/
def sectorCause (s : State) (a n : Nat) : Option (BitVec 8) :=
  let ks := (List.range ((a + n + 31) / 32 - a / 32)).map fun i => a / 32 + i
  if ks.any fun k => s.l2bad.contains k then some 0xC1#8
  else if ks.any fun k => s.poisoned.contains k && !l2Holds s k then some 0xC2#8
  else none

/-- The same for a write: a sector that is only partly written is merged (R102, R407). -/
def mergeCause (s : State) (a n : Nat) : Option (BitVec 8) :=
  let part (k : Nat) : Bool := a < 32 * k + 32 && 32 * k < a + n && !(a ≤ 32 * k && 32 * k + 32 ≤ a + n)
  if s.l2bad.any part then some 0xC1#8
  else if s.poisoned.any fun k => part k && !l2Holds s k then some 0xC2#8
  else none

/-- A whole write of a sector replaces what was uncorrectable in it (R102, R407). -/
def unpoison (s : State) (a n : Nat) : State :=
  let keep (l : NSet) : NSet := l.filter fun k => !(a ≤ 32 * k && 32 * k + 32 ≤ a + n)
  { s with poisoned := keep s.poisoned, l2bad := keep s.l2bad }

/-! ### The pinned space of a die (R103, R105, R106) -/

/-- The cause that a read of `n` pinned bytes consumes, sector by sector (R106, R407). -/
def pinCause (s : State) (d a n : Nat) : Option (BitVec 8) :=
  if (s.die d).pinBad.any fun k => a < 32 * k + 32 && 32 * k < a + n then some 0xC1#8 else none

/-- The same for a write: a sector that is only partly written is merged. -/
def pinMerge (s : State) (d a n : Nat) : Option (BitVec 8) :=
  if (s.die d).pinBad.any fun k => a < 32 * k + 32 && 32 * k < a + n && !(a ≤ 32 * k && 32 * k + 32 ≤ a + n) then some 0xC1#8
  else none

/-- Bytes stored in the pinned space: sectors wholly written are good again. -/
def State.pinPut (s : State) (d a : Nat) (bs : List Byte) : State :=
  s.modDie d fun y =>
    { y with
      pinned := Mem.write y.pinned a bs
      pinBad := y.pinBad.filter fun k => !(a ≤ 32 * k && 32 * k + 32 ≤ a + bs.length) }

/-! ### Stores by the device itself -/

/-- Bytes stored at a DPA, performed at the slices of their lines (R100, R102). -/
def State.slicePut (s : State) (a : Nat) (bs : List Byte) : State :=
  (unpoison (l2Write a bs.length s) a bs.length).hbmWrite a bs

end Sys2Proof.Machine
end

