-- ==== Sys2Proof/Machine/Ops.lean ====
section
/-! DEFINITION. The named operations that every meaning is written over: clusters and dies, the five PCs
and their registers as their place in text order sees them, retiring an instruction, the fault log, taking
a trap and returning from one. -/

namespace Sys2Proof.Machine

/-! ### The PCs and threads of a cluster -/

/-- Of the records that a cluster keeps by agent, those of its die's manager core, which no task of the cluster ends (R381). -/
def coreOf {α : Type} (l : KMap α) : KMap α := l.filter fun e => e.1 == 9

/-- A cluster as at reset, its die's manager core going on. -/
def Cluster.vacant (x : Cluster) : Cluster :=
  { Cluster.reset with winReads := coreOf x.winReads, pushAt := coreOf x.pushAt, awaited := coreOf x.awaited }

/-- The PC of engine `e`. -/
def Cluster.walk (c : Cluster) : Eng → Walk
  | .S => c.wS | .L => c.wL | .A => c.wA | .W => c.wW | .M => c.wM

def Cluster.setWalk (c : Cluster) (e : Eng) (w : Walk) : Cluster :=
  match e with
  | .S => { c with wS := w } | .L => { c with wL := w } | .A => { c with wA := w }
  | .W => { c with wW := w } | .M => { c with wM := w }

def engines : List Eng := [.S, .L, .A, .W, .M]

/-- The codes of Table 7.1 and Table 16.3. -/
def engNum : Eng → Nat
  | .S => 0 | .L => 1 | .A => 2 | .W => 3 | .M => 4

/-- The dynamic position of the furthest-behind PC (R162). -/
def Cluster.minDp (c : Cluster) : Nat := min c.wS.dp (min (min c.wL.dp c.wA.dp) (min c.wW.dp c.wM.dp))

/-- The same over the four PCs that follow S. -/
def Cluster.minFollow (c : Cluster) : Nat := min (min c.wL.dp c.wA.dp) (min c.wW.dp c.wM.dp)

/-- Rake thread `t` of a cluster. -/
def Cluster.rake (c : Cluster) (t : Nat) : Rake := KMap.getD c.rakes t Rake.reset

def Cluster.setRake (c : Cluster) (t : Nat) (r : Rake) : Cluster := { c with rakes := KMap.set c.rakes t r }

/-! ### Actions: what a step does, or why it stops -/

/-- Why an action stops: a precise cause with its address, a wait, or a cause of the rollback route. -/
inductive Stop where
  | trap (cause : BitVec 8) (addr : Word)
  | wait (w : Wait)
  | check (cause : BitVec 8)
  deriving DecidableEq, Repr

/-- An action over the state. One that stops leaves no effect (R24, R171, R209). -/
abbrev Act (α : Type) := StateT State (Except Stop) α

/-- Stop with a precise cause that has no address. -/
def trap {α : Type} (cause : BitVec 8) : Act α := fun _ => .error (.trap cause 0#64)

/-- Stop with a precise cause at an address. -/
def trapAt {α : Type} (cause : BitVec 8) (addr : Word) : Act α := fun _ => .error (.trap cause addr)

/-- Stop without issuing, to issue again later. -/
def waitFor {α : Type} (w : Wait) : Act α := fun _ => .error (.wait w)

/-- Stop with a cause of the rollback route. -/
def checkStop {α : Type} (cause : BitVec 8) : Act α := fun _ => .error (.check cause)

def trapIf (b : Bool) (cause : BitVec 8) : Act Unit := if b then trap cause else pure ()

def waitIf (b : Bool) (w : Wait) : Act Unit := if b then waitFor w else pure ()

def checkIf (b : Bool) (cause : BitVec 8) : Act Unit := if b then checkStop cause else pure ()

/-! ### Who executes -/

/-- The cluster of the executing agent; the die manager core counts as its die's first cluster where a
cluster is asked for. -/
def State.selfCl (s : State) : Nat :=
  match s.actor with
  | .pc c _ => c
  | .rake c _ => c
  | .mgr d => 96 * d
  | .device => 0

def State.selfDie (s : State) : Nat := dieOf s.selfCl

/-- The task that the executing agent belongs to. -/
def State.selfTask (s : State) : Option Task :=
  match s.actor with
  | .pc c _ => (s.cl c).task
  | .rake c _ => (s.cl c).task
  | .mgr d => (s.die d).coreTask
  | .device => none

def State.selfCtx (s : State) : Nat := (s.selfTask.map (·.ctx)).getD 0

/-- The agent's rake thread or core, where it is one. -/
def State.selfRake (s : State) : Option Rake :=
  match s.actor with
  | .rake c t => some ((s.cl c).rake t)
  | .mgr d => some (s.die d).core
  | _ => none

def State.setSelfRake (s : State) (r : Rake) : State :=
  match s.actor with
  | .rake c t => s.modCl c fun x => x.setRake t r
  | .mgr d => s.modDie d fun x => { x with core := r }
  | _ => s

/-- The executing PC. -/
def State.selfWalk (s : State) : Walk :=
  match s.actor with
  | .pc c e => (s.cl c).walk e
  | _ => Walk.reset

/-- The dynamic position of the executing PC; 0 for an agent with no position. -/
def State.selfDp (s : State) : Nat := s.selfWalk.dp

/-- The text offset of the executing agent. -/
def State.selfPc (s : State) : Nat :=
  match s.actor with
  | .pc c e => ((s.cl c).walk e).pc
  | .rake c t => ((s.cl c).rake t).pc
  | .mgr d => (s.die d).core.pc
  | .device => 0

/-! ### Registers -/

/-- The value of a versioned register for an instruction at position `q`: what it held before the first
write at or after `q`, else the present one (R151, R66). -/
def verAt (vs : List Ver) (k : VKey) (q : Nat) (now : Word) : Word :=
  match vs with
  | [] => now
  | v :: t => if v.key == k && q ≤ v.dp then v.old else verAt t k q now

/-- s[n] as the executing agent sees it: s0 reads zero (R149), and an engine behind S sees s[n] as it
stands at the engine's place in text order (R151). -/
def State.rd (s : State) (n : Reg) : Word :=
  if n == 0#6 then 0#64
  else
    match s.actor with
    | .pc c e => verAt (s.cl c).owedVers (.s n.toNat) ((s.cl c).walk e).dp (KMap.getD (s.cl c).sregs n.toNat 0#64)
    | .rake c t => KMap.getD ((s.cl c).rake t).regs n.toNat 0#64
    | .mgr d => KMap.getD (s.die d).core.regs n.toNat 0#64
    | .device => 0#64

/-- Record the value before a write by S at position `dp`, for the engines that have not passed it (R151). -/
def Cluster.keep (c : Cluster) (k : VKey) (old : Word) : Cluster :=
  if c.minFollow ≤ c.wS.dp then { c with owedVers := c.owedVers ++ [⟨c.wS.dp, k, old⟩] } else c

/-- s[n] := v of a cluster's task by its S PC; s0 discards it (R149). -/
def Cluster.setS (c : Cluster) (n : Nat) (v : Word) : Cluster :=
  if n == 0 then c
  else { c.keep (.s n) (KMap.getD c.sregs n 0#64) with sregs := KMap.set c.sregs n v, regBad := NSet.erase c.regBad n }

/-- s[n] := v of the executing agent. -/
def State.wr (s : State) (n : Reg) (v : Word) : State :=
  match s.actor with
  | .pc c .S => s.modCl c fun x => x.setS n.toNat v
  | .rake c t =>
    if n == 0#6 then s
    else s.modCl c fun x =>
      { x.setRake t { x.rake t with regs := KMap.set (x.rake t).regs n.toNat v } with
        regBad := NSet.erase x.regBad (4096 * (t + 1) + n.toNat) }
  | .mgr d =>
    if n == 0#6 then s
    else s.modDie d fun x =>
      { x with core := { x.core with regs := KMap.set x.core.regs n.toNat v }, coreBad := NSet.erase x.coreBad n.toNat }
  | _ => s

/-- k0 to k15 of the executing agent; k0 is true (R150). -/
def State.preds (s : State) : BitVec 16 :=
  (match s.actor with
   | .pc c _ => (s.cl c).preds
   | .rake c t => ((s.cl c).rake t).preds
   | .mgr d => (s.die d).core.preds
   | .device => 1#16) ||| 1#16

def State.rdK (s : State) (k : PIdx) : Bool := s.preds.getLsbD k.toNat

/-- A record of errors without those of the predicates in `m`, where k0 has number `base`. -/
def clearPreds (base : Nat) (m : BitVec 16) (l : NSet) : NSet := l.filter fun k => !(base ≤ k && m.getLsbD (k - base))

/-- The predicates become `v`, of which `m` are written; k0 stays true (R150). -/
def State.putPreds (s : State) (m v : BitVec 16) : State :=
  match s.actor with
  | .pc c .S => s.modCl c fun x => { x with preds := v ||| 1#16, regBad := clearPreds 64 m x.regBad }
  | .rake c t => s.modCl c fun x =>
      { x.setRake t { x.rake t with preds := v ||| 1#16 } with regBad := clearPreds (4096 * (t + 1) + 64) m x.regBad }
  | .mgr d => s.modDie d fun x => { x with core := { x.core with preds := v ||| 1#16 }, coreBad := clearPreds 64 m x.coreBad }
  | _ => s

/-- All predicates at once (R177). -/
def State.setPreds (s : State) (v : BitVec 16) : State := s.putPreds 0xFFFF#16 v

/-- k[k] := b; a write to k0 is discarded (R150, R176). -/
def State.wrK (s : State) (k : PIdx) (b : Bool) : State :=
  let m : BitVec 16 := 1#16 <<< k.toNat
  s.putPreds m (if b then s.preds ||| m else s.preds &&& ~~~m)

/-- Whether an instruction under predicate `p` executes (R30). -/
def State.holds (s : State) (p : Pred) : Bool := s.rdK p.k != p.neg

/-- b of an F96S form: s[B] or sext(IMM32) (R172). -/
def State.rdRI (s : State) : RegOrImm → Word
  | .reg r => s.rd r
  | .imm v => sext32 v

/-! ### Passing an instruction -/

/-- What becomes of a next address and a loop stack, innermost entry first, when the address is the end of
open bodies (R165, R193). -/
def loopEnd (nx : Nat) : List LoopEntry → Nat × List LoopEntry
  | [] => (nx, [])
  | e :: t =>
    if nx == e.stop then
      if 1 < e.count then (e.start, { e with count := e.count - 1 } :: t) else loopEnd nx t
    else (nx, e :: t)

/-- Parcels kept without those of the instruction of `len` bytes at `pc`. -/
def dropText (pc len : Nat) (l : KMap Parcel) : KMap Parcel := l.filter fun t => t.1 < pc || pc + len ≤ t.1

/-- The PC after an instruction of `len` bytes whose next address is `nx` (R161, R165): its parcels are held no longer, and
a steering token sent for it is spent. -/
def Walk.pass (w : Walk) (len nx : Nat) : Walk :=
  { w with
    pc := (loopEnd nx w.loops).1, loops := (loopEnd nx w.loops).2, dp := w.dp + len, wait := none
    steer := w.steer.filter fun t => w.dp < t.1, text := dropText w.pc len w.text, barred := false }

/-- The steering token sent for the `vbr` at the PC's position (R164). -/
def Walk.token (w : Walk) : Option Nat := (w.steer.find? fun t => t.1 == w.dp).map (·.2)

/-- No PC and no thread of the cluster holds a parcel (R184, R387). -/
def Cluster.dropTexts (c : Cluster) : Cluster :=
  { c with
    wS := { c.wS with text := [] }, wL := { c.wL with text := [] }, wA := { c.wA with text := [] },
    wW := { c.wW with text := [] }, wM := { c.wM with text := [] } }

/-- Progress of one PC ends every PC's recorded wait: each looks again when it moves next. -/
def Cluster.clearWaits (c : Cluster) : Cluster :=
  { c with
    wS := { c.wS with wait := none }, wL := { c.wL with wait := none }, wA := { c.wA with wait := none },
    wW := { c.wW with wait := none }, wM := { c.wM with wait := none } }

/-- What the trailing PC has passed needs no record: trail, branch outcomes, register versions. -/
def Cluster.prune (c : Cluster) : Cluster :=
  { c with
    trail := c.trail.filter fun t => c.minDp ≤ t.1
    outcomes := c.outcomes.filter fun o => c.minFollow ≤ o.dp
    owedVers := c.owedVers.filter fun v => c.minFollow ≤ v.dp }

/-- The position and text offset that the leading PC passes. -/
def Cluster.leave (c : Cluster) (dp pc : Nat) : Cluster :=
  if c.trail.all fun t => t.1 < dp then { c with trail := c.trail ++ [(dp, pc)] } else c

/-- Engine `e` of the cluster passes an instruction of `len` bytes and continues at `nx`. -/
def Cluster.pass (c : Cluster) (e : Eng) (len nx : Nat) : Cluster :=
  ((((c.leave (c.walk e).dp (c.walk e).pc).clearWaits).setWalk e ((c.walk e).pass len nx))).prune

/-- The signature register after an instruction; X instructions are not folded (R48). -/
def foldSig (sig : BitVec 32) (i : Instr) : BitVec 32 :=
  match encode i with
  | [] => sig
  | h :: t => if headTag h == .X then sig else crcBytes sig (((h :: t).take 3).flatMap parcelBytes)

/-- The length of an instruction in bytes. -/
def lenOf (i : Instr) : Nat := 4 * (encode i).length

/-- A thread after it has executed `i`. -/
def Rake.pass (r : Rake) (i : Instr) (nx : Nat) : Rake :=
  { r with pc := nx, sig := foldSig r.sig i, text := dropText r.pc (lenOf i) r.text }

/-- The executing agent has executed `i` and continues at text offset `nx`. -/
def retireTo (i : Instr) (nx : Nat) (s : State) : State :=
  match s.actor with
  | .pc c e =>
    s.modCl c fun x =>
      (x.setWalk e { x.walk e with sig := foldSig (x.walk e).sig i }).pass e (lenOf i) nx
  | .rake c t => s.modCl c fun x => x.setRake t ((x.rake t).pass i nx)
  | .mgr d => s.modDie d fun x => { x with core := x.core.pass i nx }
  | .device => s

/-- The executing agent has executed `i` and falls through. -/
def retire (i : Instr) (s : State) : State := retireTo i (s.selfPc + lenOf i) s

/-! ### The fault log -/

/-- The superstep number of a gang (R353). -/
def State.sstepOf (s : State) (g : Nat) : BitVec 32 := ((KMap.get? s.gangs g).map (·.sstep)).getD 0#32

/-- Something of the device's own that comes about next: a step at the head of the agenda. -/
def State.soon (s : State) (x : Soon) : State := { s with agenda := .soon x :: s.agenda }

/-- The 32 bytes of a fault-log entry numbered `num` (Table 16.8). -/
def LogEntry.bytes (e : LogEntry) (num : Nat) : List Byte :=
  natLe 1 e.cause.toNat ++ natLe 1 e.kind
    ++ natLe 2 (e.agent % 512 + 512 * (e.unit % 8) + 4096 * (e.thr % 8))
    ++ natLe 4 e.seq.toNat ++ natLe 4 e.item ++ natLe 4 e.step.toNat
    ++ natLe 8 e.addr ++ natLe 4 e.xtra ++ natLe 4 num

/-- The address of entry `n` of a fault log. -/
def entryAt (c : Context) (n : Nat) : Nat := c.flbase + 256 + 32 * (n % c.flcap)

/-- Tail and head of a context's fault log. -/
def State.logTail (s : State) (c : Context) : Nat := s.hbmNat c.flbase 4
def State.logHead (s : State) (c : Context) : Nat := s.hbmNat (c.flbase + 128) 4

/-- The number that the next entry of a context's fault log gets; none where the log is full or there is none. -/
def State.nextEntry (s : State) (ctx : Nat) : Option Nat :=
  match KMap.get? s.contexts ctx with
  | none => none
  | some c => if (s.logTail c + 2 ^ 32 - s.logHead c) % 2 ^ 32 == c.flcap then none else some (s.logTail c)

/-- Append an entry to a context's fault log at the slice that holds its line 0: a KIND 1 entry waits for room, any other is
dropped and counted when the log is full (R398, R399). Event 5 fires with every append, for the log then is not empty, and
carries the number of entries. DESIGN CHOICE (log 20): once per append. -/
def State.logFault (s : State) (ctx : Nat) (e : LogEntry) : State :=
  match KMap.get? s.contexts ctx with
  | none => s
  | some c =>
    let s0 := l2Read (c.flbase + 128) 4 (l2Read c.flbase 8 s)
    match s.nextEntry ctx with
    | none =>
      if e.kind == 1 then { s0 with logWait := s0.logWait ++ [(ctx, e)] }
      else s0.slicePut (c.flbase + 4) (natLe 4 (s.hbmNat (c.flbase + 4) 4 + 1))
    | some n =>
      let s1 := (s0.slicePut (entryAt c n) (e.bytes n)).slicePut c.flbase (natLe 4 (n + 1))
      s1.soon (.fire (homeDie s c.flbase) 5 (BitVec.ofNat 16 ctx) 0#16 0#32
        (BitVec.ofNat 48 ((n + 1 + 2 ^ 32 - s.logHead c) % 2 ^ 32)))

/-- Entry number `n` of a context's fault log is replaced; one that system software has consumed stands, and the new entry is
appended (R388). -/
def State.relogFault (s : State) (ctx n : Nat) (e : LogEntry) : State :=
  match KMap.get? s.contexts ctx with
  | none => s
  | some c =>
    if (n + 2 ^ 32 - s.logHead c) % 2 ^ 32 < (s.logTail c + 2 ^ 32 - s.logHead c) % 2 ^ 32 then s.slicePut (entryAt c n) (e.bytes n)
    else s.logFault ctx e

/-! ### Rollback requests -/

/-- Whether gang `g` is its context's protected gang and still protected (R346, R414). -/
def State.protectedGang (s : State) (g : Nat) : Bool :=
  match KMap.get? s.gangs g with
  | none => false
  | some x => x.tag != 0 && ((KMap.get? s.contexts x.ctx).map (·.ckgang)).getD 0 == x.tag

/-- A cause of the rollback route raised for gang `g` of context `ctx`: a rollback request, or, while the
gang is unprotected, cause 0xC8 and the end of the context (R386, R414, R415). -/
def State.raiseCheck (s : State) (ctx g agent unit : Nat) (cause : BitVec 8) : State :=
  if s.protectedGang g && !(((KMap.get? s.gangs g).map (·.unprotected)).getD true) then
    { s with gangs := KMap.modify s.gangs g default fun x => { x with rollback := some (x.rollback.getD cause) } }
  else
    let s1 := (s.logFault ctx ⟨0xC8#8, 2, agent, unit, 0, 0#32, 0, s.sstepOf g, 0, 0⟩).soon (.kill ctx)
    if (KMap.get? s.gangs g).all fun x => x.remote.isEmpty then s1 else s1.soon (.alert g true)

/-! ### The save frame's header -/

/-- DPA of a task's save frame (R393). -/
def frameBase (c : Context) (agent : Nat) : Nat := c.svbase + 4194304 * agent

/-- The trap that a cluster's header records: its task's, or else that of its lowest trapped thread (R387, R390). DESIGN
CHOICE (log 92): the spec does not say which record the one header holds when task and threads are trapped at once. -/
def Cluster.trapShown (x : Cluster) (t : Task) : Option TrapRec := t.trap <|> (List.range 8).findSome? fun i => (x.rake i).trap

/-- The 4 KiB header without `FCRC` (Table 16.3). -/
def headerBytes (x : Cluster) (t : Task) (sstep : BitVec 32) (spilt : Bool) (crc : Nat) : List Byte :=
  let tr := x.trapShown t
  let st := (if tr.isSome then 1 else 0) + (if spilt then 2 else 0) + (if t.preq then 4 else 0)
  let head := natLe 4 1 ++ natLe 1 st
    ++ natLe 1 ((tr.map (·.cause.toNat)).getD 0) ++ natLe 1 ((tr.map (·.eng)).getD 0) ++ natLe 1 ((tr.map (·.thr)).getD 0)
    ++ natLe 8 ((tr.map (·.addr.toNat)).getD 0) ++ natLe 8 ((tr.map (·.pos)).getD 0)
    ++ engines.flatMap (fun e => natLe 8 (x.walk e).pc) ++ engines.flatMap (fun e => natLe 8 (x.walk e).dp)
    ++ natLe 4 sstep.toNat
  head ++ natLe 4 crc ++ (List.range 8).flatMap (fun i => natLe 8 (x.rake i).pc) ++ List.replicate 3920 0#8

/-- Write the frame header of cluster `c`'s task, with `FCRC` over the header and the task control bytes as
they stand in the frame (R394). -/
def State.writeHeader (s : State) (c : Nat) (spilt : Bool) : State :=
  match (s.cl c).task with
  | none => s
  | some t =>
    match KMap.get? s.contexts t.ctx with
    | none => s
    | some x =>
      let base := frameBase x t.agent
      let h := headerBytes (s.cl c) t (s.sstepOf t.gang) spilt
      let crc := crc32c ((h 0).take 108 ++ (h 0).drop 112 ++ s.hbmRead (base + 0x3C1000) 126976)
      s.slicePut (base + 0x3C0000) (h crc.toNat)

/-- The cluster's bit in its die's `tpend` (Table 16.4). -/
def State.setTpend (s : State) (c : Nat) (b : Bool) : State :=
  s.modDie (dieOf c) fun d =>
    let m : BitVec 96 := 1#96 <<< (c % 96)
    { d with tpend := if b then d.tpend ||| m else d.tpend &&& ~~~m }

/-! ### Commands that end with their instruction -/

/-- The number of an engine unit's queue. -/
def unitNum : Unit6 → Nat
  | .copy => 0 | .sluice => 1 | .batcher => 2 | .compaction => 3 | .fabric => 4 | .collective => 5

/-- The retired-through word of a unit's queue (R130). -/
def Cluster.rtOf (x : Cluster) (u : Unit6) : BitVec 32 := KMap.getD x.rts (unitNum u) 0#32

/-- The retired-through word after number `n` has retired; structural on the count of numbers above it. -/
def retireThrough (rt : BitVec 32) (done : NSet) : Nat → BitVec 32 × NSet
  | 0 => (rt, done)
  | k + 1 =>
    let n := rt + 1#32
    if done.contains n.toNat then retireThrough n (NSet.erase done n.toNat) k else (rt, done)

/-- Number `n` of a queue has retired (R130, R270, R313). -/
def Cluster.retireSeq (x : Cluster) (u : Unit6) (n : BitVec 32) : Cluster :=
  let done := NSet.insert (KMap.getD x.retired (unitNum u) []) n.toNat
  let r := retireThrough (x.rtOf u) done done.length
  { x with rts := KMap.set x.rts (unitNum u) r.1, retired := KMap.set x.retired (unitNum u) r.2 }

/-- Bits [hi:lo] of a command, and its opcode (Table 6.1). -/
def Cmd.f (c : Cmd) (hi lo : Nat) : Nat := bits c.raw.toNat hi lo
def Cmd.op (c : Cmd) : Nat := c.f 63 57

/-- The opcode of `egroup` (Table 12.7). -/
def opEgroup : Nat := 0xA

/-- The `egroup` commands of a cluster's task that satisfy `p` are given up, for their instructions issue again (R319). -/
def Cluster.dropGroups (x : Cluster) (p : Cmd → Bool) : Cluster :=
  let group (k : Cmd) : Bool := k.unit == .fabric && k.op == opEgroup && (x.task.map (·.gang)) == some k.gang && p k
  let ns := (x.cmds.filter group ++ ((x.kicks.map fun e => e.2.cmd).filter group)).map (·.seq)
  ns.eraseDups.foldl (fun (y : Cluster) n => y.retireSeq .fabric n)
    { x with cmds := x.cmds.filter fun k => !group k, kicks := x.kicks.filter fun e => !group e.2.cmd }

/-! ### Taking a trap and returning from one -/

/-- A management task ends on a cause; the die logs 0xAA with the original cause (R386). -/
def State.endManagement (s : State) (c : Nat) (cause : BitVec 8) : State :=
  let s1 := s.modCl c fun x => { x with task := x.task.map fun t => { t with state := .halted } }
  (s1.modDie (dieOf c) fun d => { d with dieLog := d.dieLog ++ [(0xAA#8, cause.toNat)] }).soon (.taskEnd c)

/-- Whether anything of cluster `c` is trapped: its task or one of its threads. -/
def Cluster.anyTrapped (x : Cluster) : Bool :=
  (x.task.any fun t => t.state == .trapped) || (List.range 8).any fun i => (x.rake i).st == .trapped

/-- The entry of KIND 0 that a trap appends (Table 16.8). -/
def trapEntry (t : Task) (tr : TrapRec) (sstep : BitVec 32) : LogEntry :=
  ⟨tr.cause, 0, t.agent + 1, if tr.eng == 5 then 0 else tr.eng, tr.thr, 0#32, 0, sstep, tr.addr.toNat, 0⟩

/-- The S PC's waits, reads and `egroup` of its own end, as pre-emption ends them (R319, R387, R391). -/
def Cluster.haltPcs (x : Cluster) : Cluster :=
  { (x.clearWaits.dropTexts.dropGroups fun k => k.thr.isNone) with
    arrived := x.arrived && x.released, winReads := KMap.erase x.winReads 8, pushAt := KMap.erase x.pushAt 8
    awaited := KMap.erase x.awaited 8 }

/-- Trap entry (R387, R388): engine `e` of cluster `c` raises a precise cause. Nothing of the instruction
has issued; every PC stands at an instruction boundary, where a product in flight may have made some of its steps (R265,
R389), every wait ends, the frame header and a fault-log entry of KIND 0 are written, and the cluster's bit in `tpend` is
set. -/
def takeTrap (c : Nat) (e : Eng) (cause : BitVec 8) (addr : Word) (s : State) : State :=
  match (s.cl c).task with
  | none => s
  | some t =>
    if t.priv then s.endManagement c cause
    else
      let tr : TrapRec := ⟨cause, engNum e, 0, addr, ((s.cl c).walk e).dp, s.nextEntry t.ctx⟩
      let s1 := s.modCl c fun x => { x.haltPcs with task := some { t with state := .trapped, trap := some tr, preq := x.preempt } }
      let s2 := s1.writeHeader c false
      let s3 := (s2.logFault t.ctx (trapEntry t tr (s.sstepOf t.gang))).setTpend c true
      if e == .M then s3 else s3.soon (.product c)

/-- A rake thread raises a precise cause: it stops alone, and one of a management task ends its task (R386, R390). -/
def takeRakeTrap (c thr : Nat) (cause : BitVec 8) (addr : Word) (s : State) : State :=
  match (s.cl c).task with
  | none => s
  | some t =>
    if t.priv then s.endManagement c cause
    else
      let tr : TrapRec := ⟨cause, 5, thr, addr, 0, s.nextEntry t.ctx⟩
      let s1 := s.modCl c fun x => x.setRake thr { x.rake thr with st := .trapped, trap := some tr }
      ((s1.writeHeader c false).logFault t.ctx (trapEntry t tr (s.sstepOf t.gang))).setTpend c true

/-- A cause met by the task on a die manager core ends that task (R381, R386). -/
def takeCoreTrap (d : Nat) (cause : BitVec 8) (s : State) : State :=
  s.modDie d fun x =>
    { x with coreTask := none, core := { x.core with st := .ended }, dieLog := x.dieLog ++ [(0xAA#8, cause.toNat)] }

/-- Causes that a walk itself ends with (Table 4.7). -/
def walkCause (cause : BitVec 8) : Bool := cause == 0x20#8 || cause == 0x22#8 || cause == 0x29#8

/-- The walks outstanding at a die that an access's own joined end with its fault, which those of a `vpref` drop (R89,
R218). -/
def State.endJoined (s : State) (d ctx : Nat) (cause : BitVec 8) (addr : Nat) : State :=
  if walkCause cause && !(s.die d).walks.isEmpty then
    s.modDie d fun y => { y with walks := y.walks.filter fun w => !(w.ctx == ctx && w.page == addr / 65536) }
  else s

/-- The executing agent raises a precise cause, by the route that R386 gives it. -/
def State.raise (s : State) (cause : BitVec 8) (addr : Word) : State :=
  let s1 := s.endJoined s.selfDie s.selfCtx cause addr.toNat
  match s.actor with
  | .pc c e => takeTrap c e cause addr s1
  | .rake c t => takeRakeTrap c t cause addr s1
  | .mgr d => takeCoreTrap d cause s1
  | .device => s

/-- The executing agent meets a cause of the rollback route (R386). -/
def State.raiseSelfCheck (s : State) (cause : BitVec 8) : State :=
  match s.selfTask with
  | none => s
  | some t =>
    s.raiseCheck t.ctx t.gang (t.agent + 1) (match s.actor with | .pc _ e => (engNum e) | _ => 0) cause

/-- The executing agent waits: its PC records what for. -/
def State.noteWait (s : State) (w : Wait) : State :=
  match s.actor with
  | .pc c e => s.modCl c fun x => x.setWalk e { x.walk e with wait := some w }
  | _ => s

/-- What becomes of an action: its state, or the state before it with the trap taken, the wait noted, or the
rollback requested. -/
def perform (a : Act Unit) (s : State) : Host.Outcome State Fault Refusal :=
  match a s with
  | .ok (_, s') => .next s'
  | .error (.trap cause addr) => .next (s.raise cause addr)
  | .error (.wait w) => .next (s.noteWait w)
  | .error (.check cause) => .next (s.raiseSelfCheck cause)

/-- The bit of `tpend` as the cluster's task and threads stand, and those of the tasks spilled from it. -/
def State.showTrapped (s : State) (c : Nat) : State :=
  s.setTpend c ((s.cl c).anyTrapped || s.spilled.any fun p => p.from_ == c && p.image.anyTrapped)

/-- Return from a trap (R392): every PC continues from its recorded position and the trapping PC issues its
instruction again. -/
def resumeTask (c : Nat) (s : State) : State :=
  (s.modCl c fun x =>
    { x with task := x.task.map fun t => { t with state := .running, trap := none, preq := false }, preempt := false }).showTrapped c

/-- Return of a rake thread from a trap. -/
def resumeRake (c thr : Nat) (s : State) : State :=
  (s.modCl c fun x => x.setRake thr { x.rake thr with st := .ready, trap := none }).showTrapped c

/-! ### Instructions whose effect is a change of state under a predicate -/

/-- An instruction with effect `f` that neither waits nor traps: under a false predicate only the PC moves
and the signature folds (R30). -/
def plainOp (i : Instr) (p : Pred) (f : State → State) (s : State) : Host.Outcome State Fault Refusal :=
  .next (retire i (if s.holds p then f s else s))

/-- No predicate: k0, which is always true (R30). -/
def always : Pred := ⟨false, 0#4⟩

/-- An action under a predicate, then the PC moves. -/
def actOp (i : Instr) (p : Pred) (a : Act Unit) (s : State) : Host.Outcome State Fault Refusal :=
  perform (do (if s.holds p then a else pure ()); modify (retire i)) s

end Sys2Proof.Machine
end

