-- ==== Sys2Proof/Machine/Access.lean ====
section
/-! DEFINITION. Reaching memory: coordinate addresses, translation, checked lines and the undo log,
scratchpad lines with their clear, logged and owed bits, L1, and the accesses of one agent to all of them
(chapters 4, 5 and 13). -/

namespace Sys2Proof.Machine

/-! ### Agents of accesses -/

/-- On whose behalf an access is made (R332, R344, R346): its context, agent id, gang, the cluster whose L1
and first-level TLB it uses (if any), the die whose translation unit serves it (if any), privilege, whether it is exempt
from the gang rule of checked pages (host and fabric ingress), the cluster that is its own (384 for none, R81), and whether
it may reach the flag array and the kick range through a page: a scalar access, or the host's (R82, R117, R419). -/
structure Who where
  ctx : Nat
  agent : Nat
  gang : Nat
  cl : Option Nat
  die : Option Nat
  user : Bool
  exempt : Bool
  own : Nat
  wide : Bool
  deriving DecidableEq, Repr

/-- The agent that executes the present step. -/
def State.who (s : State) : Who :=
  let cl := match s.actor with
    | .mgr _ => none
    | _ => some s.selfCl
  match s.selfTask with
  | some t => ⟨t.ctx, t.agent + 1, t.gang, cl, some s.selfDie, !t.priv, false, s.selfCl, false⟩
  | none => ⟨0, 0, 0, cl, some s.selfDie, true, false, s.selfCl, false⟩

/-- A command's accesses for its issuer (R95, R271). -/
def Cmd.who (c : Cmd) : Who := ⟨c.ctx, c.agent + 1, c.gang, none, some c.die, !c.priv, false, c.cl, false⟩

/-- A die engine on its own account (R271, Table 4.10). -/
def dieWho (ctx die gang : Nat) : Who := ⟨ctx, 385 + die, gang, none, some die, false, false, 384, false⟩

/-- The fabric ingress (R309) and the host (R348, R419). -/
def ingressWho (ctx : Nat) : Who := ⟨ctx, 389, 0, none, none, true, true, 384, false⟩
def hostWho (ctx : Nat) : Who := ⟨ctx, 390, 0, none, none, false, true, 384, true⟩

/-- The launch path and the scheduler read and write on the context's behalf at supervisor level; they belong
to no gang and touch no checked line of their own. -/
def launchWho (ctx die : Nat) : Who := ⟨ctx, 0, 0, none, some die, false, true, 384, false⟩

/-! ### Causes of accesses -/

/-- No cause of the spec: an access that must wait until an owed line has landed (R17). -/
def owedCause : BitVec 8 := 0#8

/-- A cause of an access as an action's stop: 0xC0 to 0xC6 take the rollback route (R386). -/
def stopOf (c : BitVec 8) (a : Nat) : Stop :=
  if c == owedCause then .wait .owed
  else if 0xC0#8 ≤ c && c ≤ 0xC6#8 then .check c else .trap c (BitVec.ofNat 64 a)

/-! ### Coordinate addresses -/

/-- Banks that `sramcfg` gives to L1 start here (Table 5.3). -/
def firstL1Bank (x : Cluster) : Nat :=
  match x.sramcfg.toNat % 4 with
  | 0 => 48 | 1 => 40 | _ => 32

/-- An offset in a scratchpad bank of the cluster (R82, R115). -/
def inBanks (x : Cluster) (off : Nat) : Bool := decide (off < 65536 * firstL1Bank x)

def inFlags (off : Nat) : Bool := decide (0x300000 ≤ off) && decide (off < 0x304000)
def inKick (off : Nat) : Bool := decide (0x310000 ≤ off) && decide (off < 0x320000)

/-- Whether a context may reach a cluster: its own always, another if granted (R81). -/
def State.granted (s : State) (ctx own c : Nat) : Bool :=
  c == own || ((KMap.get? s.contexts ctx).map (fun x => x.grant.getLsbD c)).getD false

/-- The cluster and local offset that a coordinate address names, seen from cluster `own` of context `ctx`;
`mis` says that the address is not aligned as the access requires. Causes in the order of Table 4.7; whether
the offset is mapped is for the access to say (R80, R81). -/
def coord (s : State) (ctx own : Nat) (a : Nat) (mis : Bool) : Except (BitVec 8) (Nat × Nat) :=
  let hi := bits a 63 32
  let rel := hi == (if bit a 31 then 0xFFFFFFFF else 0)
  let abs := hi == 1
  if (!rel && !abs) || bit a 22 || (!rel && abs && 11 < bits a 26 23) then .error 0x24#8
  else if mis then .error 0x28#8
  else if rel then
    let y : Int := (rowOf own : Int) + sx 4 (bits a 31 28)
    let x : Int := (colOf own : Int) + sx 5 (bits a 27 23)
    if y < 0 || 7 < y || x < 0 || 11 < x then .error 0x25#8
    else
      let c := clusterId (dieOf own) y.toNat x.toNat
      if s.granted ctx own c then .ok (c, bits a 21 0) else .error 0x26#8
  else
    let c := clusterId (bits a 31 30) (bits a 29 27) (bits a 26 23)
    if s.granted ctx own c then .ok (c, bits a 21 0) else .error 0x26#8

/-- An `Except` cause as an action, with the address that faulted. -/
def liftC {α : Type} (a : Nat) (x : Except (BitVec 8) α) : Act α :=
  match x with
  | .ok v => pure v
  | .error c => trapAt c (BitVec.ofNat 64 a)

/-! ### Translation -/

/-- Shift, width, leaf size code and the alignment of the next table, of each level (Table 4.3). -/
def levels : List (Nat × Nat × Nat × Nat) :=
  [(39, 9, 0, 8192), (29, 10, 3, 2048), (21, 8, 2, 256), (16, 5, 1, 1)]

/-- A walk from a table: the leaf and its page's shift, or 0x20 or 0x22 (R83, R84). -/
def walkFrom (s : State) (va : Nat) : List (Nat × Nat × Nat × Nat) → Nat → Except (BitVec 8) (Nat × Nat)
  | [], _ => .error 0x22#8
  | (sh, wd, sz, al) :: rest, table =>
    let e := s.hbmNat (table + 8 * bits va (sh + wd - 1) sh) 8
    if !bit e 0 then .error 0x20#8
    else if bits e 2 1 == 0 then
      let next := 8 * bits e 38 3
      if rest.isEmpty || bits e 63 39 != 0 || next % al != 0 then .error 0x22#8
      else walkFrom s va rest next
    else if sz != 0 && bits e 2 1 == sz then .ok (e, sh)
    else .error 0x22#8

/-- A leaf's target type and frame (Table 4.4). -/
def leafTgt (e : Nat) : Nat := bits e 63 61
def leafFrame (e : Nat) : Nat := bits e 44 16

/-- The causes 0x22 and 0x29 of a leaf whose page is 2^sh bytes (R84, R85). The low bits of `FRAME` below the
page size must be zero where it holds an address (log 21). DESIGN CHOICE (log 60): a scratchpad leaf whose `OWNER` names
no cluster breaks its row; the spec names no cause for it. -/
def leafCause (s : State) (e sh : Nat) : Option (BitVec 8) :=
  let fr := leafFrame e
  let low := fr % 2 ^ (sh - 16) != 0
  let chk := bit e 60
  let priv := bit e 59
  let snap := bit e 58
  let cache := bit e 57
  let place := bit e 56
  if bits e 53 45 != 0 || bits e 15 12 != 0 then some 0x22#8
  else
    match leafTgt e with
    | 0 =>
      if low || bits fr 28 23 != 0 || (snap && !chk) then some 0x22#8
      else if place != s.dplace.getLsbD (bits fr 19 13) then some 0x29#8 else none
    | 1 =>
      let unit := bits fr 10 0
      let limit := bits (s.die (bits fr 12 11)).l2pin.toNat 3 0 * 96
      if low || bits fr 28 13 != 0 || sh == 29 || chk || snap || cache || place || limit < unit + 2 ^ (sh - 16) then some 0x22#8
      else none
    | 2 =>
      if low || bits fr 28 6 != 0 || sh == 29 || chk || snap || cache || place || 383 < bits e 11 3 then some 0x22#8 else none
    | 3 => if chk || snap || priv || cache || place then some 0x22#8 else none
    | 4 => if low || chk || snap || priv || cache || place then some 0x22#8 else none
    | _ => some 0x22#8

/-- Where a translated access goes. -/
inductive Target where
  | dev (dpa : Nat)
  | pinned (die off : Nat)
  | sram (cl off : Nat)
  | window (handle off : Nat)
  | host (addr : Nat)
  deriving DecidableEq, Repr

/-- A translation: the target and the attributes that the access needs. -/
structure Xlat where
  tgt : Target
  chk : Bool
  snap : Bool
  cache : Bool
  leaf : Nat
  size : Nat
  deriving DecidableEq, Repr

/-- The address that a leaf of a 2^sh byte page gives a virtual address (Table 4.5). -/
def leafTarget (e sh va : Nat) : Target :=
  let off := va % 2 ^ sh
  let fr := leafFrame e
  match leafTgt e with
  | 0 => .dev (65536 * bits fr 22 0 + off)
  | 1 => .pinned (bits fr 12 11) (65536 * bits fr 10 0 + off)
  | 2 => .sram (bits e 11 3) (65536 * bits fr 5 0 + off)
  | 3 => .window (bits fr 15 0) (bits fr 28 16 * 2 ^ sh + off)
  | _ => .host (65536 * fr + off)

def tlbFind (l : List TlbEntry) (ctx va : Nat) : Option TlbEntry :=
  l.find? fun e => e.ctx == ctx && e.base ≤ va && va < e.base + 2 ^ e.size

/-- A TLB with an entry added: a full one gives up a free choice (R88; log 9). -/
def tlbAdd (cap : Nat) (l : List TlbEntry) (e : TlbEntry) (tick : Nat) : List TlbEntry :=
  if l.length < cap then l ++ [e] else l.eraseIdx (Config.victim tick % cap) ++ [e]

/-- The entries that a walk reads, at most four, by their DPA (R89). -/
def walkPath (s : State) (va : Nat) : List (Nat × Nat × Nat × Nat) → Nat → List Nat
  | [], _ => []
  | (sh, wd, _, al) :: rest, table =>
    let a := table + 8 * bits va (sh + wd - 1) sh
    let e := s.hbmNat a 8
    let next := 8 * bits e 38 3
    if bit e 0 && bits e 2 1 == 0 && !rest.isEmpty && bits e 63 39 == 0 && next % al == 0 then a :: walkPath s va rest next
    else [a]

/-- The result of a walk for a page of a context, read through L2: an uncorrectable entry, 0x20 or 0x22, the leaf's own
causes, or the leaf and its page's shift. DESIGN CHOICE (log 61): a context that is not loaded has no valid entry, 0x20. -/
def walkPage (ctx va : Nat) (s : State) : State × Except (BitVec 8) (Nat × Nat) :=
  match KMap.get? s.contexts ctx with
  | none => (s, .error 0x20#8)
  | some c =>
    let path := walkPath s va levels c.root
    let s1 := path.foldl (fun s a => l2Read a 8 s) s
    match path.findSome? fun a => sectorCause s a 8 with
    | some x => (s1, .error x)
    | none =>
      match walkFrom s va levels c.root with
      | .error x => (s1, .error x)
      | .ok (leaf, sh) =>
        match leafCause s leaf sh with
        | some x => (s1, .error x)
        | none => (s1, .ok (leaf, sh))

/-- A page entered into the second-level TLB of a die and the first-level TLBs of clusters. -/
def tlbFill (d : Option Nat) (cls : List Nat) (e : TlbEntry) (s : State) : State :=
  let s1 := match d with
    | some d => s.modDie d fun x => { x with tlb := tlbAdd 16384 x.tlb e s.tick }
    | none => s
  cls.foldl (fun s c => s.modCl c fun x => { x with tlb := tlbAdd 64 x.tlb e s.tick }) s1

/-- The entry that a walk makes. -/
def leafEntry (ctx va : Nat) (r : Nat × Nat) : TlbEntry := ⟨ctx, va / 2 ^ r.2 * 2 ^ r.2, r.2, BitVec.ofNat 64 r.1⟩

/-- Walk number `k` of a die ends: every request that joined it receives its result. A fault reaches no requester here,
since those that wait are of `vpref`, which drops it (R89, R218). -/
def endWalk (d k : Nat) (s : State) : State :=
  match (s.die d).walks[k]? with
  | none => s
  | some w =>
    let s0 := s.modDie d fun x => { x with walks := x.walks.eraseIdx k }
    match walkPage w.ctx (65536 * w.page) s0 with
    | (s1, .error _) => s1
    | (s1, .ok r) => tlbFill (some d) w.cls (leafEntry w.ctx (65536 * w.page) r) s1

/-- A miss of a die's translation unit. It joins a walk outstanding for its page, whose requesters then have its result
too; with 4,096 outstanding it waits until one ends (R89). The walk ends within the step (log 76). -/
def missWalk (d ctx va : Nat) (s : State) : State × Except (BitVec 8) (Nat × Nat) :=
  let s0 := if (s.die d).walks.length < 4096 then s else endWalk d 0 s
  match walkPage ctx va s0 with
  | (s1, .error x) =>
    (s1.modDie d fun y => { y with walks := y.walks.filter fun w => !(w.ctx == ctx && w.page == va / 65536) }, .error x)
  | (s1, .ok r) =>
    let same (w : TWalk) : Bool := w.ctx == ctx && 65536 * w.page / 2 ^ r.2 == va / 2 ^ r.2
    let cls := ((s1.die d).walks.filter same).flatMap (·.cls)
    let s2 := s1.modDie d fun y => { y with walks := y.walks.filter fun w => !same w }
    (tlbFill (some d) cls (leafEntry ctx va r) s2, .ok r)

/-- The leaf of a page: from the agent's TLBs, else by a walk that fills them (R83, R88, R89). -/
def findLeaf (w : Who) (va : Nat) (s : State) : Except (BitVec 8) (State × Nat × Nat) :=
  let hit1 := w.cl.bind fun c => tlbFind (s.cl c).tlb w.ctx va
  let hit2 := w.die.bind fun d => tlbFind (s.die d).tlb w.ctx va
  match hit1 with
  | some e => .ok (s, e.leaf.toNat, e.size)
  | none =>
    let own : List Nat := w.cl.toList
    match hit2 with
    | some e => .ok (tlbFill none own e s, e.leaf.toNat, e.size)
    | none =>
      let r := match w.die with
        | some d => missWalk d w.ctx va s
        | none => walkPage w.ctx va s
      match r with
      | (_, .error x) => .error x
      | (s1, .ok (leaf, sh)) => .ok (tlbFill none own (leafEntry w.ctx va (leaf, sh)) s1, leaf, sh)

/-- Whether the agent serves its context's protected gang (R346). -/
def servesProtected (s : State) (w : Who) : Bool := w.exempt || s.protectedGang w.gang

/-- Translate and check an access (R83 to R86), causes in the order of Table 4.7: what a scratchpad page reaches comes
before the page's own rules. `sync` is a synchronising access, to which the
gang rule of checked pages does not apply (R86, R345). -/
def translate (w : Who) (va : Nat) (write sync : Bool) (s : State) : Except (BitVec 8) (State × Xlat) :=
  if bits va 63 48 != 0 then .error 0x23#8
  else
    match findLeaf w va s with
    | .error c => .error c
    | .ok (s1, leaf, sh) =>
      let chk := bit leaf 60
      let base := va / 2 ^ sh * 2 ^ sh
      let outside :=
        match KMap.get? s.contexts w.ctx with
        | none => true
        | some c => base < c.ckbase || c.ckbase + c.cksize < base + 2 ^ sh
      let tgt := leafTarget leaf sh va
      let reach : Option (BitVec 8) := match tgt with
        | .sram c o =>
          if !s.granted w.ctx w.own c then some 0x26#8
          else if !(inBanks (s.cl c) o || (w.wide && (inFlags o || inKick o))) then some 0x27#8
          else none
        | _ => none
      if let some e := reach then .error e
      else if chk && outside then .error 0x2A#8
      else if chk && !sync && !servesProtected s w then .error 0x2D#8
      else if (write && !bit leaf 55) || (w.user && !bit leaf 54) then .error 0x21#8
      else if bit leaf 59 && w.agent != bits leaf 11 3 + 1 then .error 0x2B#8
      else .ok (s1, ⟨tgt, chk, bit leaf 58, bit leaf 57, leaf, sh⟩)

/-- Translation as an action of the executing agent. -/
def translateA (w : Who) (va : Nat) (write sync : Bool) : Act Xlat := fun s =>
  match translate w va write sync s with
  | .ok (s1, x) => .ok (x, s1)
  | .error c => .error (stopOf c va)

/-! ### The undo log -/

/-- A gang loses its rollback protection until its next barrier, on every device (R414). -/
def exposeGang (g : Nat) (s : State) : State :=
  match KMap.get? s.gangs g with
  | none => s
  | some x =>
    let s1 : State := { s with gangs := KMap.set s.gangs g { x with unprotected := true } }
    if x.unprotected || x.remote.isEmpty then s1 else s1.soon (.alert g false)

/-- Append an undo record to the region of die `d` of a context, or, when it is full, log 0xC7 and leave the
gang unprotected (R98, R414). -/
def undoAppend (s : State) (ctx d : Nat) (old : List Byte) (loc : Nat) (osh : Nat) (g : Nat) : State × Bool :=
  match KMap.get? s.contexts ctx with
  | none => (s, false)
  | some c =>
    let n := c.ulcount.getD d 0
    if (n + 1) * 144 ≤ c.ulsize.getD d 0 then
      let rec_ := old ++ natLe 8 loc ++ natLe 4 osh ++ natLe 4 (s.sstepOf g).toNat
      let s1 := s.slicePut (c.ulbase.getD d 0 + 144 * n) rec_
      let cnt := (List.range 4).map fun i => c.ulcount.getD i 0 + (if i == d then 1 else 0)
      ({ s1 with contexts := KMap.set s1.contexts ctx { c with ulcount := cnt } }, true)
    else
      let s1 := s.logFault ctx ⟨0xC7#8, 2, 385 + d, 6, 0, 0#32, 0, s.sstepOf g, 0, 0⟩
      (exposeGang g s1, false)

/-- The protected gang of a context (R346). -/
def protectedGangOf (s : State) (ctx : Nat) : Option Nat :=
  ((s.gangs.filter fun e => e.2.ctx == ctx && s.protectedGang e.1).map (·.1)).getLast?

/-! ### Checked lines -/

/-- A shadow word (Table 4.9). -/
structure Shadow where
  gen : Nat
  wid : Nat
  rid : Nat
  many : Bool
  log : Bool
  deriving DecidableEq, Repr

def Shadow.ofNat (w : Nat) : Shadow := ⟨bits w 31 20, bits w 19 11, bits w 10 2, bit w 1, bit w 0⟩

def Shadow.toNat (x : Shadow) : Nat :=
  x.gen * 1048576 + x.wid * 2048 + x.rid * 4 + (if x.many then 2 else 0) + (if x.log then 1 else 0)

/-- The word as the present generation sees it (R95, R342). -/
def Shadow.fresh (x : Shadow) (gen : Nat) : Shadow := if x.gen != gen then ⟨gen, 0, 0, false, false⟩ else x

/-- The check of R342 for agent `a`: the updated word, or the conflict's cause. -/
def Shadow.check (x : Shadow) (a : Nat) (write : Bool) : Except (BitVec 8) Shadow :=
  if !write then
    if x.wid != 0 && x.wid != a then .error 0x44#8
    else if x.rid == 0 then .ok { x with rid := a }
    else if x.rid != a then .ok { x with many := true }
    else .ok x
  else if x.wid != 0 && x.wid != a then .error 0x42#8
  else if x.many || (x.rid != 0 && x.rid != a) then .error 0x43#8
  else .ok { x with wid := a }

/-- DPA of the shadow word of a checked line (R94). -/
def shadowAddr (c : Context) (va : Nat) : Nat := c.shbase + 4 * ((va - c.ckbase) / 128)

/-- The slice operation on a checked line before the access itself is performed: the check of R342 for an
ordinary access, or the undo log alone for a synchronising write to a snapshot page (R345). An uncorrectable shadow word
is consumed by the check (R96, R405), and one in the line by its undo record (R407). Records are the protected gang's alone
(R98). DESIGN CHOICE (log 93): while no protected gang of the context lives the present generation is 0, that of superstep 0,
and no line is logged. DESIGN CHOICE (log 62): a line whose record finds the log full keeps `LOG` 0, so that the next write of
it finds the log full again. -/
def checkLine (w : Who) (va dpa : Nat) (write sync snap : Bool) (s : State) : Except (BitVec 8) State :=
  match KMap.get? s.contexts w.ctx with
  | none => .ok s
  | some c =>
    let a := shadowAddr c va
    if sync && !(write && snap) then .ok s
    else
      match sectorCause s a 4 with
      | some e => .error e
      | none =>
        let g := protectedGangOf s w.ctx
        let raw := s.hbmNat a 4
        let x0 := (Shadow.ofNat raw).fresh ((s.sstepOf (g.getD 0)).toNat % 4096)
        match (if sync then .ok x0 else x0.check w.agent write) with
        | .error e => .error e
        | .ok x1 =>
          let s0 := l2Write a 4 s
          let line := dpa / 128 * 128
          match g.filter fun _ => write && snap && !x1.log with
          | none => .ok (s0.hbmWrite a (natLe 4 x1.toNat))
          | some n =>
            match sectorCause s line 128 with
            | some e => .error e
            | none =>
              match undoAppend (l2Read line 128 s0) w.ctx (homeDie s dpa) (s.hbmRead line 128) line raw n with
              | (s1, ok) => .ok (s1.hbmWrite a (natLe 4 { x1 with log := ok }.toNat))

/-- The check over every line of an access. -/
def checkLines (w : Who) (va dpa n : Nat) (write sync snap : Bool) (s : State) : Except (BitVec 8) State :=
  (linesOf dpa n).foldlM (fun s l => checkLine w (va / 128 * 128 + 128 * (l - dpa / 128)) (128 * l) write sync snap s) s

/-! ### Scratchpad -/

/-- A line of a cluster's scratchpad, 128 bytes; a line with its clear bit set reads as zero (R371). -/
def sramLine (x : Cluster) (line : Nat) : List Byte :=
  if x.written.contains line then Mem.read x.sram (128 * line) 128 else List.replicate 128 0#8

/-- `n` bytes of a cluster's scratchpad. -/
def sramRead (x : Cluster) (off n : Nat) : List Byte :=
  (List.range n).map fun i => if x.written.contains ((off + i) / 128) then Mem.byte x.sram (off + i) else 0#8

/-- The first write to a line merges into zeros and clears the clear bit (R371). -/
def touchLine (x : Cluster) (line : Nat) : Cluster :=
  if x.written.contains line then x
  else { x with written := NSet.insert x.written line, sram := Mem.zero x.sram (128 * line) 128 }

/-- A heartwood line of a cluster that serves the protected gang (R115, R346). -/
def heartwood (s : State) (c line : Nat) : Bool :=
  decide (line < 512 * bits (s.cl c).sramcfg.toNat 13 8)
    && (((s.cl c).task.map fun t => s.protectedGang t.gang).getD false)

/-- The first write of a superstep to a heartwood line appends an undo record and sets the logged bit (R116). DESIGN
CHOICE (log 62): a line whose record finds the log full keeps its logged bit clear, so that a later write to it finds the
log full again. -/
def logHeartwood (s : State) (c line : Nat) : State :=
  if heartwood s c line && !(s.cl c).logged.contains line then
    let t := (s.cl c).task
    let g := (t.map (·.gang)).getD 0
    match undoAppend s ((t.map (·.ctx)).getD 0) (dieOf c) (sramLine (s.cl c) line)
        (2 ^ 63 + 4194304 * c + 128 * line) 0 g with
    | (s1, true) => s1.modCl c fun x => { x with logged := NSet.insert x.logged line }
    | (s1, false) => s1
  else s

/-- Bytes written into a cluster's scratchpad, whoever writes them. -/
def sramWrite (s : State) (c off : Nat) (bs : List Byte) : State :=
  let s1 := (linesOf off bs.length).foldl (fun s l => (logHeartwood s c l).modCl c fun x => touchLine x l) s
  s1.modCl c fun x => { x with sram := Mem.write x.sram off bs }

/-! ### The codes of a scratchpad block (R405, R406) -/

/-- The column of cells that a bit of the scratchpad lies in, among all blocks. -/
def colOfBit (b : Nat) : Nat := b / 65536 * 64 + b % 1024 / 16

/-- The bits in error in a row, and in a column of a block. -/
def rowErrors (x : Cluster) (line : Nat) : NSet := x.bad.filter fun b => b / 1024 == line
def colErrors (x : Cluster) (col : Nat) : NSet := x.bad.filter fun b => colOfBit b == col

/-- A row fetch (R406): one bit in error is corrected by the row's code; more are corrected by the codes of their
columns, each of which corrects one bit. Corrected bits are written back (R405); none is the answer when the second attempt
fails too (log 72). -/
def rowEcc (x : Cluster) (line : Nat) : Option Cluster :=
  let e := rowErrors x line
  if e.isEmpty then some x
  else if e.length == 1 || e.all fun b => (colErrors x (colOfBit b)).length == 1 then
    some { x with bad := x.bad.filter fun b => b / 1024 != line }
  else none

/-- A column fetch, in the same way through the rows' codes. -/
def colEcc (x : Cluster) (col : Nat) : Option Cluster :=
  let e := colErrors x col
  if e.isEmpty then some x
  else if e.length == 1 || e.all fun b => (rowErrors x (b / 1024)).length == 1 then
    some { x with bad := x.bad.filter fun b => colOfBit b != col }
  else none

/-- Errors corrected in scratchpads are counted (R405, R426). -/
def countCorrected (c n : Nat) (s : State) : State := s.count (dieOf c) 129 n

/-- The fetches of several rows of cluster `c`: the state with what they corrected, or none where one is uncorrectable. -/
def rowsEcc (c : Nat) (ls : List Nat) (s : State) : Option State :=
  match ls.foldlM rowEcc (s.cl c) with
  | none => none
  | some x =>
    if (s.cl c).bad.isEmpty then some s else some (countCorrected c ((s.cl c).bad.length - x.bad.length) (s.setCl c x))

def colsEcc (c : Nat) (ks : List Nat) (s : State) : Option State :=
  match ks.foldlM colEcc (s.cl c) with
  | none => none
  | some x =>
    if (s.cl c).bad.isEmpty then some s else some (countCorrected c ((s.cl c).bad.length - x.bad.length) (s.setCl c x))

/-- The fetches of an instruction's access: cause 0xC0 where one is uncorrectable. -/
def fetchRows (c : Nat) (ls : List Nat) : Act Unit := fun s =>
  match rowsEcc c ls s with
  | some s1 => .ok ((), s1)
  | none => .error (.check 0xC0#8)

def fetchCols (c : Nat) (ks : List Nat) : Act Unit := fun s =>
  match colsEcc c ks s with
  | some s1 => .ok ((), s1)
  | none => .error (.check 0xC0#8)

/-- Bytes that an engine or an arrival lands in a scratchpad: the write's own read may consume an error, which takes the
rollback route for the cluster's task (R406, R386), or, where the cluster has none, for gang `g`, whose bytes they are. -/
def sramLand (s : State) (c off g : Nat) (bs : List Byte) : State :=
  match rowsEcc c (linesOf off bs.length) s with
  | some s1 => sramWrite s1 c off bs
  | none =>
    match (s.cl c).task with
    | some t => s.raiseCheck t.ctx t.gang (t.agent + 1) 0 0xC0#8
    | none => s.raiseCheck (((KMap.get? s.gangs g).map (·.ctx)).getD 0) g 0 7 0xC0#8

/-- Whether a line is owed (R17). -/
def owedLine (x : Cluster) (line : Nat) : Bool := 0 < KMap.getD x.owed line 0

/-- The cluster's task of context `ctx` is spilled: deliveries wait at their source (R396). -/
def away (s : State) (ctx cl : Nat) : Bool := s.spilled.any fun p => p.from_ == cl && p.ctx == ctx

/-- Cluster `c` as a context's task has it: in place, or as its image holds it while it is spilled (R393, R396). -/
def State.home (s : State) (ctx c : Nat) : Cluster :=
  match s.spilled.find? fun p => p.from_ == c && p.ctx == ctx with
  | some p => p.image
  | none => s.cl c

/-- The same changed. -/
def State.modHome (s : State) (ctx c : Nat) (f : Cluster → Cluster) : State :=
  if away s ctx c then
    { s with spilled := s.spilled.map fun p => if p.from_ == c && p.ctx == ctx then { p with image := f p.image } else p }
  else s.modCl c f

/-- An access of the executing agent to a cluster whose task of its context is spilled waits (R396); a read waits like a
delivery (log 31). -/
def awaitHome (c : Nat) : Act Unit := do
  let s ← get
  waitIf (away s s.selfCtx c) .owed

/-- A cluster read waits while any line it covers is owed (R121). -/
def awaitLines (c : Nat) (ls : List Nat) : Act Unit := do
  awaitHome c
  let s ← get
  waitIf (ls.any fun l => owedLine (s.cl c) l) .owed

/-- A cluster write that covers an owed line raises 0x40 (R121). -/
def rejectLines (c : Nat) (ls : List Nat) (addr : Nat) : Act Unit := do
  awaitHome c
  let s ← get
  if ls.any fun l => owedLine (s.cl c) l then trapAt 0x40#8 (BitVec.ofNat 64 addr) else pure ()

/-- Row fetches of a cluster read. -/
def awaitOwed (c : Nat) (ls : List Nat) : Act Unit := do
  awaitLines c ls
  fetchRows c ls

/-- Row fetches of a cluster write, which is a read-modify-write (R110, R406). -/
def rejectOwed (c : Nat) (ls : List Nat) (addr : Nat) : Act Unit := do
  rejectLines c ls addr
  fetchRows c ls

/-- The 64 lines of the block that holds an offset, which a column fetch tests (R121). -/
def blockLines (off : Nat) : List Nat := (List.range 64).map fun i => off / 8192 * 64 + i

/-- The columns that a column fetch at an offset reads: one, or the 2 or 4 of a wider element (R108, R109). -/
def blockCols (off n : Nat) : List Nat := (List.range n).map fun i => off / 8192 * 64 + bits off 6 1 + i

/-- A column fetch of a cluster read. -/
def awaitCol (c off n : Nat) : Act Unit := do
  awaitLines c (blockLines off)
  fetchCols c (blockCols off n)

/-- A column fetch of a cluster write. -/
def rejectCol (c off n addr : Nat) : Act Unit := do
  rejectLines c (blockLines off) addr
  fetchCols c (blockCols off n)

/-! ### L1 and the write-acknowledge count -/

def l1Lines (x : Cluster) : Nat :=
  match x.sramcfg.toNat % 4 with
  | 0 => 0 | 1 => 4096 | _ => 8192

/-- L1 with a line filled: a full one gives up a free choice (R118; log 8). -/
def l1Fill (x : Cluster) (line : Nat) (data : List Byte) (tick : Nat) : Cluster :=
  let cap := l1Lines x
  if cap == 0 then x
  else
    let rest := x.l1.filter fun l => l.line != line
    { x with l1 := (if rest.length < cap then rest else rest.eraseIdx (Config.victim tick % cap)) ++ [⟨line, data⟩] }

/-- Overwrite part of a list of bytes. -/
def patch (old : List Byte) (at_ : Nat) (new : List Byte) : List Byte :=
  old.take at_ ++ new ++ old.drop (at_ + new.length)

/-- A store updates a matching L1 line and never allocates one (R118). -/
def l1Update (x : Cluster) (dpa : Nat) (bs : List Byte) : Cluster :=
  { x with l1 := x.l1.map fun l =>
      if l.line == dpa / 128 then
        { l with data := patch l.data (dpa % 128) (bs.take (128 - dpa % 128)) }
      else l }

/-- An engine's write invalidates a matching line of its cluster's L1 (R118). -/
def l1Drop (x : Cluster) (dpa n : Nat) : Cluster :=
  { x with l1 := x.l1.filter fun l => !(linesOf dpa n).contains l.line }

/-- Invalidation of the whole L1: an acquire at die scope or wider (R119). -/
def l1Empty (s : State) (c : Nat) : State := s.modCl c fun x => { x with l1 := [] }

/-- One write sent and not yet acknowledged (R143). -/
def addWack (s : State) (c n : Nat) : State := s.modCl c fun x => { x with wack := x.wack + n }

/-! ### Host memory -/

/-- A byte of host memory as an agent of gang `g` reads it: that gang's held writes over host data (R413). -/
def hostRead (s : State) (g a n : Nat) : List Byte :=
  (List.range n).map fun i =>
    s.commit.foldl (fun b w => if w.gang == g && w.addr ≤ a + i && a + i < w.addr + w.bytes.length
      then w.bytes.getD (a + i - w.addr) b else b) (Config.hostByte s.tick (a + i))

/-- Bytes held in the commit buffer. -/
def commitSize (s : State) : Nat := (s.commit.map (·.bytes.length)).sum

/-- A write to host memory by an agent of a gang is held until the superstep ends; one that finds the buffer full releases
the gang's held writes, which from then on go straight to the host, and leaves the gang unprotected (R413, R143). -/
def hostWrite (s : State) (ctx g a : Nat) (bs : List Byte) : State :=
  let w : HostWrite := ⟨g, a, bs⟩
  match KMap.get? s.gangs g with
  | none => { s with hostOut := s.hostOut ++ [w] }
  | some x =>
    if x.flowing then { s with hostOut := s.hostOut ++ [w] }
    else if commitSize s + bs.length ≤ 8388608 then { s with commit := s.commit ++ [w] }
    else
      let mine := s.commit.filter fun y => y.gang == g
      let s1 :=
        if s.protectedGang g && !x.unprotected then s.logFault ctx ⟨0xC7#8, 2, 390, 7, 0, 0#32, 0, s.sstepOf g, a, 1⟩ else s
      let s2 := exposeGang g s1
      { s2 with
        commit := s2.commit.filter fun y => y.gang != g
        hostOut := s2.hostOut ++ mine ++ [w]
        gangs := KMap.modify s2.gangs g default fun y => { y with flowing := true } }

/-! ### Accesses to a translated target -/

/-- An ordinary read of device memory by an agent, with the check of checked lines (R100, R342, R407). -/
def devRead (w : Who) (va dpa n : Nat) (x : Xlat) (s : State) : Except (BitVec 8) (State × List Byte) :=
  match sectorCause s dpa n with
  | some e => .error e
  | none =>
    match (if x.chk then checkLines w va dpa n false false x.snap s else .ok s) with
    | .error e => .error e
    | .ok s1 => .ok (l2Read dpa n s1, s1.hbmRead dpa n)

/-- Where the tail word of a launch queue lies. -/
def tailAt (s : State) (q : LaunchQueue) : Option Target :=
  (KMap.get? s.contexts q.ctx).bind fun c =>
    match walkFrom s q.tailVa levels c.root with
    | .ok (leaf, sh) => some (leafTarget leaf sh q.tailVa)
    | .error _ => none

/-- Whether `n` bytes stored at `y` reach the word at `x`. -/
def reaches (x y : Target) (n : Nat) : Bool :=
  match x, y with
  | .dev a, .dev b => b < a + 4 && a < b + n
  | .pinned d a, .pinned e b => d == e && b < a + 4 && a < b + n
  | .host a, .host b => b < a + 4 && a < b + n
  | _, _ => false

/-- A store to the tail word of a parked launch queue has the queue served again (R365). -/
def State.notifyQueues (y : Target) (n : Nat) (s : State) : State :=
  { s with queues := s.queues.map fun e =>
      if e.2.parked && e.2.sz != 0 && ((tailAt s e.2).map fun x => reaches x y n).getD false then (e.1, { e.2 with parked := false })
      else e }

/-- A write of device memory performed at its slices, merged where it covers part of a sector. -/
def devStore (dpa : Nat) (bs : List Byte) (s : State) : State :=
  ((unpoison (l2Write dpa bs.length s) dpa bs.length).hbmWrite dpa bs).notifyQueues (.dev dpa) bs.length

/-- A write of device memory by an agent, checked or, if synchronising, only logged (R342, R345, R407). -/
def devWrite (w : Who) (va dpa : Nat) (bs : List Byte) (sync : Bool) (x : Xlat) (s : State) : Except (BitVec 8) State :=
  match mergeCause s dpa bs.length with
  | some e => .error e
  | none =>
    match (if x.chk then checkLines w va dpa bs.length true sync x.snap s else .ok s) with
    | .error e => .error e
    | .ok s1 => .ok (devStore dpa bs s1)

/-- An access function as an action. -/
def liftA {α : Type} (a : Nat) (f : State → Except (BitVec 8) (State × α)) : Act α := fun s =>
  match f s with
  | .ok (s1, v) => .ok (v, s1)
  | .error c => .error (stopOf c a)

def liftU (a : Nat) (f : State → Except (BitVec 8) State) : Act Unit := fun s =>
  match f s with
  | .ok s1 => .ok ((), s1)
  | .error c => .error (stopOf c a)

/-- A miss in L1: the line is checked, read at its slice and kept (R118, R344). -/
def l1Miss (c : Nat) (w : Who) (va dpa n : Nat) (x : Xlat) (s : State) : Except (BitVec 8) (State × List Byte) :=
  match devRead w va (128 * (dpa / 128)) 128 x s with
  | .error e => .error e
  | .ok (s1, bs) => .ok (s1.modCl c fun y => l1Fill y (dpa / 128) bs s.tick, (bs.drop (dpa % 128)).take n)

/-- A read by a cluster of a device line that L1 may hold: a hit needs no check of its own, a miss is checked,
read at the slice and fills L1 (R118, R119, R344); a hit with a parity error is dropped, counted and read again
(R120). The bytes lie within one line. -/
def cachedRead (c : Nat) (w : Who) (va dpa n : Nat) (x : Xlat) (s : State) :
    Except (BitVec 8) (State × List Byte) :=
  let line := dpa / 128
  if x.cache then
    match (s.cl c).l1.find? fun l => l.line == line with
    | some l =>
      if Config.l1Parity s.tick line then
        l1Miss c w va dpa n x (s.modCl c fun y => { l1Drop y (128 * line) 128 with l1errs := y.l1errs + 1 })
      else .ok (s, (l.data.drop (dpa % 128)).take n)
    | none => l1Miss c w va dpa n x s
  else devRead w va dpa n x s

end Sys2Proof.Machine
end

