-- ==== Sys2Proof/Machine/Interlock.lean ====
section
/-! DEFINITION. The text-order interlock (R167) and the registers that a leading engine may not read yet
(R151): which places an instruction touches, and whether an engine behind still owes an earlier access to one
of them. What cannot be worked out before it issues counts as touching all memory (log 10). -/

namespace Sys2Proof.Machine

/-! ### Text -/

/-- The parcels at a text offset: the head, and the rest that its length names, through the agent's tables.
L1 serves no text (R118); text in a scratchpad waits while its line is owed (R17). The state is
returned with the TLBs as the fetch leaves them. Cause and address otherwise. -/
def fetchAt (w : Who) (t : Task) (off n : Nat) (s : State) : Except (BitVec 8 × Nat) (State × List Byte) :=
  let va := t.image.textVa + off
  match translate w va false true s with
  | .error c => .error (c, va)
  | .ok (s1, x) =>
    match x.tgt with
    | .dev dpa => (devRead w va dpa n { x with chk := false } s1).mapError fun c => (c, va)
    | .pinned d o =>
      match pinCause s1 d o n with
      | some e => .error (e, va)
      | none => .ok (s1, Mem.read (s1.die d).pinned o n)
    | .sram c o =>
      if away s1 w.ctx c || owedLine (s1.cl c) (o / 128) then .error (owedCause, va)
      else
        match rowsEcc c (linesOf o n) s1 with
        | none => .error (0xC0#8, va)
        | some s2 => .ok (s2, sramRead (s2.cl c) o n)
    | .window _ _ => .error (0x2C#8, va)
    | .host a => .ok (s1, hostRead s1 w.gang a n)

/-- The parcel at a text offset. -/
def fetchParcel (w : Who) (t : Task) (off : Nat) (s : State) : Except (BitVec 8 × Nat) (State × Parcel) :=
  match fetchAt w t off 4 s with
  | .error e => .error e
  | .ok (s1, bs) => .ok (s1, BitVec.ofNat 32 (leNat bs))

/-- A parcel that a PC holds, else as text memory has it (R35). -/
def heldParcel (held : KMap Parcel) (w : Who) (t : Task) (off : Nat) (s : State) : Except (BitVec 8 × Nat) (State × Parcel) :=
  match KMap.get? held off with
  | some p => .ok (s, p)
  | none => fetchParcel w t off s

/-- `n` parcels from a text offset, held or fetched. -/
def heldParcels (held : KMap Parcel) (w : Who) (t : Task) :
    Nat → Nat → State → Except (BitVec 8 × Nat) (State × List Parcel)
  | 0, _, s => .ok (s, [])
  | n + 1, off, s =>
    match heldParcel held w t off s with
    | .error e => .error e
    | .ok (s1, p) =>
      match heldParcels held w t n (off + 4) s1 with
      | .error e => .error e
      | .ok (s2, ps) => .ok (s2, p :: ps)

/-- The instruction at a text offset as a PC that holds `held` meets it, for looking ahead; none where it cannot be
read. -/
def peekInstr (held : KMap Parcel) (w : Who) (t : Task) (off : Nat) (s : State) : Option Instr :=
  match heldParcel held w t off s with
  | .error _ => none
  | .ok (_, h) =>
    match heldParcels held w t (parcelsOf (headLen h)) off s with
    | .error _ => none
    | .ok (_, ps) => (decode ps).toOption

/-- The tag at a text offset. -/
def peekTag (held : KMap Parcel) (w : Who) (t : Task) (off : Nat) (s : State) : Option Tag :=
  match heldParcel held w t off s with
  | .error _ => none
  | .ok (_, h) => some (headTag h)

/-! ### Names and pointers -/

/-- The shape entry that covers a vector name (Table 7.2). -/
def shapeOf (x : Cluster) (n : Nat) : Option Nat :=
  (x.vshp.map (·.2.toNat)).find? fun e => bit e 63 && bits e 26 16 ≤ n && n ≤ bits e 42 32

/-- The value of pointer `p` for a use at position `q`: that of the last `mtc` before it (R155). -/
def ptrVal (x : Cluster) (p q : Nat) : Nat :=
  ((((KMap.getD x.ptrs p []).filter fun v => v.1 ≤ q).getLast?).map (·.2.toNat)).getD 0

/-- The pointer after a use: OFFSET moved by `by_` modulo 2^22 (R153). -/
def ptrBump (v : Nat) (by_ : Int) : Nat := v / 4194304 * 4194304 + wrap 22 ((bits v 21 0 : Int) + by_)

/-- The lowest position at which something of the cluster may still use a pointer: a PC's, or that of a C instruction whose
follow-on is still to run (R155, R262). -/
def Cluster.minUse (x : Cluster) : Nat :=
  let owed (k : Cmd) : Bool := bits k.raw.toNat 56 56 == 1 && k.thr.isNone && k.follow != .done && k.follow != .failed
  ((x.cmds ++ x.kicks.map fun e => e.2.cmd).filter owed).foldl (fun d k => min d k.dp) x.minDp

/-- Versions of a pointer that a reader at position `d` or later can still see, oldest first. -/
def ptrPrune (d : Nat) : List (Nat × Word) → List (Nat × Word)
  | a :: b :: t => if b.1 ≤ d then ptrPrune d (b :: t) else a :: ptrPrune d (b :: t)
  | l => l

/-- Pointer `p` after a use at position `q` that moves it by `by_`; versions that nothing can still read are dropped: an engine
that `mtc` has taken the pointer from may have earlier uses to make (R155). -/
def ptrMove (x : Cluster) (p q : Nat) (by_ : Int) : Cluster :=
  let l := KMap.getD x.ptrs p []
  let v := ptrVal x p q
  let l1 := (l.filter fun u => u.1 ≤ q) ++ [(q, BitVec.ofNat 64 (ptrBump v by_))] ++ l.filter fun u => q < u.1
  { x with ptrs := KMap.set x.ptrs p (ptrPrune x.minUse l1) }

/-- STRIDE of a pointer (Table 7.1). -/
def ptrStride (v : Nat) : Int := sx 16 (bits v 59 44)

/-! ### Places -/

/-- A place that an access touches: a plain vector name, scratchpad lines `lo` to `hi - 1` of a cluster, a line of the
memory number `kind` that a page leads to, the lines whose virtual address has bits [15:7] = `low` where no page can be told,
any memory at all, or any place. -/
inductive Place where
  | name (n : Nat)
  | sram (cl lo hi : Nat)
  | mem (kind line : Nat)
  | dev (low : Nat)
  | any
  | whole
  deriving DecidableEq, Repr

/-- Whether two places may be one. Pages are at least 64 KiB, so bits [15:7] tell a virtual address's line
within any scratchpad bank or frame. -/
def Place.meets : Place → Place → Bool
  | .whole, _ => true
  | _, .whole => true
  | .name a, .name b => a == b
  | .name _, _ => false
  | _, .name _ => false
  | .any, _ => true
  | _, .any => true
  | .sram c a b, .sram d e f => c == d && decide (a < f) && decide (e < b)
  | .mem a b, .mem c d => a == c && b == d
  | .mem _ _, .sram .. => false
  | .sram .., .mem _ _ => false
  | .mem _ a, .dev b => a % 512 == b
  | .dev a, .mem _ b => a == b % 512
  | .dev a, .dev b => a == b
  | .sram _ a b, .dev l => (List.range (b - a)).any fun i => (a + i) % 512 == l
  | .dev l, .sram _ a b => (List.range (b - a)).any fun i => (a + i) % 512 == l

/-- The place of a virtual address of a context, as a cluster's tables give it: memories are numbered 0 for device memory,
1 to 4 for the dies' pinned spaces, 5 for the host's, 16 on for the windows. -/
def vaPlace (s : State) (ctx c a : Nat) : Place :=
  match findLeaf ⟨ctx, 0, 0, some c, some (dieOf c), false, true, c, true⟩ a s with
  | .error _ => .dev (bits a 15 7)
  | .ok (_, leaf, sh) =>
    match leafTarget leaf sh a with
    | .dev d => .mem 0 (d / 128)
    | .pinned k o => .mem (1 + k) (o / 128)
    | .sram k o => .sram k (o / 128) (o / 128 + 1)
    | .window h o => .mem (16 + h) (o / 128)
    | .host h => .mem 5 (h / 128)

/-- An access: its place and whether it writes. -/
abbrev Touch := Place × Bool

/-- Two accesses that must keep text order (R167). -/
def clash (a b : Touch) : Bool := (a.2 || b.2) && a.1.meets b.1

/-- A format word's storage slot in bits (R57). -/
def slotOfWord (w : Nat) : Nat :=
  match bits w 3 0 with
  | 0 | 4 => 8
  | 1 | 5 | 8 | 9 => 16
  | 2 | 6 | 10 => 32
  | 3 | 7 => 64
  | _ => if bits w 20 17 + bits w 16 13 + bits w 21 21 ≤ 4 then 4 else 8

/-- The format word of a bank as engine `e` sees it at its position (R66); the reset value is 0x9 (Table 3.4). -/
def bfmtAt (x : Cluster) (e : Eng) (bank : Nat) : Nat :=
  (verAt x.owedVers (.bfmt bank) (x.walk e).dp (KMap.getD x.bfmt bank 9#64)).toNat

/-- s[n] for engine `e` at its position (R151). -/
def sregAt (x : Cluster) (e : Eng) (n : Nat) : Word :=
  if n == 0 then 0#64 else verAt x.owedVers (.s n) (x.walk e).dp (KMap.getD x.sregs n 0#64)

/-- The lines of a run of `n` lanes at offset `off` of cluster `c`, whose formats are those of `x`. -/
def runPlace (x : Cluster) (e : Eng) (c off n : Nat) (col raw : Bool) : Place :=
  if col then .sram c (off / 8192 * 64) (off / 8192 * 64 + 64)
  else
    let z := if raw then 0 else slotOfWord (bfmtAt x e (off / 65536))
    let len := if raw then 128 else max 1 (n * z / 8)
    .sram c (off / 128) ((off + len - 1) / 128 + 1)

/-- The place of a memory operand; `known` says whether scalar registers may be read. -/
def memPlace (s : State) (x : Cluster) (c : Nat) (e : Eng) (known : Bool) (n : Nat) (col raw : Bool) : Opnd → List Place
  | .v _ _ => []
  | .p k =>
    let v := ptrVal x k.toNat (x.walk e).dp
    [runPlace x e c (bits v 21 0) n (bit v 60) raw]
  | .s k =>
    if known then
      match coord s ((x.task.map (·.ctx)).getD 0) c (sregAt x e k.toNat).toNat false with
      | .ok (d, off) => [runPlace (if d == c then x else s.cl d) e d off n col raw]
      | .error _ => []
    else [.any]

/-- The place of the device-memory line that s[k] names, or of two of them. -/
def vaPlaces (s : State) (x : Cluster) (c : Nat) (e : Eng) (known : Bool) (lines : Nat) : Opnd → List Place
  | .s k =>
    if known then
      let a := (sregAt x e k.toNat).toNat
      (List.range lines).map fun i => vaPlace s ((x.task.map (·.ctx)).getD 0) c (a + 128 * i)
    else [.any]
  | _ => []

/-- A plain vector name; queue names are not covered by the interlock. -/
def namePlace (x : Cluster) : Opnd → List Place
  | .v _ n => if (shapeOf x n.toNat).isSome then [] else [.name n.toNat]
  | _ => []

/-- A vector or stream operand of the A engine. -/
def opPlaces (s : State) (x : Cluster) (c : Nat) (n : Nat) (raw : Bool) (o : Opnd) : List Place :=
  match o with
  | .p _ => memPlace s x c .A true n false raw o
  | _ => namePlace x o

def rds (l : List Place) : List Touch := l.map fun p => (p, false)
def wrs (l : List Place) : List Touch := l.map fun p => (p, true)

/-- A unary, binary or ternary form of the A engine. -/
def aTouches (s : State) (x : Cluster) (c : Nat) (hd : VHead) (ds : List Opnd) (srcs : List Opnd) : List Touch :=
  let raw := hd.ty.isN
  wrs (ds.flatMap (opPlaces s x c hd.ty.lanes raw)) ++ rds (srcs.flatMap (opPlaces s x c hd.ty.lanes raw))

/-- The pattern line in scratchpad that s[C] names (R219). -/
def patPlace (s : State) (x : Cluster) (c : Nat) (e : Eng) (known : Bool) (o : Opnd) : List Place :=
  memPlace s x c e known 128 false true o

/-- Two lines from a row address (R219). -/
def twoLines : List Place → List Place
  | [.sram c lo _] => [.sram c lo (lo + 2)]
  | l => l

/-- The lines that a drain of `n` tiles writes from the line of its first run on: whole blocks by columns, runs of 64 slots
by rows (R258). -/
def drainPlace (s : State) (x : Cluster) (c n : Nat) (col : Bool) : Place → Place
  | .sram k lo hi =>
    if col then .sram k lo (lo + 64 * n)
    else
      let z := slotOfWord (bfmtAt (if k == c then x else s.cl k) .M (lo / 512))
      .sram k lo (max hi (lo + 4 * z * n + (if z < 16 then 1 else 0)))
  | q => q

/-- The slots of an instruction of the A engine: its type and tokens, destinations and sources. -/
def aSlots : Instr → Option (VHead × List Opnd × List Opnd)
  | .vmov hd d a => some (hd, [d], [a])
  | .vadd hd d a b => some (hd, [d], [a, b])
  | .vsub hd d a b => some (hd, [d], [a, b])
  | .vmul hd d a b => some (hd, [d], [a, b])
  | .vfma hd d a b c => some (hd, [d], [a, b, c])
  | .vfms hd d a b c => some (hd, [d], [a, b, c])
  | .vfnma hd d a b c => some (hd, [d], [a, b, c])
  | .vneg hd d a => some (hd, [d], [a])
  | .vabs hd d a => some (hd, [d], [a])
  | .vmin hd d a b => some (hd, [d], [a, b])
  | .vmax hd d a b => some (hd, [d], [a, b])
  | .vclamp hd d a b c => some (hd, [d], [a, b, c])
  | .vmulh hd d a b => some (hd, [d], [a, b])
  | .vavg hd d a b => some (hd, [d], [a, b])
  | .vabsd hd d a b => some (hd, [d], [a, b])
  | .vand hd d a b => some (hd, [d], [a, b])
  | .vor hd d a b => some (hd, [d], [a, b])
  | .vxor hd d a b => some (hd, [d], [a, b])
  | .vandn hd d a b => some (hd, [d], [a, b])
  | .vnot hd d a => some (hd, [d], [a])
  | .vshl hd d a b => some (hd, [d], [a, b])
  | .vshr hd d a b => some (hd, [d], [a, b])
  | .vsra hd d a b => some (hd, [d], [a, b])
  | .vclz hd d a => some (hd, [d], [a])
  | .vpopc hd d a => some (hd, [d], [a])
  | .vcmpeq hd d a b => some (hd, [d], [a, b])
  | .vcmpne hd d a b => some (hd, [d], [a, b])
  | .vcmplt hd d a b => some (hd, [d], [a, b])
  | .vcmple hd d a b => some (hd, [d], [a, b])
  | .vsel hd d a b c => some (hd, [d], [a, b, c])
  | .vmsk hd op d a b => some (hd, [d], match op with | .all | .none => [] | .not | .first => [a] | _ => [a, b])
  | .vcvt hd _ _ d a => some (hd, [d], [a])
  | .vrnd hd d a => some (hd, [d], [a])
  | .vexp hd d a => some (hd, [d], [a])
  | .vlog hd d a => some (hd, [d], [a])
  | .vrcp hd d a => some (hd, [d], [a])
  | .vrsqrt hd d a => some (hd, [d], [a])
  | .vtanh hd d a => some (hd, [d], [a])
  | .vredadd hd d a => some (hd, [d], [a])
  | .vredmax hd d a => some (hd, [d], [a])
  | .vredmin hd d a => some (hd, [d], [a])
  | .vscan hd _ op d e a b => if op == .affine then some (hd, [d, e], [a, b]) else some (hd, [d], [a])
  | .vscanc hd op d e a b c => if op == .affine then some (hd, [d, e], [a, b, c]) else some (hd, [d], [a, c])
  | .vperm hd d a b => some (hd, [d], [a, b])
  | .vrot hd d a b => some (hd, [d], [a, b])
  | .vshuf hd d a b c => some (hd, [d], [a, b, c])
  | .vcmpr hd d a b => some (hd, [d], [a, b])
  | .vexpd hd d a b => some (hd, [d], [a, b])
  | .vhash hd _ d a b => some (hd, [d], [a, b])
  | .vnft hd d a b => some (hd, [d], [a, b])
  | .vsplat hd d a => some (hd, [d], [a])
  | .viota hd d a => some (hd, [d], [a])
  | .vdup hd d a b => some (hd, [d], [a, b])
  | .vcnt hd d a => some (hd, [d], [a])
  | .vbfx hd _ _ d a _ => some (hd, [d], [a])
  | _ => none

/-- The accesses that instruction `i` makes when engine `e` of cluster `c` issues it. `known` says that the
scalar registers it reads are final; an instruction of S that is not the one S stands at is not known. -/
def touches (s : State) (x : Cluster) (c : Nat) (e : Eng) (known : Bool) (i : Instr) : List Touch :=
  match aSlots i with
  | some (hd, ds, srcs) =>
    match i with
    | .vbfx _ _ _ _ _ cc => aTouches s x c hd ds srcs ++ rds (patPlace s x c .A known cc)
    | _ => aTouches s x c hd ds srcs
  | none =>
    match i with
    | .vld hd d a => wrs (namePlace x d) ++ rds (memPlace s x c .L known hd.ty.lanes hd.mod.col hd.ty.isN a)
    | .vldbc hd d a => wrs (namePlace x d) ++ rds (memPlace s x c .L known 1 hd.mod.col false a)
    | .vldx _ d _ b => wrs (namePlace x d) ++ rds (namePlace x b) ++ rds [.any]
    | .vldb _ _ _ d a cc =>
      wrs (namePlace x d) ++ rds (twoLines (memPlace s x c .L known 128 false true a)) ++ rds (patPlace s x c .L known cc)
    | .vldg _ d a => wrs (namePlace x d) ++ rds (vaPlaces s x c .L known 1 a)
    | .vlds _ _ _ d a cc => wrs (namePlace x d) ++ rds (vaPlaces s x c .L known 2 a) ++ rds (patPlace s x c .L known cc)
    | .vldfl _ d a b => wrs (namePlace x d) ++ wrs (namePlace x b) ++ rds (vaPlaces s x c .L known 1 a)
    | .vst hd d a => wrs (memPlace s x c .W known hd.ty.lanes hd.mod.col hd.ty.isN d) ++ rds (namePlace x a)
    | .vstx _ _ a b => wrs [.any] ++ rds (namePlace x a) ++ rds (namePlace x b)
    | .vstb _ _ _ d a cc =>
      wrs (twoLines (memPlace s x c .W known 128 false true d)) ++ rds (namePlace x a) ++ rds (patPlace s x c .W known cc)
    | .vstg _ d a => wrs (vaPlaces s x c .W known 1 d) ++ rds (namePlace x a)
    | .vsts _ _ _ d a cc => wrs (vaPlaces s x c .W known 2 d) ++ rds (namePlace x a) ++ rds (patPlace s x c .W known cc)
    | .vstm hd d a b =>
      wrs (memPlace s x c .W known hd.ty.lanes hd.mod.col hd.ty.isN d) ++ rds (namePlace x a) ++ rds (namePlace x b)
    | .vstc _ d a b =>
      wrs (twoLines (memPlace s x c .W known 128 false true d)) ++ rds (namePlace x a) ++ rds (namePlace x b)
    | .vbr hd _ _ a _ => if e == .A then rds (opPlaces s x c hd.lanes true a) else []
    | .mfill _ _ _ a _ =>
      rds ((memPlace s x c .M known 64 true false a).map fun p =>
        match p with
        | .sram d lo _ => .sram d (lo / 64 * 64) (lo / 64 * 64 + 64)
        | q => q)
    | .mdrain hd _ d =>
      let col := match d with | .p k => bit (ptrVal x k.toNat (x.walk .M).dp) 60 | _ => hd.mod.col
      wrs ((memPlace s x c .M known 64 hd.mod.col false d).map (drainPlace s x c (x.grove.h * x.grove.w) col))
    | .mgx _ _ _ _ _ _ cc =>
      rds [.any] ++ rds (match cc with
        | .v _ n => (List.range x.grove.h).map fun r => .name (n.toNat + r)
        | o => memPlace s x c .M known 128 false true o)
    | .mgrp .. => rds [.any]
    | .sigchk n => rds [.sram c ((x.sigtab.toNat + 32 * n.toNat) % 4194304 / 128) ((x.sigtab.toNat + 32 * n.toNat) % 4194304 / 128 + 1)]
    | .mmov _ _ d _ => wrs (namePlace x d)
    | .mrd _ _ d _ => wrs (namePlace x d)
    | .ld .. | .ldLong .. | .ldg .. | .ldgLong .. => rds [.any]
    | .st .. | .stLong .. | .stg .. | .stgLong .. => wrs [.any]
    | .ecopy .. | .egath .. | .escat .. => wrs [.whole]
    | .eacc .. | .emark .. | .eroute .. | .ebatch .. | .eldred .. | .egroup ..
    | .ecarry .. | .ecoll .. | .eget .. | .eput .. | .emcast .. | .eappend .. | .ebexp .. | .efset .. => wrs [.any]
    | _ => []

/-- The exact accesses of an S instruction of an agent of cluster `c`, whose registers `r` reads and whose predicates
`holds` tells: a scalar load or store, the template of `ebexp`, the table entry of `sigchk`. A false-predicated instruction
makes none (R30). -/
def scalarAccess (s : State) (ctx c : Nat) (r : Reg → Word) (holds : Pred → Bool) (i : Instr) : List Touch :=
  let at_ (b : Bool) (virt : Bool) (a : Word) : List Touch :=
    if virt then [(vaPlace s ctx c a.toNat, b)]
    else
      match coord s ctx c a.toNat false with
      | .ok (d, off) => [(.sram d (off / 128) (off / 128 + 1), b)]
      | .error _ => []
  let ri (o : RegOrImm) : Word := match o with | .reg n => r n | .imm v => sext32 v
  match i with
  | .ld t _ a o => at_ false false (r a + BitVec.ofNat 64 (o.toNat * (t.bits / 8)))
  | .st t _ a o => at_ true false (r a + BitVec.ofNat 64 (o.toNat * (t.bits / 8)))
  | .ldg t _ a o => at_ false true (r a + BitVec.ofNat 64 (o.toNat * (t.bits / 8)))
  | .stg t _ a o => at_ true true (r a + BitVec.ofNat 64 (o.toNat * (t.bits / 8)))
  | .ldLong p _ _ a o => if holds p then at_ false false (r a + ri o) else []
  | .stLong p _ _ a o => if holds p then at_ true false (r a + ri o) else []
  | .ldgLong p _ _ a o => if holds p then at_ false true (r a + ri o) else []
  | .stgLong p _ _ a o => if holds p then at_ true true (r a + ri o) else []
  | .ebexp p _ a _ _ _ _ => if holds p then at_ false false (r a) else []
  | .sigchk n => at_ false false ((s.cl c).sigtab + BitVec.ofNat 64 (32 * n.toNat))
  | _ => []

/-- The exact accesses of the S instruction that the S PC stands at. -/
def scalarTouches (s : State) (x : Cluster) (c : Nat) (i : Instr) : List Touch :=
  scalarAccess s ((x.task.map (·.ctx)).getD 0) c (fun n => sregAt x .S n.toNat)
    (fun p => (x.preds ||| 1#16).getLsbD p.k.toNat != p.neg) i

/-- The stream operands of an instruction with the number of bytes each use moves it by; none where a use
moves by an amount that depends on data (R153, R216). -/
def streamOps : Instr → List Opnd
  | .vld _ _ a => [a]
  | .vldx _ _ a _ => [a]
  | .vldb _ _ _ _ a _ => [a]
  | .vldbc _ _ a => [a]
  | .vst _ d _ => [d]
  | .vstx _ d _ _ => [d]
  | .vstb _ _ _ d _ _ => [d]
  | .vstm _ d _ _ => [d]
  | .vstc _ d _ _ => [d]
  | .vbr _ _ _ a _ => [a]
  | .mdrain _ _ d => [d]
  | .mfill _ _ _ a _ => [a]
  | .mgx _ _ _ _ _ _ c => [c]
  | i => match aSlots i with
    | some (_, ds, srcs) => ds ++ srcs
    | none => []

/-- The cluster as it will stand for engine `e` after it has passed `i` at position `q`, as far as stream
pointers go. -/
def passPointers (x : Cluster) (e : Eng) (q : Nat) (i : Instr) : Cluster :=
  let n := match i with
    | .mgx .. => x.grove.h
    | _ => 1
  (streamOps i).foldl (fun y o => match o with
    | .p k => ptrMove y k.toNat q (n * ptrStride (ptrVal y k.toNat q))
    | _ => y) (x.setWalk e { x.walk e with dp := q + 1 })

/-- Whether the places of later accesses cannot be told before the instruction has executed: a pointer moves by an amount
that depends on data, or the grove changes. -/
def blurs : Instr → Bool
  | .vstc _ d _ _ => d.isP
  | .mshape .. => true
  | _ => false

/-- An access of an instruction after one that `blurs`. -/
def blurred (i : Instr) (p : Touch) : Touch :=
  match i, p.1 with
  | .mgx .., _ => (.whole, p.2)
  | _, .whole => (.whole, p.2)
  | _, .name n => (.name n, p.2)
  | _, _ => (.any, p.2)

def engOfTag : Tag → Option Eng
  | .S | .C | .K => some .S
  | .L => some .L | .A => some .A | .W => some .W | .M => some .M
  | .X => none

/-- Whether a follow-on that gives the cluster another grove is still to run (R262). -/
def reshapeOwed (x : Cluster) : Bool :=
  x.cmds.any fun c => c.follow == .owed && match decode ((List.range 6).map fun i => BitVec.ofNat 32 (bits c.raw.toNat 959 768 >>> (32 * i))) with
    | .ok (.mshape ..) => true
    | _ => false

/-- Whether PC `f` makes accesses at an instruction of tag `t`: its own, and those of the X instructions that it executes
(R23). -/
def makes (f : Eng) (t : Tag) : Bool := t == .X || engOfTag t == some f

/-- The accesses that engine `f`, behind position `q`, still owes before `q`. -/
def owedTouches (s : State) (c : Nat) (w : Who) (t : Task) (f : Eng) (q : Nat) : List Touch :=
  let x := s.cl c
  let ahead := x.trail.filter fun e => (x.walk f).dp ≤ e.1 && e.1 < q
  (ahead.foldl (fun (acc : Cluster × Bool × List Touch) e =>
    match peekInstr (x.walk f).text w t e.2 s, peekTag (x.walk f).text w t e.2 s with
    | some i, some g =>
      if makes f g then
        let y := acc.1.setWalk f { acc.1.walk f with dp := e.1 }
        let first := e.1 == (x.walk f).dp
        let exact := if f == .S && first then scalarTouches s x c i else []
        let ts :=
          if !exact.isEmpty then exact
          else if acc.2.1 then (touches s y c f false i).map (blurred i)
          else touches s y c f (f != .S && e.1 ≤ x.wS.dp) i
        (if g == .X && f != .A then y else passPointers y f e.1 i, acc.2.1 || blurs i, acc.2.2 ++ ts)
      else acc
    | _, some g => if makes f g then (acc.1, true, acc.2.2 ++ [(.any, true)]) else acc
    | _, none => acc) (x, f == .M && reshapeOwed x, [])).2.2

/-- Whether engine `e`, at its position, must let an engine behind perform an earlier access first (R167). -/
def interlocked (s : State) (c : Nat) (w : Who) (t : Task) (e : Eng) (i : Instr) : Bool :=
  let x := s.cl c
  let mine := if e == .S then scalarTouches s x c i else touches s x c e true i
  if mine.isEmpty then false
  else
    engines.any fun f =>
      f != e && decide ((x.walk f).dp < (x.walk e).dp)
        && (owedTouches s c w t f (x.walk e).dp).any fun o => mine.any fun m => clash m o

/-! ### Scalar registers that S has still to write -/

/-- The scalar register that an S or C instruction writes. -/
def destReg : Instr → Option Reg
  | .add d _ _ => some d
  | .addLong _ d _ _ => some d
  | .sub d _ _ => some d
  | .subLong _ d _ _ => some d
  | .mul d _ _ => some d
  | .mulLong _ d _ _ => some d
  | .mulh d _ _ => some d
  | .mulhLong _ d _ _ => some d
  | .mulhn d _ _ => some d
  | .mulhnLong _ d _ _ => some d
  | .div d _ _ => some d
  | .divLong _ d _ _ => some d
  | .divn d _ _ => some d
  | .divnLong _ d _ _ => some d
  | .rem d _ _ => some d
  | .remLong _ d _ _ => some d
  | .remn d _ _ => some d
  | .remnLong _ d _ _ => some d
  | .and d _ _ => some d
  | .andLong _ d _ _ => some d
  | .or d _ _ => some d
  | .orLong _ d _ _ => some d
  | .xor d _ _ => some d
  | .xorLong _ d _ _ => some d
  | .shl d _ _ => some d
  | .shlLong _ d _ _ => some d
  | .shr d _ _ => some d
  | .shrLong _ d _ _ => some d
  | .sra d _ _ => some d
  | .sraLong _ d _ _ => some d
  | .min d _ _ => some d
  | .minLong _ d _ _ => some d
  | .max d _ _ => some d
  | .maxLong _ d _ _ => some d
  | .minn d _ _ => some d
  | .minnLong _ d _ _ => some d
  | .maxn d _ _ => some d
  | .maxnLong _ d _ _ => some d
  | .clz d _ => some d
  | .clzLong _ d _ => some d
  | .popc d _ => some d
  | .popcLong _ d _ => some d
  | .sext _ d _ => some d
  | .sextLong _ _ d _ => some d
  | .andn d _ _ => some d
  | .andnLong _ d _ _ => some d
  | .addi d _ _ => some d
  | .addiLong _ d _ _ => some d
  | .andi d _ _ => some d
  | .andiLong _ d _ _ => some d
  | .ori d _ _ => some d
  | .oriLong _ d _ _ => some d
  | .xori d _ _ => some d
  | .xoriLong _ d _ _ => some d
  | .shli d _ _ => some d
  | .shliLong _ d _ _ => some d
  | .shri d _ _ => some d
  | .shriLong _ d _ _ => some d
  | .srai d _ _ => some d
  | .sraiLong _ d _ _ => some d
  | .li d _ => some d
  | .liLong _ d _ => some d
  | .liHi _ d _ => some d
  | .kget d => some d
  | .ld _ d _ _ => some d
  | .ldLong _ _ d _ _ => some d
  | .ldg _ d _ _ => some d
  | .ldgLong _ _ d _ _ => some d
  | .mfc d _ => some d
  | .cid d => some d
  | .cidLong _ d => some d
  | .nearad d _ _ => some d
  | .nearadLong _ d _ _ => some d
  | .clad d _ _ => some d
  | .cladLong _ d _ _ => some d
  | .wlpop d _ => some d
  | .ecopy _ d _ _ _ _ _ => some d
  | .egath _ d _ _ _ _ _ => some d
  | .escat _ d _ _ _ _ _ => some d
  | .eacc _ d _ _ _ _ _ => some d
  | .emark _ d _ _ _ _ _ => some d
  | .earm _ d _ _ => some d
  | .eroute _ d _ _ _ _ _ => some d
  | .ebatch _ d _ _ _ _ _ => some d
  | .eldred _ d _ _ _ _ _ => some d
  | .egroup _ d _ _ _ _ _ => some d
  | .ecarry _ d _ _ _ _ _ => some d
  | .ecoll _ d _ _ _ _ _ => some d
  | .eget _ d _ _ _ _ _ => some d
  | .eput _ d _ _ _ _ _ => some d
  | .emcast _ d _ _ _ _ _ => some d
  | .eappend _ d _ _ _ _ _ => some d
  | .ebexp _ d _ _ _ _ _ => some d
  | .ecancel _ d _ => some d
  | .estat _ d _ => some d
  | .efset _ d _ _ _ _ _ => some d
  | _ => none

/-- The scalar registers that an L, A, W or M instruction reads through operands of kind 0b10 (R151). -/
def scalarOps (i : Instr) : List Nat :=
  let of_ (l : List Opnd) : List Nat := l.filterMap fun o => match o with | .s n => some n.toNat | _ => none
  match aSlots i with
  | some (_, _, srcs) =>
    match i with
    | .vbfx _ _ _ _ _ cc => of_ (cc :: srcs)
    | _ => of_ srcs
  | none =>
    match i with
    | .vld _ _ a | .vldx _ _ a _ | .vldg _ _ a | .vldbc _ _ a | .vpref _ a | .vldfl _ _ a _ => of_ [a]
    | .vldb _ _ _ _ a cc | .vlds _ _ _ _ a cc => of_ [a, cc]
    | .vst _ d _ | .vstx _ d _ _ | .vstg _ d _ | .vstm _ d _ _ | .vstc _ d _ _ => of_ [d]
    | .vstb _ _ _ d _ cc | .vsts _ _ _ d _ cc => of_ [d, cc]
    | .mgx _ _ _ _ _ a _ => of_ [a]
    | .mgrp _ _ _ _ a b _ _ _ => of_ [a, b]
    | .mshape _ a => of_ [a]
    | .mdrain _ _ d => of_ [d]
    | .mmov _ _ _ a => of_ [a]
    | .mfill _ _ _ a b => of_ [a, b]
    | .mrd _ _ _ a => of_ [a]
    | _ => []

/-- Whether S has still to pass an earlier write of a register that `i`, at engine `e`'s position, reads. -/
def awaitsScalar (s : State) (c : Nat) (w : Who) (t : Task) (e : Eng) (i : Instr) : Bool :=
  let x := s.cl c
  let ns := scalarOps i
  if ns.isEmpty then false
  else
    (x.trail.filter fun p => x.wS.dp ≤ p.1 && p.1 < (x.walk e).dp).any fun p =>
      match peekInstr x.wS.text w t p.2 s with
      | some j => ((destReg j).map fun r => ns.contains r.toNat).getD false
      | none => (peekTag x.wS.text w t p.2 s).bind engOfTag == some .S

end Sys2Proof.Machine
end

