-- ==== Sys2Proof/Machine/Num.lean ====
section
/-! DEFINITION. Number formats, exact values, conversion and rounding, and the reference algorithms (chapter 3).
A finite value is held exactly as a sign, a mantissa and a power of two; quotients and roots keep enough bits
and a mark for what lies below them, so that every rounding of them is exact. -/

namespace Sys2Proof.Machine

/-! ### Formats (R51 to R56, Table 3.1) -/

/-- Special-value policies (R55). -/
inductive Pol where
  | ieee | finiteNan | finiteSat
  deriving DecidableEq, Repr, Inhabited

/-- A format: sign width, exponent width, mantissa width, bias, policy. Integers have exponent width 0. -/
structure Fmt where
  s : Bool
  e : Nat
  m : Nat
  b : Nat
  pol : Pol
  deriving DecidableEq, Repr, Inhabited

def Fmt.f32 : Fmt := ⟨true, 8, 23, 127, .ieee⟩
def Fmt.bf16 : Fmt := ⟨true, 8, 7, 127, .ieee⟩
def Fmt.f16 : Fmt := ⟨true, 5, 10, 15, .ieee⟩
def Fmt.int (w : Nat) : Fmt := ⟨true, 0, w - 1, 0, .finiteSat⟩
def Fmt.nat (w : Nat) : Fmt := ⟨false, 0, w, 0, .finiteSat⟩

/-- Bits of a code. -/
def Fmt.width (f : Fmt) : Nat := (if f.s then 1 else 0) + f.e + f.m

/-- The format of a lane type; `.nf` holds raw bytes. -/
def fmtTy : Ty → Fmt
  | .n8 | .nf => Fmt.nat 8
  | .n16 => Fmt.nat 16
  | .n32 => Fmt.nat 32
  | .n64 => Fmt.nat 64
  | .i8 => Fmt.int 8
  | .i16 => Fmt.int 16
  | .i32 => Fmt.int 32
  | .i64 => Fmt.int 64
  | .f16 => Fmt.f16
  | .bf16 => Fmt.bf16
  | .f32 => Fmt.f32

/-- The format that a format word names (Table 3.4). -/
def fmtOfWord (w : Nat) : Fmt :=
  match bits w 3 0 with
  | 0 => Fmt.nat 8 | 1 => Fmt.nat 16 | 2 => Fmt.nat 32 | 3 => Fmt.nat 64
  | 4 => Fmt.int 8 | 5 => Fmt.int 16 | 6 => Fmt.int 32 | 7 => Fmt.int 64
  | 8 => Fmt.f16 | 9 => Fmt.bf16 | 10 => Fmt.f32
  | _ =>
    let e := bits w 20 17
    let pol := match bits w 23 22 with
      | 0 => Pol.ieee | 1 => Pol.finiteNan | _ => Pol.finiteSat
    if e == 0 then ⟨bit w 21, 0, bits w 16 13, 0, .finiteSat⟩ else ⟨bit w 21, e, bits w 16 13, bits w 31 24, pol⟩

/-- The storage slot of an element of format word `w`, in bits (R57). -/
def slotBits (w : Nat) : Nat :=
  match bits w 3 0 with
  | 0 | 4 => 8
  | 1 | 5 | 8 | 9 => 16
  | 2 | 6 | 10 => 32
  | 3 | 7 => 64
  | _ => if bits w 20 17 + bits w 16 13 + bits w 21 21 ≤ 4 then 4 else 8

/-- The conditions of R59 and R55 on a format word; a word that breaks one raises 0x09. -/
def fmtWordOk (w : Nat) : Bool :=
  let code := bits w 3 0
  let s := bits w 21 21
  let e := bits w 20 17
  let m := bits w 16 13
  let polOk :=
    match bits w 23 22 with
    | 0 => 2 ≤ e && 1 ≤ m
    | 1 => 1 ≤ e && 2 ≤ e + m
    | 2 => true
    | _ => false
  decide (w < 2 ^ 32) && decide (code ≤ 11) && bits w 12 4 == 0
    && (if code == 11 then 1 ≤ s + e + m && s + e + m ≤ 8 && e ≤ 8 && m ≤ 8 && polOk else bits w 31 13 == 0)

/-! ### Values -/

/-- A decoded value: NaN, an infinity, or (-1)^neg · m · 2^e, with `more` where the true magnitude lies
strictly between m · 2^e and (m + 1) · 2^e. -/
inductive Val where
  | nan
  | inf (neg : Bool)
  | num (neg : Bool) (m : Nat) (e : Int) (more : Bool)
  deriving DecidableEq, Repr, Inhabited

def Val.zero (neg : Bool) : Val := .num neg 0 0 false

/-- A signed mantissa as a value; an exact zero has the sign `z`. -/
def Val.ofInt (v : Int) (e : Int) (z : Bool) : Val :=
  if v == 0 then .zero z else .num (decide (v < 0)) v.natAbs e false

def Val.isNan : Val → Bool
  | .nan => true
  | _ => false

def Val.isInf : Val → Bool
  | .inf _ => true
  | _ => false

def Val.isZero : Val → Bool
  | .num _ m _ more => m == 0 && !more
  | _ => false

def Val.neg? : Val → Bool
  | .nan => false
  | .inf n => n
  | .num n _ _ _ => n

/-- The value with its sign inverted; NaN stays. -/
def Val.negate : Val → Val
  | .nan => .nan
  | .inf n => .inf !n
  | .num n m e x => .num (!n) m e x

def Val.abs : Val → Val
  | .nan => .nan
  | .inf _ => .inf false
  | .num _ m e x => .num false m e x

/-- Floor of log2 of a non-zero magnitude. -/
def magLog (m : Nat) (e : Int) : Int := (Nat.log2 m : Int) + e

/-- The signed mantissa of a finite value at the exponent `e0`, which is at most its own. -/
def scaledInt (neg : Bool) (m : Nat) (e e0 : Int) : Int :=
  let k : Int := (m <<< (e - e0).toNat : Nat)
  if neg then -k else k

/-! ### decode (R54, R55) -/

/-- The largest magnitude code of a floating format that is finite. -/
def Fmt.maxCode (f : Fmt) : Nat :=
  match f.pol with
  | .ieee => (2 ^ f.e - 1) * 2 ^ f.m - 1
  | .finiteNan => 2 ^ (f.e + f.m) - 2
  | .finiteSat => 2 ^ (f.e + f.m) - 1

/-- A magnitude code of a floating format as mantissa and exponent. -/
def Fmt.mag (f : Fmt) (c : Nat) : Nat × Int :=
  let ef := c / 2 ^ f.m
  let mf := c % 2 ^ f.m
  if ef == 0 then (mf, (1 : Int) - f.b - f.m) else (2 ^ f.m + mf, (ef : Int) - f.b - f.m)

/-- decode(f, c). -/
def decodeVal (f : Fmt) (c0 : Nat) : Val :=
  let c := c0 % 2 ^ f.width
  if f.e == 0 then
    if f.s then .ofInt (sx (f.m + 1) c) 0 false else .ofInt (c : Int) 0 false
  else
    let neg := f.s && c.testBit (f.e + f.m)
    let mag := c % 2 ^ (f.e + f.m)
    let special := f.maxCode < mag
    if special then
      match f.pol with
      | .ieee => if mag % 2 ^ f.m == 0 then .inf neg else .nan
      | _ => .nan
    else
      let p := f.mag mag
      .num neg p.1 p.2 false

/-! ### Rounding (R63, R64) -/

/-- A rounding mode; a stochastic one carries the 16 bits drawn for the element. -/
inductive Rm where
  | rne | zero | down | up
  | stoch (u : Nat)
  deriving DecidableEq, Repr, Inhabited

/-- The multiples of 2^q next to a magnitude, in units of 2^q: the choice of R63 and R64. `more` requires that
q lies at least 16 above e. -/
def roundUnits (neg : Bool) (m : Nat) (e : Int) (more : Bool) (q : Int) (rm : Rm) : Nat :=
  if q ≤ e then m <<< (e - q).toNat
  else
    let d := (q - e).toNat
    let lo := m >>> d
    let r := m % 2 ^ d
    if r == 0 && !more then lo
    else
      let half := 2 ^ (d - 1)
      match rm with
      | .rne => if half < r || (r == half && (more || lo % 2 == 1)) then lo + 1 else lo
      | .zero => lo
      | .down => if neg then lo + 1 else lo
      | .up => if neg then lo else lo + 1
      | .stoch u => if u < r * 65536 / 2 ^ d then lo + 1 else lo

/-- overflow_to_inf of R60. -/
def overflowToInf (rm : Rm) (neg : Bool) : Bool :=
  match rm with
  | .rne | .stoch _ => true
  | .up => !neg
  | .down => neg
  | .zero => false

/-! ### encode (R60, R61) -/

def Fmt.hasNan (f : Fmt) : Bool := f.e != 0 && f.pol != .finiteSat

/-- The canonical NaN of a format that has one. -/
def Fmt.qnan (f : Fmt) : Nat :=
  match f.pol with
  | .ieee => (2 ^ f.e - 1) * 2 ^ f.m + 2 ^ (f.m - 1)
  | _ => 2 ^ (f.e + f.m) - 1

def Fmt.signBit (f : Fmt) (neg : Bool) : Nat := if neg && f.s then 2 ^ (f.e + f.m) else 0

/-- inf(f, s). -/
def Fmt.infCode (f : Fmt) (neg : Bool) : Nat := f.signBit neg + (2 ^ f.e - 1) * 2 ^ f.m

/-- maxfin(f, s), for integers the largest or the smallest. -/
def Fmt.maxFin (f : Fmt) (neg : Bool) : Nat :=
  if f.e == 0 then
    if neg then (if f.s then 2 ^ f.m else 0) else 2 ^ f.m - 1
  else f.signBit neg + f.maxCode

/-- encode of an integer format: saturating. -/
def encodeInt (f : Fmt) (neg : Bool) (m : Nat) (e : Int) (more : Bool) (rm : Rm) : Nat :=
  let u := roundUnits neg m e more 0 rm
  if neg then
    if !f.s then 0 else if 2 ^ f.m < u then 2 ^ f.m else (2 ^ (f.m + 1) - u) % 2 ^ (f.m + 1)
  else if 2 ^ f.m - 1 < u then 2 ^ f.m - 1
  else u

/-- encode of a finite value in a floating format. -/
def encodeFlt (f : Fmt) (neg : Bool) (m : Nat) (e : Int) (more : Bool) (rm : Rm) (sat : Bool) : Nat :=
  if m == 0 && !more then f.signBit neg
  else
    let emin : Int := 1 - (f.b : Int)
    let q : Int := max (magLog m e) emin - f.m
    let u := roundUnits neg m e more q rm
    let code := (q - emin + f.m).toNat * 2 ^ f.m + u
    if f.maxCode < code then
      if sat || f.pol == .finiteSat then f.maxFin neg
      else if overflowToInf rm neg then
        if f.pol == .ieee then f.infCode neg else f.qnan
      else f.maxFin neg
    else f.signBit neg + code

/-- encode(f, x, rm, sat, key), the key's draw held by the mode. -/
def encodeVal (f : Fmt) (x : Val) (rm : Rm) (sat : Bool) : Nat :=
  let below := match x with
    | .inf n => n
    | .num n m _ more => n && (m != 0 || more)
    | .nan => false
  match x with
  | .nan => if f.hasNan then f.qnan else 0
  | _ =>
    if below && !f.s then (if !f.hasNan || sat then 0 else f.qnan)
    else
      match x with
      | .nan => 0
      | .inf n =>
        if f.e == 0 then f.maxFin n
        else if f.pol == .ieee && !sat then f.infCode n
        else if f.pol == .finiteNan && !sat then f.qnan
        else f.maxFin n
      | .num n m e more => if f.e == 0 then encodeInt f n m e more rm else encodeFlt f n m e more rm sat

/-- A conversion of a code (R62): equal formats pass the bits unchanged. -/
def convert (src dst : Fmt) (rm : Rm) (sat : Bool) (c : Nat) : Nat :=
  if src == dst then c % 2 ^ src.width else encodeVal dst (decodeVal src c) rm sat

/-! ### Stochastic draws (R64) -/

def mix (z0 : Word) : Word :=
  let z1 := (z0 ^^^ (z0 >>> 30)) * 0xBF58476D1CE4E5B9#64
  let z2 := (z1 ^^^ (z1 >>> 27)) * 0x94D049BB133111EB#64
  z2 ^^^ (z2 >>> 31)

/-- draw(key)[63:48]. -/
def draw (rseed : Word) (stream n i : Nat) : Nat :=
  let z := mix (mix (rseed ^^^ (BitVec.ofNat 64 stream <<< 60) ^^^ BitVec.ofNat 64 n) ^^^ BitVec.ofNat 64 i)
  (z >>> 48).toNat

/-- A mode code of R32, with the draw for a stochastic one. -/
def rmOfCode (code : Nat) (u : Nat) : Rm :=
  match code with
  | 0 => .rne | 1 => .zero | 2 => .down | 3 => .up | _ => .stoch u

/-! ### Exact arithmetic -/

/-- The sum of two values; a sum of zero is positive but for two negative zeros or rounding down (R69). -/
def Val.add (rm : Rm) (a b : Val) : Val :=
  match a, b with
  | .nan, _ => .nan
  | _, .nan => .nan
  | .inf m, .inf n => if m == n then .inf m else .nan
  | .inf m, _ => .inf m
  | _, .inf n => .inf n
  | .num na ma ea _, .num nb mb eb _ =>
    let e0 := min ea eb
    .ofInt (scaledInt na ma ea e0 + scaledInt nb mb eb e0) e0
      (if ma == 0 && mb == 0 && na == nb then na else rm == .down)

def Val.mul (a b : Val) : Val :=
  match a, b with
  | .nan, _ => .nan
  | _, .nan => .nan
  | .inf m, .inf n => .inf (m != n)
  | .inf m, .num n mb _ _ => if mb == 0 then .nan else .inf (m != n)
  | .num m ma _ _, .inf n => if ma == 0 then .nan else .inf (m != n)
  | .num na ma ea _, .num nb mb eb _ => .num (na != nb) (ma * mb) (ea + eb) false

/-- a·b + c, exact. -/
def Val.fma (rm : Rm) (a b c : Val) : Val := (a.mul b).add rm c

/-- a / b, to 100 bits below the divisor's and a mark for the rest. -/
def Val.div (a b : Val) : Val :=
  match a, b with
  | .nan, _ => .nan
  | _, .nan => .nan
  | .inf _, .inf _ => .nan
  | .inf m, .num n _ _ _ => .inf (m != n)
  | .num m _ _ _, .inf n => .zero (m != n)
  | .num na ma ea _, .num nb mb eb _ =>
    if mb == 0 then (if ma == 0 then .nan else .inf (na != nb))
    else if ma == 0 then .zero (na != nb)
    else
      let k := 100 + Nat.log2 mb
      let t := ma <<< k
      .num (na != nb) (t / mb) (ea - eb - k) (t % mb != 0)

/-- 1/x with the special cases of R72. -/
def Val.recip (x : Val) : Val := (Val.num false 1 0 false).div x

/-- 1/√x with the special cases of R72. -/
def Val.rsqrt (x : Val) : Val :=
  match x with
  | .nan => .nan
  | .inf true => .nan
  | .inf false => .zero false
  | .num n m e _ =>
    if m == 0 then .inf n
    else if n then .nan
    else
      let k0 := 200 + 2 * Nat.log2 m
      let k := if ((k0 : Int) + e) % 2 == 0 then k0 else k0 + 1
      let t := 2 ^ k / m
      let r := isqrtBits (Nat.log2 t / 2 + 2) t 0
      .num false r (-(((k : Int) + e) / 2)) (2 ^ k % m != 0 || r * r != t)

/-- a < b for values that are not NaN. -/
def Val.lt (a b : Val) : Bool :=
  match a, b with
  | .nan, _ => false
  | _, .nan => false
  | .inf true, .inf true => false
  | .inf true, _ => true
  | .inf false, _ => false
  | _, .inf n => !n
  | .num na ma ea _, .num nb mb eb _ =>
    let e0 := min ea eb
    scaledInt na ma ea e0 < scaledInt nb mb eb e0

/-- Equality of values; NaN equals nothing and the zeros are equal. -/
def Val.eq (a b : Val) : Bool := !a.isNan && !b.isNan && !a.lt b && !b.lt a

def Val.le (a b : Val) : Bool := !a.isNan && !b.isNan && !b.lt a

/-- The larger value, +0 above -0, NaN where either is NaN (R73). -/
def Val.max (a b : Val) : Val :=
  if a.isNan || b.isNan then .nan
  else if a.lt b then b
  else if b.lt a then a
  else if a.neg? then b else a

/-- The smaller value, -0 below +0. -/
def Val.min (a b : Val) : Val :=
  if a.isNan || b.isNan then .nan
  else if a.lt b then a
  else if b.lt a then b
  else if a.neg? then a else b

/-! ### Tile steps (R69 to R71) -/

/-- step(acc, terms, rm): FP32 codes of the accumulator before and after. -/
def tileStep (acc : Val) (ts : List Val) (rm : Rm) : Nat :=
  let all := acc :: ts
  if all.any Val.isNan || (all.any (fun v => v == .inf true) && all.any (fun v => v == .inf false)) then Fmt.f32.qnan
  else if all.any (fun v => v == .inf true) then Fmt.f32.infCode true
  else if all.any (fun v => v == .inf false) then Fmt.f32.infCode false
  else
    let e0 := all.foldl (fun e v => match v with | .num _ _ x _ => min e x | _ => e) 0
    let sum := all.foldl (fun (t : Int) v => match v with | .num n m x _ => t + scaledInt n m x e0 | _ => t) 0
    encodeVal Fmt.f32 (.ofInt sum e0 ((all.all fun v => v.isZero && v.neg?) || rm == .down)) rm false

/-- An integer step: the exact sum, saturated (R71). -/
def intStep (acc : Int) (ts : List Int) : Int :=
  let s := ts.foldl (· + ·) acc
  max (-2147483648) (min 2147483647 s)

/-! ### FP32 operations of the reference algorithms (R72) -/

def val32 (c : Nat) : Val := decodeVal Fmt.f32 c

/-- Rounded to FP32 once, to nearest even. -/
def r32 (x : Val) : Val := val32 (encodeVal Fmt.f32 x .rne false)

def add32 (a b : Val) : Val := r32 (a.add .rne b)
def mul32 (a b : Val) : Val := r32 (a.mul b)
def div32 (a b : Val) : Val := r32 (a.div b)
def fma32 (a b c : Val) : Val := r32 (a.fma .rne b c)

def one32 : Val := val32 0x3F800000

/-- x · 2^n, exactly. -/
def Val.scale (x : Val) (n : Int) : Val :=
  match x with
  | .num s m e t => .num s m (e + n) t
  | v => v

/-- The nearest integer, ties to even. -/
def rneInt (x : Val) : Int :=
  match x with
  | .num n m e t => let u : Int := roundUnits n m e t 0 .rne; if n then -u else u
  | _ => 0

/-- exp_ref. -/
def expRef (x : Val) : Val :=
  if x.isNan then .nan
  else if (Val.ofInt 89 0 false).lt x then .inf false
  else if x.lt (Val.ofInt (-104) 0 false) then .zero false
  else
    let n := rneInt (mul32 x (val32 0x3FB8AA3B))
    let nn := Val.ofInt (-n) 0 false
    let r1 := fma32 nn (val32 0x3F317200) x
    let r := fma32 nn (val32 0x35BFBE8E) r1
    let p1 := fma32 r (val32 0x3AB60B61) (val32 0x3C088889)
    let p2 := fma32 r p1 (val32 0x3D2AAAAB)
    let p3 := fma32 r p2 (val32 0x3E2AAAAB)
    let p4 := fma32 r p3 (val32 0x3F000000)
    let p5 := fma32 r p4 one32
    let p6 := fma32 r p5 one32
    r32 (p6.scale n)

/-- A finite positive value as m · 2^e with 1 ≤ m < 2. -/
def normalise (x : Val) : Val × Int :=
  match x with
  | .num _ m e _ => (.num false m (-(Nat.log2 m : Int)) false, magLog m e)
  | v => (v, 0)

/-- log_ref. -/
def logRef (x : Val) : Val :=
  if x.isNan || x.lt (.zero false) then .nan
  else if x.isZero then .inf true
  else if x.isInf then .inf false
  else
    let p := normalise x
    let big := (val32 0x3FB504F3).lt p.1
    let m := if big then p.1.scale (-1) else p.1
    let e : Val := .ofInt (if big then p.2 + 1 else p.2) 0 false
    let f := add32 m one32.negate
    let s := div32 f (add32 (.ofInt 2 0 false) f)
    let z := mul32 s s
    let q1 := fma32 z (val32 0x3DE38E39) (val32 0x3E124925)
    let q2 := fma32 z q1 (val32 0x3E4CCCCD)
    let q3 := fma32 z q2 (val32 0x3EAAAAAB)
    let q4 := fma32 z q3 one32
    let t := mul32 (mul32 (.ofInt 2 0 false) s) q4
    fma32 e (val32 0x3F317200) (fma32 e (val32 0x35BFBE8E) t)

/-- tanh_ref. -/
def tanhRef (x : Val) : Val :=
  if x.isNan then .nan
  else
    let a := x.abs
    let y :=
      if a.lt (.num false 1 (-2) false) then
        let z := mul32 a a
        let p1 := fma32 z (val32 0x3CB327A4) (val32 0xBD5D0DD1)
        let p2 := fma32 z p1 (val32 0x3E088889)
        let p3 := fma32 z p2 (val32 0xBEAAAAAB)
        fma32 (mul32 a z) p3 a
      else if (Val.ofInt 10 0 false).lt a then one32
      else
        let d := add32 (expRef (mul32 (.ofInt 2 0 false) a)) one32
        add32 one32 (div32 (.ofInt 2 0 false) d).negate
    if x.neg? then y.negate else y

/-! ### Integers of any lane width -/

/-- The lane code of an integer: saturated, or modulo 2^w (Table 9.1). -/
def intLane (signed : Bool) (w : Nat) (sat : Bool) (v : Int) : Nat :=
  if sat then
    if signed then wrap w (max (-(2 ^ (w - 1) : Nat) : Int) (min ((2 ^ (w - 1) : Nat) - 1 : Int) v))
    else wrap w (max 0 (min ((2 ^ w : Nat) - 1 : Int) v))
  else wrap w v

end Sys2Proof.Machine
end

