-- ==== Sys2Proof/Machine/Memory.lean ====
section
/-! DEFINITION. Whole accesses: the three ranges of a cluster's local space as scalar instructions meet them
(R82, R117, R131, R179), virtual accesses to every target, reads and writes through fabric windows as packets
(R308), and the accesses that units make on a context's behalf. -/

namespace Sys2Proof.Machine

/-- Stop with a cause met at an address, by the route that R386 gives the cause. -/
def stopWith {α : Type} (c : BitVec 8) (a : Nat) : Act α := fun _ => .error (stopOf c a)

/-! ### The flag array and the kick range (R117, R131, R270, R313) -/

def unitOfNum (n : Nat) : Unit6 :=
  match n with
  | 0 => .copy | 1 => .sluice | 2 => .batcher | 3 => .compaction | 4 => .fabric | _ => .collective

/-- The write-acknowledge count: writes sent and not yet acknowledged, the cluster's stores and its commands'
writes (R143). -/
def Cluster.writeAcks (x : Cluster) : Nat := x.wack + (x.cmds.map (·.acks)).sum

/-- The word at a 4-byte offset of the kick range: retired-through words, the write-acknowledge count, and zero
everywhere else. -/
def kickWord (x : Cluster) (o : Nat) : Nat :=
  if o % 256 == 0x80 && o < 0x600 then (x.rtOf (unitOfNum (o / 256))).toNat
  else if o == 0x84 then x.writeAcks % 4294967296
  else 0

/-- A byte of the flag array: bit 0 of a flag's word is the flag, its other bits read as zero (R117). -/
def flagByte (x : Cluster) (off : Nat) : Byte :=
  if off % 4 == 0 && x.flags.getLsbD ((off - 0x300000) / 4) then 1#8 else 0#8

/-- A byte of the kick range. -/
def kickByte (x : Cluster) (off : Nat) : Byte :=
  BitVec.ofNat 8 (kickWord x ((off - 0x310000) / 4 * 4) >>> (8 * (off % 4)))

/-- Flag `n` of a cluster set or cleared. A `fwait` on it that waits has seen it 1 from then on, whatever clears it (R188). -/
def Cluster.setFlag (x : Cluster) (n : Nat) (b : Bool) : Cluster :=
  let m : BitVec 4096 := 1#4096 <<< n
  { x with
    flags := if b then x.flags ||| m else x.flags &&& ~~~m
    awaited := if b then x.awaited.map fun e => if e.2.1 == n then (e.1, n, true) else e else x.awaited }

/-- A flag written by an engine or an arrival (R350). -/
def State.setFlagOf (s : State) (c n : Nat) (b : Bool) : State := s.modCl c fun x => x.setFlag n b

/-- Bytes stored into the flag array: bit 0 of each word that they cover at its lowest byte; the rest is ignored
(R117). -/
def storeFlags (x : Cluster) (off : Nat) : List Byte → Cluster
  | [] => x
  | b :: t =>
    storeFlags (if off % 4 == 0 then x.setFlag ((off - 0x300000) / 4) (b.getLsbD 0) else x) (off + 1) t

/-! ### Scalar accesses to a local space -/

/-- The own cluster of the executing agent, where it has one: an acquire at device scope empties its L1 (R119). -/
def acquireDevice : Act Unit := do
  let s ← get
  match s.who.cl with
  | some c => set (l1Empty s c)
  | none => pure ()

/-- A scalar read of `n` bytes at local offset `off` of cluster `c` (R82, R117, R121, R131). -/
def localLoad (c off n : Nat) (addr : Word) : Act (List Byte) := do
  awaitHome c
  let s ← get
  let x := s.cl c
  if inBanks x off then
    awaitOwed c [off / 128]
    pure (sramRead x off n)
  else if inFlags off then
    acquireDevice
    pure ((List.range n).map fun i => flagByte x (off + i))
  else if inKick off then pure ((List.range n).map fun i => kickByte x (off + i))
  else trapAt 0x27#8 addr

/-- A scalar write at local offset `off` of cluster `c`. One to another cluster is counted until it is
acknowledged (R143). -/
def localStore (c off : Nat) (bs : List Byte) (addr : Word) : Act Unit := do
  awaitHome c
  let s ← get
  let count (s : State) : State := if c != s.selfCl && s.who.cl.isSome then addWack s s.selfCl 1 else s
  if inBanks (s.cl c) off then
    rejectOwed c [off / 128] addr.toNat
    modify fun s => count (sramWrite s c off bs)
  else if inFlags off then set (count (s.modCl c fun x => storeFlags x off bs))
  else if inKick off then trapAt 0x67#8 addr
  else trapAt 0x27#8 addr

/-! ### Virtual accesses by units: one line at a time -/

/-- An address range cut at line boundaries: addresses and lengths. -/
def pieces (a n : Nat) : List (Nat × Nat) :=
  (linesOf a n).map fun l => (max a (128 * l), min (a + n) (128 * l + 128) - max a (128 * l))

/-- A read of bytes within one line of a translated target, which waits on an owed line (R17), a table of the
launch path apart; a window is not read this way. -/
def targetRead (w : Who) (va n : Nat) (x : Xlat) (s : State) : Except (BitVec 8) (State × List Byte) :=
  match x.tgt with
  | .dev dpa =>
    match w.cl with
    | some c => cachedRead c w va dpa n x s
    | none => devRead w va dpa n x s
  | .pinned d o =>
    match pinCause s d o n with
    | some e => .error e
    | none => .ok (s, Mem.read (s.die d).pinned o n)
  | .sram c o =>
    if w.agent != 0 && away s w.ctx c then .error owedCause
    else if w.wide && inFlags o then .ok (s, (List.range n).map fun i => flagByte (s.cl c) (o + i))
    else if w.wide && inKick o then .ok (s, (List.range n).map fun i => kickByte (s.cl c) (o + i))
    else if !inBanks (s.cl c) o then .error 0x27#8
    else if w.agent != 0 && owedLine (s.cl c) (o / 128) then .error owedCause
    else
      match rowsEcc c (linesOf o n) s with
      | none => .error 0xC0#8
      | some s1 => .ok (s1, sramRead (s1.cl c) o n)
  | .window _ _ => .error 0x81#8
  | .host a => .ok (s, hostRead s w.gang a n)

/-- A write of bytes within one line of a translated target. Flags and the kick range are reached by the host alone this way. -/
def targetWrite (w : Who) (va : Nat) (bs : List Byte) (sync : Bool) (x : Xlat) (s : State) : Except (BitVec 8) State :=
  match x.tgt with
  | .dev dpa => devWrite w va dpa bs sync x s
  | .pinned d o =>
    match pinMerge s d o bs.length with
    | some e => .error e
    | none => .ok ((s.pinPut d o bs).notifyQueues (.pinned d o) bs.length)
  | .sram c o =>
    if w.agent != 0 && away s w.ctx c then .error owedCause
    else if w.wide && inFlags o then .ok (s.modCl c fun x => storeFlags x o bs)
    else if w.wide && inKick o then .error 0x67#8
    else if !inBanks (s.cl c) o then .error 0x27#8
    else if owedLine (s.cl c) (o / 128) then .error 0x40#8
    else
      match rowsEcc c (linesOf o bs.length) s with
      | none => .error 0xC0#8
      | some s1 => .ok (sramWrite s1 c o bs)
  | .window _ _ => .error 0x81#8
  | .host a => .ok ((hostWrite s w.ctx w.gang a bs).notifyQueues (.host a) bs.length)

/-- Whether a translated target lies in owed lines of a scratchpad. -/
def targetOwed (s : State) (x : Xlat) (n : Nat) : Bool :=
  match x.tgt with
  | .sram c o => (linesOf o n).any fun l => owedLine (s.cl c) l
  | _ => false

/-- A read of `n` bytes at a virtual address on behalf of `w`; a synchronising one takes no part in the check of R342
(R345). -/
def readAt (w : Who) (sync : Bool) (va n : Nat) (s : State) : Except (BitVec 8) (State × List Byte) :=
  (pieces va n).foldlM (fun acc p =>
    match translate w p.1 false sync acc.1 with
    | .error e => .error e
    | .ok (s1, x) =>
      match targetRead w p.1 p.2 { x with chk := x.chk && !sync } s1 with
      | .error e => .error e
      | .ok (s2, bs) => .ok (s2, acc.2 ++ bs)) (s, [])

/-- A write at a virtual address on behalf of `w`. -/
def writeAt (w : Who) (sync : Bool) (va : Nat) (bs : List Byte) (s : State) : Except (BitVec 8) State :=
  (pieces va bs.length).foldlM (fun s p =>
    match translate w p.1 true sync s with
    | .error e => .error e
    | .ok (s1, x) => targetWrite w p.1 ((bs.drop (p.1 - va)).take p.2) sync x s1) s

/-- Ordinary accesses. -/
def vaRead (w : Who) : Nat → Nat → State → Except (BitVec 8) (State × List Byte) := readAt w false
def vaWrite (w : Who) : Nat → List Byte → State → Except (BitVec 8) State := writeAt w false

/-- Synchronising accesses: no check of R342, but the undo log still takes a written line (R345). -/
def vaSyncRead (w : Who) : Nat → Nat → State → Except (BitVec 8) (State × List Byte) := readAt w true
def vaSyncWrite (w : Who) : Nat → List Byte → State → Except (BitVec 8) State := writeAt w true

/-- A partial update of `n` bytes within one line, as one write: what is merged is read without a check of its own
(R342). -/
def vaMerge (w : Who) (va n : Nat) (f : Nat → Nat) (s : State) : Except (BitVec 8) State :=
  match translate w va true false s with
  | .error e => .error e
  | .ok (s1, x) =>
    match targetRead { w with cl := none } va n { x with chk := false } s1 with
    | .error e => .error e
    | .ok (s2, bs) => targetWrite w va (natLe n (f (leNat bs))) false x s2

/-- Reads and writes of tables and images by the device on a context's behalf. -/
def tableRead (ctx die : Nat) : Nat → Nat → State → Except (BitVec 8) (State × List Byte) :=
  vaSyncRead (launchWho ctx die)
def tableWrite (ctx die : Nat) : Nat → List Byte → State → Except (BitVec 8) State := fun va bs s =>
  (pieces va bs.length).foldlM (fun s p =>
    match translate (launchWho ctx die) p.1 true true s with
    | .error e => .error e
    | .ok (s1, x) =>
      targetWrite (launchWho ctx die) p.1 ((bs.drop (p.1 - va)).take p.2) true { x with chk := false } s1) s

/-! ### Fabric windows -/

/-- This device's id (Table 12.2). -/
def devId (s : State) : Nat := bits s.fabcfg.toNat 25 16

def fabricOn (s : State) : Bool := bit s.fabcfg.toNat 0

/-- A window table entry (R307), as 256 bits, or cause 0x80. -/
def windowEntry (ctx die handle : Nat) (s : State) : Except (BitVec 8) (State × Nat) :=
  match KMap.get? s.contexts ctx with
  | none => .error 0x80#8
  | some c =>
    if c.wincnt ≤ handle then .error 0x80#8
    else
      match tableRead ctx die (c.winbase + 32 * handle) 32 s with
      | .error e => .error e
      | .ok (s1, bs) => let e := leNat bs; if bit e 128 then .ok (s1, e) else .error 0x80#8

def winKey (e : Nat) : Nat := bits e 255 224
def winPeer (e : Nat) : Nat := bits e 223 214
def winLimit (e : Nat) : Nat := bits e 127 64
def winBase (e : Nat) : Nat := bits e 63 0

/-- The rights of a window: read, write, accumulate. -/
inductive Right where
  | rd | wrt | acc
  deriving DecidableEq, Repr

def winRight (e : Nat) : Right → Bool
  | .rd => bit e 213 | .wrt => bit e 212 | .acc => bit e 211

/-- The entry of a window, checked for an extent and a right (R308). -/
def windowCheck (ctx die handle off n : Nat) (r : Right) (s : State) : Except (BitVec 8) (State × Nat) :=
  match windowEntry ctx die handle s with
  | .error e => .error e
  | .ok (s1, e) => if winRight e r && off + n ≤ winLimit e then .ok (s1, e) else .error 0x81#8

/-- The argument of a request packet: the phase tag of R358 in its low half, and above it the requester, which
its replies carry back: cluster, queue (7 for a scalar access), agent and gang (log 13). -/
def reqArg (tag : BitVec 32) (c unit who gang : Nat) : BitVec 64 :=
  BitVec.ofNat 32 (c + 512 * unit + 4096 * who + 65536 * (gang % 65536)) ++ tag

/-- The cluster, the queue and the agent in a packet's argument. -/
def argCl (p : Packet) : Nat := bits p.arg.toNat 40 32
def argUnit (p : Packet) : Nat := bits p.arg.toNat 43 41
def argWho (p : Packet) : Nat := bits p.arg.toNat 47 44
def argTag (p : Packet) : BitVec 32 := p.arg.setWidth 32

/-- An empty packet of this device. -/
def newPacket (s : State) (ddev tc : Nat) (kind : PKind) (ctx : Nat) (gen : BitVec 32) : Packet :=
  { ddev, sdev := devId s, tc, hop := 0, ph := false, mc := false, kind, imd := 0, ctx, key := 0#32, gen, grp := 0,
    ver := 0, seq := 0#32, mbr := 0, addr := 0, arg := 0#64, dests := 0#1024, data := []
    part := false, via := 64, slow := false }

/-- The packets of a message: itself, or, beyond 1,024 B of payload, parts that each begin with their number and how many there
are (R303; log 13). -/
def trainOf (p : Packet) : List Packet :=
  if p.data.length ≤ 1024 then [p]
  else
    let n := (p.data.length + 1015) / 1016
    (List.range n).map fun i => { p with part := true, data := natLe 4 i ++ natLe 4 n ++ (p.data.drop (1016 * i)).take 1016 }

/-- Inject a packet into this device's router (R302). -/
def State.send (s : State) (p : Packet) : State := { s with net := s.net ++ trainOf p }

/-- The number by which a scalar agent of a cluster is known: 8 for the S PC, its number for a rake thread, 9
for the die manager core. -/
def agentNum (s : State) : Nat :=
  match s.actor with
  | .rake _ t => t
  | .mgr _ => 9
  | _ => 8

/-- A scalar read through a window: the first issue sends the request; the instruction waits for its reply. None
while the reply is out. -/
def windowLoad (ctx die handle off n : Nat) (addr : Word) : Act (Option (List Byte)) := do
  let s ← get
  let c := s.selfCl
  let k := agentNum s
  match KMap.get? (s.cl c).winReads k with
  | some r =>
    match r.reply, r.refused with
    | some bs, _ =>
      set (s.modCl c fun x => { x with winReads := KMap.erase x.winReads k })
      pure (some bs)
    | none, some _ =>
      set (s.modCl c fun x => { x with winReads := KMap.erase x.winReads k })
      pure (some ((List.range n).map (Config.refusedByte addr.toNat)))
    | none, none => waitFor .window
  | none =>
    if !fabricOn s then trap 0x86#8
    else
      let e ← liftA addr.toNat (windowCheck ctx die handle off n .rd)
      modify fun s =>
        let p := newPacket s (winPeer e) 2 .readReq ctx (s.sstepOf ((s.selfTask.map (·.gang)).getD 0))
        (s.send { p with
          key := BitVec.ofNat 32 (winKey e), addr := winBase e + off, mbr := n
          arg := reqArg (s.cl c).bphase c 7 k 0 }).modCl c
          fun x => { x with winReads := KMap.set x.winReads k ⟨addr.toNat, n, none, none⟩ }
      pure none

/-- A scalar write through a window: a packet that is acknowledged (R143, R308). -/
def windowStore (ctx die handle off : Nat) (bs : List Byte) (addr : Word) : Act Unit := do
  let s ← get
  let c := s.selfCl
  if !fabricOn s then trap 0x86#8
  else
    let e ← liftA addr.toNat (windowCheck ctx die handle off bs.length .wrt)
    modify fun s =>
      let p := newPacket s (winPeer e) 2 .write ctx (s.sstepOf ((s.selfTask.map (·.gang)).getD 0))
      addWack (s.send { p with
        key := BitVec.ofNat 32 (winKey e), addr := winBase e + off, data := bs
        arg := reqArg (s.cl c).bphase c 7 (agentNum s) 0 }) c 1

/-! ### The accesses of `ld`, `st`, `ldg` and `stg` -/

/-- A scalar read at a coordinate address (R178, R179). -/
def coordLoad (addr : Word) (n : Nat) : Act (List Byte) := do
  let s ← get
  let p ← liftC addr.toNat (coord s s.selfCtx s.selfCl addr.toNat (addr.toNat % n != 0))
  localLoad p.1 p.2 n addr

/-- A scalar write at a coordinate address. -/
def coordStore (addr : Word) (bs : List Byte) : Act Unit := do
  let s ← get
  let p ← liftC addr.toNat (coord s s.selfCtx s.selfCl addr.toNat (addr.toNat % bs.length != 0))
  localStore p.1 p.2 bs addr

/-- The target of an aligned scalar access at a virtual address. -/
def virtTarget (addr : Word) (n : Nat) (write : Bool) : Act Xlat := do
  let s ← get
  if bits addr.toNat 63 48 != 0 then trapAt 0x23#8 addr
  else if addr.toNat % n != 0 then trapAt 0x28#8 addr
  else translateA { s.who with wide := true } addr.toNat write false

/-- A scalar read at a virtual address (R118, R178, R308); none while a window's reply is out. -/
def virtLoad (addr : Word) (n : Nat) : Act (Option (List Byte)) := do
  let x ← virtTarget addr n false
  let s ← get
  match x.tgt with
  | .sram c off =>
    let bs ← localLoad c off n addr
    pure (some bs)
  | .window h off => windowLoad s.selfCtx s.selfDie h off n addr
  | _ =>
    let bs ← liftA addr.toNat (targetRead s.who addr.toNat n x)
    pure (some bs)

/-- A scalar write at a virtual address: performed at its port, an L1 line updated, the write counted until it is
acknowledged (R118, R143, R179). -/
def virtStore (addr : Word) (bs : List Byte) : Act Unit := do
  let x ← virtTarget addr bs.length true
  let s ← get
  let w := s.who
  match x.tgt with
  | .sram c off => localStore c off bs addr
  | .window h off => windowStore s.selfCtx s.selfDie h off bs addr
  | tgt =>
    liftU addr.toNat (targetWrite w addr.toNat bs false x)
    modify fun s =>
      match w.cl with
      | some c =>
        addWack (match tgt with
          | .dev dpa => s.modCl c fun y => l1Update y dpa bs
          | _ => s) c (match tgt with | .host _ => 0 | _ => 1)
      | none => s

end Sys2Proof.Machine
end

