-- ==== Sys2Proof/Machine/LoadStore.lean ====
section
/-! DEFINITION. Scalar loads and stores (R178 to R180). -/

namespace Sys2Proof.Machine

/-- An element's bytes as a register value: zero-extended for `.n` types, sign-extended for `.i` types (R179). -/
def extendTy (t : Ty) (bs : List Byte) : Word :=
  match t with
  | .i8 | .i16 | .i32 | .i64 => wordOfInt (sx t.bits (leNat bs))
  | _ => BitVec.ofNat 64 (leNat bs)

/-- The bytes of an element of type `t`. -/
def sizeOf (t : Ty) : Nat := t.bits / 8

/-- s[A] + off of the 32-bit form, where IMM4 counts elements (R178). -/
def shortAddr (s : State) (t : Ty) (a : Reg) (i : BitVec 4) : Word := s.rd a + BitVec.ofNat 64 (i.toNat * sizeOf t)

/-- s[A] + off of the 96-bit form. -/
def longAddr (s : State) (a : Reg) (o : RegOrImm) : Word := s.rd a + s.rdRI o

/-- An action under a predicate that may also come to a wait with an effect of its own; then the PC stays. -/
def actOpW (i : Instr) (p : Pred) (w : Wait) (a : Act Bool) (s : State) : Host.Outcome State Fault Refusal :=
  perform (do
    let done ← if s.holds p then a else pure true
    if done then modify (retire i) else modify (fun s => s.noteWait w)) s

/-- `ld` of an element at an address. -/
def loadCoord (t : Ty) (d : Reg) (addr : State → Word) : Act Unit := do
  let s ← get
  let bs ← coordLoad (addr s) (sizeOf t)
  modify fun s => s.wr d (extendTy t bs)

/-- `st` of an element at an address. -/
def storeCoord (t : Ty) (d : Reg) (addr : State → Word) : Act Unit := do
  let s ← get
  coordStore (addr s) (natLe (sizeOf t) (s.rd d).toNat)

/-- `ldg` of an element at an address; false while a window's reply is out. -/
def loadVirt (t : Ty) (d : Reg) (addr : State → Word) : Act Bool := do
  let s ← get
  match ← virtLoad (addr s) (sizeOf t) with
  | some bs =>
    modify fun s => s.wr d (extendTy t bs)
    pure true
  | none => pure false

/-- `stg` of an element at an address. -/
def storeVirt (t : Ty) (d : Reg) (addr : State → Word) : Act Unit := do
  let s ← get
  virtStore (addr s) (natLe (sizeOf t) (s.rd d).toNat)

/-- `ld` (R178, R179). -/
def execLd (t : Ty) (d a : Reg) (i : BitVec 4) (s : State) : Host.Outcome State Fault Refusal :=
  actOp (.ld t d a i) always (loadCoord t d fun s => shortAddr s t a i) s

def execLdLong (p : Pred) (t : Ty) (d a : Reg) (o : RegOrImm) (s : State) : Host.Outcome State Fault Refusal :=
  actOp (.ldLong p t d a o) p (loadCoord t d fun s => longAddr s a o) s

/-- `st` (R178, R179). -/
def execSt (t : Ty) (d a : Reg) (i : BitVec 4) (s : State) : Host.Outcome State Fault Refusal :=
  actOp (.st t d a i) always (storeCoord t d fun s => shortAddr s t a i) s

def execStLong (p : Pred) (t : Ty) (d a : Reg) (o : RegOrImm) (s : State) : Host.Outcome State Fault Refusal :=
  actOp (.stLong p t d a o) p (storeCoord t d fun s => longAddr s a o) s

/-- `ldg` (R178, R179). -/
def execLdg (t : Ty) (d a : Reg) (i : BitVec 4) (s : State) : Host.Outcome State Fault Refusal :=
  actOpW (.ldg t d a i) always .window (loadVirt t d fun s => shortAddr s t a i) s

def execLdgLong (p : Pred) (t : Ty) (d a : Reg) (o : RegOrImm) (s : State) : Host.Outcome State Fault Refusal :=
  actOpW (.ldgLong p t d a o) p .window (loadVirt t d fun s => longAddr s a o) s

/-- `stg` (R178, R179). -/
def execStg (t : Ty) (d a : Reg) (i : BitVec 4) (s : State) : Host.Outcome State Fault Refusal :=
  actOp (.stg t d a i) always (storeVirt t d fun s => shortAddr s t a i) s

def execStgLong (p : Pred) (t : Ty) (d a : Reg) (o : RegOrImm) (s : State) : Host.Outcome State Fault Refusal :=
  actOp (.stgLong p t d a o) p (storeVirt t d fun s => longAddr s a o) s

end Sys2Proof.Machine
end

