-- ==== Sys2Proof/Machine/Windrow.lean ====
section
/-! DEFINITION. Meeting points of one cluster's walkers (Table 8.1, R171), and windrows: their descriptors,
appends, pops and completions (R189, R190, R289, R290). -/

namespace Sys2Proof.Machine

/-! ### The class waits of the S PC -/

/-- Every PC has reached the S PC's position. -/
def Cluster.gathered (x : Cluster) : Bool := decide (x.wS.dp ≤ x.minFollow)

/-- Whether a fill goes to a tile slab: those of an `mfill`, which have the position of their instruction for an item. -/
def Fill.slab (f : Fill) : Bool := match f.line with | .tile .. => true | .sram .. => false

/-- A fill of a tile slab that an `mfill` of cluster `c` still owes. -/
def slabFillsOwed (s : State) (c : Nat) : Bool := s.fills.any fun f => f.cl == c && f.slab

/-- Every instruction before the S PC's position that a PC has passed has completed: none of its increments is held at a
full channel (R166), and every slab fill of it has landed (R248). -/
def settled (s : State) (c : Nat) : Bool :=
  let x := s.cl c
  ((List.range 8).all fun i => !x.tkheld.getLsbD i || decide (x.wS.dp ≤ KMap.getD x.heldAt i 0))
    && !s.fills.any fun f => f.cl == c && f.slab && decide (f.item < x.wS.dp)

/-- The wait of the release and full classes: on the S PC for every PC and every earlier instruction; on a rake
thread program order alone (Table 8.1). -/
def awaitAll : Act Unit := do
  let s ← get
  match s.actor with
  | .pc c .S => waitIf (!((s.cl c).gathered && settled s c)) .order
  | _ => pure ()

/-- The wait for the write-acknowledge count to be zero. -/
def awaitWack : Act Unit := do
  let s ← get
  match s.who.cl with
  | some c => waitIf ((s.cl c).writeAcks != 0) .engine
  | none => pure ()

/-! ### Windrows -/

/-- A windrow descriptor (Table 11.9). -/
structure WlDesc where
  base : Nat
  cap : Nat
  home : Nat
  deriving DecidableEq, Repr

/-- A descriptor's bits; 0x6F when it is invalid or malformed (R289). -/
def wlDecode (e : Nat) : Except (BitVec 8) WlDesc :=
  let base := bits e 127 64
  let lg := bits e 63 59
  if !bit e 0 || bits e 56 1 != 0 || 24 < lg || base % 8 != 0 || bits base 63 48 != 0 then .error 0x6F#8
  else .ok ⟨base, 2 ^ lg, bits e 58 57⟩

/-- Whether a slot may lie at an address: device memory or an L2-pinned line (Table 11.9); an address with a translation
cause has that cause at its access. -/
def slotReach (w : Who) (va : Nat) (s : State) : Bool :=
  match translate w va false true s with
  | .ok (_, x) => (match x.tgt with | .dev _ | .pinned _ _ => true | _ => false)
  | .error _ => true

/-- The descriptor of windrow `h` of a context, read by the compaction unit of die `d` (R289). -/
def wlDesc (ctx d gang h : Nat) (s : State) : Except (BitVec 8) (State × WlDesc) :=
  match KMap.get? s.contexts ctx with
  | none => .error 0x6F#8
  | some c =>
    match vaRead (dieWho ctx d gang) (c.wlbase + 16 * h) 16 s with
    | .error e => .error e
    | .ok (s1, bs) =>
      match wlDecode (leNat bs) with
      | .error e => .error e
      | .ok w => if slotReach (dieWho ctx d gang) w.base s1 then .ok (s1, w) else .error 0x6F#8

/-- The address of a windrow's descriptor. -/
def wlAddr (s : State) (ctx h : Nat) : Nat := ((KMap.get? s.contexts ctx).map (·.wlbase)).getD 0 + 16 * h

/-- The address of the slot of item number `n`. -/
def WlDesc.slot (w : WlDesc) (n : BitVec 32) : Nat := w.base + 8 * (n.toNat % w.cap)

/-- The counters of windrow `h` of a context. -/
def State.windrow (s : State) (ctx h : Nat) : Windrow := KMap.getD s.windrows (4096 * ctx + h) Windrow.reset

def State.modWindrow (s : State) (ctx h : Nat) (f : Windrow → Windrow) : State :=
  { s with windrows := KMap.modify s.windrows (4096 * ctx + h) Windrow.reset f }

/-- Items held. -/
def Windrow.held (w : Windrow) : Nat := (w.tail - w.head).toNat

/-- One item appended by the home unit, a synchronising write of its slot (R290, R333): none while the windrow is full. -/
def wlAppend (ctx gang h : Nat) (w : WlDesc) (item : Word) (s : State) : Except (BitVec 8) (Option State) :=
  let k := s.windrow ctx h
  if w.cap ≤ k.held then .ok none
  else if !slotReach (dieWho ctx w.home gang) (w.slot k.tail) s then .error 0x6F#8
  else
    match vaSyncWrite (dieWho ctx w.home gang) (w.slot k.tail) (natLe 8 item.toNat) s with
    | .error e => .error e
    | .ok s1 => .ok (some (s1.modWindrow ctx h fun k => { k with tail := k.tail + 1#32, appends := k.appends + 1, users := NSet.insert k.users gang }))

/-- The handles of an append command: its list once it has been read, before that `DST`, or the list as it stands (R291). -/
def Cmd.handles (s : State) (c : Cmd) : List Nat :=
  let r := c.raw.toNat
  let n := bits r 79 64 + 1
  if c.started then c.idx
  else if bits r 767 704 == 0 then List.replicate n (bits r 203 192)
  else
    match coord s c.ctx c.cl (bits r 767 704) false with
    | .ok (cl, off) => (List.range n).map fun j => leNat (sramRead (s.cl cl) (off + 2 * j) 2)
    | .error _ => []

/-- An accepted append command that has items for windrow `h` still to commit (R290). -/
def Cmd.appending (s : State) (c : Cmd) (ctx h : Nat) : Bool :=
  c.unit == .compaction && bits c.raw.toNat 39 36 == 0 && !c.cancelled && c.ctx == ctx
    && ((c.handles s).zipIdx).any fun e => e.1 == h && !c.items.contains e.2

/-- An append to windrow `h` accepted before `stamp` has still to be served: a command's, or a waiting `wlpush` of the
cluster's task or of its die's manager core (R290). -/
def appendBusy (s : State) (ctx h stamp : Nat) : Bool :=
  s.clusters.any fun e =>
    (e.2.cmds.any fun c => decide (c.born < stamp) && c.appending s ctx h)
      || e.2.pushAt.any fun p => p.2.1 == h && decide (p.2.2 < stamp)
        && (if p.1 == 9 then (s.die (dieOf e.1)).coreTask else e.2.task).any fun t => t.ctx == ctx

/-- One item popped by the home unit, a synchronising read of its slot: none when the windrow is empty. -/
def wlTake (ctx gang h : Nat) (w : WlDesc) (s : State) : Except (BitVec 8) (State × Option Word) :=
  let k := s.windrow ctx h
  if k.held == 0 then .ok (s, none)
  else if !slotReach (dieWho ctx w.home gang) (w.slot k.head) s then .error 0x6F#8
  else
    match vaSyncRead (dieWho ctx w.home gang) (w.slot k.head) 8 s with
    | .error e => .error e
    | .ok (s1, bs) =>
      .ok (s1.modWindrow ctx h fun k => { k with head := k.head + 1#32, pops := k.pops + 1, users := NSet.insert k.users gang },
        some (BitVec.ofNat 64 (leNat bs)))

/-- The completion of an item of windrow `h` is counted (R190). -/
def wlComplete (s : State) (ctx h : Nat) : State :=
  s.modWindrow ctx h fun k => { k with completions := k.completions + 1 }

/-- The windrow of the executing agent's outstanding item (R190, R200). -/
def State.selfItem (s : State) : Option Nat :=
  match s.actor with
  | .pc _ _ => s.selfTask.bind (·.item)
  | _ => s.selfRake.bind (·.item)

def State.setSelfItem (s : State) (h : Option Nat) : State :=
  match s.actor with
  | .pc c _ => s.modCl c fun x => { x with task := x.task.map fun t => { t with item := h } }
  | _ =>
    match s.selfRake with
    | some r => s.setSelfRake { r with item := h }
    | none => s

/-- The executing agent's outstanding item is counted as complete (R190). -/
def State.finishItem (s : State) : State :=
  match s.selfItem with
  | some h => (wlComplete s s.selfCtx h).setSelfItem none
  | none => s

def State.selfGang (s : State) : Nat := (s.selfTask.map (·.gang)).getD 0

/-- The place of the executing agent among the appends of windrow `h`: the tick at which it first issued its `wlpush`. -/
def pushStamp (s : State) (k h : Nat) : Nat :=
  match KMap.get? (s.cl s.selfCl).pushAt k with
  | some p => if p.1 == h then p.2 else s.tick
  | none => s.tick

/-- The number of the executing agent among those of its cluster. -/
def pushAgent (s : State) : Nat :=
  match s.actor with
  | .rake _ t => t
  | .mgr _ => 9
  | _ => 8

/-- `wlpush` (R189): a release of one item, which is served in its order among the windrow's appends and waits while the
windrow is full (R290). -/
def execWlpush (a b : Reg) (s : State) : Host.Outcome State Fault Refusal :=
  actOpW (.wlpush a b) always .windrow (do
    awaitAll
    let s ← get
    let h := (s.rd a).toNat
    let item := s.rd b
    trapIf (decide (4095 < h)) 0x69#8
    trapIf (item.getLsbD 63) 0x68#8
    let w ← liftA (wlAddr s s.selfCtx h) (wlDesc s.selfCtx s.selfDie s.selfGang h)
    let k := pushAgent s
    let at_ := pushStamp s k h
    let held (s : State) : State := s.modCl s.selfCl fun x => { x with pushAt := KMap.set x.pushAt k (h, at_) }
    let s1 ← get
    if appendBusy s1 s1.selfCtx h at_ then
      modify held
      pure false
    else
      match wlAppend s.selfCtx s.selfGang h w item s1 with
      | .error e => stopWith e (w.slot (s1.windrow s.selfCtx h).tail)
      | .ok none =>
        modify held
        pure false
      | .ok (some s2) =>
        set (s2.modCl s2.selfCl fun x => { x with pushAt := KMap.erase x.pushAt k })
        pure true) s

/-- `wlpop` (R190): counts the completion of the agent's outstanding item, then takes one item as an acquire, or
returns the empty marker. -/
def execWlpop (d a : Reg) (s : State) : Host.Outcome State Fault Refusal :=
  actOp (.wlpop d a) always (do
    let s ← get
    let h := (s.rd a).toNat
    trapIf (decide (4095 < h)) 0x69#8
    let w ← liftA (wlAddr s s.selfCtx h) (wlDesc s.selfCtx s.selfDie s.selfGang h)
    modify State.finishItem
    let r ← liftA (w.slot (s.windrow s.selfCtx h).head) (wlTake s.selfCtx s.selfGang h w)
    acquireDevice
    match r with
    | some v => modify fun s => (s.wr d v).setSelfItem (some h)
    | none => modify fun s => s.wr d 0x8000000000000000#64) s

/-- `tdone` (R199): counts the completion of the thread's outstanding item. -/
def execTdone (s : State) : Host.Outcome State Fault Refusal := plainOp .tdone always State.finishItem s

end Sys2Proof.Machine
end

