-- ==== Sys2Proof/Machine/Operands.lean ====
section
/-! DEFINITION. The operands of the L, A, W and M engines: tokens, vector names and queues, stream pointers,
scalar values and bases, runs of elements in scratchpad banks with their conversion (R151 to R158, R166, R201 to
R209, R214). -/

namespace Sys2Proof.Machine

/-! ### Lanes (R201) -/

/-- The lanes of a vector value, `n` codes of `z` bits. -/
def lanesZ (z n : Nat) (v : Vec) : List Nat := (List.range n).map fun i => (v.toNat >>> (z * i)) % 2 ^ z

/-- Lanes put together. -/
def vecZ (z : Nat) (l : List Nat) : Vec :=
  BitVec.ofNat 1024 (l.foldr (fun x acc => x % 2 ^ z + 2 ^ z * acc) 0)

def lanesOf (t : Ty) (v : Vec) : List Nat := lanesZ t.bits t.lanes v

def vecOf (t : Ty) (l : List Nat) : Vec := vecZ t.bits l

/-- The bytes of a vector value. -/
def vecBytes (v : Vec) : List Byte := natLe 128 v.toNat

def bytesVec (bs : List Byte) : Vec := BitVec.ofNat 1024 (leNat bs)

/-- The mask bits of the first `n` lanes (R204). -/
def maskBits (n : Nat) (v : Vec) : List Bool := (List.range n).map fun i => v.getLsbD i

/-- A mask, its bits from `n` on zero. -/
def maskVec (l : List Bool) : Vec := vecZ 1 (l.map fun b => if b then 1 else 0)

/-! ### The executing engine -/

/-- The cluster and engine of the executing PC. -/
def State.here (s : State) : Nat × Eng :=
  match s.actor with
  | .pc c e => (c, e)
  | _ => (s.selfCl, .S)

/-- Rounding of one instruction: mode with the rounding register resolved, saturation, and what a stochastic
draw depends on (R62, R64, R65). -/
structure Round_ where
  mode : Nat
  sat : Bool
  seed : Word
  stream : Nat
  ord : Nat
  deriving DecidableEq, Repr

/-- The mode for the element with index `i`. -/
def Round_.rm (r : Round_) (i : Nat) : Rm := rmOfCode r.mode (if r.mode == 4 then draw r.seed r.stream r.ord i else 0)

/-- A versioned cluster register as the executing PC sees it (R66). -/
def verNow (s : State) (k : VKey) (now : Word) : Word :=
  let h := s.here
  verAt (s.cl h.1).owedVers k ((s.cl h.1).walk h.2).dp now

def roundOf (s : State) (rm : BitVec 3) (sat : Bool) : Round_ :=
  let h := s.here
  let x := s.cl h.1
  ⟨if rm == 7#3 then (verNow s .rmode x.rmode).toNat % 8 else rm.toNat, sat, verNow s .rseed x.rseed, engNum h.2,
    (x.walk h.2).ordinal⟩

/-! ### Tokens (R166) -/

def tokCount (v : BitVec 32) (ch : Nat) : Nat := bits v.toNat (4 * ch + 3) (4 * ch)

def setTok (v : BitVec 32) (ch n : Nat) : BitVec 32 :=
  BitVec.ofNat 32 (v.toNat - 2 ^ (4 * ch) * tokCount v ch + 2 ^ (4 * ch) * n)

def channels (m : BitVec 8) : List Nat := (List.range 8).filter fun i => m.getLsbD i

/-- One pop; an increment held at 15 enters the room it makes. -/
def popTok (x : Cluster) (ch : Nat) : Cluster :=
  if x.tkheld.getLsbD ch then { x with tkheld := x.tkheld &&& ~~~(1#8 <<< ch), heldAt := KMap.erase x.heldAt ch }
  else { x with tkcnt := setTok x.tkcnt ch (tokCount x.tkcnt ch - 1) }

/-- One push by the instruction at position `dp`; a channel at 15 holds it. -/
def pushTok (dp : Nat) (x : Cluster) (ch : Nat) : Cluster :=
  if tokCount x.tkcnt ch == 15 then { x with tkheld := x.tkheld ||| (1#8 <<< ch), heldAt := KMap.set x.heldAt ch dp }
  else { x with tkcnt := setTok x.tkcnt ch (tokCount x.tkcnt ch + 1) }

/-- Wait for every popped channel, and for a held increment of this engine, then pop. DESIGN CHOICE (log 95): of the X
instructions at its PC an engine whose increment is held issues none that has tokens, which is `vbr` alone; the others pass. -/
def popTokens (e : Eng) (m : BitVec 8) : Act Unit := do
  let s ← get
  let c := s.here.1
  let x := s.cl c
  waitIf ((x.tkheld &&& e.tokMasks.2) != 0#8 || (channels m).any fun ch => tokCount x.tkcnt ch == 0) .token
  set (s.modCl c fun x => (channels m).foldl popTok x)

def pushTokens (m : BitVec 8) : Act Unit :=
  modify fun s => s.modCl s.here.1 fun x => (channels m).foldl (pushTok s.selfDp) x

/-! ### Vector names and queues (R156 to R158) -/

def shapeDepth (e : Nat) : Nat := bits e 13 12 + 1
def shapeProd (e : Nat) : Nat := bits e 11 9
def shapeCons (e : Nat) : Nat := bits e 8 6

/-- The value of a vector name as a source; an uncorrectable error in its slot raises 0xC3 (R405, R407). -/
def readName (pk : Bool) (n : Nat) : Act Vec := do
  let s ← get
  let h := s.here
  let x := s.cl h.1
  if x.nameBad.contains n then checkStop 0xC3#8
  else match shapeOf x n with
  | none => pure (KMap.getD x.vnames n 0#1024)
  | some sh =>
    if shapeCons sh != engNum h.2 then trap 0x0C#8
    else
      match KMap.getD x.vqueues n [] with
      | [] => if shapeProd sh == shapeCons sh then trap 0x0B#8 else waitFor .queue
      | v :: rest =>
        if pk then pure v
        else
          set (s.modCl h.1 fun x => { x with vqueues := KMap.set x.vqueues n rest })
          pure v

/-- A value written to a vector name. -/
def writeName (n : Nat) (v : Vec) : Act Unit := do
  let s ← get
  let h := s.here
  let x := s.cl h.1
  match shapeOf x n with
  | none => set (s.modCl h.1 fun x => { x with vnames := KMap.set x.vnames n v, nameBad := NSet.erase x.nameBad n })
  | some sh =>
    if shapeProd sh != engNum h.2 then trap 0x0C#8
    else
      let q := KMap.getD x.vqueues n []
      if shapeDepth sh ≤ q.length then
        if shapeProd sh == shapeCons sh then trap 0x0B#8 else waitFor .queue
      else set (s.modCl h.1 fun x => { x with vqueues := KMap.set x.vqueues n (q ++ [v]) })

/-! ### Places in scratchpads -/

/-- The format word of a bank of cluster `c` as the executing engine sees it: captured at issue for its own banks,
as it stands for another cluster's (R66, R444). -/
def fmtWordOf (s : State) (c bank : Nat) : Nat :=
  let h := s.here
  if c == h.1 then bfmtAt (s.cl c) h.2 bank else (KMap.getD (s.cl c).bfmt bank 9#64).toNat

/-- Bit positions of the elements of a run of `n` slots of `z` bits at a local offset, or the cause 0x09 or 0x28
(R205, R206, R109). -/
def runBits (n z off : Nat) (col : Bool) : Except (BitVec 8) (List Nat) :=
  if !col then
    let len := n * z / 8
    if off % min len 128 != 0 || off / 8192 != (off + len - 1) / 8192 then .error 0x28#8
    else .ok ((List.range n).map fun i => 8 * off + z * i)
  else
    let block := off / 8192 * 8192
    if z ≤ 16 then
      let q := 16 / z
      let m := (n + q - 1) / q
      let c := bits off 6 1
      let r0 := bits off 12 7
      if off % 2 != 0 || r0 % min m 64 != 0 || 64 < c + (m + 63) / 64 then .error 0x28#8
      else .ok ((List.range n).map fun i =>
        let k := r0 + i / q
        8 * (block + 128 * (k % 64) + 2 * (c + k / 64)) + z * (i % q))
    else
      let per := 1024 / z
      if n != per then .error 0x09#8
      else
        let bad := if z == 32 then off % 4 != 0 || bits off 11 7 != 0 else off % 8 != 0 || bits off 10 7 != 0
        if bad then .error 0x28#8
        else
          let part := if z == 32 then bits off 12 12 else bits off 12 11
          .ok ((List.range n).map fun i => 8 * (block + 128 * (per * part + i) + off % 128))

/-- Bit positions of the 16-bit cells of one fetch taken raw (R108, R207). -/
def fetchBits (off : Nat) (col : Bool) : Except (BitVec 8) (List Nat) :=
  if !col then if off % 128 != 0 then .error 0x28#8 else .ok ((List.range 64).map fun i => 8 * off + 16 * i)
  else if off % 2 != 0 || bits off 12 7 != 0 then .error 0x28#8
  else .ok ((List.range 64).map fun i => 8 * (off / 8192 * 8192 + 128 * i + off % 128))

/-- The lines whose owed bits an access tests: its own, or a whole block for a column (R121). -/
def runLines (ps : List Nat) (z : Nat) (off : Nat) (col : Bool) : List Nat :=
  if col then blockLines off
  else
    let lo := (ps.head?.getD 0) / 1024
    let hi := ((ps.getLast?.getD 0) + z - 1) / 1024
    (List.range (hi + 1 - lo)).map fun i => lo + i

/-- The code of a slot of `z` bits at a bit position. -/
def slotRead (x : Cluster) (z p : Nat) : Nat :=
  if z == 4 then (leNat (sramRead x (p / 8) 1) >>> (p % 8)) % 16 else leNat (sramRead x (p / 8) (z / 8))

/-- A code written into a slot of `z` bits; a 4-bit slot keeps the other nibble of its byte (R114). -/
def slotWrite (s : State) (c z p code : Nat) : State :=
  if z == 4 then
    let old := leNat (sramRead (s.cl c) (p / 8) 1)
    sramWrite s c (p / 8) (natLe 1 (if p % 8 == 0 then old / 16 * 16 + code % 16 else old % 16 + 16 * (code % 16)))
  else sramWrite s c (p / 8) (natLe (z / 8) code)

/-- The byte of two nibbles after another. -/
def packNibbles : List Nat → List Byte
  | a :: b :: t => BitVec.ofNat 8 (a % 16 + 16 * (b % 16)) :: packNibbles t
  | [a] => [BitVec.ofNat 8 (a % 16)]
  | [] => []

/-- The columns of cells that a column run of `n` slots of `z` bits takes (R108, R109, R206). -/
def runCols (n z : Nat) : Nat := if z ≤ 16 then ((n + 16 / z - 1) / (16 / z) + 63) / 64 else z / 16

/-- A run about to be read: its lines are waited for and its fetches made (R121, R406). -/
def fetchRun (c : Nat) (ps : List Nat) (z off : Nat) (col : Bool) : Act Unit :=
  if col then awaitCol c off (runCols ps.length z) else awaitOwed c (runLines ps z off false)

/-- A run about to be written. -/
def claimRun (c : Nat) (ps : List Nat) (z off : Nat) (col : Bool) (addr : Nat) : Act Unit :=
  if col then rejectCol c off (runCols ps.length z) addr else rejectOwed c (runLines ps z off false) addr

/-- Codes written to a run; a row run goes in one write. DESIGN CHOICE (log 63): a column write that is masked or has fewer
than 64 lanes logs only the lines that receive bytes. -/
def runWrite (s : State) (c z : Nat) (col : Bool) (ps cs : List Nat) : State :=
  if col || z == 4 && cs.length % 2 == 1 then (ps.zip cs).foldl (fun s pc => slotWrite s c z pc.1 pc.2) s
  else
    match ps with
    | [] => s
    | p :: _ => sramWrite s c (p / 8) (if z == 4 then packNibbles cs else cs.flatMap (natLe (z / 8)))

/-- A place in a scratchpad: cluster, local offset, orientation, and the address to report. -/
structure Spot where
  cl : Nat
  off : Nat
  col : Bool
  addr : Word
  deriving DecidableEq, Repr

/-- Use of a stream pointer by the executing engine (R153, R154): the place, and the pointer's value; misaligned comes
before unmapped (Table 4.7). -/
def usePointer (k : Nat) (mis : Bool → State → Nat → Nat → Bool) : Act (Spot × Nat) := do
  let s ← get
  let h := s.here
  let v := ptrVal (s.cl h.1) k ((s.cl h.1).walk h.2).dp
  if bits v 63 61 == 0 || bits v 63 61 != engNum h.2 then trap 0x0C#8
  else
    let off := bits v 21 0
    if mis (bit v 60) s h.1 off then trapAt 0x28#8 (BitVec.ofNat 64 off)
    else if !inBanks (s.cl h.1) off then trapAt 0x27#8 (BitVec.ofNat 64 off)
    else pure (⟨h.1, off, bit v 60, BitVec.ofNat 64 off⟩, v)

/-- Pointer `k` moves on by `by_` bytes. -/
def movePointer (k : Nat) (by_ : Int) : Act Unit :=
  modify fun s => s.modCl s.here.1 fun x => ptrMove x k (x.walk s.here.2).dp by_

/-- The cluster and offset of a coordinate address, checks aside. -/
def rawCoord (own a : Nat) : Nat × Nat :=
  if bits a 63 32 == 1 then (clusterId (bits a 31 30) (bits a 29 27) (bits a 26 23), bits a 21 0)
  else
    let y : Int := (rowOf own : Int) + sx 4 (bits a 31 28)
    let x : Int := (colOf own : Int) + sx 5 (bits a 27 23)
    (clusterId (dieOf own) y.toNat x.toNat, bits a 21 0)

/-- A coordinate address used by the executing PC, with the alignment that `mis` asks for at its place. DESIGN CHOICE
(log 77): an offset in no bank has the reset format for this test. -/
def useCoord (a : Word) (col : Bool) (mis : Bool → State → Nat → Nat → Bool) : Act Spot := do
  let s ← get
  let own := s.selfCl
  let r := rawCoord own a.toNat
  let p ← liftC a.toNat (coord s s.selfCtx own a.toNat (mis col s r.1 r.2))
  if !inBanks (s.cl p.1) p.2 then trapAt 0x27#8 a else pure ⟨p.1, p.2, col, a⟩

/-- The place of a memory operand: a stream pointer, or a scalar base with the orientation of `MOD`[4]. -/
def spotOf (o : Opnd) (col : Bool) (mis : Bool → State → Nat → Nat → Bool) : Act Spot := do
  match o with
  | .p k =>
    let r ← usePointer k.toNat mis
    pure r.1
  | .s k =>
    let s ← get
    useCoord (s.rd (k.setWidth 6)) col mis
  | .v _ _ => trap 0x05#8

/-- A used pointer moves by its stride (R153). -/
def stepPointer (o : Opnd) : Act Unit := do
  match o with
  | .p k =>
    let s ← get
    let h := s.here
    movePointer k.toNat (ptrStride (ptrVal (s.cl h.1) k.toNat ((s.cl h.1).walk h.2).dp))
  | _ => pure ()

/-- Whether a run of `n` elements is misaligned at a place. -/
def runMis (n : Nat) (col : Bool) (s : State) (c off : Nat) : Bool :=
  match runBits n (slotBits (fmtWordOf s c (off / 65536))) off col with
  | .error e => e == 0x28#8
  | .ok _ => false

def fetchMis (col : Bool) (_ : State) (_ off : Nat) : Bool :=
  match fetchBits off col with
  | .error _ => true
  | .ok _ => false

/-! ### Runs read and written -/

/-- A raw fetch of 128 bytes. -/
def rawFetch (p : Spot) : Act Vec := do
  let ps ← liftC p.addr.toNat (fetchBits p.off p.col)
  fetchRun p.cl ps 16 p.off p.col
  let s ← get
  pure (vecZ 16 (ps.map (slotRead (s.cl p.cl) 16)))

/-- 128 bytes written raw to one fetch. -/
def rawStore (p : Spot) (v : Vec) : Act Unit := do
  let ps ← liftC p.addr.toNat (fetchBits p.off p.col)
  claimRun p.cl ps 16 p.off p.col p.addr.toNat
  modify fun s => runWrite s p.cl 16 p.col ps (lanesZ 16 64 v)

/-- A `.nf` access asks for a bank of narrow format (R62, R207). -/
def needNarrow (p : Spot) : Act Unit := do
  let s ← get
  trapIf (bits (fmtWordOf s p.cl (p.off / 65536)) 3 0 != 11) 0x09#8

/-- The run at a place, converted to lanes of type `t` (R62, R205 to R207). -/
def readRun (t : Ty) (r : Round_) (p : Spot) : Act Vec := do
  if t.isN then
    needNarrow p
    rawFetch p
  else
    let s ← get
    let w := fmtWordOf s p.cl (p.off / 65536)
    let z := slotBits w
    let ps ← liftC p.addr.toNat (runBits t.lanes z p.off p.col)
    fetchRun p.cl ps z p.off p.col
    let cs := ps.map (slotRead (s.cl p.cl) z)
    pure (vecOf t (cs.mapIdx fun i c => convert (fmtOfWord w) (fmtTy t) (r.rm i) r.sat c))

/-- Lanes of type `t` converted to the bank's format and written to the run at a place. -/
def writeRun (t : Ty) (r : Round_) (p : Spot) (v : Vec) : Act Unit := do
  if t.isN then
    needNarrow p
    rawStore p v
  else
    let s ← get
    let w := fmtWordOf s p.cl (p.off / 65536)
    let z := slotBits w
    let ps ← liftC p.addr.toNat (runBits t.lanes z p.off p.col)
    claimRun p.cl ps z p.off p.col p.addr.toNat
    let cs := (lanesOf t v).mapIdx fun i c => convert (fmtTy t) (fmtOfWord w) (r.rm i) r.sat c
    modify fun s => runWrite s p.cl z p.col ps cs

/-- How a slot of the A engine is taken: lanes of the instruction's type, or a raw mask (R204). -/
inductive As where
  | lanes | mask
  deriving DecidableEq, Repr

/-- The alignment of a stream operand: that of its run, or of a raw fetch. -/
def asMis (t : Ty) (k : As) (col : Bool) (s : State) (c off : Nat) : Bool :=
  if t.isN || k == .mask then fetchMis col s c off else runMis t.lanes col s c off

/-- A source of the A engine (R202, R203). -/
def readSrc (t : Ty) (r : Round_) (k : As) (o : Opnd) : Act Vec := do
  match o with
  | .v pk n => readName pk n.toNat
  | .s n =>
    let s ← get
    pure (vecOf t (List.replicate t.lanes (s.rd (n.setWidth 6)).toNat))
  | .p n =>
    let q ← usePointer n.toNat (asMis t k)
    let v ← match k with
      | .lanes => readRun t r q.1
      | .mask => rawFetch q.1
    movePointer n.toNat (ptrStride q.2)
    pure v

/-- A destination of the A engine. -/
def writeDst (t : Ty) (r : Round_) (k : As) (o : Opnd) (v : Vec) : Act Unit := do
  match o with
  | .v _ n => writeName n.toNat v
  | .s _ => trap 0x05#8
  | .p n =>
    let q ← usePointer n.toNat (asMis t k)
    match k with
    | .lanes => writeRun t r q.1 v
    | .mask => rawStore q.1 v
    movePointer n.toNat (ptrStride q.2)

/-- Whether one pointer stands in two slots (R154). -/
def twicePointer : List Opnd → Bool
  | [] => false
  | .p k :: t => (t.any fun o => o == .p k) || twicePointer t
  | _ :: t => twicePointer t

/-- A scalar value, or lane 0 of a vector operand (R229). -/
def scalarOrLane0 (t : Ty) (v : Vec) : Nat := v.toNat % 2 ^ t.bits

/-! ### One instruction of a vector engine -/

/-- One more stochastically rounding instruction of this PC (R64). DESIGN CHOICE (log 67): every L, A, W or M instruction
whose mode is stochastic counts, also where nothing in it rounds, and the first has ordinal 0. -/
def countOrdinal (r : Round_) (s : State) : State :=
  if r.mode == 4 then
    s.modCl s.here.1 fun x => x.setWalk s.here.2 { x.walk s.here.2 with ordinal := (x.walk s.here.2).ordinal + 1 }
  else s

/-- An L, A, W or M instruction (R209): tokens are popped and bindings checked, the body reads, computes and
writes, and tokens are pushed at completion. A wait or a cause leaves nothing of it. -/
def engineOp (i : Instr) (tok : Tok) (rm : BitVec 3) (sat : Bool) (slots : List Opnd) (body : Round_ → Act Unit)
    (s : State) : Host.Outcome State Fault Refusal :=
  perform (do
    trapIf (twicePointer slots) 0x0C#8
    popTokens s.here.2 tok.pop
    let r := roundOf s rm sat
    body r
    modify (countOrdinal r)
    pushTokens tok.push
    modify (retire i)) s

/-- The same, from the common head of L, A and W words. -/
def headOp (i : Instr) (hd : VHead) (slots : List Opnd) (body : Round_ → Act Unit) (s : State) :
    Host.Outcome State Fault Refusal :=
  engineOp i hd.tok hd.mod.rm hd.mod.sat slots body s

end Sys2Proof.Machine
end

