-- ==== Sys2Proof/Machine/Commands.lean ====
section
/-! DEFINITION. Engine commands (chapter 6): their fields, where their elements lie, their issue from a template,
acceptance into a slot with owed lines, parked items, retirement, and how the issuing cluster's later accesses wait
for them. The engines' own programs stand in the files of their chapters. -/

namespace Sys2Proof.Machine

/-! ### Fields (Table 6.1) -/

def Cmd.n0 (c : Cmd) : Nat := c.f 79 64
def Cmd.n1 (c : Cmd) : Nat := c.f 95 80
def Cmd.n2 (c : Cmd) : Nat := c.f 111 96
def Cmd.n3 (c : Cmd) : Nat := c.f 127 112
def Cmd.src (c : Cmd) : Nat := c.f 191 128
def Cmd.dst (c : Cmd) : Nat := c.f 255 192
def Cmd.waits (c : Cmd) : Nat := c.f 575 512
def Cmd.sigs (c : Cmd) : Nat := c.f 639 576
def Cmd.cwa (c : Cmd) : Nat := c.f 703 640
def Cmd.aux (c : Cmd) : Nat := c.f 767 704
def Cmd.follows (c : Cmd) : Nat := c.f 959 768
def Cmd.flag (c : Cmd) : Nat := c.f 971 960
def Cmd.flw (c : Cmd) : Bool := c.f 56 56 == 1
def Cmd.rm (c : Cmd) : Nat := c.f 55 53
def Cmd.sat (c : Cmd) : Bool := c.f 52 52 == 1
def Cmd.bmp (c : Cmd) : Nat := c.f 45 42
def Cmd.ben (c : Cmd) : Bool := c.f 41 41 == 1
def Cmd.bclr (c : Cmd) : Bool := c.f 40 40 == 1
def Cmd.opx (c : Cmd) : Nat := c.f 39 36
def Cmd.cwk (c : Cmd) : Nat := c.f 35 34

/-- `RET` of `eacc`, in `FOLLOW`[831:768]. -/
def Cmd.ret (c : Cmd) : Nat := c.f 831 768

/-- Address kind, orientation, base, format field and strides of the source or the destination. What `emcast` writes
lies at its members, as behind a window (R320). -/
def Cmd.kind (c : Cmd) (dst : Bool) : Nat :=
  if dst then (if c.unit == .fabric && c.op == 0xF then 2 else c.f 47 46) else c.f 49 48
def Cmd.col (c : Cmd) (dst : Bool) : Bool := (if dst then c.f 50 50 else c.f 51 51) == 1
def Cmd.base (c : Cmd) (dst : Bool) : Nat := if dst then c.dst else c.src
def Cmd.fmtField (c : Cmd) (dst : Bool) : Nat := if dst then c.f 511 480 else c.f 479 448
def Cmd.str (c : Cmd) (dst : Bool) (k : Nat) : Int :=
  let lo := (if dst then 352 else 256) + 32 * (k - 1)
  sx 32 (c.f (lo + 31) lo)

/-- The number of items, and of elements. The batcher and the compaction unit count items in `N0` (R291, R293). -/
def Cmd.items_ (c : Cmd) : Nat :=
  match c.unit with
  | .batcher | .compaction => c.n0 + 1
  | _ => (c.n1 + 1) * (c.n2 + 1) * (c.n3 + 1)
def Cmd.elems (c : Cmd) : Nat := (c.n0 + 1) * c.items_

/-- Opcodes of the commands (Tables 6.3, 11.1, 12.7, R356). -/
def opEgath : Nat := 1
def opEscat : Nat := 2
def opEacc : Nat := 3
def opEmark : Nat := 4
def opEroute : Nat := 7
def opEbatch : Nat := 8
def opEldred : Nat := 9
def opEcarry : Nat := 0xB
def opEcoll : Nat := 0xC
def opEget : Nat := 0xD
def opEput : Nat := 0xE
def opEmcast : Nat := 0xF
def opEappend : Nat := 0x10
def opEfset : Nat := 0x14

/-- Bits [hi:lo] of a line captured at issue: a policy block, a member string, a descriptor. -/
def Cmd.l (c : Cmd) (hi lo : Nat) : Nat := bits c.line.toNat hi lo

/-- Whether only the listed fields, the patch descriptors and the hardware's fields are set (R124, R126). -/
def onlyFields (r : Nat) (fs : List (Nat × Nat)) : Bool :=
  ([(31, 0), (63, 57), (1023, 976)] ++ fs).foldl (fun (v : Nat) (p : Nat × Nat) => v - 2 ^ p.2 * bits v p.1 p.2) r == 0

/-- `CWK` and, where it is not zero, `CWA`; `WAIT` and `SIG`. -/
def Cmd.commonFields (c : Cmd) : List (Nat × Nat) :=
  [(575, 512), (639, 576), (35, 34)] ++ (if c.cwk == 0 then [] else [(703, 640)])

/-- The fields of a copy: endpoints, shape, conversion, bitmap. DESIGN CHOICE (log 71): a field that another field
switches off is one that the command does not use, so `BMP` and `BCLR` under `BEN` = 0, `CWA` under `CWK` = 0 and `FOLLOW`
under `FLW` = 0 must be zero. -/
def Cmd.copyFields (c : Cmd) : List (Nat × Nat) :=
  c.commonFields ++ [(127, 64), (255, 128), (447, 256), (511, 448), (55, 53), (52, 46), (41, 41)]
    ++ (if c.ben then [(45, 42), (40, 40)] else [])

/-! ### Where elements lie (R132 to R135) -/

/-- The base of item `j` at one endpoint: an index moves the source of `egath` and the destination of `escat`. -/
def Cmd.row (c : Cmd) (dst : Bool) (j : Nat) : Nat :=
  let i1 := j % (c.n1 + 1)
  let i2 := j / (c.n1 + 1) % (c.n2 + 1)
  let i3 := j / ((c.n1 + 1) * (c.n2 + 1))
  let m : Int := if (c.op == opEgath && !dst) || (c.op == opEscat && dst) then sx 32 (c.idx.getD j 0) else i1
  wrap 64 ((c.base dst : Int) + m * c.str dst 1 + i2 * c.str dst 2 + i3 * c.str dst 3)

/-- An address under orientation `.col`: bits [12:7] and [6:1] exchanged (R133). -/
def swapCol (a : Nat) : Nat := a - bits a 12 1 * 2 + bits a 6 1 * 128 + bits a 12 7 * 2

/-- The format word of a bank as the command sees it: captured for its own cluster's, as it stands for another's
(R66, R444). -/
def Cmd.bankWord (s : State) (c : Cmd) (cl bank : Nat) : Nat :=
  (KMap.getD (if cl == c.cl then c.fmts else (s.cl cl).bfmt) bank 9#64).toNat

/-- A place that an element lies at. -/
inductive Loc where
  | sram (cl off : Nat)
  | va (a : Nat)
  | far (peer key va : Nat)
  | group (off : Nat)
  deriving DecidableEq, Repr

/-- What an engine meets at an element: a fault that parks it, or a wait. -/
inductive Snag where
  | park (cause : BitVec 8) (addr : Nat)
  | wait
  deriving DecidableEq, Repr

/-- An action of an engine. One that snags leaves no effect. -/
abbrev EAct (α : Type) := StateT State (Except Snag) α

def parkAt {α : Type} (cause : BitVec 8) (addr : Nat) : EAct α := fun _ => .error (.park cause addr)
def holdOn {α : Type} : EAct α := fun _ => .error .wait

/-- What a cause met at an address means to an engine: an owed line makes it wait (R17). -/
def snagOf (c : BitVec 8) (a : Nat) : Snag := if c == owedCause then .wait else .park c a

def liftE {α : Type} (a : Nat) (f : State → Except (BitVec 8) (State × α)) : EAct α := fun s =>
  match f s with
  | .ok (s1, v) => .ok (v, s1)
  | .error c => .error (snagOf c a)

def liftEU (a : Nat) (f : State → Except (BitVec 8) State) : EAct Unit := fun s =>
  match f s with
  | .ok s1 => .ok ((), s1)
  | .error c => .error (snagOf c a)

/-- Fetches of scratchpad rows by an engine, or of one column: an uncorrectable error has cause 0xC0 (R406). -/
def eccRows (cl : Nat) (ls : List Nat) (a : Nat) : EAct Unit := fun s =>
  match rowsEcc cl ls s with
  | some s1 => .ok ((), s1)
  | none => .error (.park 0xC0#8 a)

def eccCol (cl k a : Nat) : EAct Unit := fun s =>
  match colsEcc cl [k] s with
  | some s1 => .ok ((), s1)
  | none => .error (.park 0xC0#8 a)

/-- Where the `n` bytes at an address of an endpoint lie, with the format word that converts them there (R62). -/
def Cmd.locate (c : Cmd) (dst : Bool) (a n : Nat) : EAct (Loc × Nat) := do
  let s ← get
  let window (h off : Nat) : EAct (Loc × Nat) := do
    let e ← liftE a (windowCheck c.ctx c.die h off n (if !dst then .rd else if c.op == opEacc then .acc else .wrt))
    pure (.far (winPeer e) (winKey e) (winBase e + off), c.fmtField dst)
  let scratch (cl off : Nat) : EAct (Loc × Nat) :=
    if away s c.ctx cl then holdOn
    else if inBanks (s.cl cl) off then pure (.sram cl off, c.bankWord s cl (off / 65536))
    else parkAt 0x27#8 a
  if c.unit == .fabric && c.op == opEmcast && dst then pure (.group a, c.fmtField dst)
  else
    match c.kind dst with
    | 0 =>
      match coord s c.ctx c.cl a false with
      | .error e => parkAt e a
      | .ok (cl, off) => scratch cl off
    | 1 =>
      let x ← liftE a (fun s => translate c.who a dst (c.op == opEacc && dst) s)
      match x.tgt with
      | .sram cl off => if s.granted c.ctx c.cl cl then scratch cl off else parkAt 0x26#8 a
      | .window h off => window h off
      | .host _ => if c.op == opEacc && dst then parkAt 0x63#8 a else pure (.va a, c.fmtField dst)
      | _ => pure (.va a, c.fmtField dst)
    | _ => window (bits a 63 48) (bits a 47 0)

/-- The byte address of element `i0` of a run of slots of `z` bits, and whether it is a byte's high nibble. -/
def Cmd.elemAddr (c : Cmd) (dst : Bool) (row z i0 : Nat) : Nat × Bool :=
  let a := (row + z * i0 / 8) % 2 ^ 64
  (if c.col dst then swapCol a else a, z * i0 % 8 != 0)

/-- Bytes of a slot of `z` bits. -/
def slotBytes (z : Nat) : Nat := max 1 (z / 8)

/-- The format word at an address of an endpoint, as the tables stand: a scratchpad bank's, or the command's field. -/
def Cmd.wordAt (c : Cmd) (s : State) (dst : Bool) (a : Nat) : Nat :=
  match c.kind dst with
  | 0 =>
    match coord s c.ctx c.cl a false with
    | .ok (cl, off) => c.bankWord s cl (off / 65536)
    | .error _ => 9
  | 1 =>
    match translate c.who a dst true s with
    | .ok (_, x) =>
      match x.tgt with
      | .sram cl off => c.bankWord s cl (off / 65536)
      | _ => c.fmtField dst
    | .error _ => c.fmtField dst
  | _ => c.fmtField dst

/-- The format word at an endpoint's base. -/
def Cmd.issueWord (c : Cmd) (s : State) (dst : Bool) : Nat := c.wordAt s dst (c.base dst)

/-- The slot by which item `j`'s elements lie apart: that of the place it starts at (R132). -/
def Cmd.slotAt (c : Cmd) (s : State) (dst : Bool) (j : Nat) : Nat :=
  slotBits (c.wordAt s dst (c.elemAddr dst (c.row dst j) 8 0).1)

/-- Bytes that item `j`'s run covers. -/
def Cmd.runLen (c : Cmd) (s : State) (dst : Bool) (j : Nat) : Nat := (c.slotAt s dst j * (c.n0 + 1) + 7) / 8

/-- Whether an index moves the endpoint (R135). -/
def Cmd.moved (c : Cmd) (dst : Bool) : Bool := (c.op == opEgath && !dst) || (c.op == opEscat && dst)

/-- The format words of the scratchpad banks that the items of a coordinate endpoint reach; of a virtual endpoint, or one
that an index moves, that of the base. -/
def Cmd.issueWords (c : Cmd) (s : State) (dst : Bool) : List Nat :=
  if c.kind dst != 0 || c.moved dst then [c.issueWord s dst]
  else
    ((List.range c.items_).flatMap fun j =>
      match coord s c.ctx c.cl (c.row dst j) false with
      | .error _ => []
      | .ok (cl, off) =>
        let hi := (off + c.runLen s dst j - 1) / 65536
        (List.range (hi + 1 - off / 65536)).map fun i => c.bankWord s cl (off / 65536 + i)).eraseDups

/-! ### Fills (R17, R122) -/

/-- A fill of a command. -/
def Fill.of (f : Fill) (c : Cmd) : Bool := f.cl == c.cl && f.unit == c.unit && f.seq == c.seq && f.gang == c.gang && !f.slab

/-- The fill by which command `c` owes a line. -/
def fillOf (s : State) (c : Cmd) (l : LineRef) : Option Fill := s.fills.find? fun f => f.of c && f.line == l

/-- The line's owed bit set or cleared. -/
def State.setOwed (s : State) (l : LineRef) (b : Bool) : State :=
  match l with
  | .sram cl n => s.modCl cl fun x => { x with owed := if b then KMap.set x.owed n 1 else KMap.erase x.owed n }
  | .tile d r c sl n =>
    s.modDie d fun x =>
      { x with tiles := KMap.modify x.tiles (24 * r + c) Tile.reset fun t =>
          { t with states := KMap.set t.states (64 * sl + n) (if b then .owed else .free) } }

/-- Whether a line is owed to any fill. -/
def lineOwed (s : State) (l : LineRef) : Bool := s.fills.any fun f => f.line == l

/-- Whether a scratchpad line of a context is owed to any fill, one that waits with a spilled task among them (R288). -/
def owedHome (s : State) (ctx cl n : Nat) : Bool :=
  if away s ctx cl then
    s.spilled.any fun p => p.from_ == cl && p.ctx == ctx && p.fills.any fun f => f.line == .sram cl n
  else lineOwed s (.sram cl n)

/-- A fill begins to owe a scratchpad line of a context, in its image while its task is spilled (R17, R288). -/
def oweHome (ctx cl : Nat) (f : Fill) (s : State) : State :=
  if away s ctx cl then
    { s with spilled := s.spilled.map fun p => if p.from_ == cl && p.ctx == ctx then { p with fills := p.fills ++ [f] } else p }
  else State.setOwed { s with fills := s.fills ++ [f] } f.line true

/-- Whether a line is owed to a fill that command `c` waits for: another agent's, or one of a command issued before it to
the same engine. A later command of its engine writes only after it (R140). -/
def owedBefore (s : State) (c : Cmd) (l : LineRef) : Bool :=
  s.fills.any fun f => f.line == l && !(f.of c)
    && !(f.cl == c.cl && f.unit == c.unit && f.gang == c.gang && f.seq != c.seq && (f.seq - c.seq).toNat < 2147483648)

/-- Fills given up: a line that they owe keeps what it holds (R122); with them those that wait with a spilled task
(R288). -/
def State.dropFills (gone : Fill → Bool) (s : State) : State :=
  let s1 : State :=
    { s with
      fills := s.fills.filter fun f => !gone f
      spilled := s.spilled.map fun p => { p with fills := p.fills.filter fun f => !gone f } }
  (s.fills.filter gone).foldl (fun s f => s.setOwed f.line false) s1

/-- A fill begins: its line is owed to command `c`. -/
def beginFill (c : Cmd) (counted : Bool) (l : LineRef) (s : State) : State :=
  let f : Fill := ⟨l, [], c.unit, c.cl, c.seq, c.gang, 0, c.tag, counted, false⟩
  State.setOwed { s with fills := s.fills ++ [f] } l true

/-- A phase tag that a byte counter of the cluster refuses for a line (R358). -/
def tagRefused (x : Cluster) (line : Nat) (tag : BitVec 32) : Bool :=
  x.counters.any fun e =>
    e.2.bound && e.2.base ≤ line && line < e.2.base + e.2.lines && tag != e.2.phase && tag != e.2.phase + 1#32

/-- Bytes put on their way to a scratchpad line by a command: the line becomes owed where it is not yet; a line owed
to another fill makes the command wait. -/
def deliver (c : Cmd) (counted : Bool) (cl off : Nat) (bs : List Byte) : EAct Unit := do
  let s ← get
  let l := LineRef.sram cl (off / 128)
  if counted && tagRefused (s.cl cl) (off / 128) c.tag then parkAt 0x71#8 (4194304 * cl + off)
  else
    let mine := (fillOf s c l).isSome
    if !mine && lineOwed s l then holdOn
    else
      let s1 := if mine then s else beginFill c counted l s
      let new := bs.mapIdx fun i b => (off % 128 + i, b)
      let add (f : Fill) : Fill :=
        if f.of c && f.line == l then { f with bytes := new.reverse ++ f.bytes, counted := f.counted || counted } else f
      set { s1 with fills := s1.fills.map add }

/-- A byte of a scratchpad as command `c` sees it, its own bytes on their way included. -/
def ownByte (s : State) (c : Cmd) (cl off : Nat) : Byte :=
  match (fillOf s c (.sram cl (off / 128))).bind fun f => (f.bytes.find? fun b => b.1 == off % 128).map (·.2) with
  | some b => b
  | none => (sramRead (s.cl cl) off 1).getD 0 0#8

/-- The task that issued a command is gone from its cluster (R148); a saved task is not. -/
def exited (s : State) (c : Cmd) : Bool :=
  c.thr != some 9 && ((s.cl c.cl).task.map (·.gang)) != some c.gang
    && s.spilled.all fun p => !(p.from_ == c.cl && p.ctx == c.ctx && (p.image.task.map (·.gang)) == some c.gang)

/-! ### One element -/

/-- Key of a byte of a peer's memory. -/
def farKey (peer va : Nat) : Nat := peer * 2 ^ 48 + va

/-- The code at a place of an endpoint, in a slot of `z` bits. A column fetch tests the 64 lines of its block (R121,
R133). -/
def elemRead (c : Cmd) (dst : Bool) (l : Loc) (z : Nat) (high : Bool) (addr : Nat) : EAct Nat := do
  let s ← get
  let pick (bs : List Byte) : Nat := if z == 4 then (leNat bs >>> (if high then 4 else 0)) % 16 else leNat bs
  match l with
  | .sram cl off =>
    let ls := if c.col dst then blockLines off else [off / 128]
    if ls.any fun n => owedBefore s c (.sram cl n) then holdOn
    else do
      if c.col dst then eccCol cl (off / 8192 * 64 + bits off 6 1) addr else eccRows cl [off / 128] addr
      let s1 ← get
      pure (pick ((List.range (slotBytes z)).map fun i => ownByte s1 c cl (off + i)))
  | .va a => do
    let bs ← liftE addr (vaRead c.who a (slotBytes z))
    pure (pick bs)
  | .far p _ a => pure (pick (Mem.read c.got (farKey p a) (slotBytes z)))
  | .group _ => pure 0

/-- A code stored at a local place. What an exited task's command would write into its scratchpad is discarded. -/
def elemWrite (c : Cmd) (l : Loc) (z : Nat) (high : Bool) (addr code : Nat) : EAct Unit := do
  let s ← get
  let merge (old : Nat) : Nat := if high then old % 16 + 16 * (code % 16) else old / 16 * 16 + code % 16
  match l with
  | .sram cl off =>
    if exited s c && cl == c.cl then set { s with dropped := s.dropped + 1 }
    else if z == 4 then deliver c true cl off (natLe 1 (merge (ownByte s c cl off).toNat))
    else deliver c true cl off (natLe (z / 8) code)
  | .va a => do
    if z == 4 then liftEU addr (vaMerge c.who a 1 merge) else liftEU addr (vaWrite c.who a (natLe (z / 8) code))
    let x ← liftE addr (translate c.who a true false)
    match x.tgt with
    | .dev dpa => modify fun s => s.modCl c.cl fun y => l1Drop y dpa (slotBytes z)
    | _ => pure ()
  | _ => pure ()

/-- Rounding of the element at position `pos` (R64): stream 6, ordinal `SEQ`. R64 names stream 6 for the copy engine, and R315
carries it to `eget` and `eput`; DESIGN CHOICE (log 68): the commands of every queue use it. -/
def Cmd.round (c : Cmd) (pos : Nat) : Rm :=
  let mode := if c.rm == 7 then c.rmode.toNat % 8 else c.rm
  rmOfCode mode (if mode == 4 then draw c.seed 6 c.seq.toNat pos else 0)

/-! ### Places, for order against the issuing cluster (R140) -/

/-- The places of item `j` at one endpoint; anywhere while an index list that moves it has not been read. -/
def Cmd.places (c : Cmd) (s : State) (dst : Bool) (j : Nat) : List Place :=
  let a := c.row dst j
  let n := c.runLen s dst j
  if c.moved dst && c.idx.isEmpty then [.any]
  else
    match c.kind dst with
    | 0 =>
      match coord s c.ctx c.cl a false with
      | .error _ => []
      | .ok (cl, off) =>
        let last := off + n - 1
        [if c.col dst then .sram cl (off / 8192 * 64) (last / 8192 * 64 + 64) else .sram cl (off / 128) (last / 128 + 1)]
    | 1 => (linesOf a n).map fun l => vaPlace s c.ctx c.cl (128 * l)
    | _ => []

/-- Items not performed yet. -/
def Cmd.undone (c : Cmd) : List Nat :=
  if c.op == opEmark || c.cancelled then []
  else (List.range c.items_).filter fun j =>
    if c.op == opEacc then (List.range (c.n0 + 1)).any fun i => !c.items.contains (j * (c.n0 + 1) + i)
    else !c.items.contains j

/-- The places of `n` bytes at an address of kind `k`. -/
def Cmd.extent (c : Cmd) (s : State) (k a n : Nat) : List Place :=
  if n == 0 then []
  else
    match k with
    | 0 =>
      match coord s c.ctx c.cl a false with
      | .error _ => []
      | .ok (cl, off) => [.sram cl (off / 128) ((off + n - 1) / 128 + 1)]
    | 1 => (linesOf a n).map fun l => vaPlace s c.ctx c.cl (128 * l)
    | _ => []

/-- Groups that `ebatch` writes whatever its items are: a group takes 64 of them at most (R294). -/
def Cmd.sureGroups (c : Cmd) : Nat := (c.n0 + 64) / 64

/-- The scratchpad outputs that a die engine's command is committed to fill, owed to it from acceptance to retirement (R17,
R271): route records and the sender's report, the groups and counts that are sure to come. -/
def Cmd.outputs (c : Cmd) (s : State) : List Place :=
  match c.unit with
  | .sluice =>
    (if c.l 965 965 == 1 then [] else c.extent s 0 (c.l 767 704) (128 * (c.n1 + 1)))
      ++ c.extent s 0 (c.l 703 640) (128 + 16 * (c.n0 + 1))
  | .batcher =>
    let out := (if bit c.follows 5 then 256 else 128) * popBits 5 (bits c.follows 4 0)
    ((List.range c.sureGroups).flatMap fun (g : Nat) => c.extent s 0 (wrap 64 ((c.dst : Int) + (g : Int) * c.str true 1)) out)
      ++ c.extent s 0 c.aux (4 * c.sureGroups)
  | _ => []

/-- Where further groups and counts of `ebatch` may come. -/
def Cmd.furtherOutputs (c : Cmd) (s : State) : List Place :=
  let g := c.sureGroups
  let a := c.aux + (4 * g + 127) / 128 * 128
  c.extent s 0 (wrap 64 ((c.dst : Int) + (g : Int) * c.str true 1)) ((c.n0 + 1 - g) * (c.str true 1).toNat)
    ++ c.extent s 0 a (c.aux + 4 * (c.n0 + 1) - a)

/-- The index list of `egath` and `escat`, until it has been read (R135), and the compare list of `eacc`, while elements are
left that read it (R138). -/
def Cmd.listTouches (c : Cmd) (s : State) : List Touch :=
  if (c.op == opEgath || c.op == opEscat) && c.idx.isEmpty then rds (c.extent s 0 c.aux (4 * (c.n1 + 1)))
  else if c.op == opEacc && c.opx == 9 && !c.undone.isEmpty then
    rds (c.extent s 0 c.aux (slotBytes (slotBits (c.issueWord s true)) * c.elems))
  else []

/-- The accesses that a held command has still to make (R140, R271). -/
def Cmd.owedTouches (c : Cmd) (s : State) : List Touch :=
  match c.unit with
  | .sluice =>
    (if c.l 965 965 == 1 then []
      else (c.undone.flatMap fun j => rds (c.places s false j))
        ++ rds (c.extent s 0 (c.l 831 768) (128 * (c.l 964 962 + 1) * (c.n1 + 1))))
      ++ wrs (c.outputs s)
  | .batcher =>
    if c.undone.isEmpty then [] else rds (c.extent s (c.kind false) c.src (16 * (c.n0 + 1))) ++ wrs (c.furtherOutputs s)
  | .compaction =>
    if c.undone.isEmpty || c.opx == 1 then []
    else rds (c.extent s (c.kind false) c.src (8 * (c.n0 + 1))) ++ (if c.aux == 0 then [] else rds (c.extent s 0 c.aux (2 * (c.n0 + 1))))
  | .collective =>
    (if c.started then [] else rds (c.extent s 1 c.src (c.idx.getD 0 0)))
      ++ (if c.undone.isEmpty then [] else wrs (c.extent s 1 c.dst (c.idx.getD 1 0)))
  | .fabric =>
    if c.op == opEgroup then []
    else if c.op == opEcarry then if c.started then [] else rds (c.extent s 0 c.src (128 * (c.n0 + 1)))
    else if c.op == opEldred then
      (if c.started || !bit c.follows 12 then [] else rds (c.places s false 0))
        ++ (if c.undone.isEmpty then [] else wrs (c.places s true 0))
    else c.undone.flatMap fun j => rds (c.places s false j) ++ wrs (c.places s true j)
  | .copy => c.listTouches s ++ c.undone.flatMap fun j => rds (c.places s false j) ++ wrs (c.places s true j)

/-- Commands whose scratchpad lines owed bits order, once they are known. -/
def Cmd.owesLines (c : Cmd) : Bool :=
  (c.unit == .copy && !(c.op == opEscat && c.idx.isEmpty)) || (c.unit == .fabric && c.op == opEget) || c.unit == .sluice

/-! ### Follow-on words (R141, R262) -/

/-- The accumulator set and the slabs that an M instruction names. -/
def accOf : Instr → Option (BitVec 2)
  | .mmac _ _ a .. | .mmacs _ _ a .. | .mrot _ _ a .. | .mgx _ _ a .. | .mgrp _ _ a .. => some a
  | .mchk _ _ a => some a
  | .mzero _ a | .mkeep _ a => some a
  | .mdrain _ a _ => some a
  | .mmov _ a .. => some a
  | _ => none

def slabsOf : Instr → List (BitVec 3)
  | .mmac _ _ _ a b _ | .mrot _ _ _ a b _ => [a, b]
  | .mmacs _ _ _ a b _ qa _ qb _ => [a, b, qa, qb]
  | .mgx _ _ _ b .. => [b]
  | .mfill _ _ k .. => [k]
  | .mrel _ k => [k]
  | _ => []

/-- The slabs that an instruction of a cluster names, with the second of each pair that a tile of its grove holds an FP32
source in. -/
def slabsNamed (s : State) (cl : Nat) (i : Instr) : List Nat :=
  let g := (s.cl cl).grove
  (slabsOf i).flatMap fun k =>
    let pair := (List.range (g.h * g.w)).any fun n =>
      ((KMap.get? (s.die (dieOf cl)).tiles (24 * (g.row + n / g.w) + g.col + n % g.w)).map fun u =>
        bits (KMap.getD u.tags k.toNat 0#64).toNat 3 0 == 10).getD false
    if pair then [k.toNat, k.toNat + 1] else [k.toNat]

/-- Whether an instruction gives the cluster another grove, and so names every set and slab. -/
def reshapes : Instr → Bool
  | .mshape .. => true
  | _ => false

/-- The word in `FOLLOW`. -/
def Cmd.followWord (c : Cmd) : Option Instr :=
  match decode ((List.range 6).map fun i => BitVec.ofNat 32 (c.follows >>> (32 * i))) with
  | .ok i => some i
  | .error _ => none

/-- Whether a command's follow-on may execute: the last byte of its last item has landed, and the M PC has passed the
command's position. -/
def followReady (s : State) (c : Cmd) : Bool :=
  c.follow == .owed && c.started && c.parked.isEmpty && c.undone.isEmpty && c.acks == 0
    && !(s.fills.any fun f => f.of c) && (c.thr.isSome || c.dp < (s.cl c.cl).wM.dp)

/-- The commands of a cluster's task whose follow-on is still to run. -/
def followsOwed (x : Cluster) : List Cmd :=
  x.cmds.filter fun c => c.unit == .copy && c.follow == .owed && (x.task.map (·.gang)) == some c.gang

/-- The stream pointers that an instruction uses. -/
def pointersOf (i : Instr) : List Nat := (streamOps i).filterMap fun o => match o with | .p k => some k.toNat | _ => none

/-- Whether two M instructions name one accumulator set or slab, or use one stream pointer, or one of them reshapes the
grove. -/
def shareNames (s : State) (cl : Nat) (i j : Instr) : Bool :=
  reshapes i || reshapes j || ((accOf i).isSome && accOf i == accOf j) || ((pointersOf i).any fun k => (pointersOf j).contains k)
    || (slabsNamed s cl i).any fun k => (slabsNamed s cl j).contains k

/-- Whether a C instruction may carry a follow-on. -/
def mayFollow : Instr → Bool
  | .ecopy .. | .egath .. | .escat .. => true
  | _ => false

/-- Whether the M instruction `i` at its PC's position waits for a follow-on of a C instruction before it (R141, R262): one
that is ready goes ahead of every M instruction; one still owed, of those that share its names; and a C instruction that S
has not issued yet may carry either. -/
def awaitsFollow (s : State) (cl : Nat) (w : Who) (t : Task) (i : Instr) : Bool :=
  let x := s.cl cl
  let q := x.wM.dp
  (followsOwed x).any (fun c => followReady s c || (c.thr.isNone && decide (c.dp < q) && match c.followWord with
    | some j => shareNames s cl i j
    | none => false))
  || (x.trail.filter fun p => x.wS.dp ≤ p.1 && p.1 < q).any fun p =>
    match peekInstr x.wS.text w t p.2 s with
    | some j => mayFollow j
    | none => (peekTag x.wS.text w t p.2 s) == some .C

/-- The accesses to scratchpad and to vector names of follow-ons still to run, at their commands' positions with the registers
captured there (R262, R263). -/
def followTouches (s : State) (cl : Nat) (thr : Option Nat) : List Touch :=
  let x := s.cl cl
  ((followsOwed x).filter fun c => c.thr == thr).flatMap fun c =>
    match c.followWord with
    | none => []
    | some i =>
      let y := { x with sregs := c.sregs, bfmt := c.fmts, owedVers := [] }
      touches s (y.setWalk .M { y.wM with dp := c.dp }) cl .M true i

/-- Whether accesses of the issuing agent must wait for a held command: a read for its write to device memory, a
write for any access of it that owed bits do not order, and either for what its follow-on accesses (R140, R263, R271). -/
def heldBack (s : State) (cl : Nat) (thr : Option Nat) (mine : List Touch) : Bool :=
  let own (c : Cmd) : Bool := c.thr == thr && (thr == some 9 || ((s.cl cl).task.map (·.gang)) == some c.gang)
  !mine.isEmpty
    && (((s.cl cl).cmds.any fun c => own c && (c.owedTouches s).any fun t =>
        (match t.1, t.2 with | .sram .., true => !c.owesLines | _, _ => true) && mine.any fun m => clash m t)
      || (followTouches s cl thr).any fun t => mine.any fun m => clash m t)

/-! ### Queues and slots (R128, R271, Table 12.7) -/

/-- Commands of a queue that cluster `cl` holds, and that its die holds. -/
def heldBy (s : State) (u : Unit6) (cl : Nat) : Nat := ((s.cl cl).cmds.filter fun c => c.unit == u).length

def heldOn (s : State) (u : Unit6) (die : Nat) : Nat :=
  ((s.clusters.filter fun e => dieOf e.1 == die).map fun e => (e.2.cmds.filter fun c => c.unit == u).length).sum

/-- A free slot for one more command. -/
def slotFree (s : State) (u : Unit6) (cl : Nat) : Bool :=
  match u with
  | .copy => heldBy s u cl < 8
  | .fabric => heldBy s u cl < 16
  | .collective => heldBy s u cl < 2 && heldOn s u (dieOf cl) < 8
  | .sluice => heldOn s u (dieOf cl) < 8
  | .batcher => heldOn s u (dieOf cl) < 4
  | .compaction => heldOn s u (dieOf cl) < 32

/-- Last `SEQ` issued to a queue. -/
def Cluster.lastSeq (x : Cluster) (u : Unit6) : BitVec 32 := KMap.getD x.seqs (unitNum u) 0#32

/-- Whether a queue's numbers have gone round (R130): kept with the counters, under the queue's number plus 8. -/
def Cluster.gone (x : Cluster) (u : Unit6) : Bool := KMap.getD x.seqs (8 + unitNum u) 0#32 != 0#32

/-- Number `n` is issued to a queue. -/
def Cluster.issueSeq (x : Cluster) (u : Unit6) (n : BitVec 32) : Cluster :=
  let m := KMap.set x.seqs (unitNum u) n
  { x with seqs := if n == 0#32 then KMap.set m (8 + unitNum u) 1#32 else m }

/-- The same command: numbers start again with each task of a cluster (R128), so the gang tells them apart. -/
def Cmd.same (a b : Cmd) : Bool := a.unit == b.unit && a.seq == b.seq && a.gang == b.gang

/-- A held command as it stands. -/
def State.cmdOf (s : State) (c : Cmd) : Option Cmd := (s.cl c.cl).cmds.find? fun k => k.same c

/-- The held command of a number and a gang. -/
def State.cmdAt (s : State) (u : Unit6) (cl : Nat) (seq : BitVec 32) (gang : Nat) : Option Cmd :=
  (s.cl cl).cmds.find? fun c => c.unit == u && c.seq == seq && c.gang == gang

/-- The held command of a number: the present task's, or one that an earlier task left. -/
def State.cmd? (s : State) (u : Unit6) (cl : Nat) (seq : BitVec 32) : Option Cmd :=
  match s.cmdAt u cl seq (((s.cl cl).task.map (·.gang)).getD 0) with
  | some c => some c
  | none => (s.cl cl).cmds.find? fun c => c.unit == u && c.seq == seq

def State.setCmd (s : State) (c : Cmd) : State :=
  s.modCl c.cl fun x => { x with cmds := x.cmds.map fun k => if k.same c then c else k }

/-- Command `k` was issued to its queue before number `n` (modulo 2^32). -/
def seqBefore (k n : BitVec 32) : Bool := k != n && (n - k).toNat < 2147483648

/-- The active slot of a group (R318): its number and content. -/
def activeSlot (s : State) (g : Nat) : Option (Nat × GroupSlot) :=
  ((List.range 2).map fun k => (k, KMap.getD s.groups (2 * g + k) GroupSlot.reset)).find? fun x => x.2.st == 1

/-- The devices of a 1,024-bit string. -/
def devicesOf (m : BitVec 1024) : List Nat := (List.range 1024).filter fun d => m.getLsbD d

/-! ### Issue (R125) -/

/-- The offset of a line or list in the issuing cluster's own scratchpad (R126): `n` bytes, aligned to `al`. -/
def ownLine (a n al : Nat) : Act Nat := do
  let s ← get
  let own := s.selfCl
  match coord s s.selfCtx own a (a % al != 0) with
  | .error e => trapAt (if e == 0x26#8 then 0x61#8 else e) (BitVec.ofNat 64 a)
  | .ok (cl, off) =>
    if cl != own then trapAt 0x61#8 (BitVec.ofNat 64 a)
    else if !inBanks (s.cl own) off || !inBanks (s.cl own) (off + n - 1) then trapAt 0x27#8 (BitVec.ofNat 64 a)
    else pure off

/-- A line of the own scratchpad read raw at issue, waiting on its owed bit. -/
def ownRead (a n al : Nat) : Act (List Byte) := do
  let off ← ownLine a n al
  let s ← get
  awaitOwed s.selfCl (linesOf off n)
  pure (sramRead (s.cl s.selfCl) off n)

/-- The patch descriptors: (enabled, dword) of each, or 0x60. -/
def patchList (r : Nat) (fs : List Reg) : Except (BitVec 8) (List (Nat × Reg)) :=
  let ds := (List.range 4).map fun j => (bits r (8 * j + 7) (8 * j), fs.getD j 0#6)
  let on := (ds.filter fun d => 128 ≤ d.1).map fun d => (d.1 % 16, d.2)
  if ds.any (fun d => bits d.1 6 4 != 0 || (d.1 < 128 && d.2 != 0#6)) || on.any (fun d => d.1 == 0 || d.1 == 15)
      || (on.map (·.1)).eraseDups.length != on.length then .error 0x60#8
  else .ok on

/-- Bits [hi:lo] replaced. -/
def putBits (v hi lo x : Nat) : Nat := v - 2 ^ lo * bits v hi lo + 2 ^ lo * (x % 2 ^ (hi + 1 - lo))

/-- The command built from the template at s[A]: patched, with `CMD` and `CTX`; the registers that it captures
(R66, R125). Its number is set when it is kicked. -/
def template (u : Unit6) (op : Nat) (a : Reg) (fs : List Reg) : Act Cmd := do
  let s ← get
  let bs ← ownRead (s.rd a).toNat 128 128
  let r := leNat bs
  match patchList r fs with
  | .error e => trap e
  | .ok ps =>
    let r1 := ps.foldl (fun v p => putBits v (64 * p.1 + 63) (64 * p.1) (s.rd p.2).toNat) r
    let r2 := putBits (putBits (putBits r1 63 57 op) 991 976 s.selfCtx) 1023 992 0
    let t := s.selfTask
    let x := s.cl s.selfCl
    let regs := match s.selfRake with
      | some k => k.regs
      | none => x.sregs
    pure
      { unit := u, seq := 0#32, raw := BitVec.ofNat 1024 r2, cl := s.selfCl
        thr := (match s.actor with | .pc .. => none | _ => some (agentNum s))
        die := s.selfDie, ctx := s.selfCtx, agent := (t.map (·.agent)).getD 0, gang := s.selfGang
        priv := (t.map (·.priv)).getD false, dp := s.selfDp, tag := x.bphase, gen := s.sstepOf s.selfGang
        rmode := x.rmode, seed := x.rseed, fmts := x.bfmt, sregs := regs, line := 0#1024, started := false, items := []
        parked := [], next := 0, acks := 0, follow := .none, cancelled := false, status := 0, missing := 0#1024
        idx := [], marks := [], flagged := false, got := [], owing := [], lost := [], born := 0 }

/-- The completion word's fields (R124, R130, R314): kind, alignment `al`, and a coordinate address checked. -/
def checkCwa (c : Cmd) (al : Nat) : Act Unit := do
  trapIf (c.cwk == 3) 0x60#8
  if c.cwk == 1 then
    let s ← get
    let p ← liftC c.cwa (coord s c.ctx c.cl c.cwa (c.cwa % al != 0))
    if inBanks (s.cl p.1) p.2 then pure () else trapAt 0x27#8 (BitVec.ofNat 64 c.cwa)
  else if c.cwk == 2 && c.cwa % al != 0 then trapAt 0x28#8 (BitVec.ofNat 64 c.cwa)
  else pure ()

/-- The extent and alignment of a list or an output that a coordinate address names. -/
def checkCoord (c : Cmd) (a n al : Nat) : Act Unit := do
  let s ← get
  let p ← liftC a (coord s c.ctx c.cl a (a % al != 0))
  if inBanks (s.cl p.1) p.2 && inBanks (s.cl p.1) (p.2 + n - 1) then pure () else trapAt 0x27#8 (BitVec.ofNat 64 a)

/-- Every run of a coordinate endpoint lies in scratchpad banks of clusters that the context may reach (R81, R126), its first
element before its last, and no element's slot is wider than the run's (0x28). -/
def checkExtent (c : Cmd) (dst : Bool) : Act Unit := do
  let s ← get
  (List.range c.items_).forM fun j => do
    let a := c.row dst j
    let p ← liftC a (coord s c.ctx c.cl a false)
    if !inBanks (s.cl p.1) p.2 then trapAt 0x27#8 (BitVec.ofNat 64 a)
    else
      let q ← liftC a (coord s c.ctx c.cl ((a + c.runLen s dst j - 1) % 2 ^ 64) false)
      if p.1 != q.1 then trapAt 0x24#8 (BitVec.ofNat 64 a)
      else if !inBanks (s.cl q.1) q.2 then trapAt 0x27#8 (BitVec.ofNat 64 a)
      else if (List.range (q.2 / 65536 - p.2 / 65536)).any fun i =>
          c.slotAt s dst j < slotBits (c.bankWord s p.1 (p.2 / 65536 + 1 + i)) then trapAt 0x28#8 (BitVec.ofNat 64 a)
      else pure ()

/-- The checks of one endpoint of a copy that need no address (R126): kind, format, orientation, and the slots of every bank
that it reaches. -/
def Cmd.sideOk (c : Cmd) (s : State) (dst : Bool) (kinds : List Nat) : Bool :=
  let k := c.kind dst
  kinds.contains k && (if k == 0 then c.fmtField dst == 0 else fmtWordOk (c.fmtField dst))
    && (c.issueWords s dst).all fun w =>
      let z := slotBits w
      !(c.col dst && (k != 0 || 16 < z)) && !(z == 4 && c.n0 % 2 == 0)

/-- The checks of one endpoint's addresses (R126): alignment of base and strides to the slot of every bank that it reaches,
and the extent of a coordinate endpoint. Of the side that an index moves, alignment alone (R135). -/
def checkSide (c : Cmd) (dst : Bool) : Act Unit := do
  let s ← get
  let a := c.base dst
  if c.kind dst == 0 && !c.moved dst then
    match coord s c.ctx c.cl a false with
    | .error e => if e == 0x24#8 then trapAt e (BitVec.ofNat 64 a) else pure ()
    | .ok _ => pure ()
  else pure ()
  let zs := (c.issueWords s dst).map fun w => slotBytes (slotBits w)
  if zs.any fun z => a % z != 0 || [1, 2, 3].any (fun k => c.str dst k % (z : Int) != 0) then trapAt 0x28#8 (BitVec.ofNat 64 a)
  else if c.kind dst == 0 && !c.moved dst then checkExtent c dst
  else pure ()

/-- A range cut where pages may end: starts and lengths. -/
def pageParts (a n : Nat) : List (Nat × Nat) :=
  (List.range ((a + n + 65535) / 65536 - a / 65536)).map fun i =>
    let lo := max a (65536 * (a / 65536 + i))
    (lo, min (a + n) (65536 * (a / 65536 + i) + 65536) - lo)

/-- What of an endpoint's runs lies on fabric windows lies within them, and has the right asked for (R308). The runs that an
index moves are met as the command runs. -/
def checkWindow (c : Cmd) (dst : Bool) (r : Right) : Act Unit :=
  if c.moved dst then pure ()
  else
    (List.range c.items_).forM fun j => do
      let s ← get
      let a := c.row dst j
      let n := c.runLen s dst j
      match c.kind dst with
      | 2 =>
        let _ ← liftA a (windowCheck c.ctx c.die (bits a 63 48) (bits a 47 0) n r)
        pure ()
      | 1 =>
        (pageParts a n).forM fun q => do
          let s ← get
          match translate c.who q.1 dst true s with
          | .ok (s1, x) =>
            match x.tgt with
            | .window h off =>
              let _ ← liftA q.1 (fun _ => windowCheck c.ctx c.die h off q.2 r s1)
              pure ()
            | _ => pure ()
          | .error _ => pure ()
      | _ => pure ()

/-! ### Kick and acceptance (R125, R128) -/

/-- The scoreboard of the task that issued a command: a spilled task's lies in its image (R147, R330; log 85). -/
def Cmd.board (c : Cmd) (s : State) : Word :=
  match s.spilled.find? fun p => p.from_ == c.cl && p.ctx == c.ctx && (p.image.task.map (·.gang)) == some c.gang with
  | some p => p.image.scoreboard
  | none => (s.cl c.cl).scoreboard

/-- Whether every scoreboard bit that the command waits for is set (R129); what an exited task has left is parked, and so was
ready before (R148). -/
def Cmd.ready (c : Cmd) (s : State) : Bool := exited s c || c.board s &&& BitVec.ofNat 64 c.waits == BitVec.ofNat 64 c.waits

/-- The lines of the values that item `j` of an `eacc` returns (R138). -/
def Cmd.returnLines (c : Cmd) (s : State) (j : Nat) : List LineRef :=
  if c.op == opEacc && c.ret != 0 then
    match coord s c.ctx c.cl c.ret false with
    | .ok (cl, off) =>
      let b := slotBytes (c.slotAt s true j)
      (linesOf (off + b * j * (c.n0 + 1)) (b * (c.n0 + 1))).map fun l => LineRef.sram cl l
    | .error _ => []
  else []

/-- The scratchpad lines that item `j` fills: those of its elements, each in the slot of the bank it lies in, and for `eacc`
those of its returned values. -/
def Cmd.fillsOf (c : Cmd) (s : State) (j : Nat) : List LineRef :=
  let row := c.row true j
  let z := c.slotAt s true j
  let main := (List.range (c.n0 + 1)).filterMap fun i =>
    match (c.locate true (c.elemAddr true row z i).1 (slotBytes z)) s with
    | .ok ((.sram cl off, _), _) => some (LineRef.sram cl (off / 128))
    | _ => none
  (main ++ c.returnLines s j).eraseDups

/-- Whether a byte counter counts what lands on a line for the command: updates of an `eacc` never count (R358). -/
def Cmd.counts (c : Cmd) (s : State) (l : LineRef) : Bool :=
  c.op != opEacc || (List.range c.items_).any fun j => (c.returnLines s j).contains l

/-- Whether an item's bitmap bit is set from before (R136). -/
def doneBefore (s : State) (c : Cmd) (j : Nat) : Bool :=
  c.ben && !c.bclr && (KMap.getD (s.cl c.cl).cbm c.bmp 0#4096).getLsbD j

/-- The index list of `egath` and `escat`, read under the owed-line rule (R135). -/
def readList (c : Cmd) : EAct (List Nat) := do
  let s ← get
  match coord s c.ctx c.cl c.aux false with
  | .error e => parkAt e c.aux
  | .ok (cl, off) =>
    let ls := linesOf off (4 * (c.n1 + 1))
    if ls.any fun l => owedBefore s c (.sram cl l) then holdOn
    else do
      eccRows cl ls c.aux
      let s1 ← get
      pure ((List.range (c.n1 + 1)).map fun i => leNat (sramRead (s1.cl cl) (off + 4 * i) 4))

/-- Commands that fill scratchpad lines of their items; `escat` once its list has been read. -/
def Cmd.fillsKnown (c : Cmd) : Bool :=
  (c.unit == .copy && (c.op == 0 || c.op == opEgath || c.op == opEacc || (c.op == opEscat && !c.idx.isEmpty)))
    || (c.unit == .fabric && c.op == opEget)

/-- The lines of scratchpad places. -/
def linesIn (ps : List Place) : List LineRef :=
  ps.flatMap fun p => match p with
    | .sram cl lo hi => (List.range (hi - lo)).map fun i => LineRef.sram cl (lo + i)
    | _ => []

/-- The lines that a command owes from its acceptance, an `escat` from the reading of its list (R17, R128). -/
def Cmd.linesAtAcceptance (c : Cmd) (s : State) : List LineRef :=
  if c.fillsKnown then
    (((List.range c.items_).filter fun j => !doneBefore s c j).flatMap (c.fillsOf s)).eraseDups
  else (linesIn (c.outputs s)).eraseDups

/-- The marker's record of the commands issued before it, an earlier task's among them (R143): those held, and those kicked
but not yet accepted, whose follow-on is owed with them. -/
def marksOf (x : Cluster) (c : Cmd) : List (Unit6 × BitVec 32 × Nat) :=
  let kicked (k : Cmd) : Cmd := { k with follow := if k.flw then .owed else .none }
  (x.cmds ++ (x.kicks.filter fun k => !k.2.accepted).map fun k => kicked k.2.cmd).filterMap fun k =>
    let b : Bool := match k.unit with
      | .copy => bit (c.n0) 0 || (bit c.n0 1 && (k.follow == .owed || k.follow == .ready))
      | .sluice => bit c.n0 2 | .collective => bit c.n0 3 | .compaction => bit c.n0 4
      | .batcher => bit c.n0 5 | .fabric => bit c.n0 6
    if b then some (k.unit, k.seq, k.gang) else none

/-- A command takes its slot: its destination lines are owed, the bitmap register is owned (R128, R136). None while no slot is
free or a line is owed to an earlier fill. -/
def takeSlot (c1 : Cmd) (s0 : State) : Option State :=
  let ls := c1.linesAtAcceptance s0
  if !slotFree s0 c1.unit c1.cl || ls.any (lineOwed s0) then none
  else
    let before := (List.range c1.items_).filter (doneBefore s0 c1)
    let c0 := { c1 with
      born := s0.tick
      items := if c1.op == opEacc then before.flatMap fun j => (List.range (c1.n0 + 1)).map fun i => j * (c1.n0 + 1) + i else before
      follow := if c1.flw then .owed else .none }
    let s1 := s0.modCl c1.cl fun x =>
      { x with
        cmds := x.cmds ++ [c0]
        cbm := if c1.ben && c1.bclr then KMap.set x.cbm c1.bmp 0#4096 else x.cbm }
    some (ls.foldl (fun s l => beginFill c0 (c0.counts s0 l) l s) s1)

/-- Acceptance (R128). That of an `escat` waits for its `WAIT` bits and its list, which alone tell the lines that it fills
(R135; log 55); one whose list cannot be read is accepted with the list parked. -/
def acceptCmd (c : Cmd) (s : State) : Option State :=
  if c.unit == .copy && c.op == opEscat then
    if !c.ready s then none
    else
      match readList c s with
      | .ok (l, s1) => takeSlot { c with idx := l, started := true } s1
      | .error .wait => none
      | .error _ => takeSlot c s
  else takeSlot c s

/-- The kick of agent `who` of a cluster is accepted where it can be. -/
def tryAccept (cl who : Nat) (s : State) : State :=
  match KMap.get? (s.cl cl).kicks who with
  | some k =>
    if k.accepted then s
    else
      match acceptCmd k.cmd s with
      | some s1 => s1.modCl cl fun x => { x with kicks := KMap.set x.kicks who { k with accepted := true } }
      | none => s
  | none => s

/-- A C instruction that issues a command (R125): on its first issue the command is built, checked and kicked as a
release; the instruction ends, with `SEQ` in s[D], once the engine has accepted the command. -/
def issueOp (i : Instr) (p : Pred) (u : Unit6) (op : Nat) (d a : Reg) (fs : List Reg) (check : Cmd → Act Cmd)
    (s : State) : Host.Outcome State Fault Refusal :=
  actOpW i p .engine (do
    let s ← get
    let cl := s.selfCl
    let who := agentNum s
    match KMap.get? (s.cl cl).kicks who with
    | some _ => pure ()
    | none =>
      awaitAll
      let c0 ← template u op a fs
      let c1 ← check c0
      modify fun s =>
        let n := (s.cl cl).lastSeq u + 1#32
        let c2 := { c1 with seq := n, raw := BitVec.ofNat 1024 (putBits c1.raw.toNat 1023 992 n.toNat) }
        s.modCl cl fun x => { x.issueSeq u n with kicks := KMap.set x.kicks who (Kick.mk c2 false) }
    modify (tryAccept cl who)
    let s1 ← get
    match KMap.get? (s1.cl cl).kicks who with
    | some k =>
      if k.accepted then
        set ((s1.modCl cl fun x => { x with kicks := KMap.erase x.kicks who }).wr d (k.cmd.seq.setWidth 64))
        pure true
      else pure false
    | none => pure true) s

/-! ### Parked items (R137, R399) -/

/-- The unit code of a command's engine in the fault log (Table 16.8). -/
def logUnit : Unit6 → Nat
  | .copy => 5
  | _ => 6

/-- A fault-log entry about a command. -/
def State.logCmd (s : State) (c : Cmd) (cause : BitVec 8) (kind item addr xtra : Nat) : State :=
  let e : LogEntry := ⟨cause, kind, c.agent + 1, logUnit c.unit, c.thr.getD 0, c.seq, item, c.gen, addr, xtra⟩
  s.logFault c.ctx e

/-- Item `j` of a command held back, with its cause. -/
def State.holdItem (s : State) (c : Cmd) (j : Nat) (cause : BitVec 8) (addr : Nat) : State :=
  match s.cmdOf c with
  | some k => s.setCmd { k with parked := k.parked ++ [Parked.mk j cause addr] }
  | none => s

/-- An entry that a die engine makes on its own account about a command's round (R271, R398). -/
def State.logDie (s : State) (c : Cmd) (cause : BitVec 8) (item addr xtra : Nat) : State :=
  s.logFault c.ctx ⟨cause, 2, 385 + c.die, 6, 0, c.seq, item, c.gen, addr, xtra⟩

/-- Item `j` of a command is parked with its cause, and logged; an uncorrectable error takes the rollback route. -/
def parkItem (c : Cmd) (j : Nat) (cause : BitVec 8) (addr : Nat) (s : State) : State :=
  let s1 := (s.holdItem c j cause addr).endJoined c.die c.ctx cause addr
  if 0xC0#8 ≤ cause && cause ≤ 0xC6#8 then s1.raiseCheck c.ctx c.gang (c.agent + 1) (logUnit c.unit) cause
  else s1.logCmd c cause 1 j addr 0

/-- The same where the access was made on the die engine's own account, and is logged under the die's id (R271, R275). -/
def parkOwn (c : Cmd) (j : Nat) (cause : BitVec 8) (addr : Nat) (s : State) : State :=
  let s1 := (s.holdItem c j cause addr).endJoined c.die c.ctx cause addr
  if 0xC0#8 ≤ cause && cause ≤ 0xC6#8 then s1.raiseCheck c.ctx c.gang (385 + c.die) (logUnit c.unit) cause
  else s1.logFault c.ctx ⟨cause, 1, 385 + c.die, 6, 0, c.seq, j, c.gen, addr, 0⟩

/-! ### Byte counters (R357 to R359) -/

/-- Byte counter `k` of a cluster. -/
def Cluster.counter (x : Cluster) (k : Nat) : ByteCounter := KMap.getD x.counters k ByteCounter.reset

def Cluster.setCounter (x : Cluster) (k : Nat) (b : ByteCounter) : Cluster := { x with counters := KMap.set x.counters k b }

/-- A report of the phase unit of a cluster. -/
def State.logPhase (s : State) (cl : Nat) : State :=
  match (s.cl cl).task with
  | none => s
  | some t =>
    let e : LogEntry := ⟨0x72#8, 2, t.agent + 1, 6, 0, 0#32, 0, s.sstepOf t.gang, 0, 0⟩
    s.logFault t.ctx e

/-- Counter `k` completes when it is posted and balanced; over-delivery fails it (R359). -/
def settleCounter (cl k : Nat) (s : State) : State :=
  let b := (s.cl cl).counter k
  if !b.pst || b.err then s
  else if b.cur == 0 then
    (s.setFlagOf cl b.flag true).modCl cl fun x =>
      x.setCounter k { b with phase := b.phase + 1#32, cur := b.nxt, nxt := 0, pst := false }
  else if 0 < b.cur then (s.modCl cl fun x => x.setCounter k { b with err := true }).logPhase cl
  else s

/-- `n` bytes tagged `tag` have landed on a line: counter `k` counts them (R358). -/
def countLanding (cl line n : Nat) (tag : BitVec 32) (k : Nat) (s : State) : State :=
  let b := (s.cl cl).counter k
  if !(b.bound && b.base ≤ line && line < b.base + b.lines) then s
  else
    let fail (s : State) : State := (s.modCl cl fun x => x.setCounter k { b with err := true }).logPhase cl
    let big (v : Int) : Bool := 2 ^ 39 ≤ v.natAbs
    if tag == b.phase then
      if big (b.cur + n) then fail s
      else settleCounter cl k (s.modCl cl fun x => x.setCounter k { b with cur := b.cur + n })
    else if tag == b.phase + 1#32 then
      if big (b.nxt + n) then fail s else s.modCl cl fun x => x.setCounter k { b with nxt := b.nxt + n }
    else fail s

/-- A landing counts at every counter of the cluster; regions do not overlap. -/
def countAll (cl line n : Nat) (tag : BitVec 32) (s : State) : State :=
  (List.range 8).foldl (fun s k => countLanding cl line n tag k s) s

/-! ### Landing (R17, R122, R358) -/

/-- Bytes at offsets of one scratchpad line land together; the write's own read may consume an error, which takes the rollback
route for the cluster's task, or, where the cluster has none, for gang `g`, whose bytes they are, and nothing is written
(R406). -/
def landBytes (cl n g : Nat) (data : List (Nat × Byte)) (s : State) : State :=
  match rowsEcc cl [n] s with
  | some s1 => data.foldl (fun s b => sramWrite s cl (128 * n + b.1) [b.2]) s1
  | none =>
    match (s.cl cl).task with
    | some t => s.raiseCheck t.ctx t.gang (t.agent + 1) 0 0xC0#8
    | none => s.raiseCheck (((KMap.get? s.gangs g).map (·.ctx)).getD 0) g 0 5 0xC0#8

/-- The bytes of a fill, the last written at each offset. -/
def Fill.data (f : Fill) : List (Nat × Byte) :=
  ((f.bytes.map (·.1)).eraseDups).map fun o => (o, ((f.bytes.find? fun b => b.1 == o).map (·.2)).getD 0#8)

/-- What waits for another PC alone may move again once a line has landed (R168). -/
def State.stir (s : State) (cl : Nat) : State := s.modCl cl Cluster.clearWaits

/-- Whether an item of a command has been performed, every element of it (R136). -/
def Cmd.performed (c : Cmd) (j : Nat) : Bool :=
  if c.op == opEacc then (List.range (c.n0 + 1)).all fun i => c.items.contains (j * (c.n0 + 1) + i) else c.items.contains j

/-- The bitmap shows the items of a command that are complete: performed, with every line of theirs landed (R136). -/
def markLanded (c0 : Cmd) (s : State) : State :=
  match s.cmdOf c0 with
  | none => s
  | some c =>
    if !c.ben || c.cancelled || exited s c then s
    else
      let owed := (s.fills.filter fun f => f.of c).map (·.line)
      let js := (List.range c.items_).filter fun j => c.performed j && !((c.fillsOf s j).any fun l => owed.contains l)
      s.modCl c.cl fun x =>
        { x with cbm := KMap.modify x.cbm c.bmp 0#4096 fun v => js.foldl (fun (v : BitVec 4096) (j : Nat) => v ||| (1#4096 <<< j)) v }

/-- The fill of a line lands whole: its bytes are stored, the owed bit clears, the bytes are counted, and the bitmap follows
(R17, R122, R136, R358). -/
def landFill (f : Fill) (s : State) : State :=
  let s1 := State.stir { s with fills := s.fills.erase f } f.cl
  match f.line with
  | .sram cl n =>
    let s2 := State.setOwed ((landBytes cl n f.gang f.data s1).stir cl) (.sram cl n) false
    let s3 := if f.counted then countAll cl n f.data.length f.tag s2 else s2
    match s3.cmdAt f.unit f.cl f.seq f.gang with
    | some c => markLanded c s3
    | none => s3
  | .tile d r c sl n =>
    s1.modDie d fun x =>
      { x with tiles := KMap.modify x.tiles (24 * r + c) Tile.reset fun t =>
          { t with
            lines := KMap.set t.lines (64 * sl + n)
              (bytesVec ((List.range 128).map fun o => ((f.bytes.find? fun b => b.1 == o).map (·.2)).getD 0#8))
            lineBad := t.lineBad.filter fun m => m != 64 * sl + n
            states := KMap.set t.states (64 * sl + n) .full } }

/-- Every line that a command still owes lands with what it has put there. -/
def landOwn (c : Cmd) (s : State) : State := (s.fills.filter fun f => f.of c).foldl (fun s f => landFill f s) s

/-! ### Bytes that engines store on a command's behalf -/

/-- Whole bytes stored in a scratchpad, counted with the command's phase tag (R358): on their way with the rest of the line
where the line is owed to the command, else at once; none while it is owed to another fill. What would go to an exited
task's own scratchpad is discarded and counted (R148). -/
def sramPut (c : Cmd) (cl off addr : Nat) (bs : List Byte) : EAct Unit := do
  let s ← get
  let ls := linesOf off bs.length
  if exited s c && cl == c.cl then set { s with dropped := s.dropped + 1 }
  else if !inBanks (s.cl cl) off || !inBanks (s.cl cl) (off + bs.length - 1) then parkAt 0x27#8 addr
  else if away s c.ctx cl || ls.any (fun l => lineOwed s (.sram cl l) && (fillOf s c (.sram cl l)).isNone) then holdOn
  else if ls.any fun l => tagRefused (s.cl cl) l c.tag then parkAt 0x71#8 addr
  else
    ls.forM fun l => do
      let lo := max off (128 * l)
      let part := (bs.drop (lo - off)).take (min (off + bs.length) (128 * l + 128) - lo)
      let s ← get
      if (fillOf s c (.sram cl l)).isSome then deliver c true cl lo part
      else do
        eccRows cl [l] addr
        modify fun s => countAll cl l part.length c.tag (sramWrite s cl lo part)

/-- Bytes stored at a coordinate address. -/
def coordPut (c : Cmd) (a : Nat) (bs : List Byte) : EAct Unit := do
  let s ← get
  match coord s c.ctx c.cl a false with
  | .error e => parkAt e a
  | .ok (cl, off) => sramPut c cl off a bs

/-- Bytes read at a coordinate address, waiting on owed lines. -/
def coordGet (c : Cmd) (a n : Nat) : EAct (List Byte) := do
  let s ← get
  match coord s c.ctx c.cl a false with
  | .error e => parkAt e a
  | .ok (cl, off) =>
    if !inBanks (s.cl cl) off || !inBanks (s.cl cl) (off + n - 1) then parkAt 0x27#8 a
    else if away s c.ctx cl || (linesOf off n).any (fun l => lineOwed s (.sram cl l) && (fillOf s c (.sram cl l)).isNone) then holdOn
    else do
      eccRows cl (linesOf off n) a
      let s1 ← get
      pure ((List.range n).map fun i => ownByte s1 c cl (off + i))

/-- Bytes read from an engine's source, by coordinate or virtual address. -/
def sourceGet (c : Cmd) (a n : Nat) : EAct (List Byte) :=
  if c.kind false == 0 then coordGet c a n else liftE a (vaRead c.who a n)

/-! ### Retirement (R130, R270, R313, R314) -/

/-- A word written at `off` from the address of kind `CWK`, a coordinate or a virtual address: the completion word, a
synchronising store, or the status word, an ordinary one (R130, R314, R333). None while its line is owed. A word in an exited
task's scratchpad is not written (R148). -/
def completionWrite (c : Cmd) (sync : Bool) (off v : Nat) : EAct Unit := do
  let s ← get
  let a := (c.cwa + off) % 2 ^ 64
  let place (cl o : Nat) : EAct Unit :=
    if exited s c && cl == c.cl then pure ()
    else if away s c.ctx cl || lineOwed s (.sram cl (o / 128)) then holdOn
    else do
      eccRows cl [o / 128] a
      modify fun s => sramWrite s cl o (natLe 4 v)
  match c.cwk with
  | 1 =>
    match coord s c.ctx c.cl a false with
    | .error e => parkAt e a
    | .ok (cl, o) => place cl o
  | 2 => do
    let x ← liftE a (translate c.who a true sync)
    match x.tgt with
    | .sram cl o => if !s.granted c.ctx c.cl cl then parkAt 0x26#8 a else if inBanks (s.cl cl) o then place cl o else parkAt 0x27#8 a
    | .dev dpa => do
      liftEU a (writeAt c.who sync a (natLe 4 v))
      modify fun s => s.modCl c.cl fun y => l1Drop y dpa 4
    | _ => liftEU a (writeAt c.who sync a (natLe 4 v))
  | _ => pure ()

/-- The item number under which a fault of the completion word is parked: one past the last item. -/
def Cmd.cwItem (c : Cmd) : Nat := c.items_

/-- Whether a command has a status word (R314). -/
def Cmd.hasStatus (c : Cmd) : Bool := c.unit == .fabric || c.unit == .collective

/-- Commands whose owed lines land with their retirement: those of the sluice and the batcher. -/
def Cmd.landsLast (c : Cmd) : Bool := c.unit == .sluice || c.unit == .batcher

/-- The completion words of a command (R130, R314). -/
def completionWords (c : Cmd) : EAct Unit := do
  if c.cwk != 0 then
    if c.hasStatus then completionWrite c false 4 (c.status % 16 + 65536 * popBits 1024 c.missing.toNat) else pure ()
    completionWrite c true 0 c.seq.toNat
  else pure ()

/-- The command leaves its slot: its last lines land, its completion words are written, then the retired-through word, then
`SIG` (R130), in its image while the task is spilled (R330). Nothing
happens while a line that it owes or its completion word's line waits with a spilled task; a fault there parks it. -/
def retireCmd (c : Cmd) (sig : Bool) (s : State) : State :=
  if s.spilled.any fun p => p.fills.any fun f => f.of c then s
  else
    let s0 := if c.landsLast then landOwn c s else s
    match completionWords c s0 with
    | .error .wait => s0
    | .error (.park e a) => parkItem c c.cwItem e a s0
    | .ok (_, s1) =>
      let s2 := s1.modCl c.cl fun x => { x with cmds := x.cmds.filter fun k => !k.same c }
      if exited s c then s2
      else
        s2.modHome c.ctx c.cl fun x =>
          let z := x.retireSeq c.unit c.seq
          if sig then { z with scoreboard := z.scoreboard ||| BitVec.ofNat 64 c.sigs } else z

/-- Every element performed and acknowledged, nothing parked, nothing on its way, and the follow-on done (R130). -/
def mayRetire (s : State) (c : Cmd) : Bool :=
  c.started && c.parked.isEmpty && c.undone.isEmpty && c.acks == 0 && c.owing.all (fun e => e.2 == 0)
    && (c.landsLast || !(s.fills.any fun f => f.of c)) && c.follow != .owed && c.follow != .ready

end Sys2Proof.Machine
end

