-- ==== Sys2Proof/Machine/Uses.lean ====
section
/-! DEFINITION. Which registers an instruction reads, and the stop of one that would consume an uncorrectable error held in
one of them (R405, R407; log 72). -/

namespace Sys2Proof.Machine

/-- A scalar register or a predicate that an instruction reads. -/
inductive RegUse where
  | r (n : Reg)
  | k (n : PIdx)
  deriving DecidableEq, Repr

/-- The register of a third operand. -/
def opReg : RegOrImm → List RegUse
  | .reg n => [.r n]
  | .imm _ => []

/-- The predicate of an S, K, C or X instruction, and the registers that it reads where that holds (chapters 2, 6, 8). -/
def sources : Instr → Option Pred × List RegUse
  | .add _ a b | .sub _ a b | .mul _ a b | .mulh _ a b | .mulhn _ a b | .div _ a b | .divn _ a b | .rem _ a b
  | .remn _ a b | .and _ a b | .or _ a b | .xor _ a b | .shl _ a b | .shr _ a b | .sra _ a b | .min _ a b
  | .max _ a b | .minn _ a b | .maxn _ a b | .andn _ a b | .cmpeq _ a b | .cmpne _ a b | .cmplt _ a b
  | .cmple _ a b | .cmpltn _ a b | .cmplen _ a b | .nearad _ a b | .clad _ a b | .wlpush a b | .radv a b
  | .rbind _ a b
    => (none, [.r a, .r b])
  | .addLong p _ a b | .subLong p _ a b | .mulLong p _ a b | .mulhLong p _ a b | .mulhnLong p _ a b
  | .divLong p _ a b | .divnLong p _ a b | .remLong p _ a b | .remnLong p _ a b | .andLong p _ a b
  | .orLong p _ a b | .xorLong p _ a b | .shlLong p _ a b | .shrLong p _ a b | .sraLong p _ a b
  | .minLong p _ a b | .maxLong p _ a b | .minnLong p _ a b | .maxnLong p _ a b | .andnLong p _ a b
  | .cmpeqLong p _ a b | .cmpneLong p _ a b | .cmpltLong p _ a b | .cmpleLong p _ a b | .cmpltnLong p _ a b
  | .cmplenLong p _ a b | .nearadLong p _ a b | .cladLong p _ a b | .recvt p _ a b | .rsend p _ a b
    => (some p, [.r a] ++ opReg b)
  | .clz _ a | .popc _ a | .sext _ _ a | .addi _ a _ | .andi _ a _ | .ori _ a _ | .xori _ a _ | .shli _ a _
  | .shri _ a _ | .srai _ a _ | .kset a | .ld _ _ a _ | .ldg _ _ a _ | .wlpop _ a | .jr a | .recv _ a
  | .rpeek _ a | .kwake a
    => (none, [.r a])
  | .clzLong p _ a | .popcLong p _ a | .sextLong p _ _ a | .addiLong p _ a _ | .andiLong p _ a _
  | .oriLong p _ a _ | .xoriLong p _ a _ | .shliLong p _ a _ | .shriLong p _ a _ | .sraiLong p _ a _
  | .ewait p a | .ecancel p _ a | .estat p _ a
    => (some p, [.r a])
  | .liLong p _ _ | .cidLong p _ | .edrain p
    => (some p, [])
  | .liHi p d _
    => (some p, [.r d])
  | .pand _ a b | .por _ a b | .pxor _ a b
    => (none, [.k a, .k b])
  | .pnot _ a
    => (none, [.k a])
  | .ldLong p _ _ a o | .ldgLong p _ _ a o
    => (some p, [.r a] ++ opReg o)
  | .st _ d a _ | .stg _ d a _
    => (none, [.r d, .r a])
  | .stLong p _ d a o | .stgLong p _ d a o
    => (some p, [.r d, .r a] ++ opReg o)
  | .mtc d _ | .loop d _
    => (none, [.r d])
  | .bk _ k _ | .bkLong _ k _ | .lexit _ k
    => (none, [.k k])
  | .ecopy p _ a f0 f1 f2 f3 | .egath p _ a f0 f1 f2 f3 | .escat p _ a f0 f1 f2 f3 | .eacc p _ a f0 f1 f2 f3
  | .emark p _ a f0 f1 f2 f3 | .eroute p _ a f0 f1 f2 f3 | .ebatch p _ a f0 f1 f2 f3
  | .eldred p _ a f0 f1 f2 f3 | .egroup p _ a f0 f1 f2 f3 | .ecarry p _ a f0 f1 f2 f3
  | .ecoll p _ a f0 f1 f2 f3 | .eget p _ a f0 f1 f2 f3 | .eput p _ a f0 f1 f2 f3 | .emcast p _ a f0 f1 f2 f3
  | .eappend p _ a f0 f1 f2 f3 | .ebexp p _ a f0 f1 f2 f3 | .efset p _ a f0 f1 f2 f3
    => (some p, [.r a, .r f0, .r f1, .r f2, .r f3])
  | .earm p _ a f0
    => (some p, [.r a, .r f0])
  | .ret => (none, [.r 62#6])
  | .kget _ => (none, (List.range 16).map fun n => .k (BitVec.ofNat 4 n))
  | _ => (none, [])

/-- The tokens of an M instruction. -/
def mTok : Instr → Option Tok
  | .mmac tok .. | .mmacs tok .. | .mrot tok .. | .mgx tok .. | .mgrp tok .. => some tok
  | .mchk tok .. | .mshape tok .. | .mzero tok .. | .mfill tok .. | .mrel tok .. => some tok
  | .mkeep tok .. | .mrd tok .. => some tok
  | .mdrain hd .. | .mmov hd .. => some hd.tok
  | _ => none

/-- The common head of an L, A or W word, and of the M words that convert. -/
def headOf (i : Instr) : Option VHead :=
  match aSlots i with
  | some (hd, _, _) => some hd
  | none =>
    match i with
    | .vld hd .. | .vldbc hd .. | .vldx hd .. | .vldb hd .. | .vldg hd .. | .vlds hd .. | .vldfl hd .. | .vpref hd ..
    | .vst hd .. | .vstx hd .. | .vstb hd .. | .vstg hd .. | .vsts hd .. | .vstm hd .. | .vstc hd .. | .mdrain hd ..
    | .mmov hd .. => some hd
    | _ => none

/-- The vector names that an instruction reads or writes. -/
def namesOf (i : Instr) : List Nat :=
  let of_ (l : List Opnd) : List Nat := l.filterMap fun o => match o with | .v _ n => some n.toNat | _ => none
  match aSlots i with
  | some (_, ds, srcs) => of_ (ds ++ srcs)
  | none =>
    match i with
    | .vld _ d a | .vldbc _ d a | .vldg _ d a => of_ [d, a]
    | .vldx _ d a b | .vldfl _ d a b => of_ [d, a, b]
    | .vldb _ _ _ d a _ | .vlds _ _ _ d a _ => of_ [d, a]
    | .vst _ d a | .vstg _ d a => of_ [d, a]
    | .vstx _ d a b | .vstm _ d a b | .vstc _ d a b => of_ [d, a, b]
    | .vstb _ _ _ d a _ | .vsts _ _ _ d a _ => of_ [d, a]
    | .mgx _ _ _ _ _ _ c => of_ [c]
    | .mmov _ _ d _ | .mrd _ _ d _ => of_ [d]
    | _ => []

/-- The C instructions that build a command, which takes the rounding state, the formats and the phase with it (R66, R358). -/
def buildsCmd : Instr → Bool
  | .ecopy .. | .egath .. | .escat .. | .eacc .. | .emark .. | .eroute .. | .ebatch .. | .eldred .. | .egroup .. | .ecarry ..
  | .ecoll .. | .eget .. | .eput .. | .emcast .. | .eappend .. | .efset .. => true
  | _ => false

/-- The banks of a cluster's own scratchpad whose formats an access uses. -/
def banksOf (c : Nat) (ts : List Touch) : List Nat :=
  (ts.flatMap fun t => match t.1 with
    | .sram k lo hi => if k == c then (List.range ((hi + 511) / 512 - lo / 512)).map fun i => lo / 512 + i else []
    | _ => []).eraseDups

/-- The numbers of the control registers of its cluster whose values an instruction of PC `e` takes with it into a register, a
name, a memory, a command or a token count (R407): not those that only hold it back or place it, `slipw` and `sramcfg`. -/
def controlUses (s : State) (c : Nat) (e : Eng) (i : Instr) : List Nat :=
  let x := s.cl c
  let h := headOf i
  let tok : Option Tok := match i with
    | .vbr _ _ t _ _ => some t
    | _ => match h with | some hd => some hd.tok | none => mTok i
  let rm := (h.map (·.mod.rm.toNat)).getD 0
  let mode := if rm == 7 then x.rmode.toNat % 8 else rm
  (if tok.any fun t => t.pop != 0#8 || t.push != 0#8 then [0x034] else [])
    ++ (if rm == 7 then [0x030] else []) ++ (if mode == 4 then [0x031] else [])
    ++ (if h.any fun hd => !hd.ty.isN then banksOf c (touches s x c e true i) else [])
    ++ ((x.vshp.filter fun v => let w := v.2.toNat; bit w 63 && (namesOf i).any fun n => bits w 26 16 ≤ n && n ≤ bits w 42 32).map
      fun v => 0x060 + v.1)
    ++ (match i with | .sigchk _ => [0x035, 0x036] | _ => [])
    ++ (if buildsCmd i then [0x030, 0x031, 0x039] ++ List.range 48 else [])

/-- Numbers of the registers of an agent in a cluster's record of errors: 0 to 63 scalar registers, 64 to 79 predicates; for
the task also 128 to 159 stream pointers and from 256 on control registers; those of thread t from 4096·(t + 1) on. In a die's
record the manager core's have the first, and supervisor register `n` is 256 + n. -/
def RegUse.code : RegUse → Nat
  | .r n => n.toNat
  | .k n => 64 + n.toNat

/-- The numbers of the registers that the executing agent reads to execute an instruction. -/
def usedRegs (s : State) (i : Instr) : List Nat :=
  let u := sources i
  let pred : List Nat := (u.1.map fun p => 64 + p.k.toNat).toList
  let more : List Nat := if (u.1.map s.holds).getD true then u.2.map (·.code) else []
  let ctl : List Nat := match i with
    | .mfc _ n => [if 0x040 ≤ n.toNat && n.toNat ≤ 0x05F then 128 + (n.toNat - 0x040) else 256 + n.toNat]
    | _ => []
  let own : List Nat := match s.actor with
    | .pc c e => (controlUses s c e i).map fun n => 256 + n
    | _ => []
  let ptrs : List Nat := (streamOps i).filterMap fun o => match o with | .p n => some (128 + n.toNat) | _ => none
  pred ++ more ++ ctl ++ own ++ ptrs ++ scalarOps i

/-- Whether the instruction would consume an uncorrectable error of a register of its agent's, or of the supervisor register
that it reads. -/
def meetsBadReg (s : State) (i : Instr) : Bool :=
  let super : Bool := match i with
    | .mfc _ n => 0x100 ≤ n.toNat && (s.die s.selfDie).coreBad.contains (256 + n.toNat)
    | _ => false
  super || match s.actor with
  | .pc c _ => !(s.cl c).regBad.isEmpty && (usedRegs s i).any fun k => (s.cl c).regBad.contains k
  | .rake c t => !(s.cl c).regBad.isEmpty && (usedRegs s i).any fun k => (s.cl c).regBad.contains (4096 * (t + 1) + k)
  | .mgr d => !(s.die d).coreBad.isEmpty && (usedRegs s i).any fun k => (s.die d).coreBad.contains k
  | .device => false

end Sys2Proof.Machine
end

