-- ==== Sys2Proof/Machine/Copy.lean ====
section
/-! DEFINITION. The copy engine (chapter 6, R356) and the byte counters (R357 to R360): the checks of its commands,
the reference program run item by item, accumulate-on-write, and the instructions that wait, cancel and report. -/

namespace Sys2Proof.Machine

/-! ### Checks at issue (R126) -/

/-- `FOLLOW` is a legal M word with zero `TOKEN`, and zero beyond the word (0x64). -/
def Cmd.followOk (c : Cmd) : Bool :=
  match c.followWord with
  | some i => mTok i == some ⟨0#8, 0#8⟩ && c.follows >>> (8 * lenOf i) == 0
  | none => false

/-- Whether a home tile of a cluster lies in another cluster's grove (R241). -/
def tilesLent (s : State) (cl : Nat) : Bool :=
  (List.range 4).any fun k =>
    let key := 24 * (2 * rowOf cl + k / 2) + 2 * colOf cl + k % 2
    match (KMap.get? (s.die (dieOf cl)).tiles key).bind (·.owner) with
    | some o => o != cl
    | none => false

/-- `FLW` = 1 asks for a grove of the cluster, for home tiles that are not lent, and for a legal word (Table 6.2). -/
def checkFollow (c : Cmd) : Act Unit := do
  let s ← get
  trapIf (c.flw && ((s.cl c.cl).grove.h == 0 || tilesLent s c.cl || !c.followOk)) 0x64#8

/-- Whether a command owns its bitmap register: from acceptance to retirement or cancellation (R136, R315). -/
def Cmd.ownsBitmap (c : Cmd) : Bool :=
  c.ben && !c.cancelled && (c.unit == .copy || (c.unit == .fabric && (c.op == opEget || c.op == opEput)))

/-- `BEN` (0x62): the bitmap register is free, and the items fit it. -/
def checkBitmap (c : Cmd) : Act Unit := do
  let s ← get
  trapIf (c.ben && (decide (4096 < c.items_) || (s.cl c.cl).cmds.any fun k => k.ownsBitmap && k.bmp == c.bmp)) 0x62#8

/-- `RM` is a mode of R32. -/
def Cmd.rmOk (c : Cmd) : Bool := c.rm != 5 && c.rm != 6

/-- The fields that carry a follow-on. -/
def Cmd.followFields (c : Cmd) : List (Nat × Nat) := (56, 56) :: (if c.flw then [(959, 768)] else [])

/-- `ecopy` (R134). -/
def checkEcopy (c : Cmd) : Act Cmd := do
  let s ← get
  trapIf (!onlyFields c.raw.toNat (c.copyFields ++ c.followFields) || !c.rmOk) 0x60#8
  trapIf (!c.sideOk s false [0, 1] || !c.sideOk s true [0, 1]) 0x60#8
  checkCwa c 4
  checkSide c false
  checkSide c true
  checkWindow c false .rd
  checkWindow c true .wrt
  checkBitmap c
  checkFollow c
  pure c

/-- `egath` and `escat` (R135): the side that the index moves is checked as the command runs. -/
def checkIndexed (c : Cmd) : Act Cmd := do
  let s ← get
  trapIf (!onlyFields c.raw.toNat (c.copyFields ++ c.followFields ++ [(767, 704)]) || !c.rmOk) 0x60#8
  trapIf (c.n2 != 0 || c.n3 != 0 || !c.ben) 0x60#8
  trapIf (!c.sideOk s false [0, 1] || !c.sideOk s true [0, 1]) 0x60#8
  checkCwa c 4
  checkSide c false
  checkSide c true
  checkWindow c false .rd
  checkWindow c true .wrt
  let _ ← ownLine c.aux (4 * (c.n1 + 1)) 4
  checkBitmap c
  checkFollow c
  pure c

/-- The formats that an operation of `eacc` admits (Table 6.6): a format word. -/
def eaccAdmits (opx w : Nat) : Bool :=
  let code := w % 16
  if opx ≤ 4 then code == 2 || code == 3 || code == 6 || code == 7
  else if opx ≤ 8 then 8 ≤ slotBits w
  else if opx == 9 then slotBits w == 32 || slotBits w == 64
  else code == 8 || code == 9 || code == 10

/-- The mode of `RM` with the captured rounding register resolved. -/
def Cmd.mode (c : Cmd) : Nat := if c.rm == 7 then c.rmode.toNat % 8 else c.rm

/-- Whether a row of a virtual destination lies in host memory, as the tables stand (0x63). -/
def hostDst (c : Cmd) (s : State) : Bool :=
  c.kind true == 1 && (List.range c.items_).any fun j =>
    (pageParts (c.row true j) (c.runLen s true j)).any fun q =>
      match translate c.who q.1 true true s with
      | .ok (_, x) => (match x.tgt with | .host _ => true | _ => false)
      | .error _ => false

/-- The format word of element `i` of item `j`. -/
def Cmd.elemWord (c : Cmd) (s : State) (dst : Bool) (j i : Nat) : Nat :=
  c.wordAt s dst (c.elemAddr dst (c.row dst j) (c.slotAt s dst j) i).1

/-- Whether every element of an `eacc` has one format at both ends, which its operation admits (R138). -/
def eaccFormats (c : Cmd) (s : State) : Bool :=
  (List.range c.items_).all fun j => (List.range (c.n0 + 1)).all fun i =>
    let w := c.elemWord s true j i
    c.elemWord s false j i == w && eaccAdmits c.opx w

/-- `eacc` (R138, R139). The formats at an endpoint are known once its addresses are good. -/
def checkEacc (c : Cmd) : Act Cmd := do
  let s ← get
  trapIf (!onlyFields c.raw.toNat (c.copyFields ++ [(56, 56), (39, 36), (831, 768)] ++ (if c.opx == 9 then [(767, 704)] else []))
    || !c.rmOk || 11 ≤ c.opx) 0x60#8
  trapIf (!c.sideOk s false [0, 1] || !c.sideOk s true [0, 1]) 0x60#8
  checkCwa c 4
  checkSide c false
  checkSide c true
  trapIf (!eaccFormats c s || c.flw || hostDst c s || (c.opx == 10 && c.mode == 4)) 0x63#8
  let z := slotBytes (slotBits (c.issueWord s true))
  checkWindow c false .rd
  checkWindow c true .acc
  if c.ret != 0 then
    let _ ← ownLine c.ret (z * c.elems) z
    pure ()
  else pure ()
  if c.opx == 9 then
    let p ← liftC c.aux (coord s c.ctx c.cl c.aux (c.aux % z != 0))
    if inBanks (s.cl p.1) p.2 && inBanks (s.cl p.1) (p.2 + z * c.elems - 1) then pure ()
    else trapAt 0x27#8 (BitVec.ofNat 64 c.aux)
  else pure ()
  checkBitmap c
  pure c

/-- `emark` (R143): `QMASK` lies in the low bits of `N0`; the marker notes the commands issued before it. -/
def checkEmark (c : Cmd) : Act Cmd := do
  let s ← get
  trapIf (!onlyFields c.raw.toNat (c.commonFields ++ [(70, 64), (971, 960)])) 0x60#8
  checkCwa c 4
  pure { c with marks := marksOf (s.cl c.cl) c }

/-- `efset` (R356): `DST` is the coordinate address of a flag word. -/
def checkEfset (c : Cmd) : Act Cmd := do
  let s ← get
  trapIf (!onlyFields c.raw.toNat (c.commonFields ++ [(255, 192), (36, 36)])) 0x60#8
  checkCwa c 4
  let p ← liftC c.dst (coord s c.ctx c.cl c.dst (c.dst % 4 != 0))
  if inFlags p.2 then pure c else trapAt 0x27#8 (BitVec.ofNat 64 c.dst)

/-! ### Remote elements (R308, R315) -/

/-- The places of a run: slot width, and for each element its place, format word, nibble and address. Elements lie apart by
the slot of the place where the run starts, each in the slot of the bank it lies in. -/
def Cmd.run (c : Cmd) (dst : Bool) (j : Nat) : EAct (Nat × List (Loc × Nat × Bool × Nat)) := do
  let row := c.row dst j
  let base := (c.elemAddr dst row 8 0).1
  let w ← c.locate dst base 1
  let z := slotBits w.2
  let l ← (List.range (c.n0 + 1)).mapM fun i => do
    let e := c.elemAddr dst row z i
    let r ← c.locate dst e.1 (slotBytes z)
    if e.1 % slotBytes (slotBits r.2) != 0 then parkAt 0x28#8 e.1 else pure (r.1, r.2, e.2, e.1)
  pure (z, l)

/-- The remote lines that a run's source lies in: peer, key, address; elements travel in whole lines (R315). -/
def farLines (l : List (Loc × Nat × Bool × Nat)) : List (Nat × Nat × Nat) :=
  (l.filterMap fun e => match e.1 with | .far p k a => some (p, k, a / 128 * 128) | _ => none).eraseDups

/-- The argument of a command's packets (log 13). -/
def Cmd.arg (c : Cmd) : BitVec 64 := reqArg c.tag c.cl (unitNum c.unit) (c.thr.getD 8) c.gang

/-- A packet of a command. -/
def Cmd.packet (c : Cmd) (s : State) (peer tc : Nat) (kind : PKind) : Packet :=
  { newPacket s peer tc kind c.ctx c.gen with seq := c.seq, arg := c.arg }

/-- Requests for the remote lines of item `j`'s source that have not been asked for yet. -/
def requestItem (c0 : Cmd) (j : Nat) : EAct Unit := do
  let r ← c0.run false j
  modify fun s =>
    (farLines r.2).foldl (fun s p =>
      match s.cmdOf c0 with
      | none => s
      | some c =>
        let k := farKey p.1 p.2.2
        if (KMap.get? c.owing k).isSome then s
        else
          (s.setCmd { c with owing := KMap.set c.owing k 1 }).send
            { c.packet s p.1 2 .readReq with key := BitVec.ofNat 32 p.2.1, addr := p.2.2, mbr := 128 }) s

/-- Whether a remote element has been fetched, or its line refused; the item waits otherwise. -/
def fetched (c : Cmd) (l : Loc) : EAct Bool :=
  match l with
  | .far p _ a =>
    let k := farKey p (a / 128 * 128)
    if KMap.get? c.owing k != some 0 then holdOn else pure (!c.lost.contains k)
  | _ => pure true

/-- A destination that packets reach: a peer's window, or the members of a group. -/
inductive Dest where
  | peer (p key : Nat)
  | group
  deriving DecidableEq, Repr

/-- Codes on their way to remote memory, as runs of bytes within one line each; a high nibble completes the byte of
the low nibble before it. -/
def gatherWrites (z : Nat) : List (Dest × Nat × Bool × Nat) → List (Dest × Nat × List Byte)
  | [] => []
  | (d, a, high, code) :: t =>
    let rest := gatherWrites z t
    let own : List Byte := if z == 4 then [BitVec.ofNat 8 (if high then 16 * code else code)] else natLe (z / 8) code
    match rest with
    | (e, b, bs) :: r =>
      if d == e && z == 4 && a == b then (d, a, (own.getD 0 0#8 ||| bs.getD 0 0#8) :: bs.drop 1) :: r
      else if d == e && a + own.length == b && a / 128 == (b + bs.length - 1) / 128 then (d, a, own ++ bs) :: r
      else (d, a, own) :: rest
    | [] => [(d, a, own)]

/-- Group, version and destinations of an `emcast` (R320). -/
def emcastGroup (c : Cmd) (s : State) : Option (Nat × GroupSlot × BitVec 1024) :=
  let g := bits c.follows 43 32
  (activeSlot s g).map fun x =>
    (g, x.2, if bit c.follows 44 then x.2.memb else x.2.memb &&& ~~~(1#1024 <<< devId s))

/-- One packet of data; its acknowledgements are owed to the command, and what has been fetched of its lines before is fetched
again where a later item reads it (R132). -/
def sendWrite (c0 : Cmd) (w : Dest × Nat × List Byte) (s : State) : State :=
  match s.cmdOf c0 with
  | none => s
  | some c =>
    match w.1 with
    | .peer p key =>
      let ks := (linesOf w.2.1 w.2.2.length).map fun l => farKey p (128 * l)
      (s.setCmd { c with acks := c.acks + 1, owing := c.owing.filter fun e => !ks.contains e.1 }).send
        { c.packet s p 2 .write with key := BitVec.ofNat 32 key, addr := w.2.1, data := w.2.2 }
    | .group =>
      match emcastGroup c s with
      | none => s
      | some (g, x, ds) =>
        (s.setCmd { c with acks := c.acks + (devicesOf ds).length }).send
          { c.packet s (devId s) 2 .write with
            mc := true, grp := g, ver := x.ver, key := x.key, addr := w.2.1, dests := ds, data := w.2.2 }

/-! ### The reference program (R132) -/

/-- Item `j`, element by element in order: read, converted unless the formats are equal, and stored. DESIGN CHOICE (log 66):
where the formats are equal the whole slot passes, its unused high bits too, as R62 and R134 have the bits unchanged; R57 has
a store write those bits as zero. -/
def performItem (c : Cmd) (j : Nat) : EAct Unit := do
  let a ← c.run false j
  let b ← c.run true j
  let out ← (a.2.zip b.2).mapIdxM fun i e => do
    let ok ← fetched c e.1.1
    if ok then
      let code ← elemRead c false e.1.1 (slotBits e.1.2.1) e.1.2.2.1 e.1.2.2.2
      let v :=
        if e.1.2.1 == e.2.2.1 then code
        else convert (fmtOfWord e.1.2.1) (fmtOfWord e.2.2.1) (c.round (j * (c.n0 + 1) + i)) c.sat code
      match e.2.1 with
      | .far p k x => pure [(Dest.peer p k, x, e.2.2.2.1, v)]
      | .group x => pure [(Dest.group, x, e.2.2.2.1, v)]
      | l => do
        elemWrite c l (slotBits e.2.2.1) e.2.2.2.1 e.2.2.2.2 v
        pure []
    else pure []
  modify fun s => (gatherWrites b.1 out.flatten).foldl (fun s w => sendWrite c w s) s

/-- Item `j` has been performed; the bitmap shows it once its lines have landed (R136). -/
def markDone (c0 : Cmd) (j : Nat) (s : State) : State :=
  match s.cmdOf c0 with
  | none => s
  | some c => markLanded c (s.setCmd { c with items := NSet.insert c.items j })

/-- An item that touches what an earlier command of the same engine has still to access, where one of the two
writes, waits for it (R140). -/
def behindEarlier (s : State) (c : Cmd) (j : Nat) : Bool :=
  let mine := rds (c.places s false j) ++ wrs (c.places s true j)
  (s.cl c.cl).cmds.any fun k => k.unit == c.unit && k.gang == c.gang && seqBefore k.seq c.seq &&
    (k.owedTouches s).any fun t => mine.any fun m => clash m t

/-- A line of memory that an item touches: a scratchpad's, device memory's, the pinned space's, the host's, a peer's; and a
virtual address's, which a fault may keep from being told further. -/
inductive LineAt where
  | sram (cl n : Nat)
  | dev (n : Nat)
  | pinned (d n : Nat)
  | host (n : Nat)
  | far (peer n : Nat)
  | group (n : Nat)
  | va (n : Nat)
  deriving DecidableEq, Repr

/-- The lines that item `j` touches at one endpoint. -/
def Cmd.lineKeys (c : Cmd) (s : State) (dst : Bool) (j : Nat) : List LineAt :=
  let row := c.row dst j
  let z := c.slotAt s dst j
  ((List.range (c.n0 + 1)).flatMap fun i =>
    let a := (c.elemAddr dst row z i).1
    let here := if c.kind dst == 1 then [LineAt.va (a / 128)] else []
    match (c.locate dst a (slotBytes z)) s with
    | .error _ => here
    | .ok ((.sram cl off, _), _) => LineAt.sram cl (off / 128) :: here
    | .ok ((.far p _ b, _), _) => LineAt.far p (b / 128) :: here
    | .ok ((.group off, _), _) => LineAt.group (off / 128) :: here
    | .ok ((.va b, _), _) =>
      match translate c.who b dst true s with
      | .error _ => here
      | .ok (_, x) =>
        match x.tgt with
        | .dev dpa => LineAt.dev (dpa / 128) :: here
        | .pinned d o => LineAt.pinned d (o / 128) :: here
        | .host h => LineAt.host (h / 128) :: here
        | .sram cl off => LineAt.sram cl (off / 128) :: here
        | .window _ _ => here).eraseDups

/-- Two items of a command that touch one line, where one of them writes it, keep item order (R132). -/
def itemsClash (c : Cmd) (s : State) (j k : Nat) : Bool :=
  let meet (p q : List LineAt) : Bool := p.any fun l => q.contains l
  let rj := c.lineKeys s false j
  let wj := c.lineKeys s true j
  let wk := c.lineKeys s true k
  meet wj wk || meet rj wk || meet wj (c.lineKeys s false k)

/-- The items that a command holds back: those parked, and those that clash with an earlier one held back (R132). -/
def heldItems (s : State) (c : Cmd) : List Nat :=
  c.undone.foldl (fun l j => if c.parked.any (fun p => p.item == j) || l.any (fun k => itemsClash c s j k) then l ++ [j] else l) []

/-- An item that clashes with an earlier one that is held back is held back itself (R132). -/
def behindParked (s : State) (c : Cmd) (j : Nat) : Bool := !c.parked.isEmpty && (heldItems s c).contains j

/-- The lines at peers that an item touches at one endpoint. -/
def Cmd.farKeys (c : Cmd) (s : State) (dst : Bool) (j : Nat) : List LineAt :=
  (c.lineKeys s dst j).filter fun l => match l with | .far .. | .group _ => true | _ => false

/-- An item that touches a line at a peer that an earlier item has written, or will write, waits until every write sent has
been acknowledged, for packets pass one another on their way (R132, R315). -/
def behindSent (s : State) (c : Cmd) (j : Nat) (dst : Bool) : Bool :=
  (List.range j).any fun k => (c.acks != 0 || c.undone.contains k) &&
    (c.farKeys s dst j).any fun l => (c.farKeys s true k).contains l

/-- Items in ascending order, each performed, parked, or left to wait; structural on the list. -/
def runItems (c0 : Cmd) : List Nat → State → State
  | [], s => s
  | j :: t, s =>
    match s.cmdOf c0 with
    | none => s
    | some c =>
      if behindEarlier s c j then s
      else if behindParked s c j then runItems c0 t s
      else if behindSent s c j true || behindSent s c j false then s
      else
        match performItem c j s with
        | .ok (_, s1) => runItems c0 t (markDone c j s1)
        | .error .wait => s
        | .error (.park e a) => runItems c0 t (parkItem c j e a s)

/-- Fills that no item of the command has still to write are full (R17). -/
def fillUp (c0 : Cmd) (s : State) : State :=
  match s.cmdOf c0 with
  | none => s
  | some c =>
    let left := if c.op == opEacc && c.acks != 0 then (List.range c.items_).flatMap (c.fillsOf s) else c.undone.flatMap (c.fillsOf s)
    { s with fills := s.fills.map fun f => if f.of c then { f with full := !left.contains f.line } else f }

/-- Items that are neither done nor parked. -/
def Cmd.todo (c : Cmd) : List Nat := c.undone.filter fun j => c.parked.all fun p => p.item != j

/-- A copy runs on: every element that it can reach is asked for, and items are performed in order. -/
def runCopy (c0 : Cmd) (s : State) : State :=
  match s.cmdOf c0 with
  | none => s
  | some c =>
    let s1 := (c.todo.filter fun j => !behindSent s c j false).foldl (fun s j =>
      match requestItem c j s with
      | .ok (_, s') => s'
      | .error _ => s) s
    fillUp c (runItems c c.todo s1)

/-- An `escat` whose list has been read commits to its destination lines; none while one is owed to an earlier fill (R17). -/
def oweLines (c : Cmd) (s : State) : Option State :=
  let ls := (c.linesAtAcceptance s).filter fun l => (fillOf s c l).isNone
  if ls.any (lineOwed s) then none else some (ls.foldl (fun s l => beginFill c (c.counts s l) l s) s)

/-- A copy starts once its `WAIT` bits are set, and its list, where it has one, can be read; after that `WAIT` no longer
matters (R129, R135). -/
def startCopy (c : Cmd) (s : State) : State :=
  if c.started then runCopy c s
  else if !c.ready s then s
  else if c.op != opEgath && c.op != opEscat then runCopy c (s.setCmd { c with started := true })
  else
    match readList c s with
    | .error .wait => s
    | .error (.park e a) => if c.parked.isEmpty then parkItem c 0 e a s else s
    | .ok (l, s1) =>
      let c1 := { c with started := true, idx := l }
      match (if c.op == opEscat then oweLines c1 s1 else some s1) with
      | none => s
      | some s2 => runCopy c1 (s2.setCmd c1)

/-! ### Accumulate-on-write (R138, R139) -/

/-- The result of one update (Table 6.6): format word, operation, old value, operand, compare value. -/
def eaccResult (w opx : Nat) (rm : Rm) (sat : Bool) (d s c : Nat) : Nat :=
  let z := slotBits w
  let m := 2 ^ z
  match opx with
  | 0 => (d + s) % m
  | 1 => if sx z d ≤ sx z s then d else s
  | 2 => min d s
  | 3 => if sx z d ≤ sx z s then s else d
  | 4 => max d s
  | 5 => d &&& s
  | 6 => d ||| s
  | 7 => d ^^^ s
  | 8 => s
  | 9 => if d == c then s else d
  | _ => encodeVal (fmtOfWord w) ((decodeVal (fmtOfWord w) d).add rm (decodeVal (fmtOfWord w) s)) rm sat

/-- The read of an update at a virtual address: translated as a write, without the check of R342 (R139, R345). -/
def updateRead (w : Who) (a n : Nat) (s : State) : Except (BitVec 8) (State × (Xlat × List Byte)) :=
  match translate w a true true s with
  | .error e => .error e
  | .ok (s1, x) =>
    match targetRead { w with cl := none } a n { x with chk := false } s1 with
    | .error e => .error e
    | .ok (s2, bs) => .ok (s2, x, bs)

/-- Returned value of the element at position `pos`, put on its way to `RET`. -/
def returnOld (c : Cmd) (z pos old : Nat) : EAct Unit := do
  if c.ret == 0 then pure ()
  else
    let s ← get
    match coord s c.ctx c.cl c.ret false with
    | .error e => parkAt e c.ret
    | .ok (cl, off) =>
      if exited s c then set { s with dropped := s.dropped + 1 }
      else deliver c true cl (off + z / 8 * pos) (natLe (z / 8) old)

/-- The compare value of the element at position `pos`. -/
def compareAt (c : Cmd) (z pos : Nat) : EAct Nat := do
  if c.opx != 9 then pure 0
  else
    let s ← get
    match coord s c.ctx c.cl c.aux false with
    | .error e => parkAt e c.aux
    | .ok (cl, off) =>
      let o := off + z / 8 * pos
      if owedBefore s c (.sram cl (o / 128)) then holdOn
      else do
        eccRows cl [o / 128] c.aux
        let s1 ← get
        pure (leNat (sramRead (s1.cl cl) o (z / 8)))

/-- One indivisible read-modify-write at its port (R139); one on a window goes to the peer. What updates a scratchpad line
that the command owes lands with the line (R122). -/
def updateElem (c : Cmd) (pos : Nat) : EAct Unit := do
  let j := pos / (c.n0 + 1)
  let i := pos % (c.n0 + 1)
  let a ← c.run false j
  let b ← c.run true j
  match a.2[i]?, b.2[i]? with
  | some e, some d => do
    let z := slotBits d.2.1
    let ok ← fetched c e.1
    if !ok then pure ()
    else
      let v ← elemRead c false e.1 (slotBits e.2.1) e.2.2.1 e.2.2.2
      let k ← compareAt c z pos
      let rm := c.round pos
      let s ← get
      match d.1 with
      | .sram cl off =>
        if exited s c && cl == c.cl then set { s with dropped := s.dropped + 1 }
        else
          let old ← elemRead c true d.1 z false d.2.2.2
          returnOld c z pos old
          deliver c false cl off (natLe (z / 8) (eaccResult d.2.1 c.opx rm c.sat old v k))
      | .va x => do
        let (x1, bs) ← liftE d.2.2.2 (updateRead c.who x (z / 8))
        returnOld c z pos (leNat bs)
        liftEU d.2.2.2 (targetWrite c.who x (natLe (z / 8) (eaccResult d.2.1 c.opx rm c.sat (leNat bs) v k)) true x1)
        match x1.tgt with
        | .dev dpa => modify fun s => s.modCl c.cl fun y => l1Drop y dpa (z / 8)
        | _ => pure ()
      | .far p key x =>
        match s.cmdOf c with
        | none => pure ()
        | some k0 =>
          set ((s.setCmd { k0 with acks := k0.acks + 1 }).send
            { c.packet s p 2 .accUpdate with
              key := BitVec.ofNat 32 key, addr := x, mbr := z / 8
              data := natLe 8 v ++ natLe 8 k ++ natLe 8 pos ++ natLe 4 d.2.1 ++ natLe 1 c.opx ++ natLe 1 c.mode
                ++ natLe 1 (if c.sat then 1 else 0) })
      | .group _ => pure ()
  | _, _ => pure ()

/-- The next update of an `eacc` in reference order: the element is performed, or its item parked. An item that clashes with
an earlier parked one is left (R132, R139). -/
def nextUpdate (c : Cmd) (s : State) : State :=
  match (List.range c.elems).find? fun pos =>
      !c.items.contains pos && (c.parked.all fun p => p.item != pos / (c.n0 + 1)) && !behindParked s c (pos / (c.n0 + 1)) with
  | none => s
  | some pos =>
    let j := pos / (c.n0 + 1)
    if behindEarlier s c j || behindSent s c j true then s
    else
      match requestItem c j s with
      | .error (.park e a) => parkItem c j e a s
      | .error .wait => s
      | .ok (_, s0) =>
        match s0.cmdOf c with
        | none => s0
        | some c1 =>
          match updateElem c1 pos s0 with
          | .error (.park e a) => parkItem c1 j e a s0
          | .error .wait => s0
          | .ok (_, s1) =>
            match s1.cmdOf c with
            | none => s1
            | some k =>
              let k1 := { k with items := NSet.insert k.items pos }
              fillUp k1 (markLanded k1 (s1.setCmd k1))

/-! ### Landing (R17, R122, R358) -/

/-- BYTE_COUNTER_DELIVERY (R358): `n` tagged bytes have landed in the line at a local offset; none do in a cluster whose task
is spilled (R396). -/
def execByteCounterDelivery (cl off n : Nat) (tag : BitVec 32) (s : State) : Host.Outcome State Fault Refusal :=
  .next (if s.spilled.any (fun p => p.from_ == cl) then s else countAll cl (off / 128) n tag s)

/-- The fill that may land on a line now: complete, and its cluster not spilled (R396). -/
def landable (s : State) (l : LineRef) : Option Fill :=
  s.fills.find? fun f => f.line == l && f.full &&
    match l with
    | .sram cl _ =>
      let ctx := ((s.cmdAt f.unit f.cl f.seq f.gang).map (·.ctx)).getD 0
      !away s ctx cl
    | _ => true

/-- LINE_LANDING (R17): the last byte of a committed fill lands. -/
def execLineLanding (l : LineRef) (s : State) : Host.Outcome State Fault Refusal :=
  match landable s l with
  | some f => .next (landFill f s)
  | none => .next s

/-! ### The copy family's instructions -/

/-- `ecopy` (R134). -/
def execEcopy (p : Pred) (d a f0 f1 f2 f3 : Reg) (s : State) : Host.Outcome State Fault Refusal :=
  issueOp (.ecopy p d a f0 f1 f2 f3) p .copy 0 d a [f0, f1, f2, f3] checkEcopy s

/-- `egath` (R135). -/
def execEgath (p : Pred) (d a f0 f1 f2 f3 : Reg) (s : State) : Host.Outcome State Fault Refusal :=
  issueOp (.egath p d a f0 f1 f2 f3) p .copy opEgath d a [f0, f1, f2, f3] checkIndexed s

/-- `escat` (R135). -/
def execEscat (p : Pred) (d a f0 f1 f2 f3 : Reg) (s : State) : Host.Outcome State Fault Refusal :=
  issueOp (.escat p d a f0 f1 f2 f3) p .copy opEscat d a [f0, f1, f2, f3] checkIndexed s

/-- `eacc` (R138). -/
def execEacc (p : Pred) (d a f0 f1 f2 f3 : Reg) (s : State) : Host.Outcome State Fault Refusal :=
  issueOp (.eacc p d a f0 f1 f2 f3) p .copy opEacc d a [f0, f1, f2, f3] checkEacc s

/-- `emark` (R143). -/
def execEmark (p : Pred) (d a f0 f1 f2 f3 : Reg) (s : State) : Host.Outcome State Fault Refusal :=
  issueOp (.emark p d a f0 f1 f2 f3) p .copy opEmark d a [f0, f1, f2, f3] checkEmark s

/-- `efset` (R356). -/
def execEfset (p : Pred) (d a f0 f1 f2 f3 : Reg) (s : State) : Host.Outcome State Fault Refusal :=
  issueOp (.efset p d a f0 f1 f2 f3) p .copy 0x14 d a [f0, f1, f2, f3] checkEfset s

/-- `earm` (R129): a synchronising read-modify-write of the scoreboard, as a release. -/
def execEarm (p : Pred) (d a f0 : Reg) (s : State) : Host.Outcome State Fault Refusal :=
  actOp (.earm p d a f0) p (do
    awaitAll
    modify fun s =>
      let old := (s.cl s.selfCl).scoreboard
      let new := (old &&& ~~~ s.rd a) ||| s.rd f0
      (s.modCl s.selfCl fun x => { x with scoreboard := new }).wr d old) s

/-- `ewait` (R142). -/
def execEwait (p : Pred) (a : Reg) (s : State) : Host.Outcome State Fault Refusal :=
  actOp (.ewait p a) p (do
    let s ← get
    let x := s.cl s.selfCl
    let t0 : BitVec 32 := (s.rd a).setWidth 32
    let t := if t0 == 0#32 then x.lastSeq .copy else t0
    waitIf ((x.rtOf .copy - t).toInt < 0) .engine) s

/-- `edrain` (R142). -/
def execEdrain (p : Pred) (s : State) : Host.Outcome State Fault Refusal :=
  actOp (.edrain p) p (do
    let s ← get
    let x := s.cl s.selfCl
    waitIf ((x.cmds.any fun c => c.unit == .copy) || x.writeAcks != 0) .engine) s

/-- What cancellation leaves of a command (R122, R144): nothing more is issued, and the lines that it owes keep
their previous contents. -/
def cancelCmd (c : Cmd) (s : State) : State :=
  (s.dropFills fun f => f.of c).setCmd { c with cancelled := true, started := true, parked := [], owing := [], follow := .none }

/-- `ecancel` (R144). DESIGN CHOICE (log 96): a command of another agent that has been kicked and has no slot yet has been
issued and is not held, so the answer for it is 1. -/
def execEcancel (p : Pred) (d a : Reg) (s : State) : Host.Outcome State Fault Refusal :=
  plainOp (.ecancel p d a) p (fun s =>
    let n : BitVec 32 := (s.rd a).setWidth 32
    let x := s.cl s.selfCl
    match s.cmdAt .copy s.selfCl n s.selfGang with
    | some c => (cancelCmd c s).wr d 0#64
    | none =>
      let last := x.lastSeq .copy
      let issued := (last - n).toNat < 2147483648 && (x.gone .copy || (n != 0#32 && n.toNat ≤ last.toNat))
      s.wr d (if issued then 1#64 else 2#64)) s

/-- `estat` (R145). -/
def execEstat (p : Pred) (d a : Reg) (s : State) : Host.Outcome State Fault Refusal :=
  actOp (.estat p d a) p (do
    let s ← get
    let x := s.cl s.selfCl
    let held := x.cmds.filter fun c => c.unit == .copy
    let v : Option Word :=
      match (s.rd a).toNat with
      | 0 => some ((x.rtOf .copy).setWidth 64)
      | 1 => some ((x.lastSeq .copy).setWidth 64)
      | 2 => some (BitVec.ofNat 64 held.length)
      | 3 => some (BitVec.ofNat 64 x.writeAcks)
      | 4 => some x.scoreboard
      | 5 => some (BitVec.ofNat 64 ((held.map fun c => c.parked.length).sum))
      | n =>
        if 0x100 ≤ n && n < 0x500 then
          let k := n - 0x100
          some (BitVec.ofNat 64 ((KMap.getD x.cbm (k / 64) 0#4096).toNat >>> (64 * (k % 64))))
        else none
    match v with
    | some w => set (s.wr d w)
    | none => trap 0x60#8) s

/-! ### `ebexp` (R360) -/

/-- The effect of `ebexp` on the phase unit once its fields are checked. -/
def postExpectation (d : Reg) (c : Cmd) : Act Unit := do
  let s ← get
  let cl := s.selfCl
  let off ← ownLine c.dst (128 * (c.n1 + 1)) 128
  let k := c.opx % 8
  let b := (s.cl cl).counter k
  let base := off / 128
  let lines := c.n1 + 1
  trapIf (b.pst || b.err) 0x70#8
  trapIf ((List.range 8).any fun j =>
    let o := (s.cl cl).counter j
    j != k && o.bound && base < o.base + o.lines && o.base < base + lines) 0x70#8
  trapIf (!(b.bound && b.base == base && b.lines == lines) && (b.cur != 0 || b.nxt != 0)) 0x70#8
  let b1 := { b with bound := true, base, lines, flag := c.flag, cur := b.cur - (c.aux : Int), pst := true }
  let s1 := s.modCl cl fun x =>
    let y := x.setCounter k b1
    if 8 ≤ c.opx then { y with bphase := y.bphase + 1#32 } else y
  let s2 := settleCounter cl k s1
  set (s2.wr d (if ((s2.cl cl).counter k).phase != b.phase then 1#64 else 0#64))

/-- `ebexp` (R360). -/
def execEbexp (p : Pred) (d a f0 f1 f2 f3 : Reg) (s : State) : Host.Outcome State Fault Refusal :=
  actOp (.ebexp p d a f0 f1 f2 f3) p (do
    let c ← template .copy 0x11 a [f0, f1, f2, f3]
    trapIf (!onlyFields c.raw.toNat [(255, 192), (95, 80), (767, 704), (39, 36), (971, 960)] || 2 ^ 39 ≤ c.aux) 0x60#8
    postExpectation d c) s

end Sys2Proof.Machine
end

