-- ==== Sys2Proof/Machine/Batch.lean ====
section
/-! DEFINITION. The compaction unit's appends and the termination detector (R289 to R292), and the conflict batcher
(R293 to R295). -/

namespace Sys2Proof.Machine

/-! ### Appends (R291) -/

/-- A source of `n` bytes, aligned, by coordinate or virtual address. -/
def checkSource (c : Cmd) (n al : Nat) : Act Unit := do
  trapIf (!([0, 1].contains (c.kind false))) 0x60#8
  if c.kind false == 0 then checkCoord c c.src n al
  else if c.src % al != 0 then trapAt 0x28#8 (BitVec.ofNat 64 c.src)
  else pure ()

/-- `eappend` (R291, R292). -/
def checkEappend (c : Cmd) : Act Cmd := do
  let r := c.raw.toNat
  if c.opx == 1 then
    trapIf (!onlyFields r (c.commonFields ++ [(39, 36), (971, 960)])) 0x60#8
    checkCwa c 4
    pure c
  else
    trapIf (c.opx != 0 || !onlyFields r (c.commonFields ++ [(191, 128), (49, 48), (79, 64), (203, 192), (767, 704)])) 0x60#8
    checkCwa c 4
    checkSource c (8 * (c.n0 + 1)) 8
    if c.aux != 0 then checkCoord c c.aux (2 * (c.n0 + 1)) 2
    else
      let s ← get
      let _ ← liftA (wlAddr s c.ctx c.dst) (wlDesc c.ctx c.die c.gang c.dst)
      pure ()
    pure c

/-- `eappend` (R291, R292). -/
def execEappend (p : Pred) (d a f0 f1 f2 f3 : Reg) (s : State) : Host.Outcome State Fault Refusal :=
  issueOp (.eappend p d a f0 f1 f2 f3) p .compaction opEappend d a [f0, f1, f2, f3] checkEappend s

/-- A command of the compaction unit starts: the handles of its items are read (R129, R291). -/
def startAppend (c : Cmd) (s : State) : State :=
  if c.started || !c.ready s then s
  else if c.opx == 1 then s.setCmd { c with started := true }
  else
    let handles : EAct (List Nat) :=
      if c.aux == 0 then pure (List.replicate (c.n0 + 1) c.dst)
      else do
        let bs ← coordGet c c.aux (2 * (c.n0 + 1))
        pure ((List.range (c.n0 + 1)).map fun i => leNat ((bs.drop (2 * i)).take 2))
    match handles s with
    | .error .wait => s
    | .error (.park e a) => if c.parked.isEmpty then parkItem c 0 e a s else s
    | .ok (l, s1) => s1.setCmd { c with started := true, idx := l }

/-- What becomes of an item to append; `own` tells a fault of the unit's own access (R271, R289). -/
inductive Appended where
  | done (s : State)
  | skip (s : State)
  | full
  | stop (own : Bool) (e : Snag)
  deriving DecidableEq, Repr

/-- Item `j` of a command: skipped where its bit 63 is set or its handle is invalid, else appended (R291). -/
def appendItem (c : Cmd) (j : Nat) (s : State) : Appended :=
  match sourceGet c (c.src + 8 * j) 8 s with
  | .error e => .stop false e
  | .ok (bs, s1) =>
    let item : Word := BitVec.ofNat 64 (leNat bs)
    let h := c.idx.getD j 0
    if item.getLsbD 63 then .done s1
    else
      let drop (s : State) : Appended :=
        .skip ((s.modDie c.die fun d => { d with wldrops := d.wldrops + 1 }).logCmd c 0x6F#8 2 j (wlAddr s c.ctx h) 0)
      if 4095 < h then drop s1
      else
        match wlDesc c.ctx c.die c.gang h s1 with
        | .error e => if e == 0x6F#8 && c.aux != 0 then drop s1 else .stop true (snagOf e (wlAddr s1 c.ctx h))
        | .ok (s2, w) =>
          if appendBusy s2 c.ctx h c.born then .full
          else
            match wlAppend c.ctx c.gang h w item s2 with
            | .error e => .stop true (snagOf e (w.slot (s2.windrow c.ctx h).tail))
            | .ok none => .full
            | .ok (some s3) => .done s3

/-- Items committed in ascending order until one finds its windrow full; structural on the items (R290). -/
def appendAll (c0 : Cmd) : List Nat → State → State
  | [], s => s
  | j :: t, s =>
    match s.cmdOf c0 with
    | none => s
    | some c =>
      match appendItem c j s with
      | .done s1 => appendAll c0 t (markDone c j s1)
      | .skip s1 => appendAll c0 t (markDone c j s1)
      | .full => s
      | .stop _ .wait => s
      | .stop own (.park e a) => appendAll c0 t (if own then parkOwn c j e a s else parkItem c j e a s)

/-- WINDROW_APPEND (R290). -/
def execWindrowAppend (cl : Nat) (seq : BitVec 32) (s : State) : Host.Outcome State Fault Refusal :=
  match s.cmd? .compaction cl seq with
  | none => .next s
  | some c => .next (if c.started && c.opx == 0 then appendAll c c.todo s else s)

/-! ### Messages of a gang over tc0 (R292, R354, R415) -/

/-- A change of a gang. -/
def State.modGang (s : State) (g : Nat) (f : Gang → Gang) : State :=
  match KMap.get? s.gangs g with
  | some x => { s with gangs := KMap.set s.gangs g (f x) }
  | none => s

/-- The other devices of a gang, and the lowest-numbered of those that have a task of it; a home device without one is not counted. -/
def Gang.others (x : Gang) : List Nat := x.remote.foldl (fun l r => NSet.insert l r.1) []
def lowestDev (s : State) (x : Gang) : Nat :=
  match x.members, x.others with
  | [], d :: l => l.foldl Nat.min d
  | _, l => l.foldl Nat.min (devId s)

/-- A message about a gang, which it names by its home device and its launch stamp: `mbr` and `addr` (log 13). -/
def gangPacket (s : State) (x : Gang) (dev : Nat) (kind : PKind) (imd arg : Nat) : Packet :=
  { newPacket s dev 0 kind x.ctx x.sstep with
    imd, mbr := x.home, addr := x.stamp, seq := BitVec.ofNat 32 x.num, arg := BitVec.ofNat 64 arg }

def tellAll (x : Gang) (devs : List Nat) (kind : PKind) (imd arg : Nat) (s : State) : State :=
  devs.foldl (fun s d => s.send (gangPacket s x d kind imd arg)) s

/-- The gang that a message names. -/
def gangOfPacket (s : State) (p : Packet) : Option Nat :=
  (s.gangs.find? fun e =>
    e.2.ctx == p.ctx && e.2.home == p.mbr && e.2.stamp == p.addr && BitVec.ofNat 32 e.2.num == p.seq).map (·.1)

/-! ### The termination detector (R292) -/

/-- Clusters whose task belongs to a gang. -/
def gangClusters (s : State) (g : Nat) : List Nat :=
  (s.clusters.filter fun e => (e.2.task.map (·.gang)) == some g).map (·.1)

/-- The arming commands of a gang that the detector has not answered: `next` of one that it has is 1. -/
def armedOf (s : State) (g : Nat) : List Cmd :=
  s.clusters.flatMap fun e => e.2.cmds.filter fun c =>
    c.unit == .compaction && c.opx == 1 && c.started && !c.flagged && c.next == 0 && c.gang == g

/-- Totals of a gang's windrows on this device: appends, pops, completions. -/
def windrowTotals (s : State) (g : Nat) : Nat × Nat × Nat :=
  (s.windrows.filter fun e => e.2.users.contains g).foldl
    (fun (a : Nat × Nat × Nat) (e : Nat × Windrow) => (a.1 + e.2.appends, a.2.1 + e.2.pops, a.2.2 + e.2.completions)) (0, 0, 0)

/-- A command that holds no slot of the copy engines, the sluice, the batcher or the compaction unit, arming ones excepted. -/
def Cmd.aside (c : Cmd) : Bool := c.unit == .fabric || c.unit == .collective || (c.unit == .compaction && c.opx == 1)

/-- A cluster of the gang, or the image of one, is idle: no command of it holds a slot of those engines, and no item is
outstanding. -/
def idleCluster (x : Cluster) : Bool :=
  x.cmds.all Cmd.aside && (x.task.bind (·.item)).isNone && x.rakes.all fun r => r.2.item.isNone

/-- Every die of this device is idle for a gang, the commands that its spilled tasks have left at die engines among them. -/
def gangIdle (s : State) (g : Nat) : Bool :=
  (s.clusters.all fun e =>
      if (e.2.task.map (·.gang)) == some g then idleCluster e.2 else e.2.cmds.all fun c => c.gang != g || c.aside)
    && s.spilled.all fun p => (p.image.task.map (·.gang)) != some g || idleCluster p.image

/-- What this device reports to a sweep: totals, whether it is idle, and its arming commands. -/
def sweepReport (s : State) (g : Nat) : List Nat :=
  let t := windrowTotals s g
  [t.1, t.2.1, t.2.2, if gangIdle s g then 1 else 0, (armedOf s g).length]

/-- An arming command has its flag set and retires, at once or as soon as its completion word can be written; the flag of a
spilled task waits until the task is back (R130, R292, R396). -/
def endArm (c : Cmd) (s : State) : State :=
  if away s c.ctx c.cl then s.setCmd { c with next := 1 }
  else
    let k := { c with flagged := true, next := 1 }
    retireCmd k true ((if exited s c then s else s.setFlagOf c.cl c.flag true).setCmd k)

/-- Every arming command of the gang here ends. -/
def endArmed (g : Nat) (s : State) : State := (armedOf s g).foldl (fun s c => endArm c s) s

/-- A sweep for which every device has reported ends: the second of two equal idle ones with appends = pops = completions
ends every arming command of the gang, here and on the other devices. -/
def settleSweep (g : Nat) (x : Gang) (s : State) : State :=
  let sum (i : Nat) : Nat := (x.sweepIn.map fun e => e.2.getD i 0).sum
  let now : Nat × Nat × Nat × Bool := (sum 0, sum 1, sum 2, sum 3 == x.sweepIn.length)
  let keep (l : List (Nat × Nat × Nat × Bool)) : State := s.modGang g fun y => { y with sweepIn := [], sweeps := l }
  if x.sweepIn.any fun e => e.2.isEmpty then s
  else if sum 4 == 0 then keep []
  else if now.1 == now.2.1 && now.2.1 == now.2.2.1 && now.2.2.2 && x.sweeps.getLast? == some now then
    endArmed g (tellAll x x.others .sweep 2 0 (keep []))
  else keep [now]

/-- TERMINATION_SWEEP (R292): the gang's lowest-numbered device takes its own report and asks the others in ascending order
for theirs; while a sweep is under way none begins. A sweep is of the gang with that place, context and number. -/
def execTerminationSweep (gang ctx num : Nat) (s : State) : Host.Outcome State Fault Refusal :=
  match KMap.get? s.gangs gang with
  | none => .next s
  | some x =>
    if x.ctx != ctx || x.num != num || lowestDev s x != devId s || !x.sweepIn.isEmpty then .next s
    else
      let y := { x with sweepIn := (devId s, sweepReport s gang) :: x.others.map fun d => (d, []) }
      .next (settleSweep gang y (tellAll x x.others .sweep 0 0 { s with gangs := KMap.set s.gangs gang y }))

/-- A sweep's message: `imd` 0 asks for this device's report, 1 brings one, 2 says that the gang is quiescent (log 13). -/
def takeSweep (p : Packet) (g : Nat) (x : Gang) (s : State) : State :=
  match p.imd with
  | 0 => s.send { gangPacket s x p.sdev .sweep 1 0 with data := (sweepReport s g).flatMap (natLe 8) }
  | 1 =>
    let y := { x with sweepIn := x.sweepIn.map fun e =>
      if e.1 == p.sdev then (e.1, (List.range 5).map fun i => leNat ((p.data.drop (8 * i)).take 8)) else e }
    settleSweep g y { s with gangs := KMap.set s.gangs g y }
  | _ => endArmed g s

/-! ### The conflict batcher (R293 to R295) -/

def Cmd.osel (c : Cmd) : Nat := bits c.follows 4 0
def Cmd.wide (c : Cmd) : Bool := bit c.follows 5
def Cmd.padIndex (c : Cmd) : Nat := bits c.follows 63 32

/-- Bytes of one output vector, and of a group's output. -/
def Cmd.batchVec (c : Cmd) : Nat := if c.wide then 256 else 128
def Cmd.batchOut (c : Cmd) : Nat := c.batchVec * popBits 5 c.osel

/-- `ebatch` (R293). -/
def checkEbatch (c : Cmd) : Act Cmd := do
  trapIf (!onlyFields c.raw.toNat (c.commonFields ++ [(191, 128), (49, 48), (79, 64), (255, 192), (383, 352), (767, 704), (959, 768)]))
    0x60#8
  trapIf (c.osel == 0 || bits c.follows 31 6 != 0 || c.follows >>> 64 != 0) 0x6E#8
  checkCwa c 4
  if c.str true 1 % 128 != 0 then trapAt 0x28#8 (BitVec.ofNat 64 c.dst) else pure ()
  trapIf (c.str true 1 < (c.batchOut : Int)) 0x60#8
  checkSource c (16 * (c.n0 + 1)) 16
  checkCoord c c.dst c.batchOut 128
  checkCoord c c.aux 4 4
  pure c

/-- `ebatch` (R293). -/
def execEbatch (p : Pred) (d a f0 f1 f2 f3 : Reg) (s : State) : Host.Outcome State Fault Refusal :=
  issueOp (.ebatch p d a f0 f1 f2 f3) p .batcher opEbatch d a [f0, f1, f2, f3] checkEbatch s

/-- Body id `k` of an item; 0xFFFFFF names none. -/
def bodyId (item k : Nat) : Nat := bits item (24 * k + 23) (24 * k)

def bodiesOf (item : Nat) : List Nat := ((List.range 4).map (bodyId item)).filter fun b => b != 0xFFFFFF

/-- One group of a window of (index, item) in stream order (R294); structural on the window. -/
def formGroup : List (Nat × Nat) → List (Nat × Nat) → List Nat → List Nat → List (Nat × Nat)
  | [], group, _, _ => group
  | x :: t, group, used, blocked =>
    if group.length == 64 then group
    else
      let bs := bodiesOf x.2
      if bs.any fun b => used.contains b || blocked.contains b then formGroup t group used (blocked ++ bs)
      else formGroup t (group ++ [x]) (used ++ bs) blocked

/-- A group's output vectors (R295). -/
def groupOutput (c : Cmd) (group : List (Nat × Nat)) : List Byte :=
  ((List.range 5).filter fun k => bit c.osel k).flatMap fun k =>
    (List.range 64).flatMap fun i =>
      let v := match group[i]? with
        | none => c.padIndex
        | some x => if k == 0 then x.1 else bodyId x.2 (k - 1)
      natLe (if c.wide then 4 else 2) v

/-- The next group: its window read, its vectors and its count written. -/
def nextGroup (c : Cmd) : EAct (List Nat) := do
  let window ← (c.undone.take 256).mapM fun i => do
    let bs ← sourceGet c (c.src + 16 * i) 16
    pure (i, leNat (bs.take 12))
  let group := formGroup window [] [] []
  let last := c.undone.length == group.length
  coordPut c (wrap 64 ((c.dst : Int) + c.next * c.str true 1)) (groupOutput c group)
  coordPut c (c.aux + 4 * c.next) (natLe 4 (group.length + if last then 2147483648 else 0))
  pure (group.map (·.1))

/-- BATCH_GROUP (R294, R295). -/
def execBatchGroup (cl : Nat) (seq : BitVec 32) (s : State) : Host.Outcome State Fault Refusal :=
  match s.cmd? .batcher cl seq with
  | none => .next s
  | some c =>
    if !c.started || c.undone.isEmpty || !c.parked.isEmpty then .next s
    else
      match nextGroup c s with
      | .error .wait => .next s
      | .error (.park e a) => .next (parkItem c (c.undone.headD 0) e a s)
      | .ok (l, s1) => .next (s1.setCmd { c with items := l.foldl NSet.insert c.items, next := c.next + 1 })

end Sys2Proof.Machine
end

