-- ==== Sys2Proof/Machine/Graph.lean ====
section
/-! DEFINITION. The graph of devices and the routing of packets at this device's router (R297 to R306, R317). -/

namespace Sys2Proof.Machine

/-! ### The projective plane (R297, Table 12.1) -/

/-- The field of an order: characteristic, degree, and the coefficients below the leading one of its polynomial. -/
def fieldOf (q : Nat) : Nat × List Nat :=
  match q with
  | 4 => (2, [1, 1]) | 8 => (2, [1, 1, 0]) | 9 => (3, [1, 0])
  | 16 => (2, [1, 1, 0, 0]) | 25 => (5, [2, 0]) | 27 => (3, [1, 2, 0])
  | _ => (q, [0])

def primePowers : List Nat := [2, 3, 4, 5, 7, 8, 9, 11, 13, 16, 17, 19, 23, 25, 27, 29, 31]

/-- The coefficients of an element, low first, and its code. -/
def coeffs (p m v : Nat) : List Nat := (List.range m).map fun i => v / p ^ i % p
def codeOf (p : Nat) : List Nat → Nat
  | [] => 0
  | c :: t => c + p * codeOf p t

/-- x·a modulo the field's polynomial. -/
def timesX (p : Nat) (low a : List Nat) : List Nat :=
  let top := a.getLastD 0
  ((0 :: a.dropLast).zip low).map fun c => (c.1 + top * (p - c.2 % p)) % p

/-- The product of two elements of GF(q), by their codes. -/
def gfMul (q x y : Nat) : Nat :=
  match fieldOf q with
  | (p, low) =>
    if low.length == 1 then x * y % q
    else
      let b := coeffs p low.length y
      codeOf p ((coeffs p low.length x).foldr (fun (c : Nat) (r : List Nat) =>
        ((timesX p low r).zip b).map fun e => (e.1 + c * e.2) % p) (List.replicate low.length 0))

def gfAdd (q x y : Nat) : Nat :=
  match fieldOf q with
  | (p, low) => codeOf p (((coeffs p low.length x).zip (coeffs p low.length y)).map fun e => (e.1 + e.2) % p)

/-- The coordinates of a device. -/
def pointOf (q d : Nat) : List Nat := if d < q * q then [1, d / q, d % q] else if d < q * q + q then [0, 1, d - q * q] else [0, 0, 1]

/-- Distinct devices with x·y = 0. -/
def neighbours (q u v : Nat) : Bool :=
  u != v && (((pointOf q u).zip (pointOf q v)).map fun e => gfMul q e.1 e.2).foldl (gfAdd q) 0 == 0

/-- The neighbours of a device, ascending. -/
def neighboursOf (q u : Nat) : List Nat := (List.range (q * q + q + 1)).filter (neighbours q u)

/-- Links between two devices on the way from one to another: 0, 1 or 2. -/
def hops (q u v : Nat) : Nat := if u == v then 0 else if neighbours q u v then 1 else 2

def fieldOrder (s : State) : Nat := bits s.fabcfg.toNat 12 8

/-- The device at the far end of a port, and the port there (R298); a port that the rule does not name is unused. -/
def portLink (s : State) (port : Nat) : Option (Nat × Nat) :=
  let q := fieldOrder s
  if 64 / (q + 1) ≤ port / (q + 1) then none
  else ((neighboursOf q (devId s))[port % (q + 1)]?).map fun v => (v, (neighboursOf q v).idxOf (devId s) + (q + 1) * (port / (q + 1)))

def portPeer (s : State) (port : Nat) : Option Nat := (portLink s port).map (·.1)

/-- The junction die of a port (R298). -/
def junctionOf (port : Nat) : Nat := port / 32

/-! ### Ports -/

def State.port (s : State) (k : Nat) : Port := KMap.getD s.ports k Port.reset

def State.setPort (s : State) (k : Nat) (p : Port) : State := { s with ports := KMap.set s.ports k p }

/-- A packet's length in flits (R303). -/
def flits (p : Packet) : Nat := 1 + (if p.mc then 1 else 0) + (p.data.length + 127) / 128

/-- The number of a packet kind in `KIND` (log 13). -/
def kindCode : PKind → Nat
  | .readReq => 0 | .readReply => 1 | .write => 2 | .accUpdate => 3 | .flagSet => 4 | .ack => 5 | .carry => 6
  | .permit => 7 | .token => 8 | .contribution => 9 | .pullLoad => 10 | .result => 11 | .flush => 12
  | .collective => 13 | .groupUpdate => 14 | .drain => 15 | .barrier => 16 | .sweep => 17 | .rollback => 18
  | .placement => 19 | .spdm => 20

/-- The header flit (Table 12.4); every byte beyond its fields is zero. The bytes of a write are counted in `MBR` (log 13). -/
def headerFlit (p : Packet) : List Byte :=
  let flag (b : Bool) (k : Nat) : Nat := if b then 2 ^ k else 0
  natLe 4 (p.ddev % 1024 + 65536 * (p.sdev % 1024))
    ++ natLe 1 (p.tc % 4 + 4 * (p.hop % 4) + flag p.ph 4 + flag p.mc 5) ++ natLe 1 (kindCode p.kind + flag p.part 7)
    ++ natLe 2 ((p.data.length + 127) / 128) ++ natLe 2 (p.imd % 1024) ++ natLe 2 p.ctx ++ natLe 4 p.key.toNat
    ++ natLe 4 p.gen.toNat ++ natLe 2 (p.grp % 4096) ++ natLe 2 p.ver ++ natLe 4 p.seq.toNat
    ++ natLe 4 ((if p.kind == .write then p.data.length else p.mbr) % 1024) ++ natLe 8 (p.addr % 2 ^ 48) ++ natLe 8 p.arg.toNat
    ++ natLe 80 0

/-- The flits of a packet: header, destination string, data (R303). -/
def flitBytes (p : Packet) : List Byte :=
  headerFlit p ++ (if p.mc then natLe 128 p.dests.toNat else []) ++ natLe (128 * ((p.data.length + 127) / 128)) (leNat p.data)

/-- A port as the neighbour's acknowledgements and the passing of time leave it (R304, R306). -/
def portNow (s : State) (k : Nat) : Port :=
  let p := s.port k
  let n := min (Config.linkAcked s.tick k) p.retry.length
  let fill (b : Nat) : Nat := min 4096 (b + Config.tc0Credit s.tick k)
  { p with
    retry := p.retry.drop n
    replays := if n == 0 then p.replays else 0
    bucket := fill p.bucket
    inBucket := fill p.inBucket }

/-- Turns of a class in a round of an output port (Table 12.5). -/
def weightOf (tc : Nat) : Nat := if tc == 1 then 4 else if tc == 2 then 11 else 1

/-- The priority that a packet has at this router (R306). -/
def prio (p : Packet) : Nat := if p.slow then 1 else p.tc

/-- Turns that a class has left. -/
def Port.left (x : Port) (tc : Nat) : Nat := KMap.getD x.turns tc (weightOf tc)

/-- A packet of a class has taken its turn; a new round begins where none was left. -/
def Port.turn (x : Port) (tc : Nat) : Port :=
  if tc == 0 then x
  else if x.left tc == 0 then { x with turns := [(tc, weightOf tc - 1)] }
  else { x with turns := KMap.set x.turns tc (x.left tc - 1) }

/-- A packet leaves by a port: it is kept until the neighbour acknowledges it. -/
def sendOut (k : Nat) (p : Packet) (s : State) : State :=
  let x := (portNow s k).turn (prio p)
  let far := (portLink s k).getD (0, 0)
  let x1 := { x with retry := x.retry ++ [{ p with slow := false }], bucket := if p.tc == 0 then x.bucket - 128 * flits p else x.bucket }
  { (s.setPort k x1) with wire := s.wire ++ [⟨k, far.1, far.2, flitBytes { p with hop := p.hop + 1 }⟩] }

/-- Whether a port may take a packet of this device: a tc0 packet of its own waits for the bucket (R306). -/
def mayInject (s : State) (k : Nat) (p : Packet) : Bool :=
  !(p.tc == 0 && p.sdev == devId s && p.hop == 0) || 128 * flits p ≤ (portNow s k).bucket

/-! ### Routes (R300, R301) -/

/-- The route table entry of a device, or none where it is not valid. -/
def routeOf (s : State) (d : Nat) : Option Nat :=
  let e := (KMap.getD s.routes d 0#128).toNat
  if bit e 0 then some e else none

/-- Ports of a mask whose link is up, ascending. -/
def upPorts (s : State) (mask : Nat) : List Nat := (List.range 64).filter fun k => bit mask k && (s.port k).up

/-- The lowest port towards a device. -/
def firstPort (s : State) (d : Nat) : Option Nat := (routeOf s d).bind fun e => (upPorts s (bits e 127 64)).head?

/-- Flits of a class that wait at a port. -/
def queuedAt (s : State) (k tc : Nat) : Nat := (((portNow s k).retry.filter fun p => p.tc == tc).map flits).sum

/-- The candidate paths of a tc1 or tc2 packet at its source: port, intermediate device, cost in hops. -/
def candidates (s : State) (d e : Nat) : List (Nat × Option Nat × Nat) :=
  let q := fieldOrder s
  let me := devId s
  ((upPorts s (bits e 127 64)).map fun k => (k, none, hops q me d))
    ++ (List.range (min 4 (bits e 23 21))).filterMap fun i =>
      let im := bits e (10 * i + 33) (10 * i + 24)
      (firstPort s im).map fun k => (k, some im, hops q me im + hops q im d)

/-- The path with the least product of queue and cost, the lower port on a tie. -/
def bestPath (s : State) (tc : Nat) (l : List (Nat × Option Nat × Nat)) : Option (Nat × Option Nat) :=
  let w (c : Nat × Option Nat × Nat) : Nat := queuedAt s c.1 tc * c.2.2
  (l.foldl (fun (b : Option (Nat × Option Nat × Nat)) (c : Nat × Option Nat × Nat) =>
    match b with
    | none => some c
    | some x => if w c < w x || (w c == w x && c.1 < x.1) then some c else some x) none).map fun c => (c.1, c.2.1)

/-- The port that a packet takes and the packet as it leaves; none where no path is left. -/
def nextHop (s : State) (p : Packet) : Option (Nat × Packet) :=
  let adaptive := p.tc == 1 || p.tc == 2
  if adaptive && p.sdev == devId s && p.hop == 0 then
    match routeOf s p.ddev with
    | none => none
    | some e =>
      match bestPath s p.tc (candidates s p.ddev e) with
      | none => none
      | some (k, none) => some (k, { p with ph := true })
      | some (k, some im) => some (k, { p with imd := im, ph := false })
  else
    let past := !adaptive || p.ph || p.imd == devId s
    (firstPort s (if past then p.ddev else p.imd)).map fun k => (k, { p with ph := past })

/-- Copies of a multicast packet: the ports with their strings, and the destinations that no port reaches (R317). -/
def copies (s : State) (ds : BitVec 1024) : List (Nat × BitVec 1024) × BitVec 1024 :=
  let here : BitVec 1024 := 1#1024 <<< devId s
  let away := ds &&& ~~~here
  let out := ((List.range 64).filterMap fun k =>
    let m := away &&& KMap.getD s.reach k 0#1024
    if (s.port k).up && m != 0#1024 then some (k, m) else none)
  (out, out.foldl (fun v e => v &&& ~~~e.2) away)

/-- The drain marker of a device's own, and whether one has been returned: bit 2 of `ARG` (R319, R401; log 13). -/
def returned (p : Packet) : Bool := p.arg.getLsbD 2

/-- The port that a marker leaves by: its group slot's, or one of every port (R319, R401). -/
def markerPort (p : Packet) : Nat := if p.arg == 0#64 then p.mbr else p.grp

/-- Where a packet goes on: a marker by its own port, every other by its route (R301, R319, R401). -/
def outPort (s : State) (p : Packet) : Option (Nat × Packet) :=
  if p.kind == .drain && !returned p && p.hop == 0 && p.sdev == devId s && (s.port (markerPort p)).up then
    some (markerPort p, { p with ph := true })
  else nextHop s p

/-- Whether a packet of the router waits for a port: a multicast one for every port that it leaves by. -/
def wantsPort (s : State) (k : Nat) (p : Packet) : Bool :=
  if p.mc then (copies s p.dests).1.any fun e => e.1 == k
  else p.ddev != devId s && (outPort s p).map (·.1) == some k

/-- Whether an output port takes a packet now (R305): tc0 goes first; the other classes take turns by their weights, a class
without a turn only where no class that waits has one. A turn is a packet (log 79). -/
def mayLeave (s : State) (k : Nat) (p : Packet) : Bool :=
  let others := s.net.filter fun q => wantsPort s k q && mayInject s k q
  let x := s.port k
  mayInject s k p && (prio p == 0 ||
    (others.all (fun q => prio q != 0) && (0 < x.left (prio p) || others.all fun q => x.left (prio q) == 0)))

/-! ### Links -/

/-- PORT_TRAINING (R299): a port that R298 names trains once `fabcfg` is written and the fabric enabled. -/
def execPortTraining (port : Nat) (s : State) : Host.Outcome State Fault Refusal :=
  .next (if (portPeer s port).isSome && fabricOn s then s.setPort port { s.port port with trained := true, up := true, replays := 0 } else s)

/-- LINK_REPLAY (R304): the retry buffer is sent again; nothing is reordered, lost or doubled. A replay in a row is
counted. -/
def execLinkReplay (port : Nat) (s : State) : Host.Outcome State Fault Refusal :=
  let p := portNow s port
  .next (if p.up then s.setPort port { p with replays := p.replays + 1 } else s)

/-- A port is taken down and logged as 0x87 in the fault log of every loaded context, event 4 fires (on die 0, log 20), and the
packets not acknowledged are injected again, before those that have come since (R302, R304, R379, R404). DESIGN CHOICE (log 98):
the spec names no context for the entry. -/
def portDown (port : Nat) (s : State) : State :=
  let p := s.port port
  let s1 := s.setPort port { p with up := false, trained := false, retry := [] }
  let e : LogEntry := ⟨0x87#8, 2, 389, 7, 0, 0#32, 0, 0#32, port, 0⟩
  let s2 := (s.contexts.map (·.1)).foldl (fun s c => s.logFault c e) s1
  State.soon { s2 with net := p.retry ++ s2.net } (.fire 0 4 (BitVec.ofNat 16 port) 0#16 0#32 0#48)

/-- LINK_DOWN (R304): after 16 failed replays the link is taken down. -/
def execLinkDown (port : Nat) (s : State) : Host.Outcome State Fault Refusal :=
  let p := s.port port
  .next (if !p.up || p.replays < 16 then s else portDown port s)

end Sys2Proof.Machine
end

