-- ==== Sys2Proof/Machine/Reduce.lean ====
section
/-! DEFINITION. Groups and in-switch reduction at this device's router (R318, R321 to R324): slots and versions, member
indices, the reduction tree and its operators, partials, kept records, flushes. -/

namespace Sys2Proof.Machine

/-! ### Groups (R318) -/

def State.slot (s : State) (k : Nat) : GroupSlot := KMap.getD s.groups k GroupSlot.reset

def State.setSlot (s : State) (k : Nat) (x : GroupSlot) : State := { s with groups := KMap.set s.groups k x }

/-- The slot of a group that carries a version, active or draining. -/
def versionSlot (s : State) (g ver : Nat) : Option Nat :=
  (List.range 2).map (fun k => 2 * g + k) |>.find? fun k => (s.slot k).st != 0 && (s.slot k).ver == ver

/-- The active slot of a group. -/
def activeOf (s : State) (g : Nat) : Option Nat :=
  (List.range 2).map (fun k => 2 * g + k) |>.find? fun k => (s.slot k).st == 1

/-- The number of members, and the index of a device among them. -/
def memberCount (m : BitVec 1024) : Nat := popBits 1024 m.toNat
def memberIndex (m : BitVec 1024) (d : Nat) : Nat := popBits d m.toNat

/-- The sequence counter of a slot for a context (R322). -/
def seqKey (slot ctx : Nat) : Nat := 4096 * slot + ctx

def State.groupCount (s : State) (slot ctx : Nat) : BitVec 32 := KMap.getD s.groupSeq (seqKey slot ctx) 0#32

def State.countGroup (s : State) (slot ctx : Nat) : State :=
  { s with groupSeq := KMap.set s.groupSeq (seqKey slot ctx) (s.groupCount slot ctx + 1#32) }

/-! ### Operators (Table 12.11) -/

/-- A sum of products rounded once into FP32. -/
def dot2 (a x b y : Val) : Val := r32 ((a.mul x).add .rne (b.mul y))

def minusInf : Val := .inf true

/-- x ⊕ y of softmax-merge: (m, s, v). -/
def mergeSoft (x y : List Val) : List Val :=
  let mx := x.headD minusInf
  let my := y.headD minusInf
  if mx == minusInf then y
  else if my == minusInf then x
  else
    let m := mx.max my
    let ax := expRef (r32 (mx.add .rne m.negate))
    let ay := expRef (r32 (my.add .rne m.negate))
    m :: ((x.drop 1).zip (y.drop 1)).map fun e => dot2 e.1 ax e.2 ay

/-- x ⊕ y of affine pairs (a, b), interleaved (R73): first x, then y; structural on x. -/
def mergeAffine : List Val → List Val → List Val
  | a1 :: b1 :: t, a2 :: b2 :: u => mul32 a2 a1 :: fma32 a2 b1 b2 :: mergeAffine t u
  | _, _ => []

/-- One node of the tree. -/
def mergeOp (op : Nat) (x y : List Val) : List Val :=
  match op with
  | 0 => (x.zip y).map fun e => add32 e.1 e.2
  | 1 => (x.zip y).map fun e => e.1.max e.2
  | 2 => (x.zip y).map fun e => e.1.min e.2
  | 3 => mergeSoft x y
  | _ => mergeAffine x y

/-- The identity of an operator over `n` elements. -/
def identityOf (op n : Nat) : List Val :=
  match op with
  | 0 => List.replicate n (.zero true)
  | 1 => List.replicate n minusInf
  | 2 => List.replicate n (.inf false)
  | 3 => minusInf :: List.replicate (n - 1) (.zero false)
  | _ => (List.range n).map fun i => if i % 2 == 0 then one32 else .zero false

/-- The largest power of two below `n`, for `n` of 2 and more (R74). -/
def halfOf (n : Nat) : Nat := 2 ^ Nat.log2 (n - 1)

/-- total(lo, lo + n) of R74 over leaves, with a node's operation; structural on a bound of the depth. -/
def treeTotal {α : Type} (op : List α → List α → List α) (leaves : List (List α)) : Nat → Nat → Nat → List α
  | 0, lo, _ => leaves.getD lo []
  | k + 1, lo, n =>
    if n ≤ 1 then leaves.getD lo []
    else op (treeTotal op leaves k lo (halfOf n)) (treeTotal op leaves k (lo + halfOf n) (n - halfOf n))

/-- FP32 codes of values. -/
def codes32 (l : List Val) : List Nat := l.map fun v => encodeVal Fmt.f32 v .rne false

/-- One node over FP32 codes; a softmax-merge with an identity keeps the other side as it is (R321). -/
def mergeCodes (op : Nat) (x y : List Nat) : List Nat :=
  if op == 3 && x.headD 0 == 0xFF800000 then y
  else if op == 3 && y.headD 0 == 0xFF800000 then x
  else codes32 (mergeOp op (x.map val32) (y.map val32))

/-! ### Reductions in progress and kept (R323, R324) -/

def Reduction.same (r : Reduction) (c : Contribution) : Bool :=
  r.ctx == c.ctx && r.grp == c.grp && r.ver == c.ver && r.gen == c.gen && r.seq == c.seq

def Kept.of (k : Kept) (ctx grp ver : Nat) : Bool := k.ctx == ctx && k.grp == grp && k.ver == ver

/-- The records kept of a slot: the last 16. -/
def keepRecord (k : Kept) (s : State) : State :=
  let mine := s.kept.filter fun x => x.of k.ctx k.grp k.ver
  let rest := if 16 ≤ mine.length then s.kept.erase (mine.headD k) else s.kept
  { s with kept := rest ++ [k] }

/-- A member's bit, by its index. -/
def memberDev (m : BitVec 1024) (i : Nat) : Nat := (devicesOf m).getD i 0

/-- Members that a reduction has no contribution of. -/
def Reduction.missing (r : Reduction) (m : BitVec 1024) : BitVec 1024 :=
  r.parts.foldl (fun v c => v &&& ~~~(1#1024 <<< memberDev m c.mbr)) m

/-- A status in an answer to a contribution or a load of a group, which the 16 tells apart (log 13). -/
def groupStatus (status : Nat) : Nat := 16 + status

/-- A reply about a contribution to the device that sent it. -/
def replyMember (c : Contribution) (status : Nat) (s : State) : State :=
  s.send { newPacket s c.dev 1 .ack c.ctx c.gen with grp := c.grp, ver := c.ver, seq := c.seq, mbr := groupStatus status }

/-- The result of a reduction on its way to every member, after the string of those missing: index j of affine pairs
receives total(0, j) (R321, R323). -/
def deliverResult (r : Reduction) (x : GroupSlot) (missing : BitVec 1024) (s : State) : State :=
  let n := memberCount x.memb
  let e := ((r.parts.head?.map (·.vals.length)).getD 0)
  let leaf (i : Nat) : List Nat :=
    match r.parts.find? fun c => c.mbr == i with
    | some c => c.vals.map (·.toNat)
    | none => codes32 (identityOf x.op e)
  let leaves := (List.range n).map leaf
  let packet (d : Nat) (vs : List Nat) : Packet :=
    { newPacket s d 1 .result r.ctx r.gen with
      grp := r.grp, ver := r.ver, seq := r.seq, key := x.key, data := natLe 128 missing.toNat ++ vs.flatMap (natLe 4) }
  let all := if x.op == 4 then [] else treeTotal (mergeCodes x.op) leaves 10 0 n
  (List.range n).foldl (fun s j =>
    let vs := if x.op != 4 then all else if j == 0 then codes32 (identityOf x.op e) else treeTotal (mergeCodes x.op) leaves 10 0 j
    s.send (packet (memberDev x.memb j) vs)) s

/-- A reduction ends: its result leaves, its record is kept, its partials go (R323, R324). -/
def finishReduction (r : Reduction) (x : GroupSlot) (s : State) : State :=
  let missing := r.missing x.memb
  let s1 := deliverResult r x missing { s with reductions := s.reductions.erase r }
  let s2 := keepRecord ⟨r.ctx, r.grp, r.ver, r.gen, r.seq, missing⟩ s1
  if missing == 0#1024 then s2
  else
    (devicesOf x.memb).foldl (fun s d =>
      s.send { newPacket s d 1 .flush r.ctx r.gen with grp := r.grp, ver := r.ver, seq := r.seq, data := natLe 128 missing.toNat }) s2

/-- A contribution is taken: of no slot's version, late, doubled, or added, and the reduction ends with its last member (R318,
R322 to R324). -/
def contribute (c : Contribution) (s : State) : State :=
  match versionSlot s c.grp c.ver with
  | none => replyMember c 6 { s with dropped := s.dropped + 1 }
  | some k =>
    let x := s.slot k
    let dev := memberDev x.memb c.mbr
    let mine := s.kept.filter fun r => r.of c.ctx c.grp c.ver
    let late (s : State) : State := replyMember c 2 { s with dropped := s.dropped + 1 }
    match mine.find? fun r => r.seq == c.seq with
    | some r => if r.missing.getLsbD dev then late s else { s with dropped := s.dropped + 1 }
    | none =>
      if mine.length == 16 && mine.all (fun r => seqBefore c.seq r.seq) then late s
      else
        let old := (s.reductions.find? fun r => r.same c).getD ⟨c.ctx, c.grp, c.ver, c.gen, c.seq, []⟩
        if old.parts.any fun p => p.mbr == c.mbr then { s with dropped := s.dropped + 1 }
        else
          let r := { old with parts := old.parts ++ [c] }
          let s1 := replyMember c 0 { s with reductions := s.reductions.erase old ++ [r] }
          if r.parts.length == memberCount x.memb then finishReduction r x s1 else s1

/-- REDUCTION_CONTRIBUTION (R323). -/
def execReductionContribution (c : Contribution) (s : State) : Host.Outcome State Fault Refusal := .next (contribute c s)

/-- REDUCTION_TIMEOUT (R323): `TMO` µs after its first contribution a reduction is flushed. -/
def execReductionTimeout (ctx grp ver : Nat) (seq : BitVec 32) (s : State) : Host.Outcome State Fault Refusal :=
  match versionSlot s grp ver, s.reductions.find? fun r => r.ctx == ctx && r.grp == grp && r.ver == ver && r.seq == seq with
  | some k, some r => .next (if (s.slot k).tmo == 0 then s else finishReduction r (s.slot k) s)
  | _, _ => .next s

/-! ### Draining (R319) -/

/-- A slot begins to drain: a marker goes to the far end of every port that is up, and comes back (R319). `mbr` is the
port, `seq` 0 (log 13). -/
def drainSlot (k : Nat) (s : State) : State :=
  let x := s.slot k
  let ps := upPorts s (2 ^ 64 - 1)
  ps.foldl (fun s port =>
    match portPeer s port with
    | some d => s.send { newPacket s d 3 .drain 0 0#32 with grp := k / 2, ver := x.ver, mbr := port, key := x.key }
    | none => s) (s.setSlot k { x with st := 2, markers := ps })

/-- The marker of a port has come back. -/
def slotReturned (grp ver port : Nat) (s : State) : State :=
  [2 * grp, 2 * grp + 1].foldl (fun s k =>
    let x := s.slot k
    if x.st == 2 && x.ver == ver then s.setSlot k { x with markers := NSet.erase x.markers port } else s) s

/-- GROUP_SLOT_DRAIN (R319): once every port has returned its marker the slot becomes free, and its records and counters
go with it (R322, R324). -/
def execGroupSlotDrain (grp slot : Nat) (s : State) : Host.Outcome State Fault Refusal :=
  let k := 2 * grp + slot
  let x := s.slot k
  if x.st != 2 || !x.markers.isEmpty then .next s
  else
    .next { (s.setSlot k GroupSlot.reset) with
      kept := s.kept.filter fun r => !(r.grp == grp && r.ver == x.ver)
      notices := s.notices.filter fun r => !(r.grp == grp && r.ver == x.ver)
      groupSeq := s.groupSeq.filter fun e => e.1 / 4096 != k }

end Sys2Proof.Machine
end

