-- ==== Sys2Proof/Machine/Fabric.lean ====
section
/-! DEFINITION. The fabric commands (R312 to R326): their checks, how they start and go on, and `egroup`. -/

namespace Sys2Proof.Machine

/-- Every fabric command asks for an enabled fabric (R299). -/
def needFabric : Act Unit := do
  let s ← get
  trapIf (!fabricOn s) 0x86#8

/-- The group that a command names must have an active slot with this device as a member (0x82). -/
def needMember (g : Nat) : Act (Nat × GroupSlot) := do
  let s ← get
  match activeSlot s g with
  | some x => if x.2.memb.getLsbD (devId s) then pure (2 * g + x.1, x.2) else trap 0x82#8
  | none => trap 0x82#8

/-! ### Remote copies (R315, R316, R320) -/

/-- The flag option of `eput` and `emcast`: `OPX` is 0 or 1, `FLAG` only with 1. -/
def Cmd.flagFields (c : Cmd) : List (Nat × Nat) := (36, 36) :: (if c.opx == 1 then [(971, 960)] else [])

/-- The checks that `eget`, `eput` and `emcast` share with `ecopy`. -/
def checkRemote (c : Cmd) (fs : List (Nat × Nat)) (srcKinds dstKinds : List Nat) : Act Unit := do
  needFabric
  let s ← get
  trapIf (!onlyFields c.raw.toNat (c.copyFields ++ fs) || !c.rmOk) 0x60#8
  trapIf (!c.sideOk s false srcKinds || !c.sideOk s true dstKinds) 0x60#8
  checkCwa c 8
  checkSide c false
  checkSide c true

/-- `eget` (R315). -/
def checkEget (c : Cmd) : Act Cmd := do
  checkRemote c [] [2] [0, 1]
  checkWindow c false .rd
  checkBitmap c
  pure c

/-- `eput` (R315, R316). -/
def checkEput (c : Cmd) : Act Cmd := do
  checkRemote c c.flagFields [0, 1] [2]
  checkWindow c true .wrt
  checkBitmap c
  pure c

/-- `emcast` (R320): `DKND` is 0b00, and `DST` an offset in each member's landing region. -/
def checkEmcast (c : Cmd) : Act Cmd := do
  needFabric
  trapIf (c.f 47 46 != 0) 0x60#8
  checkRemote c (c.flagFields ++ [(812, 800)]) [0, 1] [2]
  checkBitmap c
  let _ ← needMember (bits c.follows 43 32)
  pure c

/-- `eget` (R315). -/
def execEget (p : Pred) (d a f0 f1 f2 f3 : Reg) (s : State) : Host.Outcome State Fault Refusal :=
  issueOp (.eget p d a f0 f1 f2 f3) p .fabric opEget d a [f0, f1, f2, f3] checkEget s

/-- `eput` (R315). -/
def execEput (p : Pred) (d a f0 f1 f2 f3 : Reg) (s : State) : Host.Outcome State Fault Refusal :=
  issueOp (.eput p d a f0 f1 f2 f3) p .fabric opEput d a [f0, f1, f2, f3] checkEput s

/-- `emcast` (R320). -/
def execEmcast (p : Pred) (d a f0 f1 f2 f3 : Reg) (s : State) : Host.Outcome State Fault Refusal :=
  issueOp (.emcast p d a f0 f1 f2 f3) p .fabric opEmcast d a [f0, f1, f2, f3] checkEmcast s

/-- The devices that a flag of `eput` or `emcast` goes to: those that refused a line are left out (R316, R320). -/
def flagPackets (c : Cmd) : EAct (List Packet) := do
  let s ← get
  if c.op == opEput then
    if !c.lost.isEmpty then pure []
    else
      let w ← c.locate true (c.elemAddr true (c.row true 0) 8 0).1 1
      match w.1 with
      | .far p k a => pure [{ c.packet s p 2 .flagSet with key := BitVec.ofNat 32 k, addr := a, data := natLe 2 c.flag }]
      | _ => pure []
  else
    match emcastGroup c s with
    | none => pure []
    | some (g, x, ds) =>
      let left := c.lost.foldl (fun (v : BitVec 1024) (d : Nat) => v &&& ~~~(1#1024 <<< d)) ds
      if left == 0#1024 then pure []
      else
        pure [{ c.packet s (devId s) 2 .flagSet with
          mc := true, grp := g, ver := x.ver, key := x.key, addr := c.dst, dests := left, data := natLe 2 c.flag }]

/-- Once every line is acknowledged the flag follows. -/
def sendFlag (c0 : Cmd) (s : State) : State :=
  match s.cmdOf c0 with
  | none => s
  | some c =>
    if c.follow != .owed || !c.undone.isEmpty || c.acks != 0 || !c.parked.isEmpty then s
    else
      match flagPackets c s with
      | .error _ => s
      | .ok (ps, s1) =>
        let n := (ps.map fun p => if p.mc then memberCount p.dests else 1).sum
        ps.foldl (fun s p => s.send p) (s1.setCmd { c with follow := .done, acks := n })

/-- `eget`, `eput` and `emcast` start and go on as copies do. -/
def startRemote (c : Cmd) (s : State) : State :=
  let c1 := if !c.started && c.op != opEget && c.opx == 1 then { c with follow := .owed } else c
  if !c.started && !c.ready s then s else sendFlag c1 (startCopy c1 (s.setCmd c1))

/-! ### Reductions (R325) -/

def Cmd.push (c : Cmd) : Bool := bit c.follows 12
def Cmd.all (c : Cmd) : Bool := bit c.follows 13
def Cmd.root (c : Cmd) : Nat := bits c.follows 23 14

/-- `eldred` (R325): a push takes its sequence at issue, a pull when its load leaves (R322). -/
def checkEldred (c : Cmd) : Act Cmd := do
  needFabric
  trapIf (!onlyFields c.raw.toNat (c.commonFields ++ [(79, 64), (191, 128), (255, 192), (49, 46), (511, 448), (55, 52), (767, 704), (791, 768)])
    || !c.rmOk || (!c.push && (c.all || c.kind false != 0))) 0x60#8
  let s ← get
  trapIf (c.push && !c.sideOk s false [0, 1]) 0x60#8
  trapIf (!c.sideOk s true [0, 1]) 0x60#8
  checkCwa c 8
  if c.push then checkSide c false else pure ()
  checkSide c true
  if c.aux != 0 then checkCoord c c.aux 128 128 else pure ()
  let m ← needMember (bits c.follows 11 0)
  let x := m.2
  let code := if x.ity then 10 else 9
  let typed := if c.push then (c.issueWords s false).all fun w => w % 16 == code else c.fmtField false == code
  let e := c.n0 + 1
  trapIf (x.op == 15 || !typed || (x.op == 4 && e % 2 != 0) || (x.op == 3 && e < 2)
    || (if x.ity then 16384 else 32768) < e) 0x83#8
  if c.push then
    modify fun s => s.countGroup m.1 c.ctx
    pure { c with next := (s.groupCount m.1 c.ctx + 1#32).toNat, idx := [m.1, x.ver] }
  else pure { c with idx := [m.1, x.ver] }

/-- `eldred` (R325). -/
def execEldred (p : Pred) (d a f0 f1 f2 f3 : Reg) (s : State) : Host.Outcome State Fault Refusal :=
  issueOp (.eldred p d a f0 f1 f2 f3) p .fabric opEldred d a [f0, f1, f2, f3] checkEldred s

/-- The group of a reduction, its slot's content, and this device's index in it. -/
def Cmd.slotOf (c : Cmd) (s : State) : GroupSlot := s.slot (c.idx.getD 0 0)
def Cmd.grpOf (c : Cmd) : Nat := c.idx.getD 0 0 / 2
def Cmd.verOf (c : Cmd) : Nat := c.idx.getD 1 0

/-- Whether a command receives the result of its reduction. -/
def Cmd.receives (c : Cmd) (s : State) : Bool :=
  !c.push || c.all || c.root == memberIndex (c.slotOf s).memb (devId s)

/-- A reduction command retires without a result (R323, R324). -/
def endReduce (c : Cmd) (status : Nat) (s : State) : State :=
  s.setCmd { c with started := true, status, items := NSet.insert c.items 0, owing := [], acks := 0 }

/-- A contributed element as an FP32 code: BF16 widened exactly, FP32 kept (R16, R321). -/
def widened (word v : Nat) : Nat := if word % 16 == 10 then v else encodeVal Fmt.f32 (decodeVal (fmtOfWord word) v) .rne false

/-- The elements that a push contributes. -/
def contributed (c : Cmd) : EAct (List Nat) := do
  let a ← c.run false 0
  a.2.mapM fun e => do
    let v ← elemRead c false e.1 a.1 e.2.2.1 e.2.2.2
    pure (widened e.2.1 v)

/-- The router that a group's contributions go to: that of its lowest-numbered member (log 24). -/
def rootDev (x : GroupSlot) : Nat := memberDev x.memb 0

/-- The result, where it has come: the string of missing members, then the elements (R323, R325). -/
def landResult (c : Cmd) : EAct Unit := do
  if c.missing != 0#1024 && c.aux != 0 then coordPut c c.aux (natLe 128 c.missing.toNat) else pure ()
  let b ← c.run true 0
  let _ ← b.2.mapIdxM fun i e =>
    let v := leNat (Mem.read c.got (4 * i) 4)
    elemWrite c e.1 b.1 e.2.2.1 e.2.2.2 (convert Fmt.f32 (fmtOfWord e.2.1) (c.round i) c.sat v)
  pure ()

/-- `eldred` starts, sends its contribution or its load, and lands its result. -/
def startReduce (c : Cmd) (s : State) : State :=
  let x := c.slotOf s
  let noticed := s.notices.any fun k =>
    k.of c.ctx c.grpOf c.verOf && k.seq.toNat == c.next && k.missing.getLsbD (devId s)
  let tagged (p : Packet) : Packet :=
    { p with grp := c.grpOf, ver := c.verOf, key := x.key, seq := BitVec.ofNat 32 c.next
             mbr := memberIndex x.memb (devId s) }
  if !c.undone.contains 0 || c.parked.any (fun p => p.item == 0) then s
  else if !c.started then
    if c.push && noticed then endReduce c 2 s
    else if !c.ready s then s
    else if c.push then
      match contributed c s with
      | .error .wait => s
      | .error (.park e a) => parkItem c 0 e a s
      | .ok (vs, s1) =>
        let rec_ := c.receives s
        let c1 := { c with
          started := true, acks := 1, owing := if rec_ then KMap.set c.owing 0 1 else c.owing
          items := if rec_ then c.items else NSet.insert c.items 0 }
        (s1.setCmd c1).send (tagged { c.packet s (rootDev x) 1 .contribution with data := vs.flatMap (natLe 4) })
    else
      let n := s.groupCount (c.idx.getD 0 0) c.ctx + 1#32
      (s.setCmd { c with started := true, owing := KMap.set c.owing 0 1, next := n.toNat }).send
        { tagged { c.packet s (devId s) 1 .pullLoad with
          mc := true, dests := x.memb, addr := c.src, data := natLe 4 (c.n0 + 1) } with seq := n }
  else if KMap.get? c.owing 0 == some 0 then
    match landResult c s with
    | .error .wait => s
    | .error (.park e a) => parkItem c 0 e a s
    | .ok (_, s1) => fillUp c (markDone c 0 s1)
  else s

/-- A flush notice: the fabric path holds it, and its command of that sequence that has not contributed retires as late at
once (R324). -/
def takeNotice (n : Kept) (s : State) : State :=
  let s1 : State := if s.notices.contains n then s else { s with notices := s.notices ++ [n] }
  let cs := s1.clusters.flatMap fun e => e.2.cmds.filter fun c =>
    c.unit == .fabric && c.op == opEldred && c.ctx == n.ctx && c.grpOf == n.grp && c.verOf == n.ver && c.next == n.seq.toNat && c.push
      && !c.started
  cs.foldl (fun s c => startReduce c s) s1

/-- FLUSH_NOTICE (R324). -/
def execFlushNotice (ctx grp ver : Nat) (seq : Stamp) (missing : BitVec 1024) (s : State) :
    Host.Outcome State Fault Refusal := .next (takeNotice ⟨ctx, grp, ver, seq.gen, seq.seq, missing⟩ s)

/-! ### Carries (R326) -/

/-- `ecarry` (R326). -/
def checkEcarry (c : Cmd) : Act Cmd := do
  needFabric
  trapIf (!onlyFields c.raw.toNat (c.commonFields ++ [(66, 64), (191, 128), (255, 192), (47, 46), (971, 960)])
    || c.kind true != 2) 0x60#8
  checkCwa c 8
  checkCoord c c.src (128 * (c.n0 + 1)) 128
  if c.dst % 128 != 0 then trapAt 0x28#8 (BitVec.ofNat 64 c.dst) else pure ()
  let _ ← liftA c.dst (windowCheck c.ctx c.die (bits c.dst 63 48) (bits c.dst 47 0) (128 * (c.n0 + 1)) .wrt)
  pure c

/-- `ecarry` (R326). -/
def execEcarry (p : Pred) (d a f0 f1 f2 f3 : Reg) (s : State) : Host.Outcome State Fault Refusal :=
  issueOp (.ecarry p d a f0 f1 f2 f3) p .fabric opEcarry d a [f0, f1, f2, f3] checkEcarry s

/-- A carry leaves as one packet of up to 4 lines, or two: `mbr` holds the lines of the carry, `ver` the first line of
the packet, `grp` the guard flag (log 13). -/
def sendCarry (c : Cmd) : EAct Unit := do
  let bs ← coordGet c c.src (128 * (c.n0 + 1))
  let e ← liftE c.dst (windowCheck c.ctx c.die (bits c.dst 63 48) (bits c.dst 47 0) (128 * (c.n0 + 1)) .wrt)
  modify fun s =>
    let part (k : Nat) : Packet :=
      { c.packet s (winPeer e) 0 .carry with
        key := BitVec.ofNat 32 (winKey e), addr := winBase e + bits c.dst 47 0, grp := c.flag, mbr := c.n0 + 1, ver := k
        data := (bs.drop (128 * k)).take 512 }
    let ps := if c.n0 < 4 then [part 0] else [part 0, part 4]
    ps.foldl (fun s p => s.send p) (s.setCmd { c with started := true, acks := ps.length, items := [0] })

def startCarry (c : Cmd) (s : State) : State :=
  if c.started || !c.ready s || !c.parked.isEmpty then s
  else
    match sendCarry c s with
    | .error .wait => s
    | .error (.park e a) => parkItem c 0 e a s
    | .ok (_, s1) => s1

/-! ### `egroup` (R319) -/

/-- The slot content that a template describes. -/
def templateSlot (c : Cmd) : GroupSlot :=
  { st := 1, memb := c.line, ver := bits c.follows 63 48, op := bits c.follows 47 44, ity := bit c.follows 43
    tmo := bits c.follows 31 16, key := BitVec.ofNat 32 (bits c.follows 95 64), markers := [] }

def Cmd.groupOf (c : Cmd) : Nat := bits c.follows 107 96

/-- An operator that Table 12.9 assigns, with the type that operators 3 and 4 ask for. -/
def opOk (x : GroupSlot) : Bool := (x.op ≤ 4 || x.op == 15) && (!(x.op == 3 || x.op == 4) || x.ity)

/-- `egroup`'s template: fields, the member string, membership (R319). -/
def checkEgroup (c : Cmd) : Act Cmd := do
  needFabric
  trapIf (2 < c.opx || !onlyFields c.raw.toNat [(39, 36), (767, 704), (875, 768)]
    || bits c.follows 42 32 != 0 || bits c.follows 15 0 != 0) 0x60#8
  let bs ← if c.opx == 0 then ownRead c.aux 128 128 else pure []
  let c1 := { c with line := BitVec.ofNat 1024 (leNat bs) }
  let s ← get
  if c.opx == 0 then
    trapIf (!opOk (templateSlot c1)) 0x60#8
    trapIf (!c1.line.getLsbD (devId s)) 0x82#8
  else if c.opx == 2 then
    let _ ← needMember c.groupOf
    pure ()
  else pure ()
  pure c1

/-- What `query` returns (Table 12.10). -/
def groupQuery (s : State) (g : Nat) : Word :=
  let own := devId s * 2 ^ 48
  match activeSlot s g with
  | none => BitVec.ofNat 64 (0x3FF + own)
  | some (_, x) =>
    let i := if x.memb.getLsbD (devId s) then memberIndex x.memb (devId s) else 0x3FF
    BitVec.ofNat 64 (i + memberCount x.memb * 2 ^ 16 + x.ver * 2 ^ 32 + own)

/-- A slot is written and made active, and the former active one drains; its counters start at zero (R319, R322). -/
def setGroup (g : Nat) (x : GroupSlot) (s : State) : State :=
  let old := activeSlot s g
  let k := match old with
    | some (n, _) => 2 * g + (1 - n)
    | none => if (s.slot (2 * g)).st == 0 then 2 * g else 2 * g + 1
  let s1 := match old with
    | some (n, _) => drainSlot (2 * g + n) s
    | none => s
  { (s1.setSlot k { x with st := 1 }) with groupSeq := s1.groupSeq.filter fun e => e.1 / 4096 != k }

/-- Both slots drain. -/
def clearGroup (g : Nat) (s : State) : State :=
  (List.range 2).foldl (fun s n =>
    let x := s.slot (2 * g + n)
    if x.st == 1 then drainSlot (2 * g + n) s else s) s

/-- Whether a group has a slot to write a new content into. -/
def groupRoom (s : State) (g : Nat) : Bool :=
  match activeSlot s g with
  | some (n, _) => (s.slot (2 * g + (1 - n))).st == 0
  | none => (s.slot (2 * g)).st == 0 || (s.slot (2 * g + 1)).st == 0

/-- The words of a group update: phase (0 asks for room, 1 sets, 2 clears), group, content (log 13). -/
def groupWords (phase g : Nat) (x : GroupSlot) : List Byte :=
  natLe 2 phase ++ natLe 2 g ++ natLe 2 x.ver ++ natLe 1 x.op ++ natLe 1 (if x.ity then 1 else 0) ++ natLe 4 x.tmo
    ++ natLe 4 x.key.toNat ++ natLe 128 x.memb.toNat

/-- A group update at a member's router; the status that it answers. -/
def takeGroupUpdate (bs : List Byte) (s : State) : State × Nat :=
  let w (i n : Nat) : Nat := leNat ((bs.drop i).take n)
  let g := w 2 2
  let x : GroupSlot :=
    { st := 1, memb := BitVec.ofNat 1024 (w 16 128), ver := w 4 2, op := w 6 1, ity := w 7 1 == 1, tmo := w 8 4
      key := BitVec.ofNat 32 (w 12 4), markers := [] }
  match w 0 2 with
  | 0 => (s, if groupRoom s g then 0 else 3)
  | 1 => (setGroup g x s, 0)
  | _ => (clearGroup g s, 0)

/-- An update for every other member. -/
def tellMembers (c : Cmd) (phase : Nat) (m : BitVec 1024) (s : State) : State :=
  let ds := (devicesOf m).filter fun d => d != devId s
  let s1 := s.setCmd { c with acks := ds.length, next := phase + 1 }
  ds.foldl (fun s d => s.send { c.packet s d 3 .groupUpdate with data := groupWords phase c.groupOf (templateSlot c) }) s1

/-- What an `egroup` in flight does next: a result for s[D], or a wait for the members' answers. `next` counts its
phases. -/
def groupStep (c : Cmd) (s : State) : State × Option Nat :=
  let g := c.groupOf
  let x := templateSlot c
  if c.acks != 0 then (s, none)
  else if c.opx == 2 then
    if c.next == 0 then
      match activeSlot s g with
      | none => (s, some 0)
      | some (_, y) =>
        if (List.range 2).any (fun n => (s.slot (2 * g + n)).st == 2) then (s, some 3)
        else (tellMembers c 2 y.memb (clearGroup g s), none)
    else (s, some 0)
  else if c.next == 0 then
    if (activeSlot s g).map (·.2) == some x then (s, some 0)
    else if !groupRoom s g then (s, some 3)
    else (tellMembers c 0 x.memb s, none)
  else if c.next == 1 then if c.status != 0 then (s, some 3) else (tellMembers c 1 x.memb (setGroup g x s), none)
  else (s, some 0)

/-- An update that needs no answer goes on at once; structural on the phases left. -/
def groupRun (cl : Nat) (seq : BitVec 32) : Nat → State → State × Option Nat
  | 0, s => (s, none)
  | n + 1, s =>
    match s.cmdAt .fabric cl seq s.selfGang with
    | none => (s, some 0)
    | some c =>
      if c.acks != 0 then (s, none)
      else
        match groupStep c s with
        | (s1, some v) => (s1, some v)
        | (s1, none) => groupRun cl seq n s1

/-- `egroup` (R319): the instruction waits until its result is known. -/
def execEgroup (p : Pred) (d a f0 f1 f2 f3 : Reg) (s : State) : Host.Outcome State Fault Refusal :=
  actOpW (.egroup p d a f0 f1 f2 f3) p .engine (do
    let s ← get
    let cl := s.selfCl
    let who := agentNum s
    match KMap.get? (s.cl cl).kicks who with
    | some _ => pure ()
    | none =>
      awaitAll
      let c0 ← template .fabric opEgroup a [f0, f1, f2, f3]
      let c1 ← checkEgroup c0
      modify fun s =>
        let n := (s.cl cl).lastSeq .fabric + 1#32
        s.modCl cl fun x => { x.issueSeq .fabric n with kicks := KMap.set x.kicks who (Kick.mk { c1 with seq := n } false) }
    modify (tryAccept cl who)
    let s1 ← get
    match KMap.get? (s1.cl cl).kicks who with
    | none => pure true
    | some k =>
      if !k.accepted then pure false
      else
        let r := if k.cmd.opx == 1 then (s1, some (groupQuery s1 k.cmd.groupOf))
          else match groupRun cl k.cmd.seq 4 s1 with
            | (s2, v) => (s2, v.map (BitVec.ofNat 64))
        match r with
        | (s2, none) => do
          set s2
          pure false
        | (s2, some v) => do
          let ended (x : Cluster) : Cluster :=
            { x with
              kicks := KMap.erase x.kicks who
              cmds := x.cmds.filter fun c => !(c.unit == .fabric && c.seq == k.cmd.seq && c.gang == k.cmd.gang) }
          set ((s2.modCl cl fun x => (ended x).retireSeq .fabric k.cmd.seq).wr d v)
          pure true) s

/-- A fabric command starts or goes on (R129, R312). -/
def startFabric (c : Cmd) (s : State) : State :=
  if c.op == opEldred then startReduce c s
  else if c.op == opEcarry then startCarry c s
  else if c.op == opEgroup then s
  else startRemote c s

end Sys2Proof.Machine
end

