-- ==== Sys2Proof/Machine/Collect.lean ====
section
/-! DEFINITION. The collective engine (R327 to R329): descriptors, the derivation of steps, blocks, and the steps. -/

namespace Sys2Proof.Machine

/-! ### Descriptors and layouts (Table 12.13, R328) -/

/-- Global extent of a dimension, and size of a mesh axis. -/
def Cmd.extentOf (c : Cmd) (k : Nat) : Nat := c.l (32 * k + 31) (32 * k)
def Cmd.axis (c : Cmd) (a : Nat) : Nat := c.l (128 + 16 * a + 15) (128 + 16 * a)

/-- A layout: the axes of each dimension, major first, and the axes that hold partial sums. -/
structure Layout where
  dims : List (List Nat)
  partials : List Nat
  deriving DecidableEq, Repr

/-- The slots of one dimension, major first. -/
def slotList (v : Nat) : List Nat := [bits v 15 12, bits v 11 8, bits v 7 4, bits v 3 0]

/-- A dimension's list, or none where it has a gap or names no axis. -/
def dimAxes (v : Nat) : Option (List Nat) :=
  let l := slotList v
  let axes := l.takeWhile fun x => x != 0
  if (l.drop axes.length).any (fun x => x != 0) || axes.any (fun x => 4 < x) then none else some (axes.map fun x => x - 1)

def axesOf (v : Nat) : List Nat := (List.range 4).filter fun a => bit v a

/-- The source or destination layout of a descriptor; none where it is illegal by itself. -/
def Cmd.layout (c : Cmd) (dst : Bool) : Option Layout :=
  let lo := if dst then 256 else 192
  match (List.range 4).mapM fun k => dimAxes (c.l (lo + 16 * k + 15) (lo + 16 * k)) with
  | none => none
  | some dims =>
    let part := axesOf (if dst then c.l 331 328 else c.l 323 320)
    let all := dims.flatten ++ part
    if all.eraseDups.length != all.length then none else some ⟨dims, part⟩

/-- The product of the axes of a list. -/
def Cmd.span (c : Cmd) (l : List Nat) : Nat := l.foldl (fun n a => n * c.axis a) 1

/-- Block extents of a layout. -/
def Cmd.blockDims (c : Cmd) (l : Layout) : List Nat :=
  (List.range 4).map fun k => c.extentOf k / c.span (l.dims.getD k [])

def prod (l : List Nat) : Nat := l.foldl (· * ·) 1

/-- Bytes of a block. -/
def Cmd.blockBytes (c : Cmd) (l : Layout) : Nat := (slotBits (c.fmtField false) * prod (c.blockDims l) + 7) / 8

/-- Whether a descriptor keeps R328 for a group of `n` members. -/
def collOk (c : Cmd) (n : Nat) : Bool :=
  match c.layout false, c.layout true with
  | some a, some b =>
    let whole (l : Layout) : Bool := (List.range 4).all fun k => c.extentOf k % c.span (l.dims.getD k []) == 0
    b.partials.all (fun x => a.partials.contains x) && c.span [0, 1, 2, 3] == n && whole a && whole b
      && 2 * max (c.blockBytes a) (c.blockBytes b) ≤ c.l 511 448
      && c.l 327 324 == 0 && c.l 383 332 == 0 && c.l 1023 512 == 0
  | _, _ => false

/-- `ecoll` (R327). -/
def checkEcoll (c : Cmd) : Act Cmd := do
  needFabric
  trapIf (!onlyFields c.raw.toNat (c.commonFields ++ [(191, 128), (255, 192), (511, 448), (55, 52), (767, 704), (779, 768)])
    || !c.rmOk || c.fmtField false != c.fmtField true || !fmtWordOk (c.fmtField false)) 0x60#8
  checkCwa c 8
  let z := slotBytes (slotBits (c.fmtField false))
  if c.src % z != 0 then trapAt 0x28#8 (BitVec.ofNat 64 c.src)
  else if c.dst % z != 0 then trapAt 0x28#8 (BitVec.ofNat 64 c.dst)
  else pure ()
  let bs ← ownRead c.aux 128 128
  let m ← needMember (bits c.follows 11 0)
  let c1 := { c with line := BitVec.ofNat 1024 (leNat bs) }
  trapIf (!collOk c1 (memberCount m.2.memb)) 0x84#8
  let sz (dst : Bool) : Nat := ((c1.layout dst).map c1.blockBytes).getD 0
  pure { c1 with idx := [sz false, sz true, 0, m.1, m.2.ver] }

/-- `ecoll` (R327). -/
def execEcoll (p : Pred) (d a f0 f1 f2 f3 : Reg) (s : State) : Host.Outcome State Fault Refusal :=
  issueOp (.ecoll p d a f0 f1 f2 f3) p .collective opEcoll d a [f0, f1, f2, f3] checkEcoll s

/-! ### Derivation of steps (R329) -/

inductive CollStep where
  | gather (a k : Nat)
  | exchange (a k j : Nat)
  | scatter (a k : Nat)
  | reduce (a : Nat)
  | slice (a k : Nat)
  deriving DecidableEq, Repr

/-- `l` with dimension `k` replaced. -/
def Layout.put (l : Layout) (k : Nat) (v : List Nat) : Layout := { l with dims := l.dims.set k v }

def Layout.dim (l : Layout) (k : Nat) : List Nat := l.dims.getD k []

/-- Phase 1 on one dimension; structural on a bound of its axes. -/
def phase1 (d : Layout) (k : Nat) : Nat → Layout × List CollStep → Layout × List CollStep
  | 0, r => r
  | n + 1, (c, st) =>
    if (c.dim k).isPrefixOf (d.dim k) then (c, st)
    else
      let a := (c.dim k).getLastD 0
      let c1 := c.put k (c.dim k).dropLast
      match (List.range 4).find? fun j =>
          j != k && (c1.dim j).isPrefixOf (d.dim j) && (d.dim j)[(c1.dim j).length]? == some a with
      | some j => phase1 d k n (c1.put j (c1.dim j ++ [a]), st ++ [.exchange a k j])
      | none => phase1 d k n (c1, st ++ [.gather a k])

/-- Phase 2 on one axis. -/
def phase2 (d : Layout) (r : Layout × List CollStep) (a : Nat) : Layout × List CollStep :=
  let c := r.1
  if c.partials.contains a && !d.partials.contains a then
    let c1 := { c with partials := c.partials.erase a }
    match (List.range 4).find? fun k => (d.dim k)[(c1.dim k).length]? == some a with
    | some k => (c1.put k (c1.dim k ++ [a]), r.2 ++ [.scatter a k])
    | none => (c1, r.2 ++ [.reduce a])
  else r

/-- Phase 3 on one dimension; structural on a bound of its axes. -/
def phase3 (d : Layout) (k : Nat) : Nat → Layout × List CollStep → Layout × List CollStep
  | 0, r => r
  | n + 1, (c, st) =>
    match (d.dim k)[(c.dim k).length]? with
    | none => (c, st)
    | some a => phase3 d k n (c.put k (c.dim k ++ [a]), st ++ [.slice a k])

/-- The steps of a layout pair. -/
def derive (a d : Layout) : List CollStep :=
  let r1 := (List.range 4).foldl (fun r k => phase1 d k 4 r) (a, [])
  let r2 := (List.range 4).foldl (phase2 d) r1
  ((List.range 4).foldl (fun r k => phase3 d k 4 r) r2).2

def Cmd.steps (c : Cmd) : List CollStep :=
  match c.layout false, c.layout true with
  | some a, some b => derive a b
  | _, _ => []

/-! ### Blocks -/

/-- A block: its four extents and its elements, dimension 0 fastest. -/
structure Block where
  dims : List Nat
  elems : List Nat
  deriving DecidableEq, Repr

/-- The element at an index of four coordinates. -/
def Block.at (b : Block) (i : List Nat) : Nat :=
  let e (k : Nat) : Nat := b.dims.getD k 1
  b.elems.getD (i.getD 0 0 + e 0 * (i.getD 1 0 + e 1 * (i.getD 2 0 + e 2 * i.getD 3 0))) 0

/-- The block of extents `dims` whose elements `f` gives. -/
def Block.build (dims : List Nat) (f : List Nat → Nat) : Block :=
  let e (k : Nat) : Nat := dims.getD k 1
  ⟨dims, (List.range (prod dims)).map fun n =>
    f [n % e 0, n / e 0 % e 1, n / (e 0 * e 1) % e 2, n / (e 0 * e 1 * e 2)]⟩

/-- Blocks joined along dimension `k` in order. -/
def joinBlocks (k : Nat) (bs : List Block) : Block :=
  let d := ((bs.head?).map (·.dims)).getD []
  let e := d.getD k 1
  Block.build (d.set k (e * bs.length)) fun i =>
    ((bs[i.getD k 0 / e]?).map fun b => b.at (i.set k (i.getD k 0 % e))).getD 0

/-- Part `c` of `n` of a block along dimension `k`. -/
def cutBlock (k n c : Nat) (b : Block) : Block :=
  let e := b.dims.getD k 1 / n
  Block.build (b.dims.set k e) fun i => b.at (i.set k (i.getD k 0 + e * c))

/-- The extents that a step leaves. -/
def dimsAfter (c : Cmd) (d : List Nat) : CollStep → List Nat
  | .gather a k => d.set k (d.getD k 1 * c.axis a)
  | .exchange a k j => (d.set k (d.getD k 1 * c.axis a)).set j (d.getD j 1 / c.axis a)
  | .scatter a k => d.set k (d.getD k 1 / c.axis a)
  | .reduce _ => d
  | .slice a k => d.set k (d.getD k 1 / c.axis a)

def collFmt (c : Cmd) : Fmt := fmtOfWord (c.fmtField false)

/-- Whether the elements are results of a reduction: FP32 codes, or integers modulo 2^64 (R329). -/
def Cmd.reduced (c : Cmd) : Bool := c.idx.getD 2 0 == 1

/-- An element as a node takes it: decoded exactly, or a result as it is (Table 1.2). -/
def leafVal (f : Fmt) (red : Bool) (v : Nat) : Val := if red then val32 v else decodeVal f v
def leafInt (f : Fmt) (red : Bool) (v : Nat) : Nat := if red then v else if f.s then wrap 64 (sx f.width v) else v

/-- total(0, n) of elements over a line: every node rounds once into FP32, and integers wrap; of one member it is the element
itself (R74, R329). -/
def totalBlocks (f : Fmt) (red : Bool) (bs : List Block) : Block :=
  match bs with
  | [b] => b
  | _ =>
    let d := ((bs.head?).map (·.dims)).getD []
    if f.e == 0 then Block.build d fun i => (bs.map fun b => leafInt f red (b.at i)).sum % 2 ^ 64
    else
      ⟨d, codes32 (treeTotal (fun x y => (x.zip y).map fun e => add32 e.1 e.2) (bs.map fun b => b.elems.map (leafVal f red)) 10 0 bs.length)⟩

/-- An element encoded into the destination format. -/
def finalCode (c : Cmd) (pos v : Nat) : Nat :=
  let f := collFmt c
  if f.e == 0 then encodeVal f (Val.ofInt (if f.s then sx 64 v else (v : Int)) 0 false) (Cmd.round c pos) c.sat
  else convert Fmt.f32 f (Cmd.round c pos) c.sat v

/-! ### State of a collective in its command -/

/-- The block that the command holds. -/
def Cmd.block (c : Cmd) : Block :=
  let d0 := ((c.layout false).map c.blockDims).getD []
  let d := (c.steps.take c.next).foldl (dimsAfter c) d0
  ⟨d, (List.range (prod d)).map fun i => leNat (Mem.read c.got (8 * i) 8)⟩

def elemBytes (l : List Nat) : List Byte := l.flatMap (natLe 8)

/-- Whether a step forms sums of more than one member. -/
def sums (c : Cmd) : CollStep → Bool
  | .scatter a _ | .reduce a => decide (1 < c.axis a)
  | _ => false

/-- This member's coordinate along an axis, and the member with another one. -/
def coordOf (c : Cmd) (i a : Nat) : Nat := i / prod ((List.range a).map c.axis) % c.axis a
def withCoord (c : Cmd) (i a v : Nat) : Nat := i - coordOf c i a * prod ((List.range a).map c.axis) + v * prod ((List.range a).map c.axis)

def collSlot (c : Cmd) (s : State) : GroupSlot := s.slot (c.idx.getD 3 0)
def ownIndex (c : Cmd) (s : State) : Nat := memberIndex (collSlot c s).memb (devId s)

/-- What a step sends to the line member of coordinate `v`, and the axis of its line. -/
def sentPart (c : Cmd) (b : Block) (v : Nat) : CollStep → Option (Nat × List Nat)
  | .gather a _ => some (a, b.elems)
  | .exchange a _ j => some (a, (cutBlock j (c.axis a) v b).elems)
  | .scatter a k => some (a, (cutBlock k (c.axis a) v b).elems)
  | .reduce a => some (a, b.elems)
  | .slice _ _ => none

/-- The data of the coming step leaves on tc2 for the other members of its line. -/
def sendStep (c : Cmd) (s : State) : State :=
  match c.steps[c.next]? with
  | none => s
  | some st =>
    let me := ownIndex c s
    let x := collSlot c s
    let n := match st with
      | .gather a _ | .exchange a _ _ | .scatter a _ | .reduce a | .slice a _ => c.axis a
    (List.range n).foldl (fun s v =>
      match sentPart c c.block v st with
      | none => s
      | some (a, l) =>
        if coordOf c me a == v then s
        else s.send { c.packet s (memberDev x.memb (withCoord c me a v)) 2 .collective with
          grp := bits c.follows 11 0, ver := x.ver, key := x.key, mbr := me, addr := c.next, data := elemBytes l }) s

/-- A command of the collective engine starts: its block is read (R129, R329). -/
def startColl (c : Cmd) (s : State) : State :=
  if c.started || !c.ready s || !c.parked.isEmpty then s
  else
    match liftE c.src (vaRead c.who c.src (c.idx.getD 0 0)) s with
    | .error .wait => s
    | .error (.park e a) => parkItem c 0 e a s
    | .ok (bs, s1) =>
      let z := slotBits (c.fmtField false)
      let n := prod (((c.layout false).map c.blockDims).getD [])
      let elem (i : Nat) : Nat :=
        if z == 4 then (leNat ((bs.drop (i / 2)).take 1) >>> (4 * (i % 2))) % 16 else leNat ((bs.drop (z / 8 * i)).take (z / 8))
      let c1 := { c with started := true, got := Mem.write [] 0 (elemBytes ((List.range n).map elem)) }
      sendStep c1 (s1.setCmd c1)

/-- The bytes of the final block. -/
def finalBytes (c : Cmd) : List Byte :=
  let z := slotBits (c.fmtField true)
  let vs := c.block.elems.mapIdx fun i v => if c.reduced then finalCode c i v else v
  if z == 4 then (List.range ((vs.length + 1) / 2)).map fun i => BitVec.ofNat 8 (vs.getD (2 * i) 0 % 16 + 16 * vs.getD (2 * i + 1) 0)
  else vs.flatMap (natLe (z / 8))

/-- What a line's members bring to a step, in ascending coordinate, this member's own part among them. -/
def lineBlocks (c : Cmd) (me a : Nat) (own : Block) (dims : List Nat) (blocks : List CollBlock) : Option (List Block) :=
  (List.range (c.axis a)).mapM fun v =>
    if coordOf c me a == v then some own
    else (blocks.find? fun b => b.coord == v).map fun b =>
      ⟨dims, (List.range (prod dims)).map fun i => leNat ((b.data.drop (8 * i)).take 8)⟩

/-- One step on the block; none while a member's part has not come. -/
def collStep (c : Cmd) (me : Nat) (blocks : List CollBlock) (st : CollStep) : Option Block :=
  let b := c.block
  match st with
  | .gather a k => (lineBlocks c me a b b.dims blocks).map (joinBlocks k)
  | .exchange a k j =>
    let own := cutBlock j (c.axis a) (coordOf c me a) b
    (lineBlocks c me a own own.dims blocks).map (joinBlocks k)
  | .scatter a k =>
    let own := cutBlock k (c.axis a) (coordOf c me a) b
    (lineBlocks c me a own own.dims blocks).map (totalBlocks (collFmt c) c.reduced)
  | .reduce a => (lineBlocks c me a b b.dims blocks).map (totalBlocks (collFmt c) c.reduced)
  | .slice a k => some (cutBlock k (c.axis a) (coordOf c me a) b)

/-- COLLECTIVE_STEP (R329): the next step with what the line's members bring, or, after the last, the destination
block written. -/
def execCollectiveStep (cl : Nat) (seq : BitVec 32) (blocks : List CollBlock) (s : State) : Host.Outcome State Fault Refusal :=
  match s.cmd? .collective cl seq with
  | none => .next s
  | some c =>
    if !c.started || c.undone.isEmpty || !c.parked.isEmpty then .next s
    else
      match c.steps[c.next]? with
      | some st =>
        match collStep c (ownIndex c s) blocks st with
        | none => .next s
        | some b =>
          let c1 := { c with
            next := c.next + 1, got := Mem.write [] 0 (elemBytes b.elems), idx := if sums c st then c.idx.set 2 1 else c.idx }
          .next (sendStep c1 (s.setCmd c1))
      | none =>
        match liftEU c.dst (vaWrite c.who c.dst (finalBytes c)) s with
        | .error .wait => .next s
        | .error (.park e a) => .next (parkItem c 0 e a s)
        | .ok (_, s1) => .next (markDone c 0 s1)

end Sys2Proof.Machine
end

