-- ==== Sys2Proof/Machine/Shake.lean ====
section
/-! DEFINITION. SHAKE256 with 512 bits of output, the hash of measured boot (R422). PRESUMED (log 14): the spec names the function
and does not print it; it is the one of FIPS 202. -/

namespace Sys2Proof.Machine

/-- A lane of 64 bits rotated left. -/
def rotLane (x n : Nat) : Nat := (x <<< n ||| x >>> (64 - n)) % 2 ^ 64

/-- How far lane (x, y), numbered x + 5·y, is rotated. -/
def laneTurns : List Nat :=
  [0, 1, 62, 28, 27, 36, 44, 6, 55, 20, 3, 10, 43, 25, 39, 41, 45, 15, 21, 8, 18, 2, 61, 56, 14]

/-- The constants of the 24 rounds. -/
def roundConsts : List Nat :=
  [0x0000000000000001, 0x0000000000008082, 0x800000000000808A, 0x8000000080008000, 0x000000000000808B, 0x0000000080000001,
   0x8000000080008081, 0x8000000000008009, 0x000000000000008A, 0x0000000000000088, 0x0000000080008009, 0x000000008000000A,
   0x000000008000808B, 0x800000000000008B, 0x8000000000008089, 0x8000000000008003, 0x8000000000008002, 0x8000000000000080,
   0x000000000000800A, 0x800000008000000A, 0x8000000080008081, 0x8000000000008080, 0x0000000080000001, 0x8000000080008008]

/-- One round over the 25 lanes. -/
def keccakRound (a : List Nat) (rc : Nat) : List Nat :=
  let l (v : List Nat) (x y : Nat) : Nat := v.getD (x % 5 + 5 * (y % 5)) 0
  let c := (List.range 5).map fun x => l a x 0 ^^^ l a x 1 ^^^ l a x 2 ^^^ l a x 3 ^^^ l a x 4
  let d := (List.range 5).map fun x => c.getD ((x + 4) % 5) 0 ^^^ rotLane (c.getD ((x + 1) % 5) 0) 1
  let b := (List.range 25).map fun i =>
    let x := (i % 5 + 3 * (i / 5)) % 5
    let y := i % 5
    rotLane (l a x y ^^^ d.getD x 0) (laneTurns.getD (x + 5 * y) 0)
  (List.range 25).map fun i =>
    let x := i % 5
    let y := i / 5
    let v := l b x y ^^^ ((2 ^ 64 - 1 - l b (x + 1) y) &&& l b (x + 2) y)
    if i == 0 then v ^^^ rc else v

def keccak (a : List Nat) : List Nat := roundConsts.foldl keccakRound a

/-- The message with its domain bits and padding, a whole number of blocks of 136 bytes. -/
def shakePad (bs : List Byte) : List Byte :=
  let z := 135 - bs.length % 136
  if z == 0 then bs ++ [0x9F#8] else bs ++ [0x1F#8] ++ List.replicate (z - 1) 0#8 ++ [0x80#8]

/-- The 64 bytes of SHAKE256. -/
def shake256 (bs : List Byte) : List Byte :=
  let m := shakePad bs
  let absorb (a : List Nat) (k : Nat) : List Nat :=
    keccak (a.mapIdx fun i v => if i < 17 then v ^^^ leNat ((m.drop (136 * k + 8 * i)).take 8) else v)
  (((List.range (m.length / 136)).foldl absorb (List.replicate 25 0)).take 8).flatMap (natLe 8)

end Sys2Proof.Machine
end

