-- ==== Sys2Proof/Machine/Control.lean ====
section
/-! DEFINITION. Fences, the end of a task or thread, software traps, flags, branches, hardware loops, the gang
barrier, meeting points and signature checks (R183 to R188, R191 to R197). -/

namespace Sys2Proof.Machine

/-! ### Fences, halt, trap -/

/-- A read of host memory through the endpoint whose completion follows every write posted before it; it returns no value (R183,
R348; log 105). -/
def flushingRead (s : State) : State := { s with hostDone := s.hostOut.length }

/-- `fence` (R183): at die scope and wider it waits for acknowledgements and empties L1; at system scope it then reads host
memory, which flushes the posted writes. -/
def execFence (i : BitVec 8) (s : State) : Host.Outcome State Fault Refusal :=
  actOp (.fence i) always (do
    awaitAll
    if i != 0#8 then
      awaitWack
      acquireDevice
      modify fun s => if i == 4#8 then flushingRead s else s
    else pure ()) s

/-- Every parcel that the executing agent's task has fetched is discarded: of all five PCs, or of the thread (R184). -/
def discardText (s : State) : State :=
  match s.actor with
  | .pc c _ => s.modCl c Cluster.dropTexts
  | _ =>
    match s.selfRake with
    | some r => s.setSelfRake { r with text := [] }
    | none => s

/-- `isync` (R184): the other PCs wait at it, so what they hold lies beyond it. -/
def execIsync (s : State) : Host.Outcome State Fault Refusal :=
  actOp .isync always (do
    awaitAll
    awaitWack
    modify discardText) s

/-- Whether item `j` of a copy command is done; `eacc` counts elements (R137, R139). -/
def copyItemDone (k : Cmd) (j : Nat) : Bool :=
  let r := k.raw.toNat
  let n := bits r 79 64 + 1
  if bits r 63 57 == 3 then (List.range n).all fun i => k.items.contains (j * n + i) else k.items.contains j

/-- A held copy command all of whose rest is parked: every item is done or parked and nothing of it is on its way
(R148). -/
def cmdAtRest (s : State) (c : Nat) (k : Cmd) : Bool :=
  let r := k.raw.toNat
  let n := if bits r 63 57 == 4 then 0 else (bits r 95 80 + 1) * (bits r 111 96 + 1) * (bits r 127 112 + 1)
  k.started && !k.parked.isEmpty
    && ((List.range n).all fun j => copyItemDone k j || k.parked.any fun p => p.item == j)
    && s.fills.all fun f => !(f.full && f.cl == c && f.unit == k.unit && f.seq == k.seq && f.gang == k.gang)

/-- A rake thread that lets its task end (R186). -/
def Rake.atRest (r : Rake) : Bool :=
  match r.st with
  | .idle | .ended | .recv | .recvt | .ksleep => true
  | .ready | .trapped => false

/-- The conditions of R186 on cluster `c`, beyond those of the full class. -/
def mayEnd (s : State) (c : Nat) : Bool :=
  let x := s.cl c
  (x.cmds.all fun k => k.unit != .copy || (x.task.map (·.gang)) != some k.gang || cmdAtRest s c k) && x.writeAcks == 0
    && (List.range 8).all fun t => (x.rake t).atRest

/-- `halt` (R186): a cluster task ends, to be released by the stage scheduler; a rake thread ends, its item
counted as complete. -/
def execHalt (i : BitVec 8) (s : State) : Host.Outcome State Fault Refusal :=
  actOp (.halt i) always (do
    awaitAll
    let s ← get
    match s.actor with
    | .pc c _ =>
      waitIf (!mayEnd s c) .engine
      set ((s.modCl c fun x =>
        { x with
          task := x.task.map fun t => { t with state := .halted, exit := i }
          rakes := x.rakes.map fun e => (e.1, { e.2 with st := .ended }) }).soon (.taskEnd c))
    | .rake _ _ =>
      match s.finishItem.selfRake with
      | some r => set (s.finishItem.setSelfRake { r with st := .ended })
      | none => pure ()
    | .mgr d =>
      set ((s.finishItem).modDie d fun x => { x with coreTask := none, core := { x.core with st := .ended } })
    | .device => pure ()) s

/-- `trap` (R187). -/
def execTrap (i : BitVec 8) (s : State) : Host.Outcome State Fault Refusal :=
  actOp (.trap i) always (trap (0xE0#8 + i)) s

/-! ### Flags (R188) -/

/-- `ftst`: an acquire at device scope. -/
def execFtst (k : PIdx) (n : BitVec 14) (s : State) : Host.Outcome State Fault Refusal :=
  actOp (.ftst k n) always (do
    acquireDevice
    modify fun s => s.wrK k ((s.cl s.selfCl).flags.getLsbD n.toNat)) s

/-- `fset`: a release at device scope. -/
def execFset (n : BitVec 14) (s : State) : Host.Outcome State Fault Refusal :=
  actOp (.fset n) always (do
    awaitAll
    modify fun s => s.setFlagOf s.selfCl n.toNat true) s

/-- `fclr`: a release at device scope. -/
def execFclr (n : BitVec 14) (s : State) : Host.Outcome State Fault Refusal :=
  actOp (.fclr n) always (do
    awaitAll
    modify fun s => s.setFlagOf s.selfCl n.toNat false) s

/-- `fwait`: waits for the flag, then an acquire at device scope. A wait that has seen the flag 1 completes, whatever has
cleared it since (R188). -/
def execFwait (n : BitVec 14) (s : State) : Host.Outcome State Fault Refusal :=
  actOpW (.fwait n) always .flag (do
    let s ← get
    let c := s.selfCl
    let k := agentNum s
    if (s.cl c).flags.getLsbD n.toNat || KMap.get? (s.cl c).awaited k == some (n.toNat, true) then
      set (s.modCl c fun x => { x with awaited := KMap.erase x.awaited k })
      acquireDevice
      pure true
    else
      set (s.modCl c fun x => { x with awaited := KMap.set x.awaited k (n.toNat, false) })
      pure false) s

/-! ### Branches (R191, R192) -/

/-- The loop stack of the executing PC; threads have none. -/
def State.selfLoops (s : State) : List LoopEntry := s.selfWalk.loops

/-- The size of the executing agent's text. -/
def State.textSize (s : State) : Nat := (s.selfTask.map (·.image.textSize)).getD 0

/-- Whether the executing PC decides: the S PC, a thread, the core. The others follow. -/
def State.decides (s : State) : Bool :=
  match s.actor with
  | .pc _ e => e == .S
  | _ => true

/-- An X instruction that starts inside the innermost body and ends beyond it (R193). -/
def straddleX (i : Instr) : Act Unit := do
  let s ← get
  match s.selfLoops with
  | [] => pure ()
  | l :: _ => trapIf (decide (l.start ≤ s.selfPc) && decide (s.selfPc < l.stop) && decide (l.stop < s.selfPc + lenOf i)) 0x11#8

/-- A target outside the innermost open body in which the branch stands; a body runs to its end inclusive (R192). -/
def leavesBody (s : State) (tgt : Int) : Bool :=
  match s.selfLoops with
  | [] => false
  | l :: _ => decide (l.start ≤ s.selfPc) && decide (s.selfPc < l.stop) && (tgt < (l.start : Int) || (l.stop : Int) < tgt)

/-- A target as a text offset, or 0x10 where it lies beyond the text. -/
def inText (tgt : Int) : Act Nat := do
  let s ← get
  if tgt < 0 || (s.textSize : Int) ≤ tgt then trap 0x10#8 else pure tgt.toNat

/-- A PC that follows has still to pass a `vbr` that has been decided, which it does with the branch-outcome queue empty (R164). -/
def Cluster.steered (x : Cluster) : Bool := [Eng.L, .W, .M].any fun e => !(x.walk e).steer.isEmpty

/-- The entry of the branch-outcome queue that the S PC posts here; it waits while the queue holds 16, or has to stay empty for a
`vbr` behind it (R163, R164). -/
def post (o : BrOut) : Act Unit := do
  let s ← get
  match s.actor with
  | .pc c .S =>
    waitIf ((s.cl c).steered || decide (16 ≤ (s.cl c).outcomes.length)) .outcome
    set (s.modCl c fun x => { x with outcomes := x.outcomes ++ [⟨x.wS.dp, o⟩] })
  | _ => pure ()

/-- The entry posted at the executing PC's position. -/
def State.posted (s : State) : Option BrOut :=
  match s.actor with
  | .pc c e => (((s.cl c).outcomes.find? fun o => o.dp == ((s.cl c).walk e).dp)).map (·.out)
  | _ => none

/-- The PC continues at `nx`. -/
def goTo (i : Instr) (nx : Nat) : Act Unit := modify (retireTo i nx)

/-- A branch that is always taken and whose target the encoding fixes. -/
def jump (i : Instr) (off : Int) (checked : Bool) (f : State → State) : Act Unit := do
  let s ← get
  let tgt : Int := (s.selfPc : Int) + off
  let nx ← inText tgt
  trapIf (checked && leavesBody s tgt) 0x11#8
  straddleX i
  modify f
  goTo i nx

/-- A branch on a predicate: the S PC decides and posts, the others follow (R163). -/
def branchK (i : Instr) (neg : Bool) (k : PIdx) (off : Int) : Act Unit := do
  let s ← get
  let taken :=
    if s.decides then s.rdK k != neg
    else match s.posted with
      | some (.taken b) => b
      | _ => false
  let tgt : Int := (s.selfPc : Int) + off
  let nx ← if taken then inText tgt else pure (s.selfPc + lenOf i)
  trapIf (taken && leavesBody s tgt) 0x11#8
  straddleX i
  post (.taken taken)
  goTo i nx

/-- A branch to an address held in a register (R191). -/
def jumpReg (i : Instr) (a : Reg) : Act Unit := do
  let s ← get
  let tgt : Nat :=
    if s.decides then (s.rd a).toNat
    else match s.posted with
      | some (.target n) => n
      | _ => 0
  trapIf (tgt % 4 != 0) 0x10#8
  let nx ← inText tgt
  straddleX i
  post (.target tgt)
  goTo i nx

/-- The return address goes to s62 (R149, R191). -/
def linkTo (i : Instr) (s : State) : State := s.wr 62#6 (BitVec.ofNat 64 (s.selfPc + lenOf i))

/-- `b` (R191). -/
def execB (i : BitVec 20) (s : State) : Host.Outcome State Fault Refusal :=
  perform (jump (.b i) (4 * i.toInt) true fun s => s) s

def execBLong (i : BitVec 32) (s : State) : Host.Outcome State Fault Refusal :=
  perform (jump (.bLong i) i.toInt true fun s => s) s

/-- `bk` (R191). -/
def execBk (neg : Bool) (k : PIdx) (i : BitVec 15) (s : State) : Host.Outcome State Fault Refusal :=
  perform (branchK (.bk neg k i) neg k (4 * i.toInt)) s

def execBkLong (neg : Bool) (k : PIdx) (i : BitVec 32) (s : State) : Host.Outcome State Fault Refusal :=
  perform (branchK (.bkLong neg k i) neg k i.toInt) s

/-- `call` (R191). -/
def execCall (i : BitVec 20) (s : State) : Host.Outcome State Fault Refusal :=
  perform (jump (.call i) (4 * i.toInt) false (linkTo (.call i))) s

def execCallLong (i : BitVec 32) (s : State) : Host.Outcome State Fault Refusal :=
  perform (jump (.callLong i) i.toInt false (linkTo (.callLong i))) s

/-- `ret` (R191). -/
def execRet (s : State) : Host.Outcome State Fault Refusal := perform (jumpReg .ret 62#6) s

/-- `jr` (R191). -/
def execJr (a : Reg) (s : State) : Host.Outcome State Fault Refusal := perform (jumpReg (.jr a) a) s

/-! ### Hardware loops (R165, R193, R194) -/

/-- The executing PC's loop stack replaced. -/
def setLoops (l : List LoopEntry) (s : State) : State :=
  match s.actor with
  | .pc c e => s.modCl c fun x => x.setWalk e { x.walk e with loops := l }
  | _ => s

/-- A loop opens with a body of `len` bytes after the instruction; `count` is what the S PC takes. -/
def openLoop (i : Instr) (count : State → Nat) (len : Nat) : Act Unit := do
  let s ← get
  let n :=
    if s.decides then count s
    else match s.posted with
      | some (.count n) => n
      | _ => 0
  let start := s.selfPc + lenOf i
  let stop := start + len
  trapIf (decide (4294967296 ≤ n)) 0x0D#8
  trapIf (n != 0 && decide (4 ≤ s.selfLoops.length)) 0x0D#8
  trapIf (decide (s.textSize < stop)) 0x10#8
  straddleX i
  post (.count n)
  if n == 0 then goTo i stop
  else
    modify (setLoops (⟨n, start, stop⟩ :: s.selfLoops))
    goTo i start

/-- `loop` (R193). -/
def execLoop (d : Reg) (i : BitVec 14) (s : State) : Host.Outcome State Fault Refusal :=
  perform (openLoop (.loop d i) (fun s => (s.rd d).toNat) (4 * i.toNat)) s

/-- `loopi` (R193). -/
def execLoopi (n : BitVec 32) (len : BitVec 12) (s : State) : Host.Outcome State Fault Refusal :=
  perform (openLoop (.loopi n len) (fun _ => n.toNat) (4 * len.toNat)) s

/-- `lexit` (R194). -/
def execLexit (neg : Bool) (k : PIdx) (s : State) : Host.Outcome State Fault Refusal :=
  let i := Instr.lexit neg k
  perform (do
    let s ← get
    match s.selfLoops with
    | [] => trap 0x11#8
    | l :: rest =>
      let exits :=
        if s.decides then s.rdK k != neg
        else match s.posted with
          | some (.taken b) => b
          | _ => false
      straddleX i
      post (.taken exits)
      if exits then
        modify (setLoops rest)
        goTo i l.stop
      else goTo i (s.selfPc + lenOf i)) s

/-! ### Meeting points (R195, R196) -/

/-- `meet` (R196). -/
def execMeet (s : State) : Host.Outcome State Fault Refusal :=
  perform (do
    straddleX .meet
    awaitAll
    modify (retire .meet)) s

/-- `bar` (R195): the S PC arrives for the cluster, waits for the barrier's completion, and takes the new
superstep number; the other PCs pass after it. -/
def execBar (d : Reg) (s : State) : Host.Outcome State Fault Refusal :=
  perform (do
    straddleX (.bar d)
    let s ← get
    match s.actor with
    | .pc c .S =>
      if (s.cl c).released then
        modify fun s => (s.modCl c fun x => { x with arrived := false, released := false }).wr d
          ((s.sstepOf s.selfGang).setWidth 64)
        modify (retire (.bar d))
      else if (s.cl c).arrived then waitFor .barrier
      else
        awaitAll
        awaitWack
        modify fun s => (s.modCl c fun x => { x with arrived := true }).noteWait .barrier
    | _ => modify (retire (.bar d))) s

/-! ### Signature checks (R49, R50) -/

/-- The signature register of the executing agent. -/
def State.selfSig (s : State) : BitVec 32 :=
  match s.actor with
  | .pc c e => ((s.cl c).walk e).sig
  | _ => (s.selfRake.map (·.sig)).getD 0#32

/-- The signature register set to all ones (R48). -/
def resetSig (s : State) : State :=
  match s.actor with
  | .pc c e => s.modCl c fun x => x.setWalk e { x.walk e with sig := 0xFFFFFFFF#32 }
  | _ =>
    match s.selfRake with
    | some r => s.setSelfRake { r with sig := 0xFFFFFFFF#32 }
    | none => s

/-- The word of a table entry that the executing agent compares with (R49). -/
def sigWordIdx (s : State) : Nat :=
  match s.actor with
  | .pc _ e => engNum e
  | _ => 0

/-- The entries of the executing task's signature table: the cluster's register, or, on a die manager core, those of its
own kernel's image (R49, R381). -/
def sigCount (s : State) : Nat :=
  match s.actor with
  | .mgr d => ((s.die d).coreTask.map (·.image.sigCnt)).getD 0
  | _ => (s.cl s.selfCl).sigcnt.toNat

/-- The expected value of entry `n`: from the scratchpad, where the launch path copied the table, or for a die manager
core, which has none, from the image. -/
def sigEntry (n : Nat) : Act (List Byte) := do
  let s ← get
  let o := 32 * n + 4 * sigWordIdx s
  match s.actor with
  | .mgr d => liftA o (vaRead s.who (((s.die d).coreTask.map (·.image.sigVa)).getD 0 + o) 4)
  | _ => coordLoad ((s.cl s.selfCl).sigtab + BitVec.ofNat 64 o) 4

/-- `sigchk` (R50). -/
def execSigchk (n : BitVec 20) (s : State) : Host.Outcome State Fault Refusal :=
  perform (do
    let s ← get
    trapIf (decide (sigCount s ≤ n.toNat)) 0x06#8
    straddleX (.sigchk n)
    let bs ← sigEntry n.toNat
    if (~~~ s.selfSig).toNat != leNat bs then checkStop 0xC4#8
    else
      modify resetSig
      modify (retire (.sigchk n))) s

end Sys2Proof.Machine
end

