-- ==== Sys2Proof/Machine/Rings.lean ====
section
/-! DEFINITION. Receive rings, waking and sleeping of rake threads: the K instructions (R198 to R200). -/

namespace Sys2Proof.Machine

/-- The size of a bound ring in lines, and its base. -/
def Ring.lines (r : Ring) : Nat := 2 ^ bits r.desc.toNat 27 24
def Ring.base (r : Ring) : Nat := bits r.desc.toNat 21 0

/-- Lines held. -/
def Ring.held (r : Ring) : Nat := (r.tail - r.head).toNat

/-- Local offset of the line numbered `n`. -/
def Ring.at (r : Ring) (n : BitVec 32) : Nat := r.base + 128 * (n.toNat % r.lines)

/-- Ring `k` of a cluster. -/
def Cluster.ring (x : Cluster) (k : Nat) : Ring := KMap.getD x.rings k Ring.reset

def Cluster.setRing (x : Cluster) (k : Nat) (r : Ring) : Cluster := { x with rings := KMap.set x.rings k r }

/-- Lines of a message of `n` bytes. -/
def msgLines (n : Nat) : Nat := (n + 127) / 128

/-- `MLEN` and `MKIND` of a message that starts at a local offset. -/
def msgLen (x : Cluster) (off : Nat) : Nat := leNat (sramRead x off 2)
def msgKind (x : Cluster) (off : Nat) : Nat := leNat (sramRead x (off + 2) 1)

/-- Pad messages at the head of a ring are consumed; structural on a bound of the number of lines (R198). -/
def skipPads (x : Cluster) : Nat → Ring → Ring
  | 0, r => r
  | n + 1, r =>
    if r.held != 0 && msgKind x (r.at r.head) == 0xFF then
      skipPads x n { r with head := r.head + BitVec.ofNat 32 (msgLines (msgLen x (r.at r.head))) }
    else r

/-- The lines whose headers are read in consuming the pads: those of the pads and of the first message that is none. -/
def headerLines (x : Cluster) : Nat → Ring → List Nat
  | 0, _ => []
  | n + 1, r =>
    if r.held == 0 then []
    else
      r.at r.head / 128 :: (if msgKind x (r.at r.head) == 0xFF then
        headerLines x n { r with head := r.head + BitVec.ofNat 32 (msgLines (msgLen x (r.at r.head))) } else [])

/-- What becomes of a message at a ring. -/
inductive Delivery where
  | delivered | unbound | tooLarge | noRoom
  deriving DecidableEq, Repr

/-- A message reaches ring `k` of cluster `c` (R198): it lands after a pad where too few lines remain before the
ring's end, and tail advances past it; without room, or where a line of it is owed to an earlier fill (R17), it waits. One
for an unbound ring is discarded and counted. -/
def ringDeliver (c k : Nat) (msg : List Byte) (s : State) : State × Delivery :=
  let r := (s.cl c).ring k
  let need := msgLines msg.length
  if r.desc == 0#64 then (s.modCl c fun x => { x with ringDrops := x.ringDrops + 1 }, .unbound)
  else if r.lines < need then (s, .tooLarge)
  else
    let pos := r.tail.toNat % r.lines
    let pad := if r.lines < pos + need then r.lines - pos else 0
    if r.lines - r.held < pad || (pad != 0 && owedLine (s.cl c) (r.at r.tail / 128)) then (s, .noRoom)
    else
      let s1 :=
        if pad == 0 then s
        else
          (sramLand s c (r.at r.tail) 0 (natLe 8 (128 * pad + 16711680))).modCl c fun x =>
            x.setRing k { r with tail := r.tail + BitVec.ofNat 32 pad }
      let r1 := (s1.cl c).ring k
      if r1.lines - r1.held < need || (linesOf (r1.at r1.tail) msg.length).any (owedLine (s1.cl c)) then (s1, .noRoom)
      else
        ((sramLand s1 c (r1.at r1.tail) 0 msg).modCl c fun x =>
          x.setRing k { r1 with tail := r1.tail + BitVec.ofNat 32 need }, .delivered)

/-- The messages that wait at cluster `c` are tried again in their order; one that cannot land yet holds back those of its
ring behind it. Structural on the messages; `stuck` are the rings that wait. -/
def tryInbox (c : Nat) : List (Nat × List Byte) → List Nat → State → State × List (Nat × List Byte)
  | [], _, s => (s, [])
  | m :: t, stuck, s =>
    if stuck.contains m.1 then
      let q := tryInbox c t stuck s
      (q.1, m :: q.2)
    else
      match ringDeliver c m.1 m.2 s with
      | (s1, .noRoom) =>
        let q := tryInbox c t (m.1 :: stuck) s1
        (q.1, m :: q.2)
      | (s1, .tooLarge) => tryInbox c t stuck (s1.modCl c fun x => { x with ringDrops := x.ringDrops + 1 })
      | (s1, _) => tryInbox c t stuck s1

/-- Waiting messages land as far as they can. -/
def drainInbox (c : Nat) (s : State) : State :=
  if (s.cl c).inbox.isEmpty then s
  else
    let q := tryInbox c (s.cl c).inbox [] s
    q.1.modCl c fun x => { x with inbox := q.2 }

/-- The ring number s[A][3:0] of the executing thread; 0x6A for other bits or a ring not bound to it (R199). -/
def ownRing (a : Reg) : Act Nat := do
  let s ← get
  let v := (s.rd a).toNat
  let r := (s.cl s.selfCl).ring (v % 16)
  if 15 < v || r.desc == 0#64 || r.owner != agentNum s then trap 0x6A#8 else pure v

/-- A ring with the pads at its head consumed; the headers are read like any line, so an owed one is waited for (R17). -/
def dropPads (k : Nat) : Act Ring := do
  let s0 ← get
  awaitOwed s0.selfCl (headerLines (s0.cl s0.selfCl) ((s0.cl s0.selfCl).ring k).lines ((s0.cl s0.selfCl).ring k))
  let s ← get
  let x := s.cl s.selfCl
  let r := skipPads x (x.ring k).lines (x.ring k)
  set (s.modCl s.selfCl fun x => x.setRing k r)
  pure r

/-- The thread's sleep state and remaining count. -/
def sleepAs (st : RakeState) (remain : Option Nat) (s : State) : State :=
  match s.selfRake with
  | some r => s.setSelfRake { r with st := st, remain := remain }
  | none => s

/-- `recv` (R199): sleeps until its ring holds a message. -/
def execRecv (d a : Reg) (s : State) : Host.Outcome State Fault Refusal :=
  actOpW (.recv d a) always .room (do
    let k ← ownRing a
    let r ← dropPads k
    if r.held == 0 then
      modify (sleepAs .recv none)
      pure false
    else
      modify fun s => (sleepAs .ready none s).wr d (BitVec.ofNat 64 (r.at r.head))
      pure true) s

/-- `recvt` (R199): gives up once its count of clk has run out. -/
def execRecvt (p : Pred) (d a : Reg) (b : RegOrImm) (s : State) : Host.Outcome State Fault Refusal :=
  actOpW (.recvt p d a b) p .room (do
    let k ← ownRing a
    let s ← get
    let n := (s.rdRI b).toNat
    trapIf (decide (4294967295 < n)) 0x6A#8
    let r ← dropPads k
    let left := match s.selfRake with
      | some t => if t.st == .recvt then t.remain.getD n else n
      | none => n
    if r.held != 0 then
      modify fun s => (sleepAs .ready none s).wr d (BitVec.ofNat 64 (r.at r.head))
      pure true
    else if left == 0 then
      modify fun s => (sleepAs .ready none s).wr d (BitVec.allOnes 64)
      pure true
    else
      modify (sleepAs .recvt (some left))
      pure false) s

/-- RECVT_TIMEOUT (R199): the count of a thread asleep in `recvt` has run out; the instruction gives up when it
issues next. -/
def execRecvtTimeout (cl thr : Nat) (s : State) : Host.Outcome State Fault Refusal :=
  .next (s.modCl cl fun x =>
    if (x.rake thr).st == .recvt then x.setRake thr { x.rake thr with remain := some 0 } else x)

/-- `rpeek` (R199). -/
def execRpeek (d a : Reg) (s : State) : Host.Outcome State Fault Refusal :=
  actOp (.rpeek d a) always (do
    let k ← ownRing a
    let r ← dropPads k
    modify fun s => s.wr d (BitVec.ofNat 64 r.held)) s

/-- `radv` (R199): messages that waited for the room land. -/
def execRadv (a b : Reg) (s : State) : Host.Outcome State Fault Refusal :=
  actOp (.radv a b) always (do
    let k ← ownRing a
    let s ← get
    let r := (s.cl s.selfCl).ring k
    trapIf (decide (r.held < (s.rd b).toNat)) 0x6A#8
    set (drainInbox s.selfCl (s.modCl s.selfCl fun x => x.setRing k { r with head := r.head + (s.rd b).setWidth 32 }))) s

/-- The copy of a message that is sent: `MKIND` 0 and the sender's agent id (R199). -/
def stamped (c : Nat) (msg : List Byte) : List Byte :=
  let b5 := (msg.getD 5 0#8) &&& 0xFE#8
  patch (patch msg 2 [0#8]) 4 [BitVec.ofNat 8 (c + 1), b5 ||| BitVec.ofNat 8 ((c + 1) / 256)]

/-- `rsend` (R199): delivery takes place in the same step, once the ring has room. -/
def execRsend (p : Pred) (d a : Reg) (b : RegOrImm) (s : State) : Host.Outcome State Fault Refusal :=
  actOpW (.rsend p d a b) p .room (do
    let s ← get
    let dst := (s.rdRI b).toNat
    let src := (s.rd a).toNat
    let q ← liftC src (coord s s.selfCtx s.selfCl src (src % 128 != 0))
    trapIf (q.1 != s.selfCl) 0x6A#8
    trapIf (bits dst 15 9 != 0 || bits dst 63 20 != 0 || 383 < bits dst 8 0) 0x6A#8
    let x := s.cl s.selfCl
    if !inBanks x q.2 then trapAt 0x27#8 (s.rd a)
    else
      awaitOwed s.selfCl [q.2 / 128]
      let n := msgLen x q.2
      trapIf (n < 8 || 1024 < n) 0x6A#8
      if !inBanks x (q.2 + n - 1) then trapAt 0x27#8 (s.rd a)
      else
        awaitOwed s.selfCl (linesOf q.2 n)
        if !s.granted s.selfCtx s.selfCl (bits dst 8 0) then trapAt 0x26#8 (s.rdRI b)
        else
          awaitHome (bits dst 8 0)
          waitIf ((s.cl (bits dst 8 0)).inbox.any fun m => m.1 == bits dst 19 16) .room
          let s2 ← get
          match ringDeliver (bits dst 8 0) (bits dst 19 16) (stamped s.selfCl (sramRead x q.2 n)) s2 with
          | (s1, .delivered) => set (s1.wr d 0#64); pure true
          | (s1, .unbound) => set (s1.wr d 1#64); pure true
          | (s1, .tooLarge) => set (s1.wr d 2#64); pure true
          | (s1, .noRoom) => set s1; pure false) s

/-- A ring descriptor's limits (Table 8.4). -/
def ringDescOk (x : Cluster) (v : Nat) : Bool :=
  let base := bits v 21 0
  let sz := bits v 27 24
  bits v 23 22 == 0 && bits v 63 28 == 0 && base % 128 == 0 && 1 ≤ sz && sz ≤ 12
    && decide (base + 128 * 2 ^ sz ≤ 65536 * firstL1Bank x)

/-- `rbind` (R199). -/
def execRbind (d a b : Reg) (s : State) : Host.Outcome State Fault Refusal :=
  actOp (.rbind d a b) always (do
    let s ← get
    let k := (s.rd a).toNat
    let v := s.rd b
    trapIf (decide (15 < k) || (v != 0#64 && !ringDescOk (s.cl s.selfCl) v.toNat)) 0x6A#8
    let old := (s.cl s.selfCl).ring k
    set ((s.modCl s.selfCl fun x => x.setRing k ⟨v, agentNum s, 0#32, 0#32⟩).wr d old.desc)) s

/-- `kwake` (R199). -/
def execKwake (a : Reg) (s : State) : Host.Outcome State Fault Refusal :=
  actOp (.kwake a) always (do
    let s ← get
    let t := (s.rd a).toNat
    trapIf (decide (7 < t)) 0x6A#8
    set (s.modCl s.selfCl fun x => x.setRake t { x.rake t with wake := true })) s

/-- `ksleep` (R199). -/
def execKsleep (s : State) : Host.Outcome State Fault Refusal :=
  actOpW .ksleep always .room (do
    let s ← get
    match s.selfRake with
    | some r =>
      if r.wake then
        set (s.setSelfRake { r with wake := false, st := .ready })
        pure true
      else
        set (s.setSelfRake { r with st := .ksleep })
        pure false
    | none => pure true) s

/-- `kid` (R199). -/
def execKid (d : Reg) (s : State) : Host.Outcome State Fault Refusal :=
  plainOp (.kid d) always (fun s =>
    s.wr d (BitVec.ofNat 64 ((match s.actor with | .rake _ t => t | _ => 0) + 256 * s.selfCl))) s

/-- A message from elsewhere reaches a ring: one for an unbound or too small ring is discarded and counted, one without
room waits behind those of its ring that wait (R198). While the cluster's task is saved it waits with the task's image
(R200). `ctx` is the context that it is for, where the sender names one. -/
def ringArrive (ctx : Option Nat) (cl ring : Nat) (msg : List Byte) (s : State) : State :=
  if msg.length < 8 || 1024 < msg.length then s
  else
    let saved (p : Spilled) : Bool :=
      p.from_ == cl && (match ctx with | some k => p.ctx == k | none => (s.cl cl).task.isNone)
    if s.spilled.any saved then
      { s with spilled := s.spilled.map fun p =>
          if saved p then { p with image := { p.image with inbox := p.image.inbox ++ [(ring % 16, msg)] } } else p }
    else drainInbox cl (s.modCl cl fun x => { x with inbox := x.inbox ++ [(ring % 16, msg)] })

/-- RING_ARRIVAL (R198). -/
def execRingArrival (cl ring : Nat) (msg : List Byte) (s : State) : Host.Outcome State Fault Refusal :=
  .next (ringArrive none cl ring msg s)

end Sys2Proof.Machine
end

