-- ==== Sys2Proof/Machine/Sluice.lean ====
section
/-! DEFINITION. The sluice (chapter 11): routing rounds of one participant as sender and as receiver, the messages
between participants, the closing of bins and the retirement of a round. -/

namespace Sys2Proof.Machine

/-! ### The policy block (Table 11.4) -/

def Cmd.roundNum (c : Cmd) : Nat := c.l 1023 992

/-- The parameters that its messages carry (R274). -/
def Cmd.params (c : Cmd) : RoundParams :=
  { grp := c.l 991 976, solo := c.l 975 975 == 1, dmask := c.l 974 971, km1 := c.l 970 968, det := c.l 967 967 == 1
    n0 := c.n0, tlm1 := c.l 964 962 }

def Cmd.notok (c : Cmd) : Bool := c.l 965 965 == 1
def Cmd.bcl (c : Cmd) : Nat := c.l 534 526

/-- Tokens of this participant. -/
def Cmd.tokens (c : Cmd) : Nat := if c.notok then 0 else c.n1 + 1

/-- The participants of a round as device·4 + die (R274). -/
def participants (s : State) (p : RoundParams) : List Nat :=
  let devs := if p.solo then [devId s] else ((activeSlot s p.grp).map fun x => devicesOf x.2.memb).getD []
  devs.flatMap fun d => ((List.range 4).filter fun i => bit p.dmask i).map fun i => 4 * d + i

/-- Whether the policy block keeps R273 on die `die`. -/
def policyOk (s : State) (c : Cmd) : Bool :=
  let p := c.params
  let member := ((activeSlot s p.grp).map fun x => x.2.memb.getLsbD (devId s)).getD false
  let open_ (k : Cmd) : Bool := k.unit == .sluice && k.roundNum == c.roundNum
  let busy := s.clusters.any fun e => dieOf e.1 == c.die && (e.2.cmds.any open_ || e.2.kicks.any fun k => open_ k.2.cmd)
  c.l 961 952 == 0 && c.l 901 896 == 0 && c.l 575 535 == 0 && c.l 525 480 == 0 && c.l 447 0 == 0
    && p.dmask != 0 && !(c.notok && c.n1 != 0) && !busy && (if p.solo then p.grp == 0 else member)
    && bit p.dmask c.die && decide (c.bcl < 384) && dieOf c.bcl == c.die

/-- `eroute` (R272, R273). -/
def checkEroute (c : Cmd) : Act Cmd := do
  let s ← get
  trapIf (!onlyFields c.raw.toNat (c.commonFields ++ [(191, 128), (255, 192), (49, 48), (287, 256), (479, 448), (95, 64)])
    || 1023 < c.n0) 0x60#8
  trapIf (!c.sideOk s false [0, 1] || (c.issueWords s false).any fun w => !([8, 9, 10].contains (w % 16))) 0x60#8
  checkCwa c 4
  checkSide c false
  checkWindow c false .rd
  let bs ← ownRead c.dst 128 128
  let c1 := { c with line := BitVec.ofNat 1024 (leNat bs) }
  trapIf (!policyOk s c1) 0x6B#8
  if [c1.l 831 768, c1.l 767 704, c1.l 703 640, c1.l 639 576].any fun a => a % 128 != 0 then trap 0x28#8 else pure ()
  pure c1

/-- `eroute` (R272). -/
def execEroute (p : Pred) (d a f0 f1 f2 f3 : Reg) (s : State) : Host.Outcome State Fault Refusal :=
  issueOp (.eroute p d a f0 f1 f2 f3) p .sluice opEroute d a [f0, f1, f2, f3] checkEroute s

/-! ### Rounds and messages -/

/-- The round of a number that is open at a die for a context. -/
def roundAt (s : State) (die ctx num : Nat) : Option Round := (s.die die).rounds.find? fun r => r.ctx == ctx && r.num == num

def setRound (s : State) (die : Nat) (r : Round) : State :=
  s.modDie die fun d => { d with rounds := d.rounds.map fun x => if x.ctx == r.ctx && x.num == r.num then r else x }

/-- The command of a round. -/
def Round.cmd (r : Round) (s : State) : Option Cmd := s.cmdAt .sluice r.cl r.seq r.gang

/-- The kinds of message: opening, request, reply, done (R277 to R280). -/
def msgOpening : Nat := 0
def msgRequest : Nat := 1
def msgReply : Nat := 2
def msgDone : Nat := 3

/-- A message's fields as words of a packet (log 13). -/
def roundWords (m : RoundMsg) : List Byte :=
  [m.dev, m.die, m.tix0, m.round, m.gen.toNat, m.params.grp, if m.params.solo then 1 else 0, m.params.dmask, m.params.km1,
    if m.params.det then 1 else 0, m.params.n0, m.params.tlm1, m.pass, m.expert, m.count, m.b0, if m.full then 1 else 0,
    m.rows].flatMap (natLe 4)

/-- The message that a packet's words hold. -/
def roundOfWords (bs : List Byte) : RoundMsg :=
  let w (i : Nat) : Nat := leNat ((bs.drop (4 * i)).take 4)
  { dev := w 0, die := w 1, tix0 := w 2, round := w 3, gen := BitVec.ofNat 32 (w 4)
    params := { grp := w 5, solo := w 6 == 1, dmask := w 7, km1 := w 8, det := w 9 == 1, n0 := w 10, tlm1 := w 11 }
    pass := w 12, expert := w 13, count := w 14, b0 := w 15, full := w 16 == 1, rows := w 17 }

/-- A message from this die of this device. -/
def baseMsg (s : State) (c : Cmd) : RoundMsg :=
  { dev := devId s, die := c.die, tix0 := c.l 479 448, round := c.roundNum, gen := c.gen, params := c.params
    pass := 0, expert := 0, count := 0, b0 := 0, full := false, rows := 0 }

/-- A message on its way to participant `p` over tc1 (R280). -/
def sendRound (c : Cmd) (type p : Nat) (m : RoundMsg) (s : State) : State :=
  s.send { newPacket s (p / 4) 1 .permit c.ctx c.gen with
    mbr := p % 4 + 4 * type, seq := BitVec.ofNat 32 m.round, data := roundWords m }

/-- The participant that sent a message. -/
def senderOf (m : RoundMsg) : Nat := 4 * m.dev + m.die

/-- The participant whose local bin an expert's entry names by `DEV` and `CLID`, whatever else it holds (R275). -/
def Round.hostOf (r : Round) (e : Nat) : Option Nat :=
  match r.table.bind fun t => t[e]? with
  | none => none
  | some x =>
    let v := x.toNat
    let p := 4 * bits v 95 86 + bits v 85 77 / 96
    if 383 < bits v 85 77 || !r.parts.contains p then none else some p

/-- An entry that breaks Table 11.5. -/
def entryBreaks (v : Nat) : Bool := bits v 76 75 != 0 || bits v 52 1 != 0 || bits v 59 53 != 0 || 383 < bits v 85 77

/-- Why a local bin is treated as empty: it is not on the cluster `BCL`, lies below `TBASE`, or its rows do not fit the
scratchpad (R275; the last, log 23). -/
def binBad (s : State) (c : Cmd) (v : Nat) : Bool :=
  let off := bits v 74 53
  let cap := bits v 111 96
  bits v 85 77 != c.bcl || off < bits c.line.toNat (768 + 21) 768
    || (cap != 0 && !inBanks (s.home c.ctx c.bcl) (off + 128 * (cap - 1 + c.l 951 936 * c.l 964 962) + 127))

/-- Whether the entry of expert `e` is logged and treated as absent at this participant (R275). -/
def Round.absent (r : Round) (s : State) (c : Cmd) (e : Nat) : Bool :=
  match r.table.bind fun t => t[e]? with
  | none => true
  | some x =>
    entryBreaks x.toNat || (r.hostOf e).isNone || (r.hostOf e == some (4 * devId s + c.die) && binBad s c x.toNat)

/-- Whether a sender ranks expert `e` (R275). -/
def Round.valid (r : Round) (s : State) (c : Cmd) (e : Nat) : Bool :=
  ((r.table.bind fun t => t[e]?).map fun x => x.getLsbD 0).getD false && !r.absent s c e

/-! ### The sender: passes (R277) -/

/-- Slots of a pass that ask for expert `e`. -/
def RSlot.asks (x : RSlot) (e : Nat) : Bool := x.st == 0 && x.x == e

/-- A reply for expert `e` taken: the first `g` slots are admitted, the others refused. -/
def takeReply (e g b0 : Nat) (full : Bool) (r : Round) : Round :=
  let f (acc : List RSlot × Nat × Nat) (x : RSlot) : List RSlot × Nat × Nat :=
    if x.asks e then
      if acc.2.1 < g then (acc.1 ++ [{ x with st := 1, row := b0 + acc.2.1, pass := r.pass }], acc.2.1 + 1, acc.2.2)
      else (acc.1 ++ [{ x with st := 3 }], acc.2.1, acc.2.2 + 1)
    else (acc.1 ++ [x], acc.2.1, acc.2.2)
  let out := r.slots.foldl f ([], 0, 0)
  { r with
    slots := out.1
    refs := KMap.modify r.refs e 0 fun n => n + out.2.2
    full := if full then NSet.insert r.full e else r.full
    waiting := NSet.erase r.waiting e }

/-- Every refused slot goes to the best fallback still open, or is dropped (R277). -/
def reroute (k : Nat) (r : Round) : Round :=
  let step (slots : List RSlot) (i : Nat) : List RSlot :=
    match slots[i]? with
    | none => slots
    | some x =>
      if x.st != 3 then slots
      else
        let used := (slots.filter fun y => y.t == x.t).flatMap (·.tried)
        let cs := (KMap.getD r.cands x.t []).drop k
        let pick := if r.pass == 2 then none else cs.find? fun e => !used.contains e && !r.full.contains e
        slots.set i (match pick with
          | some y => { x with x := y, st := 0, tried := x.tried ++ [y] }
          | none => { x with st := 2, pass := if r.pass == 2 then 2 else r.pass + 1 })
  { r with slots := (List.range r.slots.length).foldl step r.slots, pass := r.pass + 1 }

/-- The experts asked in a pass: every local bin of every participant, or those that slots ask for (R277). -/
def Round.asked (r : Round) (c : Cmd) : List Nat :=
  (List.range (c.n0 + 1)).filter fun e =>
    (r.hostOf e).isSome && (c.params.det || r.slots.any fun x => x.asks e)

/-- A die that a sender has given up on answers nothing: its experts are full (R279). -/
def Round.giveUp (r : Round) (es : List Nat) : Round :=
  es.foldl (fun r e =>
    if ((r.hostOf e).map fun p => r.gaveUp.contains p).getD false then { takeReply e 0 0 true r with failed := true } else r) r

/-- The passes run as far as no reply is awaited; structural on the passes left. After the last one every receiver
is told how many rows it gets (R280). -/
def runPasses (c : Cmd) : Nat → Round → State → State
  | 0, r, s =>
    r.parts.foldl (fun s p =>
      let rows := (r.slots.filter fun x => x.st == 1 && r.hostOf x.x == some p).length
      let m : RoundMsg := { baseMsg s c with rows }
      sendRound c msgDone p m s) (setRound s c.die { r with pass := 3 })
  | n + 1, r, s =>
    let es := r.asked c
    let s1 := es.foldl (fun s e =>
      match r.hostOf e with
      | none => s
      | some p =>
        let m : RoundMsg := { baseMsg s c with pass := r.pass, expert := e, count := (r.slots.filter fun x => x.asks e).length }
        sendRound c msgRequest p m s) s
    let r1 := Round.giveUp { r with waiting := es } es
    if r1.waiting.isEmpty then runPasses c n (reroute (c.params.km1 + 1) r1) s1 else setRound s1 c.die r1

/-- Passes not yet begun. -/
def Round.left (r : Round) : Nat := 3 - r.pass

/-- After a reply: the next pass once none is awaited. -/
def afterReply (c : Cmd) (r : Round) (s : State) : State :=
  if r.pass < 3 && r.begun && r.waiting.isEmpty then
    let r1 := reroute (c.params.km1 + 1) r
    runPasses c r1.left r1 s
  else setRound s c.die r

/-- Pass 0 begins once every token is ranked and, in deterministic mode, every opening is there (R275, R278). -/
def beginPasses (c : Cmd) (s : State) : State :=
  match roundAt s c.die c.ctx c.roundNum with
  | none => s
  | some r =>
    let opened := r.parts.all fun p => r.gaveUp.contains p || r.openings.any fun m => (senderOf m) == p
    if r.begun || r.table.isNone || r.ranked < c.tokens || (c.params.det && !opened) then s
    else runPasses c 3 { r with begun := true } s

/-! ### The receiver: grants (R278, R281) -/

/-- Local offset of line `j` of row `slot` of a bin. -/
def rowLine (c : Cmd) (b : RBin) (slot j : Nat) : Nat := b.off + 128 * (slot + c.l 951 936 * j)

/-- The lines of `g` rows from row `b0` on. -/
def grantLines (c : Cmd) (b : RBin) (b0 g : Nat) : List (Nat × Nat) :=
  (List.range g).flatMap fun i => (List.range (c.l 964 962 + 1)).map fun j => (b0 + i, rowLine c b (b0 + i) j / 128)

/-- A row's line owed by the sluice, in the image of a spilled task where `BCL`'s is (R288): the fill's item is the row, counted
from 1; 0 stands for the issuer's outputs. -/
def owedRow (c : Cmd) (e : Nat) (l : Nat × Nat) (s : State) : State :=
  oweHome c.ctx c.bcl ⟨.sram c.bcl l.2, [], .sluice, c.cl, c.seq, c.gang, 65536 * e + l.1 + 1, c.tag, true, false⟩ s

/-- The answer to a request: `rows` = 1 marks a refusal of an aborted or disagreeing receiver (R274, R279). -/
def answer (c : Cmd) (m : RoundMsg) (g b0 : Nat) (full bad : Bool) (s : State) : State :=
  let a : RoundMsg := { baseMsg s c with
    pass := m.pass, expert := m.expert, count := g, b0, full, rows := if bad then 1 else 0 }
  sendRound c msgReply (senderOf m) a s

/-- A request of an aborted or disagreeing receiver's bin is refused, and counted (R279, R285). -/
def Round.refuse (r : Round) (m : RoundMsg) : Round :=
  { r with bins := r.bins.map fun b => if b.e == m.expert then { b with rref := b.rref + m.count } else b }

/-- One request granted; none while a line of the rows is owed to an earlier fill. -/
def grant (c : Cmd) (m : RoundMsg) (r : Round) (s : State) : Option (Round × State) :=
  if r.aborted || r.bad.contains (senderOf m) then some (r.refuse m, answer c m 0 0 true true s)
  else
    match r.bins.find? fun b => b.e == m.expert with
    | none => some (r, answer c m 0 0 true false s)
    | some b =>
      let g := min m.count b.rem
      let b0 := b.cap - b.rem
      let ls := grantLines c b b0 g
      if ls.any fun l => owedHome s c.ctx c.bcl l.2 then none
      else
        let b1 := { b with rem := b.rem - g, rref := b.rref + (m.count - g) }
        let r1 := { r with bins := r.bins.map fun x => if x.e == b.e then b1 else x }
        some (r1, answer c m g b0 (b1.rem == 0) false (ls.foldl (fun s l => owedRow c b.e l s) s))

/-- Requests granted in order as far as they can be; structural on the requests. The rest stays. -/
def grantAll (c : Cmd) (r : Round) (s : State) : List RoundMsg → Round × State × List RoundMsg
  | [] => (r, s, [])
  | m :: t =>
    match grant c m r s with
    | none => (r, s, m :: t)
    | some (r1, s1) => grantAll c r1 s1 t

/-- Order of participants (R274): device, `TIX0`, die. -/
def partBefore (a b : RoundMsg) : Bool :=
  a.dev < b.dev || (a.dev == b.dev && (a.tix0 < b.tix0 || (a.tix0 == b.tix0 && a.die < b.die)))

/-- Insertion in participant order. -/
def insertMsg (m : RoundMsg) : List RoundMsg → List RoundMsg
  | [] => [m]
  | x :: t => if partBefore m x then m :: x :: t else x :: insertMsg m t

/-- Participants whose count of a pass is missing for some local bin. -/
def Round.lacking (r : Round) (pass : Nat) : List Nat :=
  r.parts.filter fun p => !r.bad.contains p && r.bins.any fun b =>
    r.requests.all fun m => !((senderOf m) == p && m.pass == pass && m.expert == b.e)

/-- Whether every line of a list of requests may be owed now. -/
def allFree (c : Cmd) (r : Round) (s : State) (ms : List RoundMsg) : Bool :=
  r.bins.all fun b =>
    let n := ((ms.filter fun m => m.expert == b.e).map (·.count)).sum
    (grantLines c b (b.cap - b.rem) (min n b.rem)).all fun l => !owedHome s c.ctx c.bcl l.2

/-- What a receiver does with the requests it holds (R278): in arrival order, or, in deterministic mode, a pass at a
time in participant order once all its counts are there. Structural on the passes. -/
def serve (c : Cmd) : Nat → State → State
  | 0, s => s
  | n + 1, s =>
    match roundAt s c.die c.ctx c.roundNum with
    | none => s
    | some r =>
      if r.table.isNone then s
      else if !c.params.det || r.aborted then
        match grantAll c r s r.requests with
        | (r1, s1, rest) => setRound s1 c.die { r1 with requests := rest }
      else
        let refused := r.requests.filter fun m => r.bad.contains (senderOf m)
        let s0 := refused.foldl (fun s m => answer c m 0 0 true true s) s
        let r0 := { refused.foldl Round.refuse r with requests := r.requests.filter fun m => !r.bad.contains (senderOf m) }
        let now := (r0.requests.filter fun m => m.pass == r0.served).foldl (fun l m => insertMsg m l) []
        if 3 ≤ r0.served || !(r0.lacking r0.served).isEmpty || !allFree c r0 s0 now then setRound s0 c.die r0
        else
          match grantAll c r0 s0 now with
          | (r1, s1, _) =>
            serve c n (setRound s1 c.die
              { r1 with requests := r0.requests.filter fun m => m.pass != r0.served, served := r0.served + 1 })

/-! ### Messages taken -/

/-- A message whose parameters differ from the receiver's own makes its sender a stranger (R274). -/
def meetParams (c : Cmd) (m : RoundMsg) (s : State) : State :=
  match roundAt s c.die c.ctx c.roundNum with
  | none => s
  | some r =>
    if m.params == c.params then s
    else
      (setRound s c.die { r with bad := NSet.insert r.bad (senderOf m), failed := true }).logDie c 0x6C#8 0 0 0

/-- A gang rolls back and its drain markers are still out: what carries the aborted generation is discarded at ingress (R288,
R330, R415). -/
def Gang.draining (x : Gang) : Bool := x.rollback.isSome && !(x.restored && x.markers.isEmpty)

/-- A superstep of the context is being rolled back. -/
def abortedGen (s : State) (ctx : Nat) (gen : BitVec 32) : Bool :=
  s.gangs.any fun e => e.2.ctx == ctx && e.2.sstep == gen && e.2.draining

/-- A message reaches its die: it is taken by the round, or kept until the round opens there (R278). -/
def takeMsg (type die ctx : Nat) (m : RoundMsg) (s : State) : State :=
  if abortedGen s ctx m.gen then { s with dropped := s.dropped + 1 }
  else
  match roundAt s die ctx m.round with
  | none => s.modDie die fun d => { d with early := d.early ++ [(ctx, type, m)] }
  | some r0 =>
    match r0.cmd s with
    | none => s
    | some c =>
      match type with
      | 2 =>
        if m.pass != r0.pass || !r0.waiting.contains m.expert || r0.hostOf m.expert != some (senderOf m) then s
        else
          let r1 := takeReply m.expert m.count m.b0 m.full r0
          afterReply c { r1 with failed := r1.failed || m.rows == 1 || m.params != c.params } s
      | _ =>
        let s1 := meetParams c m s
        match roundAt s1 die ctx m.round with
        | none => s1
        | some r =>
          match type with
          | 0 => beginPasses c (serve c 3 (setRound s1 die { r with openings := r.openings ++ [m] }))
          | 1 => serve c 3 (setRound s1 die { r with requests := r.requests ++ [m] })
          | _ => setRound s1 die { r with dones := r.dones ++ [m] }

/-- ROUND_OPENING (R278). -/
def execRoundOpening (die ctx : Nat) (msg : RoundMsg) (s : State) : Host.Outcome State Fault Refusal :=
  .next (takeMsg msgOpening die ctx msg s)

/-- PERMIT_REQUEST (R278). -/
def execPermitRequest (die ctx : Nat) (msg : RoundMsg) (s : State) : Host.Outcome State Fault Refusal :=
  .next (takeMsg msgRequest die ctx msg s)

/-- PERMIT_REPLY (R277). -/
def execPermitReply (die ctx : Nat) (msg : RoundMsg) (s : State) : Host.Outcome State Fault Refusal :=
  .next (takeMsg msgReply die ctx msg s)

/-- DONE_MESSAGE (R280). -/
def execDoneMessage (die ctx : Nat) (msg : RoundMsg) (s : State) : Host.Outcome State Fault Refusal :=
  .next (takeMsg msgDone die ctx msg s)

/-! ### Opening, table, ranking -/

/-- A round opens when its command starts: a deterministic one announces itself to every participant, and messages
that came before are taken (R278). -/
def openRound (c : Cmd) (s : State) : State :=
  let r : Round :=
    { num := c.roundNum, ctx := c.ctx, cl := c.cl, seq := c.seq, gang := c.gang, gen := c.gen, parts := participants s c.params, table := none
      ranked := 0, scores := [], cands := [], slots := [], full := [], refs := [], pass := 0, waiting := [], bins := []
      openings := [], requests := [], served := 0, dones := [], bad := [], gaveUp := [], failed := false, aborted := false
      begun := false, closed := false, hints := 0 }
  let s1 := (s.setCmd { c with started := true }).modDie c.die fun d => { d with rounds := d.rounds ++ [r] }
  let s2 := if c.params.det then r.parts.foldl (fun s p => sendRound c msgOpening p (baseMsg s c) s) s1 else s1
  let mine := (s2.die c.die).early.filter fun e => e.1 == c.ctx && e.2.2.round == c.roundNum
  let s3 := s2.modDie c.die fun d => { d with early := d.early.filter fun e => !(e.1 == c.ctx && e.2.2.round == c.roundNum) }
  mine.foldl (fun s e => takeMsg e.2.1 c.die c.ctx e.2.2 s) s3

/-- An admitted slot's row that has not been sent: read at `TOK` for the issuer and sent as whole lines, or written to
an own bin directly (R281). -/
def rowLines (c : Cmd) (x : RSlot) : EAct (List (List Byte)) :=
  (List.range (c.l 964 962 + 1)).mapM fun j => coordGet c (c.l 831 768 + 128 * (c.l 964 962 + 1) * x.t + 128 * j) 128

/-- The first line of a row sent to an own bin that a byte counter of its cluster refuses (R358). -/
def rowRefused (c : Cmd) (r : Round) (x : RSlot) (n : Nat) (s : State) : Option Nat :=
  (r.bins.find? fun b => b.e == x.x).bind fun b =>
    ((List.range n).map fun j => rowLine c b x.row j).find? fun o => tagRefused (s.cl c.bcl) (o / 128) c.tag

/-- A line of a row reaches the receiver: it fills its owed line. The result is 0 landed, 1 refused, 2 waits, 3 refused for its
phase tag (R358). -/
def landToken (die ctx num from_ e row j : Nat) (tag : BitVec 32) (bs : List Byte) (s : State) : State × Nat :=
  match roundAt s die ctx num with
  | none => (s, 1)
  | some r =>
    match r.cmd s with
    | none => (s, 1)
    | some c =>
      if r.bad.contains from_ then (s, 1)
      else
        match r.bins.find? fun b => b.e == e with
        | none => (s.logDie c 0x6C#8 0 0 0, 1)
        | some b =>
          let l := rowLine c b row j / 128
          if away s ctx c.bcl then (s, 2)
          else
          match fillOf s c (.sram c.bcl l) with
          | none => (s, 1)
          | some f =>
            if tagRefused (s.cl c.bcl) l tag then (s, 3)
            else
              let f1 := { f with bytes := bs.mapIdx (fun i x => (i, x)), tag, full := true }
              let s1 := landFill f1 { s with fills := s.fills.map fun g => if g == f then f1 else g }
              let more := s1.fills.any fun g => g.of c && g.item == f.item
              match roundAt s1 die ctx num with
              | none => (s1, 0)
              | some r1 =>
                (setRound s1 die { r1 with
                  bins := r1.bins.map fun y => if y.e == e && !more then { y with fill := y.fill + 1 } else y }, 0)

/-- The slot of token `t`, number `k`, marked as sent. -/
def markSent (die : Nat) (r : Round) (x : RSlot) (s : State) : State :=
  match roundAt s die r.ctx r.num with
  | none => s
  | some r1 => setRound s die { r1 with slots := r1.slots.map fun y => if y.t == x.t && y.s == x.s then { y with sent := true } else y }

/-- Rows of admitted slots are sent, in order; one whose read faults is parked under its token (R281, R288). -/
def sendRows (c0 : Cmd) (s : State) : State :=
  match roundAt s c0.die c0.ctx c0.roundNum with
  | none => s
  | some r =>
    (r.slots.filter fun x => x.st == 1 && !x.sent).foldl (fun s x =>
      match s.cmdOf c0, r.hostOf x.x with
      | some c, some p =>
        if c.parked.any fun k => k.item == x.t then s
        else
          match rowLines c x s with
          | .error .wait => s
          | .error (.park e a) => parkItem c x.t e a s
          | .ok (ls, _) =>
            if p == 4 * devId s + c.die then
              match rowRefused c r x ls.length s with
              | some o => parkItem c x.t 0x71#8 (4194304 * c.bcl + o) s
              | none =>
              let out := ls.zipIdx.foldl (fun (acc : State × Bool) (l : List Byte × Nat) =>
                match landToken c.die c.ctx c.roundNum p x.x x.row l.2 c.tag l.1 acc.1 with
                | (s1, k) => (s1, acc.2 && k == 0)) (s, true)
              if out.2 then markSent c.die r x out.1 else s
            else
              let s1 := ls.zipIdx.foldl (fun (s : State) (l : List Byte × Nat) =>
                s.send { c.packet s (p / 4) 2 .token with
                  mbr := p % 4 + 4 * c.die, key := BitVec.ofNat 32 c.roundNum, addr := (65536 * x.x + x.row) * 8 + l.2
                  data := l.1 }) s
              markSent c.die r x (s1.setCmd { c with acks := c.acks + ls.length })
      | _, _ => s) s

/-- The sluice goes on with a round: rows, grants, passes. -/
def pumpRound (c : Cmd) (s : State) : State := sendRows c (beginPasses c (serve c 3 s))

/-- A sluice command starts, or goes on (R129). -/
def startRoute (c : Cmd) (s : State) : State :=
  if c.started then pumpRound c s else if c.ready s then openRound c s else s

/-- The `n` bytes of a placement table, line by line: a fault gives the first line's address that meets it (R275). -/
def readTable (w : Who) (a n : Nat) : EAct (List Byte) := do
  let parts ← (linesOf a n).mapM fun l =>
    let lo := max a (128 * l)
    liftE lo (vaRead w lo (min (a + n) (128 * l + 128) - lo))
  pure parts.flatten

/-- PLACEMENT_TABLE_READ (R275): the entries are read whole, once, on the sluice's own account; malformed ones are
logged. A fault parks the round. On a table already read the round goes on. -/
def execPlacementTableRead (die ctx rd : Nat) (s : State) : Host.Outcome State Fault Refusal :=
  match roundAt s die ctx rd with
  | none => .next s
  | some r =>
    match r.cmd s with
    | none => .next s
    | some c =>
      if r.table.isSome then .next (pumpRound c s)
      else if !c.parked.isEmpty then .next s
      else
        match readTable (dieWho ctx die c.gang) (c.l 895 832) (16 * (c.n0 + 1)) s with
        | .error .wait => .next s
        | .error (.park e a) => .next (parkOwn c 0 e a s)
        | .ok (bs, s1) =>
          let table := (List.range (c.n0 + 1)).map fun e => BitVec.ofNat 128 (leNat ((bs.drop (16 * e)).take 16))
          let r1 := { r with table := some table }
          let me := 4 * devId s + die
          let mine := table.zipIdx.filter fun x => r1.hostOf x.2 == some me
          let bins := mine.map fun x =>
            let v := x.1.toNat
            let cap := if r1.absent s c x.2 then 0 else bits v 111 96
            RBin.mk x.2 cap cap 0 0 (bits v 74 53) (bits v 127 112)
          let wrong := table.zipIdx.filter fun x => r1.absent s c x.2
          let s2 := setRound s1 die { r1 with bins }
          .next (pumpRound c (wrong.foldl (fun s x => s.logDie c 0x6C#8 x.2 (c.l 895 832 + 16 * x.2) 0) s2))

/-- Whether score `a` ranks before score `b`: higher first, NaN last (R276). -/
def scoreBefore (a b : Val) : Bool := if a.isNan then false else b.isNan || b.lt a

/-- Insertion of an expert by score; an equal one with a lower index stays before. -/
def insertExpert (v : Nat → Val) (e : Nat) : List Nat → List Nat
  | [] => [e]
  | x :: t => if scoreBefore (v e) (v x) then e :: x :: t else x :: insertExpert v e t

/-- The scores of token `t` as FP32 codes, which hold every score format exactly. -/
def tokenScores (c : Cmd) (t : Nat) : EAct (List Nat) := do
  let a ← c.run false t
  a.2.mapM fun e => do
    let ok ← fetched c e.1
    let v ← if ok then elemRead c false e.1 (slotBits e.2.1) e.2.2.1 e.2.2.2
      else pure (leNat ((List.range (slotBytes a.1)).map (Config.refusedByte e.2.2.2)))
    pure (encodeVal Fmt.f32 (decodeVal (fmtOfWord e.2.1) v) .rne false)

/-- The slots of a ranked token: its choices, or no-choice slots (R276). -/
def tokenSlots (k t : Nat) (cands : List Nat) : List RSlot :=
  (List.range k).map fun i =>
    match cands[i]? with
    | some e => RSlot.mk t i e e 0 0 0 [e] false false
    | none => RSlot.mk t i 0 0 2 0 0 [] true false

/-- TOKEN_RANKING (R276): the next token's scores are read and its candidates ranked. -/
def execTokenRanking (die ctx rd : Nat) (s : State) : Host.Outcome State Fault Refusal :=
  match roundAt s die ctx rd with
  | none => .next s
  | some r =>
    match r.cmd s with
    | none => .next s
    | some c =>
      let t := r.ranked
      if r.table.isNone || c.tokens ≤ t || c.parked.any (fun p => p.item == t) then .next (pumpRound c s)
      else
        match requestItem c t s with
        | .error (.park e a) => .next (parkItem c t e a s)
        | .error .wait => .next s
        | .ok (_, s0) =>
          match tokenScores ((s0.cmdOf c).getD c) t s0 with
          | .error (.park e a) => .next (parkItem c t e a s0)
          | .error .wait => .next s0
          | .ok (vs, s1) =>
            let k := c.params.km1 + 1
            let val (e : Nat) : Val := val32 (vs.getD e 0)
            let order := ((List.range (c.n0 + 1)).filter (r.valid s c)).foldl (fun l e => insertExpert val e l) []
            let cands := order.take (k + 2)
            let r1 := { r with
              ranked := t + 1, scores := KMap.set r.scores t vs, cands := KMap.set r.cands t cands
              slots := r.slots ++ tokenSlots k t cands }
            .next (pumpRound c (markDone c t (setRound s1 die r1)))

/-! ### Deadline (R279) -/

/-- A receiver that lacks openings or counts aborts; a sender that lacks openings or replies gives their dies up. DESIGN CHOICE
(log 78): each missing participant has an entry of its own, with device·4 + die in `XTRA`. -/
def deadline (c : Cmd) (r : Round) (s : State) : State :=
  let unopened := r.parts.filter fun p => r.openings.all fun m => (senderOf m) != p
  let missing := if !unopened.isEmpty then unopened else if r.served < 3 then r.lacking r.served else []
  let s1 :=
    if r.closed || r.aborted || missing.isEmpty then s
    else
      missing.foldl (fun s p => s.logDie c 0x6D#8 0 0 p) (setRound s c.die { r with aborted := true, failed := true })
  match roundAt (serve c 3 s1) c.die c.ctx c.roundNum with
  | none => s1
  | some r1 =>
    let s2 := serve c 3 s1
    let silent := (unopened ++ r1.waiting.filterMap r1.hostOf).eraseDups
    if r1.pass == 3 || silent.isEmpty then s2
    else
      let r2 := { r1 with gaveUp := silent.foldl NSet.insert r1.gaveUp, failed := true }
      if r2.begun then afterReply c (r2.giveUp r2.waiting) s2 else beginPasses c (setRound s2 c.die r2)

/-- ROUND_DEADLINE (R279): `DLN` µs after the participant's own issue of a deterministic round. -/
def execRoundDeadline (die ctx rd : Nat) (s : State) : Host.Outcome State Fault Refusal :=
  match roundAt s die ctx rd with
  | none => .next s
  | some r =>
    match r.cmd s with
    | none => .next s
    | some c => .next (if c.params.det && c.l 935 920 != 0 then deadline c r s else s)

/-! ### Closing (R282, R286) -/

/-- Whether a receiver may close its bins (R279, R282). -/
def Round.mayClose (r : Round) (c : Cmd) : Bool :=
  let heard (p : Nat) : Bool := r.dones.any fun m => (senderOf m) == p
  let due := if r.aborted then r.parts.filter fun p => r.openings.any fun m => (senderOf m) == p
    else r.parts
  r.table.isSome && !r.closed && due.all heard && r.requests.isEmpty && (r.aborted || !c.params.det || r.served == 3)
    && ((r.dones.filter fun m => !r.bad.contains (senderOf m)).map (·.rows)).sum ≤ (r.bins.map (·.fill)).sum

/-- The hint that a bin raises (R286). -/
def RBin.hinted (b : RBin) : Bool := b.thr != 0 && b.thr < b.rref

/-- Where the receiver part of the report begins (R285). -/
def receiverPart (c : Cmd) : Nat := c.l 703 640 + 128 + (16 * (c.n0 + 1) + 127) / 128 * 128

/-- The bin table and the receiver part of the report. -/
def closingWrites (c : Cmd) (r : Round) : EAct Unit := do
  let tbase := bits c.line.toNat (768 + 21) 768
  let entry (b : RBin) : List Byte := natLe 8 (4294967296 * b.e + 65536 * ((b.off - tbase) / 128 % 65536) + b.fill)
  let part (b : RBin) : List Byte := [b.e, b.fill, b.rref, if b.hinted then 1 else 0].flatMap (natLe 4)
  if r.bins.isEmpty then pure ()
  else
    coordPut c (c.l 639 576) (r.bins.flatMap entry)
    coordPut c (receiverPart c) (r.bins.flatMap part)

/-- BIN_CLOSE (R282): bin table, receiver report, graft hints, flag, ring message. Lines of granted rows that were never
sent keep what they held (log 23). A flag of a spilled task waits, and the closing with it (R352, R396). -/
def execBinClose (die ctx rd : Nat) (s : State) : Host.Outcome State Fault Refusal :=
  match roundAt s die ctx rd with
  | none => .next s
  | some r =>
    match r.cmd s with
    | none => .next s
    | some c =>
      if !r.mayClose c || !c.parked.isEmpty || (c.l 907 907 == 1 && away s c.ctx c.bcl) then .next (pumpRound c s)
      else
        let s0 := s.dropFills fun f => f.of c && f.item != 0
        match closingWrites c r s0 with
        | .error .wait => .next s
        | .error (.park e a) => .next (parkOwn c c.cwItem e a s)
        | .ok (_, s1) =>
          let hints := r.bins.filter RBin.hinted
          let s2 := hints.foldl (fun s b =>
            s.soon (.fire die 0 (BitVec.ofNat 16 (devId s)) (BitVec.ofNat 16 b.e) (BitVec.ofNat 32 r.num)
              (BitVec.ofNat 48 b.rref))) s1
          let s3 := if c.l 907 907 == 1 then s2.setFlagOf c.bcl (c.l 919 908) true else s2
          let msg := natLe 8 (16 + 65536 + 4294967296 * (385 + die)) ++ natLe 4 r.num ++ natLe 4 (if r.failed then 1 else 0)
          let s4 := if c.l 906 906 == 1 then ringArrive (some c.ctx) c.bcl (c.l 905 902) msg s3 else s3
          .next (setRound s4 die { r with closed := true, hints := hints.length })

/-! ### Retirement (R283 to R287) -/

/-- The weights of a token's slots (R284), by slot number. -/
def weights (c : Cmd) (r : Round) (t : Nat) : List (Nat × Nat) :=
  let ps := r.slots.filter fun x => x.t == t && x.st == 1
  let vs := KMap.getD r.scores t []
  let score (x : RSlot) : Val := val32 (vs.getD x.x 0)
  if c.l 966 966 == 0 then ps.map fun x => (x.s, vs.getD x.x 0)
  else
    let m := ps.foldl (fun (m : Val) (x : RSlot) => if scoreBefore (score x) m then score x else m) .nan
    let us := ps.map fun x => (x.s, expRef (r32 ((score x).add .rne m.negate)))
    let sum := match us with
      | [] => Val.zero false
      | u :: rest => rest.foldl (fun (a : Val) (b : Nat × Val) => add32 a b.2) u.2
    us.map fun u => (u.1, encodeVal Fmt.f32 (u.2.div sum) .rne false)

/-- One slot of a route record (Table 11.6). -/
def routeSlot (c : Cmd) (r : Round) (t s : Nat) : Nat :=
  match r.slots.find? fun x => x.t == t && x.s == s with
  | none => 3 * 2 ^ 74
  | some x =>
    let adm := x.st == 1
    let w := if adm then (((weights c r t).find? fun p => p.1 == s).map (·.2)).getD 0 else 0
    let dev := if adm then ((r.hostOf x.x).map fun p => p / 4).getD 0 else 0
    w + (if adm then x.x else x.choice) * 2 ^ 32 + (if adm then x.row else 0) * 2 ^ 48 + dev * 2 ^ 64
      + (if !adm then 2 else if x.x == x.choice then 0 else 1) * 2 ^ 74 + x.pass * 2 ^ 76 + (if x.noc then 2 ^ 78 else 0)

/-- The sender part of the report: header and one entry for each expert (Table 11.7). -/
def senderReport (c : Cmd) (r : Round) : List Byte :=
  let n (f : RSlot → Bool) : Nat := (r.slots.filter f).length
  let header := [r.num, if r.failed then 1 else 0, c.tokens, (c.params.km1 + 1) * c.tokens, n fun x => x.st == 1,
    n fun x => x.st == 1 && x.x != x.choice, n fun x => x.st == 2, r.hints, n (·.noc)]
  header.flatMap (natLe 4) ++ List.replicate 92 0#8
    ++ (List.range (c.n0 + 1)).flatMap fun e =>
      [n fun x => x.st == 1 && x.x == e, KMap.getD r.refs e 0, n fun x => x.st == 1 && x.choice == e && x.x != e,
        n fun x => x.st == 2 && x.choice == e && !x.noc].flatMap (natLe 4)

/-- Every slot admitted with its row acknowledged, or dropped, and the bins closed (R287). -/
def Round.mayRetire (r : Round) (c : Cmd) : Bool :=
  r.closed && r.pass == 3 && (r.slots.all fun x => x.st == 2 || (x.st == 1 && x.sent)) && c.acks == 0 && c.parked.isEmpty

/-- The round retires: route records and report are written, then the command leaves its slot. -/
def retireRound (c : Cmd) (r : Round) (s : State) : State :=
  if !r.mayRetire c then pumpRound c s
  else
    let writes : EAct Unit := do
      (List.range c.tokens).forM fun t =>
        coordPut c (c.l 767 704 + 128 * t) ((List.range 8).flatMap fun i => natLe 16 (routeSlot c r t i))
      coordPut c (c.l 703 640) (senderReport c r)
    match writes s with
    | .error .wait => s
    | .error (.park e a) => parkItem c c.cwItem e a s
    | .ok (_, s1) =>
      let s2 := retireCmd c true s1
      if (s2.cmdOf c).isSome then s2
      else s2.modDie c.die fun d => { d with rounds := d.rounds.filter fun x => !(x.ctx == r.ctx && x.num == r.num) }

/-- ROUND_RETIREMENT (R287). -/
def execRoundRetirement (die ctx rd : Nat) (s : State) : Host.Outcome State Fault Refusal :=
  match roundAt s die ctx rd with
  | none => .next s
  | some r =>
    match r.cmd s with
    | none => .next s
    | some c => .next (retireRound c r s)

/-- The rounds of a context's commands that match are forgotten (R288). -/
def forgetRounds (keep : Round → Bool) (s : State) : State :=
  (List.range 4).foldl (fun s d => s.modDie d fun x => { x with rounds := x.rounds.filter keep }) s

end Sys2Proof.Machine
end

