-- ==== Sys2Proof/Machine/Ingress.lean ====
section
/-! DEFINITION. Packets at this device: the key check, accesses of agent 389, acknowledgements, carries, the park
buffers, forwarding (R301, R309, R311, R315, R326). -/

namespace Sys2Proof.Machine

/-! ### Accesses of the ingress (R309) -/

/-- The owning context and the virtual address of the `n` bytes that a packet touches, where its key admits it. A
multicast packet's address is an offset in the landing region (R320). -/
def keyCheck (p : Packet) (off : Nat) (r : Right) (n : Nat) (s : State) : Option (Nat × Nat) :=
  let e := (KMap.getD s.keys (p.key.toNat % 4096) 0#256).toNat
  let base := bits e 127 64
  let a := if p.mc then base + off else off
  let right := match r with
    | .rd => bit e 207 | .wrt => bit e 206 | .acc => bit e 205
  if bit e 192 && bits e 255 224 == p.key.toNat && base ≤ a && a + n ≤ base + bits e 191 128 && right
  then some (bits e 223 208, a) else none

/-- Whether arrivals of a context may land in a cluster now (R288, R330). -/
def canLand (s : State) (ctx cl : Nat) : Bool := !away s ctx cl && ((s.cl cl).task.all fun t => t.ctx == ctx)

/-- A scratchpad that an arrival reaches: refused where it is not granted, unless a saved task's (R330); waiting where it may
not land now. -/
def landing (ctx cl off n a : Nat) : EAct Unit := do
  let s ← get
  if !s.granted ctx 384 cl then if away s ctx cl then holdOn else parkAt 0x26#8 a
  else if !inBanks (s.cl cl) off || !inBanks (s.cl cl) (off + n - 1) then parkAt 0x27#8 a
  else if !canLand s ctx cl || (linesOf off n).any (fun l => lineOwed s (.sram cl l)) then holdOn
  else pure ()

/-- Bytes read by the ingress. -/
def ingressRead (ctx a n : Nat) : EAct (List Byte) := do
  let w := ingressWho ctx
  let parts ← (pieces a n).mapM fun p => do
    let x ← liftE p.1 (translate w p.1 false false)
    match x.tgt with
    | .sram cl o => do
      landing ctx cl o p.2 p.1
      eccRows cl [o / 128] p.1
      let s ← get
      pure (sramRead (s.cl cl) o p.2)
    | _ => liftE p.1 (targetRead w p.1 p.2 x)
  pure parts.flatten

/-- Bytes written by the ingress: a scratchpad line lands at once and counts with the packet's phase tag (R358); nothing
lands in host memory (R15; log 80). -/
def ingressWrite (ctx : Nat) (tag : BitVec 32) (a : Nat) (bs : List Byte) : EAct Unit :=
  (pieces a bs.length).forM fun p => do
    let w := ingressWho ctx
    let part := (bs.drop (p.1 - a)).take p.2
    let x ← liftE p.1 (translate w p.1 true false)
    match x.tgt with
    | .sram cl o => do
      landing ctx cl o p.2 p.1
      let s ← get
      if tagRefused (s.cl cl) (o / 128) tag then parkAt 0x71#8 p.1
      else do
        eccRows cl [o / 128] p.1
        modify fun s => countAll cl (o / 128) p.2 tag (sramWrite s cl o part)
    | .host _ => parkAt 0x21#8 p.1
    | _ => liftEU p.1 (targetWrite w p.1 part false x)

/-- One update at its port, on behalf of a peer (R139, R308); the old value. -/
def ingressUpdate (ctx a n : Nat) (f : Nat → Nat) : EAct Nat := do
  let w := ingressWho ctx
  let x ← liftE a (translate w a true true)
  match x.tgt with
  | .sram cl o => do
    landing ctx cl o n a
    eccRows cl [o / 128] a
    let s ← get
    let old := leNat (sramRead (s.cl cl) o n)
    set (sramWrite s cl o (natLe n (f old)))
    pure old
  | .host _ => parkAt 0x21#8 a
  | _ => do
    let (x1, bs) ← liftE a (updateRead w a n)
    liftEU a (targetWrite w a (natLe n (f (leNat bs))) true x1)
    pure (leNat bs)

/-! ### Replies -/

/-- The answer to a packet: `mbr` is the status, 16 and above for a contribution or a load, `ver` = 1 answers a read, `key` the
device that the answer is about (log 13). -/
def ackOf (s : State) (p : Packet) (status : Nat) (data : List Byte) : Packet :=
  let viaGroup := p.kind == .contribution || p.kind == .pullLoad
  { newPacket s p.sdev (if p.tc == 0 then 0 else if p.tc == 3 then 3 else 1) .ack p.ctx p.gen with
    seq := p.seq, arg := p.arg, addr := p.addr, mbr := if viaGroup then groupStatus status else status, data
    key := BitVec.ofNat 32 (devId s), ver := if viaGroup then p.ver else if p.kind == .readReq then 1 else 0, grp := p.grp }

/-- A packet that is refused: dropped, counted, and answered (R309, R318). -/
def refuse (p : Packet) (status : Nat) (s : State) : State := { (s.send (ackOf s p status [])) with dropped := s.dropped + 1 }

/-- A packet that fails the check of its key: counter 136 counts it (R309, R426). -/
def refuseKey (p : Packet) (s : State) : State := (refuse p 4 s).count 0 136 1

/-- An entry that the peer makes about an arrival (R343, R398). -/
def logArrival (p : Packet) (ctx : Nat) (cause : BitVec 8) (a xtra : Nat) (s : State) : State :=
  s.logFault ctx ⟨cause, 2, 389, 7, 0, p.seq, 0, p.gen, a, xtra⟩

/-- Causes of refusals and of unreachable peers in the sender's log (R300, R309). -/
def statusCause (status : Nat) : Option (BitVec 8) :=
  if status == 4 then some 0x85#8 else if status == 5 then some 0x86#8 else none

/-- A scalar access of a cluster learns that its peer refused it. -/
def logScalar (cl who status addr : Nat) (s : State) : State :=
  match statusCause status, (s.cl cl).task with
  | some cause, some t =>
    let e : LogEntry := ⟨cause, 2, t.agent + 1, 0, who % 8, 0#32, 0, s.sstepOf t.gang, addr, status⟩
    s.logFault t.ctx e
  | _, _ => s

/-- The command's status: the first code that is not zero stands. -/
def withStatus (c : Cmd) (status : Nat) : Cmd := { c with status := if c.status == 0 then status else c.status }

def logStatus (c : Cmd) (status addr : Nat) (s : State) : State :=
  match statusCause status with
  | some cause => s.logCmd c cause 2 0 addr status
  | none => s

/-- The command that an answer's argument names. -/
def cmdOfArg (p : Packet) (s : State) : Option Cmd :=
  (s.cl (argCl p)).cmds.find? fun c => c.unit == unitOfNum (argUnit p) && c.seq == p.seq && c.gang % 65536 == bits p.arg.toNat 63 48

/-- An answer reaches its command or its scalar access; none while the line it returns a value to is owed. One that no
command waits for is logged (R300; log 84). -/
def takeAck (p : Packet) (s : State) : Option State :=
  let cl := argCl p
  let status := p.mbr % 16
  let about := p.key.toNat
  if 16 ≤ p.mbr then
    let cs := s.clusters.flatMap fun e => e.2.cmds.filter fun c =>
      c.unit == .fabric && c.op == opEldred && c.started && c.ctx == p.ctx && c.grpOf == p.grp && c.verOf == p.ver
        && c.next == p.seq.toNat
    some (cs.foldl (fun s c =>
      if !c.push then logStatus c status p.addr s
      else if status == 0 then s.setCmd { c with acks := 0 }
      else logStatus c status p.addr (endReduce c status s)) s)
  else if p.ver == 2 then
    let e : LogEntry := ⟨0x86#8, 2, 389, 7, 0, p.seq, 0, p.gen, p.addr, status⟩
    some (s.logFault p.ctx e)
  else if argUnit p == 7 then
    if p.ver == 1 then
      some (logScalar cl (argWho p) status p.addr (s.modCl cl fun x =>
        { x with winReads := match KMap.get? x.winReads (argWho p) with
            | some r => KMap.set x.winReads (argWho p) { r with refused := some status }
            | none => x.winReads }))
    else some (logScalar cl (argWho p) status p.addr (s.modCl cl fun x => { x with wack := x.wack - 1 }))
  else
    match cmdOfArg p s with
    | none => some s
    | some c =>
      if p.ver == 1 then
        let k := farKey about p.addr
        some (logStatus c status p.addr (s.setCmd (withStatus { c with owing := KMap.set c.owing k 0, lost := NSet.insert c.lost k } status)))
      else
        let c1 := withStatus { c with
          acks := c.acks - 1
          lost := if status != 0 && (c.op == opEput || c.op == opEmcast) && c.unit == .fabric then NSet.insert c.lost about
            else c.lost } status
        let s1 := logStatus c status p.addr (s.setCmd c1)
        if p.data.isEmpty then some s1
        else
          let pos := leNat ((p.data.drop 8).take 8)
          match (returnOld c1 (slotBits (c1.issueWord s1 true)) pos (leNat (p.data.take 8))) s1 with
          | .ok (_, s2) => some (fillUp c1 s2)
          | .error (.park e a) => some (parkItem c1 (pos / (c1.n0 + 1)) e a s1)
          | .error .wait => none

/-- Data of a read reaches its command or its scalar access. -/
def takeData (p : Packet) (s : State) : State :=
  let cl := argCl p
  if argUnit p == 7 then
    s.modCl cl fun x =>
      { x with winReads := match KMap.get? x.winReads (argWho p) with
          | some r => KMap.set x.winReads (argWho p) { r with reply := some p.data }
          | none => x.winReads }
  else
    match cmdOfArg p s with
    | none => s
    | some c =>
      let k := farKey p.sdev p.addr
      s.setCmd { c with got := Mem.write c.got k p.data, owing := KMap.set c.owing k 0 }

/-! ### Carries (R326) -/

/-- A line of a carry lands raw, unless its write's own read consumes an error, which takes the rollback route (R406). -/
def landCarry (ctx cl line : Nat) (tag : BitVec 32) (bs : List Byte) (s : State) : State :=
  let s1 := { s with fills := s.fills.filter fun f => f.line != .sram cl line }
  let s2 := State.setOwed (sramLand s1 cl (128 * line) ((protectedGangOf s ctx).getD 0) bs) (.sram cl line) false
  if (rowsEcc cl [line] s1).isNone then s2 else countAll cl line bs.length tag s2

/-- The reservation that a later packet of a carry lands by: that of its own carry (R326). -/
def Carry.of (e : Carry) (p : Packet) : Bool := e.sdev == p.sdev && e.seq == p.seq && e.arg == p.arg

/-- A carry reaches the ingress; none while a line of its mailbox is owed to an earlier fill. A reservation stands between the
two packets of a carry of more than 4 lines, the first of which has brought 4. -/
def takeCarry (p : Packet) (s : State) : Option State :=
  let n := p.mbr
  match keyCheck p p.addr .wrt (128 * n) s with
  | none => some (refuseKey p s)
  | some (ctx, a) =>
    match translate (ingressWho ctx) a true false s with
    | .error _ => some (refuse p 4 s)
    | .ok (s1, x) =>
      match x.tgt with
      | .sram cl off =>
        let taken (e : Carry) : Bool := e.cl == cl && e.off < off + 128 * n && off < e.off + 128 * (e.left + 4)
        let own (e : Carry) : Bool := e.of p && e.cl == cl && e.off == off
        let lines := (p.data.length + 127) / 128
        let first := off / 128 + p.ver
        let tag := argTag p
        if off % 128 != 0 then some (refuse p 4 s1)
        else if !s1.granted ctx 384 cl then some (refuse p 3 s1)
        else if !inBanks (s1.cl cl) off || !inBanks (s1.cl cl) (off + 128 * n - 1) then some (refuse p 4 s1)
        else if p.ver == 0 && (!canLand s1 ctx cl || (s1.cl cl).flags.getLsbD p.grp || s1.carries.any taken) then some (refuse p 3 s1)
        else if p.ver != 0 && !s1.carries.any own then some (refuse p 3 s1)
        else if (List.range lines).any fun i => tagRefused (s1.cl cl) (first + i) tag then
          some (refuse p 4 (logArrival p ctx 0x71#8 a 4 s1))
        else if p.ver == 0 && (List.range n).any fun i => lineOwed s1 (.sram cl (first + i)) then none
        else
          let rest := if p.ver == 0 then (List.range n).drop lines else []
          let s2 := rest.foldl (fun s i =>
            let f : Fill := ⟨.sram cl (off / 128 + i), [], .fabric, cl, 0#32, 0, 0, tag, true, false⟩
            State.setOwed { s with fills := s.fills ++ [f] } f.line true) s1
          let s3 := (List.range lines).foldl (fun s i => landCarry ctx cl (first + i) tag ((p.data.drop (128 * i)).take 128) s) s2
          let done := p.ver + lines == n
          let s4 : State := if done then State.setFlagOf s3 cl p.grp true else s3
          let left := s4.carries.filter fun e => !own e
          let here : Carry := ⟨cl, p.grp, off, n - p.ver - lines, p.sdev, p.seq, p.arg⟩
          let s5 := { s4 with carries := if done then left else left ++ [here] }
          some (s5.send (ackOf s5 p 0 []))
      | _ => some (refuse p 4 s1)

/-! ### Pull loads (R325) -/

/-- A member ingress serves a pull load: the sequence advances, and the elements of the landing region are contributed. -/
def servePull (p : Packet) (n : Nat) : EAct Unit := do
  let s ← get
  match versionSlot s p.grp p.ver with
  | none => set (refuse p 6 s)
  | some k =>
    let x := s.slot k
    if s.groupCount k p.ctx + 1#32 != p.seq then set (refuse p 6 s)
    else
      let z := if x.ity then 4 else 2
      match keyCheck { p with mc := true, key := x.key } p.addr .rd (z * n) s with
      | none => set (refuseKey p s)
      | some (ctx, a) => do
        let bs ← ingressRead ctx a (z * n)
        let word := if x.ity then 10 else 9
        let vs := (List.range n).map fun i => widened word (leNat ((bs.drop (z * i)).take z))
        modify fun s =>
          (s.countGroup k p.ctx).send { newPacket s (rootDev x) 1 .contribution p.ctx p.gen with
            grp := p.grp, ver := p.ver, seq := p.seq, key := x.key, mbr := memberIndex x.memb (devId s)
            data := vs.flatMap (natLe 4) }

/-! ### Delivery at this device -/

/-- The park buffer that holds a packet: that of the junction die of the port it came by (R298, R311). DESIGN CHOICE (log 100): a
packet that this device has sent to itself came by no port, and junction die 0 holds it. -/
def parkOf (s : State) (p : Packet) : List Packet := if junctionOf p.via == 1 then s.park1 else s.park0

def parkPacket (p : Packet) (s : State) : State :=
  if junctionOf p.via == 1 then { s with park1 := s.park1 ++ [p] } else { s with park0 := s.park0 ++ [p] }

/-- Flits that a park buffer of 16 MiB holds. -/
def parkRoom : Nat := 131072

/-- Whether the buffer of a packet's junction die is full, and holds arrivals of its class: no packet takes more than 10
flits (R303, R311). -/
def parkFull (s : State) (p : Packet) : Bool :=
  p.tc != 0 && decide (parkRoom < ((parkOf s p).map flits).sum + 10) && (parkOf s p).any fun q => q.tc == p.tc

/-- What becomes of a packet whose access snags (R311, R343); an uncorrectable error takes the rollback route (log 81). A parked
packet, which goes no further, keeps in `imd` which page it misses. -/
def snagged (p : Packet) (ctx : Nat) (e : Snag) (s : State) : Option State :=
  match e with
  | .wait => none
  | .park cause a =>
    if 0xC0#8 ≤ cause && cause ≤ 0xC6#8 then
      some (refuse p 4 (s.raiseCheck ctx ((protectedGangOf s ctx).getD 0) 389 7 cause))
    else if cause == 0x20#8 && p.tc != 0 then
      if parkRoom < (((parkOf s p) ++ [p]).map flits).sum then none
      else some (logArrival p ctx cause a 0 (parkPacket { p with imd := a / 65536 % 1024 } s))
    else some (refuse p 4 (logArrival p ctx cause a 4 s))

/-- A gang's barrier messages over tc0 (R354, R355, R412): `imd` 0 a device has arrived, 1 it withdraws, 2 the lowest-numbered
device asks whether all are ready, 3 the tasks of a device have all ended, with the first status in `arg`, 4 a device is
ready, 5 the barrier completes, 6 it does not yet. `arg` of 2 and 4 is the number of the question. A device whose gang has
ended is waited for no longer, and the rest report anew, for the lowest number may be another's. -/
def takeBarrier (p : Packet) (x : Gang) : Gang :=
  match p.imd with
  | 0 => { x with arrivedDevs := NSet.insert x.arrivedDevs p.sdev }
  | 1 => { x with arrivedDevs := NSet.erase x.arrivedDevs p.sdev }
  | 2 => if x.reported then { x with frozen := true, prepared := [], poll := p.arg.toNat } else x
  | 3 =>
    { x with
      remote := x.remote.filter fun r => r.1 != p.sdev
      exit := if x.exit == 0#8 then p.arg.setWidth 8 else x.exit
      reported := false, frozen := false, prepared := [] }
  | 4 => if x.frozen && p.arg.toNat == x.poll then { x with prepared := NSet.insert x.prepared p.sdev } else x
  | 5 => { x with goAhead := true }
  | _ => { x with frozen := false, prepared := [] }

/-- A gang's rollback messages over tc0 (R414, R415): `imd` 0 a request, with its cause and how often the sender has rolled the
superstep back in `arg`, 1 a device has rolled back, 2 every device has, 3 the gang has lost its protection; 4, its context
ends, is taken with the context. A request for another superstep, or for a run of this one that has been rolled back already,
is late and asks for nothing. -/
def takeRollback (p : Packet) (x : Gang) : Gang :=
  match p.imd with
  | 0 =>
    if p.gen != x.sstep || p.arg.toNat / 256 != x.runs then x
    else { x with rollback := some (x.rollback.getD (p.arg.setWidth 8)), told := x.told || x.rollback.isNone }
  | 1 => { x with confirmed := NSet.insert x.confirmed p.sdev }
  | 2 => { x with goAhead := true }
  | _ => { x with unprotected := true }

/-- A request for a run of the superstep that this device has still to resume waits until it does. -/
def earlyRequest (p : Packet) (x : Gang) : Bool := p.imd == 0 && p.gen == x.sstep && decide (x.runs < p.arg.toNat / 256)

/-- A gang whose placement another device announces (R376, R378): `imd` 0 asks for clusters, 1 says where every task lies; the
data are the graph's address, seed, item, stage, size, tag and whether the seed is given, then device and cluster of each
task. At the home device, 2 confirms clusters, or, with none, asks for them back; 3 grants that. A device on which no task lies
forgets the gang. -/
def takePlacement (p : Packet) (s : State) : State :=
  let w (i n : Nat) : Nat := leNat ((p.data.drop i).take n)
  let places := (List.range ((p.data.length - 40) / 8)).map fun i => (w (40 + 8 * i) 4, w (44 + 8 * i) 4)
  let own := (places.filter fun r => r.1 == devId s).map (·.2)
  let far := places.filter fun r => r.1 != devId s
  match gangOfPacket s p, p.imd with
  | some _, 0 => s
  | some g, 1 =>
    if own.isEmpty then
      { s with gangs := KMap.erase s.gangs g, graphs := KMap.erase s.graphs (((KMap.get? s.gangs g).map (·.graph)).getD 0) }
    else s.modGang g fun x => { x with remote := far, members := own.foldl NSet.insert [], goAhead := true, yielding := false }
  | some g, 2 =>
    let l := (List.range (p.data.length / 4)).map fun i => w (4 * i) 4
    (match KMap.get? s.gangs g with
     | none => s
     | some x =>
       if x.placed then s
       else
         let s1 := s.modGang g fun y => { y with offers := KMap.set y.offers p.sdev l }
         if l.isEmpty then s1.send { gangPacket s x p.sdev .placement 3 0 with tc := 3 } else s1)
  | some g, _ => s.modGang g fun x => { x with reserved := [], offered := [], yielding := false }
  | none, 0 | none, 1 =>
    if p.imd == 1 && own.isEmpty then s
    else
      let x : Gang :=
        { ctx := p.ctx, tag := w 32 4, graph := s.nextGraph, stage := w 24 4, size := w 28 4, sstep := 0#32
          members := if p.imd == 0 then [] else own.foldl NSet.insert [], remote := if p.imd == 0 then [] else far
          ended := [], arrivedDevs := [], unprotected := false, item := none, itemVal := BitVec.ofNat 64 (w 16 8)
          itemDone := false, stamp := p.addr, home := p.mbr, num := p.seq.toNat, placed := false, reserved := [], sweeps := []
          sweepIn := [], rollback := none, reported := false, goAhead := p.imd != 0, restored := false, told := false
          confirmed := [], flowing := false, markers := [], runs := 0, offers := [], offered := [], yielding := false
          frozen := false, prepared := [], poll := 0, exit := 0#8 }
      let q : Graph :=
        { ctx := p.ctx, va := w 0 8, nst := 0, entry := 0, done := 0, status := 0#8, seedv := w 36 4 != 0
          seed := BitVec.ofNat 64 (w 8 8), live := false, statusParked := false, ages := [], stamp := p.addr, cause := 0#8 }
      { s with
        gangs := KMap.set s.gangs s.nextGang x, nextGang := s.nextGang + 1
        graphs := KMap.set s.graphs s.nextGraph q, nextGraph := s.nextGraph + 1 }
  | none, _ => s

/-! ### Drain markers (R319, R401) -/

/-- A marker at this router: one that another device sent goes back, and one that has come back is counted off (log 13). Its
argument tells a group slot's, 0, from a context's, 1, and a gang's, 2; `grp` of the last two is the port that it left by. -/
def takeMarker (p : Packet) (s : State) : State :=
  if !returned p then
    s.send { p with ddev := p.sdev, sdev := devId s, arg := p.arg ||| 4#64, hop := 0, ph := false, via := 64, slow := false }
  else
    match p.arg.toNat % 4 with
    | 0 => slotReturned p.grp p.ver p.mbr s
    | 1 =>
      { s with contexts := s.contexts.map fun e =>
          if e.1 == p.ctx then (e.1, { e.2 with markers := NSet.erase e.2.markers (64 * (4 * p.mbr + p.tc) + p.grp) }) else e }
    | _ =>
      match gangOfPacket s p with
      | some g => s.modGang g fun x => { x with markers := NSet.erase x.markers (64 * (4 * p.ver + p.tc) + p.grp) }
      | none => s

/-! ### Delivery -/

/-- A whole message takes effect at this device, its destination; none while it has to wait. -/
def deliverWhole (p : Packet) (s : State) : Option State :=
  let access (r : Right) (n : Nat) (f : Nat → Nat → EAct (List Byte)) (k : State → List Byte → State) : Option State :=
    if p.mc && (versionSlot s p.grp p.ver).isNone then some (refuse p 6 s)
    else
      match keyCheck p p.addr r n s with
      | none => some (refuseKey p s)
      | some (ctx, a) =>
        match f ctx a s with
        | .ok (bs, s1) => some (k s1 bs)
        | .error e => snagged p ctx e s
  let ofGang (f : Nat → State) : Option State := some (match gangOfPacket s p with | some g => f g | none => s)
  match p.kind with
  | .readReq =>
    access .rd p.mbr (fun ctx a => ingressRead ctx a p.mbr) fun s1 bs =>
      s1.send { newPacket s1 p.sdev 2 .readReply p.ctx p.gen with seq := p.seq, arg := p.arg, addr := p.addr, data := bs }
  | .readReply => some (takeData p s)
  | .write =>
    access .wrt p.data.length (fun ctx a => do
      ingressWrite ctx (argTag p) a p.data
      pure []) fun s1 _ => s1.send (ackOf s1 p 0 [])
  | .accUpdate =>
    let w (i n : Nat) : Nat := leNat ((p.data.drop i).take n)
    access .acc p.mbr (fun ctx a => do
      let old ← ingressUpdate ctx a p.mbr fun d =>
        eaccResult (w 24 4) (w 28 1) (rmOfCode (w 29 1) 0) (w 30 1 == 1) d (w 0 8) (w 8 8)
      pure (natLe 8 old)) fun s1 bs => s1.send (ackOf s1 p 0 (bs ++ natLe 8 (w 16 8)))
  | .flagSet =>
    access .wrt 1 (fun ctx a => do
      let x ← liftE a (translate (ingressWho ctx) a true false)
      match x.tgt with
      | .sram cl off => do
        landing ctx cl off 1 a
        modify fun s => s.setFlagOf cl (leNat p.data) true
        pure []
      | _ => parkAt 0x27#8 a) fun s1 _ => s1.send (ackOf s1 p 0 [])
  | .ack => takeAck p s
  | .carry => takeCarry p s
  | .permit => some (takeMsg (p.mbr / 4) (p.mbr % 4) p.ctx (roundOfWords p.data) s)
  | .token =>
    match landToken (p.mbr % 4) p.ctx p.key.toNat (4 * p.sdev + p.mbr / 4) (p.addr / 524288) (p.addr / 8 % 65536) (p.addr % 8)
        (argTag p) p.data s with
    | (_, 2) => none
    | (s1, 0) => some (s1.send (ackOf s1 p 0 []))
    | (s1, 3) => some (refuse p 4 (logArrival p p.ctx 0x71#8 p.addr 4 s1))
    | (s1, _) => some (refuse p 4 s1)
  | .contribution =>
    if (versionSlot s p.grp p.ver).isNone then some (refuse p 6 s)
    else
      let vals := (List.range (p.data.length / 4)).map fun i => BitVec.ofNat 32 (leNat ((p.data.drop (4 * i)).take 4))
      let c : Contribution := { ctx := p.ctx, grp := p.grp, ver := p.ver, gen := p.gen, seq := p.seq, mbr := p.mbr, dev := p.sdev, vals }
      some (contribute c s)
  | .pullLoad =>
    match servePull p (leNat p.data) s with
    | .ok (_, s1) => some s1
    | .error e => snagged p p.ctx e s
  | .result =>
    if (versionSlot s p.grp p.ver).isNone then some (refuse p 6 s)
    else
    let missing := BitVec.ofNat 1024 (leNat (p.data.take 128))
    let cs := s.clusters.flatMap fun e => e.2.cmds.filter fun c =>
      c.unit == .fabric && c.op == opEldred && c.started && c.ctx == p.ctx && c.grpOf == p.grp && c.verOf == p.ver
        && c.next == p.seq.toNat && c.receives s
    some (cs.foldl (fun s c =>
      s.setCmd (withStatus { c with
        got := Mem.write [] 0 (p.data.drop 128), owing := KMap.set c.owing 0 0, missing } (if missing == 0#1024 then 0 else 1))) s)
  | .flush =>
    if (versionSlot s p.grp p.ver).isNone then some (refuse p 6 s)
    else some (takeNotice ⟨p.ctx, p.grp, p.ver, p.gen, p.seq, BitVec.ofNat 1024 (leNat (p.data.take 128))⟩ s)
  | .groupUpdate =>
    match takeGroupUpdate p.data s with
    | (s1, st) => some (s1.send (ackOf s1 p st []))
  | .barrier => ofGang fun g => s.modGang g (takeBarrier p)
  | .rollback =>
    match (gangOfPacket s p).bind fun g => (KMap.get? s.gangs g).map fun x => (g, x) with
    | none => some s
    | some (g, x) =>
      if p.imd == 4 then some (s.soon (.kill p.ctx)) else if earlyRequest p x then none else some (s.modGang g (takeRollback p))
  | .sweep => ofGang fun g => takeSweep p g ((KMap.get? s.gangs g).getD default) s
  | .placement => some (takePlacement p s)
  | .drain => some (takeMarker p s)
  | .collective | .spdm => some s

/-- Parts of one message. -/
def sameTrain (p q : Packet) : Bool :=
  p.kind == q.kind && p.sdev == q.sdev && p.tc == q.tc && p.ctx == q.ctx && p.gen == q.gen && p.grp == q.grp && p.ver == q.ver
    && p.seq == q.seq && p.mbr == q.mbr && p.addr == q.addr && p.arg == q.arg && p.key == q.key

/-- The number of a part. -/
def partNum (p : Packet) : Nat := leNat (p.data.take 4)

/-- A message of the aborted run of a superstep, which a rollback discards (R330, R415). -/
def aborted (s : State) (p : Packet) : Bool :=
  match p.kind with
  | .rollback | .placement | .drain | .spdm => false
  | .barrier | .sweep =>
    ((gangOfPacket s p).bind fun g => KMap.get? s.gangs g).any fun x => x.draining && p.gen == x.sstep
  | _ => abortedGen s p.ctx p.gen

/-- A packet of the superstep that a gang's present barrier begins, from a device that has completed it: it waits until this
device has, so that nothing of the new superstep lands before the snapshots are taken (R355). -/
def afterBarrier (s : State) (p : Packet) : Bool :=
  s.gangs.any fun e => e.2.frozen && e.2.ctx == p.ctx && p.gen == e.2.sstep + 1#32 && e.2.others.contains p.sdev

/-- What is left of a context's traffic once it has been torn down here, or where it is not loaded (R402): `none` where the
packet's own key tells. -/
def lateOf (s : State) (p : Packet) : Option (State → State) :=
  let ended := (KMap.get? s.contexts p.ctx).any (·.ended)
  let gone := (KMap.get? s.contexts p.ctx).all (·.ended)
  let drop (s : State) : State := { s with dropped := s.dropped + 1 }.count 0 136 1
  match p.kind with
  | .drain | .spdm | .readReq | .write | .accUpdate | .flagSet | .carry => none
  | .token | .pullLoad => if gone then some (refuseKey p) else none
  | .contribution | .groupUpdate => if ended then some (refuseKey p) else none
  | .permit => if gone then some drop else none
  | _ => if ended then some drop else none

/-- A packet takes effect at this device; none while it has to wait. A part is kept until every other has come (log 13). -/
def deliverPacket (p : Packet) (s : State) : Option State :=
  match lateOf s p with
  | some f => some (f s)
  | none =>
  if aborted s p then some { s with dropped := s.dropped + 1 }
  else if afterBarrier s p then none
  else if !p.part then deliverWhole p s
  else
    let n := leNat ((p.data.drop 4).take 4)
    let ps := p :: s.trains.filter fun q => sameTrain p q && partNum q != partNum p
    if ps.length < n then some { s with trains := s.trains ++ [p] }
    else
      let data := (List.range n).flatMap fun i => ((ps.find? fun q => partNum q == i).map fun q => q.data.drop 8).getD []
      deliverWhole { p with part := false, data } { s with trains := s.trains.filter fun q => !sameTrain p q }

/-- A packet of tc0 or tc3 keeps its place behind an earlier one of its pair of devices, in the router or parked (R302). -/
def behindPair (s : State) (before : List Packet) (p : Packet) : Bool :=
  (p.tc == 0 || p.tc == 3) && (before ++ s.park0 ++ s.park1).any fun q => q.tc == p.tc && q.sdev == p.sdev && q.ddev == p.ddev

/-- A packet delivered, or left to try again. -/
def arrive (p : Packet) (s : State) : State :=
  match (if behindPair s s.net p || parkFull s p then none else deliverPacket p s) with
  | some s1 => s1
  | none => { s with net := s.net ++ [p] }

/-- A tc0 packet that goes on from here and came above its input port's rate is carried at tc1 priority (R306). -/
def policed (p : Packet) (s : State) : State × Packet :=
  if p.tc != 0 || 64 ≤ p.via then (s, p)
  else
    let x := portNow s p.via
    if 128 * flits p ≤ x.inBucket then (s.setPort p.via { x with inBucket := x.inBucket - 128 * flits p }, p)
    else (s, { p with slow := true })

/-- PACKET_ARRIVAL (R309): a packet that reaches this device by port `via`; one for another device goes to the router. None
arrives while the fabric is disabled (R299). -/
def execPacketArrival (p : Packet) (s : State) : Host.Outcome State Fault Refusal :=
  if !fabricOn s then .next s
  else if p.ddev == devId s && !p.mc then .next (arrive p s)
  else .next (match policed p s with | (s1, q) => { s1 with net := s1.net ++ [q] })

/-- CARRY_ARRIVAL (R326). -/
def execCarryArrival (p : Packet) (s : State) : Host.Outcome State Fault Refusal :=
  .next (if fabricOn s then arrive { p with kind := .carry } s else s)

/-- PULL_LOAD (R325): off, n and the issuing device of a load for this member, with its generation. -/
def execPullLoad (ctx grp ver : Nat) (seq : Stamp) (off n frm : Nat) (s : State) : Host.Outcome State Fault Refusal :=
  let p : Packet :=
    { newPacket s (devId s) 1 .pullLoad ctx seq.gen with
      sdev := frm, mc := true, grp, ver, seq := seq.seq, addr := off, data := natLe 4 n }
  .next (if fabricOn s then arrive p s else s)

/-! ### The router -/

/-- A packet that reaches no port is returned with status 5 (R300, R304), about the device it was for; one that no command
waits for is returned to be logged, and such a return goes no further (log 84). -/
def bounce (p : Packet) (s : State) : State :=
  let about := if p.mc then (devicesOf p.dests).headD p.ddev else p.ddev
  let back := { ackOf s p 5 [] with key := BitVec.ofNat 32 about }
  match p.kind with
  | .drain => if returned p then { s with dropped := s.dropped + 1 } else s.send { p with ddev := p.sdev, arg := p.arg ||| 4#64, hop := 0 }
  | .readReq | .write | .accUpdate | .flagSet | .carry | .token | .contribution | .pullLoad | .groupUpdate => s.send back
  | .ack => if p.ver == 2 && p.mbr < 16 then { s with dropped := s.dropped + 1 } else s.send { back with ver := 2 }
  | _ => s.send { back with ver := 2 }

/-- A marker leaves a router, or is returned, only behind the packets of its group slot, or of its context on its class (R319,
R401, R415). -/
def markerHeld (before : List Packet) (p : Packet) : Bool :=
  p.kind == .drain && before.any fun q => q.kind != .drain &&
    (if p.arg.toNat % 4 == 0 then q.grp == p.grp && q.ver == p.ver && q.key == p.key else q.ctx == p.ctx && q.tc == p.tc)

/-- The router takes one packet on (R301, R302, R305, R317). -/
def forward (p : Packet) (s : State) : State :=
  let before := s.net.takeWhile fun q => q != p
  if !fabricOn s || !s.net.contains p || behindPair { s with park0 := [], park1 := [] } before p || markerHeld before p then s
  else
    let s0 := { s with net := s.net.erase p }
    let here : BitVec 1024 := 1#1024 <<< devId s
    if p.mc then
      let out := copies s p.dests
      if !(out.1.all fun e => mayLeave s0 e.1 p) then s
      else
        let s1 := out.1.foldl (fun s e => sendOut e.1 { p with dests := e.2 } s) s0
        let s2 := (devicesOf out.2).foldl (fun s d => bounce { p with dests := 1#1024 <<< d } s) s1
        if p.dests.getLsbD (devId s) then
          match (if parkFull s2 p then none else deliverPacket { p with dests := here } s2) with
          | some s3 => s3
          | none => { s2 with net := s2.net ++ [{ p with dests := here }] }
        else s2
    else if p.ddev == devId s then if parkFull s0 p then s else (deliverPacket p s0).getD s
    else
      match outPort s0 p with
      | none => bounce p s0
      | some (k, q) => if mayLeave s0 k q then sendOut k q s0 else s

/-- PACKET_FORWARD (R301). -/
def execPacketForward (p : Packet) (s : State) : Host.Outcome State Fault Refusal := .next (forward p s)

/-- The park buffer of a packet's junction die emptied. -/
def clearPark (p : Packet) (s : State) : State := if junctionOf p.via == 1 then { s with park1 := [] } else { s with park0 := [] }

/-- Parked packets in order of arrival: the first of each class that still misses holds the class back, and one that now misses
another page is reported for it; structural on the packets (R311). -/
def releaseParked (blocked : List Nat) (kept : List Packet) : List Packet → State → List Packet × State
  | [], s => (kept, s)
  | p :: t, s =>
    if blocked.contains p.tc then releaseParked blocked (kept ++ [p]) t s
    else
      match deliverPacket p s with
      | none => releaseParked (p.tc :: blocked) (kept ++ [p]) t s
      | some s1 =>
        match parkOf s1 p with
        | [] => releaseParked blocked kept t s1
        | q :: _ => releaseParked (p.tc :: blocked) (kept ++ [q]) t (if q.imd == p.imd then s else clearPark p s1)

/-- PARK_BUFFER_RELEASE (R311). -/
def execParkBufferRelease (jd : Nat) (s : State) : Host.Outcome State Fault Refusal :=
  if jd == 0 then
    match releaseParked [] [] s.park0 { s with park0 := [] } with
    | (l, s1) => .next { s1 with park0 := l ++ s1.park0 }
  else
    match releaseParked [] [] s.park1 { s with park1 := [] } with
    | (l, s1) => .next { s1 with park1 := l ++ s1.park1 }

/-- WRITE_ACKNOWLEDGE (R143). -/
def execWriteAcknowledge (cl : Nat) (s : State) : Host.Outcome State Fault Refusal :=
  .next (s.modCl cl fun x => { x with wack := x.wack - 1 })

end Sys2Proof.Machine
end

