-- ==== Sys2Proof/Machine/Engines.lean ====
section
/-! DEFINITION. Commands of every queue as the device moves them: acceptance, start, retirement, markers, merged reads,
updates, replay (R128 to R130, R137, R139, R143, R146). -/

namespace Sys2Proof.Machine

/-- A command of the fabric path or of the collective engine, which runs on while its task is saved (R330). -/
def runsOn (u : Unit6) : Bool := u == .fabric || u == .collective

/-- The fabric kicks that agent `who` of a cluster has left in the image of a spilled task are accepted where they can be
(R330). -/
def acceptAway (cl who : Nat) (s : State) : State :=
  (s.spilled.filter fun p => p.from_ == cl).foldl (fun s p =>
    match KMap.get? p.image.kicks who with
    | some k =>
      if k.accepted || !runsOn k.cmd.unit then s
      else
        match acceptCmd k.cmd s with
        | some s1 => s1.modHome p.ctx cl fun x => { x with kicks := KMap.set x.kicks who { k with accepted := true } }
        | none => s
    | none => s) s

/-- COMMAND_ACCEPTANCE (R128): the kick of agent `who`; a pre-empted task's waits, but for a fabric command (R147, R330). -/
def execCommandAcceptance (cl who : Nat) (s : State) : Host.Outcome State Fault Refusal :=
  let on := (KMap.get? (s.cl cl).kicks who).any fun k => runsOn k.cmd.unit
  .next (acceptAway cl who (if on || (s.cl cl).task.all fun t => t.state != .saved then tryAccept cl who s else s))

/-! ### Start (R129) -/

/-- `efset` starts: the flag is written and the command retires (R356). -/
def startFlagWrite (c : Cmd) (s : State) : State :=
  match coord s c.ctx c.cl c.dst false with
  | .error e => if c.parked.isEmpty then parkItem c 0 e c.dst (s.setCmd { c with started := true }) else s
  | .ok (cl, off) =>
    if away s c.ctx cl || !c.parked.isEmpty then s
    else
      let k := { c with started := true, items := NSet.insert c.items 0 }
      let s1 := if c.items.contains 0 then s else s.setFlagOf cl ((off - 0x300000) / 4) (c.opx == 0)
      retireCmd k true (s1.setCmd k)

/-- A command that only has to be ready. -/
def markStarted (c : Cmd) (s : State) : State := if c.started || !c.ready s then s else s.setCmd { c with started := true }

/-- A command starts, or goes on. One of a saved task that has not started waits for its task, but for a fabric command (R147,
R330). -/
def moveCmd (c : Cmd) (s : State) : State :=
  if !c.started && !runsOn c.unit && away s c.ctx c.cl then s
  else
    match c.unit with
    | .copy =>
      if c.op == opEacc || c.op == opEmark then fillUp c (markStarted c s)
      else if c.op == opEfset then if c.started || c.ready s then startFlagWrite c s else s
      else startCopy c s
    | .sluice => startRoute c s
    | .batcher => markStarted c s
    | .compaction => startAppend c s
    | .fabric => startFabric c s
    | .collective => startColl c s

/-- COMMAND_START (R129). -/
def execCommandStart (u : Unit6) (cl : Nat) (seq : BitVec 32) (s : State) : Host.Outcome State Fault Refusal :=
  match s.cmd? u cl seq with
  | none => .next s
  | some c => .next (moveCmd c s)

/-! ### Retirement (R130, R287, R313) -/

/-- Commands that a rule of their own retires: markers, arming commands, `egroup`. -/
def retiresApart (c : Cmd) : Bool :=
  (c.unit == .copy && c.op == opEmark) || (c.unit == .compaction && c.opx == 1 && !c.flagged) || (c.unit == .fabric && c.op == opEgroup)

/-- COMMAND_RETIREMENT (R130). -/
def execCommandRetirement (u : Unit6) (cl : Nat) (seq : BitVec 32) (s : State) : Host.Outcome State Fault Refusal :=
  match s.cmd? u cl seq with
  | none => .next s
  | some c =>
    if u == .compaction && c.next == 1 && !c.flagged then .next (endArm c s)
    else if retiresApart c then .next s
    else if u == .sluice then
      match roundAt s c.die c.ctx c.roundNum with
      | some r => .next (retireRound c r s)
      | none => .next s
    else .next (if mayRetire s c || (u == .compaction && c.flagged) then retireCmd c (c.follow != .failed) s else s)

/-- Whether a command that a marker waits for is still held, or kicked and not yet accepted. -/
def markHeld (s : State) (c : Cmd) (m : Unit6 × BitVec 32 × Nat) : Bool :=
  (s.cmdAt m.1 c.cl m.2.1 m.2.2).isSome
    || (s.cl c.cl).kicks.any fun k => !k.2.accepted && k.2.cmd.unit == m.1 && k.2.cmd.seq == m.2.1 && k.2.cmd.gang == m.2.2

/-- MARKER_RETIRE (R143): every command before the marker in its queues has retired, the matrix queue is empty where
it is named, and no write is unacknowledged. The flag is set once. -/
def execMarkerRetire (cl : Nat) (seq : BitVec 32) (s : State) : Host.Outcome State Fault Refusal :=
  match s.cmd? .copy cl seq with
  | none => .next s
  | some c =>
    let matrix := bit c.n0 1 && slabFillsOwed s cl
    let open_ := c.marks.any (markHeld s c) || matrix || (s.cl cl).writeAcks != 0
    if c.op != opEmark || !c.started || (!c.flagged && open_) || !c.parked.isEmpty then .next s
    else
      let k := { c with flagged := true }
      .next (retireCmd k true (if c.flagged || exited s c then s else (s.setFlagOf cl c.flag true).setCmd k))

/-! ### Merged reads (R146) -/

/-- Whether a command may be served by a merged read: an `ecopy` that is ready, from device memory or the pinned space. -/
def mergeable (die : Nat) (s : State) (c : Cmd) : Bool :=
  c.unit == .copy && c.op == 0 && c.die == die && !c.started && c.ready s && c.kind false == 1 &&
    match translate c.who c.src false true s with
    | .ok (_, x) => (match x.tgt with | .dev _ => true | .pinned _ _ => true | _ => false)
    | .error _ => true

/-- What merged commands agree in: source, shape, strides, format, context, superstep. -/
def mergeKey (c : Cmd) : List Nat := [c.src, c.f 127 64, c.f 351 256, c.f 479 448, c.ctx, c.gen.toNat]

/-- Commands in ascending cluster id. -/
def insertCmd (c : Cmd) : List Cmd → List Cmd
  | [] => [c]
  | k :: t => if c.cl < k.cl then c :: k :: t else k :: insertCmd c t

/-- COMBINING_NODE_MERGE (R146): the commands are served as if each read for itself, in ascending cluster id. -/
def execCombiningNodeMerge (die : Nat) (cmds : List (Nat × BitVec 32)) (s : State) : Host.Outcome State Fault Refusal :=
  let cs := cmds.filterMap fun k => s.cmd? .copy k.1 k.2
  match cs with
  | [] => .next s
  | c0 :: _ =>
    let ok := cs.all (fun c => mergeable die s c && mergeKey c == mergeKey c0)
      && (cs.map (·.cl)).eraseDups.length == cs.length
    .next (if ok then (cs.foldl (fun l c => insertCmd c l) []).foldl (fun s c => startCopy c s) s else s)

/-- EACC_UPDATE (R139): the next element of a command that has started. -/
def execEaccUpdate (cl : Nat) (seq : BitVec 32) (s : State) : Host.Outcome State Fault Refusal :=
  match s.cmd? .copy cl seq with
  | none => .next s
  | some c => .next (if c.op == opEacc && c.started && !c.cancelled then nextUpdate c s else s)

/-! ### Replay (R137, R392) -/

/-- The commands of a context on a die that have parked items, each engine's in issue order. -/
def parkedCmds (s : State) (die ctx : Nat) : List Cmd :=
  let all := s.clusters.flatMap fun e => e.2.cmds.filter fun c => c.die == die && c.ctx == ctx && !c.parked.isEmpty
  let rec insert (c : Cmd) : List Cmd → List Cmd
    | [] => [c]
    | k :: t => if c.unit == k.unit && c.cl == k.cl && seqBefore c.seq k.seq then c :: k :: t else k :: insert c t
  all.foldl (fun l c => insert c l) []

/-- Every parked element of a context on a die is issued again. -/
def replayCommands (die ctx : Nat) (s : State) : State :=
  (parkedCmds s die ctx).foldl (fun s c =>
    match s.cmdOf c with
    | none => s
    | some k =>
      let k1 := { k with parked := [] }
      moveCmd k1 (s.setCmd k1)) s

/-! ### Discarding (R148, R330) -/

/-- The commands held for which `pick` holds, those saved with a spilled task too. -/
def State.held (s : State) (pick : Cmd → Bool) : List Cmd :=
  (s.clusters.flatMap fun e => e.2.cmds.filter pick) ++ s.spilled.flatMap fun p => p.image.cmds.filter pick

/-- The commands for which `gone` holds are discarded, with their fills, rounds and packets, those saved with a spilled task
too; their owed lines keep what they held. -/
def discardCmds (gone : Cmd → Bool) (s : State) : State :=
  let cs := s.held gone
  let s2 := s.dropFills fun f => cs.any fun c => f.of c
  let s3 := forgetRounds (fun r => !(cs.any fun c => c.unit == .sluice && c.cl == r.cl && c.seq == r.seq && c.gang == r.gang)) s2
  let keep (x : Cluster) : Cluster := { x with cmds := x.cmds.filter fun c => !gone c }
  { s3 with
    clusters := s3.clusters.map fun e => (e.1, keep e.2)
    spilled := s3.spilled.map fun p => { p with image := keep p.image } }

end Sys2Proof.Machine
end

