-- ==== Sys2Proof/Machine/Matrix.lean ====
section
/-! DEFINITION. Tiles, groves and the M instructions (chapter 10), and follow-on words (R141, R262). -/

namespace Sys2Proof.Machine

/-! ### Tiles and groves -/

/-- The key of tile (row, column) of a die. -/
def tileKey (row col : Nat) : Nat := 24 * row + col

def State.tile (s : State) (d k : Nat) : Tile := KMap.getD (s.die d).tiles k Tile.reset

def State.modTile (s : State) (d k : Nat) (f : Tile → Tile) : State :=
  s.modDie d fun x => { x with tiles := KMap.modify x.tiles k Tile.reset f }

/-- The home corner of a cluster (R239). -/
def cornerOf (c : Nat) : Nat × Nat := (2 * rowOf c, 2 * colOf c)

/-- The home cluster of a tile of die `d`. -/
def homeOf (d k : Nat) : Nat := clusterId d (k / 24 / 2) (k % 24 / 2)

/-- The key of tile (r, c) of a grove (R240). -/
def Grove.at (g : Grove) (r c : Nat) : Nat := tileKey (g.row + r) (g.col + c)

/-- Every tile of a grove. -/
def Grove.tiles (g : Grove) : List Nat := (List.range (g.h * g.w)).map fun k => g.at (k / g.w) (k % g.w)

/-- The grove of the executing cluster, or 0x12 (R241). -/
def myGrove : Act Grove := do
  let s ← get
  let g := (s.cl s.selfCl).grove
  if g.h == 0 then trap 0x12#8 else pure g

def setGrove (f : Grove → Grove) : Act Unit := modify fun s => s.modCl s.selfCl fun x => { x with grove := f x.grove }

/-- Element (i, j) of set `n`. -/
def Tile.elem (t : Tile) (n i j : Nat) : BitVec 32 := KMap.getD t.acc (4096 * n + 64 * i + j) 0#32

def Tile.line (t : Tile) (sl n : Nat) : Vec := KMap.getD t.lines (64 * sl + n) 0#1024

def Tile.state (t : Tile) (sl n : Nat) : SlabLine := KMap.getD t.states (64 * sl + n) .free

def Tile.anyLine (t : Tile) (sl : Nat) (x : SlabLine) : Bool := (List.range 64).any fun n => t.state sl n == x

/-- The format tag of a slab; meaningful while a line is owed or full (R238). -/
def Tile.tag (t : Tile) (sl : Nat) : Nat := (KMap.getD t.tags sl 9#64).toNat

/-- The value of an accumulator element as an exact number: an INT32 or an FP32 code, 0 where it has none. -/
def elemDyadic (int : Bool) (v : BitVec 32) : Dyadic :=
  if int then ⟨v.toInt, 0⟩
  else
    match val32 v.toNat with
    | .num n m e _ => ⟨if n then -(m : Int) else m, e⟩
    | _ => ⟨0, 0⟩

/-- An exact sum. -/
def Dyadic.add (a b : Dyadic) : Dyadic :=
  if a.m == 0 then b
  else if b.m == 0 then a
  else
    let e := min a.e b.e
    ⟨a.m * 2 ^ (a.e - e).toNat + b.m * 2 ^ (b.e - e).toNat, e⟩

/-- Keys `lo` to `hi - 1` of a map replaced by entries in that range. -/
def spliceMap {α : Type} (m : KMap α) (lo hi : Nat) (new : KMap α) : KMap α :=
  (m.filter fun e => e.1 < lo) ++ new ++ (m.filter fun e => hi ≤ e.1)

/-- Set `n` written: element (i, j) becomes `g i j`, of integer kind or not, and the checksum cells follow (R236,
R260). -/
def Tile.writeSet (t : Tile) (n : Nat) (int : Bool) (g : Nat → Nat → BitVec 32) : Tile :=
  let els := (List.range 4096).map fun k => (4096 * n + k, g (k / 64) (k % 64))
  let vals := els.map fun e => elemDyadic int e.2
  let rowSum (i : Nat) : Dyadic := (List.range 64).foldl (fun a j => a.add (vals.getD (64 * i + j) ⟨0, 0⟩)) ⟨0, 0⟩
  let colSum (j : Nat) : Dyadic := (List.range 64).foldl (fun a i => a.add (vals.getD (64 * i + j) ⟨0, 0⟩)) ⟨0, 0⟩
  let cells := (List.range 128).map fun k => (128 * n + k, if k < 64 then rowSum k else colSum (k - 64))
  let m : BitVec 4 := 1#4 <<< n
  { t with
    acc := spliceMap t.acc (4096 * n) (4096 * n + 4096) (els.filter fun e => e.2 != 0#32)
    cells := spliceMap t.cells (128 * n) (128 * n + 128) (cells.filter fun e => e.2.m != 0)
    accBad := t.accBad.filter fun k => k / 4096 != n
    ints := if int then t.ints ||| m else t.ints &&& ~~~m }

/-- Set `n` all zero, with its cells. -/
def Tile.zeroSet (t : Tile) (n : Nat) : Tile :=
  { t with
    acc := spliceMap t.acc (4096 * n) (4096 * n + 4096) []
    cells := spliceMap t.cells (128 * n) (128 * n + 128) []
    accBad := t.accBad.filter fun k => k / 4096 != n
    ints := t.ints &&& ~~~(1#4 <<< n) }

/-- A tile with every set zero and every slab line free; what was in error is gone. -/
def Tile.clear (t : Tile) : Tile :=
  { t with acc := [], cells := [], lines := [], states := [], tags := [], ints := 0#4, lineBad := [], accBad := [], upset := false }

/-- A set is settled, and kept or not (R243). -/
def Grove.settle (g : Grove) (n : Nat) (keep : Bool) : Grove :=
  let m : BitVec 4 := 1#4 <<< n
  { g with settled := g.settled ||| m, kept := if keep then g.kept ||| m else g.kept }

def Grove.unsettle (g : Grove) (n : Nat) : Grove :=
  let m : BitVec 4 := 1#4 <<< n
  { g with settled := g.settled &&& ~~~m, kept := g.kept &&& ~~~m }

/-! ### Formats of the tiles (R235) -/

/-- Integer kind of a format word: `EXP` = 0. -/
def wordInt (w : Nat) : Bool := bits w 3 0 == 0 || bits w 3 0 == 4 || (bits w 3 0 == 11 && bits w 20 17 == 0)

def wordAdmitted (w : Nat) : Bool := [0, 4, 8, 9, 10, 11].contains (bits w 3 0)

/-- Two sources of a product of type `t` fit each other (R235, R250). -/
def pairOk (t : Ty) (a b : Nat) : Bool :=
  wordAdmitted a && wordAdmitted b && slotBits a == slotBits b && wordInt a == wordInt b && wordInt a == (t == .i32)

/-- The value of a code of an integer format. -/
def codeInt (w c : Nat) : Int :=
  let f := fmtOfWord w
  if f.s then sx f.width c else ((c % 2 ^ f.width : Nat) : Int)

/-- Steps of one slab's or one line's K. -/
def stepsOf (z : Nat) : Nat := if 16 ≤ z then 1 else 16 / z

/-- An exact sum of terms; NaN and infinities as R69 has them, and −0 only where every term is −0. -/
def sumExact (ts : List Val) : Val :=
  if ts.any Val.isNan || (ts.any (fun v => v == .inf true) && ts.any (fun v => v == .inf false)) then .nan
  else if ts.any (fun v => v == .inf true) then .inf true
  else if ts.any (fun v => v == .inf false) then .inf false
  else
    let e0 := ts.foldl (fun e v => match v with | .num _ _ x _ => min e x | _ => e) 0
    let sum := ts.foldl (fun (a : Int) v => match v with | .num n m x _ => a + scaledInt n m x e0 | _ => a) 0
    .ofInt sum e0 (ts.all fun v => v.isZero && v.neg?)

/-- A row of an operand: its format word and its codes by K position. -/
abbrev Row := Nat × (Nat → Nat)

/-- One step of an element (R69 to R71): step number, rows, the block scales of R70 where there are any. -/
def elemStep (int : Bool) (rm : Rm) (st : Nat) (a b : Row) (scale : Option ((Nat → Val) × (Nat → Val)))
    (acc : BitVec 32) : BitVec 32 :=
  let term (k : Nat) : Val := (decodeVal (fmtOfWord a.1) (a.2 k)).mul (decodeVal (fmtOfWord b.1) (b.2 k))
  if int then
    BitVec.ofInt 32 (intStep acc.toInt ((List.range 64).map fun k => codeInt a.1 (a.2 (64 * st + k)) * codeInt b.1 (b.2 (64 * st + k))))
  else
    match scale with
    | none => BitVec.ofNat 32 (tileStep (val32 acc.toNat) ((List.range 64).map fun k => term (64 * st + k)) rm)
    | some (sa, sb) =>
      BitVec.ofNat 32 (tileStep (val32 acc.toNat) ((List.range 2).map fun h =>
        ((sa (2 * st + h)).mul (sb (2 * st + h))).mul
          (sumExact ((List.range 32).map fun k => term (64 * st + 32 * h + k)))) rm)

/-- Where a product takes its rows from: the number of steps that tile (r, c) makes, A row i of tile row r (none: left
unchanged), B row j of tile (r, c), and the scales of both. -/
structure Feed where
  steps : Nat → Nat → Nat
  rowA : Nat → Nat → Nat → Option Row
  rowB : Nat → Nat → Nat → Row
  scale : Option ((Nat → Nat → Nat → Val) × (Nat → Nat → Nat → Val))

/-- One step over every tile of the grove of cluster `cl` that makes it (R236); the set becomes unsettled (R243). An error in
the sums of a tile is caught before in checked mode; else the tile's elements are what it made of them (R260; log 72). -/
def feedStep (cl n : Nat) (int : Bool) (rm : Rm) (f : Feed) (st : Nat) (s : State) : State :=
  let g := (s.cl cl).grove
  let s1 := (List.range (g.h * g.w)).foldl (fun s k =>
    let r := k / g.w
    let c := k % g.w
    if f.steps r c ≤ st then s
    else
      s.modTile (dieOf cl) (g.at r c) fun t =>
        { t with upset := false }.writeSet n int fun i j =>
          match f.rowA r c i with
          | none => t.elem n i j
          | some a =>
            if t.upset then Config.upsetElem s.tick (64 * i + j)
            else elemStep int rm st a (f.rowB r c j) (f.scale.map fun (x : (Nat → Nat → Nat → Val) × (Nat → Nat → Nat → Val)) => (x.1 r i, x.2 c j)) (t.elem n i j)) s
  s1.modCl cl fun x => { x with grove := x.grove.unsettle n }

/-- A step of a product instruction: bin, step within the bin, effect. -/
abbrev MStep := Nat × Nat × (State → State)

/-- An accumulator element of set `n`, of those that `rows` picks, with a parity error in a tile of the grove: 0xC6 at an M
instruction that reads it (R260, R405). -/
def checkAcc (n : Nat) (at_ : Nat → Nat → Bool) : Act Unit := do
  let s ← get
  let bad := (s.cl s.selfCl).grove.tiles.any fun k =>
    (s.tile (dieOf s.selfCl) k).accBad.any fun e => e / 4096 == n && at_ k (e % 4096 / 64)
  if bad then checkStop 0xC6#8 else pure ()

/-- In checked mode a step whose sums are wrong in some tile writes nothing and raises 0xC5 (R260). -/
def checkSums : Act Unit := do
  let s ← get
  let g := (s.cl s.selfCl).grove
  if g.checked && g.tiles.any fun k => (s.tile (dieOf s.selfCl) k).upset then checkStop 0xC5#8 else pure ()

/-- The steps of a product into set `n` that the progress register does not record as done are performed, `limit` of them at
most; whether the instruction is complete (R265). -/
def runSteps (own : Bool) (limit : Option Nat) (n : Nat) (l : List MStep) : Act Bool := do
  checkAcc n fun _ _ => true
  checkSums
  let s ← get
  let dp := s.selfDp
  let p := (s.cl s.selfCl).progress
  let todo : List MStep := match p with
    | some q => if own && q.dp == dp then l.filter fun m => q.bins < m.1 || (q.bins == m.1 && q.steps ≤ m.2.1) else l
    | none => l
  let now : List MStep := match limit with
    | some n => todo.take n
    | none => todo
  set (now.foldl (fun (s : State) (m : MStep) => m.2.2 s) s)
  match todo.drop now.length with
  | [] =>
    if own then modify fun (s : State) => s.modCl s.selfCl fun x => { x with progress := none } else pure ()
    pure true
  | m :: _ =>
    modify fun (s : State) => s.modCl s.selfCl fun x => { x with progress := some ⟨dp, m.1, m.2.1⟩ }
    pure false

/-! ### Slabs as sources -/

/-- The code at K position `k` of slab row `r` (R238). -/
def slabCode (t : Tile) (sl z r k : Nat) : Nat :=
  if z == 32 then ((t.line (sl + k / 32) r).toNat >>> (32 * (k % 32))) % 2 ^ 32
  else ((t.line sl r).toNat >>> (z * k)) % 2 ^ z

/-- The slabs that a source occupies: two where it is tagged FP32. -/
def slabRun (t : Tile) (sl : Nat) : List Nat := if bits (t.tag sl) 3 0 == 10 then [sl, sl + 1] else [sl]

/-- Whether every line of a slab is owed or full, so that its tag counts (R238). -/
def slabKnown (t : Tile) (sl : Nat) : Bool := !t.anyLine sl .free

/-- The slabs of a source whose tags count. -/
def knownRun (t : Tile) (sl : Nat) : List Nat := ((if slabKnown t sl then slabRun t sl else [sl]).filter fun k => slabKnown t k)

/-- Whether a source slab of a tile has a free line. -/
def slabFree (t : Tile) (sl : Nat) : Bool := !slabKnown t sl || (slabRun t sl).any fun k => !slabKnown t k

def slabOwed (t : Tile) (sl : Nat) : Bool := (slabRun t sl).any fun k => t.anyLine k .owed

/-- A line of a source slab has a parity error (R405). -/
def slabBad (t : Tile) (sl : Nat) : Bool := t.lineBad.any fun n => (slabRun t sl).contains (n / 64)

/-- What a source's tags alone make unfit for a product of type `t`: a format, a kind, or two tags in one FP32 source. -/
def tagsBad (t : Ty) (x : Tile) (sl : Nat) : Bool :=
  let ws := (knownRun x sl).map x.tag
  ws.any (fun w => !wordAdmitted w || wordInt w != (t == .i32)) || 1 < ws.eraseDups.length

/-- The step mode of `RMS` (R246). -/
def stepMode (rms : BitVec 2) : Rm := rmOfCode rms.toNat 0

/-- Steps of a product over the grove of cluster `cl`: as many as the tile that makes the most. -/
def slabSteps (cl n : Nat) (t : Ty) (rms : BitVec 2) (g : Grove) (f : Feed) : List MStep :=
  (List.range (((List.range (g.h * g.w)).map fun k => f.steps (k / g.w) (k % g.w)).foldl max 0)).map fun st =>
    (0, st, feedStep cl n (t == .i32) (stepMode rms) f st)

/-- Pairs (tile of A, tile of B) that a slab product reads: `mrot` reads both in each tile. -/
def slabPairs (g : Grove) (local_ : Bool) : List (Nat × Nat) :=
  (List.range (g.h * g.w)).map fun k =>
    let r := k / g.w
    let c := k % g.w
    if local_ then (g.at r c, g.at r c) else (g.at r 0, g.at 0 c)

/-- The checks of a product over slabs sa and sb, with the scale slabs, in the order of R268. -/
def checkSlabs (t : Ty) (sa sb : Nat) (local_ : Bool) (scale : Option (Nat × Nat × Nat × Nat)) : Act Unit := do
  let g ← myGrove
  let s ← get
  let d := dieOf s.selfCl
  let ps := (slabPairs g local_).map fun p => (s.tile d p.1, s.tile d p.2)
  let fp32 (x : Tile) (sl : Nat) : Bool := slabKnown x sl && bits (x.tag sl) 3 0 == 10
  trapIf (ps.any fun p => (sa % 2 == 1 && fp32 p.1 sa) || (sb % 2 == 1 && fp32 p.2 sb)) 0x05#8
  match scale with
  | some (_, ca, _, cb) =>
    trapIf (ps.any fun p =>
      (slabKnown p.1 sa && 64 < ca + 2 * stepsOf (slotBits (p.1.tag sa)))
        || (slabKnown p.2 sb && 64 < cb + 2 * stepsOf (slotBits (p.2.tag sb)))) 0x05#8
  | none => pure ()
  trapIf (local_ && g.h != g.w) 0x13#8
  let bad (p : Tile × Tile) : Bool :=
    tagsBad t p.1 sa || tagsBad t p.2 sb
      || (slabKnown p.1 sa && slabKnown p.2 sb && !pairOk t (p.1.tag sa) (p.2.tag sb))
      || (match scale with
        | some (qa, _, qb, _) =>
          (slabKnown p.1 qa && bits (p.1.tag qa) 3 0 != 9) || (slabKnown p.2 qb && bits (p.2.tag qb) 3 0 != 9)
            || (slabKnown p.1 sa && (8 < slotBits (p.1.tag sa) || wordInt (p.1.tag sa)))
            || (slabKnown p.2 sb && (8 < slotBits (p.2.tag sb) || wordInt (p.2.tag sb)))
        | none => false)
  trapIf (ps.any bad) 0x09#8
  let scales (p : Tile × Tile) (x : SlabLine) : Bool :=
    match scale with
    | some (qa, _, qb, _) => p.1.anyLine qa x || p.2.anyLine qb x
    | none => false
  trapIf (ps.any fun p => slabFree p.1 sa || slabFree p.2 sb || scales p .free) 0x41#8
  waitIf (ps.any fun p => slabOwed p.1 sa || slabOwed p.2 sb || scales p .owed) .owed
  let scaleBad (p : Tile × Tile) : Bool :=
    match scale with
    | some (qa, _, qb, _) => slabBad p.1 qa || slabBad p.2 qb
    | none => false
  if ps.any fun p => slabBad p.1 sa || slabBad p.2 sb || scaleBad p then checkStop 0xC0#8 else pure ()

/-- Rows out of slabs sa and sb as they stand. -/
def slabFeed (s : State) (cl sa sb : Nat) (local_ : Bool) (scale : Option (Nat × Nat × Nat × Nat)) : Feed :=
  let g := (s.cl cl).grove
  let d := dieOf cl
  let row (t : Tile) (sl i : Nat) : Row := (t.tag sl, slabCode t sl (slotBits (t.tag sl)) i)
  let tA (r c : Nat) : Tile := s.tile d (g.at r (if local_ then c else 0))
  let tB (r c : Nat) : Tile := s.tile d (g.at (if local_ then r else 0) c)
  { steps := fun r c => stepsOf (slotBits ((tA r c).tag sa))
    rowA := fun r c i => some (row (tA r c) sa i)
    rowB := fun r c j => row (tB r c) sb j
    scale := scale.map fun q =>
      (fun r i m => decodeVal Fmt.bf16 (slabCode (s.tile d (g.at r 0)) q.1 16 i (q.2.1 + m)),
       fun c j m => decodeVal Fmt.bf16 (slabCode (s.tile d (g.at 0 c)) q.2.2.1 16 j (q.2.2.2 + m))) }

/-- The steps of `mmac` and `mmacs`. -/
def mmacSteps (t : Ty) (acc : BitVec 2) (sa sb : BitVec 3) (rms : BitVec 2) (scale : Option (Nat × Nat × Nat × Nat)) :
    Act (List MStep) := do
  checkSlabs t sa.toNat sb.toNat false scale
  let s ← get
  let cl := s.selfCl
  let g := (s.cl cl).grove
  pure (slabSteps cl acc.toNat t rms g (slabFeed s cl sa.toNat sb.toNat false scale))

/-- The source in slab `sl` moved around the torus: tile (r, c) takes the slabs of it that the tile named by `src` holds
(R251). -/
def rotateSlab (cl sl : Nat) (src : Nat → Nat → Nat × Nat) (s : State) : State :=
  let g := (s.cl cl).grove
  let d := dieOf cl
  (List.range (g.h * g.w)).foldl (fun s' n =>
    let r := n / g.w
    let c := n % g.w
    let o := s.tile d (g.at (src r c).1 (src r c).2)
    (slabRun o sl).foldl (fun s' k =>
      let part (m : KMap Vec) : KMap Vec := m.filter fun e => e.1 / 64 == k
      s'.modTile d (g.at r c) fun t =>
        { t with
          lines := spliceMap t.lines (64 * k) (64 * k + 64) (part o.lines)
          tags := match KMap.get? o.tags k with
            | some w => KMap.set t.tags k w
            | none => KMap.erase t.tags k }) s') s

/-- The steps of `mrot`; the shift is committed with the last one. -/
def mrotSteps (t : Ty) (acc : BitVec 2) (sa sb : BitVec 3) (rms : BitVec 2) : Act (List MStep) := do
  checkSlabs t sa.toNat sb.toNat true none
  let s ← get
  let cl := s.selfCl
  let g := (s.cl cl).grove
  let steps := slabSteps cl acc.toNat t rms g (slabFeed s cl sa.toNat sb.toNat true none)
  let shift (s : State) : State :=
    rotateSlab cl sb.toNat (fun r c => ((r + 1) % g.h, c)) (rotateSlab cl sa.toNat (fun r c => (r, (c + 1) % g.w)) s)
  pure (steps.mapIdx fun i m => if i + 1 == steps.length then (m.1, m.2.1, fun s => shift (m.2.2 s)) else m)

/-! ### Gathered products -/

/-- A line of a scratchpad as a row of A: its bank's format and its codes. -/
def lineRow (w : Nat) (v : Vec) : Row := (w, fun k => (v.toNat >>> (slotBits w * k)) % 2 ^ slotBits w)

/-- A line named by a coordinate address: cluster, offset and format word, or a cause. -/
def lineAt (s : State) (a : Nat) : Except (BitVec 8) (Nat × Nat × Nat) :=
  match coord s s.selfCtx s.selfCl a (a % 128 != 0) with
  | .error e => .error e
  | .ok (c, off) => if inBanks (s.cl c) off then .ok (c, off, fmtWordOf s c (off / 65536)) else .error 0x27#8

/-- The format word of the bank that a coordinate address names, where it names one, alignment aside. -/
def wordThere (s : State) (a : Nat) : Option Nat :=
  match coord s s.selfCtx s.selfCl a false with
  | .error _ => none
  | .ok (c, off) => if inBanks (s.cl c) off then some (fmtWordOf s c (off / 65536)) else none

/-- Whether a source of a product that gathers has an unfit format: not admitted, a 32-bit slot, or of the other kind. -/
def gatherBad (t : Ty) (w : Nat) : Bool := !wordAdmitted w || slotBits w == 32 || wordInt w != (t == .i32)

/-- Lines of A and blocks of B fit: 0x09 wherever it can be seen (R254, R255, R268). -/
def checkWords (t : Ty) (as bs : List Nat) : Act Unit :=
  trapIf (as.any (gatherBad t) || bs.any (gatherBad t) || as.any fun a => bs.any fun b => !pairOk t a b) 0x09#8

/-- The place of a coordinate cause in Table 4.7. -/
def causeRank (c : BitVec 8) : Nat := [0x24#8, 0x28#8, 0x25#8, 0x26#8, 0x27#8].idxOf c

/-- Of the address causes of an instruction, the one listed first in Table 4.7 (R91, R268), at its first address. -/
def raiseFirst (es : List (Nat × BitVec 8)) : Act Unit :=
  match (List.range 6).findSome? fun r => es.find? fun e => causeRank e.2 == r with
  | some (a, e) => trapAt e (BitVec.ofNat 64 a)
  | none => pure ()

/-- The causes of lines. -/
def lineCauses (ls : List (Nat × Except (BitVec 8) (Nat × Nat × Nat))) : List (Nat × BitVec 8) :=
  ls.filterMap fun l => match l.2 with | .ok _ => none | .error e => some (l.1, e)

/-- The lines that a gather reads, as cluster and offset, waited for and fetched (R121, R406). -/
def fetchSpots (ls : List (Nat × Nat)) : Act Unit := do
  ls.forM fun l => awaitLines l.1 [l.2 / 128]
  ls.forM fun l => fetchRows l.1 [l.2 / 128]

/-- A block of 64 lines, waited for and fetched by rows or by columns. -/
def fetchBlock (c off : Nat) (col : Bool) : Act Unit := do
  awaitLines c (blockLines off)
  if col then fetchCols c (blockCols (off / 8192 * 8192) 64) else fetchRows c (blockLines off)

/-- The names that hold the indices of `mgx` are plain and exist (0x0C). -/
def checkIndexNames (h : Nat) (c : Opnd) : Act Unit := do
  let s ← get
  match c with
  | .v _ n => trapIf ((List.range h).any fun r => decide (1535 < n.toNat + r) || (shapeOf (s.cl s.selfCl) (n.toNat + r)).isSome) 0x0C#8
  | _ => pure ()

/-- The index vectors of `mgx`, one for each tile row (R254). -/
def mgxIndices (h : Nat) (c : Opnd) : Act (List Vec) := do
  match c with
  | .v _ n =>
    let s ← get
    if (List.range h).any fun r => (s.cl s.selfCl).nameBad.contains (n.toNat + r) then checkStop 0xC3#8
    else pure ((List.range h).map fun r => KMap.getD (s.cl s.selfCl).vnames (n.toNat + r) 0#1024)
  | .p k =>
    (List.range h).mapM fun _ => do
      let q ← usePointer k.toNat fetchMis
      let v ← rawFetch q.1
      movePointer k.toNat (ptrStride q.2)
      pure v
  | .s _ => trap 0x05#8

/-- The steps of `mgx` (R254). What the slabs show alone comes before the causes of the index stream. -/
def mgxSteps (t : Ty) (acc : BitVec 2) (sb : BitVec 3) (rms : BitVec 2) (a : Opnd) (c : Opnd) : Act (List MStep) := do
  let g ← myGrove
  let s0 ← get
  let cl := s0.selfCl
  let tiles := (List.range g.w).map fun j => s0.tile (dieOf cl) (g.at 0 j)
  trapIf (tiles.any fun b => sb.toNat % 2 == 1 && slabKnown b sb.toNat && bits (b.tag sb.toNat) 3 0 == 10) 0x05#8
  checkIndexNames g.h c
  let bw := (tiles.filter fun b => slabKnown b sb.toNat).map fun b => b.tag sb.toNat
  checkWords t [] bw
  let idx ← mgxIndices g.h c
  let s ← get
  let base := match a with
    | .s n => (s.rd (n.setWidth 6)).toNat
    | _ => 0
  let want := (List.range (64 * g.h)).filterMap fun n =>
    let x := (lanesZ 16 64 (idx.getD (n / 64) 0#1024)).getD (n % 64) 0
    if x == 0xFFFF then none else some (n, (base + 128 * x) % 2 ^ 64)
  let tB (j : Nat) : Tile := s.tile (dieOf cl) (g.at 0 j)
  let bTiles := (List.range g.w).map tB
  let ls := want.map fun p => (p.2, lineAt s p.2)
  checkWords t (want.filterMap fun p => wordThere s p.2) bw
  raiseFirst (lineCauses ls ++ if base % 128 != 0 then [(base, 0x28#8)] else [])
  trapIf (bTiles.any fun b => slabFree b sb.toNat) 0x41#8
  waitIf (bTiles.any fun b => slabOwed b sb.toNat) .owed
  if bTiles.any fun b => slabBad b sb.toNat then checkStop 0xC0#8 else pure ()
  fetchSpots (ls.filterMap fun l => match l.2 with | .ok x => some (x.1, x.2.1) | .error _ => none)
  let s1 ← get
  let rows := want.filterMap fun p =>
    match lineAt s p.2 with
    | .ok x => some (p.1, lineRow x.2.2 (bytesVec (sramRead (s1.cl x.1) x.2.1 128)))
    | .error _ => none
  let f : Feed :=
    { steps := fun _ c => stepsOf (slotBits ((tB c).tag sb.toNat))
      rowA := fun r _ i => KMap.get? rows (64 * r + i)
      rowB := fun _ c j => let b := tB c; (b.tag sb.toNat, slabCode b sb.toNat (slotBits (b.tag sb.toNat)) j)
      scale := none }
  pure (slabSteps cl acc.toNat t rms g f)

/-- A bin entry (Table 10.7). -/
structure BinEntry where
  exp : Nat
  ofs : Nat
  cnt : Nat
  deriving DecidableEq, Repr

/-- A block of weights at a cluster's offset: codes of B row `j`, transposed for `.col` (R248, R255). -/
def blockRow (x : Cluster) (off w : Nat) (col : Bool) (j : Nat) : Row :=
  let cell (rho c : Nat) : Nat :=
    let o := if col then off + 128 * c + 2 * rho else off + 128 * rho + 2 * c
    leNat (sramRead x o 2)
  let z := slotBits w
  let q := 16 / z
  (w, fun k => (cell j (k / q) >>> (z * (k % q))) % 2 ^ z)

/-- Whether `rpol` of an expert holds an uncorrectable error (R405). -/
def badRpol (s : State) (cl e : Nat) : Bool := (s.die (dieOf cl)).coreBad.contains (256 + 0x400 + e)

/-- The steps of `mgrp` (R255). -/
def mgrpSteps (t : Ty) (acc : BitVec 2) (rms : BitVec 2) (a b : Opnd) (nb : BitVec 7) (j : BitVec 8) (ks : BitVec 16) :
    Act (List MStep) := do
  let g ← myGrove
  let s ← get
  let cl := s.selfCl
  let val (o : Opnd) : Nat := match o with | .s n => (s.rd (n.setWidth 6)).toNat | _ => 0
  let tab := val a
  let tok := val b
  let n := nb.toNat
  let p ← liftC tab (coord s s.selfCtx cl tab (tab % 128 != 0))
  if !inBanks (s.cl p.1) p.2 || !inBanks (s.cl p.1) (p.2 + 8 * n - 1) then trapAt 0x27#8 (BitVec.ofNat 64 tab)
  else
    awaitOwed p.1 (linesOf p.2 (8 * n))
    let raw := (List.range n).map fun e => leNat (sramRead (s.cl p.1) (p.2 + 8 * e) 8)
    let bins : List BinEntry := raw.map fun v => ⟨bits v 41 32, bits v 31 16, bits v 15 0⟩
    let pol (e : BinEntry) : Nat := (KMap.getD (s.die (dieOf cl)).rpol e.exp 0#64).toNat
    trapIf (raw.any fun v => bits v 63 42 != 0) 0x16#8
    trapIf (64 * g.h < (bins.map (·.cnt)).sum) 0x16#8
    checkIf (bins.any fun e => 0 < e.cnt && badRpol s cl e.exp) 0xC3#8
    trapIf (bins.any fun e => 0 < e.cnt &&
      (bits (pol e) 63 62 == 0 || bits (pol e) 61 44 != 0 || bits (pol e) 42 41 != 0 || bits (pol e) 31 22 != 0
        || bits (pol e) 12 0 != 0 || 383 < bits (pol e) 40 32 || dieOf (bits (pol e) 40 32) != dieOf cl)) 0x16#8
    let live := bins.mapIdx (fun k e => (k, e, ((bins.take k).map (·.cnt)).sum)) |>.filter fun x => 0 < x.2.1.cnt
    let lineAddr (e : BinEntry) (i : Nat) : Nat := (tok + 128 * (e.ofs + i) + 128 * ks.toNat * j.toNat) % 2 ^ 64
    let ls := live.flatMap fun x => (List.range x.2.1.cnt).map fun i => (lineAddr x.2.1 i, lineAt s (lineAddr x.2.1 i))
    let blockOff (e : BinEntry) (c : Nat) : Nat := bits (pol e) 21 0 + (j.toNat * g.w + c) * 0x2000
    let blockCl (e : BinEntry) : Nat := bits (pol e) 40 32
    let blocks := live.flatMap fun x => (List.range g.w).map fun c => (blockCl x.2.1, blockOff x.2.1 c)
    let blockCause (q : Nat × Nat) : Option (BitVec 8) :=
      if !s.granted s.selfCtx cl q.1 then some 0x26#8 else if !inBanks (s.cl q.1) q.2 then some 0x27#8 else none
    let word (q : Nat × Nat) : Nat := fmtWordOf s q.1 (q.2 / 65536)
    let bws := (blocks.filter fun q => (blockCause q).isNone).map word
    checkWords t [] bws
    live.forM fun x =>
      checkWords t ((List.range x.2.1.cnt).filterMap fun i => wordThere s (lineAddr x.2.1 i))
        ((((List.range g.w).map fun c => (blockCl x.2.1, blockOff x.2.1 c)).filter fun q => (blockCause q).isNone).map word)
    raiseFirst (lineCauses ls ++ blocks.filterMap fun q => (blockCause q).map fun e => (q.2, e))
    fetchSpots (ls.filterMap fun l => match l.2 with | .ok x => some (x.1, x.2.1) | .error _ => none)
    live.forM fun x => (List.range g.w).forM fun c => fetchBlock (blockCl x.2.1) (blockOff x.2.1 c) (bit (pol x.2.1) 43)
    let s1 ← get
    pure (live.flatMap fun x =>
      let e := x.2.1
      let rho := x.2.2
      let rows := (List.range e.cnt).filterMap fun i =>
        match lineAt s (lineAddr e i) with
        | .ok y => some (rho + i, lineRow y.2.2 (bytesVec (sramRead (s1.cl y.1) y.2.1 128)))
        | .error _ => none
      let f : Feed :=
        { steps := fun _ c => stepsOf (slotBits (word (blockCl e, blockOff e c)))
          rowA := fun r _ i => KMap.get? rows (64 * r + i)
          rowB := fun _ c k => blockRow (s1.cl (blockCl e)) (blockOff e c) (word (blockCl e, blockOff e c)) (bit (pol e) 43) k
          scale := none }
      (slabSteps cl acc.toNat t rms g f).map fun m => (x.1, m.2.1, m.2.2))

/-! ### Fills, releases and moves -/

/-- The value of a scalar operand. -/
def scalarOf (s : State) (o : Opnd) : Nat := match o with | .s n => (s.rd (n.setWidth 6)).toNat | _ => 0

/-- The place of a memory operand where it names one at all, checks of alignment aside. -/
def looseSpot (s : State) (o : Opnd) (col : Bool) : Option Spot :=
  let own := s.selfCl
  match o with
  | .p k =>
    let v := ptrVal (s.cl own) k.toNat ((s.cl own).walk s.here.2).dp
    if inBanks (s.cl own) (bits v 21 0) then some ⟨own, bits v 21 0, bit v 60, BitVec.ofNat 64 (bits v 21 0)⟩ else none
  | .s k =>
    let a := s.rd (k.setWidth 6)
    match coord s s.selfCtx own a.toNat false with
    | .ok (c, off) => if inBanks (s.cl c) off then some ⟨c, off, col, a⟩ else none
    | .error _ => none
  | .v _ _ => none

/-- `mfill` (R248): the block is read at issue, and its lines land one by one. A fill of a slab has the instruction's position
in the place of an item number. -/
def mfillBody (col : Bool) (sl : BitVec 3) (a b : Opnd) : Act Unit := do
  let g ← myGrove
  let s ← get
  let cl := s.selfCl
  let k := scalarOf s b
  trapIf (g.h * g.w ≤ k) 0x13#8
  let wide := match looseSpot s a false with
    | some q => slotBits (fmtWordOf s q.cl (q.off / 65536)) == 32
    | none => false
  trapIf (col && wide) 0x09#8
  let p ← spotOf a false fun _ _ _ off => off % 8192 != 0
  let w := fmtWordOf s p.cl (p.off / 65536)
  let tk := g.at (k / g.w) (k % g.w)
  let t := s.tile (dieOf cl) tk
  trapIf ((List.range 64).any fun n => t.state sl.toNat n != .free) 0x41#8
  fetchBlock p.cl p.off col
  let s1 ← get
  let x := s1.cl p.cl
  let lineOf (n : Nat) : List Byte :=
    if col then (List.range 64).flatMap fun c => sramRead x (p.off + 128 * c + 2 * n) 2
    else sramRead x (p.off + 128 * n) 128
  let ref (n : Nat) : LineRef := .tile (dieOf cl) (tk / 24) (tk % 24) sl.toNat n
  let fills : List Fill := (List.range 64).map fun n =>
    ⟨ref n, (lineOf n).mapIdx fun i b => (i, b), .copy, cl, 0#32, 0, s.selfDp, 0#32, false, true⟩
  modify fun s =>
    (List.range 64).foldl (fun s n => s.setOwed (ref n) true)
      (State.modTile { s with fills := s.fills ++ fills } (dieOf cl) tk fun t =>
        { t with tags := KMap.set t.tags sl.toNat (BitVec.ofNat 64 w) })
  stepPointer a

/-- `mrel` (R249). -/
def mrelBody (sl : BitVec 3) : Act Unit := do
  let g ← myGrove
  let s ← get
  let d := dieOf s.selfCl
  waitIf (g.tiles.any fun k => (s.tile d k).anyLine sl.toNat .owed) .owed
  modify fun s => g.tiles.foldl (fun s k => s.modTile d k fun t =>
    { t with
      states := spliceMap t.states (64 * sl.toNat) (64 * sl.toNat + 64) []
      lines := spliceMap t.lines (64 * sl.toNat) (64 * sl.toNat + 64) []
      lineBad := t.lineBad.filter fun n => n / 64 != sl.toNat
      tags := KMap.erase t.tags sl.toNat }) s

/-- `mzero` (R257). -/
def mzeroBody (acc : BitVec 2) : Act Unit := do
  let g ← myGrove
  modify fun s => g.tiles.foldl (fun s k => s.modTile (dieOf s.selfCl) k fun t => t.zeroSet acc.toNat) s
  setGrove fun g => g.settle acc.toNat false

/-- `mkeep` (R257). -/
def mkeepBody (acc : BitVec 2) : Act Unit := do
  let _ ← myGrove
  setGrove fun g => g.settle acc.toNat true

/-- An accumulator element converted (R258, R259). -/
def accConvert (t : Tile) (n i j : Nat) (dst : Fmt) (rm : Rm) (sat : Bool) : Nat :=
  convert (if t.ints.getLsbD n then Fmt.int 32 else Fmt.f32) dst rm sat (t.elem n i j).toNat

/-- The runs that `mdrain` writes: local offset, orientation, tile and row. -/
def drainRuns (g : Grove) (z off : Nat) (col : Bool) : List (Nat × Nat × Nat) :=
  (List.range (64 * g.h * g.w)).map fun n =>
    let i := n / g.w
    let c := n % g.w
    let r := i / 64
    (if col then off + (r * g.w + c) * 0x2000 + 2 * (i % 64) else off + n * 64 * z / 8, g.at r c, i)

/-- Whether `TYPE` and the orientation do not fit the banks that a drain reaches (0x09). -/
def drainUnfit (s : State) (g : Grove) (ty : Ty) (p : Spot) : Bool :=
  let w := fmtWordOf s p.cl (p.off / 65536)
  let z := slotBits w
  ty.code.toNat != bits w 3 0 || (p.col && z != 16) || (drainRuns g z p.off p.col).any fun n =>
    inBanks (s.cl p.cl) n.1 &&
      (bits (fmtWordOf s p.cl (n.1 / 65536)) 3 0 != ty.code.toNat || slotBits (fmtWordOf s p.cl (n.1 / 65536)) != z)

/-- The alignment of a drain's place: a block for columns, else that of each of its runs. -/
def drainMis (g : Grove) (col : Bool) (s : State) (c off : Nat) : Bool :=
  if col then bits off 12 0 != 0
  else
    let z := slotBits (fmtWordOf s c (off / 65536))
    (drainRuns g z off false).any fun n => !(runBits 64 z n.1 false).isOk

/-- `mdrain` (R258). -/
def mdrainBody (r : Round_) (ty : Ty) (mcol : Bool) (acc : BitVec 2) (d : Opnd) : Act Unit := do
  let g ← myGrove
  let s ← get
  trapIf (((looseSpot s d mcol).map (drainUnfit s g ty)).getD false) 0x09#8
  let p ← spotOf d mcol (drainMis g)
  let z := slotBits (fmtWordOf s p.cl (p.off / 65536))
  let runs := drainRuns g z p.off p.col
  if runs.any fun n => !inBanks (s.cl p.cl) n.1 then trapAt 0x27#8 p.addr
  else
    checkAcc acc.toNat fun _ _ => true
    let spans ← runs.mapM fun n => do
      let ps ← liftC p.addr.toNat (runBits 64 z n.1 p.col)
      claimRun p.cl ps z n.1 p.col p.addr.toNat
      pure (n, ps)
    modify fun s => spans.foldl (fun s' q =>
      let t := s.tile (dieOf s.selfCl) q.1.2.1
      let i := q.1.2.2
      let c := (q.1.2.1 % 24) - g.col
      let cs := (List.range 64).map fun j =>
        accConvert t acc.toNat (i % 64) j (fmtOfWord (fmtWordOf s p.cl (q.1.1 / 65536))) (r.rm (64 * g.w * i + 64 * c + j)) r.sat
      runWrite s' p.cl z p.col q.2 cs) s
    stepPointer d
    setGrove fun g => g.settle acc.toNat false

/-- `mmov` (R259). -/
def mmovBody (r : Round_) (ty : Ty) (acc : BitVec 2) (d a : Opnd) : Act Unit := do
  let s0 ← get
  let v := scalarOf s0 a
  trapIf (decide (8192 ≤ v)) 0x05#8
  let g ← myGrove
  let k := bits v 11 6
  trapIf (g.h * g.w ≤ k) 0x13#8
  checkAcc acc.toNat fun u i => u == g.at (k / g.w) (k % g.w) && i == bits v 5 0
  let t := s0.tile (dieOf s0.selfCl) (g.at (k / g.w) (k % g.w))
  let n := if ty.bits == 32 then 32 else 64
  let first := if ty.bits == 32 then 32 * bits v 12 12 else 0
  let ls := (List.range n).map fun j => accConvert t acc.toNat (bits v 5 0) (first + j) (fmtTy ty) (r.rm j) r.sat
  match d with
  | .v _ m => writeName m.toNat (vecOf ty ls)
  | _ => trap 0x05#8

/-! ### Checks, status and shape -/

/-- `mchk` (R260): `verify` compares the cells with the sums of the set. -/
def mchkBody (op : ChkOp) (acc : BitVec 2) : Act Unit := do
  let g ← myGrove
  match op with
  | .on => setGrove fun g => { g with checked := true }
  | .off => setGrove fun g => { g with checked := false }
  | .verify =>
    checkAcc acc.toNat fun _ _ => true
    let s ← get
    let good := g.tiles.all fun k =>
      let t := s.tile (dieOf s.selfCl) k
      let u := t.writeSet acc.toNat (t.ints.getLsbD acc.toNat) (t.elem acc.toNat)
      (List.range 128).all fun c =>
        KMap.getD u.cells (128 * acc.toNat + c) ⟨0, 0⟩ == KMap.getD t.cells (128 * acc.toNat + c) ⟨0, 0⟩
    if good then pure () else checkStop 0xC6#8

/-- The code of a height or width (Table 10.2). -/
def dimCode (n : Nat) : Nat := if n == 0 then 0 else Nat.log2 n + 1

def dimOf (c : Nat) : Option Nat := if c == 0 then some 0 else if c ≤ 4 then some (2 ^ (c - 1)) else none

/-- The shape of a grove in the layout of Table 10.2. -/
def shapeWord (cl : Nat) (g : Grove) : Nat :=
  if g.h == 0 then 0
  else
    wrap 5 ((g.row : Int) - (cornerOf cl).1) + 32 * wrap 6 ((g.col : Int) - (cornerOf cl).2) + 2048 * dimCode g.h
      + 16384 * dimCode g.w

/-- `mrd` (R261). -/
def mrdBody (sel : BitVec 3) (d a : Opnd) : Act Unit := do
  let s ← get
  let cl := s.selfCl
  let g := (s.cl cl).grove
  let lanes : List Nat :=
    if sel == 0#3 then
      [shapeWord cl g, (if g.checked then 1 else 0) + 16 * g.settled.toNat + 256 * g.kept.toNat]
        ++ (List.range 8).map fun sl =>
          (g.tiles.filter fun k => (List.range 64).all fun n => (s.tile (dieOf cl) k).state sl n == .full).length
    else
      let v := (KMap.getD (s.die (dieOf cl)).rpol (scalarOf s a) 0#64).toNat
      [v % 2 ^ 32, v / 2 ^ 32]
  trapIf (sel == 1#3 && decide (1023 < scalarOf s a)) 0x05#8
  checkIf (sel == 1#3 && badRpol s cl (scalarOf s a)) 0xC3#8
  match d with
  | .v _ m => writeName m.toNat (vecZ 32 lanes)
  | _ => trap 0x05#8

/-- The rectangle of a shape descriptor (Table 10.2): empty, or first row, first column, height and width; none where
the descriptor is malformed or leaves the die's grid. -/
def shapeRect (cl v : Nat) : Option (Nat × Nat × Nat × Nat) :=
  match dimOf (bits v 13 11), dimOf (bits v 16 14) with
  | some h, some w =>
    if bits v 63 17 != 0 || (h == 0) != (w == 0) then none
    else if h == 0 then some (0, 0, 0, 0)
    else
      let r : Int := ((cornerOf cl).1 : Int) + sx 5 (bits v 4 0)
      let c : Int := ((cornerOf cl).2 : Int) + sx 6 (bits v 10 5)
      if r < 0 || c < 0 || 16 < r + h || 24 < c + w then none else some (r.toNat, c.toNat, h, w)
  | _, _ => none

/-- Whether cluster `h` belongs to gang `g`: its task does, or it is a member's whose task has ended there; a task that has
moved takes its membership with it (R244, R375). -/
def inGang (s : State) (g h : Nat) : Bool :=
  match (s.cl h).task with
  | some t => t.gang == g
  | none =>
    (((KMap.get? s.gangs g).map (·.members)).getD []).contains h
      && (s.clusters.all fun e => !(e.2.task.any fun t => t.gang == g && t.agent == h))
      && s.spilled.all fun p => !(p.agent == h && (p.image.task.map (·.gang)) == some g)

/-- `mshape` (R244, R245). -/
def mshapeBody (a : Opnd) : Act Unit := do
  let s ← get
  let cl := s.selfCl
  let d := dieOf cl
  let x := s.cl cl
  waitIf (slabFillsOwed s cl) .engine
  let g := x.grove
  match shapeRect cl (scalarOf s a) with
  | none => trap 0x14#8
  | some (r, c, h, w) =>
    let n : Grove := ⟨r, c, h, w, 15#4, 0#4, g.checked⟩
    let old := g.tiles
    let new := n.tiles
    let busy := old.any fun k => (List.range 8).any fun sl => !(List.range 64).all fun m => (s.tile d k).state sl m == .free
    trapIf (g.h != 0 && (g.settled != 15#4 || busy)) 0x15#8
    trapIf (new.any fun k => !old.contains k &&
      ((s.tile d k).busyAtStart || (s.tile d k).claimed || (s.tile d k).owner.isSome || !inGang s s.selfGang (homeOf d k))) 0x14#8
    let leave (s : State) (k : Nat) : State :=
      if new.contains k then s else s.modTile d k fun t => { t.clear with owner := none }
    let enter (s : State) (k : Nat) : State :=
      if old.contains k then
        s.modTile d k fun t => (List.range 4).foldl (fun t i => if g.kept.getLsbD i then t else t.zeroSet i) t
      else s.modTile d k fun t => { t.clear with owner := some cl, claimed := true }
    modify fun s => new.foldl enter (old.foldl leave s)
    setGrove fun _ => n

/-! ### The M words -/

/-- The steps of a product instruction. -/
def productSteps : Instr → Option (Act (List MStep))
  | .mmac _ t acc sa sb rms => some (mmacSteps t acc sa sb rms none)
  | .mmacs _ t acc sa sb rms qa ca qb cb =>
    some (mmacSteps t acc sa sb rms (some (qa.toNat, ca.toNat, qb.toNat, cb.toNat)))
  | .mrot _ t acc sa sb rms => some (mrotSteps t acc sa sb rms)
  | .mgx _ t acc sb rms a c => some (mgxSteps t acc sb rms a c)
  | .mgrp _ t acc rms a b nb j ks => some (mgrpSteps t acc rms a b nb j ks)
  | _ => none

/-- A product into set `acc` as the M PC executes it: every step that is not done yet. -/
def productBody (acc : BitVec 2) (steps : Act (List MStep)) : Act Unit := do
  let l ← steps
  let _ ← runSteps true none acc.toNat l
  pure ()

/-- The effect of an M word in a command's `FOLLOW` field. -/
def followBody (i : Instr) : Act Unit := do
  let s ← get
  let rounded (m : VMod) (f : Round_ → Act Unit) : Act Unit := do
    let r := roundOf s m.rm m.sat
    f r
    modify (countOrdinal r)
  match productSteps i with
  | some steps => do
    let l ← steps
    let _ ← runSteps false none ((accOf i).getD 0#2).toNat l
    pure ()
  | none =>
    match i with
    | .mchk _ op acc => mchkBody op acc
    | .mshape _ a => mshapeBody a
    | .mzero _ acc => mzeroBody acc
    | .mdrain hd acc d => rounded hd.mod fun r => mdrainBody r hd.ty hd.mod.col acc d
    | .mmov hd acc d a => rounded hd.mod fun r => mmovBody r hd.ty acc d a
    | .mfill _ col sl a b => mfillBody col sl a b
    | .mrel _ sl => mrelBody sl
    | .mkeep _ acc => mkeepBody acc
    | .mrd _ sel d a => mrdBody sel d a
    | _ => pure ()

/-- An M instruction with no rounding of its own. -/
def mOp (i : Instr) (tok : Tok) (body : Act Unit) (s : State) : Host.Outcome State Fault Refusal :=
  engineOp i tok 0#3 false [] (fun _ => body) s

/-- `mmac` (R250). -/
def execMmac (tok : Tok) (t : Ty) (acc : BitVec 2) (sa sb : BitVec 3) (rms : BitVec 2) (s : State) :
    Host.Outcome State Fault Refusal :=
  mOp (.mmac tok t acc sa sb rms) tok (productBody acc (mmacSteps t acc sa sb rms none)) s

/-- `mmacs` (R252). -/
def execMmacs (tok : Tok) (t : Ty) (acc : BitVec 2) (sa sb : BitVec 3) (rms : BitVec 2) (qa : BitVec 3) (ca : BitVec 6)
    (qb : BitVec 3) (cb : BitVec 6) (s : State) : Host.Outcome State Fault Refusal :=
  mOp (.mmacs tok t acc sa sb rms qa ca qb cb) tok
    (productBody acc (mmacSteps t acc sa sb rms (some (qa.toNat, ca.toNat, qb.toNat, cb.toNat)))) s

/-- `mrot` (R251). -/
def execMrot (tok : Tok) (t : Ty) (acc : BitVec 2) (sa sb : BitVec 3) (rms : BitVec 2) (s : State) :
    Host.Outcome State Fault Refusal :=
  mOp (.mrot tok t acc sa sb rms) tok (productBody acc (mrotSteps t acc sa sb rms)) s

/-- `mgx` (R254). -/
def execMgx (tok : Tok) (t : Ty) (acc : BitVec 2) (sb : BitVec 3) (rms : BitVec 2) (a c : Opnd) (s : State) :
    Host.Outcome State Fault Refusal :=
  mOp (.mgx tok t acc sb rms a c) tok (productBody acc (mgxSteps t acc sb rms a c)) s

/-- `mgrp` (R255). -/
def execMgrp (tok : Tok) (t : Ty) (acc : BitVec 2) (rms : BitVec 2) (a b : Opnd) (nb : BitVec 7) (j : BitVec 8)
    (ks : BitVec 16) (s : State) : Host.Outcome State Fault Refusal :=
  mOp (.mgrp tok t acc rms a b nb j ks) tok (productBody acc (mgrpSteps t acc rms a b nb j ks)) s

/-- `mchk` (R260). -/
def execMchk (tok : Tok) (op : ChkOp) (acc : BitVec 2) (s : State) : Host.Outcome State Fault Refusal :=
  mOp (.mchk tok op acc) tok (mchkBody op acc) s

/-- `mshape` (R244). -/
def execMshape (tok : Tok) (a : Opnd) (s : State) : Host.Outcome State Fault Refusal :=
  mOp (.mshape tok a) tok (mshapeBody a) s

/-- `mzero` (R257). -/
def execMzero (tok : Tok) (acc : BitVec 2) (s : State) : Host.Outcome State Fault Refusal :=
  mOp (.mzero tok acc) tok (mzeroBody acc) s

/-- `mdrain` (R258). -/
def execMdrain (hd : VHead) (acc : BitVec 2) (d : Opnd) (s : State) : Host.Outcome State Fault Refusal :=
  headOp (.mdrain hd acc d) hd [d] (fun r => mdrainBody r hd.ty hd.mod.col acc d) s

/-- `mmov` (R259). -/
def execMmov (hd : VHead) (acc : BitVec 2) (d a : Opnd) (s : State) : Host.Outcome State Fault Refusal :=
  headOp (.mmov hd acc d a) hd [d, a] (fun r => mmovBody r hd.ty acc d a) s

/-- `mfill` (R248). -/
def execMfill (tok : Tok) (col : Bool) (sl : BitVec 3) (a b : Opnd) (s : State) : Host.Outcome State Fault Refusal :=
  mOp (.mfill tok col sl a b) tok (mfillBody col sl a b) s

/-- `mrel` (R249). -/
def execMrel (tok : Tok) (sl : BitVec 3) (s : State) : Host.Outcome State Fault Refusal :=
  mOp (.mrel tok sl) tok (mrelBody sl) s

/-- `mkeep` (R257). -/
def execMkeep (tok : Tok) (acc : BitVec 2) (s : State) : Host.Outcome State Fault Refusal :=
  mOp (.mkeep tok acc) tok (mkeepBody acc) s

/-- `mrd` (R261). -/
def execMrd (tok : Tok) (sel : BitVec 3) (d a : Opnd) (s : State) : Host.Outcome State Fault Refusal :=
  mOp (.mrd tok sel d a) tok (mrdBody sel d a) s

/-! ### Follow-ons (R141, R262) -/

/-- The registers that a follow-on reads are those of its command's issue, and stream pointers those of its position (R155,
R262); afterwards the cluster's own stand again, and the M PC has not moved. A thread's command has no position of its own. -/
def withCaptured (c : Cmd) (f : State → Except Stop (Unit × State)) (s : State) : Except Stop State :=
  let x := s.cl c.cl
  let s1 := { s with actor := .pc c.cl .M }.modCl c.cl fun y =>
    { y with
      sregs := c.sregs, rmode := c.rmode, rseed := c.seed, bfmt := c.fmts, owedVers := []
      wM := if c.thr.isNone then { y.wM with dp := c.dp } else y.wM }
  match f s1 with
  | .error e => .error e
  | .ok (_, s2) =>
    .ok ({ s2 with actor := s.actor }.modCl c.cl fun y =>
      { y with
        sregs := x.sregs, rmode := x.rmode, rseed := x.rseed, bfmt := x.bfmt, owedVers := x.owedVers
        wM := { y.wM with dp := x.wM.dp } })

/-- Whether a follow-on waits for one of an earlier command that shares its names (R244, R262). -/
def behindFollow (s : State) (c : Cmd) (i : Instr) : Bool :=
  (followsOwed (s.cl c.cl)).any fun k => !k.same c && k.thr.isNone && c.thr.isNone && decide (k.dp < c.dp) &&
    match k.followWord with
    | some j => shareNames s c.cl i j
    | none => false

/-- FOLLOW_ON (R141): the word executes; a cause it raises is logged as 0x65 and the command retires without its
`SIG`. DESIGN CHOICE (log 97): the follow-on of a command that an exited task left parked acts on the task that stands on the
cluster when it has replayed; with none the command keeps its slot. -/
def execFollowOn (cl : Nat) (seq : BitVec 32) (s : State) : Host.Outcome State Fault Refusal :=
  match s.cmd? .copy cl seq with
  | none => .next s
  | some c =>
    if !followReady s c || !((s.cl cl).task.any fun t => t.state != .placed) then .next s
    else
      match c.followWord with
      | none => .next s
      | some i =>
        if behindFollow s c i then .next s
        else match withCaptured c (fun s => followBody i s) s with
        | .ok s1 => .next ((s1.setCmd { c with follow := .done }).stir cl)
        | .error (.trap cause addr) =>
          .next ((s.setCmd { c with follow := .failed }).logFault c.ctx
            ⟨0x65#8, 2, c.agent + 1, engNum .M, 0, c.seq, 0, c.gen, addr.toNat, cause.toNat⟩)
        | .error (.check cause) =>
          .next ((s.setCmd { c with follow := .failed }).raiseCheck c.ctx c.gang (c.agent + 1) 4 cause)
        | .error (.wait _) => .next s

end Sys2Proof.Machine
end

