-- ==== Sys2Proof/Machine/Launch.lean ====
section
/-! DEFINITION. Task graphs, stage entries and kernel images (R364 to R371): their checks, where a task may be placed,
and how a placed task starts. -/

namespace Sys2Proof.Machine

/-! ### Stage entries and images (Tables 15.3, 15.4) -/

/-- A stage entry's fields. -/
structure Stage where
  image : Nat
  lvl : Nat
  gsh : Nat
  gang : Nat
  inq : Nat
  outq : List Nat
  outr : Nat
  maxt : Nat
  dies : Nat
  rake : Nat
  sram : Nat
  tkc : Nat
  slip : Nat
  rent : Nat
  dgrp : Nat
  gtag : Nat
  deriving DecidableEq, Repr, Inhabited

/-- Bytes [i, i + n) of a table entry. -/
def byteField (e i n : Nat) : Nat := bits e (8 * (i + n) - 1) (8 * i)

def stageOf (e : Nat) : Stage where
  image := byteField e 0 8
  lvl := byteField e 8 1 % 4
  gsh := byteField e 9 1
  gang := byteField e 12 4
  inq := byteField e 16 2
  outq := (List.range 4).map fun i => byteField e (18 + 2 * i) 2
  outr := byteField e 26 2
  maxt := byteField e 28 2
  dies := byteField e 30 1
  rake := byteField e 31 1
  sram := byteField e 32 4
  tkc := byteField e 36 4
  slip := byteField e 40 4
  rent := byteField e 44 4
  dgrp := byteField e 48 2
  gtag := byteField e 50 2

/-- A value of `slipw` within Table 7.4. -/
def slipOk (v : Nat) : Bool := 64 ≤ v && v ≤ 65536 && v % 4 == 0

/-- A value of `sramcfg` within Table 5.3 (R115). -/
def sramOk (v : Nat) : Bool :=
  bits v 31 14 == 0 && bits v 7 2 == 0 && v < 2 ^ 32 && v % 4 != 3 && decide (bits v 13 8 ≤ 48 - 8 * (v % 4))

/-- Height and width of a stage's grove (Table 10.2): 0 and 0 for none. -/
def Stage.h (e : Stage) : Option Nat := dimOf (e.gsh % 8)
def Stage.w (e : Stage) : Option Nat := dimOf (e.gsh / 8 % 8)
def Stage.groveOk (e : Stage) : Bool :=
  match e.h, e.w with
  | some h, some w => (h == 0) == (w == 0)
  | _, _ => false

/-- The dimensions, where they are good. -/
def Stage.dims (e : Stage) : Nat × Nat := (e.h.getD 0, e.w.getD 0)

/-- Cause 0xA0 of a stage entry (Table 15.7). -/
def stageMalformed (e : Nat) : Bool :=
  let t := stageOf e
  byteField e 8 1 / 4 != 0 || t.gsh / 64 != 0 || byteField e 10 2 != 0 || t.gang == 0 || 381312 < t.gang || t.outr == 0
    || (t.maxt != 0 && t.maxt < t.gang) || t.dies == 0 || 15 < t.dies || (t.slip != 0 && !slipOk t.slip) || t.rent % 4 != 0
    || 4095 < t.dgrp || e >>> 416 != 0

/-- The depth of a shape entry and the names it covers. -/
def shapeNames (w : Nat) : Nat := bits w 42 32 + 1 - bits w 26 16

/-- A register shape that the launch path takes (R157). -/
def shapeOk (ws : List Nat) : Bool :=
  let v := ws.filter fun w => bit w 63
  ws.all (fun w => bits w 62 43 == 0 && bits w 31 27 == 0 && bits w 15 14 == 0 && bits w 5 0 == 0)
    && v.all (fun w => decide (bits w 26 16 ≤ bits w 42 32) && decide (bits w 42 32 ≤ 1535) && 1 ≤ bits w 11 9 && bits w 11 9 ≤ 4
        && 1 ≤ bits w 8 6 && bits w 8 6 ≤ 4 && bits w 13 12 != 0)
    && (v.mapIdx fun i w => (v.drop (i + 1)).all fun u => bits w 42 32 < bits u 26 16 || bits u 42 32 < bits w 26 16).all (fun b => b)
    && decide (1536 + (v.map fun w => shapeNames w * bits w 13 12).sum ≤ 2048)

/-- An image with what its launch copies: the bytes of the segments with their local offsets, the signature table, the
format words, the shape words. -/
structure Loaded where
  image : Image
  segs : List (Nat × List Byte)
  sig : List Byte
  fmts : List Nat
  shapes : List Nat
  deriving DecidableEq, Repr, Inhabited

def wordsOf (n : Nat) (bs : List Byte) : List Nat :=
  (List.range (bs.length / n)).map fun i => leNat ((bs.drop (n * i)).take n)

def imageOf (e : Nat) : Image :=
  ⟨byteField e 0 8, byteField e 8 4, byteField e 12 4, byteField e 16 8, byteField e 24 4, byteField e 28 4, byteField e 32 8,
    byteField e 40 8, byteField e 48 8, byteField e 56 2⟩

/-- Cause 0xA1 of an image header placed against a split `sram` (Table 15.4). -/
def imageMalformed (sram e : Nat) : Bool :=
  let m := imageOf e
  let top := 65536 * (48 - 8 * (sram % 4))
  m.textVa % 128 != 0 || m.textSize % 4 != 0 || m.entry % 4 != 0 || decide (m.textSize ≤ m.entry) || m.sigOff % 32 != 0
    || (m.sigCnt != 0 && (decide (m.sigOff < 65536 * bits sram 13 8) || decide (top < m.sigOff + 32 * m.sigCnt)))
    || decide (48 < m.nseg) || byteField e 58 1 / 4 != 0 || byteField e 59 1 / 64 != 0 || e >>> 512 != 0

/-- The image of a stage read and checked; every refusal is 0xA1 (R369). -/
def loadImageOf (ctx die : Nat) (t : Stage) (s : State) : Except (BitVec 8) (State × Loaded) := do
  let get (va n : Nat) (s : State) : Except (BitVec 8) (State × List Byte) :=
    (tableRead ctx die va n s).mapError fun _ => 0xA1#8
  let (s1, hb) ← get t.image 128 s
  let e := leNat hb
  let m := imageOf e
  if imageMalformed t.sram e then throw 0xA1#8
  let (s2, fb) ← get m.fmtVa 192 s1
  let (s3, sb) ← get m.shpVa 512 s2
  let (s4, lb) ← get m.segVa (16 * m.nseg) s3
  let fmts := wordsOf 4 fb
  let shapes := wordsOf 8 sb
  let list := wordsOf 16 lb
  let top := 65536 * (48 - 8 * (t.sram % 4))
  if fmts.any (fun w => w != 0 && !fmtWordOk w) || !shapeOk shapes
      || list.any (fun g => decide (top < bits g 95 64 + bits g 127 96)) then throw 0xA1#8
  let (s5, segs) ← list.foldlM (fun (acc : State × List (Nat × List Byte)) g => do
    let (s', bs) ← get (bits g 63 0) (bits g 127 96) acc.1
    pure (s', acc.2 ++ [(bits g 95 64, bs)])) (s4, [])
  let (s6, sig) ← get m.sigVa (32 * m.sigCnt) s5
  pure (s6, ⟨m, segs, sig, fmts, shapes⟩)

/-- A windrow's descriptor as the launch path reads it. -/
def launchWindrow (ctx die h : Nat) (s : State) : Option WlDesc :=
  match KMap.get? s.contexts ctx with
  | none => none
  | some c =>
    if 4095 < h then none
    else
      match tableRead ctx die (c.wlbase + 16 * h) 16 s with
      | .error _ => none
      | .ok (_, bs) => (wlDecode (leNat bs)).toOption

/-- Clusters of this device that the context is granted on the dies of `DIES`. -/
def grantedOn (s : State) (ctx dies : Nat) : List Nat :=
  (List.range 384).filter fun c => bit dies (dieOf c) && ((KMap.get? s.contexts ctx).map (·.grant.getLsbD c)).getD false

/-- The other devices whose clusters a gang may take (R376). -/
def gangDevices (s : State) (dgrp : Nat) : List Nat :=
  if dgrp == 0 then []
  else
    match activeSlot s dgrp with
    | some x => (devicesOf x.2.memb).filter fun d => d != devId s
    | none => []

/-- Whether this device is of the group on whose devices a gang is placed (R376). -/
def homeMember (s : State) (dgrp : Nat) : Bool :=
  dgrp == 0 || ((activeSlot s dgrp).map fun x => x.2.memb.getLsbD (devId s)).getD false

/-- How many clusters of the dies of `DIES` a context is granted on another device: by its descriptor there (log 48). -/
def farGranted (s : State) (ctx dies dev : Nat) : Nat :=
  ((List.range 384).filter fun c => bit dies (dieOf c) && (Config.farGrant s.tick dev ctx).getLsbD c).length

/-- The refusal causes of one stage entry, in no order (Table 15.7). -/
def stageCauses (ctx die e : Nat) (s : State) : List (BitVec 8) :=
  let t := stageOf e
  let room := (if homeMember s t.dgrp then (grantedOn s ctx t.dies).length else 0)
    + ((gangDevices s t.dgrp).map (farGranted s ctx t.dies)).sum
  (if stageMalformed e then [0xA0#8] else [])
    ++ (if sramOk t.sram then [] else [0xA2#8])
    ++ (match loadImageOf ctx die t s with | .ok _ => [] | .error c => [c])
    ++ (if t.groveOk then [] else [0xA3#8])
    ++ (if room < t.gang then [0xA4#8] else [])
    ++ (if (launchWindrow ctx die t.inq s).isNone
          || t.outq.any (fun h => h != 65535 && (launchWindrow ctx die h s).isNone) then [0xA5#8] else [])

/-- The order in which causes are reported (R384). -/
def causeOrder : List (BitVec 8) := [0xA0#8, 0xA2#8, 0xA1#8, 0xA3#8, 0xA4#8, 0xA5#8]

/-- The stage entry numbered `i` of a graph at `va`. -/
def readStage (ctx die va i : Nat) (s : State) : Except (BitVec 8) (State × Nat) :=
  match tableRead ctx die (va + 128 * (i + 1)) 128 s with
  | .error _ => .error 0xA0#8
  | .ok (s1, bs) => .ok (s1, leNat bs)

/-- A graph's stage count and entry stage, or the first refusal cause (R368, R384). -/
def checkGraph (ctx die va : Nat) (s : State) : Except (BitVec 8) (Nat × Nat) :=
  match tableRead ctx die va 128 s with
  | .error _ => .error 0xA0#8
  | .ok (s1, bs) =>
    let e := leNat bs
    let n := byteField e 0 1
    if n == 0 || 64 < n || n ≤ byteField e 1 1 || e >>> 16 != 0 then .error 0xA0#8
    else
      let cs := (List.range n).flatMap fun i =>
        match readStage ctx die va i s1 with
        | .error c => [c]
        | .ok (s2, x) => stageCauses ctx die x s2
      match causeOrder.find? fun c => cs.contains c with
      | some c => .error c
      | none => .ok (n, byteField e 1 1)

/-- Stage `i` of graph `g` as it stands; none where it can no longer be read. -/
def State.stage? (s : State) (die g i : Nat) : Option Stage :=
  match KMap.get? s.graphs g with
  | none => none
  | some q =>
    match readStage q.ctx die q.va i s with
    | .ok (_, e) => some (stageOf e)
    | .error _ => none

/-! ### Tasks in being -/

/-- Tasks on clusters and spilled ones. -/
def State.tasks (s : State) : List Task := (s.clusters.filterMap fun e => e.2.task) ++ s.spilled.filterMap fun p => p.image.task

/-- Tasks of a stage of a graph, with those that its gangs have on other devices (R372, R376). -/
def stageTasks (s : State) (g st : Nat) : Nat :=
  (s.tasks.filter fun t => t.graph == g && t.stage == st).length
    + (s.gangs.map fun e => if e.2.placed && e.2.graph == g && e.2.stage == st then e.2.remote.length else 0).sum

/-! ### Which stage runs (R372) -/

/-- Room for `n` more items in every output queue of a stage. -/
def roomFor (s : State) (ctx die n : Nat) (t : Stage) : Bool :=
  t.outq.all fun h => h == 65535 ||
    match launchWindrow ctx die h s with
    | some w => decide (n + (s.windrow ctx h).held ≤ w.cap)
    | none => false

/-- Whether a context is not loaded or under teardown. -/
def dyingCtx (s : State) (ctx : Nat) : Bool := ((KMap.get? s.contexts ctx).map (·.dying)).getD true

/-- Whether stage `i` of graph `g` is runnable (R372). -/
def runnable (s : State) (die g i : Nat) (t : Stage) : Bool :=
  match KMap.get? s.graphs g with
  | none => false
  | some q =>
    let r := stageTasks s g i
    q.live && !dyingCtx s q.ctx
      && (s.windrow q.ctx t.inq).held != 0 && (t.maxt == 0 || decide (r + t.gang ≤ t.maxt))
      && roomFor s q.ctx die (t.outr * (r + t.gang)) t

/-- Every stage of a live graph, as it can be read. -/
def allStages (s : State) (die : Nat) : List (Nat × Nat × Stage) :=
  (s.graphs.filter fun e => e.2.live).flatMap fun e =>
    (List.range e.2.nst).filterMap fun i => (s.stage? die e.1 i).map fun t => (e.1, i, t)

/-- Ages: a stage's is the tick at which the scheduler first found it runnable again (R372; log 30). -/
def noteAges (die : Nat) (s : State) : State :=
  (allStages s die).foldl (fun s p =>
    { s with graphs := s.graphs.map fun e =>
        if e.1 != p.1 then e
        else if !runnable s die p.1 p.2.1 p.2.2 then (e.1, { e.2 with ages := KMap.erase e.2.ages p.2.1 })
        else if (KMap.get? e.2.ages p.2.1).isSome then e
        else (e.1, { e.2 with ages := KMap.set e.2.ages p.2.1 s.tick }) }) s

def ageOf (s : State) (g i : Nat) : Nat := ((KMap.get? s.graphs g).bind fun q => KMap.get? q.ages i).getD s.tick

/-! ### Which cluster a stage may be given (R374 to R378) -/

/-- A cluster that a binding reserves (R381). -/
def boundCluster (s : State) (c : Nat) : Bool :=
  (s.die (dieOf c)).evbind.any fun e => e.2.getLsbD 63 && e.2.getLsbD 62 && bits e.2.toNat 56 48 % 96 == c % 96

/-- A cluster that a new task of context `ctx` may take: without a task, held for no saved task of the context, and no living
task of it has its id as an agent id (R344, R374, R375). -/
def freeFor (s : State) (ctx c : Nat) : Bool :=
  (s.cl c).task.isNone
    && !(s.spilled.any fun p => p.ctx == ctx && (p.from_ == c || p.agent == c))
    && !(s.tasks.any fun t => t.ctx == ctx && t.agent == c)

/-- Whether a task of another gang than `gang` that stands on the die could claim a tile of home cluster `home` by `mshape`
(R244, R374). -/
def claimable (s : State) (gang d home : Nat) : Bool :=
  s.clusters.any fun e => dieOf e.1 == d && e.2.task.any fun t => t.gang != gang && inGang s t.gang home

/-- A grove may be given to a task of context `ctx`: inside the grid, every tile idle, its home cluster free or in `mates`, not
open to a claim of another gang, and not kept for a spilled task of the context (R242, R374, R375). -/
def groveFits (s : State) (ctx gang : Nat) (mates : List Nat) (d : Nat) (g : Grove) : Bool :=
  g.h == 0 ||
    (decide (g.row + g.h ≤ 16) && decide (g.col + g.w ≤ 24) && g.tiles.all fun k =>
      let home := homeOf d k
      (s.tile d k).owner.isNone && ((s.cl home).task.isNone || mates.contains home) && !claimable s gang d home
        && !(s.spilled.any fun p => p.ctx == ctx && dieOf p.from_ == d && (KMap.get? p.tiles k).isSome))

/-- The grove of `h` × `w` tiles at the home corner of cluster `c`. -/
def groveAt (c : Nat) (dims : Nat × Nat) : Grove :=
  if dims.1 == 0 then Grove.reset else ⟨2 * rowOf c, 2 * colOf c, dims.1, dims.2, 15#4, 0#4, false⟩

/-- What a stage asks of a cluster: its context, gang and entry, its age, and the clusters reserved for others. -/
structure Want where
  ctx : Nat
  gang : Nat
  t : Stage
  age : Nat
  barred : List Nat
  deriving DecidableEq, Repr

/-- A spilled task that waits for cluster `c` before a stage of level `lvl` and age `age` (R372, R375). -/
def awaited (s : State) (c lvl age : Nat) : Bool :=
  s.spilled.any fun p => p.from_ == c && p.image.task.any fun t =>
    t.state == .saved && (t.level < lvl || (t.level == lvl && p.since < age))

/-- Whether a stage may be given cluster `c` (R374). -/
def admits (s : State) (w : Want) (mates : List Nat) (c : Nat) : Bool :=
  bit w.t.dies (dieOf c) && ((KMap.get? s.contexts w.ctx).map (·.grant.getLsbD c)).getD false && !boundCluster s c
    && freeFor s w.ctx c && groveFits s w.ctx w.gang mates (dieOf c) (groveAt c w.t.dims) && !w.barred.contains c
    && !awaited s c w.t.lvl w.age

/-- The tiles of a grove taken for cluster `c`, zero, settled and free (R242). -/
def takeTiles (c : Nat) (g : Grove) (s : State) : State :=
  g.tiles.foldl (fun s k => s.modTile (dieOf c) k fun t => { t.clear with owner := some c, busyAtStart := true }) s

/-- The tiles of a cluster's grove given up. -/
def dropTiles (c : Nat) (s : State) : State :=
  (s.cl c).grove.tiles.foldl (fun s k => s.modTile (dieOf c) k fun t => { t.clear with owner := none }) s

/-- Clusters, in the order of the list, for up to `n` tasks of a gang, with the state in which their tiles are taken. -/
def chooseClusters (w : Want) : Nat → List Nat → List Nat → State → List Nat × State
  | _, [], got, s => (got, s)
  | n, c :: rest, got, s =>
    if got.length < n && admits s w got c then chooseClusters w n rest (got ++ [c]) (takeTiles c (groveAt c w.t.dims) s)
    else chooseClusters w n rest got s

/-- The older of two gangs (R378). -/
def Gang.older (x y : Gang) : Bool := x.stamp < y.stamp || (x.stamp == y.stamp && x.home < y.home)

/-- The gangs that wait for clusters of this device, with their stages (R377). -/
def waiting (s : State) : List (Nat × Gang × Stage) :=
  s.gangs.filterMap fun e =>
    if e.2.placed || dyingCtx s e.2.ctx then none
    else (s.stage? 0 e.2.graph e.2.stage).bind fun t =>
      if homeMember s t.dgrp && (e.2.home != devId s || runnable s 0 e.2.graph e.2.stage t) then some (e.1, e.2, t) else none

/-- The oldest of them, which alone holds a reservation (R377). -/
def oldestWaiting (s : State) : Option (Nat × Gang × Stage) :=
  (waiting s).find? fun e => (waiting s).all fun o => o.1 == e.1 || !(o.2.1.older e.2.1)

/-- Clusters that gangs other than `own` hold already. -/
def heldFor (s : State) (own : Nat) : List Nat :=
  (s.gangs.filter fun e => e.1 != own && !e.2.placed).flatMap fun e => e.2.reserved

/-- The clusters that a waiting gang holds, with the free ones that it can use, up to its size. -/
def reservationOf (s : State) (g : Nat) (x : Gang) (t : Stage) : List Nat :=
  let w : Want := ⟨x.ctx, g, t, ageOf s x.graph x.stage, heldFor s g⟩
  (chooseClusters w x.size (x.reserved ++ (List.range 384).filter fun c => !x.reserved.contains c) [] s).1

/-- Clusters reserved for gangs other than `own`: those already held, and those that the oldest waiting gang takes as they
become free (R377). -/
def barredFor (s : State) (own : Nat) : List Nat :=
  heldFor s own ++ match oldestWaiting s with
    | some (g, x, t) => if g == own then [] else reservationOf s g x t
    | none => []

/-- What stage `i` of graph `g` asks, for its gang `gang`. -/
def State.want (s : State) (g i gang : Nat) (t : Stage) : Want :=
  ⟨((KMap.get? s.graphs g).map (·.ctx)).getD 0, gang, t, ageOf s g i, barredFor s gang⟩

/-- The clusters of a die that a stage may be given now, lowest first. -/
def openClusters (s : State) (die g i gang : Nat) (t : Stage) : List Nat :=
  let w := s.want g i gang t
  ((List.range 96).map fun k => 96 * die + k).filter fun c => admits s w [] c

/-- The gang of a stage that waits to be placed, and the clusters of other devices that it may use. -/
def waitingGang (s : State) (g i : Nat) : Option (Nat × Gang) :=
  s.gangs.find? fun e => e.2.graph == g && e.2.stage == i && !e.2.placed && e.2.home == devId s

/-- Whether a stage finds fewer clusters than a task, or a gang with what it has reserved, needs (R377). -/
def lacksClusters (s : State) (die g i : Nat) (t : Stage) : Bool :=
  match waitingGang s g i with
  | some (n, x) =>
    let here := if homeMember s t.dgrp then (chooseClusters (s.want g i n t) t.gang (List.range 384) [] s).1.length else 0
    decide (here + (x.offers.map fun o => o.2.length).sum < t.gang)
  | none => (openClusters s die g i 0 t).isEmpty

/-- Whether a gang tag may be placed: the protected tag only while no other gang with it stands (R346). -/
def tagFree (s : State) (ctx tag : Nat) : Bool :=
  tag == 0 || ((KMap.get? s.contexts ctx).map (·.ckgang)).getD 0 != tag
    || !(s.gangs.any fun e => e.2.ctx == ctx && e.2.tag == tag && e.2.placed)

/-- A runnable stage that could be served on a die now: it finds a cluster of the die, and a waiting gang all that it needs. -/
def servable (s : State) (die : Nat) (p : Nat × Nat × Stage) : Bool :=
  let ctx := ((KMap.get? s.graphs p.1).map (·.ctx)).getD 0
  let own := ((waitingGang s p.1 p.2.1).map (·.1)).getD 0
  runnable s die p.1 p.2.1 p.2.2 && tagFree s ctx p.2.2.gtag && !lacksClusters s die p.1 p.2.1 p.2.2
    && !(openClusters s die p.1 p.2.1 own p.2.2).isEmpty

/-- A stage that goes before one of level `lvl` and age `age` on a die: of a higher level, or older at the same level, and
able to use a free cluster (R372). -/
def outranked (s : State) (die lvl age : Nat) (self : Nat × Nat) : Bool :=
  (allStages s die).any fun p =>
    (p.1, p.2.1) != self && (p.2.2.lvl < lvl || (p.2.2.lvl == lvl && ageOf s p.1 p.2.1 < age)) && servable s die p

/-- Whether a stage would be given a cluster, were its task and grove gone. -/
def wouldFit (s : State) (w : Want) (c : Nat) : Bool := admits ((dropTiles c s).modCl c fun x => { x with task := none }) w [] c

/-- A stage of level `lvl` or higher that is runnable and waits for clusters, which one of the die could serve (R185). -/
def stageWaits (s : State) (die lvl : Nat) : Bool :=
  (allStages s die).any fun p =>
    p.2.2.lvl ≤ lvl && bit p.2.2.dies die && runnable s die p.1 p.2.1 p.2.2 && lacksClusters s die p.1 p.2.1 p.2.2

/-- The tiles of a gang's home clusters at the start of a superstep (R245). -/
def markTiles (members : List Nat) (s : State) : State :=
  members.foldl (fun s c =>
    [(0, 0), (0, 1), (1, 0), (1, 1)].foldl (fun s p =>
      s.modTile (dieOf c) (tileKey (2 * rowOf c + p.1) (2 * colOf c + p.2)) fun t =>
        { t with busyAtStart := t.owner.isSome, claimed := false }) s) s

/-- A task placed on cluster `c`: it starts with TASK_LAUNCH. -/
def placeTask (c : Nat) (t : Task) (dims : Nat × Nat) (s : State) : State :=
  s.modCl c fun x =>
    { x with
      task := some { t with agent := c, state := .placed, born := s.tick }
      grove := groveAt c dims
      arrived := false, released := false, preempt := false, snap := none }

/-- A task of stage `i` of graph `g`, rank `r`. -/
def newTask (ctx gang g i r : Nat) (t : Stage) (item : Option Nat) (v : Word) (priv : Bool) : Task :=
  { ctx, agent := 0, gang, rank := r, size := t.gang, graph := g, stage := i, level := t.lvl, priv, image := default
    sram := BitVec.ofNat 32 t.sram, tkc := BitVec.ofNat 32 t.tkc, slip := BitVec.ofNat 32 (if t.slip == 0 then 4096 else t.slip)
    rake := t.rake, rent := t.rent, inq := t.inq, item, itemVal := v, ganged := t.gang != 1, state := .placed, exit := 0#8
    trap := none, preq := false, born := 0 }

/-! ### The start of a task (R369 to R371) -/

/-- Bytes set in a cluster that nothing logs: at launch and on rollback. -/
def plantBytes (x : Cluster) (off : Nat) (bs : List Byte) : Cluster :=
  let y := (linesOf off bs.length).foldl touchLine x
  { y with sram := Mem.write y.sram off bs }

/-- The image's segments and signature table in the scratchpad. -/
def plantImage (l : Loaded) (keep : Nat → Bool) (x : Cluster) : Cluster :=
  (l.segs ++ [(l.image.sigOff, l.sig)]).foldl (fun x p =>
    (pieces p.1 p.2.length).foldl (fun x q =>
      if keep (q.1 / 128) then plantBytes x q.1 ((p.2.drop (q.1 - p.1)).take q.2) else x) x) x

/-- A PC at the entry. -/
def Walk.at (entry : Nat) : Walk := { Walk.reset with pc := entry }

/-- A cluster set up for a task from its image: registers of R149, R150, R156, R370, a clear scratchpad, the image's
bytes. Commands that earlier tasks left, translations and counts stay. -/
def setUp (t : Task) (l : Loaded) (seed : Word) (x : Cluster) : Cluster :=
  let m := l.image
  let regs : KMap Word := [(1, t.itemVal), (2, BitVec.ofNat 64 t.rank), (3, BitVec.ofNat 64 t.size), (4, BitVec.ofNat 64 t.stage)]
  let rakes := (List.range 8).map fun i =>
    (i, if bit t.rake i then { Rake.reset with pc := t.rent, st := .ready } else Rake.reset)
  plantImage l (fun _ => true)
    { x.vacant with
      sregs := regs, rseed := seed, sramcfg := t.sram, slipw := t.slip, tkcnt := t.tkc
      bfmt := (l.fmts.mapIdx fun i w => (i, BitVec.ofNat 64 (if w == 0 then 9 else w)))
      vshp := (l.shapes.mapIdx fun i w => (i, BitVec.ofNat 64 w))
      sigtab := BitVec.ofNat 64 m.sigOff, sigcnt := BitVec.ofNat 64 m.sigCnt
      wS := Walk.at m.entry, wL := Walk.at m.entry, wA := Walk.at m.entry, wW := Walk.at m.entry, wM := Walk.at m.entry
      rakes, task := some { t with image := m, state := .running }, cmds := x.cmds, owed := x.owed, tlb := x.tlb
      l1errs := x.l1errs, wack := x.wack, ringDrops := x.ringDrops, grove := x.grove }

/-! ### Snapshots (R412) -/

/-- The windrow counters of a context that are homed on a die. -/
def homedWindrows (s : State) (ctx die : Nat) : KMap Windrow :=
  s.windrows.filter fun e => e.1 / 4096 == ctx && ((launchWindrow ctx die (e.1 % 4096) s).map (·.home)) == some die

/-- What the snapshot store of cluster `c` takes. -/
def snapOf (s : State) (c : Nat) : Snap :=
  let x := s.cl c
  let ctx := (x.task.map (·.ctx)).getD 0
  { walks := engines.map x.walk, sregs := x.sregs, preds := x.preds, ptrs := x.ptrs, rmode := x.rmode, rseed := x.rseed
    bfmt := x.bfmt, slipw := x.slipw, tkcnt := x.tkcnt, scoreboard := x.scoreboard, cbm := x.cbm, seqs := x.seqs, rts := x.rts
    flags := x.flags, counters := x.counters, bphase := x.bphase, rakes := x.rakes, rings := x.rings, grove := x.grove
    item := x.task.bind (·.item), windrows := homedWindrows s ctx (dieOf c)
    groupSeq := s.groupSeq.filter fun e => e.1 % 4096 == ctx, broken := false }

/-- The snapshot is taken. -/
def takeSnap (c : Nat) (s : State) : State := s.modCl c fun x => { x with snap := some (snapOf s c) }

/-- The status word of a graph: written once, as a release at system scope; a fault parks it (R366). -/
def writeStatus (g : Nat) (cause : BitVec 8) (s : State) : State :=
  match KMap.get? s.graphs g with
  | none => s
  | some q =>
    let v := cause.toNat + 256 * q.status.toNat
    match vaSyncWrite (launchWho q.ctx 0) q.done (natLe 8 v) s with
    | .ok s1 => { s1 with graphs := KMap.set s1.graphs g { q with live := false, statusParked := false, cause } }
    | .error c =>
      let e : LogEntry := ⟨c, 1, 0, 7, 0, 0#32, 0, 0#32, q.done, cause.toNat⟩
      State.logFault { s with graphs := KMap.set s.graphs g { q with live := false, statusParked := true, cause } } q.ctx e

/-- The seed of a new task: the launch record's, or a value of the entropy source (R65, R366). -/
def seedOf (s : State) (g : Nat) : Word :=
  match KMap.get? s.graphs g with
  | some q => if q.seedv then q.seed else Config.entropy s.tick
  | none => Config.entropy s.tick

/-- The stage entry of a task: of its graph, or, for management (graph 0), at the address of its binding. -/
def stageVa (s : State) (t : Task) (die : Nat) : Nat :=
  if t.graph == 0 then bits (KMap.getD (s.die die).evbind t.stage 0#64).toNat 47 0
  else ((KMap.get? s.graphs t.graph).map (·.va)).getD 0 + 128 * (t.stage + 1)

/-- A placed task starts. An image that can no longer be read or is no longer good ends it with the cause. -/
def launchTask (c : Nat) (t : Task) (s : State) : Except (BitVec 8) State :=
  let die := dieOf c
  match tableRead t.ctx die (stageVa s t die) 128 s with
  | .error _ => .error 0xA0#8
  | .ok (s1, bs) =>
    match loadImageOf t.ctx die (stageOf (leNat bs)) s1 with
    | .error e => .error e
    | .ok (s2, l) =>
      let s3 := s2.modCl c (setUp t l (seedOf s2 t.graph))
      .ok (if s3.protectedGang t.gang then takeSnap c s3 else s3)

end Sys2Proof.Machine
end

