-- ==== Sys2Proof/Machine/Superstep.lean ====
section
/-! DEFINITION. The end of a task, the gang barrier, shadow sweeps and rollback (R97, R186, R353 to R363, R405 to
R416). -/

namespace Sys2Proof.Machine

/-! ### The end of a task (R186, R190) -/

/-- A task leaves its cluster: its tiles become idle, its exit status is reported, and, where it is not ganged, its
item's completion is counted. Bytes that its own commands still owe its scratchpad are discarded (R148). -/
def releaseTask (c : Nat) (s : State) : State :=
  match (s.cl c).task with
  | none => s
  | some t =>
    let s1 := s.dropFills fun f => f.cl == c && f.gang == t.gang && (match f.line with | .sram k _ => k == c | _ => true)
    let s2 := (dropTiles c s1).modCl c fun x =>
      { x with
        task := none, grove := Grove.reset, kicks := [], snap := none, arrived := false, released := false, preempt := false
        rakes := [], rings := [], counters := [], winReads := coreOf x.winReads, progress := none, pushAt := coreOf x.pushAt
        awaited := coreOf x.awaited, inbox := [], ringDrops := x.ringDrops + x.inbox.length }
    let s3 := match t.item with
      | some h => wlComplete s2 t.ctx h
      | none => s2
    let first (old : BitVec 8) : BitVec 8 := if old == 0#8 then t.exit else old
    (({ s3 with graphs := s3.graphs.map fun e => if e.1 == t.graph then (e.1, { e.2 with status := first e.2.status }) else e } : State).modGang
      t.gang fun x => { x with ended := NSet.insert x.ended t.agent, exit := first x.exit }).showTrapped c

/-- The held writes of a gang leave for the host, in the order they were made (R413). -/
def releaseWrites (g : Nat) (s : State) : State :=
  { s with hostOut := s.hostOut ++ s.commit.filter (fun w => w.gang == g), commit := s.commit.filter fun w => w.gang != g }

/-- The undo logs of a context are emptied (R98). -/
def emptyLogs (ctx : Nat) (s : State) : State :=
  { s with contexts := s.contexts.map fun e => if e.1 == ctx then (e.1, { e.2 with ulcount := [0, 0, 0, 0] }) else e }

/-- Whether every task of a gang here has ended. -/
def Gang.allEnded (x : Gang) : Bool := x.members.all fun a => x.ended.contains a

/-- A gang whose tasks here have all ended and left: its other devices are told, or, at its home device once no other
has a task, its item's completion is counted (R376). -/
def settleGang (g : Nat) (s : State) : State :=
  match KMap.get? s.gangs g with
  | none => s
  | some x =>
    if !x.placed || !x.allEnded then s
    else if x.home != devId s then
      let s1 := releaseWrites g (tellAll x (x.others ++ (if x.others.contains x.home then [] else [x.home])) .barrier 3 x.exit.toNat s)
      { s1 with gangs := KMap.erase s1.gangs g, graphs := KMap.erase s1.graphs x.graph }
    else if x.remote.isEmpty then
      let s1 := match x.item with
        | some h => wlComplete s x.ctx h
        | none => s
      let s2 : State :=
        { s1 with
          gangs := KMap.erase s1.gangs g
          graphs := s1.graphs.map fun e =>
            if e.1 == x.graph && e.2.status == 0#8 then (e.1, { e.2 with status := x.exit }) else e }
      releaseWrites g s2
    else s

/-- The clusters of a gang whose task is held (R186). -/
def heldClusters (s : State) (g : Nat) : List Nat :=
  (gangClusters s g).filter fun c => (s.cl c).task.any fun t => t.state == .held

/-- TASK_END (R186): a task that has halted ends at once, or, in the protected gang, is held until the next barrier or
the end of the whole gang, which completes its last superstep as a barrier does. -/
def taskEnd (c : Nat) (s : State) : State :=
  match (s.cl c).task with
  | none => s
  | some t =>
    if t.state != .halted then s
    else if !s.protectedGang t.gang then settleGang t.gang (releaseTask c s)
    else
      let s1 := (s.modCl c fun x => { x with task := some { t with state := .held } }).modGang t.gang fun x =>
        { x with ended := NSet.insert x.ended t.agent }
      match KMap.get? s1.gangs t.gang with
      | none => s1
      | some x =>
        if x.allEnded && x.remote.isEmpty then
          settleGang t.gang (releaseWrites t.gang (emptyLogs t.ctx ((heldClusters s1 t.gang).foldl (fun s c => releaseTask c s) s1)))
        else s1

/-- TASK_END (R186). -/
def execTaskEnd (cl : Nat) (s : State) : Host.Outcome State Fault Refusal := .next (taskEnd cl s)

/-! ### The gang barrier (R354, R355) -/

/-- Every task of the gang here has arrived; one that has halted counts as arrived. -/
def tasksArrived (s : State) (g : Nat) (x : Gang) : Bool :=
  x.members.all fun a =>
    x.ended.contains a || s.clusters.any fun e => e.2.arrived && !e.2.released && e.2.task.any fun t =>
      t.gang == g && t.agent == a && t.state == .running

/-- The other conditions of Table 14.2: no command, issued or accepted, no landing, reduction or round of the superstep is left, no rollback
is asked for, and a shadow sweep that is due has completed. -/
def gangQuiet (s : State) (g : Nat) (x : Gang) : Bool :=
  let mine := gangClusters s g
  let here (f : Fill) : Bool := match f.line with
    | .sram c _ => mine.contains c
    | _ => mine.contains f.cl
  let due := (x.sstep + 1#32).toNat % 1024 == 0 && ((KMap.get? s.contexts x.ctx).map (·.sweepDue)).getD false
  s.clusters.all (fun e => e.2.cmds.all (fun c => c.gang != g) && e.2.kicks.all fun k => k.2.cmd.gang != g) && !s.fills.any here
    && s.reductions.all (fun r => !(r.ctx == x.ctx && r.gen == x.sstep))
    && (List.range 4).all (fun d => (s.die d).rounds.all fun r => r.gang != g)
    && x.rollback.isNone && !(s.protectedGang g && due)

/-- A grove as a barrier leaves it: every set zero and settled, every slab line free (R266). -/
def clearGrove (c : Nat) (s : State) : State :=
  let s1 := (s.cl c).grove.tiles.foldl (fun s k => s.modTile (dieOf c) k Tile.clear) s
  s1.modCl c fun x => { x with grove := { x.grove with settled := 15#4, kept := 0#4 }, progress := none }

/-- The clusters whose tiles are a gang's home tiles: of its tasks where they run, and of those that have ended (R244,
R375). -/
def homesOf (s : State) (g : Nat) (members : List Nat) : List Nat :=
  (List.range 384).filter fun c => (members.contains c || (s.cl c).task.isSome) && inGang s g c

/-- The barrier completes for the gang's tasks on this device, in the order of R355. -/
def completeBarrier (g : Nat) (x : Gang) (s : State) : State :=
  let n := x.sstep + 1#32
  let prot := s.protectedGang g
  let mine := gangClusters s g
  let s1 := releaseWrites g (s.modGang g fun x =>
    { x with
      sstep := n, runs := 0, arrivedDevs := [], reported := false, goAhead := false, frozen := false, prepared := []
      unprotected := false, flowing := false })
  let s2 : State := if prot then
      { emptyLogs x.ctx s1 with
        contexts := (emptyLogs x.ctx s1).contexts.map fun e =>
          if e.1 == x.ctx then (e.1, { e.2 with sweepDue := e.2.sweepDue || n.toNat % 1024 == 0 }) else e }
    else s1
  let s3 := (heldClusters s2 g).foldl (fun s c => releaseTask c s) s2
  let each (s : State) (c : Nat) : State :=
    if (s.cl c).task.isNone then s
    else
      let a := s.modCl c fun y => { y with logged := [] }
      let b := if prot then takeSnap c a else a
      (clearGrove c b).modCl c fun y => { y with l1 := [], released := y.arrived }
  settleGang g (markTiles (homesOf s3 g x.members) (mine.foldl each s3))

/-- BARRIER_COMPLETION (R354, R355). On one device the barrier completes as soon as its conditions hold. On several, each reports
to the gang's lowest-numbered device once they hold there, and withdraws when they cease to; that device then asks whether all are
still ready, every device stops its rake threads and answers, and the completion is sent once every answer has come, so that no
device is past the barrier while another could still leave it (R412, R416; log 13). -/
def execBarrierCompletion (gang : Nat) (s : State) : Host.Outcome State Fault Refusal :=
  match KMap.get? s.gangs gang with
  | none => .next s
  | some x =>
    let ok := tasksArrived s gang x && gangQuiet s gang x
    let low := lowestDev s x
    let all (imd arg : Nat) (f : Gang → Gang) : State := tellAll x x.others .barrier imd arg (s.modGang gang f)
    let one (imd arg : Nat) (f : Gang → Gang) : State := tellAll x [low] .barrier imd arg (s.modGang gang f)
    if !x.placed then .next s
    else if x.others.isEmpty then .next (if ok then completeBarrier gang x s else s)
    else if x.members.isEmpty then .next s
    else if low == devId s then
      if !ok || !(x.others.all fun d => x.arrivedDevs.contains d) then
        .next (if x.frozen then all 6 0 fun y => { y with frozen := false, prepared := [] } else s)
      else if !x.frozen then
        .next (all 2 (x.poll + 1) fun y => { y with frozen := true, prepared := [], poll := y.poll + 1 })
      else if x.others.all fun d => x.prepared.contains d then
        .next (completeBarrier gang x (tellAll x x.others .barrier 5 0 s))
      else .next s
    else if x.goAhead then .next (completeBarrier gang x s)
    else if !ok then
      .next (if x.reported then one 1 0 fun y => { y with reported := false, frozen := false, prepared := [] } else s)
    else if !x.reported then .next (one 0 0 fun y => { y with reported := true })
    else if x.frozen && x.prepared.isEmpty then .next (one 4 x.poll fun y => { y with prepared := [devId s] })
    else .next s

/-- Whether a gang stands between the question of its barrier and the answer: nothing of it is halted and no rollback begins. -/
def State.frozenGang (s : State) (g : Nat) : Bool := (KMap.get? s.gangs g).any (·.frozen)

/-! ### Shadow sweeps (R97, R411) -/

/-- The shadow words of a context that are not zero, by number. -/
def shadowWords (s : State) (c : Context) : List Nat :=
  ((s.hbm.filter fun e => c.shbase ≤ e.1 && e.1 < c.shbase + c.cksize / 32).map fun e => (e.1 - c.shbase) / 4).eraseDups

/-- Every shadow word whose generation is picked is written to zero at its slice. DESIGN CHOICE (log 47): one whose sector is
uncorrectable stands, for its generation cannot be read. -/
def sweep (c : Context) (pick : Nat → Bool) (s : State) : State :=
  (shadowWords s c).foldl (fun s k =>
    let a := c.shbase + 4 * k
    if (sectorCause s a 4).isNone && pick (bits (s.hbmNat a 4) 31 20) then s.slicePut a (natLe 4 0) else s) s

/-- SHADOW_SWEEP (R97): a pass over the context's shadow region. -/
def execShadowSweep (ctx : Nat) (s : State) : Host.Outcome State Fault Refusal :=
  match KMap.get? s.contexts ctx with
  | none => .next s
  | some c =>
    let gen := (s.sstepOf ((protectedGangOf s ctx).getD 0)).toNat % 4096
    .next { sweep c (fun n => n != gen) s with contexts := KMap.set s.contexts ctx { c with sweepDue := false } }

/-! ### Rollback (R409 to R416) -/

/-- The lines that this superstep has logged: DPA of the shadow word and of the line. -/
def loggedShadow (s : State) (c : Context) (gen : Nat) : List (Nat × Nat) :=
  (shadowWords s c).filterMap fun k =>
    let x := Shadow.ofNat (s.hbmNat (c.shbase + 4 * k) 4)
    if x.gen != gen || !x.log then none
    else
      let va := c.ckbase + 128 * k
      match walkFrom s va levels c.root with
      | .ok (leaf, sh) => (match leafTarget leaf sh va with | .dev a => some (c.shbase + 4 * k, a / 128 * 128) | _ => none)
      | .error _ => none

/-- The bits in error of the lines that a predicate picks are gone with what they held (log 72). -/
def Cluster.mend (x : Cluster) (pick : Nat → Bool) : Cluster := { x with bad := x.bad.filter fun b => !pick (b / 1024) }

/-- A line of a cluster's scratchpad put back, with its code; a spilled task's lies in its image. -/
def putLine (ctx c line : Nat) (old : List Byte) (s : State) : State :=
  s.modHome ctx c fun x => (plantBytes x (128 * line) old).mend fun l => l == line

/-- The undo records of a context on a die, last first, with the DPA of each. -/
def undoRecords (c : Context) (d : Nat) : List Nat :=
  ((List.range (c.ulcount.getD d 0)).map fun n => c.ulbase.getD d 0 + 144 * n).reverse

/-- One undo record is applied, at the slices that hold it and what it names (R410, Table 4.11). -/
def applyUndo (ctx : Nat) (sstep : BitVec 32) (shadows : List (Nat × Nat)) (s : State) (r : Nat) : State :=
  let old := s.hbmRead r 128
  let loc := s.hbmNat (r + 128) 8
  let s0 := l2Read r 144 s
  if s.hbmNat (r + 140) 4 != sstep.toNat then s0
  else if bit loc 63 then putLine ctx (bits loc 30 22) (bits loc 21 7) old s0
  else
    let a := bits loc 38 7 * 128
    (shadows.filter fun p => p.2 == a).foldl (fun s p => s.slicePut p.1 (natLe 4 (s.hbmNat (r + 136) 4))) (s0.slicePut a old)

/-- Plain vector names after a rollback: 0x7FC0 in every 16-bit field (Table 17.2). -/
def nanNames (x : Cluster) : KMap Vec :=
  let nan : Vec := BitVec.ofNat 1024 (leNat ((List.range 64).flatMap fun _ => [0xC0#8, 0x7F#8]))
  ((List.range 1536).filter fun k => (shapeOf x k).isNone).map fun k => (k, nan)

/-- Control registers that a snapshot does not hold: `sramcfg`, `sigtab`, `sigcnt`, `vshp`; an error in one stays (R409,
R412). -/
def unlistedReg (k : Nat) : Bool :=
  let n := k % 4096 - 256
  256 ≤ k % 4096 && (n == 0x032 || n == 0x035 || n == 0x036 || (0x060 ≤ n && n ≤ 0x09F))

/-- A thread as a rollback leaves it: one that had trapped issues its instruction again, for traps are dropped (R415). -/
def Rake.untrap (r : Rake) : Rake := if r.st == .trapped then { r with st := .ready, trap := none } else r

/-- A cluster's registers as its snapshot store holds them; plain names read 0x7FC0, queues are empty (R409, R412). What is
in flight, increments held at a full channel among it, ends with the instructions that made it. -/
def restoreSnap (n : Snap) (x : Cluster) : Cluster :=
  let w (i : Nat) : Walk := { n.walks.getD i Walk.reset with wait := none, steer := [], text := [] }
  { x with
    sregs := n.sregs, preds := n.preds, ptrs := n.ptrs, rmode := n.rmode, rseed := n.rseed, bfmt := n.bfmt, slipw := n.slipw
    tkcnt := n.tkcnt, scoreboard := n.scoreboard, cbm := n.cbm, seqs := n.seqs, rts := n.rts, flags := n.flags
    counters := n.counters, bphase := n.bphase, rakes := n.rakes.map fun e => (e.1, e.2.untrap), rings := n.rings
    wS := w 0, wL := w 1, wA := w 2, wW := w 3, wM := w 4
    vnames := nanNames x, vqueues := [], owedVers := [], tkheld := 0#8, heldAt := [], outcomes := [], vbrAt := none
    trail := [], kicks := [], retired := [], wack := 0, owed := [], winReads := coreOf x.winReads, logged := [], l1 := []
    progress := none, inbox := [], pushAt := coreOf x.pushAt, awaited := coreOf x.awaited, regBad := x.regBad.filter unlistedReg
    nameBad := [], released := false, grove := { n.grove with settled := 15#4, kept := 0#4 }
    task := x.task.map fun t => { t with state := .saved, trap := none, preq := false, item := n.item, exit := 0#8 } }

/-- The scratch region after a rollback: every cell 0x7FC0 (R116). -/
def scratchNaN (x : Cluster) : Cluster :=
  let lo := 512 * bits x.sramcfg.toNat 13 8
  let hi := max lo (512 * firstL1Bank x)
  let cells : Mem := (List.range (64 * (hi - lo))).flatMap fun i => [(128 * lo + 2 * i, 0xC0#8), (128 * lo + 2 * i + 1, 0x7F#8)]
  { x.mend (fun l => lo ≤ l) with
    written := x.written.filter (fun l => l < lo) ++ (List.range (hi - lo)).map fun i => lo + i
    sram := Mem.below x.sram (128 * lo) ++ cells ++ Mem.from x.sram (128 * hi) }

/-- The scratch region set up again as at launch (R353). -/
def scratchLaunch (l : Option Loaded) (x : Cluster) : Cluster :=
  let lo := 512 * bits x.sramcfg.toNat 13 8
  let y := { x.mend (fun l => lo ≤ l) with written := x.written.filter (fun k => k < lo), sram := Mem.below x.sram (128 * lo) }
  match l with
  | some l => plantImage l (fun k => decide (lo ≤ k)) y
  | none => y

/-- A cluster of the gang, or a spilled image, as the rollback leaves it; a task that has not started yet still starts as
launched. Vector names read 0x7FC0 in superstep 0 too (R353, R409). DEDUCED (log 51). -/
def rollCluster (s : State) (sstep : BitVec 32) (die : Nat) (x : Cluster) : Cluster :=
  match x.snap with
  | none =>
    { x with task := x.task.map fun t => { t with state := if t.state == .placed then .placed else .saved, trap := none, preq := false } }
  | some n =>
    let y := restoreSnap n x
    if sstep == 0#32 then
      let l := x.task.bind fun t =>
        match tableRead t.ctx die (stageVa s t die) 128 s with
        | .ok (s1, bs) => ((loadImageOf t.ctx die (stageOf (leNat bs)) s1).toOption).map (·.2)
        | .error _ => none
      { scratchLaunch l y with arrived := false }
    else { scratchNaN y with arrived := true }

/-- What a gang has made in the aborted superstep and not seen land is discarded (R148, R288, R330, R413). -/
def discardWork (g : Nat) (x : Gang) (s : State) : State :=
  let mine := gangClusters s g
  let aims (f : Fill) : Bool := mine.contains f.cl || match f.line with | .sram c _ => mine.contains c | _ => false
  let s2 := (discardCmds (fun c => c.gang == g) s).dropFills aims
  let stale (p : Packet) : Bool :=
    match p.kind with
    | .rollback | .placement | .drain | .spdm => false
    | .barrier | .sweep => gangOfPacket s p == some g && p.gen == x.sstep
    | _ => p.ctx == x.ctx && p.gen == x.sstep
  { s2 with
    commit := s2.commit.filter fun w => w.gang != g
    net := s2.net.filter fun p => !stale p
    park0 := s2.park0.filter fun p => !stale p
    park1 := s2.park1.filter fun p => !stale p
    dropped := s2.dropped + ((s2.net ++ s2.park0 ++ s2.park1).filter stale).length
    trains := s2.trains.filter fun p => !stale p
    carries := s2.carries.filter fun e => !mine.contains e.cl
    reductions := s2.reductions.filter fun r => !(r.ctx == x.ctx && r.gen == x.sstep)
    dies := s2.dies.map fun e =>
      (e.1, { e.2 with
        rounds := e.2.rounds.filter fun r => r.gang != g
        early := e.2.early.filter fun m => !(m.1 == x.ctx && m.2.2.gen == x.sstep) }) }

/-- The tiles of a gang's groves as at the barrier: every one given up, then those of the snapshots taken again. -/
def restoreTiles (cs : List Nat) (members : List Nat) (s : State) : State :=
  let s1 := cs.foldl (fun s c => dropTiles c s) s
  markTiles (cs ++ members.filter fun c => !cs.contains c) (cs.foldl (fun s c => takeTiles c ((((s.cl c).snap.map (·.grove)).getD (s.cl c).grove)) s) s1)

/-- Windrow and group counters of a gang's snapshots (R290, R322, R412): the windrows homed on the dies `dies` count as in
the snapshots, and one that they do not list from zero again. -/
def restoreCounters (ctx : Nat) (dies : List Nat) (snaps : List Snap) (s : State) : State :=
  let set_ {α : Type} (m : KMap α) (l : KMap α) : KMap α := l.foldl (fun m e => KMap.set m e.1 e.2) m
  let new := dies.eraseDups.flatMap fun d => homedWindrows s ctx d
  let old := new.foldl (fun m e => KMap.erase m e.1) s.windrows
  let s1 := { s with windrows := snaps.foldl (fun m n => set_ m n.windrows) old }
  match snaps with
  | [] => s1
  | n :: _ => { s1 with groupSeq := set_ (s1.groupSeq.filter fun e => e.1 % 4096 != ctx) n.groupSeq }

/-- The records and notices whose tags the repeated superstep uses again are forgotten (R322, R324). -/
def forgetTags (ctx : Nat) (sstep : BitVec 32) (s : State) : State :=
  let old (k : Kept) : Bool := k.ctx == ctx && k.gen == sstep &&
    match versionSlot s k.grp k.ver with
    | some n => seqBefore (s.groupCount n ctx) k.seq
    | none => true
  { s with kept := s.kept.filter fun k => !old k, notices := s.notices.filter fun k => !old k }

/-- The devices of the fabric other than this one: those that the route table reaches. -/
def farDevices (s : State) : List Nat :=
  ((s.routes.filter fun e => bit e.2.toNat 0).map (·.1)).filter fun d => d != devId s && d < 1024

/-- The drain markers of a device's teardown or rollback: one on every port that is up, in each class, to every other device; each
by device, class and port (R401, R415). -/
def markerPlan (s : State) : List (Nat × Nat × Nat) :=
  ((List.range 64).filter fun k => (s.port k).up).flatMap fun k =>
    (farDevices s).flatMap fun d => (List.range 4).map fun tc => (d, tc, k)

/-- The number by which a marker is awaited. -/
def markerKey (m : Nat × Nat × Nat) : Nat := 64 * (4 * m.1 + m.2.1) + m.2.2

/-- The drain markers of a gang that rolls back leave, and are noted until each has come back (R415). -/
def sendGangMarkers (g : Nat) (x : Gang) (s : State) : State :=
  if !fabricOn s then s
  else
    let out := markerPlan s
    let s1 := s.modGang g fun y => { y with markers := out.foldl (fun m p => NSet.insert m (markerKey p)) [] }
    out.foldl (fun s p => s.send { gangPacket s x p.1 .drain 0 2 with tc := p.2.1, ver := p.1, grp := p.2.2 }) s1

/-- The rollback of a gang on this device (R415), up to its markers' return and the confirmation. -/
def rollDevice (g : Nat) (x : Gang) (c : Context) (s : State) : State :=
  let shadows := loggedShadow s c (x.sstep.toNat % 4096)
  let s1 := discardWork g x s
  let s2 := ((List.range 4).flatMap (undoRecords c)).foldl (applyUndo x.ctx x.sstep shadows) s1
  let s3 := emptyLogs x.ctx (sweep c (fun n => n == x.sstep.toNat % 4096) s2)
  let mine := gangClusters s3 g
  let away_ := s3.spilled.filter fun p => p.image.task.any fun t => t.gang == g
  let snaps := (mine.filterMap fun k => (s3.cl k).snap) ++ away_.filterMap fun p => p.image.snap
  let homes := (mine.filter fun k => (s3.cl k).snap.isSome).map dieOf ++ (away_.filter fun p => p.image.snap.isSome).map fun p => dieOf p.from_
  let s4 := restoreTiles mine x.members (forgetTags x.ctx x.sstep (restoreCounters x.ctx homes snaps s3))
  let s5 := mine.foldl (fun s k => s.setCl k (rollCluster s x.sstep (dieOf k) (s.cl k))) s4
  let revived := mine.filterMap fun k => (s5.cl k).task.map (·.agent)
  let s6 : State := { s5 with
    spilled := s5.spilled.map fun p =>
      if p.image.task.any (fun t => t.gang == g) then { p with image := rollCluster s5 x.sstep (dieOf p.from_) p.image, tiles := [] } else p
    gangs := KMap.set s5.gangs g { x with
      restored := true, reported := false, goAhead := false, frozen := false, prepared := []
      ended := x.ended.filter fun a => !revived.contains a, sweeps := [], sweepIn := [] } }
  sendGangMarkers g x ((mine ++ away_.map (·.from_)).foldl State.showTrapped s6)

/-- Every device has rolled back: each task resumes at its `bar`, which completes again without advancing the number,
or restarts at its entry in superstep 0 (R353, R363, R415). -/
def resumeGang (g : Nat) (s : State) : State :=
  let ready (x : Cluster) : Cluster := { x with released := x.arrived }
  let s1 := (gangClusters s g).foldl (fun s c => s.modCl c fun x =>
    { ready x with task := x.task.map fun t => { t with state := if t.state == .placed then .placed else .running } }) s
  let wake (p : Spilled) : Spilled := if p.image.task.any (fun t => t.gang == g) then { p with image := ready p.image } else p
  let s2 : State := { s1 with spilled := s1.spilled.map wake }
  s2.modGang g fun x =>
    { x with
      rollback := none, restored := false, told := false, confirmed := [], goAhead := false, arrivedDevs := [], reported := false
      markers := [], runs := x.runs + 1 }

/-- Whether an undo record that the rollback reads is uncorrectable, or a snapshot store of the gang (R414). -/
def logsPoisoned (s : State) (g : Nat) (c : Context) : Bool :=
  let broken (x : Cluster) : Bool := x.task.any (fun t => t.gang == g) && x.snap.any (·.broken)
  ((List.range 4).any fun d => (undoRecords c d).any fun r => (sectorCause s r 144).isSome)
    || s.clusters.any (fun e => broken e.2) || s.spilled.any fun p => broken p.image

/-- ROLLBACK (R415): of a gang that has a request, or that meets an uncorrectable error now; then, once its markers have
returned, its confirmation, and the resumption once every device has confirmed. An unprotected gang, or one whose log or
snapshot cannot be read, ends its context instead (R414). None begins between a barrier's question and its answer (R416). -/
def execRollback (gang : Nat) (cause : BitVec 8) (s : State) : Host.Outcome State Fault Refusal :=
  match KMap.get? s.gangs gang with
  | none => .next s
  | some x =>
    let low := lowestDev s x
    if x.restored then
      if !x.markers.isEmpty then .next s
      else if x.others.isEmpty then .next (resumeGang gang s)
      else if low == devId s then
        if x.others.all fun d => x.confirmed.contains d then
          .next (tellAll x x.others .rollback 2 0 (resumeGang gang s))
        else .next s
      else if x.goAhead then .next (resumeGang gang s)
      else if x.reported then .next s
      else .next (tellAll x [low] .rollback 1 0 (s.modGang gang fun y => { y with reported := true }))
    else if x.frozen then .next s
    else
      match (if x.rollback.isSome then x.rollback else if 0xC0#8 ≤ cause && cause ≤ 0xC6#8 then some cause else none),
          KMap.get? s.contexts x.ctx with
      | some r, some c =>
        if !s.protectedGang gang || x.unprotected then .next (s.raiseCheck x.ctx gang 0 7 r)
        else if logsPoisoned s gang c then
          .next (((s.logFault x.ctx ⟨0xC8#8, 2, 0, 7, 0, 0#32, 0, x.sstep, 0, 0⟩).soon (.kill x.ctx)).soon (.alert gang true))
        else
          let s1 := if x.told then s else tellAll x x.others .rollback 0 (r.toNat + 256 * x.runs) s
          let s2 := rollDevice gang { x with rollback := some r } c s1
          .next (if x.others.isEmpty && !fabricOn s then resumeGang gang s2 else s2)
      | _, _ => .next s

/-- A gang's other devices learn that it has lost its protection, or that its context ends (R414). -/
def alertGang (g : Nat) (ends : Bool) (s : State) : State :=
  match KMap.get? s.gangs g with
  | some x => tellAll x x.others .rollback (if ends then 4 else 3) 0 s
  | none => s

/-! ### Soft errors (R260, R405 to R408; logs 72, 75) -/

/-- A sector (DPA / 32) that L2 holds. -/
def heldSector (s : State) (k : Nat) : Bool := s.l2.any fun e => e.2.any fun y => y.line == k / 4 && y.valid.getLsbD (k % 4)

/-- The registers of a cluster that hold a code, by number: of the task scalars, predicates, pointers and control registers, of
threads scalars and predicates. s0 and k0 hold nothing. -/
def codedReg (k : Nat) : Bool :=
  let n := k % 4096
  k < 36864 && n != 0 && n != 64 && (n < 80 || (k < 4096 && ((128 ≤ n && n < 160) || (256 ≤ n && n < 256 + 0xB0))))

/-- The same of a die manager core, with the supervisor registers of its die. -/
def codedCore (n : Nat) : Bool := n != 0 && n != 64 && (n < 80 || (256 + 0x100 ≤ n && n < 256 + 0x800))

/-- A soft error strikes. One within its store's code is corrected in place and counted; one beyond it stands until it is
written over or consumed. A struck table entry takes its port down. -/
def strike (x : Upset) (s : State) : State :=
  match x with
  | .sram cl b => if 383 < cl || 25165824 ≤ b then s else s.modCl cl fun y => { y with bad := NSet.insert y.bad b }
  | .reg cl k hard =>
    if 383 < cl || !codedReg k then s
    else if hard then s.modCl cl fun y => { y with regBad := NSet.insert y.regBad k } else s.count (dieOf cl) 133 1
  | .name cl n hard =>
    if 383 < cl || 1535 < n then s
    else if hard then s.modCl cl fun y => { y with nameBad := NSet.insert y.nameBad n } else s.count (dieOf cl) 132 1
  | .core d k hard =>
    if 3 < d || !codedCore k then s
    else if hard then s.modDie d fun y => { y with coreBad := NSet.insert y.coreBad k } else s.count d 133 1
  | .l2 k hard =>
    if !heldSector s k then s
    else if hard then { s with l2bad := NSet.insert s.l2bad k } else s.count (homeDie s (32 * k)) 130 1
  | .hbm k hard => if 2 ^ 34 ≤ k then s else if hard then s.poison k else s.count (homeDie s (32 * k)) 131 1
  | .pin d k hard =>
    if 3 < d || 196608 * pinWays s d ≤ k then s
    else if hard then s.modDie d fun y => { y with pinBad := NSet.insert y.pinBad k } else s.count d 130 1
  | .slab die tile line => if 3 < die || 383 < tile || 511 < line then s else s.modTile die tile fun t => { t with lineBad := NSet.insert t.lineBad line }
  | .acc die tile set_ e => if 3 < die || 383 < tile || 3 < set_ || 4095 < e then s else s.modTile die tile fun t => { t with accBad := NSet.insert t.accBad (4096 * set_ + e) }
  | .sums die tile => if 3 < die || 383 < tile then s else s.modTile die tile fun t => { t with upset := true }
  | .snap cl => if 383 < cl then s else s.modCl cl fun y => { y with snap := y.snap.map fun n => { n with broken := true } }
  | .table port => if (s.port port).up then portDown port s else s

/-! ### Patrol scrub (R407) -/

/-- PATROL_SCRUB (R407): a sector found uncorrectable is poisoned. -/
def execPatrolScrub (sector : Nat) (unc : Bool) (s : State) : Host.Outcome State Fault Refusal :=
  .next (if unc && sector < 2 ^ 34 then s.poison sector else s)

end Sys2Proof.Machine
end

