-- ==== Sys2Proof/Machine/Walk.lean ====
section
/-! DEFINITION. What a walker does with the head parcel it stands at (R21 to R24, R162 to R170, R443): step
over it, wait, raise a decode cause, or issue its instruction. -/

namespace Sys2Proof.Machine

/-- What moving a walker comes to: an instruction issues, or the step is done. -/
inductive Plan where
  | run (i : Instr) (s : State)
  | done (s : State)
  deriving DecidableEq, Repr

/-- Where the engines behind S stand toward an S or C instruction, read from its head parcel alone: they
step over it, or wait until the S PC has executed it (Tables 7.3 and 8.1, R142, R155, R360). -/
def headOrdered (h : Parcel) : Bool :=
  match headTag h with
  | .S =>
    match (headOpc h).toNat with
    | 0x35 | 0x36 | 0x38 => true
    | 0x3A | 0x3D | 0x3F => true
    | 0x30 =>
      let n := (fImm14 h).toNat
      decide (n ≤ 0x034) || n == 0x039
    | 0x31 =>
      let n := (fImm14 h).toNat
      decide (n ≤ 0x034) || (decide (0x040 ≤ n) && decide (n ≤ 0x05F))
    | _ => false
  | .C => (headOpc h).toNat == 0x06 || (headOpc h).toNat == 0x15 || (headOpc h).toNat == 0x11
  | _ => false

/-- Whether PC `e` executes an instruction of tag `t` (Table 2.3). -/
def executes (e : Eng) (t : Tag) : Bool :=
  match t with
  | .X => true
  | .S | .C | .K => e == .S
  | .L => e == .L | .A => e == .A | .W => e == .W | .M => e == .M

/-- An instruction that starts inside the innermost open body and ends beyond its end (R193); the
meaning of an X instruction checks it after 0x10. -/
def straddles (w : Walk) (len : Nat) : Bool :=
  match w.loops with
  | [] => false
  | l :: _ => decide (l.start ≤ w.pc) && decide (w.pc < l.stop) && decide (l.stop < w.pc + len)

/-- Passing `len` bytes would leave the furthest-behind PC more than `SLIP` behind (R162). -/
def slips (x : Cluster) (w : Walk) (len : Nat) : Bool :=
  decide (x.minDp + bits x.slipw.toNat 16 0 < w.dp + len)

/-- The X opcodes that a rake thread or a die manager core executes (R22). -/
def rakeX (opc : BitVec 7) : Bool :=
  opc == 0#7 || opc == 1#7 || opc == 2#7 || opc == 3#7 || opc == 4#7 || opc == 0xA#7

/-- A cause of the rollback route (R386). -/
def isCheck (c : BitVec 8) : Bool := 0xC0#8 ≤ c && c ≤ 0xC6#8

/-- What the executing agent's PC or thread holds of its text. -/
def State.selfText (s : State) : KMap Parcel :=
  match s.actor with
  | .pc c e => ((s.cl c).walk e).text
  | _ => (s.selfRake.map (·.text)).getD []

/-- The executing agent holds parcels from a text offset on: a store to them is not seen before it has issued them, or has
passed an `isync` (R35). -/
def State.holdText (s : State) (off : Nat) (ps : List Parcel) : State :=
  let put (l : KMap Parcel) : KMap Parcel := (ps.mapIdx fun i p => (off + 4 * i, p)).foldl (fun l q => KMap.set l q.1 q.2) l
  match s.actor with
  | .pc c e => s.modCl c fun x => x.setWalk e { x.walk e with text := put (x.walk e).text }
  | _ =>
    match s.selfRake with
    | some r => s.setSelfRake { r with text := put r.text }
    | none => s

/-- The executing agent raises a cause met in fetching, by the route that R386 gives it; text on an owed line is waited
for (R17). -/
def State.raiseFetch (s : State) (c : BitVec 8) (a : Nat) : State :=
  if c == owedCause then s.noteWait .owed
  else if isCheck c then s.raiseSelfCheck c else s.raise c (BitVec.ofNat 64 a)

/-- The rest of the instruction, and its decoding; any cause is raised by the executing agent (R23, R35). DESIGN CHOICE
(log 65): every parcel is fetched before the word is decoded, so a cause met in fetching comes before 0x01 and 0x03. -/
def issue (w : Who) (t : Task) (pc : Nat) (h : Parcel) (s : State)
    (k : Instr → State → Plan) : Plan :=
  match heldParcels s.selfText w t (parcelsOf (headLen h) - 1) (pc + 4) s with
  | .error (c, a) => .done (s.raiseFetch c a)
  | .ok (s1, ps) =>
    match decode (h :: ps) with
    | .error c => .done (s1.raise c 0#64)
    | .ok i => k i (s1.holdText pc (h :: ps))

/-- The same at an X instruction for a PC that follows S: the S PC has made the decode checks (R23, R388), and one whose
own parcels do not read or decode goes no further. -/
def issueX (w : Who) (t : Task) (pc : Nat) (h : Parcel) (s : State)
    (k : Instr → State → Plan) : Plan :=
  match heldParcels s.selfText w t (parcelsOf (headLen h) - 1) (pc + 4) s with
  | .error (c, _) => .done (s.noteWait (if c == owedCause then .owed else .order))
  | .ok (s1, ps) =>
    match decode (h :: ps) with
    | .error _ => .done (s1.noteWait .order)
    | .ok i => k i (s1.holdText pc (h :: ps))

/-- A PC that steps over an `mtc` to `rseed` starts its ordinals again (R65). -/
def reseed (e : Eng) (h : Parcel) (x : Cluster) : Cluster :=
  if e != .S && headTag h == .S && (headOpc h).toNat == 0x31 && (fImm14 h).toNat == 0x031 then
    x.setWalk e { x.walk e with ordinal := 0 }
  else x

/-- PC `e` meets a cause before its head parcel's tag can be read: the S PC raises it, any other waits there until the
S PC has passed (R443). -/
def metEarly (c : Nat) (e : Eng) (cause : BitVec 8) (a : Nat) (s : State) : State :=
  if e == .S || cause == owedCause then s.raiseFetch cause a
  else (s.modCl c fun x => x.setWalk e { x.walk e with barred := true }).noteWait .order

/-- What holds an instruction back before it issues: a register that S has still to write, an access of an engine behind,
a held command, a follow-on (R151, R167, R140, R141). -/
def heldUp (c : Nat) (e : Eng) (who : Who) (t : Task) (i : Instr) (s : State) : Option Wait :=
  let x := s.cl c
  if awaitsScalar s c who t e i then some .interlock
  else if interlocked s c who t e i then some .interlock
  else if heldBack s c none (if e == .S then scalarTouches s x c i else touches s x c e true i) then some .engine
  else if e == .M && awaitsFollow s c who t i then some .engine
  else none

/-- PC `e` of cluster `c` moves. DESIGN CHOICE (log 64): an instruction that is not an X instruction and runs past the end
of the innermost body raises 0x11 before its word is decoded, so before 0x01 to 0x07; an X instruction after. -/
def planPc (c : Nat) (e : Eng) (s : State) : Plan :=
  let x := s.cl c
  match x.task with
  | none => .done s
  | some t =>
    if t.state != .running then .done s
    else
      let w := x.walk e
      let who := s.who
      if w.barred && x.wS.dp ≤ w.dp then .done (s.noteWait .order)
      else if t.image.textSize ≤ w.pc then .done (metEarly c e 0x10#8 0 s)
      else
        match heldParcel w.text who t w.pc s with
        | .error (cause, a) => .done (metEarly c e cause a s)
        | .ok (s0, h) =>
          let s1 := s0.holdText w.pc [h]
          let len := headBytes h
          let tag := headTag h
          if headLen h == 3#2 then
            if e == .S && (tag == .X || executes e tag) || (tag != .X && executes e tag) then .done (s1.raise 0x02#8 0#64)
            else .done (s1.noteWait .order)
          else if e == .S && tag == .K then .done (s1.raise 0x04#8 0#64)
          else if !executes e tag then
            if e != .S && headOrdered h && x.wS.dp ≤ w.dp then .done (s1.noteWait .order)
            else if slips x w len then .done (s1.noteWait .slip)
            else .done (s1.modCl c fun y => (reseed e h y).pass e len (w.pc + len))
          else if tag == .X && e != .S && headOpc h == 0x0B#7 && e != .A && w.token == none then
            .done (s1.noteWait .steering)
          else if tag == .X && e == .A && headOpc h == 0x0B#7 && x.vbrAt != some w.dp then
            .done (s1.noteWait .order)
          else if tag == .X && e != .S && headOpc h != 0x0B#7 && x.wS.dp ≤ w.dp then
            .done (s1.noteWait (if headOpc h == 1#7 || (3 ≤ (headOpc h).toNat && (headOpc h).toNat ≤ 7) then .outcome else .order))
          else if tag != .X && straddles w len then .done (s1.raise 0x11#8 0#64)
          else if slips x w len then .done (s1.noteWait .slip)
          else
            (if tag == .X && e != .S then issueX else issue) who t w.pc h s1 fun i s2 =>
              match heldUp c e who t i s2 with
              | some r => .done (s2.noteWait r)
              | none => if (e == .S || tag != .X) && meetsBadReg s2 i then .done (s2.raiseSelfCheck 0xC3#8) else .run i s2

/-- A thread's instruction issues once no command of its own holds it back, and consumes no error in a register (R140,
R407). -/
def threadRun (i : Instr) (s : State) : Plan :=
  if heldBack s s.selfCl (some (agentNum s)) (scalarAccess s s.selfCtx s.selfCl s.rd s.holds i) then .done s
  else if meetsBadReg s i then .done (s.raiseSelfCheck 0xC3#8)
  else .run i s

/-- A rake thread, or a die manager core, moves (R22, R381). -/
def planRake (t : Task) (r : Rake) (s : State) : Plan :=
  if r.st == .idle || r.st == .trapped || r.st == .ended then .done s
  else if t.image.textSize ≤ r.pc then .done (s.raise 0x10#8 0#64)
  else
    match heldParcel r.text s.who t r.pc s with
    | .error (cause, a) => .done (s.raiseFetch cause a)
    | .ok (s1, h) =>
      if headLen h == 3#2 then .done (s1.raise 0x02#8 0#64)
      else
        match headTag h with
        | .L | .A | .W | .M => .done (s1.raise 0x08#8 0#64)
        | .X =>
          if rakeX (headOpc h) then issue s.who t r.pc h s1 threadRun else .done (s1.raise 0x08#8 0#64)
        | _ => issue s.who t r.pc h s1 threadRun

/-- A walker moves. -/
def plan (w : Walker) (s : State) : Plan :=
  match w with
  | .pc c e => planPc c e s
  | .rake c thr =>
    match (s.cl c).task with
    | none => .done s
    | some t =>
      let held := (KMap.get? s.gangs t.gang).any (·.frozen)
      if !held && (t.state == .running || t.state == .trapped) then planRake t ((s.cl c).rake thr) s else .done s
  | .mgr d =>
    match (s.die d).coreTask with
    | none => .done s
    | some t => planRake t (s.die d).core s

/-- A walker fetches a parcel ahead of its issue (R35): it holds it from then on (log 73). -/
def fetchAhead (off : Nat) (s : State) : State :=
  match s.selfTask with
  | none => s
  | some t =>
    if off % 4 != 0 || t.image.textSize ≤ off then s
    else
      match fetchParcel s.who t off s with
      | .error _ => s
      | .ok (s1, p) => s1.holdText off [p]

/-- Whether the package has the walker (R8, R149, R381). -/
def hasWalker : Walker → Bool
  | .pc c _ => decide (c < 384)
  | .rake c t => decide (c < 384) && decide (t < 8)
  | .mgr d => decide (d < 4)

/-- The actor of a walker's step. -/
def actorOf : Walker → Actor
  | .pc c e => .pc c e
  | .rake c t => .rake c t
  | .mgr d => .mgr d

end Sys2Proof.Machine
end

