-- ==== Sys2Proof/Machine/Traps.lean ====
section
/-! DEFINITION. Trap entry, pre-emption, spilling and filling back, the actions of `tctl`, teardown (chapter 16), and the
walk deadlock (R168). -/

namespace Sys2Proof.Machine

/-! ### Trap entry (R168, R387, R388) -/

/-- Causes whose route in Table 16.9 is a trap. -/
def trapCause (c : BitVec 8) : Bool :=
  let n := c.toNat
  decide (1 ≤ n && n ≤ 0x16) || decide (0x20 ≤ n && n ≤ 0x2D) || decide (0x40 ≤ n && n ≤ 0x44) || decide (0x60 ≤ n && n ≤ 0x64)
    || decide (0x67 ≤ n && n ≤ 0x6B) || n == 0x6E || n == 0x6F || n == 0x70 || decide (0x80 ≤ n && n ≤ 0x84) || n == 0x86
    || decide (0xE0 ≤ n)

/-- TRAP_ENTRY (R387): engine `e` raises a cause at the instruction where its PC stands. Where another PC has raised one
already, the cause at the lower dynamic position is the one recorded, in the header and in the one entry of the log (R388). -/
def execTrapEntry (cl : Nat) (e : Eng) (cause : BitVec 8) (addr : Word) (s : State) : Host.Outcome State Fault Refusal :=
  match (s.cl cl).task with
  | none => .next s
  | some t =>
    if !trapCause cause then .next s
    else
      match t.state, t.trap with
      | .running, _ => .next (if s.frozenGang t.gang then s else takeTrap cl e cause addr s)
      | .trapped, some r =>
        let p := ((s.cl cl).walk e).dp
        let tr : TrapRec := ⟨cause, engNum e, 0, addr, p, r.entry⟩
        if p < r.pos then
          let s1 := (s.modCl cl fun x => { x with task := some { t with trap := some tr } }).writeHeader cl false
          .next (match r.entry with
            | some n => s1.relogFault t.ctx n (trapEntry t tr (s.sstepOf t.gang))
            | none => s1)
        else .next s
      | _, _ => .next s

/-- Waits of one PC for another (R168); a class wait counts as one. -/
def stalled (w : Walk) : Bool :=
  match w.wait with
  | some .slip | some .token | some .queue | some .outcome | some .steering | some .order => true
  | _ => false

/-- WALK_DEADLOCK (R168): when all five PCs wait for one another, 0x0F at the S PC's instruction. -/
def execWalkDeadlock (cl : Nat) (s : State) : Host.Outcome State Fault Refusal :=
  let x := s.cl cl
  if (x.task.any fun t => t.state == .running) && engines.all (fun e => stalled (x.walk e)) && !slabFillsOwed s cl then
    .next (takeTrap cl .S 0x0F#8 0#64 s)
  else .next s

/-! ### Pre-emption (R171, R265, R391) -/

/-- The gang's device withdraws the arrival that it has reported (R354). -/
def withdraw (g : Nat) (s : State) : State :=
  match KMap.get? s.gangs g with
  | none => s
  | some x =>
    if x.reported then tellAll x [lowestDev s x] .barrier 1 0 (s.modGang g fun y => { y with reported := false }) else s

/-- Every PC and thread of a cluster halts where it stands; waits end, and an arrival at `bar` is withdrawn. A command
that is kicked and not accepted stays with its instruction, but for an `egroup`, which issues again (R319). -/
def haltTask (c : Nat) (s : State) : State :=
  match (s.cl c).task with
  | none => s
  | some t =>
    let x := s.cl c
    let s1 := s.modCl c fun x =>
      { (x.clearWaits.dropTexts.dropGroups fun _ => true) with
        task := some { t with state := .saved }, arrived := x.arrived && x.released, preempt := false
        winReads := coreOf x.winReads, pushAt := coreOf x.pushAt, awaited := coreOf x.awaited }
    let s2 := if x.arrived && !x.released then withdraw t.gang s1 else s1
    s2.writeHeader c false

/-- The tokens that a product instruction pops. -/
def productTok : Instr → Tok
  | .mmac tok .. | .mmacs tok .. | .mrot tok .. | .mgx tok .. | .mgrp tok .. => tok
  | _ => ⟨0#8, 0#8⟩

/-- The product instruction at the M PC makes `n` of its steps, fewer than all, and is abandoned; the progress register
records them; a pointer that its gather moved stands as before, for the instruction gathers again (R265). -/
def partialProduct (c n : Nat) (s : State) : State :=
  let x := s.cl c
  let s0 := s.modCl c fun y => { y with task := y.task.map fun t => { t with state := .running } }
  let back (s2 : State) : State :=
    { s2 with actor := s.actor }.modCl c fun y => { y with ptrs := x.ptrs, task := x.task, wM := x.wM }
  match plan (.pc c .M) { s0 with actor := .pc c .M } with
  | .done _ => s
  | .run i s1 =>
    match productSteps i with
    | none => s
    | some steps =>
      let ready : Bool := match popTokens .M (productTok i).pop s1 with
        | .ok _ => true
        | .error _ => false
      if n == 0 || !ready then s
      else
        match (do let l ← steps; runSteps true (some n) ((accOf i).getD 0#2).toNat l) s1 with
        | .ok (false, s2) => back s2
        | _ => s

/-- PREEMPTION (R391): a request halts every engine at an instruction boundary; `steps` of a product in flight
complete. -/
def execPreemption (cl steps : Nat) (s : State) : Host.Outcome State Fault Refusal :=
  if (s.cl cl).preempt && ((s.cl cl).task.any fun t => t.state == .running && !s.frozenGang t.gang) then
    .next (haltTask cl (partialProduct cl steps s))
  else .next s

/-- A task halts at a request that is not an event of its own (R185, R391). -/
def preemptTask (c : Nat) (s : State) : State := haltTask c (partialProduct c (Config.productSteps s.tick) s)

/-! ### Spilling (R147, R393 to R396) -/

/-- `n` bytes of memory from `b` on replaced by cells. -/
def spliceCells (m : Mem) (b n : Nat) (cells : Mem) : Mem := Mem.below m b ++ cells ++ Mem.from m (b + n)

/-- `n` bytes from DPA `b` on replaced by cells, at the slices of their lines. -/
def slicePutCells (b n : Nat) (cells : Mem) (s : State) : State :=
  let s1 := unpoison (l2Write b n s) b n
  { s1 with hbm := spliceCells s1.hbm b n cells }

/-- Vector entry slots 0 to 2,047: the entries of the vector names in order, one slot for a plain name and its depth for a
queue, then zero (log 17). -/
def entrySlots (x : Cluster) : List Vec :=
  let l := (List.range 1536).flatMap fun n =>
    match shapeOf x n with
    | none => [KMap.getD x.vnames n 0#1024]
    | some e => (List.range (shapeDepth e)).map fun i => (KMap.getD x.vqueues n []).getD i 0#1024
  l ++ List.replicate (2048 - l.length) 0#1024

/-- The four home tiles of a cluster, in the order of a frame. -/
def homeTiles (c : Nat) : List Nat :=
  [(0, 0), (0, 1), (1, 0), (1, 1)].map fun p => tileKey (2 * rowOf c + p.1) (2 * colOf c + p.2)

/-- Tile control state before its check: a layout read only by the device (log 17). -/
def tileControl (t : Tile) : List Byte := (List.range 32764).map fun i => Config.tileByte t i

/-- The parts of a tile in the frame of its home cluster (Table 16.2, R394). -/
def spillTile (ctx : Context) (d k : Nat) (s : State) : State :=
  let home := homeOf d k
  let q := (homeTiles home).idxOf k
  let base := frameBase ctx home
  let t := s.tile d k
  let lines := (List.range 512).flatMap fun i => natLe 128 (t.line (i / 64) (i % 64)).toNat
  let accs := (List.range 16384).flatMap fun i => natLe 4 (KMap.getD t.acc i 0#32).toNat
  let ctl := tileControl t
  let crc := crc32c (lines ++ accs ++ ctl)
  ((s.slicePut (base + 0x340000 + 65536 * q) lines).slicePut (base + 0x380000 + 65536 * q) accs).slicePut
    (base + 0x3E0000 + 32768 * q) (ctl ++ natLe 4 crc.toNat)

/-- The task part of a frame, its tile parts, and the header. -/
def writeFrame (c : Nat) (t : Task) (ctx : Context) (s : State) : State :=
  let x := s.cl c
  let base := frameBase ctx t.agent
  let top := 65536 * firstL1Bank x
  let banks := (x.sram.filter fun e => e.1 < top && x.written.contains (e.1 / 128)).map fun e => (e.1 + base, e.2)
  let s1 := slicePutCells base 3145728 banks s
  let s2 := s1.slicePut (base + 0x300000) ((entrySlots x).flatMap fun v => natLe 128 v.toNat)
  let s3 := s2.slicePut (base + 0x3C1000) ((List.range 126976).map fun i => Config.controlByte x i)
  (x.grove.tiles.foldl (fun s k => spillTile ctx (dieOf c) k s) s3).writeHeader c true

/-- Whether a fill goes to the scratchpad of a cluster or to its grove. -/
def fillHere (c : Nat) (x : Cluster) (f : Fill) : Bool :=
  match f.line with
  | .sram k _ => k == c
  | .tile d r q _ _ => d == dieOf c && x.grove.tiles.contains (tileKey r q)

/-- The command that owes a fill, and whether it is saved with a spilled task. -/
def fillOwner (s : State) (f : Fill) : Option (Cmd × Bool) :=
  match s.cmdAt f.unit f.cl f.seq f.gang with
  | some k => some (k, false)
  | none =>
    match (s.spilled.flatMap fun p => p.image.cmds).find? fun k => f.of k with
    | some k => some (k, true)
    | none => none

/-- Whether a fill waits with a task that is spilled, its line keeping its previous contents: it belongs to a command that a
fault blocks, to one that the task has not started yet, to one that is itself saved, or to a round that has not sent the
bytes yet (R122, R147, R288, R395). -/
def savable (s : State) (t : Task) (f : Fill) : Bool :=
  match fillOwner s f with
  | none => false
  | some (k, away) =>
    away || (!k.started && k.gang == t.gang && k.unit == .copy)
      || (k.unit == .sluice && (f.bytes.isEmpty || k.landsLast && f.cl == k.cl))
      || (!k.parked.isEmpty && (k.unit != .copy || cmdAtRest s f.cl k))

/-- Whether a command of the task leaves its cluster free: it has not started, a fault blocks all that is left of it, or only
a follow-on is left whose turn comes after the M PC's present position (R147, R262). -/
def mayRest (s : State) (c : Nat) (k : Cmd) : Bool :=
  !k.started || (k.acks == 0 &&
    (cmdAtRest s c k || (k.follow == .owed && k.undone.isEmpty && !(s.fills.any fun f => f.of k) && !followReady s k)))

/-- Whether the task on a cluster may be spilled now: nothing is on its way to it but what waits with it, and its own
started copies have retired or rest (R147, R395). -/
def maySpill (c : Nat) (t : Task) (s : State) : Bool :=
  let x := s.cl c
  s.fills.all (fun f => !fillHere c x f || savable s t f)
    && x.cmds.all fun k => !(k.unit == .copy && k.gang == t.gang) || mayRest s c k

/-- A task waiting at `bar` with nothing that ties it to its cluster (R375). -/
def atBar (c : Nat) (t : Task) (s : State) : Bool :=
  let x := s.cl c
  let w : Who := ⟨t.ctx, t.agent + 1, t.gang, none, some (dieOf c), !t.priv, false, c, false⟩
  (match peekInstr x.wS.text w t x.wS.pc s with | some (.bar _) => true | _ => false) && x.gathered && x.owed.isEmpty
    && x.rings.all (fun r => r.2.desc == 0#64) && x.counters.all fun b => b.2.cur == 0 && b.2.nxt == 0

/-- The state of a halted task goes to its frame, with the fills that wait with it, and its cluster and tiles become free; the
bank formats stay (R288, R393, R444). -/
def spillTask (c : Nat) (s : State) : State :=
  match (s.cl c).task with
  | none => s
  | some t =>
    match KMap.get? s.contexts t.ctx with
    | none => s
    | some ctx =>
      if !maySpill c t s then s
      else
        let kept := s.fills.filter (fillHere c (s.cl c))
        let s1 := s.dropFills fun f => kept.contains f
        let s2 := writeFrame c t ctx s1
        let x := s2.cl c
        let mine (k : Cmd) : Bool := k.unit == .copy && k.gang == t.gang
        let image := { x.dropTexts with
          cmds := (x.cmds.filter mine).map fun k => { k with parked := [] }
          l1 := [], owed := [], tlb := [], winReads := [], pushAt := [], awaited := [] }
        let tiles : KMap Tile := x.grove.tiles.foldl (fun m k => KMap.set m k (s2.tile (dieOf c) k)) []
        let p : Spilled := ⟨t.ctx, t.agent, c, image, tiles, atBar c t s2 && kept.isEmpty, s.tick, kept⟩
        let rest := { x.vacant with
          cmds := x.cmds.filter fun k => !mine k, owed := x.owed, tlb := x.tlb, l1errs := x.l1errs, ringDrops := x.ringDrops, bfmt := x.bfmt }
        { (dropTiles c s2).setCl c rest with spilled := s2.spilled ++ [p] }

/-- Whether the cluster of a saved task is to run another: a runnable stage of another context, at its level or above, that waits
for clusters and would be given this one, or another context's saved task that came from it (R373, R393, R396). -/
def wanted (s : State) (c : Nat) (t : Task) : Bool :=
  let die := dieOf c
  let stage (p : Nat × Nat × Stage) : Bool :=
    let w := s.want p.1 p.2.1 (((waitingGang s p.1 p.2.1).map (·.1)).getD 0) p.2.2
    w.ctx != t.ctx && decide (p.2.2.lvl ≤ t.level) && runnable s die p.1 p.2.1 p.2.2 && lacksClusters s die p.1 p.2.1 p.2.2
      && wouldFit s w c
  (allStages s die).any stage
    || s.spilled.any fun p => p.from_ == c && p.ctx != t.ctx && p.image.task.any fun u => u.state == .saved && decide (u.level ≤ t.level)

/-- SPILL (R393, R395): of a saved task whose cluster is to run another, or that is saved by request; of a trapped one whose
pre-emption has been asked for. Nothing is saved of a context under teardown (R401). -/
def execSpill (cl : Nat) (s : State) : Host.Outcome State Fault Refusal :=
  match (s.cl cl).task with
  | none => .next s
  | some t =>
    let asked := (s.cl cl).preempt
    if !dyingCtx s t.ctx && ((t.state == .saved && (asked || wanted s cl t)) || (t.state == .trapped && (t.preq || asked))) then
      .next (spillTask cl s)
    else .next s

/-! ### Filling back (R375, R394, R397) -/

/-- The byte ranges of a frame that a fill reads: its task part, and for each tile of the grove the three parts of the tile. -/
def frameParts (c : Context) (p : Spilled) : List (Nat × Nat) :=
  let base := frameBase c p.agent
  let tile (k : Nat) : List (Nat × Nat) :=
    let home := homeOf (dieOf p.from_) k
    let q := (homeTiles home).idxOf k
    let b := frameBase c home
    [(b + 0x340000 + 65536 * q, 65536), (b + 0x380000 + 65536 * q, 65536), (b + 0x3E0000 + 32768 * q, 32768)]
  [(base, 0x340000), (base + 0x3C0000, 0x20000)] ++ p.tiles.flatMap fun e => tile e.1

/-- The cause that a fill consumes, and the state once its frame has been read at the slices (R100, R407). -/
def readFrame (p : Spilled) (s : State) : Option (BitVec 8) × State :=
  match KMap.get? s.contexts p.ctx with
  | none => (none, s)
  | some c =>
    let parts := frameParts c p
    (parts.findSome? fun a => sectorCause s a.1 a.2, parts.foldl (fun s a => l2Read a.1 a.2 s) s)

/-- Whether the checks of a frame and of a grove's tiles hold (R394). -/
def frameGood (p : Spilled) (s : State) : Bool :=
  match KMap.get? s.contexts p.ctx with
  | none => false
  | some c =>
    let base := frameBase c p.agent
    let h := s.hbmRead (base + 0x3C0000) 4096
    let head := crc32c (h.take 108 ++ h.drop 112 ++ s.hbmRead (base + 0x3C1000) 126976)
    let tile (k : Nat) : Bool :=
      let home := homeOf (dieOf p.from_) k
      let q := (homeTiles home).idxOf k
      let b := frameBase c home
      let bs := s.hbmRead (b + 0x340000 + 65536 * q) 65536 ++ s.hbmRead (b + 0x380000 + 65536 * q) 65536
        ++ s.hbmRead (b + 0x3E0000 + 32768 * q) 32764
      (crc32c bs).toNat == s.hbmNat (b + 0x3E0000 + 32768 * q + 32764) 4
    leNat ((h.drop 108).take 4) == head.toNat && p.tiles.all fun e => tile e.1

/-- The grove of a spilled task as it would stand with its owner on cluster `c`. -/
def movedGrove (p : Spilled) (c : Nat) : Grove :=
  let g := p.image.grove
  if g.h == 0 then g
  else { g with row := g.row + 2 * rowOf c - 2 * rowOf p.from_, col := g.col + 2 * colOf c - 2 * colOf p.from_ }

/-- Whether a spilled task may be filled back on cluster `c`: the one it came from, once free, or, from `bar`, another of
the same die that R374 admits for its stage; not before a stage or another saved task that goes first, nor on a cluster reserved
for a gang (R372, R375, R377, R397). -/
def mayFill (p : Spilled) (c : Nat) (s : State) : Bool :=
  match p.image.task with
  | none => false
  | some t =>
    let old := p.image.grove
    let g := movedGrove p c
    let others : State := { s with spilled := s.spilled.erase p }
    let d := dieOf c
    let home := c == p.from_ && g.tiles.all fun k => (s.tile d k).owner.isNone
    let moved := p.atBar && d == dieOf p.from_ && !boundCluster s c && p.image.cmds.isEmpty
      && (s.cl p.from_).cmds.all (fun k => k.gang != t.gang)
      && ((KMap.get? s.contexts p.ctx).map (·.grant.getLsbD c)).getD false
      && freeFor others p.ctx c && (g.h == 0 || (2 * rowOf p.from_ ≤ old.row + 2 * rowOf c && 2 * colOf p.from_ ≤ old.col + 2 * colOf c))
      && groveFits others p.ctx t.gang [] d g
      && (s.stage? d t.graph t.stage).all fun e => bit e.dies d
    !dyingCtx s p.ctx && (s.cl c).task.isNone && !(barredFor others t.gang).contains c
      && !outranked s d t.level p.since (0, 0) && !awaited others c t.level p.since && (home || moved)

/-- A spilled task is filled back and goes on; its lines are owed as they were, and what was blocked is issued again (R147,
R288, R395, R397). -/
def fillTask (p : Spilled) (c : Nat) (s : State) : State :=
  let g := movedGrove p c
  let d := dieOf c
  let old := p.image.grove
  let s1 := s.modCl c fun x =>
    { p.image with
      grove := g, cmds := (p.image.cmds.map fun k => { k with cl := c }) ++ x.cmds, tlb := x.tlb, l1errs := x.l1errs, owed := x.owed
      kicks := p.image.kicks.map fun e => (e.1, { e.2 with cmd := { e.2.cmd with cl := c } })
      ringDrops := x.ringDrops, winReads := coreOf x.winReads, pushAt := coreOf x.pushAt, awaited := coreOf x.awaited
      task := p.image.task.map fun t => { t with state := .running, trap := none, preq := false }, preempt := false }
  let put (s : State) (k : Nat) : State :=
    let row := k / 24 + g.row - old.row
    let col := k % 24 + g.col - old.col
    s.modTile d (tileKey row col) fun t =>
      { KMap.getD p.tiles k t.clear with owner := some c, busyAtStart := true, claimed := t.claimed }
  let back (s : State) (f : Fill) : State := State.setOwed { s with fills := s.fills ++ [f] } f.line true
  let s2 := p.fills.foldl back { (old.tiles.foldl put s1) with spilled := s1.spilled.erase p }
  let blocked (k : Cmd) (q : Parked) : Bool := p.fills.any fun f => f.of k && (k.unit != .copy || f.item == q.item)
  (s2.held fun k => k.parked.any (blocked k)).foldl (fun s k =>
    match s.cmdOf k with
    | none => s
    | some k =>
      let k1 := { k with parked := k.parked.filter fun q => !blocked k q }
      moveCmd k1 (s.setCmd k1)) (s2.showTrapped c)

/-- A spilled task goes back, if the frame that is read holds neither an uncorrectable error nor a check that fails; with the
result of the action (R392 to R394, R407). -/
def fillBack (p : Spilled) (c : Nat) (s : State) : State × Nat :=
  let gang := (p.image.task.map (·.gang)).getD 0
  match readFrame p s with
  | (some cause, s1) => (s1.raiseCheck p.ctx gang (p.agent + 1) 0 cause, 3)
  | (none, s1) =>
    if frameGood p s1 then (fillTask p c s1, 0)
    else (s1.logFault p.ctx ⟨0xA8#8, 2, p.agent + 1, 0, 0, 0#32, 0, s.sstepOf gang, 0, 0⟩, 3)

/-- FILL_BACK (R397): of a saved task; a check that fails leaves it saved, with 0xA8 in the fault log (R393). -/
def execFillBack (agent ctx cl : Nat) (s : State) : Host.Outcome State Fault Refusal :=
  match s.spilled.find? fun p => p.agent == agent && p.ctx == ctx with
  | none => .next s
  | some p => .next (if (p.image.task.any fun t => t.state == .saved) && mayFill p cl s then (fillBack p cl s).1 else s)

/-! ### Resuming (R392) -/

/-- The instruction at a text offset: whether it is an X instruction, its length, the bytes that the signature folds. -/
def trappedWord (w : Who) (t : Task) (pc : Nat) (s : State) : Option (Bool × Nat × List Byte) :=
  match fetchParcel w t pc s with
  | .error _ => none
  | .ok (_, h) =>
    match heldParcels [] w t (parcelsOf (headLen h)) pc s with
    | .error _ => none
    | .ok (_, ps) => some (headTag h == .X, headBytes h, (ps.take 3).flatMap parcelBytes)

/-- The trapping PC passes its instruction without effect, its bytes folded into the signature. -/
def passTrapped (c : Nat) (e : Eng) (len : Nat) (bs : List Byte) (s : State) : State :=
  s.modCl c fun x =>
    let w := x.walk e
    (x.setWalk e { w with sig := crcBytes w.sig bs }).pass e len (w.pc + len)

/-- The engine that a trap record names. -/
def engOf (n : Nat) : Eng :=
  match n with
  | 0 => .S | 1 => .L | 2 => .A | 3 => .W | _ => .M

/-- Who reads the text of a task on cluster `c`. -/
def taskWho (c : Nat) (t : Task) : Who := ⟨t.ctx, t.agent + 1, t.gang, some c, some (dieOf c), !t.priv, false, c, false⟩

/-- The actions 0x00 and 0x01 on a rake thread: the state and `RES`. -/
def resumeThread (c thr : Nat) (past : Bool) (s : State) : State × Nat :=
  let r := (s.cl c).rake thr
  match (s.cl c).task with
  | none => (s, 1)
  | some t =>
    if r.st != .trapped then (s, 1)
    else if !past then (resumeRake c thr s, 0)
    else
      match trappedWord (taskWho c t) t r.pc s with
      | some (true, _, _) => (s, 2)
      | some (false, len, bs) =>
        (resumeRake c thr (s.modCl c fun x => x.setRake thr { r with pc := r.pc + len, sig := crcBytes r.sig bs }), 0)
      | none => (s, 1)

/-- The actions 0x00 and 0x01 on a task: the state and `RES`. A spilled task is filled back at once where it can be, and
otherwise as soon as its cluster is free (R375). -/
def resumeAct (c : Nat) (ctx : Option Nat) (past : Bool) (s : State) : State × Nat :=
  let inPlace := (s.cl c).task.filter fun t => ctx.all fun n => t.ctx == n
  let out := s.spilled.find? fun p => p.from_ == c && ctx.all fun n => p.ctx == n
  let dying (n : Nat) : Bool := ((KMap.get? s.contexts n).map (·.dying)).getD true
  match inPlace, out with
  | some t, _ =>
    if dying t.ctx || !(t.state == .trapped || t.state == .saved) then (s, 1)
    else
      match past, t.trap with
      | true, some r =>
        (match trappedWord (taskWho c t) t ((s.cl c).walk (engOf r.eng)).pc s with
         | some (true, _, _) => (s, 2)
         | some (false, len, bs) => (resumeTask c (passTrapped c (engOf r.eng) len bs s), 0)
         | none => (s, 1))
      | true, none => (s, 1)
      | false, _ => (resumeTask c s, 0)
  | none, some p =>
    if dying p.ctx then (s, 1)
    else
      match p.image.task with
      | none => (s, 1)
      | some t =>
        let who : Who := { taskWho c t with cl := none }
        let e := engOf ((t.trap.map (·.eng)).getD 0)
        let word := if past && t.trap.isSome then trappedWord who t (p.image.walk e).pc s else none
        if past && word.isNone then (s, 1)
        else if past && (word.map (·.1)).getD false then (s, 2)
        else
          let y := match word with
            | some (_, len, bs) =>
              let w := p.image.walk e
              (p.image.setWalk e { w with sig := crcBytes w.sig bs }).pass e len (w.pc + len)
            | none => p.image
          let q : Spilled := { p with image := { y with task := some { t with state := .saved, trap := none, preq := false } } }
          let s1 : State := { s with spilled := s.spilled.map fun o => if o == p then q else o }
          if !mayFill q c s1 then (s1.showTrapped c, 0)
          else
            match fillBack q c s1 with
            | (s2, 0) => (s2, 0)
            | _ => fillBack p c s
  | none, none => (s, 1)

/-- RESUME (R392). -/
def execResume (cl : Nat) (thr : Option Nat) (s : State) : Host.Outcome State Fault Refusal :=
  match thr with
  | some k => .next (resumeThread cl k false s).1
  | none => .next (resumeAct cl none false s).1

/-- RESUME_PAST (R392). -/
def execResumePast (cl : Nat) (thr : Option Nat) (s : State) : Host.Outcome State Fault Refusal :=
  match thr with
  | some k => .next (resumeThread cl k true s).1
  | none => .next (resumeAct cl none true s).1

/-- A task is spilled, or, where something is still on its way to it, marked to be (R393, R395). -/
def spillSoon (c : Nat) (s : State) : State :=
  let s1 := spillTask c s
  if (s1.cl c).task.isSome then s1.modCl c fun x => { x with preempt := true } else s1

/-- The action 0x02: a running task is pre-empted, then it is spilled as soon as it can be. -/
def saveAct (c : Nat) (ctx : Option Nat) (s : State) : State × Nat :=
  match (s.cl c).task.filter fun t => ctx.all fun n => t.ctx == n with
  | none => (s, 1)
  | some t =>
    if dyingCtx s t.ctx then (s, 1)
    else
      match t.state with
      | .running => (spillSoon c (preemptTask c s), 0)
      | .trapped => (spillSoon c (s.modCl c fun x => { x with task := some { t with preq := true } }), 0)
      | .saved => (spillSoon c s, 0)
      | _ => (s, 1)

/-- Whether the task of a cluster stands between its gang's barrier question and the answer, so that a save waits. -/
def frozenTask (s : State) (c : Nat) : Bool := (s.cl c).task.any fun t => s.frozenGang t.gang

/-- SAVE (R392). -/
def execSave (cl : Nat) (s : State) : Host.Outcome State Fault Refusal :=
  .next (if frozenTask s cl then s else (saveAct cl none s).1)

/-! ### Replay (R365, R366, R392) -/

/-- The action 0x03: parked elements, parked launch queues and parked status words of a context are tried again. -/
def replayAct (die ctx : Nat) (s : State) : State :=
  let s1 := replayCommands die ctx s
  let s2 : State := { s1 with queues := s1.queues.map fun e => if e.2.ctx == ctx then (e.1, { e.2 with parked := false }) else e }
  (s2.graphs.filter fun e => e.2.ctx == ctx && e.2.statusParked).foldl (fun s e => writeStatus e.1 e.2.cause s) s2

/-- REPLAY_PARKED (R392). -/
def execReplayParked (die ctx : Nat) (s : State) : Host.Outcome State Fault Refusal := .next (replayAct die ctx s)

/-! ### Teardown (R401 to R403) -/

/-- The TLB entries of a context dropped on every die. -/
def dropContext (ctx : Nat) (s : State) : State :=
  { s with
    dies := s.dies.map fun e =>
      (e.1, { e.2 with tlb := e.2.tlb.filter fun t => t.ctx != ctx, walks := e.2.walks.filter fun w => w.ctx != ctx })
    clusters := s.clusters.map fun e => (e.1, { e.2 with tlb := e.2.tlb.filter fun t => t.ctx != ctx }) }

/-- Keys of the context, and the group slots whose key is one of them, are revoked (R401). -/
def revoke (ctx : Nat) (s : State) : State :=
  let mine (e : BitVec 256) : Bool := e.getLsbD 192 && bits e.toNat 223 208 == ctx
  let ks := (s.keys.filter fun e => mine e.2).map fun e => bits e.2.toNat 255 224
  { s with
    groups := s.groups.map fun e => if e.2.st != 0 && ks.contains e.2.key.toNat then (e.1, GroupSlot.reset) else e
    keys := s.keys.filter fun e => !mine e.2 }

/-- The drain markers of a context leave, and are noted until each has come back (R401). -/
def sendMarkers (ctx : Nat) (s : State) : State :=
  if !fabricOn s then s
  else
    let out := markerPlan s
    let s1 : State := { s with contexts := s.contexts.map fun e =>
      if e.1 == ctx then (e.1, { e.2 with markers := out.foldl (fun m p => NSet.insert m (markerKey p)) [] }) else e }
    out.foldl (fun s p => s.send { newPacket s p.1 p.2.1 .drain ctx 0#32 with arg := 1#64, mbr := p.1, grp := p.2.2 }) s1

/-- The clusters of a context: where its tasks stand, and those granted to it where no other context's task stands (R401,
R444). DEDUCED (log 86). -/
def clustersOf (ctx : Nat) (c : Context) (s : State) : List Nat :=
  (List.range 384).filter fun k =>
    match (s.cl k).task with
    | some t => t.ctx == ctx
    | none => c.grant.getLsbD k

/-- KILL (R401): steps 1 to 4; TEARDOWN_COMPLETE is the last. -/
def killAct (ctx : Nat) (s : State) : State :=
  match KMap.get? s.contexts ctx with
  | none => s
  | some c =>
    if c.dying then s
    else
      let mine := (s.clusters.filter fun e => e.2.task.any fun t => t.ctx == ctx).map (·.1)
      let s1 := mine.foldl (fun s k => (s.modCl k fun x =>
        { x.clearWaits.dropTexts with
          task := x.task.map fun t => { t with state := .saved, trap := none, preq := false }, kicks := []
          winReads := coreOf x.winReads, pushAt := coreOf x.pushAt, awaited := coreOf x.awaited
          arrived := false, released := false, preempt := false }).setTpend k false) s
      let s2 : State := { s1 with
        dies := s1.dies.map fun e =>
          if e.2.coreTask.any (fun t => t.ctx == ctx) then (e.1, { e.2 with coreTask := none, core := Rake.reset }) else e }
      let s3 := dropContext ctx (revoke ctx s2)
      let cs := s3.held fun k => k.ctx == ctx
      let gone := (s3.gangs.filter fun e => e.2.ctx == ctx).map (·.1)
      let s4 := cs.foldl (fun s k => s.logCmd k 0x66#8 2 0 0 0) s3
      let s5 := discardCmds (fun k => k.ctx == ctx) s4
      let old (p : Packet) : Bool := p.ctx == ctx
      let s6 : State := { s5 with
        spilled := s5.spilled.filter fun p => p.ctx != ctx
        contexts := KMap.modify s5.contexts ctx c fun x => { x with dying := true, ended := true, wincnt := 0, discarded := x.discarded + cs.length }
        reductions := s5.reductions.filter fun r => r.ctx != ctx
        kept := s5.kept.filter fun k => k.ctx != ctx
        notices := s5.notices.filter fun k => k.ctx != ctx
        commit := s5.commit.filter fun w => !gone.contains w.gang
        dropped := s5.dropped + ((s5.park0 ++ s5.park1).filter old).length
        park0 := s5.park0.filter fun p => !old p
        park1 := s5.park1.filter fun p => !old p
        trains := s5.trains.filter fun p => !old p
        carries := s5.carries.filter fun e => !mine.contains e.cl
        dies := s5.dies.map fun e =>
          (e.1, { e.2 with
            rounds := e.2.rounds.filter fun r => r.ctx != ctx, early := e.2.early.filter fun m => m.1 != ctx }) }
      let left := (s5.spilled.filter fun p => p.ctx == ctx && !mine.contains p.from_).map (·.from_)
      sendMarkers ctx (left.foldl State.showTrapped s6)

/-- KILL (R392, R401). -/
def execKill (ctx : Nat) (s : State) : Host.Outcome State Fault Refusal := .next (killAct ctx s)

/-- Whether `tctl` of a die holds the kill of a context under way. -/
def killing (ctx : Nat) (d : Die) : Bool := d.tbusy && bits d.tctl.toNat 39 32 == 4 && bits d.tctl.toNat 31 16 == ctx

/-- TEARDOWN_COMPLETE (R401): once every packet of the context has left this device and its markers have returned, its
clusters and groves are cleared, its graphs end with 0xA9, and `BUSY` clears. -/
def execTeardownComplete (ctx : Nat) (s : State) : Host.Outcome State Fault Refusal :=
  match KMap.get? s.contexts ctx with
  | none => .next s
  | some c =>
    if !c.dying || !c.markers.isEmpty || s.net.any (fun p => p.ctx == ctx) then .next s
    else
      let clear (s : State) (k : Nat) : State :=
        (dropTiles k (s.dropFills (fillHere k (s.cl k)))).modCl k fun x =>
          { x.vacant with cmds := x.cmds, tlb := x.tlb, l1errs := x.l1errs, ringDrops := x.ringDrops }
      let s1 := (clustersOf ctx c s).foldl clear s
      let s2 := (s1.graphs.filter fun e => e.2.ctx == ctx && e.2.live).foldl (fun s e => writeStatus e.1 0xA9#8 s) s1
      .next { s2 with
        gangs := s2.gangs.filter fun e => e.2.ctx != ctx
        contexts := KMap.modify s2.contexts ctx c fun x => { x with dying := false }
        dies := s2.dies.map fun e => (e.1, if killing ctx e.2 then { e.2 with tbusy := false, tres := 0 } else e.2) }

/-! ### `tctl` (Table 16.5) -/

/-- The action that `tctl` of a die names is performed: `tstat` holds the result, and `BUSY` clears but for a kill under
way (R392, R403). -/
def tctlAct (die : Nat) (s : State) : State :=
  let v := (s.die die).tctl.toNat
  let act := bits v 39 32
  let ctx := bits v 31 16
  let c := bits v 8 0
  let off := decide (383 < c) || dieOf c != die
  let dying := ((KMap.get? s.contexts ctx).map (·.dying)).getD true
  let finish (p : State × Nat) : State := p.1.modDie die fun d => { d with tbusy := false, tres := p.2 }
  match act with
  | 0 | 1 =>
    if off || dying then finish (s, 1)
    else if bit v 12 then
      (if (s.cl c).task.any fun t => t.ctx == ctx then finish (resumeThread c (bits v 11 9) (act == 1) s) else finish (s, 1))
    else finish (resumeAct c (some ctx) (act == 1) s)
  | 2 =>
    if off || dying then finish (s, 1)
    else if frozenTask s c then { s with agenda := s.agenda ++ [.soon (.act die 0x112)] }
    else finish (saveAct c (some ctx) s)
  | 3 => if dying then finish (s, 1) else finish (replayAct die ctx s, 0)
  | 4 => if dying then finish (s, 1) else killAct ctx s
  | _ => finish (s, 1)

end Sys2Proof.Machine
end

