-- ==== Sys2Proof/Machine/Schedule.lean ====
section
/-! DEFINITION. Launch queues, the stage scheduler, gangs and their reservations, management stages and events (chapter
15), and `yield`. -/

namespace Sys2Proof.Machine

/-! ### Launch records (R364 to R366) -/

/-- A launch-path entry of the fault log: no agent of Table 4.10 makes these accesses (log 29). -/
def launchEntry (cause : BitVec 8) (kind addr : Nat) : LogEntry := ⟨cause, kind, 0, 7, 0, 0#32, 0, 0#32, addr, 0⟩

/-- The state with a launch queue's descriptor read and the queue in service; a descriptor that cannot be read parks the
queue, one that breaks Table 15.1 leaves it unserved with a report, and one with `V` = 0 describes none (R364, R365). -/
def readQueue (ctx i : Nat) (s : State) : State :=
  match KMap.get? s.contexts ctx with
  | none => s
  | some c =>
    let a := c.lqbase + 32 * i
    let k := 16 * ctx + i
    match tableRead ctx 0 a 32 s with
    | .error e =>
      let q : LaunchQueue := ⟨ctx, i, 0, 0, 0, 0, 0, true⟩
      State.logFault { s with queues := KMap.set s.queues k q } ctx (launchEntry e 1 a)
    | .ok (s1, bs) =>
      let e := leNat bs
      if !bit e 0 then { s1 with queues := KMap.erase s1.queues k }
      else if bits e 63 9 != 0 || bits e 6 1 == 0 || 16 < bits e 6 1 || bits e 127 64 % 128 != 0 then
        State.logFault { s1 with queues := KMap.erase s1.queues k } ctx (launchEntry 0xA0#8 2 a)
      else
        let q : LaunchQueue := ⟨ctx, i, bits e 255 192, bits e 191 128, bits e 127 64, bits e 6 1, bits e 8 7, false⟩
        { s1 with queues := KMap.set s1.queues k q }

/-- A launch queue is parked with the cause that its service met (R365). -/
def parkQueue (k : Nat) (q : LaunchQueue) (cause : BitVec 8) (addr : Nat) (s : State) : State :=
  State.logFault { s with queues := KMap.set s.queues k { q with parked := true } } q.ctx (launchEntry cause 1 addr)

/-- A record whose bytes break Table 15.2. -/
def recordMalformed (e : Nat) : Bool :=
  bit (byteField e 8 8) 63 || 1 < byteField e 24 1 || byteField e 25 7 != 0 || e >>> 320 != 0

/-- The graph that a record launches. -/
def newGraph (s : State) (ctx e n entry : Nat) (live : Bool) : Graph where
  ctx := ctx
  va := byteField e 0 8
  nst := n
  entry := entry
  done := byteField e 32 8
  status := 0#8
  seedv := bit (byteField e 24 1) 0
  seed := BitVec.ofNat 64 (byteField e 16 8)
  live := live
  statusParked := false
  ages := []
  stamp := s.fabtime
  cause := 0#8

def addGraph (q : Graph) (s : State) : State :=
  { s with graphs := KMap.set s.graphs s.nextGraph q, nextGraph := s.nextGraph + 1 }

/-- The service of one record, with the state once the head is stored; or the cause and address that park the queue; no
state while the entry stage's input queue is full, or serves an append accepted before (R290). -/
def serveRecord (ctx home e : Nat) (s : State) : Except (BitVec 8 × Nat) (Option State) :=
  let done := byteField e 32 8
  if done % 8 != 0 then .ok (some (s.logFault ctx (launchEntry 0xA0#8 2 done)))
  else
    match translate (launchWho ctx home) done true true s with
    | .error c => .ok (some (s.logFault ctx (launchEntry c 2 done)))
    | .ok (s1, _) =>
      match (if recordMalformed e then Except.error 0xA0#8 else checkGraph ctx home (byteField e 0 8) s1) with
      | .error c => .ok (some (writeStatus s1.nextGraph c (addGraph (newGraph s1 ctx e 0 0 false) s1)))
      | .ok (n, entry) =>
        let s2 := addGraph (newGraph s1 ctx e n entry true) s1
        match s2.stage? home s1.nextGraph entry with
        | none => .ok (some (writeStatus s1.nextGraph 0xA0#8 s2))
        | some t =>
          match launchWindrow ctx home t.inq s2 with
          | none => .ok (some (writeStatus s1.nextGraph 0xA5#8 s2))
          | some w =>
            if appendBusy s2 ctx t.inq s2.tick then .ok none
            else match wlAppend ctx 0 t.inq w (BitVec.ofNat 64 (byteField e 8 8)) s2 with
            | .error c => .error (c, w.slot (s2.windrow ctx t.inq).tail)
            | .ok x => .ok x

/-- LAUNCH_RECORD (R365, R366): the next record of a queue. -/
def execLaunchRecord (ctx q : Nat) (s : State) : Host.Outcome State Fault Refusal :=
  let k := 16 * ctx + q
  match KMap.get? s.queues k with
  | none => .next s
  | some l =>
    if l.parked || ((KMap.get? s.contexts ctx).map (·.dying)).getD true then .next s
    else if l.sz == 0 then .next (readQueue ctx q s)
    else
      match tableRead ctx l.home l.tailVa 4 s with
      | .error c => .next (parkQueue k l c l.tailVa s)
      | .ok (s1, tb) =>
        match tableRead ctx l.home l.headVa 4 s1 with
        | .error c => .next (parkQueue k l c l.headVa s)
        | .ok (s2, hb) =>
          let head := leNat hb
          if leNat tb == head then .next s
          else
            let a := l.rbase + 128 * (head % 2 ^ l.sz)
            match tableRead ctx l.home a 128 s2 with
            | .error c => .next (parkQueue k l c a s)
            | .ok (s3, rb) =>
              match vaSyncWrite (launchWho ctx l.home) l.headVa (natLe 4 (head + 1)) s3 with
              | .error c => .next (parkQueue k l c l.headVa s)
              | .ok s4 =>
                match serveRecord ctx l.home (leNat rb) s4 with
                | .error (c, b) => .next (parkQueue k l c b s)
                | .ok none => .next s
                | .ok (some s5) => .next s5

/-! ### Gangs (R376) -/

/-- An unplaced gang. -/
def newGang (s : State) (ctx g i : Nat) (t : Stage) (stamp : Nat) : Gang :=
  { ctx, tag := t.gtag, graph := g, stage := i, size := t.gang, sstep := 0#32, members := [], remote := [], ended := []
    arrivedDevs := [], unprotected := false, item := none, itemVal := 0#64, itemDone := false, stamp, home := devId s
    placed := false, reserved := [], sweeps := [], sweepIn := [], flowing := false, markers := [], num := s.nextGang, rollback := none
    reported := false, goAhead := false, restored := false, told := false, confirmed := [], runs := 0, offers := [], offered := []
    yielding := false, frozen := false, prepared := [], poll := 0, exit := 0#8 }

/-- The protected gang begins: its logs are empty, and a pass of the shadow sweep starts with superstep 0 (R97, R353). -/
def openGang (g ctx : Nat) (s : State) : State :=
  if s.protectedGang g then
    { emptyLogs ctx s with
      contexts := (emptyLogs ctx s).contexts.map fun e => if e.1 == ctx then (e.1, { e.2 with sweepDue := true }) else e }
  else s

/-- Pairs of device and cluster in ascending order (R376). -/
def insertPlace (p : Nat × Nat) : List (Nat × Nat) → List (Nat × Nat)
  | [] => [p]
  | q :: t => if p.1 < q.1 || (p.1 == q.1 && p.2 ≤ q.2) then p :: q :: t else q :: insertPlace p t

/-- The announcement of a gang to another device (log 13). -/
def placementPacket (s : State) (x : Gang) (dev imd : Nat) (places : List (Nat × Nat)) : Packet :=
  let q := (KMap.get? s.graphs x.graph).getD default
  { gangPacket s x dev .placement imd 0 with
    tc := 3
    data := natLe 8 q.va ++ natLe 8 q.seed.toNat ++ natLe 8 x.itemVal.toNat ++ natLe 4 x.stage ++ natLe 4 x.size ++ natLe 4 x.tag
      ++ natLe 4 (if q.seedv then 1 else 0) ++ places.flatMap fun p => natLe 4 p.1 ++ natLe 4 p.2 }

/-- A gang placed: its tasks here on the clusters `own`, the others at `far`; ranks ascend (R376). -/
def placeGang (g : Nat) (x : Gang) (t : Stage) (own : List Nat) (far : List (Nat × Nat)) (s : State) : State :=
  let all := ((own.map fun c => (devId s, c)) ++ far).foldl (fun l p => insertPlace p l) []
  let single := x.size == 1
  let s1 : State := { s with gangs := KMap.set s.gangs g { x with
    placed := true, members := own.foldl NSet.insert [], remote := far, reserved := [], offers := [], offered := []
    yielding := false, goAhead := false
    item := if single then none else x.item } }
  let put (s : State) (c : Nat) : State :=
    let task := newTask x.ctx g x.graph x.stage (all.idxOf (devId s, c)) t (if single then x.item else none) x.itemVal false
    takeTiles c (groveAt c t.dims) (placeTask c task t.dims s)
  openGang g x.ctx (markTiles own (own.foldl put s1))

/-- The item of a gang is taken from the stage's input queue (R370); none where there is none or its slot faults. -/
def popItem (g : Nat) (die : Nat) (x : Gang) (t : Stage) (s : State) : Option State :=
  match launchWindrow x.ctx die t.inq s with
  | none => none
  | some w =>
    match wlTake x.ctx 0 t.inq w s with
    | .ok (s1, some v) => some { s1 with gangs := KMap.set s1.gangs g { x with item := some t.inq, itemVal := v } }
    | _ => none

/-! ### Management stages (R381) -/

/-- The stage entry of a binding, in the context of the management stages (log 19). -/
def managementStage (s : State) (v : Word) (die : Nat) : Option Stage :=
  match tableRead Config.mgmtContext die (bits v.toNat 47 0) 128 s with
  | .ok (_, bs) => some (stageOf (leNat bs))
  | .error _ => none

/-- A cause that keeps a management stage's item from running is logged as 0xAA in the die log (R386; log 48). -/
def refuseManagement (die : Nat) (cause : BitVec 8) (s : State) : State :=
  s.modDie die fun d => { d with dieLog := d.dieLog ++ [(0xAA#8, cause.toNat)] }

/-- Whether a management stage may take an item now: it is runnable as any stage is (R372), the core or its reserved cluster is
free for a task of its context, and its grove fits there (R374, R381). -/
def managementReady (die code : Nat) (v : Word) (t : Stage) (s : State) : Bool :=
  let ctx := Config.mgmtContext
  let c := 96 * die + bits v.toNat 56 48 % 96
  let mine (u : Task) : Bool := u.priv && u.graph == 0 && u.stage == code && dieOf u.agent == die
  let r := (s.tasks.filter mine).length + (if (s.die die).coreTask.any fun u => u.stage == code then 1 else 0)
  !dyingCtx s ctx && (t.maxt == 0 || decide (r + 1 ≤ t.maxt)) && roomFor s ctx die (t.outr * (r + 1)) t
    && if v.getLsbD 62 then freeFor s ctx c && groveFits s ctx 0 [] die (groveAt c t.dims) else (s.die die).coreTask.isNone

/-- The management task bound to an event code starts on the die manager core, or is placed on its reserved cluster. Its entry is
read and checked as any stage's is (R369, R381); one that is refused consumes its item. -/
def scheduleManagement (die code : Nat) (s : State) : State :=
  let v := KMap.getD (s.die die).evbind code 0#64
  let ctx := Config.mgmtContext
  if !v.getLsbD 63 then s
  else
    match tableRead ctx die (bits v.toNat 47 0) 128 s with
    | .error _ => s
    | .ok (s0, eb) =>
      let e := leNat eb
      let t := stageOf e
      let c := 96 * die + bits v.toNat 56 48 % 96
      let cs := stageCauses ctx die e s0
      match launchWindrow ctx die t.inq s0 with
      | none => s
      | some w =>
        if cs.isEmpty && !managementReady die code v t s0 then s
        else
          match wlTake ctx 0 t.inq w s0 with
          | .ok (s1, some item) =>
            let task := { newTask ctx 0 0 code 0 t (some t.inq) item true with level := bits v.toNat 61 60, size := 1 }
            match causeOrder.find? fun c => cs.contains c with
            | some cause => refuseManagement die cause (wlComplete s1 ctx t.inq)
            | none =>
              if v.getLsbD 62 then takeTiles c (groveAt c t.dims) (placeTask c task t.dims s1)
              else
                match loadImageOf ctx die t s1 with
                | .error cause => refuseManagement die cause (wlComplete s1 ctx t.inq)
                | .ok (s2, l) =>
                  let regs : KMap Word := [(1, item), (2, 0#64), (3, 1#64), (4, BitVec.ofNat 64 code)]
                  s2.modDie die fun d =>
                    { d with
                      coreTask := some { task with image := l.image, state := .running, agent := 384 + die }
                      core := { Rake.reset with pc := l.image.entry, regs, item := some t.inq, st := .ready } }
          | _ => s

/-! ### Giving clusters (R374 to R378) -/

/-- STAGE_SCHEDULE (R372, R374): a runnable stage that nothing outranks takes the lowest cluster that it may use; a ganged
stage begins to wait for its clusters. Graph 0 stands for the management stage bound to event code `st`. -/
def execStageSchedule (die g st : Nat) (s : State) : Host.Outcome State Fault Refusal :=
  if g == 0 then .next (scheduleManagement die st s)
  else
    let s0 := noteAges die s
    match KMap.get? s0.graphs g, s0.stage? die g st with
    | some q, some t =>
      let n := s0.nextGang
      let x := newGang s0 q.ctx g st t q.stamp
      let s1 : State := { s0 with gangs := KMap.set s0.gangs n x, nextGang := n + 1 }
      if !runnable s0 die g st t || outranked s0 die t.lvl (ageOf s0 g st) (g, st) then .next s0
      else if t.gang != 1 then
        if (waitingGang s0 g st).isSome then .next s0
        else .next ((gangDevices s1 t.dgrp).foldl (fun s d => s.send (placementPacket s x d 0 [])) s1)
      else if !tagFree s0 q.ctx t.gtag then .next s0
      else
        match openClusters s0 die g st n t with
        | [] => .next s0
        | c :: _ =>
          match popItem n die x t s1 with
          | none => .next s0
          | some s2 => .next (noteAges die (placeGang n ((KMap.get? s2.gangs n).getD x) t [c] [] s2))
    | _, _ => .next s0

/-- TASK_LAUNCH (R370): a placed task starts; one whose image is no longer good ends, with the cause in its graph's status
word, or, for management, in the die log. -/
def execTaskLaunch (cl : Nat) (s : State) : Host.Outcome State Fault Refusal :=
  match (s.cl cl).task with
  | none => .next s
  | some t =>
    if t.state != .placed then .next s
    else
      match launchTask cl t s with
      | .ok s1 => .next s1
      | .error c =>
        let s1 := settleGang t.gang (releaseTask cl s)
        if t.graph == 0 then .next (s1.modDie (dieOf cl) fun d => { d with dieLog := d.dieLog ++ [(0xAA#8, c.toNat)] })
        else .next (if ((KMap.get? s1.graphs t.graph).map (·.live)).getD false then writeStatus t.graph c s1 else s1)

/-- A device that is not the gang's home confirms to it the clusters that it keeps: those confirmed before, with the free ones that
the gang can use, while it is the oldest that waits here (R377, R378). -/
def confirmClusters (g : Nat) (x : Gang) (t : Stage) (s : State) : State :=
  let mine := (oldestWaiting s).any fun o => o.1 == g
  let l := if mine then reservationOf s g x t else x.reserved
  if x.yielding || l == x.offered then s
  else
    let p := { gangPacket s x x.home .placement 2 0 with tc := 3, data := l.flatMap fun c => natLe 4 c }
    (s.modGang g fun y => { y with reserved := l, offered := l }).send p

/-- GANG_PLACEMENT (R376 to R378): the gang is placed whole where its clusters here and those that the other devices have
confirmed suffice, `remote` saying which of them it takes; otherwise the oldest waiting gang reserves what it can use. The other
devices place their tasks as soon as they learn of it. -/
def execGangPlacement (gang : Nat) (remote : List (Nat × Nat)) (s : State) : Host.Outcome State Fault Refusal :=
  match KMap.get? s.gangs gang with
  | none => .next s
  | some x =>
    match s.stage? 0 x.graph x.stage with
    | none => .next s
    | some t =>
      let w := s.want x.graph x.stage gang t
      if x.placed then .next s
      else if x.home != devId s then
        if x.goAhead then
          let fits := (chooseClusters { w with age := 0 } x.members.length x.members [] s).1.length == x.members.length
          .next (if fits then placeGang gang x t x.members x.remote s else s)
        else .next (confirmClusters gang x t s)
      else
        let here := if homeMember s t.dgrp then (chooseClusters w x.size (List.range 384) [] s).1 else []
        let keep := (oldestWaiting s).any fun o => o.1 == gang
        let hold : State := if keep then s.modGang gang fun y => { y with reserved := reservationOf s gang x t } else s
        let far := (remote.filter fun p => (KMap.getD x.offers p.1 []).contains p.2).eraseDups
        let all := (((here.map fun c => (devId s, c)) ++ far).foldl (fun l p => insertPlace p l) []).take x.size
        let own := (all.filter fun p => p.1 == devId s).map (·.2)
        let rest := all.filter fun p => p.1 != devId s
        let late := (own.map dieOf).eraseDups.any fun d => outranked s d t.lvl w.age (x.graph, x.stage)
        if all.length < x.size || late || !tagFree s x.ctx x.tag || !runnable s 0 x.graph x.stage t then .next hold
        else
          match popItem gang 0 x t s with
          | none => .next hold
          | some s1 =>
            let y := (KMap.get? s1.gangs gang).getD x
            .next ((gangDevices s t.dgrp).foldl (fun s d => s.send (placementPacket s y d 1 all)) (placeGang gang y t own rest s1))

/-- RESERVATION_RELEASE (R378): what a gang holds is given to the oldest gang that waits here. Clusters confirmed to another device
are asked back first, for it may have placed the gang by now. -/
def execReservationRelease (gang : Nat) (s : State) : Host.Outcome State Fault Refusal :=
  match KMap.get? s.gangs gang, oldestWaiting s with
  | some x, some (o, y, t) =>
    if o == gang || x.placed || x.goAhead || x.yielding || !y.older x then .next s
    else if !x.offered.isEmpty then
      .next ((s.modGang gang fun z => { z with yielding := true }).send { gangPacket s x x.home .placement 2 0 with tc := 3 })
    else
      let s1 := s.modGang gang fun z => { z with reserved := [] }
      .next (if y.home == devId s then s1.modGang o fun z => { z with reserved := reservationOf s1 o z t } else s1)
  | _, _ => .next s

/-! ### Giving way (R185, R373) -/

/-- AGING_PREEMPT (R373, R396): for a stage that has waited, a running task of another context at its level or below is
asked to give way: the lowest priority first, then the most recently launched. -/
def execAgingPreempt (die g st : Nat) (s : State) : Host.Outcome State Fault Refusal :=
  match KMap.get? s.graphs g, s.stage? die g st with
  | some q, some t =>
    if !runnable s die g st t || !lacksClusters s die g st t then .next s
    else
      let w := s.want g st (((waitingGang s g st).map (·.1)).getD 0) t
      let fits := ((List.range 96).map fun i => 96 * die + i).filterMap fun c =>
        match (s.cl c).task with
        | some u => if u.state == .running && u.ctx != q.ctx && t.lvl ≤ u.level && wouldFit s w c then some (c, u) else none
        | none => none
      match fits.find? fun v => fits.all fun w => w.2.level < v.2.level || (w.2.level == v.2.level && w.2.born ≤ v.2.born) with
      | some v => .next (s.modCl v.1 fun x => { x with preempt := true })
      | none => .next s
  | _, _ => .next s

/-- `yield` (R185). -/
def execYield (s : State) : Host.Outcome State Fault Refusal :=
  let s1 := retire .yield s
  match s.actor with
  | .pc c _ =>
    match (s.cl c).task with
    | some t => .next (if (s.cl c).preempt || stageWaits s (dieOf c) t.level then preemptTask c s1 else s1)
    | none => .next s1
  | _ => .next s1

/-! ### The end of a graph (R366) -/

/-- GRAPH_END (R366): every input queue is empty, no item is outstanding, no task is left. Other devices forget a gang that has no
item to run for. -/
def execGraphEnd (g : Nat) (s : State) : Host.Outcome State Fault Refusal :=
  match KMap.get? s.graphs g with
  | none => .next s
  | some q =>
    let stages := (List.range q.nst).map fun i => s.stage? 0 g i
    let quiet (t : Option Stage) : Bool :=
      match t with
      | none => false
      | some t => let w := s.windrow q.ctx t.inq; w.held == 0 && w.pops == w.completions
    if q.live && stages.all quiet && !(s.tasks.any fun t => t.graph == g) && !(s.gangs.any fun e => e.2.graph == g && e.2.placed) then
      let gone := s.gangs.filter fun e => e.2.graph == g && e.2.home == devId s
      let tell (s : State) (e : Nat × Gang) : State :=
        let devs := ((s.stage? 0 g e.2.stage).map fun t => gangDevices s t.dgrp).getD []
        devs.foldl (fun s d => s.send (placementPacket s e.2 d 1 [])) s
      .next (writeStatus g 0#8 { gone.foldl tell s with gangs := s.gangs.filter fun e => e.2.graph != g })
    else .next s

/-! ### Events (R379 to R383) -/

/-- The number of records that a die's ring holds at most; 0 while it is off. -/
def ringCap (d : Die) : Nat := if d.evring.getLsbD 0 then 2 ^ bits d.evring.toNat 59 56 else 0

/-- The bytes of an event record (Table 15.12). -/
def eventBytes (code : Nat) (ea eb : BitVec 16) (rnd : BitVec 32) (val : BitVec 48) : List Byte :=
  natLe 1 code ++ [0#8] ++ natLe 2 ea.toNat ++ natLe 2 eb.toNat ++ natLe 4 rnd.toNat ++ natLe 6 val.toNat

/-- An event of a die: counted and not recorded without a binding or while the ring is off, dropped with 0xA6 while it is
full; otherwise recorded, and its number appended to the bound stage's input windrow. None while that is full, or serves an append accepted
before (R290). -/
def fireEvent (die code : Nat) (ea eb : BitVec 16) (rnd : BitVec 32) (val : BitVec 48) (s : State) : Option State :=
  let d := s.die die
  let v := KMap.getD d.evbind code 0#64
  if !(code < 6 || (16 ≤ code && code < 32)) then some s
  else if !v.getLsbD 63 || ringCap d == 0 then some (s.modDie die fun d => { d with evlost := d.evlost + 1 })
  else if (d.evtail - d.evhead).toNat == ringCap d then some (s.modDie die fun d => { d with dieLog := d.dieLog ++ [(0xA6#8, code)] })
  else
    let s1 := (s.slicePut (bits d.evring.toNat 38 12 * 4096 + 16 * (d.evtail.toNat % ringCap d)) (eventBytes code ea eb rnd val)).modDie die
      fun d => { d with evtail := d.evtail + 1#32 }
    match managementStage s1 v die with
    | none => some s1
    | some t =>
      match launchWindrow Config.mgmtContext die t.inq s1 with
      | none => some s1
      | some w =>
        if appendBusy s1 Config.mgmtContext t.inq s1.tick then none
        else match wlAppend Config.mgmtContext 0 t.inq w (d.evtail.setWidth 64) s1 with
        | .error _ => some s1
        | .ok x => x

/-- EVENT_FIRE (R379). -/
def execEventFire (die code : Nat) (ea eb : BitVec 16) (rnd : BitVec 32) (val : BitVec 48) (s : State) :
    Host.Outcome State Fault Refusal :=
  .next (match fireEvent die code ea eb rnd val s with
    | some s1 => s1
    | none => { s with agenda := s.agenda ++ [.soon (.fire die code ea eb rnd val)] })

/-- A value of `evring` within Table 15.11. -/
def evringOk (v : Nat) : Bool :=
  bits v 63 60 == 0 && bits v 55 39 == 0 && bits v 11 1 == 0 && decide (4 ≤ bits v 59 56) && decide (bits v 59 56 ≤ 15)

/-- EVRING_WRITE (R383): both counters go to 0; a value that breaks the layout is ignored. -/
def execEvringWrite (die : Nat) (v : Word) (s : State) : Host.Outcome State Fault Refusal :=
  .next (if evringOk v.toNat then s.modDie die fun d => { d with evring := v, evhead := 0#32, evtail := 0#32 } else s)

/-- Mₙ := SHAKE256(Mₙ ‖ digest), with the digest kept (R422, R423). -/
def extendMeas (n : Nat) (digest : List Byte) (s : State) : State :=
  let old := KMap.getD s.meas n (List.replicate 64 0#8)
  { s with meas := KMap.set s.meas n (shake256 (old ++ digest)), digests := s.digests ++ [(n, digest)] }

/-- The image of a management stage: header and text (log 14). -/
def stageImageBytes (s : State) (v : Word) (die : Nat) : List Byte :=
  match managementStage s v die with
  | none => []
  | some t =>
    match tableRead Config.mgmtContext die t.image 128 s with
    | .error _ => []
    | .ok (s1, hb) =>
      let m := imageOf (leNat hb)
      match tableRead Config.mgmtContext die m.textVa m.textSize s1 with
      | .error _ => hb
      | .ok (_, tb) => hb ++ tb

/-- A value of `evbind` within Table 15.9. -/
def evbindOk (v : Nat) : Bool := bits v 59 57 == 0 && decide (bits v 56 48 ≤ 383)

/-- A binding takes effect; from boot stage 3 on, binding a stage extends M3 with its image's digest (R381, R422). -/
def bindEvent (die k : Nat) (v : Word) (s : State) : State :=
  let s1 := s.modDie die fun d => { d with evbind := KMap.set d.evbind k v }
  if v.getLsbD 63 && s.stage == 3#3 then extendMeas 3 (shake256 (stageImageBytes s1 v die)) s1 else s1

/-- EVBIND_WRITE (R381). -/
def execEvbindWrite (die k : Nat) (v : Word) (s : State) : Host.Outcome State Fault Refusal :=
  .next (if k < 32 && evbindOk v.toNat then bindEvent die k v s else s)

end Sys2Proof.Machine
end

