-- ==== Sys2Proof/Machine/Contexts.lean ====
section
/-! DEFINITION. Translations that a walk delivers and an invalidation drops, the pinned space of L2, and the
installation and removal of contexts (chapters 4 and 5). -/

namespace Sys2Proof.Machine

/-! ### The translation unit (R89, R90) -/

/-- TRANSLATION_WALK (R89): the walk numbered `k` of a die ends, and every cluster that joined it receives the page. A fault
is of no effect on those that `vpref` asked for, whose requests are dropped (R218). -/
def execTranslationWalk (die k : Nat) (s : State) : Host.Outcome State Fault Refusal := .next (endWalk die k s)

/-- A value of `xlinv` (Table 4.6). -/
def xlinvWord (ctx vpg scope : Nat) : Word := BitVec.ofNat 64 (ctx % 65536 * 2 ^ 48 + vpg % 2 ^ 32 * 65536 + scope % 4)

/-- Whether the entry is one that a value of `xlinv` names; number 0 names no context (R90, R93). -/
def xlinvMatches (v : Nat) (e : TlbEntry) : Bool :=
  let va := 65536 * bits v 47 16
  match v % 4 with
  | 0 => e.ctx == bits v 63 48 && e.ctx != 0 && decide (e.base ≤ va) && decide (va < e.base + 2 ^ e.size)
  | 1 => e.ctx == bits v 63 48 && e.ctx != 0
  | 2 => true
  | _ => false

/-- Every entry of the die and its clusters that `xlinv` names is dropped. -/
def xlinvAct (die : Nat) (s : State) : State :=
  let v := (s.die die).xlinv.toNat
  let keep (l : List TlbEntry) : List TlbEntry := l.filter fun e => !xlinvMatches v e
  let s1 := s.modDie die fun d => { d with tlb := keep d.tlb }
  { s1 with clusters := s1.clusters.map fun e => if dieOf e.1 == die then (e.1, { e.2 with tlb := keep e.2.tlb }) else e }

/-- A write of `xlinv`: while an earlier invalidation is under way the writer stalls. -/
def xlinvWrite (die : Nat) (v : Word) (s : State) : State :=
  if 3 < die || (s.die die).xlbusy then s
  else xlinvAct die (s.modDie die fun d => { d with xlinv := v, xlbusy := true })

/-- XLINV_PAGE (R90). -/
def execXlinvPage (die ctx : Nat) (vpg : BitVec 32) (s : State) : Host.Outcome State Fault Refusal :=
  .next (xlinvWrite die (xlinvWord ctx vpg.toNat 0) s)

/-- XLINV_CONTEXT (R90). -/
def execXlinvContext (die ctx : Nat) (s : State) : Host.Outcome State Fault Refusal :=
  .next (xlinvWrite die (xlinvWord ctx 0 1) s)

/-- XLINV_ALL (R90). -/
def execXlinvAll (die : Nat) (s : State) : Host.Outcome State Fault Refusal := .next (xlinvWrite die (xlinvWord 0 0 2) s)

/-- Whether an access of the die that a dropped entry may have translated has still to be performed: data read and not yet at
their line, elements of commands, and scalar accesses of a window not yet answered. DESIGN CHOICE (log 101): every such access of
the context that `xlinv` names counts, whichever page it used. -/
def inFlight (s : State) (die : Nat) : Bool :=
  let v := (s.die die).xlinv.toNat
  let named (ctx : Nat) : Bool := v % 4 == 2 || bits v 63 48 == ctx
  let cmd (c : Cmd) : Bool := named c.ctx && (c.acks != 0 || c.owing.any fun o => o.2 != 0)
  let scalar (x : Cluster) : Bool := x.task.any fun t => named t.ctx && (x.wack != 0 || !x.winReads.isEmpty)
  s.fills.any (fun f => f.full && dieOf f.cl == die && ((fillOwner s f).all fun k => named k.1.ctx))
    || (s.clusters.any fun e => dieOf e.1 == die && (scalar e.2 || e.2.cmds.any cmd))
    || (s.spilled.any fun p => dieOf p.from_ == die && p.image.cmds.any cmd)
    || ((s.die die).coreTask.any fun t => named t.ctx && !(coreOf (s.cl (96 * die)).winReads).isEmpty)

/-- INVALIDATION_COMPLETE (R90): every access translated with a dropped entry has been performed. -/
def execInvalidationComplete (die : Nat) (s : State) : Host.Outcome State Fault Refusal :=
  .next (if inFlight s die then s else s.modDie die fun d => { d with xlbusy := false })

/-! ### L2-pinned capacity (R103, R104) -/

/-- A value of `l2pin` within Table 5.1. -/
def l2pinOk (v : Nat) : Bool := decide (v ≤ 12)

/-- The change itself: lines of ways that become pinned are written back; pinned lines beyond the new capacity are lost, and
new ones are zero. -/
def l2pinChange (die : Nat) (v : Word) (s : State) : State :=
  if l2pinOk v.toNat then
    (l2Unway die v.toNat s).modDie die fun d =>
      { d with
        l2pin := v, pinned := Mem.below d.pinned (6291456 * v.toNat), pinBad := d.pinBad.filter fun k => k < 196608 * v.toNat }
  else s

/-- L2PIN_WRITE (R104). -/
def execL2pinWrite (die : Nat) (v : Word) (s : State) : Host.Outcome State Fault Refusal :=
  .next (if die < 4 then l2pinChange die v s else s)

/-! ### Contexts (R93) -/

/-- The frames of an undo-log region lie in stack-local octets, in a stack of its die (Table 4.8). -/
def undoPlaced (s : State) (d base size : Nat) : Bool :=
  size == 0 || (decide (base + size ≤ 2 ^ 39) &&
    (List.range ((base + size - 1) / 2 ^ 29 + 1 - base / 2 ^ 29)).all fun i =>
      let f := base / 2 ^ 29 + i
      s.dplace.getLsbD (f % 128) && f / 128 / 2 == d)

/-- The context that a descriptor of Table 4.12 describes, or none where it breaks the table. -/
def contextOf (s : State) (e : Nat) : Option Context :=
  let f8 (i : Nat) : Nat := byteField e (8 * i) 8
  let uls := (List.range 4).map fun d => f8 (5 + d)
  let sizes := (List.range 4).map fun d => f8 (9 + d)
  let flcap := byteField e 4 4
  let ok :=
    byteField e 0 2 == 1
      && decide (1024 ≤ flcap) && decide (flcap ≤ 2 ^ 20) && popBits 32 flcap == 1
      && f8 1 % 4096 == 0 && f8 2 % 2097152 == 0 && f8 3 % 2097152 == 0 && decide (f8 3 ≤ 2 ^ 38) && f8 4 % 65536 == 0
      && uls.all (fun a => a % 2097152 == 0)
      && sizes.all (fun z => z % 2097152 == 0 && decide (z ≤ 2 ^ 32))
      && (List.range 4).all (fun d => undoPlaced s d (uls.getD d 0) (sizes.getD d 0))
      && f8 13 % 4194304 == 0 && f8 14 % 65536 == 0 && f8 15 % 16 == 0 && f8 16 % 32 == 0
      && decide (byteField e 136 4 ≤ 65536) && decide (byteField e 140 4 ≤ 16) && f8 18 % 32 == 0 && e >>> 1600 == 0
      && decide (f8 1 < 2 ^ 39) && decide (f8 4 < 2 ^ 39) && decide (f8 13 < 2 ^ 39) && decide (f8 14 < 2 ^ 39)
  if ok then
    some { ckgang := byteField e 2 2, flcap, root := f8 1, ckbase := f8 2, cksize := f8 3, shbase := f8 4, ulbase := uls
           ulsize := sizes, svbase := f8 13, flbase := f8 14, wlbase := f8 15, winbase := f8 16, wincnt := byteField e 136 4
           lqcnt := byteField e 140 4, lqbase := f8 18, grant := BitVec.ofNat 384 (byteField e 152 48), ulcount := [0, 0, 0, 0]
           sweepDue := false, dying := false, ended := false, discarded := 0, markers := [] }
  else none

/-- The context's queues are taken out of service. -/
def dropQueues (n : Nat) (s : State) : State := { s with queues := s.queues.filter fun e => e.1 / 16 != n }

/-- The descriptor of context `n` is read; its launch queues are taken into service (R93, R364). What the device keeps of
the context's supersteps stands through a change. DESIGN CHOICE (log 99): `ERR` clears at the next load that succeeds and stands
through a removal, and a descriptor that cannot be read is not loaded. -/
def loadContextNum (n : Nat) (s : State) : State :=
  if n == 0 || 4095 < n then s
  else
    let a := s.ctxbase.toNat + 256 * n
    let s0 := l2Read a 256 s
    match (if (sectorCause s a 256).isSome then none else contextOf s (s.hbmNat a 256)) with
    | none => { s0 with ctxerr := true }
    | some c =>
      let c1 : Context :=
        match KMap.get? s.contexts n with
        | none => c
        | some o =>
          { c with
            ulcount := o.ulcount, sweepDue := o.sweepDue, dying := o.dying, ended := o.dying, discarded := o.discarded
            markers := o.markers }
      let s1 := dropQueues n { s0 with contexts := KMap.set s.contexts n c1, ctxerr := false }
      (List.range c.lqcnt).foldl (fun s i => readQueue n i s) s1

/-- A context is removed, and its queues are no longer served. -/
def unloadContextNum (n : Nat) (s : State) : State :=
  if n == 0 then s else dropQueues n { s with contexts := KMap.erase s.contexts n }

/-- CONTEXT_LOAD (R93). -/
def execContextLoad (n : Nat) (s : State) : Host.Outcome State Fault Refusal := .next (loadContextNum n s)

/-- CONTEXT_UNLOAD (R93). -/
def execContextUnload (n : Nat) (s : State) : Host.Outcome State Fault Refusal := .next (unloadContextNum n s)

/-- The action of `ctxctl` as last written. -/
def ctxAct (s : State) : State :=
  let n := bits s.ctxctl.toNat 11 0
  let s1 := if bit s.ctxctl.toNat 12 then loadContextNum n s else unloadContextNum n s
  { s1 with ctxbusy := false }

end Sys2Proof.Machine
end

