-- ==== Sys2Proof/Machine/Registers.lean ====
section
/-! DEFINITION. Control registers (R160 and the tables that extend it): `mfc`, `mtc`, the router's tables, the counters
and thresholds, and writes that system software makes. -/

namespace Sys2Proof.Machine

/-! ### The fabric configuration and the router's tables (R299, R310) -/

/-- A value of `fabcfg` that is not ignored: `Q` is a prime power and `DEVID` a device of its plane. -/
def fabcfgOk (v : Nat) : Bool :=
  let q := bits v 12 8
  primePowers.contains q && decide (bits v 25 16 < q * q + q + 1)

/-- Reserved bits of `fabcfg` (Table 12.2). -/
def fabcfgClean (v : Nat) : Bool := bits v 63 26 == 0 && bits v 15 13 == 0 && bits v 7 1 == 0

/-- FABCFG_WRITE (R299). -/
def execFabcfgWrite (v : Word) (s : State) : Host.Outcome State Fault Refusal :=
  .next (if fabcfgOk v.toNat && fabcfgClean v.toNat then { s with fabcfg := v } else s)

/-- An entry that a value of `fabtsel` names, for the access that it makes (Table 12.16). -/
def fabtOk (v : Nat) : Bool :=
  let i := bits v 15 0
  match bits v 30 28 with
  | 0 => decide (i < 1024)
  | 1 => decide (i < 4096)
  | 2 => decide (i < 256)
  | 3 => !bit v 31 && decide (i < 8192)
  | 4 => !bit v 31 && decide (i < 32768)
  | _ => false

/-- What table 3 shows of a group slot. -/
def groupEntryBits (g : GroupSlot) : Nat :=
  g.ver % 65536 + g.op % 16 * 2 ^ 16 + (if g.ity then 2 ^ 20 else 0) + g.st % 4 * 2 ^ 21 + g.tmo % 65536 * 2 ^ 24
    + g.key.toNat * 2 ^ 40 + popBits 1024 g.memb.toNat % 1024 * 2 ^ 72

/-- An entry of the tables. -/
def fabtEntry (s : State) (tbl i : Nat) : Nat :=
  match tbl with
  | 0 => (KMap.getD s.routes i 0#128).toNat
  | 1 => (KMap.getD s.keys i 0#256).toNat
  | 2 => bits (KMap.getD s.reach (i / 4) 0#1024).toNat (256 * (i % 4) + 255) (256 * (i % 4))
  | 3 => groupEntryBits (KMap.getD s.groups i GroupSlot.reset)
  | _ => bits (KMap.getD s.groups (i / 4) GroupSlot.reset).memb.toNat (256 * (i % 4) + 255) (256 * (i % 4))

/-- Both copies of an entry are written; one copy stands for the two, which are always alike. -/
def setFabt (tbl i : Nat) (d : BitVec 256) (s : State) : State :=
  match tbl with
  | 0 => { s with routes := KMap.set s.routes i (d.setWidth 128) }
  | 1 => { s with keys := KMap.set s.keys i d }
  | _ =>
    let old := (KMap.getD s.reach (i / 4) 0#1024).toNat
    { s with reach := KMap.set s.reach (i / 4) (BitVec.ofNat 1024 (putBits old (256 * (i % 4) + 255) (256 * (i % 4)) d.toNat)) }

/-- The access that `fabtsel` names. -/
def fabtAct (s : State) : State :=
  let v := s.fabtsel.toNat
  let s0 := { s with fabtbusy := false, fabterr := !fabtOk v }
  if !fabtOk v then s0
  else if bit v 31 then setFabt (bits v 30 28) (bits v 15 0) s.fabtdat s0
  else { s0 with fabtdat := BitVec.ofNat 256 (fabtEntry s (bits v 30 28) (bits v 15 0)) }

/-- FABRIC_TABLE_WRITE (R310). -/
def execFabricTableWrite (sel : Word) (dat : BitVec 256) (s : State) : Host.Outcome State Fault Refusal :=
  .next (fabtAct { s with fabtsel := sel ||| 0x80000000#64, fabtdat := dat })

/-- FABRIC_TABLE_READ (R310). -/
def execFabricTableRead (sel : Word) (s : State) : Host.Outcome State Fault Refusal :=
  .next (fabtAct { s with fabtsel := sel &&& 0xFFFFFFFF7FFFFFFF#64 })

/-! ### Counters and thresholds (R380, R426) -/

/-- Counter `n` (Table 18.4) as die `d` has it: errors corrected, sectors poisoned and ring messages dropped are counted by the die
whose store or ring it is (R405), the others by the device. -/
def counterValue (s : State) (d n : Nat) : Word :=
  let sum (f : Cluster → Nat) : Word := BitVec.ofNat 64 ((s.clusters.filter fun e => dieOf e.1 == d).map fun e => f e.2).sum
  if n < 49 || n == 136 || n == 137 then KMap.getD s.counters n 0#64
  else if 64 ≤ n && n < 128 then BitVec.ofNat 64 ((List.range 4).map (queuedAt s (n - 64))).sum
  else if n == 128 then sum (·.l1errs)
  else if 129 ≤ n && n ≤ 134 then KMap.getD s.counters (256 * d + n) 0#64
  else if n == 135 then sum (·.ringDrops)
  else 0#64

/-- Whether an armed threshold's counter stands on the side that it fires at (Table 15.8). -/
def beyond (s : State) (d : Nat) (r : Word) : Bool :=
  let v := (counterValue s d (bits r.toNat 55 48)).toNat
  let limit := bits r.toNat 47 0
  r.getLsbD 63 && (if r.getLsbD 62 then decide (limit < v) else decide (v < limit))

/-- Thresholds whose counters have crossed fire, and each notes where its counter stands (R380). -/
def settleThresholds (s : State) : State :=
  let crossed := s.dies.flatMap fun e => (e.2.cthr.filter fun t => beyond s e.1 t.2.reg && !t.2.above).map fun t => (e.1, t.1, t.2.reg)
  let s1 : State := { s with
    dies := s.dies.map fun e => (e.1, { e.2 with cthr := e.2.cthr.map fun t => (t.1, { t.2 with above := beyond s e.1 t.2.reg }) }) }
  crossed.foldl (fun s x =>
    let c := bits x.2.2.toNat 55 48
    s.soon (.fire x.1 (16 + x.2.1) (BitVec.ofNat 16 c) 0#16 0#32 ((counterValue s x.1 c).setWidth 48))) s1

/-- Entries that waited for room in a fault log are written as room appears (R399). -/
def settleLogs (s : State) : State := s.logWait.foldl (fun s e => s.logFault e.1 e.2) { s with logWait := [] }

/-- What the device does of its own accord before a step. -/
def State.settle (s : State) : State := settleThresholds (settleLogs s)

/-! ### Supervisor registers -/

/-- The limit register of an island: firmware's value until it is written (Table 18.3). -/
def State.limit (s : State) (n : Nat) : Word :=
  KMap.getD s.islim n (BitVec.ofNat 64 (0x02D0 * 2 ^ 32 + (Config.plim n).toNat))

/-- The die whose event ring records an island's events: its own, and die 0 for the junction dies (log 20). -/
def islandDie (n : Nat) : Nat := if n < 16 then n / 4 else if n < 20 then n - 16 else 0

/-- Whether an island stands above its temperature limit, or its power limit. -/
def State.aboveLimit (s : State) (n : Nat) (temp : Bool) : Bool :=
  if temp then decide (bits (s.limit n).toNat 47 32 < (counterValue s 0 (24 + n)).toNat)
  else decide (bits (s.limit n).toNat 31 0 < (counterValue s 0 n).toNat)

/-- An island's limits that its values have crossed, either way, since `old` fire events 1 and 2 (R425). -/
def fireCrossings (n : Nat) (old s : State) : State :=
  let fire (temp : Bool) (s : State) : State :=
    if s.aboveLimit n temp == old.aboveLimit n temp then s
    else
      s.soon (.fire (islandDie n) (if temp then 1 else 2) (BitVec.ofNat 16 n) 0#16 0#32
        ((counterValue s 0 (if temp then 24 + n else n)).setWidth 48))
  fire true (fire false s)

def ofBool (b : Bool) : Nat := if b then 1 else 0

/-- A supervisor register as an agent of a die reads it; none for a number that no table gives (Tables 4.13, 7.3, 12.15,
15.10, 16.4, R426). Two are only written, and what a read of them gives is not stated (log 18). -/
def supRead (s : State) (die n : Nat) : Option Word :=
  let d := s.die die
  let w (v : Nat) : Option Word := some (BitVec.ofNat 64 v)
  if n == 0x100 then some (s.dplace.setWidth 64)
  else if n == 0x101 then some ((s.dplace >>> 64).setWidth 64)
  else if n == 0x102 then some d.l2pin
  else if n == 0x103 then w (ofBool d.l2pbusy)
  else if n == 0x104 then some d.xlinv
  else if n == 0x105 then w (ofBool d.xlbusy)
  else if n == 0x106 then some s.ctxbase
  else if n == 0x107 || n == 0x112 then some (Config.unreadWord n)
  else if n == 0x108 then w (ofBool s.ctxbusy + 2 * ofBool s.ctxerr)
  else if n == 0x110 then some (d.tpend.setWidth 64)
  else if n == 0x111 then some ((d.tpend >>> 64).setWidth 64)
  else if n == 0x113 then w (ofBool d.tbusy + 2 * d.tres)
  else if n == 0x120 then some s.fabtsel
  else if 0x121 ≤ n && n ≤ 0x124 then some ((s.fabtdat >>> (64 * (n - 0x121))).setWidth 64)
  else if n == 0x125 then w (ofBool s.fabtbusy + 2 * ofBool s.fabterr)
  else if n == 0x126 then some s.fabcfg
  else if n == 0x130 then some d.evring
  else if n == 0x131 then some (d.evhead.setWidth 64)
  else if n == 0x132 then some (d.evtail.setWidth 64)
  else if 0x140 ≤ n && n ≤ 0x14F then some ((KMap.getD d.cthr (n - 0x140) ⟨0#64, false⟩).reg)
  else if 0x150 ≤ n && n ≤ 0x16F then some (KMap.getD d.evbind (n - 0x150) 0#64)
  else if 0x170 ≤ n && n ≤ 0x187 then some (s.limit (n - 0x170))
  else if 0x200 ≤ n && n ≤ 0x2FF then some (counterValue s die (n - 0x200))
  else if 0x400 ≤ n && n ≤ 0x7FF then some (KMap.getD d.rpol (n - 0x400) 0#64)
  else none

/-- Supervisor registers that are only read. -/
def supReadOnly (n : Nat) : Bool :=
  n == 0x103 || n == 0x105 || n == 0x108 || n == 0x113 || n == 0x125 || n == 0x132 || (0x200 ≤ n && n ≤ 0x2FF)

/-- Whether a value keeps the layout and limits of a supervisor register that is written. A value whose register's own
rule has the write ignored is among them: it is no breach that traps. -/
def supFits (n v : Nat) : Bool :=
  if n == 0x104 then bits v 15 2 == 0
  else if n == 0x106 then bits v 63 39 == 0 && bits v 19 0 == 0
  else if n == 0x107 then bits v 63 13 == 0
  else if n == 0x111 || n == 0x131 then bits v 63 32 == 0
  else if n == 0x112 then bits v 63 40 == 0 && bits v 15 13 == 0
  else if n == 0x120 then bits v 63 32 == 0 && bits v 27 16 == 0 && decide (bits v 30 28 ≤ 4)
  else if n == 0x130 then bits v 63 60 == 0 && bits v 55 39 == 0 && bits v 11 1 == 0
  else if 0x140 ≤ n && n ≤ 0x14F then bits v 61 56 == 0
  else if 0x150 ≤ n && n ≤ 0x16F then evbindOk v
  else if 0x170 ≤ n && n ≤ 0x187 then bits v 63 48 == 0
  else if 0x400 ≤ n && n ≤ 0x7FF then bits v 61 44 == 0 && bits v 42 41 == 0 && bits v 31 22 == 0 && bits v 12 0 == 0
  else true

/-- Whether a register's earlier action is still under way: the writer stalls. -/
def supBusy (s : State) (die n : Nat) : Bool :=
  let d := s.die die
  if n == 0x102 then d.l2pbusy
  else if n == 0x104 then d.xlbusy
  else if n == 0x107 then s.ctxbusy
  else if n == 0x112 then d.tbusy
  else if 0x120 ≤ n && n ≤ 0x124 then s.fabtbusy
  else false

/-- A write, checked already. A register with an action sets its `BUSY` and the action is the machine's next step. -/
def supStore (die n : Nat) (v : Word) (s : State) : State :=
  let onDie (f : Die → Die) : State := s.modDie die f
  if n == 0x100 then s.setPlacement ((s.dplace >>> 64 <<< 64) ||| v.setWidth 128)
  else if n == 0x101 then s.setPlacement ((s.dplace <<< 64 >>> 64) ||| (v.setWidth 128 <<< 64))
  else if n == 0x102 then
    if l2pinOk v.toNat then (l2pinChange die v (onDie fun d => { d with l2pbusy := true })).soon (.act die n) else s
  else if n == 0x104 then
    if v.toNat % 4 == 3 then s else (onDie fun d => { d with xlinv := v, xlbusy := true }).soon (.act die n)
  else if n == 0x106 then { s with ctxbase := v }
  else if n == 0x107 then State.soon { s with ctxctl := v, ctxbusy := true } (.act die n)
  else if n == 0x110 then onDie fun d => { d with tpend := (d.tpend >>> 64 <<< 64) ||| v.setWidth 96 }
  else if n == 0x111 then onDie fun d => { d with tpend := (d.tpend <<< 32 >>> 32) ||| (v.setWidth 96 <<< 64) }
  else if n == 0x112 then (onDie fun d => { d with tctl := v, tbusy := true }).soon (.act die n)
  else if n == 0x120 then State.soon { s with fabtsel := v, fabtbusy := true } (.act die n)
  else if 0x121 ≤ n && n ≤ 0x124 then
    let k := 64 * (n - 0x121)
    { s with fabtdat := BitVec.ofNat 256 (putBits s.fabtdat.toNat (k + 63) k v.toNat) }
  else if n == 0x130 then
    if evringOk v.toNat then onDie fun d => { d with evring := v, evhead := 0#32, evtail := 0#32 } else s
  else if n == 0x131 then onDie fun d => { d with evhead := v.setWidth 32 }
  else if 0x140 ≤ n && n ≤ 0x14F then onDie fun d => { d with cthr := KMap.set d.cthr (n - 0x140) ⟨v, beyond s die v⟩ }
  else if 0x150 ≤ n && n ≤ 0x16F then bindEvent die (n - 0x150) v s
  else if 0x170 ≤ n && n ≤ 0x187 then fireCrossings (n - 0x170) s { s with islim := KMap.set s.islim (n - 0x170) v }
  else onDie fun d => { d with rpol := KMap.set d.rpol (n - 0x400) v }

/-- A write of a supervisor register by system software on a die: done, a cause, or none while the writer stalls.
`fabcfg` is firmware's, a level above (R385). -/
def supWrite (die n : Nat) (v : Word) (s : State) : Except (Option (BitVec 8)) State :=
  if n == 0x126 then .error (some 0x0A#8)
  else if (supRead s die n).isNone || supReadOnly n || !supFits n v.toNat then .error (some 0x0E#8)
  else if supBusy s die n then .error none
  else .ok (supStore die n v (s.modDie die fun d => { d with coreBad := NSet.erase d.coreBad (256 + n) }))

/-- REGISTER_WRITE (R160): a write that breaks the register's rules has no effect on the machine. -/
def execRegisterWrite (die num : Nat) (v : Word) (s : State) : Host.Outcome State Fault Refusal :=
  .next (if 3 < die then s else (supWrite die num v s).toOption.getD s)

/-- The action of a register that has been written is performed. -/
def regAct (die n : Nat) (s : State) : State :=
  if n == 0x102 then s.modDie die fun d => { d with l2pbusy := false }
  else if n == 0x104 then xlinvAct die s
  else if n == 0x107 then ctxAct s
  else if n == 0x112 then tctlAct die s
  else if n == 0x120 then fabtAct s
  else s

/-! ### Registers of a cluster (Tables 7.3 and 14.3) -/

/-- The state word of a byte counter (Table 14.4). -/
def counterState (b : ByteCounter) : Nat :=
  ofBool b.pst * 2 ^ 63 + ofBool b.err * 2 ^ 62 + b.phase.toNat % 65536 * 2 ^ 40 + wrap 40 b.cur

/-- A register of cluster `c`, but for a stream pointer; none for a number that no table gives. -/
def clusterReg (s : State) (c n : Nat) : Option Word :=
  let x := s.cl c
  let w (v : Nat) : Option Word := some (BitVec.ofNat 64 v)
  if n < 0x030 then some (KMap.getD x.bfmt n 9#64)
  else if n == 0x030 then some x.rmode
  else if n == 0x031 then some x.rseed
  else if n == 0x032 then some (x.sramcfg.setWidth 64)
  else if n == 0x033 then some (x.slipw.setWidth 64)
  else if n == 0x034 then some (x.tkcnt.setWidth 64)
  else if n == 0x035 then some x.sigtab
  else if n == 0x036 then some x.sigcnt
  else if n == 0x037 then w ((x.wS.loops.head?.map (·.count)).getD 0)
  else if n == 0x038 then some ((s.sstepOf ((x.task.map (·.gang)).getD 0)).setWidth 64)
  else if n == 0x039 then some (x.bphase.setWidth 64)
  else if 0x040 ≤ n && n ≤ 0x05F then some ((((KMap.getD x.ptrs (n - 0x040) []).getLast?).map (·.2)).getD 0#64)
  else if 0x060 ≤ n && n ≤ 0x09F then some (KMap.getD x.vshp (n - 0x060) 0#64)
  else if 0x0A0 ≤ n && n ≤ 0x0A7 then w (counterState (x.counter (n - 0x0A0)))
  else if 0x0A8 ≤ n && n ≤ 0x0AF then w (wrap 40 (x.counter (n - 0x0A8)).nxt)
  else none

/-- Whether the executing agent is at user level (R385). -/
def State.atUser (s : State) : Bool := !((s.selfTask.map (·.priv)).getD false)

/-- The engine that a stream pointer names as its owner. -/
def ownerOf (v : Nat) : Option Eng :=
  match bits v 63 61 with
  | 1 => some .L | 2 => some .A | 3 => some .W | 4 => some .M
  | _ => none

/-- The wait of an `mfc` of a pointer, and its value: the owner has passed the `mfc`, and every follow-on before it that uses the
pointer has run (R155, R262). -/
def readPointer (c k : Nat) : Act Word := do
  let s ← get
  match s.actor with
  | .pc _ .S =>
    let v := ptrVal (s.cl c) k s.selfDp
    match ownerOf v with
    | some e => waitIf (((s.cl c).walk e).dp ≤ s.selfDp) .order
    | none => pure ()
    waitIf ((followsOwed (s.cl c)).any fun m => m.thr.isNone && m.dp < s.selfDp && match m.followWord with
      | some j => (pointersOf j).contains k
      | none => false) .engine
    pure (BitVec.ofNat 64 v)
  | _ => pure ((clusterReg s c (0x040 + k)).getD 0#64)

/-- Registers placed in "quiet" order: `sramcfg`, `slipw`, `tkcnt`. -/
def quietReg (n : Nat) : Bool := 0x032 ≤ n && n ≤ 0x034

/-- A control register as the executing agent reads it (R160, R181). -/
def readReg (n : Nat) : Act Word := do
  let s ← get
  let c := s.selfCl
  match clusterReg s c n with
  | some _ =>
    if 0x040 ≤ n && n ≤ 0x05F then readPointer c (n - 0x040)
    else
      if quietReg n then awaitAll else pure ()
      pure ((clusterReg s c n).getD 0#64)
  | none =>
    match supRead s s.selfDie n with
    | none => trap 0x0E#8
    | some v =>
      trapIf (s.atUser || n == 0x126) 0x0A#8
      pure v

/-- `mfc` (R181). -/
def execMfc (d : Reg) (n : BitVec 14) (s : State) : Host.Outcome State Fault Refusal :=
  actOp (.mfc d n) always (do
    let v ← readReg n.toNat
    modify fun s => s.wr d v) s

/-- Whether a value keeps the layout of a cluster register that user code writes: R58 and R59 with cause 0x09, R65,
R115, R162, R155 and Table 7.5 with cause 0x0E. -/
def clusterFits (n v : Nat) : Bool :=
  if n < 0x030 then fmtWordOk v
  else if n == 0x030 then decide (v < 5)
  else if n == 0x031 then true
  else if n == 0x032 then sramOk v
  else if n == 0x033 then slipOk v
  else if n == 0x034 then decide (v < 2 ^ 32)
  else decide (bits v 63 61 ≤ 4) && bits v 43 22 == 0

/-- A cluster register is written by the S PC; engines behind go on seeing the old value up to here (R66, R155). -/
def clusterStore (c n : Nat) (v : Word) (s : State) : State :=
  s.modCl c fun y =>
    let x := { y with regBad := NSet.erase y.regBad (if 0x040 ≤ n && n ≤ 0x05F then 128 + (n - 0x040) else 256 + n) }
    if n < 0x030 then { x.keep (.bfmt n) (KMap.getD x.bfmt n 9#64) with bfmt := KMap.set x.bfmt n v }
    else if n == 0x030 then { x.keep .rmode x.rmode with rmode := v }
    else if n == 0x031 then { x.keep .rseed x.rseed with rseed := v }
    else if n == 0x032 then { x with sramcfg := v.setWidth 32, l1 := [] }
    else if n == 0x033 then { x with slipw := v.setWidth 32 }
    else if n == 0x034 then { x with tkcnt := v.setWidth 32 }
    else { x with ptrs := KMap.set x.ptrs (n - 0x040) (KMap.getD x.ptrs (n - 0x040) [] ++ [(x.wS.dp, v)]) }

/-- Registers of a cluster that `mtc` writes. -/
def clusterWritable (n : Nat) : Bool := n ≤ 0x034 || (0x040 ≤ n && n ≤ 0x05F)

/-- A control register is written by the executing agent (R160, R181). A die manager core writes supervisor registers
alone: it has no cluster. -/
def writeReg (n : Nat) (v : Word) : Act Unit := do
  let s ← get
  let c := s.selfCl
  match s.actor with
  | .rake _ _ => trap 0x0A#8
  | _ =>
    match clusterReg s c n with
    | some _ =>
      match s.actor with
      | .mgr _ => trap 0x0A#8
      | _ =>
        if !clusterWritable n then trap 0x0E#8
        else
          trapIf (n == 0x032 && s.atUser) 0x0A#8
          if quietReg n then awaitAll else pure ()
          if clusterFits n v.toNat then modify (clusterStore c n v)
          else trap (if n < 0x030 then 0x09#8 else 0x0E#8)
    | none =>
      trapIf ((supRead s s.selfDie n).isSome && s.atUser) 0x0A#8
      match supWrite s.selfDie n v s with
      | .ok s1 => set s1
      | .error (some e) => trap e
      | .error none => waitFor .engine

/-- `mtc` (R181). -/
def execMtc (d : Reg) (n : BitVec 14) (s : State) : Host.Outcome State Fault Refusal :=
  actOp (.mtc d n) always (do
    let s ← get
    writeReg n.toNat (s.rd d)) s

end Sys2Proof.Machine
end

