-- ==== Sys2Proof/Machine/HostBoot.lean ====
section
/-! DEFINITION. The host link, mailboxes, measured boot and attestation, power and reset (chapter 18). -/

namespace Sys2Proof.Machine

/-! ### BARs (R417 to R419) -/

/-- Mailbox `k`. -/
def State.mailbox (s : State) (k : Nat) : Mailbox := KMap.getD s.mailboxes k Mailbox.reset

def State.setMailbox (s : State) (k : Nat) (m : Mailbox) : State := { s with mailboxes := KMap.set s.mailboxes k m }

/-- `hid` and `hstat` (Table 18.2). -/
def hidWord : Word := 0x9600#64 ||| (Config.stepping.setWidth 64 <<< 16)

def hstatWord (s : State) : Word :=
  s.stage.setWidth 64 ||| (if s.bootFailed then 8#64 else 0#64) ||| (s.bootReason.setWidth 64 <<< 4)

/-- A byte of a mailbox as the host reads it. -/
def mailboxByte (m : Mailbox) (i : Nat) : Byte :=
  if i < 4 then BitVec.ofNat 8 (m.mseq.toNat / 256 ^ i)
  else if i < 8 then BitVec.ofNat 8 (m.rseq.toNat / 256 ^ (i - 4))
  else if i < 10 then BitVec.ofNat 8 (m.mop.toNat / 256 ^ (i - 8))
  else if i < 12 then BitVec.ofNat 8 (m.mst.toNat / 256 ^ (i - 10))
  else if i < 16 then 0#8
  else Mem.byte m.payload i

/-- A byte of BAR0 as the host reads it (Table 18.2). -/
def bar0Byte (s : State) (o : Nat) : Byte :=
  if o < 8 then BitVec.ofNat 8 (hidWord.toNat / 256 ^ o)
  else if o < 16 then BitVec.ofNat 8 ((hstatWord s).toNat / 256 ^ (o - 8))
  else if o < 24 then BitVec.ofNat 8 (s.hapctl.toNat / 256 ^ (o - 16))
  else if 0x1000 ≤ o && o < 0x2000 then mailboxByte (s.mailbox ((o - 0x1000) / 256)) (o % 256)
  else 0#8

/-- An entry of the MSI-X table: address, data, and in bit 96 the mask, which PCI Express sets at reset (PRESUMED, log 102). -/
def State.msixEntry (s : State) (k : Nat) : BitVec 128 := KMap.getD s.msixTable k (1#128 <<< 96)

/-- A byte of BAR4: the MSI-X table and its pending bits (Table 18.1). -/
def bar4Byte (s : State) (o : Nat) : Byte :=
  if o < 512 then BitVec.ofNat 8 ((s.msixEntry (o / 16)).toNat / 256 ^ (o % 16))
  else if 0x2000 ≤ o && o < 0x2004 then BitVec.ofNat 8 (s.msix.toNat / 256 ^ (o - 0x2000))
  else 0#8

/-- MSI-X vector `k` is signalled: its message leaves for the host, or, while the vector is masked, its pending bit is set (R417,
R420; log 102). -/
def signalMsix (k : Nat) (s : State) : State :=
  let e := (s.msixEntry k).toNat
  if bit e 96 then { s with msix := s.msix ||| 1#32 <<< k }
  else
    { s with
      msix := s.msix &&& ~~~(1#32 <<< k)
      hostOut := s.hostOut ++ [⟨0, bits e 63 0, natLe 4 (bits e 95 64)⟩] }

/-- The host's write of BAR4: bytes of the table; a vector that is no longer masked signals what was pending. The pending bits are
only read. -/
def msixStore (o : Nat) (bs : List Byte) (s : State) : State :=
  let put (s : State) (e : Nat × Byte) : State :=
    if 512 ≤ e.1 then s
    else
      let k := e.1 / 16
      let b := 8 * (e.1 % 16)
      { s with msixTable := KMap.set s.msixTable k (BitVec.ofNat 128 (putBits (s.msixEntry k).toNat (b + 7) b e.2.toNat)) }
  let s1 := (bs.mapIdx fun i b => (o + i, b)).foldl put s
  ((List.range 32).filter fun k => s1.msix.getLsbD k && !bit (s1.msixEntry k).toNat 96).foldl (fun s k => signalMsix k s) s1

/-- HAPCTL_WRITE (R419): its reserved bits stay zero. -/
def execHapctlWrite (v : Word) (s : State) : Host.Outcome State Fault Refusal :=
  .next { s with hapctl := v &&& 0xFFFF0000FFFF0001#64 }

/-- The context and virtual address that an aperture offset names. -/
def apertureCtx (s : State) : Nat := bits s.hapctl.toNat 63 48
def apertureVa (s : State) (o : Nat) : Nat := bits s.hapctl.toNat 31 16 * 2 ^ 32 + o

/-- A host access that is refused at an address: dropped or aborted, and logged (R419). -/
def refuseHost (s : State) (va : Nat) (cause : BitVec 8) : State :=
  s.logFault (apertureCtx s) ⟨cause, 2, 390, 7, 0, 0#32, 0, 0#32, va, 0⟩

/-- A completion returned to the host: the bytes read, or completer abort (R343, R418, R419). -/
def complete (bar o : Nat) (d : Option (List Byte)) (s : State) : State := { s with hostCpl := s.hostCpl ++ [⟨bar, o, d⟩] }

/-- The host reads its registers, or the MSI-X table (R418). -/
def barRead (bar o len : Nat) (s : State) : State :=
  let size := if bar == 0 then 65536 else 16384
  if (bar != 0 && bar != 4) || size < o + len then s
  else complete bar o (some ((List.range len).map fun i => if bar == 0 then bar0Byte s (o + i) else bar4Byte s (o + i))) s

/-- HOST_APERTURE_READ (R343, R419): the bytes go to the host, or the read completes with completer abort; it waits for a line
that is owed, and for a task that is spilled (R17, R396). -/
def execHostApertureRead (o len : Nat) (s : State) : Host.Outcome State Fault Refusal :=
  let w := hostWho (apertureCtx s)
  let part (acc : State × List Byte) (p : Nat × Nat) : Except (BitVec 8 × Nat) (State × List Byte) :=
    match vaRead w p.1 p.2 acc.1 with
    | .ok (s1, bs) => .ok (s1, acc.2 ++ bs)
    | .error c => .error (c, p.1)
  if 2 ^ 32 < o + len then .next s
  else if !s.hapctl.getLsbD 0 then .next (complete 2 o none (refuseHost s (apertureVa s o) (Config.apertureCause)))
  else
    match (pieces (apertureVa s o) len).foldlM part (s, []) with
    | .ok (s1, bs) => .next (complete 2 o (some bs) s1)
    | .error (c, a) => .next (if c == owedCause then s else complete 2 o none (refuseHost s a c))

/-- HOST_APERTURE_WRITE (R419): a posted write. -/
def execHostApertureWrite (o : Nat) (bytes : List Byte) (s : State) : Host.Outcome State Fault Refusal :=
  let w := hostWho (apertureCtx s)
  let va := apertureVa s o
  let part (s : State) (p : Nat × Nat) : Except (BitVec 8 × Nat) State :=
    (vaWrite w p.1 ((bytes.drop (p.1 - va)).take p.2) s).mapError fun c => (c, p.1)
  if 2 ^ 32 < o + bytes.length then .next s
  else if !s.hapctl.getLsbD 0 then .next (refuseHost s va (Config.apertureCause))
  else
    match (pieces va bytes.length).foldlM part s with
    | .ok s1 => .next s1
    | .error (c, a) => .next (if c == owedCause then s else refuseHost s a c)

/-- PCIE_LINK_TRAINING (R417). -/
def execPcieLinkTraining (width gen : Nat) (s : State) : Host.Outcome State Fault Refusal :=
  .next (if [4, 8, 16].contains width && [5, 6, 7].contains gen then { s with pcieUp := true, pcieWidth := width, pcieGen := gen } else s)

/-! ### Mailboxes (R420) -/

/-- A request is under way. -/
def Mailbox.busy (m : Mailbox) : Bool := m.mseq != m.rseq

/-- The reply and `MST` are written, `RSEQ` follows `MSEQ`, and MSI-X vector `k` is signalled. -/
def reply (k mst : Nat) (bs : List Byte) (s : State) : State :=
  let m := s.mailbox k
  let s1 := s.setMailbox k
    { m with mst := BitVec.ofNat 16 mst, rseq := m.mseq, payload := Mem.write m.payload 16 (bs.take 240), pend := [] }
  signalMsix k s1

/-- A host's byte at offset `i` of a mailbox: `MSEQ`, `MOP` and the payload are the host's to write. -/
def hostByteIn (m : Mailbox) (i : Nat) (b : Byte) : Mailbox :=
  if i < 4 then { m with mseq := BitVec.ofNat 32 (putBits m.mseq.toNat (8 * i + 7) (8 * i) b.toNat) }
  else if 8 ≤ i && i < 10 then { m with mop := BitVec.ofNat 16 (putBits m.mop.toNat (8 * i - 57) (8 * i - 64) b.toNat) }
  else if 16 ≤ i && i < 256 then { m with payload := Mem.write m.payload i [b] }
  else m

/-- The SPDM request codes that are answered (R423; log 14). -/
def spdmCodes : List Nat := [0x84, 0xE1, 0xE3, 0x81, 0x82, 0x83, 0xE0]

/-- The SPDM message in a mailbox. -/
def Mailbox.spdm (m : Mailbox) : List Byte := Mem.read m.payload 16 240

/-- The code of an SPDM message, and whether it is a request that is answered: at version 1.3, and GET_VERSION, which SPDM sends at
1.0, at that too (R423; log 14). -/
def spdmCode (req : List Byte) : Nat := (req.getD 1 0#8).toNat
def spdmKnown (req : List Byte) : Bool :=
  spdmCodes.contains (spdmCode req) && (req.getD 0 0#8 == 0x13#8 || (spdmCode req == 0x84 && req.getD 0 0#8 == 0x10#8))

/-- ERROR with UnsupportedRequest (R423; log 14). -/
def spdmError (code : Nat) : List Byte := [0x13#8, 0x7F#8, 0x07#8, BitVec.ofNat 8 code]

/-- The gangs of a context with their superstep numbers. -/
def gangSteps (s : State) (ctx : Nat) : List (Nat × BitVec 32) :=
  (s.gangs.filter fun e => e.2.ctx == ctx).map fun e => (e.1, e.2.sstep)

/-- The request that mailbox `k` now holds is taken: answered at once where it is none that waits to be served. -/
def takeRequest (k : Nat) (s : State) : State :=
  let m := s.mailbox k
  let ctx := Config.mailboxContext s.tick k
  if (KMap.get? s.contexts ctx).isNone then reply k 2 [] s
  else
    let s1 := s.setMailbox k { m with ctx, pend := gangSteps s ctx }
    match m.mop.toNat with
    | 1 | 3 => s1
    | 2 => if spdmKnown m.spdm then s1 else reply k 0 (spdmError (spdmCode m.spdm)) s1
    | _ => reply k 1 [] s1

/-- MAILBOX_WRITE (R420). -/
def execMailboxWrite (k off : Nat) (bytes : List Byte) (s : State) : Host.Outcome State Fault Refusal :=
  if 15 < k then .next s
  else if (s.mailbox k).busy then .next (s.count 0 137 1)
  else
    let m := (bytes.mapIdx fun i b => (off + i, b)).foldl (fun (m : Mailbox) e => hostByteIn m e.1 e.2) (s.mailbox k)
    let s1 := s.setMailbox k m
    .next (if m.busy then takeRequest k s1 else s1)

/-- A mailbox that holds a request for `mop`. -/
def holdsRequest (s : State) (k mop : Nat) : Bool := k < 16 && (s.mailbox k).busy && (s.mailbox k).mop.toNat == mop

/-- A graph that has ended, or waits: no stage of it could start a task now. DEDUCED (log 103). -/
def graphWaits (s : State) (g : Nat) (q : Graph) : Bool :=
  !q.live || (List.range q.nst).all fun i =>
    match s.stage? 0 g i with
    | none => true
    | some t => !runnable s 0 g i t || (List.range 4).all fun d => lacksClusters s d g i t

/-- QUIESCE (R420): every gang of the context that runs has completed a barrier since the request came, and every graph has ended or
waits; the reply counts the gangs that run. -/
def execQuiesce (k : Nat) (s : State) : Host.Outcome State Fault Refusal :=
  let m := s.mailbox k
  let mine := s.gangs.filter fun e => e.2.ctx == m.ctx && e.2.placed
  let passed := mine.all fun e => e.2.sstep != ((m.pend.find? fun g => g.1 == e.1).map (·.2)).getD 0#32
  let quiet := s.graphs.all fun e => e.2.ctx != m.ctx || graphWaits s e.1 e.2
  .next (if holdsRequest s k 1 && passed && quiet then reply k 0 (natLe 4 mine.length) s else s)

/-- FAULT_LOG_STATE (R420): tail, head and `NOVF` (R398). -/
def execFaultLogState (k : Nat) (s : State) : Host.Outcome State Fault Refusal :=
  .next (
    if holdsRequest s k 3 then
      match KMap.get? s.contexts (s.mailbox k).ctx with
      | some c => reply k 0 (s.hbmRead c.flbase 4 ++ s.hbmRead (c.flbase + 128) 4 ++ s.hbmRead (c.flbase + 4) 4) s
      | none => reply k 2 [] s
    else s)

/-! ### Attestation (R423) -/

/-- M0 to M3 and the digests extended into them, in order, each 64 bytes (R423). -/
def measurements (s : State) : List (List Byte) :=
  ((List.range 4).map fun n => KMap.getD s.meas n (List.replicate 64 0#8)) ++ s.digests.map (·.2)

/-- A byte of an answer that SPDM or the vendor decides: a free value by code, request, measurements and place (log 14). -/
def freeSpdm (s : State) (code : Nat) (req : List Byte) (i : Nat) : Byte :=
  (Config.spdmBody code req (measurements s).flatten).getD i 0#8

/-- VERSION: 1.3 alone. -/
def versionBody : List Byte := [0x10#8, 0x04#8, 0#8, 0#8, 0#8, 1#8, 0x00#8, 0x13#8]

/-- ALGORITHMS: 44 bytes that end with the two extended algorithms of the PCI-SIG registry, 0x0001 Falcon-1024 and 0x0002
SHAKE256. -/
def algorithmsBody (s : State) (req : List Byte) : List Byte :=
  let fixed : KMap Byte := [(0, 0x13#8), (1, 0x63#8), (2, 0#8), (3, 0#8), (4, 44#8), (5, 0#8)]
    ++ ((List.range 8).map fun i => (12 + i, 0#8)) ++ [(32, 1#8), (33, 1#8)]
    ++ [(36, 3#8), (37, 0#8), (38, 1#8), (39, 0#8), (40, 3#8), (41, 0#8), (42, 2#8), (43, 0#8)]
  (List.range 44).map fun i => (KMap.get? fixed i).getD (freeSpdm s 0xE3 req i)

/-- MEASUREMENTS: the number of blocks, one block, or all, as the request's second parameter asks; then nonce, opaque data and
signature. -/
def measurementsBody (s : State) (req : List Byte) : List Byte :=
  let all := measurements s
  let block (i : Nat) : List Byte :=
    natLe 1 (i + 1) ++ [1#8] ++ natLe 2 67 ++ [freeSpdm s 0xE0 req i] ++ natLe 2 64 ++ all.getD i []
  let p := (req.getD 3 0#8).toNat
  let is := if p == 0xFF then List.range all.length else if 0 < p && p ≤ all.length then [p - 1] else []
  let record := is.flatMap block
  [0x13#8, 0x60#8] ++ natLe 1 (if p == 0 then all.length else 0) ++ [0#8] ++ natLe 1 is.length ++ natLe 3 record.length ++ record
    ++ Config.spdmBody 0xE0 req record

/-- The answer to a request that is supported; what SPDM leaves to the device is free (R423; log 14). -/
def spdmAnswer (s : State) (req : List Byte) : List Byte :=
  match spdmCode req with
  | 0x84 => versionBody
  | 0xE3 => algorithmsBody s req
  | 0xE0 => measurementsBody s req
  | code => Config.spdmBody code req (if code == 0x83 then (measurements s).flatten else [])

/-- The request of one code: in mailbox `k`, or, for 16 and above, from the fabric peer `k` - 16 over tc3, where one that is not
supported receives ERROR. -/
def answerSpdm (code k : Nat) (s : State) : State :=
  if k < 16 then
    let req := (s.mailbox k).spdm
    if holdsRequest s k 2 && spdmCode req == code && spdmKnown req then reply k 0 (spdmAnswer s req) s else s
  else
    let req := Config.peerRequest s.tick (k - 16)
    let answer (bs : List Byte) : State := s.send { newPacket s (k - 16) 3 .spdm 0 0#32 with data := bs }
    if !fabricOn s then s
    else if !spdmKnown req then answer (spdmError (spdmCode req))
    else if spdmCode req == code then answer (spdmAnswer s req)
    else s

/-- GET_VERSION (R423). -/
def execGetVersion (k : Nat) (s : State) : Host.Outcome State Fault Refusal := .next (answerSpdm 0x84 k s)
/-- GET_CAPABILITIES (R423). -/
def execGetCapabilities (k : Nat) (s : State) : Host.Outcome State Fault Refusal := .next (answerSpdm 0xE1 k s)
/-- NEGOTIATE_ALGORITHMS (R423). -/
def execNegotiateAlgorithms (k : Nat) (s : State) : Host.Outcome State Fault Refusal := .next (answerSpdm 0xE3 k s)
/-- GET_DIGESTS (R423). -/
def execGetDigests (k : Nat) (s : State) : Host.Outcome State Fault Refusal := .next (answerSpdm 0x81 k s)
/-- GET_CERTIFICATE (R423). -/
def execGetCertificate (k : Nat) (s : State) : Host.Outcome State Fault Refusal := .next (answerSpdm 0x82 k s)
/-- CHALLENGE (R423): signed over the measurements. -/
def execChallenge (k : Nat) (s : State) : Host.Outcome State Fault Refusal := .next (answerSpdm 0x83 k s)
/-- GET_MEASUREMENTS (R423). -/
def execGetMeasurements (k : Nat) (s : State) : Host.Outcome State Fault Refusal :=
  .next (answerSpdm 0xE0 k s)

/-! ### Boot and reset (R417, R422) -/

/-- The configuration that M2 measures: `fabcfg`, the route table, the `islim` values. -/
def configBytes (s : State) : List Byte :=
  natLe 8 s.fabcfg.toNat ++ ((List.range 1024).flatMap fun i => natLe 16 (KMap.getD s.routes i 0#128).toNat)
    ++ (List.range 24).flatMap fun i => natLe 8 (s.limit i).toNat

/-- Boot stops for the reason of a step. -/
def failBoot (step : Nat) (s : State) : State := { s with bootFailed := true, bootReason := Config.bootReason step }

/-- The device as ROM finds it after a function level reset: what has a reset value is at it, and what the package holds beside it
stays: device memory and L2, the links and what is on them, the PCI Express link and what has left for the host. DESIGN CHOICE
(log 104). -/
def romReset (s : State) : State :=
  let m := s.setPlacement 0#128
  { State.reset with
    agenda := s.agenda, tick := s.tick, actor := s.actor, hbm := m.hbm, poisoned := m.poisoned, l2 := m.l2, l2bad := m.l2bad
    nextGraph := s.nextGraph, nextGang := s.nextGang, ports := s.ports, net := s.net, wire := s.wire, park0 := s.park0
    park1 := s.park1, fabtime := s.fabtime, hostOut := s.hostOut, hostDone := s.hostDone, hostCpl := s.hostCpl, pcieUp := s.pcieUp
    pcieWidth := s.pcieWidth, pcieGen := s.pcieGen }

/-- BOOT (R422): the running stage checks the next image, or the runtime measures its configuration; nothing boots while
contexts are torn down after a reset. -/
def execBoot (img : BootImage) (s : State) : Host.Outcome State Fault Refusal :=
  let dying := s.contexts.any fun e => e.2.dying
  if s.resetting then .next (if dying then s else romReset s)
  else
    let n := s.stage.toNat
    if s.bootFailed || 2 < n || dying then .next s
    else if n == 2 then .next { extendMeas 2 (shake256 (configBytes s)) s with stage := 3#3 }
    else
      let d := shake256 img.bytes
      if !Config.falconOk d img.sig then .next (failBoot 2 s)
      else if img.version < Config.fusedVersion (n + 1) then .next (failBoot 3 s)
      else .next { extendMeas n d s with stage := s.stage + 1#3 }

/-- FUNCTION_LEVEL_RESET (R417): every context is torn down, and the device is back at ROM with nothing measured or bound, its
host registers and counters as at reset; the rest follows once the contexts are gone. -/
def execFunctionLevelReset (s : State) : Host.Outcome State Fault Refusal :=
  let s1 := (s.contexts.map (·.1)).foldl (fun s c => killAct c s) s
  let s2 : State := { s1 with
    stage := 0#3, bootFailed := false, bootReason := 0#8, meas := [], digests := [], hapctl := 0#64, mailboxes := []
    msix := 0#32, msixTable := [], islim := [], throttle := [], counters := [], resetting := true
    dies := s1.dies.map fun e => (e.1, { e.2 with evring := 0#64, evhead := 0#32, evtail := 0#32, evbind := [], cthr := [] }) }
  .next (if s2.contexts.isEmpty then romReset s2 else s2)

/-! ### Power (R424 to R426) -/

/-- COUNTER_REFRESH (R425, R426): a power or temperature is measured; the crossing of an island's limit fires. -/
def execCounterRefresh (n : Nat) (v : Word) (s : State) : Host.Outcome State Fault Refusal :=
  if 48 < n then .next s
  else
    let s1 : State := { s with counters := KMap.set s.counters n v }
    .next (if n == 48 then s1 else fireCrossings (n % 24) s s1)

/-- ISLAND_THROTTLE (R425): one step more while the island stands above its limit, none below it. Idle clk change
timing only (R424). -/
def execIslandThrottle (n : Nat) (s : State) : Host.Outcome State Fault Refusal :=
  if 23 < n then .next s
  else
    .next { s with throttle := KMap.set s.throttle n (if s.aboveLimit n false then KMap.getD s.throttle n 0 + 1 else 0) }

end Sys2Proof.Machine
end

