-- ==== Sys2Proof/Machine/Scalar.lean ====
section
/-! DEFINITION. Integer arithmetic and logic, immediates, compares, predicates and coordinates of the S
engine and of rake threads (R172 to R177, R182). -/

namespace Sys2Proof.Machine

/-! ### Table 8.2 -/

/-- Bits [127:64] of the signed product. -/
def mulHigh (a b : Word) : Word := BitVec.ofInt 64 (a.toInt * b.toInt / 18446744073709551616)

/-- Bits [127:64] of the unsigned product. -/
def mulHighN (a b : Word) : Word := BitVec.ofNat 64 (a.toNat * b.toNat / 18446744073709551616)

/-- trunc(sa / sb); a zero divisor gives -1; -2^63 by -1 gives -2^63. -/
def divS (a b : Word) : Word := if b == 0#64 then BitVec.allOnes 64 else a.sdiv b

/-- floor(a / b); a zero divisor gives 2^64 - 1. -/
def divN (a b : Word) : Word := if b == 0#64 then BitVec.allOnes 64 else a / b

/-- sa - sb trunc(sa / sb); a zero divisor gives a. -/
def remS (a b : Word) : Word := if b == 0#64 then a else a.srem b

/-- a mod b; a zero divisor gives a. -/
def remN (a b : Word) : Word := if b == 0#64 then a else a % b

/-- 0 for a count of 64 or more. -/
def shlW (a b : Word) : Word := if b.ult 64#64 then a <<< b.toNat else 0#64
def shrW (a b : Word) : Word := if b.ult 64#64 then a >>> b.toNat else 0#64

/-- floor(sa / 2^min(b, 63)). -/
def sraW (a b : Word) : Word := a.sshiftRight (min b.toNat 63)

def minS (a b : Word) : Word := if a.slt b then a else b
def maxS (a b : Word) : Word := if a.slt b then b else a
def minN (a b : Word) : Word := if a.ult b then a else b
def maxN (a b : Word) : Word := if a.ult b then b else a

/-- Leading zero bits, 0 to 64. -/
def clzW (a : Word) : Word := BitVec.ofNat 64 (64 - bitLen 64 a.toNat)

/-- One bits. -/
def popcW (a : Word) : Word := BitVec.ofNat 64 (popBits 64 a.toNat)

/-- Sign extension from bit 7, 15 or 31 (R173). -/
def sextW (f : BitVec 2) (a : Word) : Word :=
  match f.toNat with
  | 0 => (a.extractLsb' 0 8).signExtend 64
  | 1 => (a.extractLsb' 0 16).signExtend 64
  | _ => (a.extractLsb' 0 32).signExtend 64

/-- IMM8 and IMM14, sign-extended (R174, R175). -/
def sext8 (i : BitVec 8) : Word := i.signExtend 64
def sext14 (i : BitVec 14) : Word := i.signExtend 64

/-- A binary result in s[D]. -/
def State.bin (s : State) (f : Word → Word → Word) (d a : Reg) (b : Word) : State := s.wr d (f (s.rd a) b)


/-- `add` (Table 8.2). -/
def execAdd (d a b : Reg) (s : State) : Host.Outcome State Fault Refusal :=
  plainOp (.add d a b) always (fun s => s.bin (fun a b => a + b) d a (s.rd b)) s

def execAddLong (p : Pred) (d a : Reg) (b : RegOrImm) (s : State) : Host.Outcome State Fault Refusal :=
  plainOp (.addLong p d a b) p (fun s => s.bin (fun a b => a + b) d a (s.rdRI b)) s

/-- `sub` (Table 8.2). -/
def execSub (d a b : Reg) (s : State) : Host.Outcome State Fault Refusal :=
  plainOp (.sub d a b) always (fun s => s.bin (fun a b => a - b) d a (s.rd b)) s

def execSubLong (p : Pred) (d a : Reg) (b : RegOrImm) (s : State) : Host.Outcome State Fault Refusal :=
  plainOp (.subLong p d a b) p (fun s => s.bin (fun a b => a - b) d a (s.rdRI b)) s

/-- `mul` (Table 8.2). -/
def execMul (d a b : Reg) (s : State) : Host.Outcome State Fault Refusal :=
  plainOp (.mul d a b) always (fun s => s.bin (fun a b => a * b) d a (s.rd b)) s

def execMulLong (p : Pred) (d a : Reg) (b : RegOrImm) (s : State) : Host.Outcome State Fault Refusal :=
  plainOp (.mulLong p d a b) p (fun s => s.bin (fun a b => a * b) d a (s.rdRI b)) s

/-- `mulh` (Table 8.2). -/
def execMulh (d a b : Reg) (s : State) : Host.Outcome State Fault Refusal :=
  plainOp (.mulh d a b) always (fun s => s.bin mulHigh d a (s.rd b)) s

def execMulhLong (p : Pred) (d a : Reg) (b : RegOrImm) (s : State) : Host.Outcome State Fault Refusal :=
  plainOp (.mulhLong p d a b) p (fun s => s.bin mulHigh d a (s.rdRI b)) s

/-- `mulhn` (Table 8.2). -/
def execMulhn (d a b : Reg) (s : State) : Host.Outcome State Fault Refusal :=
  plainOp (.mulhn d a b) always (fun s => s.bin mulHighN d a (s.rd b)) s

def execMulhnLong (p : Pred) (d a : Reg) (b : RegOrImm) (s : State) : Host.Outcome State Fault Refusal :=
  plainOp (.mulhnLong p d a b) p (fun s => s.bin mulHighN d a (s.rdRI b)) s

/-- `div` (Table 8.2). -/
def execDiv (d a b : Reg) (s : State) : Host.Outcome State Fault Refusal :=
  plainOp (.div d a b) always (fun s => s.bin divS d a (s.rd b)) s

def execDivLong (p : Pred) (d a : Reg) (b : RegOrImm) (s : State) : Host.Outcome State Fault Refusal :=
  plainOp (.divLong p d a b) p (fun s => s.bin divS d a (s.rdRI b)) s

/-- `divn` (Table 8.2). -/
def execDivn (d a b : Reg) (s : State) : Host.Outcome State Fault Refusal :=
  plainOp (.divn d a b) always (fun s => s.bin divN d a (s.rd b)) s

def execDivnLong (p : Pred) (d a : Reg) (b : RegOrImm) (s : State) : Host.Outcome State Fault Refusal :=
  plainOp (.divnLong p d a b) p (fun s => s.bin divN d a (s.rdRI b)) s

/-- `rem` (Table 8.2). -/
def execRem (d a b : Reg) (s : State) : Host.Outcome State Fault Refusal :=
  plainOp (.rem d a b) always (fun s => s.bin remS d a (s.rd b)) s

def execRemLong (p : Pred) (d a : Reg) (b : RegOrImm) (s : State) : Host.Outcome State Fault Refusal :=
  plainOp (.remLong p d a b) p (fun s => s.bin remS d a (s.rdRI b)) s

/-- `remn` (Table 8.2). -/
def execRemn (d a b : Reg) (s : State) : Host.Outcome State Fault Refusal :=
  plainOp (.remn d a b) always (fun s => s.bin remN d a (s.rd b)) s

def execRemnLong (p : Pred) (d a : Reg) (b : RegOrImm) (s : State) : Host.Outcome State Fault Refusal :=
  plainOp (.remnLong p d a b) p (fun s => s.bin remN d a (s.rdRI b)) s

/-- `and` (Table 8.2). -/
def execAnd (d a b : Reg) (s : State) : Host.Outcome State Fault Refusal :=
  plainOp (.and d a b) always (fun s => s.bin (fun a b => a &&& b) d a (s.rd b)) s

def execAndLong (p : Pred) (d a : Reg) (b : RegOrImm) (s : State) : Host.Outcome State Fault Refusal :=
  plainOp (.andLong p d a b) p (fun s => s.bin (fun a b => a &&& b) d a (s.rdRI b)) s

/-- `or` (Table 8.2). -/
def execOr (d a b : Reg) (s : State) : Host.Outcome State Fault Refusal :=
  plainOp (.or d a b) always (fun s => s.bin (fun a b => a ||| b) d a (s.rd b)) s

def execOrLong (p : Pred) (d a : Reg) (b : RegOrImm) (s : State) : Host.Outcome State Fault Refusal :=
  plainOp (.orLong p d a b) p (fun s => s.bin (fun a b => a ||| b) d a (s.rdRI b)) s

/-- `xor` (Table 8.2). -/
def execXor (d a b : Reg) (s : State) : Host.Outcome State Fault Refusal :=
  plainOp (.xor d a b) always (fun s => s.bin (fun a b => a ^^^ b) d a (s.rd b)) s

def execXorLong (p : Pred) (d a : Reg) (b : RegOrImm) (s : State) : Host.Outcome State Fault Refusal :=
  plainOp (.xorLong p d a b) p (fun s => s.bin (fun a b => a ^^^ b) d a (s.rdRI b)) s

/-- `shl` (Table 8.2). -/
def execShl (d a b : Reg) (s : State) : Host.Outcome State Fault Refusal :=
  plainOp (.shl d a b) always (fun s => s.bin shlW d a (s.rd b)) s

def execShlLong (p : Pred) (d a : Reg) (b : RegOrImm) (s : State) : Host.Outcome State Fault Refusal :=
  plainOp (.shlLong p d a b) p (fun s => s.bin shlW d a (s.rdRI b)) s

/-- `shr` (Table 8.2). -/
def execShr (d a b : Reg) (s : State) : Host.Outcome State Fault Refusal :=
  plainOp (.shr d a b) always (fun s => s.bin shrW d a (s.rd b)) s

def execShrLong (p : Pred) (d a : Reg) (b : RegOrImm) (s : State) : Host.Outcome State Fault Refusal :=
  plainOp (.shrLong p d a b) p (fun s => s.bin shrW d a (s.rdRI b)) s

/-- `sra` (Table 8.2). -/
def execSra (d a b : Reg) (s : State) : Host.Outcome State Fault Refusal :=
  plainOp (.sra d a b) always (fun s => s.bin sraW d a (s.rd b)) s

def execSraLong (p : Pred) (d a : Reg) (b : RegOrImm) (s : State) : Host.Outcome State Fault Refusal :=
  plainOp (.sraLong p d a b) p (fun s => s.bin sraW d a (s.rdRI b)) s

/-- `min` (Table 8.2). -/
def execMin (d a b : Reg) (s : State) : Host.Outcome State Fault Refusal :=
  plainOp (.min d a b) always (fun s => s.bin minS d a (s.rd b)) s

def execMinLong (p : Pred) (d a : Reg) (b : RegOrImm) (s : State) : Host.Outcome State Fault Refusal :=
  plainOp (.minLong p d a b) p (fun s => s.bin minS d a (s.rdRI b)) s

/-- `max` (Table 8.2). -/
def execMax (d a b : Reg) (s : State) : Host.Outcome State Fault Refusal :=
  plainOp (.max d a b) always (fun s => s.bin maxS d a (s.rd b)) s

def execMaxLong (p : Pred) (d a : Reg) (b : RegOrImm) (s : State) : Host.Outcome State Fault Refusal :=
  plainOp (.maxLong p d a b) p (fun s => s.bin maxS d a (s.rdRI b)) s

/-- `minn` (Table 8.2). -/
def execMinn (d a b : Reg) (s : State) : Host.Outcome State Fault Refusal :=
  plainOp (.minn d a b) always (fun s => s.bin minN d a (s.rd b)) s

def execMinnLong (p : Pred) (d a : Reg) (b : RegOrImm) (s : State) : Host.Outcome State Fault Refusal :=
  plainOp (.minnLong p d a b) p (fun s => s.bin minN d a (s.rdRI b)) s

/-- `maxn` (Table 8.2). -/
def execMaxn (d a b : Reg) (s : State) : Host.Outcome State Fault Refusal :=
  plainOp (.maxn d a b) always (fun s => s.bin maxN d a (s.rd b)) s

def execMaxnLong (p : Pred) (d a : Reg) (b : RegOrImm) (s : State) : Host.Outcome State Fault Refusal :=
  plainOp (.maxnLong p d a b) p (fun s => s.bin maxN d a (s.rdRI b)) s

/-- `andn` (Table 8.2). -/
def execAndn (d a b : Reg) (s : State) : Host.Outcome State Fault Refusal :=
  plainOp (.andn d a b) always (fun s => s.bin (fun a b => a &&& ~~~b) d a (s.rd b)) s

def execAndnLong (p : Pred) (d a : Reg) (b : RegOrImm) (s : State) : Host.Outcome State Fault Refusal :=
  plainOp (.andnLong p d a b) p (fun s => s.bin (fun a b => a &&& ~~~b) d a (s.rdRI b)) s

/-- `clz` (Table 8.2). -/
def execClz (d a : Reg) (s : State) : Host.Outcome State Fault Refusal :=
  plainOp (.clz d a) always (fun s => s.wr d (clzW (s.rd a))) s

def execClzLong (p : Pred) (d a : Reg) (s : State) : Host.Outcome State Fault Refusal :=
  plainOp (.clzLong p d a) p (fun s => s.wr d (clzW (s.rd a))) s

/-- `popc` (Table 8.2). -/
def execPopc (d a : Reg) (s : State) : Host.Outcome State Fault Refusal :=
  plainOp (.popc d a) always (fun s => s.wr d (popcW (s.rd a))) s

def execPopcLong (p : Pred) (d a : Reg) (s : State) : Host.Outcome State Fault Refusal :=
  plainOp (.popcLong p d a) p (fun s => s.wr d (popcW (s.rd a))) s

/-- `sext` (Table 8.2). -/
def execSext (f : BitVec 2) (d a : Reg) (s : State) : Host.Outcome State Fault Refusal :=
  plainOp (.sext f d a) always (fun s => s.wr d (sextW f (s.rd a))) s

def execSextLong (p : Pred) (f : BitVec 2) (d a : Reg) (s : State) : Host.Outcome State Fault Refusal :=
  plainOp (.sextLong p f d a) p (fun s => s.wr d (sextW f (s.rd a))) s

/-! ### Immediates (R174, R175) -/

/-- `addi` (R174). -/
def execAddi (d a : Reg) (i : BitVec 8) (s : State) : Host.Outcome State Fault Refusal :=
  plainOp (.addi d a i) always (fun s => s.bin (fun a b => a + b) d a (sext8 i)) s

def execAddiLong (p : Pred) (d a : Reg) (i : BitVec 32) (s : State) : Host.Outcome State Fault Refusal :=
  plainOp (.addiLong p d a i) p (fun s => s.bin (fun a b => a + b) d a (sext32 i)) s

/-- `andi` (R174). -/
def execAndi (d a : Reg) (i : BitVec 8) (s : State) : Host.Outcome State Fault Refusal :=
  plainOp (.andi d a i) always (fun s => s.bin (fun a b => a &&& b) d a (sext8 i)) s

def execAndiLong (p : Pred) (d a : Reg) (i : BitVec 32) (s : State) : Host.Outcome State Fault Refusal :=
  plainOp (.andiLong p d a i) p (fun s => s.bin (fun a b => a &&& b) d a (sext32 i)) s

/-- `ori` (R174). -/
def execOri (d a : Reg) (i : BitVec 8) (s : State) : Host.Outcome State Fault Refusal :=
  plainOp (.ori d a i) always (fun s => s.bin (fun a b => a ||| b) d a (sext8 i)) s

def execOriLong (p : Pred) (d a : Reg) (i : BitVec 32) (s : State) : Host.Outcome State Fault Refusal :=
  plainOp (.oriLong p d a i) p (fun s => s.bin (fun a b => a ||| b) d a (sext32 i)) s

/-- `xori` (R174). -/
def execXori (d a : Reg) (i : BitVec 8) (s : State) : Host.Outcome State Fault Refusal :=
  plainOp (.xori d a i) always (fun s => s.bin (fun a b => a ^^^ b) d a (sext8 i)) s

def execXoriLong (p : Pred) (d a : Reg) (i : BitVec 32) (s : State) : Host.Outcome State Fault Refusal :=
  plainOp (.xoriLong p d a i) p (fun s => s.bin (fun a b => a ^^^ b) d a (sext32 i)) s

/-- `shli` (R174). -/
def execShli (d a : Reg) (i : BitVec 8) (s : State) : Host.Outcome State Fault Refusal :=
  plainOp (.shli d a i) always (fun s => s.bin shlW d a (i.setWidth 64)) s

def execShliLong (p : Pred) (d a : Reg) (i : BitVec 32) (s : State) : Host.Outcome State Fault Refusal :=
  plainOp (.shliLong p d a i) p (fun s => s.bin shlW d a (i.setWidth 64)) s

/-- `shri` (R174). -/
def execShri (d a : Reg) (i : BitVec 8) (s : State) : Host.Outcome State Fault Refusal :=
  plainOp (.shri d a i) always (fun s => s.bin shrW d a (i.setWidth 64)) s

def execShriLong (p : Pred) (d a : Reg) (i : BitVec 32) (s : State) : Host.Outcome State Fault Refusal :=
  plainOp (.shriLong p d a i) p (fun s => s.bin shrW d a (i.setWidth 64)) s

/-- `srai` (R174). -/
def execSrai (d a : Reg) (i : BitVec 8) (s : State) : Host.Outcome State Fault Refusal :=
  plainOp (.srai d a i) always (fun s => s.bin sraW d a (i.setWidth 64)) s

def execSraiLong (p : Pred) (d a : Reg) (i : BitVec 32) (s : State) : Host.Outcome State Fault Refusal :=
  plainOp (.sraiLong p d a i) p (fun s => s.bin sraW d a (i.setWidth 64)) s

/-- `li` (R175). -/
def execLi (d : Reg) (i : BitVec 14) (s : State) : Host.Outcome State Fault Refusal :=
  plainOp (.li d i) always (fun s => s.wr d (sext14 i)) s

def execLiLong (p : Pred) (d : Reg) (i : BitVec 32) (s : State) : Host.Outcome State Fault Refusal :=
  plainOp (.liLong p d i) p (fun s => s.wr d (sext32 i)) s

/-- `li.hi` (R175). -/
def execLiHi (p : Pred) (d : Reg) (i : BitVec 32) (s : State) : Host.Outcome State Fault Refusal :=
  plainOp (.liHi p d i) p (fun s => s.wr d (i ++ (s.rd d).extractLsb' 0 32)) s

/-! ### Compares and predicates (R176, R177) -/

/-- A comparison in k[D]. -/
def State.cmp (s : State) (f : Word → Word → Bool) (k : PIdx) (a : Reg) (b : Word) : State := s.wrK k (f (s.rd a) b)

/-- `cmpeq` (R176). -/
def execCmpeq (k : PIdx) (a b : Reg) (s : State) : Host.Outcome State Fault Refusal :=
  plainOp (.cmpeq k a b) always (fun s => s.cmp (fun a b => a == b) k a (s.rd b)) s

def execCmpeqLong (p : Pred) (k : PIdx) (a : Reg) (b : RegOrImm) (s : State) : Host.Outcome State Fault Refusal :=
  plainOp (.cmpeqLong p k a b) p (fun s => s.cmp (fun a b => a == b) k a (s.rdRI b)) s

/-- `cmpne` (R176). -/
def execCmpne (k : PIdx) (a b : Reg) (s : State) : Host.Outcome State Fault Refusal :=
  plainOp (.cmpne k a b) always (fun s => s.cmp (fun a b => a != b) k a (s.rd b)) s

def execCmpneLong (p : Pred) (k : PIdx) (a : Reg) (b : RegOrImm) (s : State) : Host.Outcome State Fault Refusal :=
  plainOp (.cmpneLong p k a b) p (fun s => s.cmp (fun a b => a != b) k a (s.rdRI b)) s

/-- `cmplt` (R176). -/
def execCmplt (k : PIdx) (a b : Reg) (s : State) : Host.Outcome State Fault Refusal :=
  plainOp (.cmplt k a b) always (fun s => s.cmp (fun a b => a.slt b) k a (s.rd b)) s

def execCmpltLong (p : Pred) (k : PIdx) (a : Reg) (b : RegOrImm) (s : State) : Host.Outcome State Fault Refusal :=
  plainOp (.cmpltLong p k a b) p (fun s => s.cmp (fun a b => a.slt b) k a (s.rdRI b)) s

/-- `cmple` (R176). -/
def execCmple (k : PIdx) (a b : Reg) (s : State) : Host.Outcome State Fault Refusal :=
  plainOp (.cmple k a b) always (fun s => s.cmp (fun a b => a.sle b) k a (s.rd b)) s

def execCmpleLong (p : Pred) (k : PIdx) (a : Reg) (b : RegOrImm) (s : State) : Host.Outcome State Fault Refusal :=
  plainOp (.cmpleLong p k a b) p (fun s => s.cmp (fun a b => a.sle b) k a (s.rdRI b)) s

/-- `cmpltn` (R176). -/
def execCmpltn (k : PIdx) (a b : Reg) (s : State) : Host.Outcome State Fault Refusal :=
  plainOp (.cmpltn k a b) always (fun s => s.cmp (fun a b => a.ult b) k a (s.rd b)) s

def execCmpltnLong (p : Pred) (k : PIdx) (a : Reg) (b : RegOrImm) (s : State) : Host.Outcome State Fault Refusal :=
  plainOp (.cmpltnLong p k a b) p (fun s => s.cmp (fun a b => a.ult b) k a (s.rdRI b)) s

/-- `cmplen` (R176). -/
def execCmplen (k : PIdx) (a b : Reg) (s : State) : Host.Outcome State Fault Refusal :=
  plainOp (.cmplen k a b) always (fun s => s.cmp (fun a b => a.ule b) k a (s.rd b)) s

def execCmplenLong (p : Pred) (k : PIdx) (a : Reg) (b : RegOrImm) (s : State) : Host.Outcome State Fault Refusal :=
  plainOp (.cmplenLong p k a b) p (fun s => s.cmp (fun a b => a.ule b) k a (s.rdRI b)) s

/-- `pand` (R177). -/
def execPand (d a b : PIdx) (s : State) : Host.Outcome State Fault Refusal :=
  plainOp (.pand d a b) always (fun s => s.wrK d (s.rdK a && s.rdK b)) s

/-- `por` (R177). -/
def execPor (d a b : PIdx) (s : State) : Host.Outcome State Fault Refusal :=
  plainOp (.por d a b) always (fun s => s.wrK d (s.rdK a || s.rdK b)) s

/-- `pxor` (R177). -/
def execPxor (d a b : PIdx) (s : State) : Host.Outcome State Fault Refusal :=
  plainOp (.pxor d a b) always (fun s => s.wrK d (s.rdK a != s.rdK b)) s

/-- `pnot` (R177). -/
def execPnot (d a : PIdx) (s : State) : Host.Outcome State Fault Refusal :=
  plainOp (.pnot d a) always (fun s => s.wrK d (!s.rdK a)) s

/-- `kget` (R177). -/
def execKget (d : Reg) (s : State) : Host.Outcome State Fault Refusal :=
  plainOp (.kget d) always (fun s => s.wr d (s.preds.setWidth 64)) s

/-- `kset` (R177): bit 0 and the bits above 15 are ignored. -/
def execKset (a : Reg) (s : State) : Host.Outcome State Fault Refusal :=
  plainOp (.kset a) always (fun s => s.setPreds ((s.rd a).setWidth 16)) s

/-! ### Coordinates (R182) -/

/-- id + 2^32 d + 2^40 y + 2^48 x of a cluster. -/
def cidWord (c : Nat) : Word :=
  BitVec.ofNat 64 (c + 4294967296 * dieOf c + 1099511627776 * rowOf c + 281474976710656 * colOf c)

/-- `cid` (R182). -/
def execCid (d : Reg) (s : State) : Host.Outcome State Fault Refusal :=
  plainOp (.cid d) always (fun s => s.wr d (cidWord s.selfCl)) s

def execCidLong (p : Pred) (d : Reg) (s : State) : Host.Outcome State Fault Refusal :=
  plainOp (.cidLong p d) p (fun s => s.wr d (cidWord s.selfCl)) s

/-- The relative coordinate address of Table 4.1; cause 0x24 outside the ranges of R182. -/
def nearAddr (off b : Word) : Option Word :=
  let dx := sx 8 (bits b.toNat 7 0)
  let dy := sx 8 (bits b.toNat 15 8)
  if dx < -11 || 11 < dx || dy < -7 || 7 < dy then none
  else
    some (BitVec.ofNat 64
      ((if dy < 0 then 0xFFFFFFFF00000000 else 0) + 268435456 * wrap 4 dy + 8388608 * wrap 5 dx + bits off.toNat 21 0))

/-- The absolute coordinate address of Table 4.1; cause 0x24 for an id above 383. -/
def clusterAddr (off b : Word) : Option Word :=
  if 383 < b.toNat then none
  else
    let c := b.toNat
    some (BitVec.ofNat 64
      (4294967296 + 1073741824 * dieOf c + 134217728 * rowOf c + 8388608 * colOf c + bits off.toNat 21 0))

/-- A coordinate instruction: the address in s[D], or cause 0x24. -/
def coordOp (f : Word → Word → Option Word) (d a : Reg) (b : State → Word) : Act Unit := fun s =>
  match f (s.rd a) (b s) with
  | some v => .ok ((), s.wr d v)
  | none => .error (.trap 0x24#8 0#64)

/-- `nearad` (R182). -/
def execNearad (d a b : Reg) (s : State) : Host.Outcome State Fault Refusal :=
  actOp (.nearad d a b) always (coordOp nearAddr d a (fun s => s.rd b)) s

def execNearadLong (p : Pred) (d a : Reg) (b : RegOrImm) (s : State) : Host.Outcome State Fault Refusal :=
  actOp (.nearadLong p d a b) p (coordOp nearAddr d a (fun s => s.rdRI b)) s

/-- `clad` (R182). -/
def execClad (d a b : Reg) (s : State) : Host.Outcome State Fault Refusal :=
  actOp (.clad d a b) always (coordOp clusterAddr d a (fun s => s.rd b)) s

def execCladLong (p : Pred) (d a : Reg) (b : RegOrImm) (s : State) : Host.Outcome State Fault Refusal :=
  actOp (.cladLong p d a b) p (coordOp clusterAddr d a (fun s => s.rdRI b)) s

/-- `nop` (R36). -/
def execNop (s : State) : Host.Outcome State Fault Refusal := plainOp .nop always (fun s => s) s

end Sys2Proof.Machine
end

