-- ==== Sys2Proof/Machine/Lanes.lean ====
section
/-! DEFINITION. What the A engine computes from lane codes: element-wise results, comparisons, conversions,
reductions and scans (R220 to R230). -/

namespace Sys2Proof.Machine

/-- A lane as an integer: signed for `.i` types, unsigned for `.n` types. -/
def laneInt (t : Ty) (c : Nat) : Int :=
  match t with
  | .i8 | .i16 | .i32 | .i64 => sx t.bits c
  | _ => (c % 2 ^ t.bits : Nat)

/-- An integer result as a lane (R221). -/
def laneOfInt (t : Ty) (sat : Bool) (v : Int) : Nat :=
  intLane (match t with | .i8 | .i16 | .i32 | .i64 => true | _ => false) t.bits sat v

/-- A value as a lane of an F type (R220). -/
def laneOfVal (t : Ty) (rm : Rm) (sat : Bool) (v : Val) : Nat := encodeVal (fmtTy t) v rm sat

def laneVal (t : Ty) (c : Nat) : Val := decodeVal (fmtTy t) c

/-- Operations of one lane, in F types over values and in I types over integers. -/
structure LaneFn where
  f : Rm → List Val → Val
  i : List Int → Int

/-- One result lane. -/
def LaneFn.run (g : LaneFn) (t : Ty) (rm : Rm) (sat : Bool) (cs : List Nat) : Nat :=
  if t.isF then laneOfVal t rm sat (g.f rm (cs.map (laneVal t)))
  else if t.isN then cs.headD 0
  else laneOfInt t sat (g.i (cs.map (laneInt t)))

def arg (l : List Val) (n : Nat) : Val := l.getD n .nan
def argI (l : List Int) (n : Nat) : Int := l.getD n 0

def fnMov : LaneFn := ⟨fun _ l => arg l 0, fun l => argI l 0⟩
def fnAdd : LaneFn := ⟨fun rm l => (arg l 0).add rm (arg l 1), fun l => argI l 0 + argI l 1⟩
def fnSub : LaneFn := ⟨fun rm l => (arg l 0).add rm (arg l 1).negate, fun l => argI l 0 - argI l 1⟩
def fnMul : LaneFn := ⟨fun _ l => (arg l 0).mul (arg l 1), fun l => argI l 0 * argI l 1⟩
def fnFma : LaneFn := ⟨fun rm l => (arg l 0).fma rm (arg l 1) (arg l 2), fun _ => 0⟩
def fnFms : LaneFn := ⟨fun rm l => (arg l 0).fma rm (arg l 1) (arg l 2).negate, fun _ => 0⟩
def fnFnma : LaneFn := ⟨fun rm l => (arg l 0).negate.fma rm (arg l 1) (arg l 2), fun _ => 0⟩
def fnNeg : LaneFn := ⟨fun _ l => (arg l 0).negate, fun l => -argI l 0⟩
def fnAbs : LaneFn := ⟨fun _ l => (arg l 0).abs, fun l => (argI l 0).natAbs⟩
def fnMin : LaneFn := ⟨fun _ l => (arg l 0).min (arg l 1), fun l => min (argI l 0) (argI l 1)⟩
def fnMax : LaneFn := ⟨fun _ l => (arg l 0).max (arg l 1), fun l => max (argI l 0) (argI l 1)⟩
def fnClamp : LaneFn :=
  ⟨fun _ l => ((arg l 0).max (arg l 1)).min (arg l 2), fun l => min (max (argI l 0) (argI l 1)) (argI l 2)⟩

/-- `vabsd`: an I result is an unsigned w-bit value (Table 9.6). -/
def laneAbsd (t : Ty) (rm : Rm) (sat : Bool) (a b : Nat) : Nat :=
  if t.isF then laneOfVal t rm sat (((laneVal t a).add rm (laneVal t b).negate).abs)
  else intLane false t.bits sat ((laneInt t a - laneInt t b).natAbs : Nat)

/-- `vmulh`: floor(a·b / 2^w), never saturated. -/
def laneMulh (t : Ty) (a b : Nat) : Nat := wrap t.bits (laneInt t a * laneInt t b / ((2 ^ t.bits : Nat) : Int))

/-- `vavg`: floor((a + b + 1) / 2). -/
def laneAvg (t : Ty) (a b : Nat) : Nat := wrap t.bits ((laneInt t a + laneInt t b + 1) / 2)

def laneNot (t : Ty) (a : Nat) : Nat := 2 ^ t.bits - 1 - a % 2 ^ t.bits

/-- Shifts; the count is unsigned (R221). -/
def laneShl (t : Ty) (sat : Bool) (a b : Nat) : Nat :=
  if t.bits ≤ b then 0 else laneOfInt t sat (laneInt t a * ((2 ^ b : Nat) : Int))

def laneShr (t : Ty) (sat : Bool) (a b : Nat) : Nat :=
  if t.bits ≤ b then 0 else laneOfInt t sat ((a % 2 ^ t.bits) / 2 ^ b : Nat)

def laneSra (t : Ty) (sat : Bool) (a b : Nat) : Nat :=
  let k := min b (t.bits - 1)
  laneOfInt t sat (sx t.bits a / ((2 ^ k : Nat) : Int))

def laneClz (t : Ty) (sat : Bool) (a : Nat) : Nat := laneOfInt t sat ((t.bits - bitLen t.bits a : Nat) : Int)
def lanePopc (t : Ty) (sat : Bool) (a : Nat) : Nat := laneOfInt t sat (popBits t.bits a : Nat)

/-- Comparisons of a lane (R222). -/
def laneEq (t : Ty) (a b : Nat) : Bool := if t.isF then (laneVal t a).eq (laneVal t b) else laneInt t a == laneInt t b
def laneLt (t : Ty) (a b : Nat) : Bool :=
  if t.isF then (laneVal t a).lt (laneVal t b) else decide (laneInt t a < laneInt t b)
def laneLe (t : Ty) (a b : Nat) : Bool :=
  if t.isF then (laneVal t a).le (laneVal t b) else decide (laneInt t a ≤ laneInt t b)

/-- `vrnd`: the integral value that the mode picks; infinities return themselves whatever `.sat` says, and NaN the canonical
one (R223). -/
def laneRnd (t : Ty) (rm : Rm) (sat : Bool) (c : Nat) : Nat :=
  match laneVal t c with
  | .num n m e x =>
    if m != 0 && ((fmtTy t).m : Int) ≤ magLog m e then c
    else laneOfVal t rm sat (.num n (roundUnits n m e x 0 rm) 0 false)
  | .inf _ => c
  | .nan => laneOfVal t rm sat .nan

/-- The transcendental forms (R72, R224). -/
def laneFn1 (g : Val → Val) (t : Ty) (rm : Rm) (sat : Bool) (c : Nat) : Nat := laneOfVal t rm sat (g (laneVal t c))

/-! ### Trees (R73, R74) -/

/-- The largest power of two below `n`, for n at least 2. -/
def powBelow (n : Nat) : Nat := 2 ^ Nat.log2 (n - 1)

/-- total(lo, hi) over leaves, with the index of each node's right subtree for its key; structural on a bound. -/
def totalOf {α : Type} (op : Nat → α → α → α) (leaf : Nat → α) : Nat → Nat → Nat → α
  | 0, lo, _ => leaf lo
  | n + 1, lo, hi =>
    if hi - lo ≤ 1 then leaf lo
    else
      let h := powBelow (hi - lo)
      op (lo + h) (totalOf op leaf n lo (lo + h)) (totalOf op leaf n (lo + h) hi)

/-- One level of the Brent-Kung tree: x[i] := x[i - d] op x[i] for i = first, first + step, … below n. -/
def treeLevel {α : Type} [Inhabited α] (op : Nat → α → α → α) (d first step n : Nat) (x : List α) : List α :=
  x.mapIdx fun i v =>
    if first ≤ i && i < n && (i - first) % step == 0 then op i (x.getD (i - d) default) v else v

/-- The inclusive scan of R73 over 2^k lanes. -/
def brentKung {α : Type} [Inhabited α] (op : Nat → α → α → α) (k : Nat) (x : List α) : List α :=
  let up := (List.range k).foldl (fun x d => treeLevel op (2 ^ d) (2 ^ (d + 1) - 1) (2 ^ (d + 1)) (2 ^ k) x) x
  (List.range (k - 1)).foldl (fun x j =>
    let d := k - 2 - j
    treeLevel op (2 ^ d) (3 * 2 ^ d - 1) (2 ^ (d + 1)) (2 ^ k) x) up

/-- The operators of reductions and scans on lane codes; the mode is that of the node's key. -/
def opAdd (t : Ty) (sat : Bool) (rm : Rm) (a b : Nat) : Nat := fnAdd.run t rm sat [a, b]

/-- The larger and the smaller value of R73 and R225: one of the operands, which `.sat` does not clamp. -/
def opMax (t : Ty) (_sat : Bool) (rm : Rm) (a b : Nat) : Nat := fnMax.run t rm false [a, b]
def opMin (t : Ty) (_sat : Bool) (rm : Rm) (a b : Nat) : Nat := fnMin.run t rm false [a, b]

/-- The add of a scan: `encode` clamps an integer sum to its type's range (R60, R73). -/
def opSum (t : Ty) (sat : Bool) (rm : Rm) (a b : Nat) : Nat := opAdd t (sat || !t.isF) rm a b

/-- The affine pair of R73: (a1, b1) then (a2, b2). -/
def opAffine (t : Ty) (sat : Bool) (rm : Rm) (p q : Nat × Nat) : Nat × Nat :=
  (laneOfVal t rm sat ((laneVal t q.1).mul (laneVal t p.1)),
   laneOfVal t rm sat ((laneVal t q.1).fma rm (laneVal t p.2) (laneVal t q.2)))

/-- Identities of the totals forms (R226). -/
def addIdentity (t : Ty) : Nat := if t.isF then (fmtTy t).signBit true else 0
def maxIdentity (t : Ty) : Nat :=
  if t.isF then (fmtTy t).infCode true
  else match t with
    | .i8 | .i16 | .i32 | .i64 => 2 ^ (t.bits - 1)
    | _ => 0
def affIdentity (t : Ty) : Nat × Nat := (laneOfVal t .rne false (.num false 1 0 false), 0)

/-! ### Hash (R230) -/

def hash32 (x : BitVec 32) : BitVec 32 :=
  let y := (x ^^^ (x >>> 16)) * 0x85EBCA6B#32
  let z := (y ^^^ (y >>> 13)) * 0xC2B2AE35#32
  z ^^^ (z >>> 16)

def laneHash (t : Ty) (k a s : Nat) : Nat :=
  let x := a ^^^ s
  (if t.bits == 32 then (hash32 (BitVec.ofNat 32 x)).toNat else (mix (BitVec.ofNat 64 x)).toNat) % 2 ^ k

/-! ### Packing patterns (R67, R68) -/

/-- A field of a period: its first bit and its width. -/
structure PField where
  start : Nat
  width : Nat
  deriving DecidableEq, Repr, Inhabited

/-- A pattern: period and fields. -/
structure Pattern where
  per : Nat
  fields : List PField
  deriving DecidableEq, Repr, Inhabited

/-- Halfword `i` of a line. -/
def half (v : Vec) (i : Nat) : Nat := (v.toNat >>> (16 * i)) % 65536

/-- A pattern line; none where it breaks R68 (0x09). -/
def patternOf (v : Vec) : Option Pattern :=
  let h := half v 0
  let nf := bits h 11 7 + 1
  let per := bits h 6 0 + 1
  let ds := (List.range nf).map fun i => half v (i + 1)
  let ok := bits h 15 12 == 0
    && ds.all (fun d => bits d 15 11 == 0 && !bit d 7 && bits d 6 0 + bits d 10 8 + 1 ≤ per)
    && (List.range 64).all (fun i => i ≤ nf || half v i == 0)
  if ok then some ⟨per, ds.map fun d => ⟨bits d 6 0, bits d 10 8 + 1⟩⟩ else none

/-- Place of field `j` in the string: first bit and width. -/
def Pattern.at (p : Pattern) (base j : Nat) : Nat × Nat :=
  let n := p.fields.length
  let f := p.fields.getD (j % n) default
  (base + j / n * p.per + f.start, f.width)

/-- Whether the first `n` fields lie within a string of `len` bits. -/
def Pattern.fits (p : Pattern) (base n len : Nat) : Bool :=
  (List.range n).all fun j => (p.at base j).1 + (p.at base j).2 ≤ len

/-- Field `j` of a string. -/
def Pattern.get (p : Pattern) (base : Nat) (s : Nat) (j : Nat) : Nat :=
  (s >>> (p.at base j).1) % 2 ^ (p.at base j).2

/-- A string with field `j` set. -/
def Pattern.put (p : Pattern) (base : Nat) (s : Nat) (j v : Nat) : Nat :=
  let q := p.at base j
  s - (p.get base s j) * 2 ^ q.1 + (v % 2 ^ q.2) * 2 ^ q.1

end Sys2Proof.Machine
end

