-- ==== Sys2Proof/Machine/VectorA.lean ====
section
/-! DEFINITION. The A engine's instructions (R213, R219 to R231). Each reads its sources in slot order, computes
its lanes and writes its destinations; `engineOp` says what is common to all. -/

namespace Sys2Proof.Machine

/-- Sources in slot order A, B, C, each as lanes or as a mask. -/
def readSrcs (t : Ty) (r : Round_) : List (As × Opnd) → Act (List Vec)
  | [] => pure []
  | (k, o) :: rest => do
    let v ← readSrc t r k o
    let vs ← readSrcs t r rest
    pure (v :: vs)

/-- An instruction with one destination, computed from its sources. -/
def laneInstr (i : Instr) (hd : VHead) (dk : As) (d : Opnd) (srcs : List (As × Opnd)) (f : Round_ → List Vec → Vec)
    (s : State) : Host.Outcome State Fault Refusal :=
  headOp i hd (d :: srcs.map (·.2)) (fun r => do
    let vs ← readSrcs hd.ty r srcs
    writeDst hd.ty r dk d (f r vs)) s

def src (vs : List Vec) (n : Nat) : Vec := vs.getD n 0#1024

/-- Lane by lane: the codes of the sources at each lane, with the lane's rounding. -/
def eachLane (t : Ty) (r : Round_) (vs : List Vec) (f : Rm → List Nat → Nat) : Vec :=
  let ls := vs.map (lanesOf t)
  vecOf t ((List.range t.lanes).map fun i => f (r.rm i) (ls.map fun l => l.getD i 0))

/-- An element-wise instruction over a lane function. -/
def elementWise (i : Instr) (hd : VHead) (g : LaneFn) (d : Opnd) (srcs : List Opnd) (s : State) :
    Host.Outcome State Fault Refusal :=
  laneInstr i hd .lanes d (srcs.map fun o => (.lanes, o)) (fun r vs => eachLane hd.ty r vs fun rm cs => g.run hd.ty rm r.sat cs) s

/-- An element-wise instruction over lane codes. -/
def codeWise (i : Instr) (hd : VHead) (g : Rm → Bool → List Nat → Nat) (d : Opnd) (srcs : List Opnd) (s : State) :
    Host.Outcome State Fault Refusal :=
  laneInstr i hd .lanes d (srcs.map fun o => (.lanes, o)) (fun r vs => eachLane hd.ty r vs fun rm cs => g rm r.sat cs) s

/-- A comparison, written as a mask (R222). -/
def compareWise (i : Instr) (hd : VHead) (g : Nat → Nat → Bool) (d a b : Opnd) (s : State) :
    Host.Outcome State Fault Refusal :=
  laneInstr i hd .mask d [(.lanes, a), (.lanes, b)] (fun _ vs =>
    maskVec (((lanesOf hd.ty (src vs 0)).zip (lanesOf hd.ty (src vs 1))).map fun p => g p.1 p.2)) s

def c0 (l : List Nat) : Nat := l.getD 0 0
def c1 (l : List Nat) : Nat := l.getD 1 0

/-! ### Element-wise arithmetic (R220, R221) -/

/-- `vmov` (R220, R221). -/
def execVmov (hd : VHead) (d a : Opnd) (s : State) : Host.Outcome State Fault Refusal :=
  elementWise (.vmov hd d a) hd fnMov d [a] s

/-- `vadd` (R220, R221). -/
def execVadd (hd : VHead) (d a b : Opnd) (s : State) : Host.Outcome State Fault Refusal :=
  elementWise (.vadd hd d a b) hd fnAdd d [a, b] s

/-- `vsub` (R220, R221). -/
def execVsub (hd : VHead) (d a b : Opnd) (s : State) : Host.Outcome State Fault Refusal :=
  elementWise (.vsub hd d a b) hd fnSub d [a, b] s

/-- `vmul` (R220, R221). -/
def execVmul (hd : VHead) (d a b : Opnd) (s : State) : Host.Outcome State Fault Refusal :=
  elementWise (.vmul hd d a b) hd fnMul d [a, b] s

/-- `vfma` (R220, R221). -/
def execVfma (hd : VHead) (d a b c : Opnd) (s : State) : Host.Outcome State Fault Refusal :=
  elementWise (.vfma hd d a b c) hd fnFma d [a, b, c] s

/-- `vfms` (R220, R221). -/
def execVfms (hd : VHead) (d a b c : Opnd) (s : State) : Host.Outcome State Fault Refusal :=
  elementWise (.vfms hd d a b c) hd fnFms d [a, b, c] s

/-- `vfnma` (R220, R221). -/
def execVfnma (hd : VHead) (d a b c : Opnd) (s : State) : Host.Outcome State Fault Refusal :=
  elementWise (.vfnma hd d a b c) hd fnFnma d [a, b, c] s

/-- `vneg` (R220, R221). -/
def execVneg (hd : VHead) (d a : Opnd) (s : State) : Host.Outcome State Fault Refusal :=
  elementWise (.vneg hd d a) hd fnNeg d [a] s

/-- `vabs` (R220, R221). -/
def execVabs (hd : VHead) (d a : Opnd) (s : State) : Host.Outcome State Fault Refusal :=
  elementWise (.vabs hd d a) hd fnAbs d [a] s

/-- `vmin` (R220, R221). -/
def execVmin (hd : VHead) (d a b : Opnd) (s : State) : Host.Outcome State Fault Refusal :=
  elementWise (.vmin hd d a b) hd fnMin d [a, b] s

/-- `vmax` (R220, R221). -/
def execVmax (hd : VHead) (d a b : Opnd) (s : State) : Host.Outcome State Fault Refusal :=
  elementWise (.vmax hd d a b) hd fnMax d [a, b] s

/-- `vclamp` (R220, R221). -/
def execVclamp (hd : VHead) (d a b c : Opnd) (s : State) : Host.Outcome State Fault Refusal :=
  elementWise (.vclamp hd d a b c) hd fnClamp d [a, b, c] s

/-- `vmulh` (R220, R221). -/
def execVmulh (hd : VHead) (d a b : Opnd) (s : State) : Host.Outcome State Fault Refusal :=
  codeWise (.vmulh hd d a b) hd (fun _ _ l => laneMulh hd.ty (c0 l) (c1 l)) d [a, b] s

/-- `vavg` (R220, R221). -/
def execVavg (hd : VHead) (d a b : Opnd) (s : State) : Host.Outcome State Fault Refusal :=
  codeWise (.vavg hd d a b) hd (fun _ _ l => laneAvg hd.ty (c0 l) (c1 l)) d [a, b] s

/-- `vabsd` (R220, R221). -/
def execVabsd (hd : VHead) (d a b : Opnd) (s : State) : Host.Outcome State Fault Refusal :=
  codeWise (.vabsd hd d a b) hd (fun rm sat l => laneAbsd hd.ty rm sat (c0 l) (c1 l)) d [a, b] s

/-- `vand` (R220, R221). -/
def execVand (hd : VHead) (d a b : Opnd) (s : State) : Host.Outcome State Fault Refusal :=
  codeWise (.vand hd d a b) hd (fun _ _ l => c0 l &&& c1 l) d [a, b] s

/-- `vor` (R220, R221). -/
def execVor (hd : VHead) (d a b : Opnd) (s : State) : Host.Outcome State Fault Refusal :=
  codeWise (.vor hd d a b) hd (fun _ _ l => c0 l ||| c1 l) d [a, b] s

/-- `vxor` (R220, R221). -/
def execVxor (hd : VHead) (d a b : Opnd) (s : State) : Host.Outcome State Fault Refusal :=
  codeWise (.vxor hd d a b) hd (fun _ _ l => c0 l ^^^ c1 l) d [a, b] s

/-- `vandn` (R220, R221). -/
def execVandn (hd : VHead) (d a b : Opnd) (s : State) : Host.Outcome State Fault Refusal :=
  codeWise (.vandn hd d a b) hd (fun _ _ l => c0 l &&& laneNot hd.ty (c1 l)) d [a, b] s

/-- `vnot` (R220, R221). -/
def execVnot (hd : VHead) (d a : Opnd) (s : State) : Host.Outcome State Fault Refusal :=
  codeWise (.vnot hd d a) hd (fun _ _ l => laneNot hd.ty (c0 l)) d [a] s

/-- `vshl` (R220, R221). -/
def execVshl (hd : VHead) (d a b : Opnd) (s : State) : Host.Outcome State Fault Refusal :=
  codeWise (.vshl hd d a b) hd (fun _ sat l => laneShl hd.ty sat (c0 l) (c1 l)) d [a, b] s

/-- `vshr` (R220, R221). -/
def execVshr (hd : VHead) (d a b : Opnd) (s : State) : Host.Outcome State Fault Refusal :=
  codeWise (.vshr hd d a b) hd (fun _ sat l => laneShr hd.ty sat (c0 l) (c1 l)) d [a, b] s

/-- `vsra` (R220, R221). -/
def execVsra (hd : VHead) (d a b : Opnd) (s : State) : Host.Outcome State Fault Refusal :=
  codeWise (.vsra hd d a b) hd (fun _ sat l => laneSra hd.ty sat (c0 l) (c1 l)) d [a, b] s

/-- `vclz` (R220, R221). -/
def execVclz (hd : VHead) (d a : Opnd) (s : State) : Host.Outcome State Fault Refusal :=
  codeWise (.vclz hd d a) hd (fun _ sat l => laneClz hd.ty sat (c0 l)) d [a] s

/-- `vpopc` (R220, R221). -/
def execVpopc (hd : VHead) (d a : Opnd) (s : State) : Host.Outcome State Fault Refusal :=
  codeWise (.vpopc hd d a) hd (fun _ sat l => lanePopc hd.ty sat (c0 l)) d [a] s

/-! ### Comparisons, selection, masks (R222) -/

/-- `vcmpeq` (R222). -/
def execVcmpeq (hd : VHead) (d a b : Opnd) (s : State) : Host.Outcome State Fault Refusal :=
  compareWise (.vcmpeq hd d a b) hd (laneEq hd.ty) d a b s

/-- `vcmpne` (R222). -/
def execVcmpne (hd : VHead) (d a b : Opnd) (s : State) : Host.Outcome State Fault Refusal :=
  compareWise (.vcmpne hd d a b) hd (fun x y => !laneEq hd.ty x y) d a b s

/-- `vcmplt` (R222). -/
def execVcmplt (hd : VHead) (d a b : Opnd) (s : State) : Host.Outcome State Fault Refusal :=
  compareWise (.vcmplt hd d a b) hd (laneLt hd.ty) d a b s

/-- `vcmple` (R222). -/
def execVcmple (hd : VHead) (d a b : Opnd) (s : State) : Host.Outcome State Fault Refusal :=
  compareWise (.vcmple hd d a b) hd (laneLe hd.ty) d a b s

/-- `vsel` (R222). -/
def execVsel (hd : VHead) (d a b c : Opnd) (s : State) : Host.Outcome State Fault Refusal :=
  laneInstr (.vsel hd d a b c) hd .lanes d [(.lanes, a), (.lanes, b), (.mask, c)] (fun _ vs =>
    let ls := (lanesOf hd.ty (src vs 0)).zip (lanesOf hd.ty (src vs 1))
    vecOf hd.ty (ls.mapIdx fun i p => if (src vs 2).getLsbD i then p.1 else p.2)) s

/-- The result of `vmsk` over the first `n` bits (R222). -/
def maskResult (op : MaskOp) (n : Nat) (vs : List Vec) : Vec :=
  let a := maskBits n (src vs 0)
  let b := maskBits n (src vs 1)
  match op with
  | .and => maskVec ((a.zip b).map fun p => p.1 && p.2)
  | .or => maskVec ((a.zip b).map fun p => p.1 || p.2)
  | .xor => maskVec ((a.zip b).map fun p => p.1 != p.2)
  | .andn => maskVec ((a.zip b).map fun p => p.1 && !p.2)
  | .not => maskVec (a.map fun x => !x)
  | .first => maskVec (a.mapIdx fun i x => x && (a.take i).all fun y => !y)
  | .all => maskVec (List.replicate n true)
  | .none => 0#1024

/-- The slots that an op of `vmsk` reads. -/
def maskSrcs (op : MaskOp) (a b : Opnd) : List (As × Opnd) :=
  match op with
  | .and | .or | .xor | .andn => [(.mask, a), (.mask, b)]
  | .not | .first => [(.mask, a)]
  | .all | .none => []

/-- `vmsk` (R222). -/
def execVmsk (hd : VHead) (op : MaskOp) (d a b : Opnd) (s : State) : Host.Outcome State Fault Refusal :=
  laneInstr (.vmsk hd op d a b) hd .mask d (maskSrcs op a b) (fun _ vs => maskResult op hd.ty.lanes vs) s

/-- `vcnt` (R222). -/
def execVcnt (hd : VHead) (d a : Opnd) (s : State) : Host.Outcome State Fault Refusal :=
  laneInstr (.vcnt hd d a) hd .lanes d [(.mask, a)] (fun _ vs =>
    vecOf hd.ty (List.replicate hd.ty.lanes ((maskBits hd.ty.lanes (src vs 0)).count true))) s

/-! ### Conversion and transcendentals (R223, R224) -/

/-- The destination lanes of `vcvt` from source codes: each is decoded and encoded, also between equal types, so that a NaN
becomes canonical and `.sat` acts (R52, R223). -/
def cvtLanes (t st : Ty) (part : Nat) (r : Round_) (cs : List Nat) : List Nat :=
  let nd := t.lanes
  let ns := st.lanes
  let one (i c : Nat) : Nat := encodeVal (fmtTy t) (decodeVal (fmtTy st) c) (r.rm i) r.sat
  if nd ≤ ns then (List.range nd).map fun i => one i (cs.getD (part * nd + i) 0)
  else (List.range nd).map fun j => if part * ns ≤ j && j < part * ns + ns then one j (cs.getD (j - part * ns) 0) else 0

/-- `vcvt` (R223): a stream operand is converted from its bank's format to T in one encode. DEDUCED (log 28): a scalar source is
taken as a code of `st`, where R203 speaks of type T. -/
def execVcvt (hd : VHead) (part : BitVec 2) (st : Ty) (d a : Opnd) (s : State) : Host.Outcome State Fault Refusal :=
  headOp (.vcvt hd part st d a) hd [d, a] (fun r => do
    let v ← match a with
      | .p _ => readSrc hd.ty r .lanes a
      | _ => do
        let v ← readSrc st r .lanes a
        pure (vecOf hd.ty (cvtLanes hd.ty st part.toNat r (lanesOf st v)))
    writeDst hd.ty r .lanes d v) s

/-- `vrnd` (R223). -/
def execVrnd (hd : VHead) (d a : Opnd) (s : State) : Host.Outcome State Fault Refusal :=
  codeWise (.vrnd hd d a) hd (fun rm sat l => laneRnd hd.ty rm sat (c0 l)) d [a] s

/-- `vexp` (R72, R224). -/
def execVexp (hd : VHead) (d a : Opnd) (s : State) : Host.Outcome State Fault Refusal :=
  codeWise (.vexp hd d a) hd (fun rm sat l => laneFn1 expRef hd.ty rm sat (c0 l)) d [a] s

/-- `vlog` (R72, R224). -/
def execVlog (hd : VHead) (d a : Opnd) (s : State) : Host.Outcome State Fault Refusal :=
  codeWise (.vlog hd d a) hd (fun rm sat l => laneFn1 logRef hd.ty rm sat (c0 l)) d [a] s

/-- `vrcp` (R72, R224). -/
def execVrcp (hd : VHead) (d a : Opnd) (s : State) : Host.Outcome State Fault Refusal :=
  codeWise (.vrcp hd d a) hd (fun rm sat l => laneFn1 Val.recip hd.ty rm sat (c0 l)) d [a] s

/-- `vrsqrt` (R72, R224). -/
def execVrsqrt (hd : VHead) (d a : Opnd) (s : State) : Host.Outcome State Fault Refusal :=
  codeWise (.vrsqrt hd d a) hd (fun rm sat l => laneFn1 Val.rsqrt hd.ty rm sat (c0 l)) d [a] s

/-- `vtanh` (R72, R224). -/
def execVtanh (hd : VHead) (d a : Opnd) (s : State) : Host.Outcome State Fault Refusal :=
  codeWise (.vtanh hd d a) hd (fun rm sat l => laneFn1 tanhRef hd.ty rm sat (c0 l)) d [a] s

/-! ### Reductions and scans (R225 to R227) -/

/-- total(0, n) in lane 0, the other lanes zero. -/
def reduceInstr (i : Instr) (hd : VHead) (op : Ty → Bool → Rm → Nat → Nat → Nat) (d a : Opnd) (s : State) : Host.Outcome State Fault Refusal :=
  laneInstr i hd .lanes d [(.lanes, a)] (fun r vs =>
    let l := lanesOf hd.ty (src vs 0)
    vecOf hd.ty [totalOf (fun k => op hd.ty r.sat (r.rm k)) (fun k => l.getD k 0) 8 0 hd.ty.lanes]) s

/-- `vredadd` (R225). -/
def execVredadd (hd : VHead) (d a : Opnd) (s : State) : Host.Outcome State Fault Refusal := reduceInstr (.vredadd hd d a) hd opAdd d a s

/-- `vredmax` (R225). -/
def execVredmax (hd : VHead) (d a : Opnd) (s : State) : Host.Outcome State Fault Refusal := reduceInstr (.vredmax hd d a) hd opMax d a s

/-- `vredmin` (R225). -/
def execVredmin (hd : VHead) (d a : Opnd) (s : State) : Host.Outcome State Fault Refusal := reduceInstr (.vredmin hd d a) hd opMin d a s

/-- A scan, or the carries of its leaves, with the identity in lane 0 (R226). DESIGN CHOICE (log 70): the stochastic key's
index is the lane that the node writes, in the carries the lowest leaf of its right subtree, and one for both parts of an
affine pair. -/
def scanLanes {α : Type} [Inhabited α] (tot : Bool) (op : Nat → α → α → α) (id_ : α) (l : List α) : List α :=
  if tot then l.mapIdx fun j _ => if j == 0 then id_ else totalOf op (fun k => l.getD k default) 8 0 j
  else brentKung op (Nat.log2 l.length) l

/-- `vscan` (R226). -/
def execVscan (hd : VHead) (tot : Bool) (op : ScanOp) (d e a b : Opnd) (s : State) : Host.Outcome State Fault Refusal :=
  let t := hd.ty
  match op with
  | .affine =>
    headOp (.vscan hd tot op d e a b) hd [d, e, a, b] (fun r => do
      let vs ← readSrcs t r [(.lanes, a), (.lanes, b)]
      let l := (lanesOf t (src vs 0)).zip (lanesOf t (src vs 1))
      let q := scanLanes tot (fun k => opAffine t r.sat (r.rm k)) (affIdentity t) l
      writeDst t r .lanes d (vecOf t (q.map (·.1)))
      writeDst t r .lanes e (vecOf t (q.map (·.2)))) s
  | .add =>
    laneInstr (.vscan hd tot op d e a b) hd .lanes d [(.lanes, a)] (fun r vs =>
      vecOf t (scanLanes tot (fun k => opSum t r.sat (r.rm k)) (addIdentity t) (lanesOf t (src vs 0)))) s
  | .max =>
    laneInstr (.vscan hd tot op d e a b) hd .lanes d [(.lanes, a)] (fun r vs =>
      vecOf t (scanLanes tot (fun k => opMax t r.sat (r.rm k)) (maxIdentity t) (lanesOf t (src vs 0)))) s

/-- `vscanc` (R227). -/
def execVscanc (hd : VHead) (op : ScanOp) (d e a b c : Opnd) (s : State) : Host.Outcome State Fault Refusal :=
  let t := hd.ty
  let carried (g : Ty → Bool → Rm → Nat → Nat → Nat) : Host.Outcome State Fault Refusal :=
    laneInstr (.vscanc hd op d e a b c) hd .lanes d [(.lanes, a), (.lanes, c)] (fun r vs =>
      let k := scalarOrLane0 t (src vs 1)
      vecOf t ((lanesOf t (src vs 0)).mapIdx fun i x => g t r.sat (r.rm i) k x)) s
  match op with
  | .affine =>
    headOp (.vscanc hd op d e a b c) hd [d, e, a, b, c] (fun r => do
      let vs ← readSrcs t r [(.lanes, a), (.lanes, b), (.lanes, c)]
      let cs := lanesOf t (src vs 2)
      let l := (lanesOf t (src vs 0)).zip (lanesOf t (src vs 1))
      let q := l.mapIdx fun i p => opAffine t r.sat (r.rm i) (cs.getD 0 0, cs.getD 1 0) p
      writeDst t r .lanes d (vecOf t (q.map (·.1)))
      writeDst t r .lanes e (vecOf t (q.map (·.2)))) s
  | .add => carried opSum
  | .max => carried opMax

/-! ### Moving lanes (R229, R230) -/

/-- A form that picks source lanes: lane i of the result from the lanes of the sources. -/
def pickInstr (i : Instr) (hd : VHead) (d : Opnd) (srcs : List (As × Opnd)) (f : List (List Nat) → Nat → Nat)
    (s : State) : Host.Outcome State Fault Refusal :=
  laneInstr i hd .lanes d srcs (fun _ vs =>
    let ls := vs.map (lanesOf hd.ty)
    vecOf hd.ty ((List.range hd.ty.lanes).map (f ls))) s

def lane (ls : List (List Nat)) (k i : Nat) : Nat := (ls.getD k []).getD i 0

/-- `vperm` (R229). -/
def execVperm (hd : VHead) (d a b : Opnd) (s : State) : Host.Outcome State Fault Refusal :=
  pickInstr (.vperm hd d a b) hd d [(.lanes, a), (.lanes, b)] (fun ls i => lane ls 0 (lane ls 1 i % hd.ty.lanes)) s

/-- `vrot` (R229). -/
def execVrot (hd : VHead) (d a b : Opnd) (s : State) : Host.Outcome State Fault Refusal :=
  pickInstr (.vrot hd d a b) hd d [(.lanes, a), (.lanes, b)] (fun ls i => lane ls 0 ((i + lane ls 1 0) % hd.ty.lanes)) s

/-- `vshuf` (R229). -/
def execVshuf (hd : VHead) (d a b c : Opnd) (s : State) : Host.Outcome State Fault Refusal :=
  pickInstr (.vshuf hd d a b c) hd d [(.lanes, a), (.lanes, b), (.lanes, c)] (fun ls i =>
    let x := lane ls 2 i % (2 * hd.ty.lanes)
    if x < hd.ty.lanes then lane ls 0 x else lane ls 1 (x - hd.ty.lanes)) s

/-- `vdup` (R229). -/
def execVdup (hd : VHead) (d a b : Opnd) (s : State) : Host.Outcome State Fault Refusal :=
  pickInstr (.vdup hd d a b) hd d [(.lanes, a), (.lanes, b)] (fun ls _ => lane ls 0 (lane ls 1 0 % hd.ty.lanes)) s

/-- `vcmpr` (R229). -/
def execVcmpr (hd : VHead) (d a b : Opnd) (s : State) : Host.Outcome State Fault Refusal :=
  laneInstr (.vcmpr hd d a b) hd .lanes d [(.lanes, a), (.mask, b)] (fun _ vs =>
    vecOf hd.ty (((lanesOf hd.ty (src vs 0)).zip (maskBits hd.ty.lanes (src vs 1))).filterMap fun p =>
      if p.2 then some p.1 else none)) s

/-- `vexpd` (R229). -/
def execVexpd (hd : VHead) (d a b : Opnd) (s : State) : Host.Outcome State Fault Refusal :=
  laneInstr (.vexpd hd d a b) hd .lanes d [(.lanes, a), (.mask, b)] (fun _ vs =>
    let m := maskBits hd.ty.lanes (src vs 1)
    let l := lanesOf hd.ty (src vs 0)
    vecOf hd.ty (m.mapIdx fun i x => if x then l.getD ((m.take i).count true) 0 else 0)) s

/-- `vsplat` (R229). -/
def execVsplat (hd : VHead) (d a : Opnd) (s : State) : Host.Outcome State Fault Refusal :=
  pickInstr (.vsplat hd d a) hd d [(.lanes, a)] (fun ls i => lane ls 0 i) s

/-- `viota` (R229). -/
def execViota (hd : VHead) (d a : Opnd) (s : State) : Host.Outcome State Fault Refusal :=
  pickInstr (.viota hd d a) hd d [(.lanes, a)] (fun ls i => (lane ls 0 0 + i) % 2 ^ hd.ty.bits) s

/-- `vhash` (R230). -/
def execVhash (hd : VHead) (bits : BitVec 7) (d a b : Opnd) (s : State) : Host.Outcome State Fault Refusal :=
  codeWise (.vhash hd bits d a b) hd (fun _ _ l => laneHash hd.ty bits.toNat (c0 l) (c1 l)) d [a, b] s

/-- `vnft` (R231): a mask of the lanes that are not finite, and a flag when there is one. -/
def execVnft (hd : VHead) (d a b : Opnd) (s : State) : Host.Outcome State Fault Refusal :=
  headOp (.vnft hd d a b) hd [d, a] (fun r => do
    let s ← get
    let n := match b with
      | .s k => (s.rd (k.setWidth 6)).toNat
      | _ => 0
    trapIf (decide (4095 < n)) 0x06#8
    let v ← readSrc hd.ty r .lanes a
    let m := (lanesOf hd.ty v).map fun c => let x := laneVal hd.ty c; x.isNan || x.isInf
    writeDst hd.ty r .mask d (maskVec m)
    if m.any id then modify fun s => s.setFlagOf s.here.1 n true else pure ()) s

/-! ### Bit fields (R219) -/

/-- The pattern line that s[C] names, captured at issue. -/
def readPattern (o : Opnd) : Act Pattern := do
  let p ← spotOf o false fun _ => fetchMis false
  let v ← rawFetch p
  match patternOf v with
  | some q => pure q
  | none => trap 0x09#8

/-- The format word `EXT1`; with `.nf` it must be zero (R219). -/
def extFormat (t : Ty) (w : BitVec 32) : Act Fmt := do
  trapIf (!fmtWordOk w.toNat || (t.isN && w != 0#32)) 0x09#8
  pure (fmtOfWord w.toNat)

/-- Extraction of n lanes from a packed string of `len` bits (R68, R219). -/
def extractLanes (t : Ty) (r : Round_) (f : Fmt) (q : Pattern) (base str : Nat) : Vec :=
  vecOf t ((List.range t.lanes).map fun j =>
    let c := q.get base str j
    if t.isN then c else convert f (fmtTy t) (r.rm j) r.sat c)

/-- `vbfx` (R219). -/
def execVbfx (hd : VHead) (base : BitVec 10) (fmt : BitVec 32) (d a c : Opnd) (s : State) : Host.Outcome State Fault Refusal :=
  headOp (.vbfx hd base fmt d a c) hd [d, a] (fun r => do
    let f ← extFormat hd.ty fmt
    let q ← readPattern c
    trapIf (!q.fits base.toNat hd.ty.lanes 1024) 0x09#8
    let v ← readSrc hd.ty r .mask a
    writeDst hd.ty r .lanes d (extractLanes hd.ty r f q base.toNat v.toNat)) s

end Sys2Proof.Machine
end

