-- ==== Sys2Proof/Machine/VectorM.lean ====
section
/-! DEFINITION. The instructions of the L and W engines: loads and stores in scratchpads, the device-memory
forms, the bit-field forms (R212, R214 to R219). -/

namespace Sys2Proof.Machine

/-! ### Scratchpad loads and stores (R214 to R216) -/

/-- `vld` (R214). -/
def execVld (hd : VHead) (d a : Opnd) (s : State) : Host.Outcome State Fault Refusal :=
  headOp (.vld hd d a) hd [d, a] (fun r => do
    let p ← spotOf a hd.mod.col (asMis hd.ty .lanes)
    let v ← readRun hd.ty r p
    stepPointer a
    writeDst hd.ty r .lanes d v) s

/-- An offset that is not a multiple of the slot of its bank. -/
def slotMis (_ : Bool) (s : State) (c off : Nat) : Bool := off % max 1 (slotBits (fmtWordOf s c (off / 65536)) / 8) != 0

/-- The same for an access that admits no column: a column operand is misaligned before anything else of it is looked at
(R91, R215). -/
def rowMis (col : Bool) (s : State) (c off : Nat) : Bool := col || slotMis col s c off

/-- `vldbc` (R214). DESIGN CHOICE (log 69): under stochastic rounding the element is encoded for each lane with that lane's
key, so lanes can differ. DESIGN CHOICE (log 94): a column operand needs only its slot's alignment, so in a bank of 8-bit or
4-bit slots one at an odd offset reads the byte there. -/
def execVldbc (hd : VHead) (d a : Opnd) (s : State) : Host.Outcome State Fault Refusal :=
  headOp (.vldbc hd d a) hd [d, a] (fun r => do
    let p ← spotOf a hd.mod.col slotMis
    let s ← get
    if slotMis p.col s p.cl p.off then trapAt 0x28#8 p.addr
    else
      let w := fmtWordOf s p.cl (p.off / 65536)
      if p.col then awaitCol p.cl p.off (runCols 1 (slotBits w)) else awaitOwed p.cl [p.off / 128]
      let s ← get
      let code := slotRead (s.cl p.cl) (slotBits w) (8 * p.off)
      stepPointer a
      writeDst hd.ty r .lanes d
        (vecOf hd.ty ((List.range hd.ty.lanes).map fun i => convert (fmtOfWord w) (fmtTy hd.ty) (r.rm i) r.sat code))) s

/-- `vst` (R214). -/
def execVst (hd : VHead) (d a : Opnd) (s : State) : Host.Outcome State Fault Refusal :=
  headOp (.vst hd d a) hd [d, a] (fun r => do
    let v ← readSrc hd.ty r .lanes a
    let p ← spotOf d hd.mod.col (asMis hd.ty .lanes)
    writeRun hd.ty r p v
    stepPointer d) s

/-- The address of the element that index `i` names from a base, with slots of `z` bits (R215). -/
def elemAddr (p : Spot) (z i : Nat) : Word := p.addr + BitVec.ofNat 64 (z * i / 8)

/-- The cluster and bit position of each element that indices name from a base (R215): every element's address is formed
and checked as a coordinate address of its own, and its bank must have the base's slot width, and for `.nf` narrow codes.
The first failing lane's cause is raised, with its address. DESIGN CHOICE (log 94): a pointer's base plus an index that passes
2^22 is a relative coordinate address like any other. -/
def indexedElems (nf : Bool) (p : Spot) (z : Nat) (idx : List Nat) : Act (List (Nat × Nat)) := do
  let s ← get
  idx.mapM fun i => do
    let a := elemAddr p z i
    let q ← liftC a.toNat (coord s s.selfCtx s.selfCl a.toNat false)
    let w := fmtWordOf s q.1 (q.2 / 65536)
    if !inBanks (s.cl q.1) q.2 then trapAt 0x27#8 a
    else if slotBits w != z || (nf && bits w 3 0 != 11) then trap 0x09#8
    else pure (q.1, 8 * q.2 + z * i % 8)

/-- The elements of an indexed access with their slot width (R215). -/
def indexed (hd : VHead) (p : Spot) (idx : Vec) : Act (Nat × List (Nat × Nat)) := do
  let s ← get
  let z := slotBits (fmtWordOf s p.cl (p.off / 65536))
  let es ← indexedElems hd.ty.isN p z (lanesOf hd.ty idx)
  pure (z, es)

/-- The format of the bank that a bit position lies in. -/
def fmtAtBit (s : State) (c b : Nat) : Fmt := fmtOfWord (fmtWordOf s c (b / 8 / 65536))

/-- `vldx` (R215). DESIGN CHOICE (log 94): `.nf` in a bank of 4-bit slots reads a nibble zero-extended. -/
def execVldx (hd : VHead) (d a b : Opnd) (s : State) : Host.Outcome State Fault Refusal :=
  headOp (.vldx hd d a b) hd [d, a] (fun r => do
    let idx ← readSrc hd.ty r .mask b
    let p ← spotOf a hd.mod.col rowMis
    let q ← indexed hd p idx
    q.2.forM fun e => awaitOwed e.1 [e.2 / 1024]
    let s ← get
    let cs := q.2.mapIdx fun i e =>
      let c := slotRead (s.cl e.1) q.1 e.2
      if hd.ty.isN then c else convert (fmtAtBit s e.1 e.2) (fmtTy hd.ty) (r.rm i) r.sat c
    stepPointer a
    writeDst hd.ty r .lanes d (vecOf hd.ty cs)) s

/-- `vstx` (R215): lanes that name one element write it in ascending order. DESIGN CHOICE (log 94): `.nf` in a bank of 4-bit
slots writes the low four bits. -/
def execVstx (hd : VHead) (d a b : Opnd) (s : State) : Host.Outcome State Fault Refusal :=
  headOp (.vstx hd d a b) hd [d, a] (fun r => do
    let v ← readSrc hd.ty r .lanes a
    let idx ← readSrc hd.ty r .mask b
    let p ← spotOf d hd.mod.col rowMis
    let q ← indexed hd p idx
    (q.2.zip (lanesOf hd.ty idx)).forM fun e => rejectOwed e.1.1 [e.1.2 / 1024] (elemAddr p q.1 e.2).toNat
    modify fun s =>
      let cs := (lanesOf hd.ty v).mapIdx fun i c =>
        let e := q.2.getD i (0, 0)
        if hd.ty.isN then c else convert (fmtTy hd.ty) (fmtAtBit s e.1 e.2) (r.rm i) r.sat c
      (q.2.zip cs).foldl (fun s e => slotWrite s e.1.1 q.1 e.1.2 e.2) s
    stepPointer d) s

/-- The slots of a run with their width, raw cells for `.nf` (R205 to R207). -/
def runSlots (t : Ty) (p : Spot) : Act (Nat × List Nat) := do
  let s ← get
  if t.isN then
    needNarrow p
    let ps ← liftC p.addr.toNat (fetchBits p.off p.col)
    pure (8, ps.flatMap fun b => [b, b + 8])
  else
    let z := slotBits (fmtWordOf s p.cl (p.off / 65536))
    let ps ← liftC p.addr.toNat (runBits t.lanes z p.off p.col)
    pure (z, ps)

/-- `vstm` (R216). -/
def execVstm (hd : VHead) (d a b : Opnd) (s : State) : Host.Outcome State Fault Refusal :=
  headOp (.vstm hd d a b) hd [d, a] (fun r => do
    let v ← readSrc hd.ty r .lanes a
    let m ← readSrc hd.ty r .mask b
    let p ← spotOf d hd.mod.col (asMis hd.ty .lanes)
    let q ← runSlots hd.ty p
    claimRun p.cl q.2 q.1 p.off p.col p.addr.toNat
    modify fun s =>
      let f := fmtOfWord (fmtWordOf s p.cl (p.off / 65536))
      let cs := (lanesOf hd.ty v).mapIdx fun i c => if hd.ty.isN then c else convert (fmtTy hd.ty) f (r.rm i) r.sat c
      ((q.2.zip cs).zipIdx).foldl (fun s e => if m.getLsbD e.2 then slotWrite s p.cl q.1 e.1.1 e.1.2 else s) s
    stepPointer d) s

/-- The bytes that `k` elements take at a place, and whether those leave its block or its line and the next (R216). -/
def denseBytes (s : State) (c off k : Nat) : Nat := (k * slotBits (fmtWordOf s c (off / 65536)) + 7) / 8

def denseMis (k : Nat) (col : Bool) (s : State) (c off : Nat) : Bool :=
  let len := denseBytes s c off k
  let last := off + len - 1
  rowMis col s c off || (len != 0 && (off / 8192 != last / 8192 || 1 < last / 128 - off / 128))

/-- `vstc` (R216): the selected lanes stored densely; a pointer moves by the bytes they take. DESIGN CHOICE (log 94): `.nf` in a
bank of 4-bit slots writes the low four bits. -/
def execVstc (hd : VHead) (d a b : Opnd) (s : State) : Host.Outcome State Fault Refusal :=
  headOp (.vstc hd d a b) hd [d, a] (fun r => do
    let v ← readSrc hd.ty r .lanes a
    let m ← readSrc hd.ty r .mask b
    let on := (List.range hd.ty.lanes).filter fun i => m.getLsbD i
    let p ← spotOf d hd.mod.col (denseMis on.length)
    let s ← get
    let w := fmtWordOf s p.cl (p.off / 65536)
    trapIf (hd.ty.isN && bits w 3 0 != 11) 0x09#8
    let z := slotBits w
    let len := denseBytes s p.cl p.off on.length
    let cs := on.map fun i =>
      let c := (lanesOf hd.ty v).getD i 0
      if hd.ty.isN then c else convert (fmtTy hd.ty) (fmtOfWord w) (r.rm i) r.sat c
    rejectOwed p.cl (linesOf p.off len) p.addr.toNat
    modify fun s => ((List.range cs.length).zip cs).foldl (fun s e => slotWrite s p.cl z (8 * p.off + z * e.1) e.2) s
    match d with
    | .p k => movePointer k.toNat len
    | _ => pure ()) s

/-! ### Device-memory forms (R217, R218) -/

/-- A scalar base as a virtual address. -/
def baseVa (o : Opnd) : Act Word := do
  let s ← get
  match o with
  | .s k => pure (s.rd (k.setWidth 6))
  | _ => trap 0x05#8

/-- The target of a line access at a virtual address: device memory or an L2-pinned line, otherwise 0x2C (R217). -/
def lineTarget (a : Word) (write : Bool) : Act Xlat := do
  let s ← get
  if bits a.toNat 63 48 != 0 then trapAt 0x23#8 a
  else if a.toNat % 128 != 0 then trapAt 0x28#8 a
  else
    let x ← translateA s.who a.toNat write false
    match x.tgt with
    | .dev _ | .pinned _ _ => pure x
    | _ => trapAt 0x2C#8 a

/-- A raw line read through L1. -/
def lineLoad (a : Word) : Act Vec := do
  let x ← lineTarget a false
  let s ← get
  let bs ← liftA a.toNat (targetRead s.who a.toNat 128 x)
  pure (bytesVec bs)

/-- A raw line performed at its slice; it counts until it is acknowledged (R143). -/
def lineStore (a : Word) (v : Vec) : Act Unit := do
  let x ← lineTarget a true
  let s ← get
  liftU a.toNat (targetWrite s.who a.toNat (vecBytes v) false x)
  modify fun s =>
    addWack (match x.tgt with
      | .dev dpa => s.modCl s.here.1 fun y => l1Update y dpa (vecBytes v)
      | _ => s) s.here.1 1

/-- `vldg` (R217). -/
def execVldg (hd : VHead) (d a : Opnd) (s : State) : Host.Outcome State Fault Refusal :=
  headOp (.vldg hd d a) hd [] (fun r => do
    let v ← lineLoad (← baseVa a)
    writeDst hd.ty r .lanes d v) s

/-- `vstg` (R217). -/
def execVstg (hd : VHead) (d a : Opnd) (s : State) : Host.Outcome State Fault Refusal :=
  headOp (.vstg hd d a) hd [] (fun r => do
    let v ← readSrc hd.ty r .lanes a
    lineStore (← baseVa d) v) s

/-- A request of `vpref` (R218): a page that no TLB holds asks for a walk, or joins one, once fewer than 4,096 are
outstanding (R89); a cacheable line that needs no check enters L1; whatever cannot be completed is dropped. -/
def prefetch (a : Word) (s : State) : State :=
  let w := s.who
  let c := s.selfCl
  let va := a.toNat / 128 * 128
  if bits va 63 48 != 0 then s
  else
    match tlbFind (s.cl c).tlb w.ctx va with
    | none =>
      match tlbFind (s.die s.selfDie).tlb w.ctx va with
      | some e => s.modCl c fun x => { x with tlb := tlbAdd 64 x.tlb e s.tick }
      | none =>
        let page := va / 65536
        let d := s.selfDie
        let same (k : TWalk) : Bool := k.ctx == w.ctx && k.page == page
        if (s.die d).walks.any same then
          s.modDie d fun x =>
            { x with walks := x.walks.map fun k => if same k then { k with cls := (k.cls.filter fun y => y != c) ++ [c] } else k }
        else
          (if (s.die d).walks.length < 4096 then s else endWalk d 0 s).modDie d fun x =>
            { x with walks := x.walks ++ [⟨w.ctx, page, [c]⟩] }
    | some _ =>
      match translate w va false false s with
      | .error _ => s
      | .ok (s1, x) =>
        match x.tgt with
        | .dev dpa =>
          if x.cache && !x.chk then
            match cachedRead c w va dpa 128 x s1 with
            | .ok (s2, _) => s2
            | .error _ => s
          else s
        | _ => s

/-- `vpref` (R218). -/
def execVpref (hd : VHead) (a : Opnd) (s : State) : Host.Outcome State Fault Refusal :=
  headOp (.vpref hd a) hd [] (fun _ => do
    let v ← baseVa a
    modify (prefetch v)) s

/-- The causes that `vldfl` suppresses (R218). -/
def suppressed (c : BitVec 8) : Bool :=
  c == 0x20#8 || c == 0x21#8 || c == 0x22#8 || c == 0x29#8 || c == 0x2A#8 || c == 0x2B#8 || c == 0x2C#8

/-- An action, or none where it raises a cause that `vldfl` suppresses. -/
def orNone {α : Type} (a : Act α) : Act (Option α) := fun s =>
  match a s with
  | .ok (v, s1) => .ok (some v, s1)
  | .error (.trap c w) => if suppressed c then .ok (none, s) else .error (.trap c w)
  | .error e => .error e

/-- `vldfl` (R218). -/
def execVldfl (hd : VHead) (d a b : Opnd) (s : State) : Host.Outcome State Fault Refusal :=
  headOp (.vldfl hd d a b) hd [] (fun r => do
    let va ← baseVa a
    match ← orNone (lineLoad va) with
    | some v =>
      writeDst hd.ty r .lanes d v
      writeDst hd.ty r .mask b (maskVec (List.replicate hd.ty.lanes true))
    | none =>
      writeDst hd.ty r .lanes d 0#1024
      writeDst hd.ty r .mask b 0#1024) s

/-! ### Bit-field forms (R219) -/

/-- The two lines of a block that a row address names. -/
def twoRowLines (o : Opnd) (col : Bool) : Act Spot := do
  let bad (c : Bool) (_ : State) (_ off : Nat) : Bool := c || off % 128 != 0 || 8192 < off % 8192 + 256
  let p ← spotOf o col bad
  let s ← get
  if bad p.col s p.cl p.off then trapAt 0x28#8 p.addr else pure p

/-- `vldb` (R219). DESIGN CHOICE (log 94): 0x09 comes before the causes of the address. -/
def execVldb (hd : VHead) (base : BitVec 10) (fmt : BitVec 32) (d a c : Opnd) (s : State) :
    Host.Outcome State Fault Refusal :=
  headOp (.vldb hd base fmt d a c) hd [d, a] (fun r => do
    let f ← extFormat hd.ty fmt
    let q ← readPattern c
    trapIf (!q.fits base.toNat hd.ty.lanes 2048) 0x09#8
    let p ← twoRowLines a hd.mod.col
    awaitOwed p.cl [p.off / 128, p.off / 128 + 1]
    let s ← get
    stepPointer a
    writeDst hd.ty r .lanes d (extractLanes hd.ty r f q base.toNat (leNat (sramRead (s.cl p.cl) p.off 256)))) s

/-- Insertion of n lanes into a packed string (R68, R219). -/
def insertLanes (t : Ty) (r : Round_) (f : Fmt) (q : Pattern) (base : Nat) (v : Vec) (str : Nat) : Nat :=
  ((lanesOf t v).zipIdx).foldl (fun acc e =>
    q.put base acc e.2 (if t.isN then e.1 else convert (fmtTy t) f (r.rm e.2) r.sat e.1)) str

/-- `vstb` (R219). DESIGN CHOICE (log 94): 0x09 comes before the causes of the address. -/
def execVstb (hd : VHead) (base : BitVec 10) (fmt : BitVec 32) (d a c : Opnd) (s : State) :
    Host.Outcome State Fault Refusal :=
  headOp (.vstb hd base fmt d a c) hd [d, a] (fun r => do
    let f ← extFormat hd.ty fmt
    let q ← readPattern c
    trapIf (!q.fits base.toNat hd.ty.lanes 2048) 0x09#8
    let v ← readSrc hd.ty r .lanes a
    let p ← twoRowLines d hd.mod.col
    rejectOwed p.cl [p.off / 128, p.off / 128 + 1] p.addr.toNat
    modify fun s =>
      sramWrite s p.cl p.off (natLe 256 (insertLanes hd.ty r f q base.toNat v (leNat (sramRead (s.cl p.cl) p.off 256))))
    stepPointer d) s

/-- `vlds` (R219). DESIGN CHOICE (log 94): 0x09 comes before the causes of the address. -/
def execVlds (hd : VHead) (base : BitVec 10) (fmt : BitVec 32) (d a c : Opnd) (s : State) :
    Host.Outcome State Fault Refusal :=
  headOp (.vlds hd base fmt d a c) hd [] (fun r => do
    let f ← extFormat hd.ty fmt
    let q ← readPattern c
    trapIf (!q.fits base.toNat hd.ty.lanes 2048) 0x09#8
    let va ← baseVa a
    let lo ← lineLoad va
    let hi ← lineLoad (va + 128#64)
    writeDst hd.ty r .lanes d (extractLanes hd.ty r f q base.toNat (hi ++ lo).toNat)) s

/-- The bytes of a line as they stand at its port. -/
def portBytes (s : State) (x : Xlat) : List Byte :=
  match x.tgt with
  | .dev dpa => s.hbmRead dpa 128
  | .pinned d o => Mem.read (s.die d).pinned o 128
  | _ => []

/-- Whether an uncorrectable sector of a line would be merged: one that the mask covers only in part (R407). -/
def lineMerges (s : State) (x : Xlat) (mask : Nat) : Option (BitVec 8) :=
  match x.tgt with
  | .window _ _ | .sram _ _ | .host _ => none
  | .dev _ | .pinned _ _ =>
    (List.range 4).findSome? fun j =>
      let m := bits mask (256 * j + 255) (256 * j)
      if m == 0 || m == 2 ^ 256 - 1 then none
      else
        match x.tgt with
        | .dev dpa => sectorCause s (dpa + 32 * j) 32
        | .pinned d o => pinCause s d (o + 32 * j) 32
        | _ => none

/-- The sectors of a line that a mask of bits touches written with their bytes of `bs`, merged at the slice (R219). -/
def lineMerge (a : Word) (x : Xlat) (mask : Nat) (bs : List Byte) : Act Unit := do
  let s ← get
  match lineMerges s x mask with
  | some c => liftU a.toNat fun _ => .error c
  | none =>
    let parts := (List.range 4).filter fun j => bits mask (256 * j + 255) (256 * j) != 0
    let at_ (t : Target) (j : Nat) : Target := match t with
      | .dev p => .dev (p + 32 * j)
      | .pinned d o => .pinned d (o + 32 * j)
      | t => t
    parts.forM fun j => do
      let part := (bs.drop (32 * j)).take 32
      liftU a.toNat (targetWrite s.who (a.toNat + 32 * j) part false { x with tgt := at_ x.tgt j })
      modify fun s => match at_ x.tgt j with
        | .dev p => s.modCl s.here.1 fun y => l1Update y p part
        | _ => s
    if parts.isEmpty then pure () else modify fun s => addWack s s.here.1 1

/-- `vsts` (R219): the fields are merged at the slices of their lines; what they do not touch is not written.
DESIGN CHOICE (log 94): 0x09 comes before the causes of the addresses. -/
def execVsts (hd : VHead) (base : BitVec 10) (fmt : BitVec 32) (d a c : Opnd) (s : State) :
    Host.Outcome State Fault Refusal :=
  headOp (.vsts hd base fmt d a c) hd [] (fun r => do
    let f ← extFormat hd.ty fmt
    let q ← readPattern c
    trapIf (!q.fits base.toNat hd.ty.lanes 2048) 0x09#8
    let v ← readSrc hd.ty r .lanes a
    let va ← baseVa d
    let xl ← lineTarget va true
    let xh ← lineTarget (va + 128#64) true
    let s ← get
    let put := insertLanes hd.ty r f q base.toNat v
    let str := put (leNat (portBytes s xl ++ portBytes s xh))
    let mask := 2 ^ 2048 - 1 - (put 0 ^^^ put (2 ^ 2048 - 1))
    lineMerge va xl (mask % 2 ^ 1024) (natLe 128 str)
    lineMerge (va + 128#64) xh (mask / 2 ^ 1024) (natLe 128 (str / 2 ^ 1024))) s

/-! ### The decision of `vbr` (R164, R232, R233) -/

def condHolds (c : BrCond) (m : List Bool) : Bool :=
  match c with
  | .any => m.any id
  | .none => !m.any id
  | .all => m.all id
  | .notall => !m.all id

/-- `vbr`: the S PC checks the target and waits for the steering token; the A engine decides, once every branch outcome
posted before has been taken, and sends the token to the other four PCs, which take it at the `vbr`; every PC continues
where it says. -/
def execVbr (t : Ty) (c : BrCond) (tok : Tok) (a : Opnd) (i : BitVec 32) (s : State) :
    Host.Outcome State Fault Refusal :=
  let ins := Instr.vbr t c tok a i
  perform (do
    let s ← get
    let h := s.here
    match ((s.cl h.1).walk h.2).token with
    | some nx =>
      if h.2 == .S then modify fun s => s.modCl h.1 fun x => { x with vbrAt := none } else pure ()
      goTo ins nx
    | none =>
      let tgt : Int := (s.selfPc : Int) + i.toInt
      if h.2 == .S then
        let _ ← inText tgt
        trapIf (leavesBody s tgt) 0x11#8
        straddleX ins
        set ((s.modCl h.1 fun x =>
          if x.vbrAt == some x.wS.dp then x else { x.clearWaits with vbrAt := some x.wS.dp }).noteWait .steering)
      else if h.2 == .A then
        waitIf (!(s.cl h.1).outcomes.isEmpty) .outcome
        popTokens .A tok.pop
        let r := roundOf s 0#3 false
        let v ← readSrc t r .mask a
        let nx := if condHolds c (maskBits t.lanes v) then tgt.toNat else s.selfPc + 12
        modify fun s => s.modCl h.1 fun x =>
          [Eng.S, .L, .W, .M].foldl (fun x e => x.setWalk e { x.walk e with steer := (x.walk e).steer ++ [(x.wA.dp, nx)] }) x
        pushTokens tok.push
        goTo ins nx
      else waitFor .steering) s

end Sys2Proof.Machine
end

