-- ==== Sys2Proof/Machine/Dispatch.lean ====
section
/-! DEFINITION. One arm for each constructor of `Instr`: its meaning, or its rejection by name. -/

namespace Sys2Proof.Machine

def exec (i : Instr) (s : State) : Host.Outcome State Fault Refusal :=
  match i with
  | .nop => Sys2Proof.Machine.execNop s
  | .add d a b => Sys2Proof.Machine.execAdd d a b s
  | .addLong p d a b => Sys2Proof.Machine.execAddLong p d a b s
  | .sub d a b => Sys2Proof.Machine.execSub d a b s
  | .subLong p d a b => Sys2Proof.Machine.execSubLong p d a b s
  | .mul d a b => Sys2Proof.Machine.execMul d a b s
  | .mulLong p d a b => Sys2Proof.Machine.execMulLong p d a b s
  | .mulh d a b => Sys2Proof.Machine.execMulh d a b s
  | .mulhLong p d a b => Sys2Proof.Machine.execMulhLong p d a b s
  | .mulhn d a b => Sys2Proof.Machine.execMulhn d a b s
  | .mulhnLong p d a b => Sys2Proof.Machine.execMulhnLong p d a b s
  | .div d a b => Sys2Proof.Machine.execDiv d a b s
  | .divLong p d a b => Sys2Proof.Machine.execDivLong p d a b s
  | .divn d a b => Sys2Proof.Machine.execDivn d a b s
  | .divnLong p d a b => Sys2Proof.Machine.execDivnLong p d a b s
  | .rem d a b => Sys2Proof.Machine.execRem d a b s
  | .remLong p d a b => Sys2Proof.Machine.execRemLong p d a b s
  | .remn d a b => Sys2Proof.Machine.execRemn d a b s
  | .remnLong p d a b => Sys2Proof.Machine.execRemnLong p d a b s
  | .and d a b => Sys2Proof.Machine.execAnd d a b s
  | .andLong p d a b => Sys2Proof.Machine.execAndLong p d a b s
  | .or d a b => Sys2Proof.Machine.execOr d a b s
  | .orLong p d a b => Sys2Proof.Machine.execOrLong p d a b s
  | .xor d a b => Sys2Proof.Machine.execXor d a b s
  | .xorLong p d a b => Sys2Proof.Machine.execXorLong p d a b s
  | .shl d a b => Sys2Proof.Machine.execShl d a b s
  | .shlLong p d a b => Sys2Proof.Machine.execShlLong p d a b s
  | .shr d a b => Sys2Proof.Machine.execShr d a b s
  | .shrLong p d a b => Sys2Proof.Machine.execShrLong p d a b s
  | .sra d a b => Sys2Proof.Machine.execSra d a b s
  | .sraLong p d a b => Sys2Proof.Machine.execSraLong p d a b s
  | .min d a b => Sys2Proof.Machine.execMin d a b s
  | .minLong p d a b => Sys2Proof.Machine.execMinLong p d a b s
  | .max d a b => Sys2Proof.Machine.execMax d a b s
  | .maxLong p d a b => Sys2Proof.Machine.execMaxLong p d a b s
  | .minn d a b => Sys2Proof.Machine.execMinn d a b s
  | .minnLong p d a b => Sys2Proof.Machine.execMinnLong p d a b s
  | .maxn d a b => Sys2Proof.Machine.execMaxn d a b s
  | .maxnLong p d a b => Sys2Proof.Machine.execMaxnLong p d a b s
  | .clz d a => Sys2Proof.Machine.execClz d a s
  | .clzLong p d a => Sys2Proof.Machine.execClzLong p d a s
  | .popc d a => Sys2Proof.Machine.execPopc d a s
  | .popcLong p d a => Sys2Proof.Machine.execPopcLong p d a s
  | .sext f d a => Sys2Proof.Machine.execSext f d a s
  | .sextLong p f d a => Sys2Proof.Machine.execSextLong p f d a s
  | .andn d a b => Sys2Proof.Machine.execAndn d a b s
  | .andnLong p d a b => Sys2Proof.Machine.execAndnLong p d a b s
  | .addi d a im => Sys2Proof.Machine.execAddi d a im s
  | .addiLong p d a im => Sys2Proof.Machine.execAddiLong p d a im s
  | .andi d a im => Sys2Proof.Machine.execAndi d a im s
  | .andiLong p d a im => Sys2Proof.Machine.execAndiLong p d a im s
  | .ori d a im => Sys2Proof.Machine.execOri d a im s
  | .oriLong p d a im => Sys2Proof.Machine.execOriLong p d a im s
  | .xori d a im => Sys2Proof.Machine.execXori d a im s
  | .xoriLong p d a im => Sys2Proof.Machine.execXoriLong p d a im s
  | .shli d a im => Sys2Proof.Machine.execShli d a im s
  | .shliLong p d a im => Sys2Proof.Machine.execShliLong p d a im s
  | .shri d a im => Sys2Proof.Machine.execShri d a im s
  | .shriLong p d a im => Sys2Proof.Machine.execShriLong p d a im s
  | .srai d a im => Sys2Proof.Machine.execSrai d a im s
  | .sraiLong p d a im => Sys2Proof.Machine.execSraiLong p d a im s
  | .li d im => Sys2Proof.Machine.execLi d im s
  | .liLong p d im => Sys2Proof.Machine.execLiLong p d im s
  | .liHi p d im => Sys2Proof.Machine.execLiHi p d im s
  | .cmpeq k a b => Sys2Proof.Machine.execCmpeq k a b s
  | .cmpeqLong p k a b => Sys2Proof.Machine.execCmpeqLong p k a b s
  | .cmpne k a b => Sys2Proof.Machine.execCmpne k a b s
  | .cmpneLong p k a b => Sys2Proof.Machine.execCmpneLong p k a b s
  | .cmplt k a b => Sys2Proof.Machine.execCmplt k a b s
  | .cmpltLong p k a b => Sys2Proof.Machine.execCmpltLong p k a b s
  | .cmple k a b => Sys2Proof.Machine.execCmple k a b s
  | .cmpleLong p k a b => Sys2Proof.Machine.execCmpleLong p k a b s
  | .cmpltn k a b => Sys2Proof.Machine.execCmpltn k a b s
  | .cmpltnLong p k a b => Sys2Proof.Machine.execCmpltnLong p k a b s
  | .cmplen k a b => Sys2Proof.Machine.execCmplen k a b s
  | .cmplenLong p k a b => Sys2Proof.Machine.execCmplenLong p k a b s
  | .pand d a b => Sys2Proof.Machine.execPand d a b s
  | .por d a b => Sys2Proof.Machine.execPor d a b s
  | .pxor d a b => Sys2Proof.Machine.execPxor d a b s
  | .pnot d a => Sys2Proof.Machine.execPnot d a s
  | .kget d => Sys2Proof.Machine.execKget d s
  | .kset a => Sys2Proof.Machine.execKset a s
  | .ld t d a im => Sys2Proof.Machine.execLd t d a im s
  | .ldLong p t d a o => Sys2Proof.Machine.execLdLong p t d a o s
  | .st t d a im => Sys2Proof.Machine.execSt t d a im s
  | .stLong p t d a o => Sys2Proof.Machine.execStLong p t d a o s
  | .ldg t d a im => Sys2Proof.Machine.execLdg t d a im s
  | .ldgLong p t d a o => Sys2Proof.Machine.execLdgLong p t d a o s
  | .stg t d a im => Sys2Proof.Machine.execStg t d a im s
  | .stgLong p t d a o => Sys2Proof.Machine.execStgLong p t d a o s
  | .mfc d n => Sys2Proof.Machine.execMfc d n s
  | .mtc d n => Sys2Proof.Machine.execMtc d n s
  | .cid d => Sys2Proof.Machine.execCid d s
  | .cidLong p d => Sys2Proof.Machine.execCidLong p d s
  | .nearad d a b => Sys2Proof.Machine.execNearad d a b s
  | .nearadLong p d a b => Sys2Proof.Machine.execNearadLong p d a b s
  | .clad d a b => Sys2Proof.Machine.execClad d a b s
  | .cladLong p d a b => Sys2Proof.Machine.execCladLong p d a b s
  | .fence im => Sys2Proof.Machine.execFence im s
  | .isync => Sys2Proof.Machine.execIsync s
  | .yield => Sys2Proof.Machine.execYield s
  | .halt im => Sys2Proof.Machine.execHalt im s
  | .trap im => Sys2Proof.Machine.execTrap im s
  | .ftst k n => Sys2Proof.Machine.execFtst k n s
  | .fset n => Sys2Proof.Machine.execFset n s
  | .fclr n => Sys2Proof.Machine.execFclr n s
  | .fwait n => Sys2Proof.Machine.execFwait n s
  | .wlpush a b => Sys2Proof.Machine.execWlpush a b s
  | .wlpop d a => Sys2Proof.Machine.execWlpop d a s
  | .b im => Sys2Proof.Machine.execB im s
  | .bLong im => Sys2Proof.Machine.execBLong im s
  | .bk neg k im => Sys2Proof.Machine.execBk neg k im s
  | .bkLong neg k im => Sys2Proof.Machine.execBkLong neg k im s
  | .call im => Sys2Proof.Machine.execCall im s
  | .callLong im => Sys2Proof.Machine.execCallLong im s
  | .ret => Sys2Proof.Machine.execRet s
  | .jr a => Sys2Proof.Machine.execJr a s
  | .loop d im => Sys2Proof.Machine.execLoop d im s
  | .loopi n len => Sys2Proof.Machine.execLoopi n len s
  | .lexit neg k => Sys2Proof.Machine.execLexit neg k s
  | .bar d => Sys2Proof.Machine.execBar d s
  | .meet => Sys2Proof.Machine.execMeet s
  | .sigchk im => Sys2Proof.Machine.execSigchk im s
  | .vbr t c tok a im => Sys2Proof.Machine.execVbr t c tok a im s
  | .ecopy p d a f0 f1 f2 f3 => Sys2Proof.Machine.execEcopy p d a f0 f1 f2 f3 s
  | .egath p d a f0 f1 f2 f3 => Sys2Proof.Machine.execEgath p d a f0 f1 f2 f3 s
  | .escat p d a f0 f1 f2 f3 => Sys2Proof.Machine.execEscat p d a f0 f1 f2 f3 s
  | .eacc p d a f0 f1 f2 f3 => Sys2Proof.Machine.execEacc p d a f0 f1 f2 f3 s
  | .emark p d a f0 f1 f2 f3 => Sys2Proof.Machine.execEmark p d a f0 f1 f2 f3 s
  | .earm p d a f0 => Sys2Proof.Machine.execEarm p d a f0 s
  | .ewait p a => Sys2Proof.Machine.execEwait p a s
  | .eroute p d a f0 f1 f2 f3 => Sys2Proof.Machine.execEroute p d a f0 f1 f2 f3 s
  | .ebatch p d a f0 f1 f2 f3 => Sys2Proof.Machine.execEbatch p d a f0 f1 f2 f3 s
  | .eldred p d a f0 f1 f2 f3 => Sys2Proof.Machine.execEldred p d a f0 f1 f2 f3 s
  | .egroup p d a f0 f1 f2 f3 => Sys2Proof.Machine.execEgroup p d a f0 f1 f2 f3 s
  | .ecarry p d a f0 f1 f2 f3 => Sys2Proof.Machine.execEcarry p d a f0 f1 f2 f3 s
  | .ecoll p d a f0 f1 f2 f3 => Sys2Proof.Machine.execEcoll p d a f0 f1 f2 f3 s
  | .eget p d a f0 f1 f2 f3 => Sys2Proof.Machine.execEget p d a f0 f1 f2 f3 s
  | .eput p d a f0 f1 f2 f3 => Sys2Proof.Machine.execEput p d a f0 f1 f2 f3 s
  | .emcast p d a f0 f1 f2 f3 => Sys2Proof.Machine.execEmcast p d a f0 f1 f2 f3 s
  | .eappend p d a f0 f1 f2 f3 => Sys2Proof.Machine.execEappend p d a f0 f1 f2 f3 s
  | .ebexp p d a f0 f1 f2 f3 => Sys2Proof.Machine.execEbexp p d a f0 f1 f2 f3 s
  | .ecancel p d a => Sys2Proof.Machine.execEcancel p d a s
  | .estat p d a => Sys2Proof.Machine.execEstat p d a s
  | .efset p d a f0 f1 f2 f3 => Sys2Proof.Machine.execEfset p d a f0 f1 f2 f3 s
  | .edrain p => Sys2Proof.Machine.execEdrain p s
  | .vld hd d a => Sys2Proof.Machine.execVld hd d a s
  | .vldx hd d a b => Sys2Proof.Machine.execVldx hd d a b s
  | .vldb hd base fmt d a c => Sys2Proof.Machine.execVldb hd base fmt d a c s
  | .vldg hd d a => Sys2Proof.Machine.execVldg hd d a s
  | .vldbc hd d a => Sys2Proof.Machine.execVldbc hd d a s
  | .vlds hd base fmt d a c => Sys2Proof.Machine.execVlds hd base fmt d a c s
  | .vpref hd a => Sys2Proof.Machine.execVpref hd a s
  | .vldfl hd d a b => Sys2Proof.Machine.execVldfl hd d a b s
  | .vst hd d a => Sys2Proof.Machine.execVst hd d a s
  | .vstx hd d a b => Sys2Proof.Machine.execVstx hd d a b s
  | .vstb hd base fmt d a c => Sys2Proof.Machine.execVstb hd base fmt d a c s
  | .vstg hd d a => Sys2Proof.Machine.execVstg hd d a s
  | .vsts hd base fmt d a c => Sys2Proof.Machine.execVsts hd base fmt d a c s
  | .vstm hd d a b => Sys2Proof.Machine.execVstm hd d a b s
  | .vstc hd d a b => Sys2Proof.Machine.execVstc hd d a b s
  | .vmov hd d a => Sys2Proof.Machine.execVmov hd d a s
  | .vadd hd d a b => Sys2Proof.Machine.execVadd hd d a b s
  | .vsub hd d a b => Sys2Proof.Machine.execVsub hd d a b s
  | .vmul hd d a b => Sys2Proof.Machine.execVmul hd d a b s
  | .vfma hd d a b c => Sys2Proof.Machine.execVfma hd d a b c s
  | .vfms hd d a b c => Sys2Proof.Machine.execVfms hd d a b c s
  | .vfnma hd d a b c => Sys2Proof.Machine.execVfnma hd d a b c s
  | .vneg hd d a => Sys2Proof.Machine.execVneg hd d a s
  | .vabs hd d a => Sys2Proof.Machine.execVabs hd d a s
  | .vmin hd d a b => Sys2Proof.Machine.execVmin hd d a b s
  | .vmax hd d a b => Sys2Proof.Machine.execVmax hd d a b s
  | .vclamp hd d a b c => Sys2Proof.Machine.execVclamp hd d a b c s
  | .vmulh hd d a b => Sys2Proof.Machine.execVmulh hd d a b s
  | .vavg hd d a b => Sys2Proof.Machine.execVavg hd d a b s
  | .vabsd hd d a b => Sys2Proof.Machine.execVabsd hd d a b s
  | .vand hd d a b => Sys2Proof.Machine.execVand hd d a b s
  | .vor hd d a b => Sys2Proof.Machine.execVor hd d a b s
  | .vxor hd d a b => Sys2Proof.Machine.execVxor hd d a b s
  | .vandn hd d a b => Sys2Proof.Machine.execVandn hd d a b s
  | .vnot hd d a => Sys2Proof.Machine.execVnot hd d a s
  | .vshl hd d a b => Sys2Proof.Machine.execVshl hd d a b s
  | .vshr hd d a b => Sys2Proof.Machine.execVshr hd d a b s
  | .vsra hd d a b => Sys2Proof.Machine.execVsra hd d a b s
  | .vclz hd d a => Sys2Proof.Machine.execVclz hd d a s
  | .vpopc hd d a => Sys2Proof.Machine.execVpopc hd d a s
  | .vcmpeq hd d a b => Sys2Proof.Machine.execVcmpeq hd d a b s
  | .vcmpne hd d a b => Sys2Proof.Machine.execVcmpne hd d a b s
  | .vcmplt hd d a b => Sys2Proof.Machine.execVcmplt hd d a b s
  | .vcmple hd d a b => Sys2Proof.Machine.execVcmple hd d a b s
  | .vsel hd d a b c => Sys2Proof.Machine.execVsel hd d a b c s
  | .vmsk hd op d a b => Sys2Proof.Machine.execVmsk hd op d a b s
  | .vcvt hd part st d a => Sys2Proof.Machine.execVcvt hd part st d a s
  | .vrnd hd d a => Sys2Proof.Machine.execVrnd hd d a s
  | .vexp hd d a => Sys2Proof.Machine.execVexp hd d a s
  | .vlog hd d a => Sys2Proof.Machine.execVlog hd d a s
  | .vrcp hd d a => Sys2Proof.Machine.execVrcp hd d a s
  | .vrsqrt hd d a => Sys2Proof.Machine.execVrsqrt hd d a s
  | .vtanh hd d a => Sys2Proof.Machine.execVtanh hd d a s
  | .vredadd hd d a => Sys2Proof.Machine.execVredadd hd d a s
  | .vredmax hd d a => Sys2Proof.Machine.execVredmax hd d a s
  | .vredmin hd d a => Sys2Proof.Machine.execVredmin hd d a s
  | .vscan hd tot op d e a b => Sys2Proof.Machine.execVscan hd tot op d e a b s
  | .vscanc hd op d e a b c => Sys2Proof.Machine.execVscanc hd op d e a b c s
  | .vperm hd d a b => Sys2Proof.Machine.execVperm hd d a b s
  | .vrot hd d a b => Sys2Proof.Machine.execVrot hd d a b s
  | .vshuf hd d a b c => Sys2Proof.Machine.execVshuf hd d a b c s
  | .vcmpr hd d a b => Sys2Proof.Machine.execVcmpr hd d a b s
  | .vexpd hd d a b => Sys2Proof.Machine.execVexpd hd d a b s
  | .vhash hd bits d a b => Sys2Proof.Machine.execVhash hd bits d a b s
  | .vnft hd d a b => Sys2Proof.Machine.execVnft hd d a b s
  | .vsplat hd d a => Sys2Proof.Machine.execVsplat hd d a s
  | .viota hd d a => Sys2Proof.Machine.execViota hd d a s
  | .vdup hd d a b => Sys2Proof.Machine.execVdup hd d a b s
  | .vcnt hd d a => Sys2Proof.Machine.execVcnt hd d a s
  | .vbfx hd base fmt d a c => Sys2Proof.Machine.execVbfx hd base fmt d a c s
  | .mmac tok t acc sa sb rms => Sys2Proof.Machine.execMmac tok t acc sa sb rms s
  | .mmacs tok t acc sa sb rms qa ca qb cb => Sys2Proof.Machine.execMmacs tok t acc sa sb rms qa ca qb cb s
  | .mrot tok t acc sa sb rms => Sys2Proof.Machine.execMrot tok t acc sa sb rms s
  | .mgx tok t acc sb rms a c => Sys2Proof.Machine.execMgx tok t acc sb rms a c s
  | .mgrp tok t acc rms a b nb j ks => Sys2Proof.Machine.execMgrp tok t acc rms a b nb j ks s
  | .mchk tok op acc => Sys2Proof.Machine.execMchk tok op acc s
  | .mshape tok a => Sys2Proof.Machine.execMshape tok a s
  | .mzero tok acc => Sys2Proof.Machine.execMzero tok acc s
  | .mdrain hd acc d => Sys2Proof.Machine.execMdrain hd acc d s
  | .mmov hd acc d a => Sys2Proof.Machine.execMmov hd acc d a s
  | .mfill tok col sl a b => Sys2Proof.Machine.execMfill tok col sl a b s
  | .mrel tok sl => Sys2Proof.Machine.execMrel tok sl s
  | .mkeep tok acc => Sys2Proof.Machine.execMkeep tok acc s
  | .mrd tok sel d a => Sys2Proof.Machine.execMrd tok sel d a s
  | .recv d a => Sys2Proof.Machine.execRecv d a s
  | .recvt p d a b => Sys2Proof.Machine.execRecvt p d a b s
  | .rpeek d a => Sys2Proof.Machine.execRpeek d a s
  | .radv a b => Sys2Proof.Machine.execRadv a b s
  | .rsend p d a b => Sys2Proof.Machine.execRsend p d a b s
  | .rbind d a b => Sys2Proof.Machine.execRbind d a b s
  | .tdone => Sys2Proof.Machine.execTdone s
  | .kwake a => Sys2Proof.Machine.execKwake a s
  | .ksleep => Sys2Proof.Machine.execKsleep s
  | .kid d => Sys2Proof.Machine.execKid d s
  | .recvtTimeout cl thr => Sys2Proof.Machine.execRecvtTimeout cl thr s
  | .walkDeadlock cl => Sys2Proof.Machine.execWalkDeadlock cl s
  | .trapEntry cl e cause addr => Sys2Proof.Machine.execTrapEntry cl e cause addr s
  | .preemption cl steps => Sys2Proof.Machine.execPreemption cl steps s
  | .spill cl => Sys2Proof.Machine.execSpill cl s
  | .fillBack agent ctx cl => Sys2Proof.Machine.execFillBack agent ctx cl s
  | .resume cl thr => Sys2Proof.Machine.execResume cl thr s
  | .resumePast cl thr => Sys2Proof.Machine.execResumePast cl thr s
  | .save cl => Sys2Proof.Machine.execSave cl s
  | .replayParked die ctx => Sys2Proof.Machine.execReplayParked die ctx s
  | .kill ctx => Sys2Proof.Machine.execKill ctx s
  | .teardownComplete ctx => Sys2Proof.Machine.execTeardownComplete ctx s
  | .taskEnd cl => Sys2Proof.Machine.execTaskEnd cl s
  | .launchRecord ctx q => Sys2Proof.Machine.execLaunchRecord ctx q s
  | .graphEnd g => Sys2Proof.Machine.execGraphEnd g s
  | .stageSchedule die g st => Sys2Proof.Machine.execStageSchedule die g st s
  | .taskLaunch cl => Sys2Proof.Machine.execTaskLaunch cl s
  | .gangPlacement gang remote => Sys2Proof.Machine.execGangPlacement gang remote s
  | .reservationRelease gang => Sys2Proof.Machine.execReservationRelease gang s
  | .agingPreempt die g st => Sys2Proof.Machine.execAgingPreempt die g st s
  | .commandAcceptance cl who => Sys2Proof.Machine.execCommandAcceptance cl who s
  | .commandStart u cl seq => Sys2Proof.Machine.execCommandStart u cl seq s
  | .commandRetirement u cl seq => Sys2Proof.Machine.execCommandRetirement u cl seq s
  | .followOn cl seq => Sys2Proof.Machine.execFollowOn cl seq s
  | .markerRetire cl seq => Sys2Proof.Machine.execMarkerRetire cl seq s
  | .combiningNodeMerge die cmds => Sys2Proof.Machine.execCombiningNodeMerge die cmds s
  | .lineLanding l => Sys2Proof.Machine.execLineLanding l s
  | .eaccUpdate cl seq => Sys2Proof.Machine.execEaccUpdate cl seq s
  | .translationWalk die k => Sys2Proof.Machine.execTranslationWalk die k s
  | .xlinvPage die ctx vpg => Sys2Proof.Machine.execXlinvPage die ctx vpg s
  | .xlinvContext die ctx => Sys2Proof.Machine.execXlinvContext die ctx s
  | .xlinvAll die => Sys2Proof.Machine.execXlinvAll die s
  | .invalidationComplete die => Sys2Proof.Machine.execInvalidationComplete die s
  | .l2pinWrite die v => Sys2Proof.Machine.execL2pinWrite die v s
  | .contextLoad n => Sys2Proof.Machine.execContextLoad n s
  | .contextUnload n => Sys2Proof.Machine.execContextUnload n s
  | .fabcfgWrite v => Sys2Proof.Machine.execFabcfgWrite v s
  | .fabricTableWrite sel dat => Sys2Proof.Machine.execFabricTableWrite sel dat s
  | .fabricTableRead sel => Sys2Proof.Machine.execFabricTableRead sel s
  | .evringWrite die v => Sys2Proof.Machine.execEvringWrite die v s
  | .evbindWrite die k v => Sys2Proof.Machine.execEvbindWrite die k v s
  | .hapctlWrite v => Sys2Proof.Machine.execHapctlWrite v s
  | .registerWrite die num v => Sys2Proof.Machine.execRegisterWrite die num v s
  | .hostApertureRead o len => Sys2Proof.Machine.execHostApertureRead o len s
  | .hostApertureWrite o bytes => Sys2Proof.Machine.execHostApertureWrite o bytes s
  | .quiesce k => Sys2Proof.Machine.execQuiesce k s
  | .faultLogState k => Sys2Proof.Machine.execFaultLogState k s
  | .getVersion k => Sys2Proof.Machine.execGetVersion k s
  | .getCapabilities k => Sys2Proof.Machine.execGetCapabilities k s
  | .negotiateAlgorithms k => Sys2Proof.Machine.execNegotiateAlgorithms k s
  | .getDigests k => Sys2Proof.Machine.execGetDigests k s
  | .getCertificate k => Sys2Proof.Machine.execGetCertificate k s
  | .challenge k => Sys2Proof.Machine.execChallenge k s
  | .getMeasurements k => Sys2Proof.Machine.execGetMeasurements k s
  | .boot img => Sys2Proof.Machine.execBoot img s
  | .functionLevelReset => Sys2Proof.Machine.execFunctionLevelReset s
  | .placementTableRead die ctx rd => Sys2Proof.Machine.execPlacementTableRead die ctx rd s
  | .tokenRanking die ctx rd => Sys2Proof.Machine.execTokenRanking die ctx rd s
  | .permitRequest die ctx msg => Sys2Proof.Machine.execPermitRequest die ctx msg s
  | .permitReply die ctx msg => Sys2Proof.Machine.execPermitReply die ctx msg s
  | .roundOpening die ctx msg => Sys2Proof.Machine.execRoundOpening die ctx msg s
  | .doneMessage die ctx msg => Sys2Proof.Machine.execDoneMessage die ctx msg s
  | .roundDeadline die ctx rd => Sys2Proof.Machine.execRoundDeadline die ctx rd s
  | .binClose die ctx rd => Sys2Proof.Machine.execBinClose die ctx rd s
  | .roundRetirement die ctx rd => Sys2Proof.Machine.execRoundRetirement die ctx rd s
  | .windrowAppend cl seq => Sys2Proof.Machine.execWindrowAppend cl seq s
  | .terminationSweep gang ctx num => Sys2Proof.Machine.execTerminationSweep gang ctx num s
  | .batchGroup cl seq => Sys2Proof.Machine.execBatchGroup cl seq s
  | .packetArrival p => Sys2Proof.Machine.execPacketArrival p s
  | .packetForward p => Sys2Proof.Machine.execPacketForward p s
  | .linkReplay port => Sys2Proof.Machine.execLinkReplay port s
  | .linkDown port => Sys2Proof.Machine.execLinkDown port s
  | .parkBufferRelease jd => Sys2Proof.Machine.execParkBufferRelease jd s
  | .reductionContribution c => Sys2Proof.Machine.execReductionContribution c s
  | .pullLoad ctx grp ver seq off n frm => Sys2Proof.Machine.execPullLoad ctx grp ver seq off n frm s
  | .reductionTimeout ctx grp ver seq => Sys2Proof.Machine.execReductionTimeout ctx grp ver seq s
  | .flushNotice ctx grp ver seq missing => Sys2Proof.Machine.execFlushNotice ctx grp ver seq missing s
  | .carryArrival p => Sys2Proof.Machine.execCarryArrival p s
  | .groupSlotDrain grp slot => Sys2Proof.Machine.execGroupSlotDrain grp slot s
  | .collectiveStep cl seq blocks => Sys2Proof.Machine.execCollectiveStep cl seq blocks s
  | .ringArrival cl ring msg => Sys2Proof.Machine.execRingArrival cl ring msg s
  | .byteCounterDelivery cl off n tag => Sys2Proof.Machine.execByteCounterDelivery cl off n tag s
  | .barrierCompletion gang => Sys2Proof.Machine.execBarrierCompletion gang s
  | .shadowSweep ctx => Sys2Proof.Machine.execShadowSweep ctx s
  | .rollback gang cause => Sys2Proof.Machine.execRollback gang cause s
  | .patrolScrub sector unc => Sys2Proof.Machine.execPatrolScrub sector unc s
  | .counterRefresh n v => Sys2Proof.Machine.execCounterRefresh n v s
  | .eventFire die code ea eb rnd val => Sys2Proof.Machine.execEventFire die code ea eb rnd val s
  | .islandThrottle n => Sys2Proof.Machine.execIslandThrottle n s
  | .writeAcknowledge cl => Sys2Proof.Machine.execWriteAcknowledge cl s
  | .mailboxWrite k off bytes => Sys2Proof.Machine.execMailboxWrite k off bytes s
  | .portTraining port => Sys2Proof.Machine.execPortTraining port s
  | .pcieLinkTraining width gen => Sys2Proof.Machine.execPcieLinkTraining width gen s

end Sys2Proof.Machine
end

