-- ==== Sys2Proof/Machine/Step.lean ====
section
/-! DEFINITION. One step of the machine: the agenda says who moves (log 1); a walker's word is fetched,
decoded and executed, and an event takes its effect. -/

namespace Sys2Proof.Machine

/-- The state at the start of a step of `a`: what the device does of its own accord is done, one tick has passed, and
the actor is set. -/
def State.begin (s : State) (a : Actor) : State := { s.settle with tick := s.tick + 1, actor := a }

/-- The same for an event; the fabric time counter has counted on since the last one (R378; log 19). -/
def State.beginEvent (s : State) : State := { s.begin .device with fabtime := s.fabtime + Config.elapsed s.tick }

/-- What another step has brought about comes about. -/
def takeSoon (x : Soon) (s : State) : Host.Outcome State Fault Refusal :=
  match x with
  | .fire die code ea eb rnd val => execEventFire die code ea eb rnd val s
  | .kill ctx => execKill ctx s
  | .taskEnd cl => execTaskEnd cl s
  | .ring cl => .next (drainInbox cl s)
  | .act die reg => .next (regAct die reg s)
  | .alert g ends => .next (alertGang g ends s)
  | .upset x => .next (strike x s)
  | .barRead bar off len => .next (barRead bar off len s)
  | .msixWrite off bytes => .next (msixStore off bytes s)
  | .product cl => .next (partialProduct cl (Config.productSteps s.tick) s)
  | .fetch w off => .next (if hasWalker w then (fetchAhead off { s with actor := actorOf w }) else s)

/-- A turn is taken. -/
def takeTurn (t : Turn) (s : State) : Host.Outcome State Fault Refusal :=
  match t with
  | .walk w =>
    if hasWalker w then
      match plan w (s.begin (actorOf w)) with
      | .done s' => .next s'
      | .run i s' => exec i s'
    else .fault .noSuchAgent
  | .event i => exec i s.beginEvent
  | .soon x => takeSoon x (s.begin .device)

/-- One step (log 1): the first turn of the agenda, or, when it is empty, a free one. -/
def step (s : State) : Host.Outcome State Fault Refusal :=
  match s.agenda with
  | [] => takeTurn (Config.schedule s.tick) s
  | t :: rest => takeTurn t { s with agenda := rest }

/-! ### Placing one word where the next step fetches it -/

/-- The context, gang and task that stand for the load of a program (log 2): context 1 with one 512 MiB page
from VA 0 to DPA 0 in the first-level TLB, and a task of one on cluster 0 whose text starts at VA 0. -/
def loadContext : Context :=
  ⟨0, 1024, 0, 0, 0, 0, [0, 0, 0, 0], [0, 0, 0, 0], 0x1000000000, 0x1100000000, 0x1200000000, 0, 0, 0, 0,
    BitVec.allOnes 384, [0, 0, 0, 0], false, false, false, 0, []⟩

/-- Valid, 512 MiB, user, writable, device memory (Table 4.4). -/
def loadLeaf : Word := 0x00C0000000000007#64

def loadGang : Gang :=
  ⟨1, 0, 1, 0, 1, 0#32, [0], [], [], [], false, none, 0#64, false, 0, 0, 1, true, [], [], [], none, false, false, false, false,
    [], false, [], 0, [], [], false, false, [], 0, 0#8⟩

def loadImage : Image := ⟨0, 4096, 0, 0, 0, 0, 0, 0, 0, 0⟩

def loadTask : Task :=
  ⟨1, 0, 1, 0, 1, 1, 0, 0, false, loadImage, 0#32, 0#32, 0#32, 1, 0, 0, none, 0#64, false, .running, 0#8, none, false, 0⟩

/-- The walker that executes a head parcel: its tag's PC, or rake thread 0 for a K word (Table 2.3, R22). -/
def walkerFor (h : Parcel) : Walker :=
  match headTag h with
  | .L => .pc 0 .L | .A => .pc 0 .A | .W => .pc 0 .W | .M => .pc 0 .M
  | .K => .rake 0 0
  | _ => .pc 0 .S

/-- The state with an instruction, whose bits are `w` and zero from `nbits` on, where the next step fetches
it (log 2): the program load stands as done, and the agenda's first turn is the walker that executes it. -/
def State.withFetchWord (s : State) (nbits w : Nat) : State :=
  let w' := w % 2 ^ nbits
  { s with
    contexts := KMap.set s.contexts 1 loadContext
    gangs := KMap.set s.gangs 1 loadGang
    clusters := KMap.set s.clusters 0
      { s.cl 0 with
        task := some loadTask
        tlb := [⟨1, 0, 29, loadLeaf⟩]
        l1 := []
        wS := Walk.reset, wL := Walk.reset, wA := Walk.reset, wW := Walk.reset, wM := Walk.reset
        rakes := KMap.set (s.cl 0).rakes 0 { (s.cl 0).rake 0 with st := .ready, pc := 0 } }
    hbm := Mem.write s.hbm 0 (natLe 24 w')
    agenda := .walk (walkerFor (parcelOfNat w' 0)) :: s.agenda }

end Sys2Proof.Machine
end

