-- ==== Sys2Proof/Safety.lean ====
section
/-! DEFINITION. What counts as a safe run, and the tables that statements quote from the spec: the results of
chapter 8 written out as the spec's tables give them, and the forms that share a shape. -/

namespace Sys2Proof.Machine


/-! ### Invariants -/

/-- Every memory of the package is in canonical form: device memory, every cluster's scratchpad, every die's pinned
space, the scratchpads of spilled images, and the mailboxes. -/
def State.memoryWf (s : State) : Prop :=
  Mem.wf s.hbm = true
    ∧ (∀ e ∈ s.clusters, Mem.wf e.2.sram = true)
    ∧ (∀ e ∈ s.dies, Mem.wf e.2.pinned = true)
    ∧ (∀ p ∈ s.spilled, Mem.wf p.image.sram = true)
    ∧ (∀ e ∈ s.mailboxes, Mem.wf e.2.payload = true)

/-- The hard-wired predicate k0 of a cluster's task is true, in its snapshot store as well (R150). -/
def Cluster.k0True (x : Cluster) : Prop := x.preds.getLsbD 0 = true ∧ ∀ n, x.snap = some n → n.preds.getLsbD 0 = true

/-- The hard-wired register s0 of a cluster's task: no value is ever held for it, in its snapshot store either (R149). -/
def Cluster.s0Zero (x : Cluster) : Prop :=
  KMap.getD x.sregs 0 0#64 = 0#64 ∧ ∀ n, x.snap = some n → KMap.getD n.sregs 0 0#64 = 0#64

/-- The same of every cluster of the package and of every spilled task's image. -/
def State.k0True (s : State) : Prop := (∀ e ∈ s.clusters, e.2.k0True) ∧ ∀ p ∈ s.spilled, p.image.k0True
def State.s0Zero (s : State) : Prop := (∀ e ∈ s.clusters, e.2.s0Zero) ∧ ∀ p ∈ s.spilled, p.image.s0Zero

/-! ### Table 8.2 -/

/-- A row of Table 8.2 with two operands: its forms, and its result. -/
structure AluRow where
  short : Reg → Reg → Reg → Instr
  long : Pred → Reg → Reg → RegOrImm → Instr
  val : Word → Word → Word

/-- Table 8.2, as the spec writes it: a and b unsigned, `toInt` the same bits as two's complement. -/
def aluRows : List AluRow := [
  ⟨.add, .addLong, fun a b => BitVec.ofNat 64 (a.toNat + b.toNat)⟩,
  ⟨.sub, .subLong, fun a b => BitVec.ofInt 64 (a.toNat - b.toNat)⟩,
  ⟨.mul, .mulLong, fun a b => BitVec.ofNat 64 (a.toNat * b.toNat)⟩,
  ⟨.mulh, .mulhLong, fun a b => BitVec.ofInt 64 (a.toInt * b.toInt / 2 ^ 64)⟩,
  ⟨.mulhn, .mulhnLong, fun a b => BitVec.ofNat 64 (a.toNat * b.toNat / 2 ^ 64)⟩,
  ⟨.div, .divLong, fun a b => if b = 0#64 then BitVec.allOnes 64 else BitVec.ofInt 64 (Int.tdiv a.toInt b.toInt)⟩,
  ⟨.divn, .divnLong, fun a b => if b = 0#64 then BitVec.allOnes 64 else BitVec.ofNat 64 (a.toNat / b.toNat)⟩,
  ⟨.rem, .remLong, fun a b => if b = 0#64 then a else BitVec.ofInt 64 (Int.tmod a.toInt b.toInt)⟩,
  ⟨.remn, .remnLong, fun a b => if b = 0#64 then a else BitVec.ofNat 64 (a.toNat % b.toNat)⟩,
  ⟨.and, .andLong, fun a b => a &&& b⟩,
  ⟨.or, .orLong, fun a b => a ||| b⟩,
  ⟨.xor, .xorLong, fun a b => a ^^^ b⟩,
  ⟨.shl, .shlLong, fun a b => if b.toNat < 64 then BitVec.ofNat 64 (a.toNat * 2 ^ b.toNat) else 0#64⟩,
  ⟨.shr, .shrLong, fun a b => if b.toNat < 64 then BitVec.ofNat 64 (a.toNat / 2 ^ b.toNat) else 0#64⟩,
  ⟨.sra, .sraLong, fun a b => BitVec.ofInt 64 (a.toInt / 2 ^ (Nat.min b.toNat 63))⟩,
  ⟨.min, .minLong, fun a b => if a.toInt < b.toInt then a else b⟩,
  ⟨.max, .maxLong, fun a b => if a.toInt < b.toInt then b else a⟩,
  ⟨.minn, .minnLong, fun a b => if a.toNat < b.toNat then a else b⟩,
  ⟨.maxn, .maxnLong, fun a b => if a.toNat < b.toNat then b else a⟩,
  ⟨.andn, .andnLong, fun a b => a &&& ~~~b⟩]

/-- A row of Table 8.2 with one operand. -/
structure UnaryRow where
  short : Reg → Reg → Instr
  long : Pred → Reg → Reg → Instr
  val : Word → Word

/-- `clz`, `popc` and the three functions of `sext`. -/
def unaryRows : List UnaryRow := [
  ⟨.clz, .clzLong, fun a => BitVec.ofNat 64 (64 - (if a.toNat = 0 then 0 else Nat.log2 a.toNat + 1))⟩,
  ⟨.popc, .popcLong, fun a => BitVec.ofNat 64 ((List.range 64).countP fun i => a.getLsbD i)⟩,
  ⟨.sext 0#2, fun p => .sextLong p 0#2, fun a => (a.setWidth 8).signExtend 64⟩,
  ⟨.sext 1#2, fun p => .sextLong p 1#2, fun a => (a.setWidth 16).signExtend 64⟩,
  ⟨.sext 2#2, fun p => .sextLong p 2#2, fun a => (a.setWidth 32).signExtend 64⟩]

/-- A row of R174: its forms, whether its immediate is a shift count, and the function of Table 8.2. -/
structure ImmRow where
  short : Reg → Reg → BitVec 8 → Instr
  long : Pred → Reg → Reg → BitVec 32 → Instr
  shift : Bool
  val : Word → Word → Word

def immRows : List ImmRow := [
  ⟨.addi, .addiLong, false, fun a b => BitVec.ofNat 64 (a.toNat + b.toNat)⟩,
  ⟨.andi, .andiLong, false, fun a b => a &&& b⟩,
  ⟨.ori, .oriLong, false, fun a b => a ||| b⟩,
  ⟨.xori, .xoriLong, false, fun a b => a ^^^ b⟩,
  ⟨.shli, .shliLong, true, fun a b => if b.toNat < 64 then BitVec.ofNat 64 (a.toNat * 2 ^ b.toNat) else 0#64⟩,
  ⟨.shri, .shriLong, true, fun a b => if b.toNat < 64 then BitVec.ofNat 64 (a.toNat / 2 ^ b.toNat) else 0#64⟩,
  ⟨.srai, .sraiLong, true, fun a b => BitVec.ofInt 64 (a.toInt / 2 ^ (Nat.min b.toNat 63))⟩]

/-- A comparison of R176. -/
structure CmpRow where
  short : PIdx → Reg → Reg → Instr
  long : Pred → PIdx → Reg → RegOrImm → Instr
  test : Word → Word → Bool

def cmpRows : List CmpRow := [
  ⟨.cmpeq, .cmpeqLong, fun a b => decide (a = b)⟩,
  ⟨.cmpne, .cmpneLong, fun a b => decide (a ≠ b)⟩,
  ⟨.cmplt, .cmpltLong, fun a b => decide (a.toInt < b.toInt)⟩,
  ⟨.cmple, .cmpleLong, fun a b => decide (a.toInt ≤ b.toInt)⟩,
  ⟨.cmpltn, .cmpltnLong, fun a b => decide (a.toNat < b.toNat)⟩,
  ⟨.cmplen, .cmplenLong, fun a b => decide (a.toNat ≤ b.toNat)⟩]

/-! ### Forms that share a shape -/

/-- The PRED field of an instruction that has one (Table 2.6). -/
def predOf : Instr → Option Pred
  | .addLong p .. | .subLong p .. | .mulLong p .. | .mulhLong p .. | .mulhnLong p .. | .divLong p .. | .divnLong p ..
  | .remLong p .. | .remnLong p .. | .andLong p .. | .orLong p .. | .xorLong p .. | .shlLong p .. | .shrLong p ..
  | .sraLong p .. | .minLong p .. | .maxLong p .. | .minnLong p .. | .maxnLong p .. | .clzLong p .. | .popcLong p ..
  | .sextLong p .. | .andnLong p .. | .addiLong p .. | .andiLong p .. | .oriLong p .. | .xoriLong p .. | .shliLong p ..
  | .shriLong p .. | .sraiLong p .. | .liLong p .. | .liHi p .. | .cmpeqLong p .. | .cmpneLong p .. | .cmpltLong p ..
  | .cmpleLong p .. | .cmpltnLong p .. | .cmplenLong p .. | .ldLong p .. | .stLong p .. | .ldgLong p .. | .stgLong p ..
  | .cidLong p .. | .nearadLong p .. | .cladLong p .. | .recvt p .. | .rsend p ..
  | .ecopy p .. | .egath p .. | .escat p .. | .eacc p .. | .emark p .. | .earm p .. | .ewait p .. | .eroute p ..
  | .ebatch p .. | .eldred p .. | .egroup p .. | .ecarry p .. | .ecoll p .. | .eget p .. | .eput p .. | .emcast p ..
  | .eappend p .. | .ebexp p .. | .ecancel p .. | .estat p .. | .efset p .. | .edrain p => some p
  | _ => none

/-- The register that an instruction of chapter 8 writes, for those that write one register and can neither wait nor
trap. -/
def regResult : Instr → Option Reg
  | .add d .. | .sub d .. | .mul d .. | .mulh d .. | .mulhn d .. | .div d .. | .divn d .. | .rem d .. | .remn d ..
  | .and d .. | .or d .. | .xor d .. | .shl d .. | .shr d .. | .sra d .. | .min d .. | .max d .. | .minn d .. | .maxn d ..
  | .andn d .. | .clz d .. | .popc d .. | .sext _ d .. | .addi d .. | .andi d .. | .ori d .. | .xori d .. | .shli d ..
  | .shri d .. | .srai d .. | .li d .. | .kget d | .cid d | .kid d => some d
  | .addLong _ d .. | .subLong _ d .. | .mulLong _ d .. | .mulhLong _ d .. | .mulhnLong _ d .. | .divLong _ d ..
  | .divnLong _ d .. | .remLong _ d .. | .remnLong _ d .. | .andLong _ d .. | .orLong _ d .. | .xorLong _ d ..
  | .shlLong _ d .. | .shrLong _ d .. | .sraLong _ d .. | .minLong _ d .. | .maxLong _ d .. | .minnLong _ d ..
  | .maxnLong _ d .. | .andnLong _ d .. | .clzLong _ d .. | .popcLong _ d .. | .sextLong _ _ d .. | .addiLong _ d ..
  | .andiLong _ d .. | .oriLong _ d .. | .xoriLong _ d .. | .shliLong _ d .. | .shriLong _ d .. | .sraiLong _ d ..
  | .liLong _ d .. | .liHi _ d .. | .cidLong _ d => some d
  | _ => none

/-- The predicates that an instruction of chapter 8 may write, as a mask. -/
def predResult : Instr → Option (BitVec 16)
  | .cmpeq k .. | .cmpne k .. | .cmplt k .. | .cmple k .. | .cmpltn k .. | .cmplen k .. | .pand k .. | .por k ..
  | .pxor k .. | .pnot k .. => some (1#16 <<< k.toNat)
  | .cmpeqLong _ k .. | .cmpneLong _ k .. | .cmpltLong _ k .. | .cmpleLong _ k .. | .cmpltnLong _ k ..
  | .cmplenLong _ k .. => some (1#16 <<< k.toNat)
  | .kset _ => some 0xFFFE#16
  | _ => none

/-! ### Frames -/

/-- A register of an agent, as it stands: of a cluster's task, of a rake thread, of a die manager core. -/
def State.regOf (s : State) (a : Actor) (n : Nat) : Word :=
  match a with
  | .pc c _ => KMap.getD (s.cl c).sregs n 0#64
  | .rake c t => KMap.getD ((s.cl c).rake t).regs n 0#64
  | .mgr d => KMap.getD (s.die d).core.regs n 0#64
  | .device => 0#64

/-- A rake thread or core with nothing but its place in the text, its signature, its registers and its predicates taken
from `r'`. -/
def Rake.movedTo (r r' : Rake) : Rake := { r with pc := r'.pc, sig := r'.sig, regs := r'.regs, preds := r'.preds, text := r'.text }

/-- A cluster with nothing but its task's registers and predicates, its five PCs and what follows from their places
taken from `x'`. -/
def Cluster.movedTo (x x' : Cluster) : Cluster :=
  { x with
    sregs := x'.sregs, preds := x'.preds, wS := x'.wS, wL := x'.wL, wA := x'.wA, wW := x'.wW, wM := x'.wM,
    trail := x'.trail, outcomes := x'.outcomes, owedVers := x'.owedVers, regBad := x'.regBad }

/-- A state with other clusters, or other dies, and everything else as it is. -/
def State.withClusters (s : State) (m : KMap Cluster) : State := { s with clusters := m }
def State.withDies (s : State) (m : KMap Die) : State := { s with dies := m }

/-- Nothing of the machine differs but the executing agent's registers, predicates and place in its text: no memory, no
flag, no control register, no other cluster, thread or die. -/
def Moved (s t : State) : Prop :=
  match s.actor with
  | .pc c _ =>
    t = s.withClusters t.clusters ∧ (∀ c', c' ≠ c → t.cl c' = s.cl c') ∧ t.cl c = (s.cl c).movedTo (t.cl c)
  | .rake c n =>
    t = s.withClusters t.clusters ∧ (∀ c', c' ≠ c → t.cl c' = s.cl c')
      ∧ t.cl c = { s.cl c with rakes := (t.cl c).rakes, regBad := (t.cl c).regBad }
      ∧ (∀ n', n' ≠ n → (t.cl c).rake n' = (s.cl c).rake n')
      ∧ (t.cl c).rake n = ((s.cl c).rake n).movedTo ((t.cl c).rake n)
  | .mgr d =>
    t = s.withDies t.dies ∧ (∀ d', d' ≠ d → t.die d' = s.die d')
      ∧ t.die d = { s.die d with core := (s.die d).core.movedTo (t.die d).core, coreBad := (t.die d).coreBad }
  | .device => t = s

/-! ### When an instruction issues -/

/-- The state at the start of a step whose turn is `a`'s, with `rest` the turns after it. -/
def State.startOf (s : State) (rest : List Turn) (a : Actor) : State := ({ s with agenda := rest } : State).begin a

/-- Nothing holds back instruction `i` of engine `e` of cluster `c`: neither a register or slot still
owed to it, nor a held command that its accesses would overtake (R151, R168, R140). -/
def freeToIssue (s : State) (c : Nat) (w : Who) (t : Task) (e : Eng) (i : Instr) : Prop :=
  awaitsScalar s c w t e i = false ∧ interlocked s c w t e i = false
    ∧ heldBack s c none (if e == .S then scalarTouches s (s.cl c) c i else touches s (s.cl c) c e true i) = false
    ∧ (e = .M → awaitsFollow s c w t i = false)

/-- An X instruction stays within the innermost open body (R193). -/
def staysInBody (i : Instr) (s : State) : Prop :=
  ∀ l rest, s.selfLoops = l :: rest → l.start ≤ s.selfPc → s.selfPc < l.stop → s.selfPc + lenOf i ≤ l.stop

/-! ### Conditions that several instructions share -/

/-- The wait of the release and full classes is over: every PC has reached the S PC's position, and what they have passed
has completed; a thread does not wait (Table 8.1). -/
def allPassed (s : State) : Prop := ∀ c, s.actor = .pc c .S → (s.cl c).gathered = true ∧ settled s c = true

/-- The write-acknowledge count of the executing agent's cluster is zero (R143). -/
def acksDone (s : State) : Prop := ∀ c, s.who.cl = some c → (s.cl c).writeAcks = 0

/-- The executing agent's L1 emptied (R119); a die manager core has none. -/
def State.freshL1 (s : State) : State :=
  match s.who.cl with
  | some c => l1Empty s c
  | none => s

/-- The branch-outcome queue has room for what the S PC posts, and no PC stands before a `vbr` that the S PC has passed (R163,
R164). -/
def mayPost (s : State) : Prop := ∀ c, s.actor = .pc c .S → (s.cl c).steered = false ∧ (s.cl c).outcomes.length < 16

/-- What the S PC posts at an X instruction; another agent posts nothing (R163). -/
def State.posting (s : State) (o : BrOut) : State :=
  match s.actor with
  | .pc c .S => s.modCl c fun x => { x with outcomes := x.outcomes ++ [⟨x.wS.dp, o⟩] }
  | _ => s

/-- Whether a predicated branch is taken: the S PC, a thread or a core reads its predicate, another PC takes what was
posted at its position (R163, R191). -/
def State.takes (s : State) (neg : Bool) (k : PIdx) : Option Bool :=
  if s.decides then some (s.rdK k != neg)
  else match s.posted with
    | some (.taken b) => some b
    | _ => none

/-- The place an access of `n` bytes at a coordinate address names, for the executing agent. -/
def State.place (s : State) (a : Word) (n : Nat) : Except (BitVec 8) (Nat × Nat) :=
  coord s s.selfCtx s.selfCl a.toNat (a.toNat % n != 0)

/-- A load's value: the bytes read, least significant first, extended as the type says (R6, R178, R179). -/
def loaded (t : Ty) (bs : List Byte) : Word :=
  match t with
  | .i8 => (BitVec.ofNat 8 (leNat bs)).signExtend 64
  | .i16 => (BitVec.ofNat 16 (leNat bs)).signExtend 64
  | .i32 => (BitVec.ofNat 32 (leNat bs)).signExtend 64
  | _ => BitVec.ofNat 64 (leNat bs)

/-- The integer types that scalar loads and stores take (R178). -/
def isInt : Ty → Bool
  | .n8 | .n16 | .n32 | .n64 | .i8 | .i16 | .i32 | .i64 => true
  | _ => false

/-- The bytes of an integer type. -/
def bytesOf : Ty → Nat
  | .n8 | .i8 => 1
  | .n16 | .i16 => 2
  | .n32 | .i32 => 4
  | _ => 8

/-- A store to another cluster is counted until it is acknowledged (R143). -/
def State.sent (s : State) (c : Nat) : State :=
  if c != s.selfCl && s.who.cl.isSome then addWack s s.selfCl 1 else s

/-- One byte of a cluster's scratchpad as a read gives it (R107, R371). -/
def State.spByte (s : State) (c a : Nat) : Byte := (sramRead (s.cl c) a 1).headD 0#8

/-- The forms of a load or store of one kind: its 32-bit and its 96-bit form, and the address each accesses. -/
structure MemRow where
  short : Ty → Reg → Reg → BitVec 4 → Instr
  long : Pred → Ty → Reg → Reg → RegOrImm → Instr

def ldRow : MemRow := ⟨.ld, .ldLong⟩
def stRow : MemRow := ⟨.st, .stLong⟩
def ldgRow : MemRow := ⟨.ldg, .ldgLong⟩
def stgRow : MemRow := ⟨.stg, .stgLong⟩

/-- `i` is a form of the row that executes, with type `t`, register `d` and address `a` in state `s` (R178): s[A] plus
IMM4 elements, or s[A] plus s[B] or sext(IMM32). -/
def MemRow.form (r : MemRow) (s : State) (t : Ty) (d : Reg) (a : Word) (i : Instr) : Prop :=
  isInt t = true ∧
  ((∃ b n, i = r.short t d b n ∧ a = s.rd b + BitVec.ofNat 64 (n.toNat * bytesOf t))
    ∨ (∃ p b o, i = r.long p t d b o ∧ s.holds p = true ∧ a = s.rd b + s.rdRI o))

/-- The executing agent's ring number s[A] names a ring bound to it (R199). -/
def ownsRing (s : State) (a : Reg) (k : Nat) : Prop :=
  (s.rd a).toNat = k ∧ k ≤ 15 ∧ ((s.cl s.selfCl).ring k).desc ≠ 0#64 ∧ ((s.cl s.selfCl).ring k).owner = agentNum s

/-- The ring with the pad messages at its head consumed, and the state in which they are (R198). -/
def State.unpadded (s : State) (k : Nat) : Ring :=
  skipPads (s.cl s.selfCl) ((s.cl s.selfCl).ring k).lines ((s.cl s.selfCl).ring k)
def State.dropPad (s : State) (k : Nat) : State := s.modCl s.selfCl fun x => x.setRing k (s.unpadded k)

/-- The count that is left of a `recvt`: what the sleeping thread has kept, else the operand (R199). -/
def State.recvtLeft (s : State) (n : Nat) : Nat :=
  match s.selfRake with
  | some t => if t.st == .recvt then t.remain.getD n else n
  | none => n

/-! ### Vectors -/

/-- Lane `i` of a value of type `t` (R201). -/
def laneAt (t : Ty) (v : Vec) (i : Nat) : Nat := v.toNat / 2 ^ (t.bits * i) % 2 ^ t.bits

/-- The value of type `t` whose lane `i` is `f i`, and the mask whose bit `i` is `f i`, over the type's lanes. -/
def vecMade (t : Ty) (f : Nat → Nat) : Vec := vecOf t ((List.range t.lanes).map f)
def maskMade (t : Ty) (f : Nat → Bool) : Vec := maskVec ((List.range t.lanes).map f)

/-- Types whose lanes are two's complement (Table 9.1), and a lane as an integer. -/
def isSigned : Ty → Bool
  | .i8 | .i16 | .i32 | .i64 => true
  | _ => false
def asInt (t : Ty) (a : Nat) : Int := if isSigned t && decide (2 ^ (t.bits - 1) ≤ a) then (a : Int) - 2 ^ t.bits else a

/-- An integer result as a lane: clamped into the type's range where the instruction saturates, then modulo 2^w (R221). -/
def intResult (t : Ty) (sat : Bool) (v : Int) : Nat :=
  let w := t.bits
  let lo : Int := if isSigned t then -(2 ^ (w - 1)) else 0
  let hi : Int := if isSigned t then 2 ^ (w - 1) - 1 else 2 ^ w - 1
  ((if sat then max lo (min hi v) else v) % 2 ^ w).toNat

/-- A real result as a lane: one encode in the lane's rounding (R220). -/
def fltResult (t : Ty) (rm : Rm) (sat : Bool) (v : Val) : Nat := encodeVal (fmtTy t) v rm sat

/-- The result of an instruction that F, I and raw types each have a column for (Table 9.6). -/
def arith (t : Ty) (rm : Rm) (sat : Bool) (f : Val) (n : Int) (raw : Nat) : Nat :=
  if t.isF then fltResult t rm sat f else if t.isN then raw else intResult t sat n

/-- Rows of Tables 9.6 and 9.7 with one, two and three sources: lane by lane from the sources' lanes. -/
structure LaneRow1 where
  form : VHead → Opnd → Opnd → Instr
  val : Ty → Rm → Bool → Nat → Nat
structure LaneRow2 where
  form : VHead → Opnd → Opnd → Opnd → Instr
  val : Ty → Rm → Bool → Nat → Nat → Nat
structure LaneRow3 where
  form : VHead → Opnd → Opnd → Opnd → Opnd → Instr
  val : Ty → Rm → Bool → Nat → Nat → Nat → Nat

def lane1Rows : List LaneRow1 := [
  ⟨.vmov, fun t rm sat a => arith t rm sat (laneVal t a) (asInt t a) a⟩,
  ⟨.vneg, fun t rm sat a => arith t rm sat (laneVal t a).negate (-asInt t a) a⟩,
  ⟨.vabs, fun t rm sat a => arith t rm sat (laneVal t a).abs (asInt t a).natAbs a⟩,
  ⟨.vnot, fun t _ _ a => 2 ^ t.bits - 1 - a⟩,
  ⟨.vclz, fun t _ sat a => intResult t sat ((t.bits : Int) - (if a = 0 then 0 else Nat.log2 a + 1))⟩,
  ⟨.vpopc, fun t _ sat a => intResult t sat ((List.range t.bits).countP fun i => a.testBit i)⟩,
  ⟨.vrnd, fun t rm sat a => laneRnd t rm sat a⟩,
  ⟨.vexp, fun t rm sat a => fltResult t rm sat (expRef (laneVal t a))⟩,
  ⟨.vlog, fun t rm sat a => fltResult t rm sat (logRef (laneVal t a))⟩,
  ⟨.vrcp, fun t rm sat a => fltResult t rm sat (Val.recip (laneVal t a))⟩,
  ⟨.vrsqrt, fun t rm sat a => fltResult t rm sat (Val.rsqrt (laneVal t a))⟩,
  ⟨.vtanh, fun t rm sat a => fltResult t rm sat (tanhRef (laneVal t a))⟩,
  ⟨.vsplat, fun _ _ _ a => a⟩]

def lane2Rows : List LaneRow2 := [
  ⟨.vadd, fun t rm sat a b => arith t rm sat ((laneVal t a).add rm (laneVal t b)) (asInt t a + asInt t b) a⟩,
  ⟨.vsub, fun t rm sat a b => arith t rm sat ((laneVal t a).add rm (laneVal t b).negate) (asInt t a - asInt t b) a⟩,
  ⟨.vmul, fun t rm sat a b => arith t rm sat ((laneVal t a).mul (laneVal t b)) (asInt t a * asInt t b) a⟩,
  ⟨.vmin, fun t rm sat a b => arith t rm sat ((laneVal t a).min (laneVal t b)) (min (asInt t a) (asInt t b)) a⟩,
  ⟨.vmax, fun t rm sat a b => arith t rm sat ((laneVal t a).max (laneVal t b)) (max (asInt t a) (asInt t b)) a⟩,
  ⟨.vmulh, fun t _ _ a b => intResult t false (asInt t a * asInt t b / 2 ^ t.bits)⟩,
  ⟨.vavg, fun t _ _ a b => intResult t false ((asInt t a + asInt t b + 1) / 2)⟩,
  ⟨.vabsd, fun t rm sat a b =>
    if t.isF then fltResult t rm sat ((laneVal t a).add rm (laneVal t b).negate).abs else (asInt t a - asInt t b).natAbs⟩,
  ⟨.vand, fun _ _ _ a b => a &&& b⟩,
  ⟨.vor, fun _ _ _ a b => a ||| b⟩,
  ⟨.vxor, fun _ _ _ a b => a ^^^ b⟩,
  ⟨.vandn, fun t _ _ a b => a &&& (2 ^ t.bits - 1 - b)⟩,
  ⟨.vshl, fun t _ sat a b => if t.bits ≤ b then 0 else intResult t sat (asInt t a * 2 ^ b)⟩,
  ⟨.vshr, fun t _ sat a b => if t.bits ≤ b then 0 else intResult t sat (a / 2 ^ b : Nat)⟩,
  ⟨.vsra, fun t _ sat a b =>
    intResult t sat ((if 2 ^ (t.bits - 1) ≤ a then (a : Int) - 2 ^ t.bits else a) / 2 ^ (Nat.min b (t.bits - 1)))⟩]

def lane3Rows : List LaneRow3 := [
  ⟨.vfma, fun t rm sat a b c => arith t rm sat (((laneVal t a).mul (laneVal t b)).add rm (laneVal t c)) 0 a⟩,
  ⟨.vfms, fun t rm sat a b c => arith t rm sat (((laneVal t a).mul (laneVal t b)).add rm (laneVal t c).negate) 0 a⟩,
  ⟨.vfnma, fun t rm sat a b c => arith t rm sat (((laneVal t a).negate.mul (laneVal t b)).add rm (laneVal t c)) 0 a⟩,
  ⟨.vclamp, fun t rm sat a b c => arith t rm sat (((laneVal t a).max (laneVal t b)).min (laneVal t c))
    (min (max (asInt t a) (asInt t b)) (asInt t c)) a⟩]

/-- A comparison of R222. -/
structure LaneTest where
  form : VHead → Opnd → Opnd → Opnd → Instr
  test : Ty → Nat → Nat → Bool

def laneTests : List LaneTest := [
  ⟨.vcmpeq, fun t a b => if t.isF then (laneVal t a).eq (laneVal t b) else decide (asInt t a = asInt t b)⟩,
  ⟨.vcmpne, fun t a b => !(if t.isF then (laneVal t a).eq (laneVal t b) else decide (asInt t a = asInt t b))⟩,
  ⟨.vcmplt, fun t a b => if t.isF then (laneVal t a).lt (laneVal t b) else decide (asInt t a < asInt t b)⟩,
  ⟨.vcmple, fun t a b => if t.isF then (laneVal t a).le (laneVal t b) else decide (asInt t a ≤ asInt t b)⟩]

/-- What comes before an L, A, W or M instruction's own effect: no pointer stands in two of its slots, and the tokens that
it pops are there, leaving `s1` (R154, R166). -/
def State.vecStart (s : State) (tok : Tok) (slots : List Opnd) (s1 : State) : Prop :=
  twicePointer slots = false ∧ popTokens s.here.2 tok.pop s = .ok ((), s1)

/-- The rounding of an instruction with head `hd` (R62, R65). -/
def State.round (s : State) (hd : VHead) : Round_ := roundOf s hd.mod.rm hd.mod.sat

/-- Tokens pushed (R166). -/
def State.pushing (s : State) (m : BitVec 8) : State := s.modCl s.here.1 fun x => (channels m).foldl (pushTok s.selfDp) x

/-- What comes after the effect: the ordinal of a stochastic rounding counts, tokens are pushed, the PC passes (R64, R166,
R209). -/
def State.vecEnd (s : State) (i : Instr) (tok : Tok) (r : Round_) : State := retire i ((countOrdinal r s).pushing tok.push)

/-- Instruction `i` with one destination runs: where its tokens and its sources `srcs` can be read, in slot order, and
`f` of the values can be written to `d`, it completes with that value written. -/
def RunsLanes (i : Instr) (hd : VHead) (dk : As) (d : Opnd) (srcs : List (As × Opnd)) (f : Round_ → List Vec → Vec) : Prop :=
  ∀ (s s1 s2 s3 : State) (vs : List Vec),
    s.vecStart hd.tok (d :: srcs.map (·.2)) s1 → readSrcs hd.ty (s.round hd) srcs s1 = .ok (vs, s2) →
    writeDst hd.ty (s.round hd) dk d (f (s.round hd) vs) s2 = .ok ((), s3) →
    exec i s = .next (s3.vecEnd i hd.tok (s.round hd))

/-- The address of the element of index `i` of an indexed access from a base with slots of `z` bits (R215). -/
def elementAddr (p : Spot) (z i : Nat) : Word := p.addr + BitVec.ofNat 64 (z * i / 8)

/-- A stream pointer at the executing engine's position, and whether that engine owns it (R153, R155). -/
def State.ptrWord (s : State) (k : BitVec 11) : Nat := ptrVal (s.cl s.here.1) k.toNat ((s.cl s.here.1).walk s.here.2).dp
def State.ownsPtr (s : State) (k : BitVec 11) : Prop := bits (s.ptrWord k) 63 61 ≠ 0 ∧ bits (s.ptrWord k) 63 61 = engNum s.here.2

/-- The bit at which element `i` of a column run of slots of `z` bits lies, and whether a run of `n` fits at an offset (R109,
R206). -/
def colSlot (z off i : Nat) : Nat :=
  if z ≤ 16 then
    let cell := bits off 12 7 + i / (16 / z)
    8 * (off / 8192 * 8192 + 128 * (cell % 64) + 2 * (bits off 6 1 + cell / 64)) + z * (i % (16 / z))
  else 8 * (off / 8192 * 8192 + 128 * (off % 8192 / 128 + i) + off % 128)
def colFits (z off n : Nat) : Prop :=
  if z ≤ 16 then
    let m := (n + 16 / z - 1) / (16 / z)
    off % 2 = 0 ∧ bits off 12 7 % min m 64 = 0 ∧ bits off 6 1 + (m + 63) / 64 ≤ 64
  else n * z = 1024 ∧ off % (z / 8) = 0 ∧ off / 128 % n = 0

/-- Element `i` of an indexed access lies at bit `b` of the scratchpad of cluster `c`, in a bank of slots of `z` bits, and
for a raw access of narrow codes; no command owes its line, and no bit there is in error (R121, R215). -/
def elementAt (s : State) (p : Spot) (z : Nat) (t : Ty) (i c b : Nat) : Prop :=
  (∃ off, coord s s.selfCtx s.selfCl (elementAddr p z i).toNat false = .ok (c, off) ∧ b = 8 * off + z * i % 8)
    ∧ inBanks (s.cl c) (b / 8) = true ∧ slotBits (fmtWordOf s c (b / 8 / 65536)) = z
    ∧ (t.isN = true → bits (fmtWordOf s c (b / 8 / 65536)) 3 0 = 11)
    ∧ away s s.selfCtx c = false ∧ owedLine (s.cl c) (b / 1024) = false ∧ (s.cl c).bad = []

/-- The format word of a place, and the width of its slots. -/
def State.wordAt (s : State) (p : Spot) : Nat := fmtWordOf s p.cl (p.off / 65536)
def State.widthAt (s : State) (p : Spot) : Nat := slotBits (s.wordAt p)

/-- A field of `n` fields of a packed string by a pattern (R67, R219): extracted, or raw for `.nf`. -/
def fieldLane (t : Ty) (r : Round_) (f : Fmt) (q : Pattern) (base str j : Nat) : Nat :=
  let c := str / 2 ^ (q.at base j).1 % 2 ^ (q.at base j).2
  if t.isN then c else convert f (fmtTy t) (r.rm j) r.sat c

/-- Where a bit-field form can take its format and its pattern, captured at issue (R219). -/
def State.patternAt (s1 : State) (t : Ty) (fmt : BitVec 32) (c : Opnd) (base n len : Nat) (f : Fmt) (q : Pattern)
    (s2 : State) : Prop :=
  extFormat t fmt s1 = .ok (f, s1) ∧ readPattern c s1 = .ok (q, s2) ∧ q.fits base n len = true

/-- A virtual line access that device memory serves without L1 and without a check (R217). -/
def State.deviceLine (s : State) (a : Word) (write : Bool) (s2 : State) (p : Nat) : Prop :=
  bits a.toNat 63 48 = 0 ∧ a.toNat % 128 = 0 ∧
    ∃ x, translate s.who a.toNat write false s = .ok (s2, x) ∧ x.tgt = .dev p ∧ x.chk = false ∧ (write = false → x.cache = false)
      ∧ (if write then mergeCause s2 p 128 = none else sectorCause s2 p 128 = none)

/-! ### Matrices -/

/-- What comes after the effect of an M instruction without a rounding of its own. -/
def State.matEnd (u s : State) (i : Instr) (tok : Tok) : State := u.vecEnd i tok (roundOf s 0#3 false)

/-- No step of the product at the M PC's position has been done yet (R265). -/
def unbegun (s : State) : Prop := ∀ q, (s.cl s.selfCl).progress = some q → q.dp ≠ s.selfDp

/-- Every step of a product done, and its progress cleared (R265). -/
def doneSteps (l : List MStep) (s : State) : State :=
  let u := l.foldl (fun (u : State) (m : MStep) => m.2.2 u) s
  u.modCl u.selfCl fun x => { x with progress := none }

/-- The tiles of the executing task's grove. -/
def State.myTiles (s : State) : List Tile := (s.cl s.selfCl).grove.tiles.map fun k => s.tile (dieOf s.selfCl) k

/-- A product instruction into set `acc` runs: where its steps can be taken and none is done yet, every step is done, and it
passes. A parity error in the set raises 0xC6, and wrong sums in checked mode 0xC5, by the rollback route (R260). -/
def RunsProduct (i : Instr) (tok : Tok) (acc : BitVec 2) (act : Act (List MStep)) : Prop :=
  ∀ (s s1 s2 : State) (l : List MStep), s.vecStart tok [] s1 → act s1 = .ok (l, s2) →
    let parity : Prop := ∃ t ∈ s2.myTiles, ∃ e ∈ t.accBad, e / 4096 = acc.toNat
    let wrong : Prop := (s2.cl s2.selfCl).grove.checked = true ∧ ∃ t ∈ s2.myTiles, t.upset = true
    (parity → exec i s = .next (s.raiseSelfCheck 0xC6#8))
      ∧ (¬ parity → wrong → exec i s = .next (s.raiseSelfCheck 0xC5#8))
      ∧ (¬ parity → ¬ wrong → unbegun s2 → exec i s = .next ((doneSteps l s2).matEnd s i tok))

/-- A slab of a tile that a product of type `t` may take as a source (R235, R250): full, of an admitted format of the
product's kind, with no line in error and both slabs of an FP32 source. -/
def slabSource (t : Ty) (x : Tile) (sl : Nat) : Prop :=
  (∀ n, n < 64 → x.state sl n = .full) ∧ x.lineBad = [] ∧ wordAdmitted (x.tag sl) = true ∧ wordInt (x.tag sl) = (t == .i32)
    ∧ (bits (x.tag sl) 3 0 = 10 → sl % 2 = 0 ∧ x.tag (sl + 1) = x.tag sl ∧ ∀ n, n < 64 → x.state (sl + 1) n = .full)

/-- A slab that may hold block scales (R252): full, of format BF16. -/
def slabScales (x : Tile) (sl : Nat) : Prop := (∀ n, n < 64 → x.state sl n = .full) ∧ x.lineBad = [] ∧ bits (x.tag sl) 3 0 = 9

/-- The slabs of a grove moved around their torus after `mrot` (R251): sa by a column, sb by a row. -/
def rotated (s1 : State) (cl sa sb : Nat) (u : State) : State :=
  let g := (s1.cl cl).grove
  rotateSlab cl sb (fun r c => ((r + 1) % g.h, c)) (rotateSlab cl sa (fun r c => (r, (c + 1) % g.w)) u)

/-- The address that index `i` of tile row `r` of a gather names, where it names one (R254). -/
def gatherAddr (base : Nat) (idx : Vec) (i : Nat) : Option Nat :=
  let x := idx.toNat / 2 ^ (16 * i) % 2 ^ 16
  if x = 0xFFFF then none else some ((base + 128 * x) % 2 ^ 64)

/-- The accumulators of set `n` of a tile agree with the tile's checksum cells (R260). -/
def cellsHold (t : Tile) (n : Nat) : Prop :=
  let u := t.writeSet n (t.ints.getLsbD n) (t.elem n)
  ∀ c, c < 128 → KMap.getD t.cells (128 * n + c) ⟨0, 0⟩ = KMap.getD u.cells (128 * n + c) ⟨0, 0⟩

/-- Line `n` of the block at `off`: a row, or with `col` a column (R248). -/
def blockLine (x : Cluster) (off : Nat) (col : Bool) (n : Nat) : List Byte :=
  if col then (List.range 64).flatMap fun c => sramRead x (off + 128 * c + 2 * n) 2 else sramRead x (off + 128 * n) 128

/-! ### Commands -/

/-- A C instruction that issues a command: its form, its queue, its opcode and the checks of its fields at issue. -/
structure IssueRow where
  form : Pred → Reg → Reg → Reg → Reg → Reg → Reg → Instr
  unit : Unit6
  op : Nat
  check : Cmd → Act Cmd

def issueRows : List IssueRow := [
  ⟨.ecopy, .copy, 0, checkEcopy⟩,
  ⟨.egath, .copy, 1, checkIndexed⟩,
  ⟨.escat, .copy, 2, checkIndexed⟩,
  ⟨.eacc, .copy, 3, checkEacc⟩,
  ⟨.emark, .copy, 4, checkEmark⟩,
  ⟨.eroute, .sluice, 7, checkEroute⟩,
  ⟨.ebatch, .batcher, 8, checkEbatch⟩,
  ⟨.eldred, .fabric, 9, checkEldred⟩,
  ⟨.ecarry, .fabric, 0xB, checkEcarry⟩,
  ⟨.ecoll, .collective, 0xC, checkEcoll⟩,
  ⟨.eget, .fabric, 0xD, checkEget⟩,
  ⟨.eput, .fabric, 0xE, checkEput⟩,
  ⟨.emcast, .fabric, 0xF, checkEmcast⟩,
  ⟨.eappend, .compaction, 0x10, checkEappend⟩,
  ⟨.efset, .copy, 0x14, checkEfset⟩]

/-- The executing agent has no command of an earlier execution of its instruction pending (R125). -/
def noKick (s : State) : Prop := KMap.get? (s.cl s.selfCl).kicks (agentNum s) = none

/-- A command numbered for its queue, and the state in which agent `who` has kicked it (R125, R128). -/
def numbered (c : Cmd) (n : BitVec 32) : Cmd := { c with seq := n, raw := BitVec.ofNat 1024 (putBits c.raw.toNat 1023 992 n.toNat) }
def State.kicked (s : State) (cl who : Nat) (u : Unit6) (c : Cmd) : State :=
  s.modCl cl fun x => { x.issueSeq u c.seq with kicks := KMap.set x.kicks who (Kick.mk c false) }

/-- The kick of agent `who` gone. -/
def State.unkicked (s : State) (cl who : Nat) : State := s.modCl cl fun x => { x with kicks := KMap.erase x.kicks who }

/-- An `egroup` ended: its kick and its slot are free, and its number has retired (R319). -/
def State.groupEnded (s : State) (cl who : Nat) (c : Cmd) : State :=
  s.modCl cl fun x => ({ x with
    kicks := KMap.erase x.kicks who
    cmds := x.cmds.filter fun k => !(k.unit == .fabric && k.seq == c.seq && k.gang == c.gang) } : Cluster).retireSeq .fabric c.seq

/-- The commands that the executing agent's cluster holds in the copy engine. -/
def State.copies (s : State) : List Cmd := (s.cl s.selfCl).cmds.filter fun c => c.unit == .copy

/-! ### Steps of the engines -/

/-- A held command of a queue and number, with its cluster (R128). -/
def holding (s : State) (u : Unit6) (cl : Nat) (seq : BitVec 32) (c : Cmd) : Prop := s.cmd? u cl seq = some c ∧ c.cl = cl ∧ c.unit = u

/-- The command's task is neither saved nor exited, no line that it owes waits with a spilled task, and nothing of its completion
is to be written but its number (R130). -/
def plainEnd (s : State) (c : Cmd) : Prop :=
  away s c.ctx c.cl = false ∧ exited s c = false ∧ c.cwk = 0 ∧ ∀ p ∈ s.spilled, ∀ f ∈ p.fills, f.of c = false

/-- A command has left its slot: no command of its queue and number is held, its number has retired, and its `SIG` bits are
set where `sig` (R130). -/
def hasLeft (s : State) (c : Cmd) (sig : Bool) (u : State) : Prop :=
  (∀ k ∈ (u.cl c.cl).cmds, k.same c = false)
    ∧ (c.seq = (s.cl c.cl).rtOf c.unit + 1#32 → KMap.getD (s.cl c.cl).retired (unitNum c.unit) [] = [] → (u.cl c.cl).rtOf c.unit = c.seq)
    ∧ (u.cl c.cl).scoreboard = (if sig then (s.cl c.cl).scoreboard ||| BitVec.ofNat 64 c.sigs else (s.cl c.cl).scoreboard)

/-- A round of a die with its command, which names it (R271, R278). -/
def inRound (s : State) (die ctx n : Nat) (r : Round) (c : Cmd) : Prop :=
  roundAt s die ctx n = some r ∧ r.cmd s = some c ∧ c.die = die ∧ c.ctx = ctx ∧ c.roundNum = n ∧ r.ctx = ctx ∧ r.num = n

/-- Nothing waits to be answered or sent in a round. -/
def quietRound (r : Round) : Prop := r.requests = [] ∧ ∀ x ∈ r.slots, ¬ (x.st = 1 ∧ x.sent = false)

/-- What a retiring round writes: a route record for each token, then the sender part of the report (R283 to R285). -/
def reportWrites (c : Cmd) (r : Round) : EAct Unit := do
  (List.range c.tokens).forM fun t =>
    coordPut c (c.l 767 704 + 128 * t) ((List.range 8).flatMap fun i => natLe 16 (routeSlot c r t i))
  coordPut c (c.l 703 640) (senderReport c r)

/-- What this device has to say to a sweep: appends, pops and completions of the gang's windrows, and whether all is idle
(R292). -/
def sweepNow (s : State) (gang : Nat) : Nat × Nat × Nat × Bool :=
  let t := windrowTotals s gang
  (t.1, t.2.1, t.2.2, gangIdle s gang)

/-- A sweep of a gang over, with what it keeps for the next one (R292). -/
def State.swept (s : State) (gang : Nat) (asking : Gang) (l : List (Nat × Nat × Nat × Bool)) : State :=
  { s with gangs := KMap.set (KMap.set s.gangs gang asking) gang { asking with sweepIn := [], sweeps := l } }

/-! ### The host -/

/-- The pieces of a host read, one after another: the bytes, or the cause and address of the first refused (R419). -/
def hostReads (w : Who) : List (Nat × Nat) → State → Except (BitVec 8 × Nat) (State × List Byte)
  | [], s => .ok (s, [])
  | p :: t, s =>
    match vaRead w p.1 p.2 s with
    | .error c => .error (c, p.1)
    | .ok (s1, bs) => (hostReads w t s1).map fun r => (r.1, bs ++ r.2)

/-- The pieces of a host write of bytes `bs` at `va`. -/
def hostWrites (w : Who) (va : Nat) (bs : List Byte) : List (Nat × Nat) → State → Except (BitVec 8 × Nat) State
  | [], s => .ok s
  | p :: t, s =>
    match vaWrite w p.1 ((bs.drop (p.1 - va)).take p.2) s with
    | .error c => .error (c, p.1)
    | .ok s1 => hostWrites w va bs t s1

/-- MSI-X vector `k` has been signalled: its message has left for the host, or, while it is masked, its bit is pending (R417). -/
def State.signalled (s u : State) (k : Nat) : Prop :=
  let e := (s.msixEntry k).toNat
  if bit e 96 = true then u.msix.getLsbD k = true ∧ u.hostOut = s.hostOut
  else u.hostOut = s.hostOut ++ [⟨0, bits e 63 0, natLe 4 (bits e 95 64)⟩]

/-! ### Arrivals -/

/-- A whole packet that takes effect here now: the fabric is enabled, nothing of its pair or class goes before it, its superstep is
not being rolled back or still to begin, and its context is not torn down (R299, R302, R311, R330, R355, R402). -/
def State.admitsNow (s : State) (p : Packet) : Prop :=
  fabricOn s = true ∧ behindPair s s.net p = false ∧ parkFull s p = false ∧ aborted s p = false ∧ lateOf s p = none
    ∧ afterBarrier s p = false ∧ p.part = false

end Sys2Proof.Machine
end

