-- ==== Sys2Proof/Certificates/Slice0/Obligations.lean ====
section
/-! DEFINITION. The statements for the provers: each cites in its comment the rules that it formalises. -/

open Sys2Proof Sys2Proof.Machine

/-- R18 to R35, chapter 2: every well-formed instruction of a program text is what its own words decode to, whatever
follows them. The inductive's steps that have no word (spec/95) are those whose encoding is empty. -/
def Obligations.DecodeOfEncode : Prop :=
  ∀ (i : Instr) (rest : List Parcel), wf i = true → encode i ≠ [] → decode (encode i ++ rest) = .ok i

/-- R24: what the decoder accepts is well formed, and its words are the instruction's own but for the tokens that an
instruction without a TOKEN field is decoded past. R24, chapter 2: words that no table gives are refused by cause: the
reserved length, an opcode outside the engine's table, a length that the opcode lacks, a reserved field that is not
zero, a token outside the engine's mask. -/
def Obligations.DecoderAccepts : Prop :=
  (∀ (ws : List Parcel) (i : Instr), decode ws = .ok i →
      wf i = true ∧ (encode i).length = parcelsOf (headLen (parcelAt ws 0))
        ∧ (encode i).head? = some (parcelAt ws 0))
    ∧ ((∀ ws, headLen (parcelAt ws 0) = 3#2 → decode ws = .error 0x02#8)
      ∧ (∀ ws, headLen (parcelAt ws 0) ≠ 3#2 →
          (opRows (headTag (parcelAt ws 0))).all (fun r => r.1 != headOpc (parcelAt ws 0)) = true → decode ws = .error 0x01#8)
      ∧ decode [0x00000060#32 ||| 2#32] = .error 0x03#8
      ∧ decode [0x40000020#32] = .error 0x05#8
      ∧ decode [0x3C800069#32, 0x00040402#32, 0x00024003#32] = .error 0x07#8)

/-- R18, R19, Tables 2.1 to 2.8 and 2.13 to 2.20: words written out bit by bit from the tables decode to the
instructions that they stand for, one or more of each engine tag. -/
def Obligations.DecodedWords : Prop :=
  decode [0x00000000#32] = .ok .nop
    ∧ decode [0x02043020#32] = .ok (.add 3#6 1#6 2#6)
    ∧ decode [0x00012021#32, 0x00430000#32, 0x00000002#32] = .ok (.addLong ⟨true, 2#4⟩ 3#6 1#6 (.reg 2#6))
    ∧ decode [0x00020021#32, 0x00430000#32, 0xFFFFFFFF#32] = .ok (.addLong ⟨false, 0#4⟩ 3#6 1#6 (.imm 0xFFFFFFFF#32))
    ∧ decode [0xFF043300#32] = .ok (.addi 3#6 1#6 0xFF#8)
    ∧ decode [0x23143580#32] = .ok (.ld .n64 3#6 5#6 2#4)
    ∧ decode [0xFFFFF014#32] = .ok (.b 0xFFFFF#20)
    ∧ decode [0x00072034#32] = .ok (.bk true 2#4 3#15)
    ∧ decode [0x001013E0#32] = .ok (.li 1#6 4#14)
    ∧ decode [0x002410B4#32] = .ok (.loop 1#6 9#14)
    ∧ decode [0x3C800005#32, 0x00030100#32, 0x00001000#32]
        = .ok (.vld ⟨.bf16, ⟨false, false, 7#3⟩, ⟨0#8, 1#8⟩⟩ (.v false 3#11) (.p 0#11))
    ∧ decode [0x3C800069#32, 0x00040401#32, 0x00024003#32]
        = .ok (.vmul ⟨.bf16, ⟨false, false, 7#3⟩, ⟨1#8, 4#8⟩⟩ (.v false 4#11) (.v false 3#11) (.v false 9#11))
    ∧ decode [0x3C80000D#32, 0x10010004#32, 0x00000004#32]
        = .ok (.vst ⟨.bf16, ⟨false, false, 7#3⟩, ⟨4#8, 0#8⟩⟩ (.p 1#11) (.v false 4#11))
    ∧ decode [0x05000029#32, 0x00050000#32, 0x08009003#32]
        = .ok (.vadd ⟨.f32, ⟨false, false, 0#3⟩, ⟨0#8, 0#8⟩⟩ (.v false 5#11) (.p 3#11) (.s 2#11))
    ∧ decode [0x004000F1#32, 0x00000000#32, 0x00000000#32] = .ok (.mzero ⟨0#8, 0#8⟩ 2#2)
    ∧ decode [0x00000019#32, 0x01050000#32, 0x00000000#32] = .ok (.ecopy ⟨false, 0#4⟩ 5#6 4#6 0#6 0#6 0#6 0#6)
    ∧ decode [0x0000413C#32] = .ok (.kid 4#6)

/-- R21 to R24, R161 to R170: a step of a PC that stands at an instruction that its engine executes runs that
instruction. The first turn of the agenda names PC `e` of cluster `c`; its task runs and its text offset lies in the
text; the head parcel and the rest that its length names, held since an earlier fetch or fetched now, decode to `i`;
an instruction outside the X tag does not straddle the end of an open body, and an X instruction has been executed by
the S PC first, a `vbr` steered by the A PC; the PC keeps the others within `SLIP`, nothing holds it back, and it
consumes no register in error. The PC then holds the parcels (R35). R22, R199, R381: a step of a rake thread whose
gang asks nothing for a barrier, or of a die manager core, that stands at an instruction that it executes runs that
instruction, from the parcels that it holds or fetches (R35, log 73). That a thread stops while its gang's devices
answer for a barrier is the model's (log 13). -/
def Obligations.StepRunsInstruction : Prop :=
  (∀ (s s1 s2 : State) (rest : List Turn) (c : Nat) (e : Eng) (t : Task) (h : Parcel) (ps : List Parcel) (i : Instr),
      s.agenda = .walk (.pc c e) :: rest → c < 384 →
      let s0 := s.startOf rest (.pc c e)
      let w := (s0.cl c).walk e
      (s0.cl c).task = some t → t.state = .running → (w.barred = true → w.dp < (s0.cl c).wS.dp) → w.pc < t.image.textSize →
      heldParcel w.text s0.who t w.pc s0 = .ok (s1, h) →
      let s1' := s1.holdText w.pc [h]
      heldParcels s1'.selfText s0.who t (parcelsOf (headLen h) - 1) (w.pc + 4) s1' = .ok (s2, ps) →
      let s3 := s2.holdText w.pc (h :: ps)
      decode (h :: ps) = .ok i →
      executes e (headTag h) = true → headLen h ≠ 3#2 → headTag h ≠ .K →
      (headTag h ≠ .X → straddles w (headBytes h) = false) →
      (headTag h = .X → e ≠ .S → headOpc h ≠ 0x0B#7 → w.dp < (s0.cl c).wS.dp) →
      (headTag h = .X → e ≠ .S → headOpc h = 0x0B#7 → if e = .A then (s0.cl c).vbrAt = some w.dp else w.token ≠ none) →
      slips (s0.cl c) w (headBytes h) = false →
      freeToIssue s3 c s0.who t e i → (e = .S ∨ headTag h ≠ .X → meetsBadReg s3 i = false) →
      step s = exec i s3)
    ∧ (∀ (s s1 s2 : State) (rest : List Turn) (wk : Walker) (r : Rake) (t : Task) (h : Parcel) (ps : List Parcel) (i : Instr),
      s.agenda = .walk wk :: rest →
      let s0 := s.startOf rest (actorOf wk)
      ((∃ c n, wk = .rake c n ∧ c < 384 ∧ n < 8 ∧ (s0.cl c).task = some t ∧ (t.state = .running ∨ t.state = .trapped)
          ∧ (∀ x, KMap.get? s0.gangs t.gang = some x → x.frozen = false) ∧ r = (s0.cl c).rake n)
        ∨ (∃ d, wk = .mgr d ∧ d < 4 ∧ (s0.die d).coreTask = some t ∧ r = (s0.die d).core)) →
      (r.st = .ready ∨ r.st = .recv ∨ r.st = .recvt ∨ r.st = .ksleep) → r.pc < t.image.textSize →
      heldParcel r.text s0.who t r.pc s0 = .ok (s1, h) → headLen h ≠ 3#2 →
      heldParcels s1.selfText s0.who t (parcelsOf (headLen h) - 1) (r.pc + 4) s1 = .ok (s2, ps) →
      let s3 := s2.holdText r.pc (h :: ps)
      decode (h :: ps) = .ok i →
      (headTag h = .S ∨ headTag h = .C ∨ headTag h = .K ∨ (headTag h = .X ∧ rakeX (headOpc h) = true)) →
      heldBack s3 s3.selfCl (some (agentNum s3)) (scalarAccess s3 s3.selfCtx s3.selfCl s3.rd s3.holds i) = false →
      meetsBadReg s3 i = false →
      step s = exec i s3)

/-- R149, R150: every step keeps the hard-wired registers as the spec says: where k0 is true in every cluster,
snapshot store and spilled image, it is after the step; and where s0 holds no value in them, it holds none after it.
-/
def Obligations.StepKeepsHardwired : Prop :=
  (∀ s t : State, s.k0True → step s = .next t → t.k0True) ∧ ∀ s t : State, s.s0Zero → step s = .next t → t.s0Zero

/-- spec/95: a step that comes about without a word of its own is the row's meaning on the state at the start of the
step, at which the fabric time counter has counted on by an open amount (R378, log 19). The agenda of turns is the
model's (log 1), and with it the fault of a turn that names an agent which the package lacks (NOTES, Stops; R8 gives
none); that what a register write or a task's end brings about is a step of its own is log 34. R21: a PC steps over an
instruction of another engine: it moves by the length that the head parcel names, and its signature register is not
folded. -/
def Obligations.StepTakesTurn : Prop :=
  (∀ (s : State) (rest : List Turn),
      (∀ i, s.agenda = .event i :: rest →
          step s = exec i { s.startOf rest .device with fabtime := s.fabtime + Config.elapsed s.tick })
        ∧ (∀ w, s.agenda = .walk w :: rest → hasWalker w = false → step s = .fault .noSuchAgent)
        ∧ (∀ die reg, s.agenda = .soon (.act die reg) :: rest → step s = .next (regAct die reg (s.startOf rest .device)))
        ∧ (∀ c, s.agenda = .soon (.taskEnd c) :: rest → step s = execTaskEnd c (s.startOf rest .device)))
    ∧ (∀ (s s1 : State) (c : Nat) (e : Eng) (t : Task) (h : Parcel),
      s.actor = .pc c e →
      (s.cl c).task = some t → t.state = .running → (((s.cl c).walk e).barred = true → ((s.cl c).walk e).dp < (s.cl c).wS.dp) →
      ((s.cl c).walk e).pc < t.image.textSize →
      heldParcel ((s.cl c).walk e).text s.who t ((s.cl c).walk e).pc s = .ok (s1, h) →
      headLen h ≠ 3#2 → executes e (headTag h) = false → ¬ (e = .S ∧ headTag h = .K) →
      (e = .S ∨ headOrdered h = false ∨ ((s.cl c).walk e).dp < (s.cl c).wS.dp) →
      slips (s.cl c) ((s.cl c).walk e) (headBytes h) = false →
      ∃ s2, plan (.pc c e) s = .done s2
        ∧ ((s2.cl c).walk e).dp = ((s.cl c).walk e).dp + headBytes h
        ∧ ((s2.cl c).walk e).pc = (loopEnd (((s.cl c).walk e).pc + headBytes h) ((s.cl c).walk e).loops).1
        ∧ ((s2.cl c).walk e).sig = ((s.cl c).walk e).sig
        ∧ (s2.cl c).sregs = (s.cl c).sregs ∧ s2.hbm = s.hbm)

/-- R149, R150, R161, Tables 4.6, 5.1, 5.3, 7.4, 7.5, 10.8, 12.15 and 15.11: what the machine holds after reset. The
spec gives these values but for the zeros of `tpend`, `tctl`, `ctxctl` and `hapctl` and of the flags and scoreboard of
a cluster without a task, which are the model's (log 5: Tables 4.13, 16.4 and 18.2 give none). The canonical form of
the memories (log 4), the hard-wired predicate and the hard-wired register hold after reset. -/
def Obligations.ResetState : Prop :=
  ((∀ c, (State.reset.cl c).slipw = 0x1000#32 ∧ (State.reset.cl c).tkcnt = 0#32 ∧ (State.reset.cl c).sramcfg = 0#32
        ∧ (State.reset.cl c).preds.getLsbD 0 = true ∧ (State.reset.cl c).task = none ∧ (State.reset.cl c).flags = 0#4096
        ∧ (State.reset.cl c).scoreboard = 0#64)
      ∧ (∀ d, (State.reset.die d).l2pin = 0#64 ∧ (State.reset.die d).tpend = 0#96 ∧ (State.reset.die d).evring = 0#64
        ∧ (State.reset.die d).tctl = 0#64 ∧ (State.reset.die d).rpol = [])
      ∧ State.reset.dplace = 0#128 ∧ State.reset.ctxctl = 0#64 ∧ State.reset.fabcfg = 0#64 ∧ State.reset.hapctl = 0#64
      ∧ State.reset.stage = 0#3 ∧ State.reset.contexts = [])
    ∧ (State.reset.memoryWf ∧ State.reset.k0True ∧ State.reset.s0Zero)

/-- Every step keeps every memory of the package in its canonical form: addresses strictly rising, and no byte listed
that reads as an unlisted one does (the model's form, log 4), for device memory (R76), scratchpads (R107), pinned
spaces (R103), mailboxes (R420) and spilled images (R393). -/
def Obligations.StepKeepsMemoryForm : Prop :=
  ∀ (s t : State), s.memoryWf → step s = .next t → t.memoryWf

/-- R149: s0 reads zero, and a write to it is discarded, for every agent. R149, R151: a register that an agent with
registers writes holds the value, and no other register of that agent and no register of another cluster, thread or
core changes. R150: k0 reads true, and a write to it is discarded, for every agent. R150, R176: a predicate that an
agent with predicates writes reads as written, and no other predicate changes. -/
def Obligations.RegistersWrite : Prop :=
  (∀ (s : State) (v : Word),
      s.rd 0#6 = 0#64
        ∧ (∀ n, n ≠ 0#6 → (s.wr 0#6 v).rd n = s.rd n)
        ∧ (s.wr 0#6 v).hbm = s.hbm ∧ (s.wr 0#6 v).preds = s.preds)
    ∧ (∀ (s : State) (n : Reg) (v : Word),
      (match s.actor with | .pc _ e => e = .S | .device => False | _ => True) → n ≠ 0#6 →
      (s.wr n v).regOf s.actor n.toNat = v
        ∧ (∀ m, m ≠ n.toNat → (s.wr n v).regOf s.actor m = s.regOf s.actor m)
        ∧ Moved s (s.wr n v))
    ∧ (∀ (s : State) (b : Bool),
      s.rdK 0#4 = true ∧ (s.wrK 0#4 b).rdK 0#4 = true ∧ (∀ k, k ≠ 0#4 → (s.wrK 0#4 b).rdK k = s.rdK k))
    ∧ (∀ (s : State) (k : PIdx) (b : Bool),
      (match s.actor with | .pc _ e => e = .S | .device => False | _ => True) → k ≠ 0#4 →
      (s.wrK k b).rdK k = b ∧ (∀ j, j ≠ k → (s.wrK k b).rdK j = s.rdK j) ∧ Moved s (s.wrK k b))

/-- R48, R161, R165: passing an instruction of a PC moves it by the instruction's length, or back to the start of a
body whose end it reaches with passes left, and folds its signature register; the other PCs stay where they are. R48,
R49, R50, R381: `sigchk` compares the inverted signature register with its word of the table entry; where they agree,
the register is set to all ones, and where they do not, 0xC4 is raised by the rollback route. A die manager core takes
the entry from its kernel's image. An entry beyond the table raises 0x06. -/
def Obligations.Signature : Prop :=
  (∀ (s : State) (c : Nat) (e : Eng) (i : Instr), s.actor = .pc c e →
      let w := (s.cl c).walk e
      let w' := ((retire i s).cl c).walk e
      w'.dp = w.dp + lenOf i ∧ w'.pc = (loopEnd (w.pc + lenOf i) w.loops).1 ∧ w'.loops = (loopEnd (w.pc + lenOf i) w.loops).2
        ∧ w'.sig = foldSig w.sig i
        ∧ (∀ e', e' ≠ e → (((retire i s).cl c).walk e').pc = ((s.cl c).walk e').pc
            ∧ (((retire i s).cl c).walk e').dp = ((s.cl c).walk e').dp
            ∧ (((retire i s).cl c).walk e').sig = ((s.cl c).walk e').sig)
        ∧ Moved s (retire i s))
    ∧ (∀ (s : State) (n : BitVec 20),
      let judged (s1 : State) (bs : List Byte) : Prop :=
        exec (.sigchk n) s = .next
          (if leNat bs = (~~~ s.selfSig).toNat then retire (.sigchk n) (resetSig s1) else s.raiseSelfCheck 0xC4#8)
      (sigCount s ≤ n.toNat → exec (.sigchk n) s = .next (s.raise 0x06#8 0#64))
        ∧ (n.toNat < sigCount s → staysInBody (.sigchk n) s →
            (∀ c off s1, (∀ d, s.actor ≠ .mgr d) →
              s.place ((s.cl s.selfCl).sigtab + BitVec.ofNat 64 (32 * n.toNat + 4 * sigWordIdx s)) 4 = .ok (c, off) →
              away s s.selfCtx c = false → inBanks (s.cl c) off = true → owedLine (s.cl c) (off / 128) = false →
              rowsEcc c [off / 128] s = some s1 → judged s1 (sramRead (s.cl c) off 4))
            ∧ (∀ d t s1 bs, s.actor = .mgr d → (s.die d).coreTask = some t →
                vaRead s.who (t.image.sigVa + 32 * n.toNat) 4 s = .ok (s1, bs) → judged s1 bs)))

/-- R172, R173: every two-operand instruction of Table 8.2 runs for every operand and writes the table's result to
s[D]; the 96-bit form takes s[B] or sext(IMM32) and executes under its predicate. R173: `clz`, `popc` and `sext` run
for every operand and write Table 8.2's result. R174: the immediate forms sign-extend IMM8 or IMM32 and take the
function of Table 8.2; a shift takes a count of 0 to 63. R175: `li` writes sext(IMM14), or sext(IMM32) in the 96-bit
form; `li.hi` writes IMM32 to bits [63:32] and keeps bits [31:0]. R176: every comparison runs for every operand and
writes its truth to k[D]. -/
def Obligations.ScalarArithmetic : Prop :=
  (∀ r ∈ aluRows, ∀ (s : State) (d a : Reg),
      (∀ b : Reg, exec (r.short d a b) s = .next (retire (r.short d a b) (s.wr d (r.val (s.rd a) (s.rd b)))))
        ∧ (∀ (p : Pred) (b : RegOrImm), s.holds p = true →
            exec (r.long p d a b) s = .next (retire (r.long p d a b) (s.wr d (r.val (s.rd a) (s.rdRI b))))))
    ∧ (∀ r ∈ unaryRows, ∀ (s : State) (d a : Reg),
      exec (r.short d a) s = .next (retire (r.short d a) (s.wr d (r.val (s.rd a))))
        ∧ (∀ p : Pred, s.holds p = true → exec (r.long p d a) s = .next (retire (r.long p d a) (s.wr d (r.val (s.rd a))))))
    ∧ (∀ r ∈ immRows, ∀ (s : State) (d a : Reg),
      (∀ i : BitVec 8, (r.shift = true → i.toNat < 64) →
          exec (r.short d a i) s = .next (retire (r.short d a i) (s.wr d (r.val (s.rd a) (i.signExtend 64)))))
        ∧ (∀ (p : Pred) (i : BitVec 32), (r.shift = true → i.toNat < 64) → s.holds p = true →
          exec (r.long p d a i) s = .next (retire (r.long p d a i) (s.wr d (r.val (s.rd a) (i.signExtend 64))))))
    ∧ (∀ (s : State) (d : Reg),
      (∀ i : BitVec 14, exec (.li d i) s = .next (retire (.li d i) (s.wr d (i.signExtend 64))))
        ∧ (∀ (p : Pred) (i : BitVec 32), s.holds p = true →
            exec (.liLong p d i) s = .next (retire (.liLong p d i) (s.wr d (i.signExtend 64)))
              ∧ exec (.liHi p d i) s = .next (retire (.liHi p d i) (s.wr d (i ++ (s.rd d).setWidth 32)))))
    ∧ (∀ r ∈ cmpRows, ∀ (s : State) (k : PIdx) (a : Reg),
      (∀ b : Reg, exec (r.short k a b) s = .next (retire (r.short k a b) (s.wrK k (r.test (s.rd a) (s.rd b)))))
        ∧ (∀ (p : Pred) (b : RegOrImm), s.holds p = true →
            exec (r.long p k a b) s = .next (retire (r.long p k a b) (s.wrK k (r.test (s.rd a) (s.rdRI b))))))

/-- R177: the predicate instructions. `kget` writes Σ k[i]·2^i with bits 63 to 16 zero; `kset` sets k1 to k15 from
bits 1 to 15 of s[A], and bit 0 has no effect. R30: an instruction under a false predicate passes with no other
effect. R182: `cid` writes id + 2^32 d + 2^40 y + 2^48 x of the executing cluster; it never traps. R182, Table 4.1:
`nearad` writes the relative coordinate address with `OFFSET` s[A][21:0], `DX` sext(b[7:0]) and `DY` sext(b[15:8]);
outside -11 to 11 and -7 to 7 it raises 0x24. b is s[B] or sext(IMM32). R182, Table 4.1: `clad` writes the absolute
coordinate address of the cluster whose id is b, with `OFFSET` s[A][21:0]; a b above 383 raises 0x24. -/
def Obligations.PredicateInstructions : Prop :=
  (∀ (s : State) (d a b : PIdx) (r : Reg),
      exec (.pand d a b) s = .next (retire (.pand d a b) (s.wrK d (s.rdK a && s.rdK b)))
        ∧ exec (.por d a b) s = .next (retire (.por d a b) (s.wrK d (s.rdK a || s.rdK b)))
        ∧ exec (.pxor d a b) s = .next (retire (.pxor d a b) (s.wrK d (s.rdK a != s.rdK b)))
        ∧ exec (.pnot d a) s = .next (retire (.pnot d a) (s.wrK d (!s.rdK a)))
        ∧ (∃ v, exec (.kget r) s = .next (retire (.kget r) (s.wr r v))
            ∧ ∀ n, v.getLsbD n = (decide (n < 16) && s.rdK (BitVec.ofNat 4 n)))
        ∧ (∃ q, exec (.kset r) s = .next (retire (.kset r) (s.setPreds q))
            ∧ ∀ n, 1 ≤ n → n < 16 → q.getLsbD n = (s.rd r).getLsbD n))
    ∧ (∀ (i : Instr) (p : Pred) (s : State), predOf i = some p → s.holds p = false →
      exec i s = .next (retire i s))
    ∧ (∀ (s : State) (r : Reg) (d y x : Nat), d < 4 → y < 8 → x < 12 → s.selfCl = clusterId d y x →
      let v : Word := BitVec.ofNat 64 (clusterId d y x + 2 ^ 32 * d + 2 ^ 40 * y + 2 ^ 48 * x)
      exec (.cid r) s = .next (retire (.cid r) (s.wr r v))
        ∧ ∀ p, s.holds p = true → exec (.cidLong p r) s = .next (retire (.cidLong p r) (s.wr r v)))
    ∧ (∀ (s : State) (d a b : Reg) (p : Pred) (o : RegOrImm), s.holds p = true →
      let near (b : Word) : Option Word :=
        let dx := (b.extractLsb' 0 8).toInt
        let dy := (b.extractLsb' 8 8).toInt
        if -11 ≤ dx ∧ dx ≤ 11 ∧ -7 ≤ dy ∧ dy ≤ 7 then
          some ((BitVec.ofInt 4 dy ++ BitVec.ofInt 5 dx ++ 0#1 ++ (s.rd a).extractLsb' 0 22).signExtend 64)
        else none
      exec (.nearad d a b) s = .next (match near (s.rd b) with
          | some v => retire (.nearad d a b) (s.wr d v)
          | none => s.raise 0x24#8 0#64)
        ∧ exec (.nearadLong p d a o) s = .next (match near (s.rdRI o) with
          | some v => retire (.nearadLong p d a o) (s.wr d v)
          | none => s.raise 0x24#8 0#64))
    ∧ (∀ (s : State) (r a b : Reg) (p : Pred) (o : RegOrImm), s.holds p = true →
      (∀ d y x : Nat, d < 4 → y < 8 → x < 12 →
        let v : Word := 1#32 ++ BitVec.ofNat 2 d ++ BitVec.ofNat 3 y ++ BitVec.ofNat 4 x ++ 0#1 ++ (s.rd a).extractLsb' 0 22
        ((s.rd b).toNat = clusterId d y x → exec (.clad r a b) s = .next (retire (.clad r a b) (s.wr r v)))
          ∧ ((s.rdRI o).toNat = clusterId d y x → exec (.cladLong p r a o) s = .next (retire (.cladLong p r a o) (s.wr r v))))
        ∧ (383 < (s.rd b).toNat → exec (.clad r a b) s = .next (s.raise 0x24#8 0#64))
        ∧ (383 < (s.rdRI o).toNat → exec (.cladLong p r a o) s = .next (s.raise 0x24#8 0#64)))

/-- R100 to R102, R405 to R408: errors of storage. A row with one bit in error, or with errors that are each alone in
their column, is corrected, written back and counted, with every byte as it was; another row is uncorrectable, and
what would land on it is not written. A poisoned sector gives 0xC1 or 0xC2 to a read, and to a write of part of it; a
write of all of it makes it good again. A struck table takes its port down. An access is performed in the set of its
line's home slice, in an unpinned way, its sectors are valid there, and dirty where they were written; no byte changes
by that. Which errors the second attempt corrects (log 72) and that L2 and a stack share one copy of the data (log 74)
are the model's readings. -/
def Obligations.StorageErrors : Prop :=
  (∀ (x : Cluster) (n : Nat),
      let e := rowErrors x n
      let alone (b : Nat) : Prop := (colErrors x (colOfBit b)).length = 1
      ((e.length ≤ 1 ∨ ∀ b ∈ e, alone b) → ∃ y, rowEcc x n = some y ∧ rowErrors y n = [] ∧ y.sram = x.sram ∧ y.sregs = x.sregs
          ∧ ∀ b, b / 1024 ≠ n → (b ∈ y.bad ↔ b ∈ x.bad))
        ∧ (1 < e.length → (∃ b ∈ e, ¬ alone b) → rowEcc x n = none))
    ∧ (∀ (s : State) (cl n : Nat) (y : Cluster), rowEcc (s.cl cl) n = some y → ∃ u, rowsEcc cl [n] s = some u
      ∧ counterValue u (dieOf cl) 129 = counterValue s (dieOf cl) 129 + BitVec.ofNat 64 (rowErrors (s.cl cl) n).length
      ∧ ∀ c a, u.spByte c a = s.spByte c a)
    ∧ (∀ (s : State) (f : Fill) (cl n : Nat), landable s (.sram cl n) = some f → rowEcc (s.cl cl) n = none →
      ∃ u, exec (.lineLanding (.sram cl n)) s = .next u ∧ ∀ c a, u.spByte c a = s.spByte c a)
    ∧ (∀ (s : State) (k : Nat) (hard : Bool), k < 2 ^ 34 →
      let u := strike (.hbm k hard) s
      let d := homeDie s (32 * k)
      u.hbm = s.hbm ∧ (hard = true → k ∈ u.poisoned ∧ (k ∉ s.poisoned → counterValue u d 134 = counterValue s d 134 + 1#64))
        ∧ (hard = false → u.poisoned = s.poisoned ∧ counterValue u d 131 = counterValue s d 131 + 1#64))
    ∧ (∀ (s : State) (w : Who) (va a : Nat) (bs : List Byte) (x : Xlat) (sync : Bool),
      (∀ c, sectorCause s a bs.length = some c → devRead w va a bs.length x s = .error c ∧ (c = 0xC1#8 ∨ c = 0xC2#8))
        ∧ (sectorCause s a bs.length = none → x.chk = false →
          devRead w va a bs.length x s = .ok (l2Read a bs.length s, s.hbmRead a bs.length))
        ∧ (∀ c, mergeCause s a bs.length = some c → devWrite w va a bs sync x s = .error c)
        ∧ (mergeCause s a bs.length = none → x.chk = false → devWrite w va a bs sync x s = .ok (devStore a bs s))
        ∧ (a + bs.length ≤ 2 ^ 39 → let u := devStore a bs s
          (∀ k, a ≤ 32 * k → 32 * k + 32 ≤ a + bs.length → k ∉ u.poisoned ∧ k ∉ u.l2bad)
            ∧ ∀ b, Mem.byte u.hbm b = if a ≤ b ∧ b < a + bs.length then bs.getD (b - a) 0#8 else Mem.byte s.hbm b))
    ∧ (∀ (s : State) (port : Nat), strike (.table port) s = if (s.port port).up then portDown port s else s)
    ∧ (∀ (s : State) (a n : Nat), (l2Read a n s).hbm = s.hbm ∧ (l2Write a n s).hbm = s.hbm
      ∧ (a < 2 ^ 39 → l2Key s a = (128 * homeDie s a
        + (bits a 13 7 ^^^ bits a 20 14 ^^^ bits a 27 21 ^^^ bits a 34 28 ^^^ bits a 38 35)) * 384 + bits a 38 14 % 384))
    ∧ ∀ (s : State) (line : Nat) (fill whole part : BitVec 4),
      let pin := pinWays s (homeDie s (128 * line))
      let key := l2Key s (128 * line)
      let ls := KMap.getD s.l2 key []
      let u := l2One line fill whole part s
      let sound (l : List L2Line) : Prop := (∀ x ∈ l, pin ≤ x.way ∧ x.way < 16) ∧ (l.map (·.way)).Nodup
      let bad := sectorMask line fun b => s.poisoned.contains (b / 32)
      (∀ j, j ≠ key → KMap.getD u.l2 j [] = KMap.getD s.l2 j [])
        ∧ (sound ls → pin < 16 → sound (KMap.getD u.l2 key []) ∧ ∃ x ∈ KMap.getD u.l2 key [], x.line = line
          ∧ whole &&& ~~~ x.valid = 0#4 ∧ whole &&& ~~~ x.dirty = 0#4 ∧ fill &&& ~~~ (x.valid ||| bad) = 0#4)

/-- R30, R149, R172 to R177: what the instructions of chapter 8 that write one register leave unchanged: every other
register, every predicate, and everything of the machine outside the executing agent. R30, R150, R176, R177: what the
instructions that write predicates leave unchanged: every register, every predicate outside those they name, and
everything of the machine outside the executing agent. -/
def Obligations.ScalarFrame : Prop :=
  (∀ (i : Instr) (d : Reg) (s t : State), regResult i = some d → exec i s = .next t →
      Moved s t ∧ t.preds = s.preds ∧ (∀ n, n ≠ d.toNat → t.regOf s.actor n = s.regOf s.actor n)
        ∧ (∀ a, Mem.byte t.hbm a = Mem.byte s.hbm a)
        ∧ (∀ c a, Mem.byte (t.cl c).sram a = Mem.byte (s.cl c).sram a))
    ∧ (∀ (i : Instr) (m : BitVec 16) (s t : State), predResult i = some m → exec i s = .next t →
      Moved s t ∧ (∀ n, t.regOf s.actor n = s.regOf s.actor n)
        ∧ (∀ k : PIdx, m.getLsbD k.toNat = false → t.rdK k = s.rdK k)
        ∧ (∀ a, Mem.byte t.hbm a = Mem.byte s.hbm a)
        ∧ (∀ c a, Mem.byte (t.cl c).sram a = Mem.byte (s.cl c).sram a))

/-- R178, R179, R371: `ld` from a scratchpad of a granted cluster, at an aligned address in its banks whose line is
not owed, writes the element extended to s[D]. Its fetch corrects what the line's codes can; a line beyond them raises
0xC0 by the rollback route (R406). A line without an error needs no correction. R117, R178: `ld` from the flag array
reads a flag's word, bit 0 the flag and the others zero, as an acquire that empties L1. R178: `ldg` from device memory
through an unchecked page that L1 does not cache, in sectors without an uncorrectable error, writes the element
extended to s[D]. R118, R178: `ldg` of a device line that L1 holds takes the line's bytes from L1, where they show no
parity error. -/
def Obligations.ScalarLoads : Prop :=
  (∀ (s : State) (t : Ty) (d : Reg) (a : Word) (i : Instr) (c off : Nat),
      ldRow.form s t d a i → s.place a (bytesOf t) = .ok (c, off) → away s s.selfCtx c = false →
      inBanks (s.cl c) off = true → owedLine (s.cl c) (off / 128) = false →
      (∀ s1, rowsEcc c [off / 128] s = some s1 →
          exec i s = .next (retire i (s1.wr d (loaded t (sramRead (s.cl c) off (bytesOf t))))))
        ∧ (rowsEcc c [off / 128] s = none → exec i s = .next (s.raiseSelfCheck 0xC0#8))
        ∧ ((s.cl c).bad = [] → rowsEcc c [off / 128] s = some s))
    ∧ (∀ (s : State) (t : Ty) (d : Reg) (a : Word) (i : Instr) (c n : Nat),
      ldRow.form s t d a i → t = .n32 → s.place a 4 = .ok (c, 0x300000 + 4 * n) → away s s.selfCtx c = false → n < 4096 →
      exec i s = .next (retire i (s.freshL1.wr d (if (s.cl c).flags.getLsbD n then 1#64 else 0#64))))
    ∧ (∀ (s s1 : State) (t : Ty) (d : Reg) (a : Word) (i : Instr) (x : Xlat) (p : Nat),
      ldgRow.form s t d a i → bits a.toNat 63 48 = 0 → a.toNat % bytesOf t = 0 →
      translate { s.who with wide := true } a.toNat false false s = .ok (s1, x) → x.tgt = .dev p → x.chk = false →
      x.cache = false → sectorCause s1 p (bytesOf t) = none →
      exec i s = .next (retire i ((l2Read p (bytesOf t) s1).wr d (loaded t (s1.hbmRead p (bytesOf t))))))
    ∧ (∀ (s s1 : State) (t : Ty) (d : Reg) (a : Word) (i : Instr) (x : Xlat) (p c : Nat) (l : L1Line),
      ldgRow.form s t d a i → bits a.toNat 63 48 = 0 → a.toNat % bytesOf t = 0 → s.who.cl = some c →
      translate { s.who with wide := true } a.toNat false false s = .ok (s1, x) → x.tgt = .dev p → x.cache = true →
      (s1.cl c).l1.find? (fun l => l.line == p / 128) = some l → Config.l1Parity s1.tick (p / 128) = false →
      exec i s = .next (retire i (s1.wr d (loaded t ((l.data.drop (p % 128)).take (bytesOf t))))))

/-- R116, R143, R178, R179, R371: `st` to a scratchpad of a granted cluster, at an aligned address in its banks whose
line is not owed and whose errors its codes correct, stores the low bytes of s[D] there; every other byte of every
scratchpad, and where no undo record is due every byte of device memory, is as before, and no register or predicate
changes. R117, R179: `st` of a 32-bit word to the flag array writes bit 0 of the word to the flag and no other flag,
and no byte of memory. R178, R179: `stg` to device memory through an unchecked page stores the low bytes of s[D] at
the page's address; every other byte of device memory is as before, and no register or predicate changes. -/
def Obligations.ScalarStores : Prop :=
  (∀ (s : State) (t : Ty) (d : Reg) (a : Word) (i : Instr) (c off : Nat),
      stRow.form s t d a i → s.place a (bytesOf t) = .ok (c, off) → away s s.selfCtx c = false →
      inBanks (s.cl c) off = true → owedLine (s.cl c) (off / 128) = false → (rowsEcc c [off / 128] s).isSome = true →
      ∃ u, exec i s = .next u
        ∧ sramRead (u.cl c) off (bytesOf t) = natLe (bytesOf t) (s.rd d).toNat
        ∧ (∀ c' x, ¬ (c' = c ∧ off ≤ x ∧ x < off + bytesOf t) → u.spByte c' x = s.spByte c' x)
        ∧ (heartwood s c (off / 128) = false → ∀ x, Mem.byte u.hbm x = Mem.byte s.hbm x)
        ∧ (∀ n, u.regOf s.actor n = s.regOf s.actor n) ∧ u.preds = s.preds
        ∧ (∀ c', (u.cl c').flags = (s.cl c').flags))
    ∧ (∀ (s : State) (t : Ty) (d : Reg) (a : Word) (i : Instr) (c n : Nat),
      stRow.form s t d a i → t = .n32 → s.place a 4 = .ok (c, 0x300000 + 4 * n) → away s s.selfCtx c = false → n < 4096 →
      ∃ u, exec i s = .next u
        ∧ (u.cl c).flags.getLsbD n = (s.rd d).getLsbD 0
        ∧ (∀ m, m ≠ n → (u.cl c).flags.getLsbD m = (s.cl c).flags.getLsbD m)
        ∧ (∀ c', c' ≠ c → (u.cl c').flags = (s.cl c').flags)
        ∧ (∀ c' x, u.spByte c' x = s.spByte c' x) ∧ u.hbm = s.hbm)
    ∧ (∀ (s s1 : State) (t : Ty) (d : Reg) (a : Word) (i : Instr) (x : Xlat) (p : Nat),
      stgRow.form s t d a i → bits a.toNat 63 48 = 0 → a.toNat % bytesOf t = 0 →
      translate { s.who with wide := true } a.toNat true false s = .ok (s1, x) → x.tgt = .dev p → x.chk = false →
      mergeCause s1 p (bytesOf t) = none →
      ∃ u, exec i s = .next u
        ∧ u.hbmRead p (bytesOf t) = natLe (bytesOf t) (s.rd d).toNat
        ∧ (∀ y, ¬ (p ≤ y ∧ y < p + bytesOf t) → Mem.byte u.hbm y = Mem.byte s.hbm y)
        ∧ (∀ c' y, u.spByte c' y = s.spByte c' y)
        ∧ (∀ n, u.regOf s.actor n = s.regOf s.actor n) ∧ u.preds = s.preds)

/-- R80, R81, R178, Table 4.7: a scalar access whose coordinate address does not name a place of a cluster that the
context reaches takes the trap of its cause, with its address; a misaligned one takes 0x28; an offset that no range of
the local space covers takes 0x27. R178, R386, Table 4.7: a virtual access with address bits 63 to 48 set takes 0x23,
a misaligned one 0x28, and one whose translation fails the translation's cause, each with the address; an error of
storage that the walk meets goes by the rollback route (R407), and a walk that meets an owed line waits. -/
def Obligations.AccessTraps : Prop :=
  (∀ (s : State) (t : Ty) (d : Reg) (a : Word) (i : Instr), (ldRow.form s t d a i ∨ stRow.form s t d a i) →
      (∀ e, s.place a (bytesOf t) = .error e → exec i s = .next (s.raise e a))
        ∧ (∀ c off, s.place a (bytesOf t) = .ok (c, off) → away s s.selfCtx c = false → inBanks (s.cl c) off = false →
            inFlags off = false → inKick off = false → exec i s = .next (s.raise 0x27#8 a)))
    ∧ (∀ (s : State) (t : Ty) (d : Reg) (a : Word) (i : Instr) (w : Bool),
      (if w then stgRow.form s t d a i else ldgRow.form s t d a i) →
      (bits a.toNat 63 48 ≠ 0 → exec i s = .next (s.raise 0x23#8 a))
        ∧ (bits a.toNat 63 48 = 0 → a.toNat % bytesOf t ≠ 0 → exec i s = .next (s.raise 0x28#8 a))
        ∧ (∀ e, bits a.toNat 63 48 = 0 → a.toNat % bytesOf t = 0 →
            translate { s.who with wide := true } a.toNat w false s = .error e → exec i s = .next
              (if e = owedCause then s.noteWait .owed else if 0xC0#8 ≤ e ∧ e ≤ 0xC6#8 then s.raiseSelfCheck e else s.raise e a)))

/-- R191, R192: `b` and `call` continue at the address of their head parcel plus the offset, where it lies in the text
and, for `b`, in the innermost open body; `call` writes the address after itself to s62. R191, R192: a target beyond
the text raises 0x10; a `b` out of the innermost open body in which it stands to a place in the text raises 0x11. That
a target equal to the text's size is beyond it is log 52's reading, and the address 0 of these causes that of logs 50
and 58. R163, R191: `bk` goes to its target when the predicate, inverted as `NEG` says, is true, and to the next
instruction when it is not; the S PC posts the outcome where the queue has room and no PC stands before a `vbr` that
it has passed (R164), and another PC takes what was posted at its position. R149, R163, R191: `ret` goes to the
address in s62 and `jr` to that in s[A]; a target that is not a multiple of 4 or lies beyond the text raises 0x10.
Another PC goes where the S PC has posted. -/
def Obligations.Branches : Prop :=
  (∀ (s : State) (off : BitVec 20) (far : BitVec 32),
      (∀ n : Nat, (n : Int) = s.selfPc + 4 * off.toInt → n < s.textSize →
          (leavesBody s n = false → staysInBody (.b off) s → exec (.b off) s = .next (retireTo (.b off) n s))
            ∧ (staysInBody (.call off) s →
                exec (.call off) s = .next (retireTo (.call off) n (s.wr 62#6 (BitVec.ofNat 64 (s.selfPc + 4))))))
        ∧ (∀ n : Nat, (n : Int) = s.selfPc + far.toInt → n < s.textSize →
          (leavesBody s n = false → staysInBody (.bLong far) s → exec (.bLong far) s = .next (retireTo (.bLong far) n s))
            ∧ (staysInBody (.callLong far) s →
                exec (.callLong far) s = .next (retireTo (.callLong far) n (s.wr 62#6 (BitVec.ofNat 64 (s.selfPc + 12)))))))
    ∧ (∀ (s : State) (off : BitVec 20),
      let tgt : Int := s.selfPc + 4 * off.toInt
      ((tgt < 0 ∨ (s.textSize : Int) ≤ tgt) →
          exec (.b off) s = .next (s.raise 0x10#8 0#64) ∧ exec (.call off) s = .next (s.raise 0x10#8 0#64))
        ∧ (0 ≤ tgt → tgt < s.textSize → leavesBody s tgt = true → exec (.b off) s = .next (s.raise 0x11#8 0#64)))
    ∧ (∀ (s : State) (neg taken : Bool) (k : PIdx) (off : BitVec 15) (far : BitVec 32), s.takes neg k = some taken → mayPost s →
      (∀ n : Nat, (taken = true → (n : Int) = s.selfPc + 4 * off.toInt ∧ n < s.textSize ∧ leavesBody s n = false) →
          (taken = false → n = s.selfPc + 4) → staysInBody (.bk neg k off) s →
          exec (.bk neg k off) s = .next (retireTo (.bk neg k off) n (s.posting (.taken taken))))
        ∧ (∀ n : Nat, (taken = true → (n : Int) = s.selfPc + far.toInt ∧ n < s.textSize ∧ leavesBody s n = false) →
          (taken = false → n = s.selfPc + 12) → staysInBody (.bkLong neg k far) s →
          exec (.bkLong neg k far) s = .next (retireTo (.bkLong neg k far) n (s.posting (.taken taken)))))
    ∧ (∀ (s : State) (a : Reg) (n : Nat),
      (∀ i r, (i = Instr.ret ∧ r = 62#6) ∨ (i = Instr.jr a ∧ r = a) →
        (if s.decides then (s.rd r).toNat = n else s.posted = some (.target n)) →
        (n % 4 = 0 → n < s.textSize → staysInBody i s → mayPost s →
            exec i s = .next (retireTo i n (s.posting (.target n))))
          ∧ ((n % 4 ≠ 0 ∨ s.textSize ≤ n) → exec i s = .next (s.raise 0x10#8 0#64))))

/-- R163, R165, R193: `loop` and `loopi` push an entry with the trip count and the body after them and continue there;
a count of zero continues at the body's end. A count of 2^32 or more and a fifth open loop raise 0x0D, a body that
ends beyond the text 0x10; the order of these causes is log 52's reading, and their address 0 that of logs 50 and 58.
-/
def Obligations.HardwareLoops : Prop :=
  ∀ (s : State) (i : Instr) (n len : Nat),
    ((∃ (d : Reg) (im : BitVec 14), i = .loop d im ∧ len = 4 * im.toNat
          ∧ (if s.decides then (s.rd d).toNat = n else s.posted = some (.count n)))
      ∨ (∃ (c : BitVec 32) (im : BitVec 12), i = .loopi c im ∧ len = 4 * im.toNat ∧ c.toNat = n
          ∧ (s.decides = false → s.posted = some (.count n)))) →
    let start := s.selfPc + lenOf i
    (4294967296 ≤ n → exec i s = .next (s.raise 0x0D#8 0#64))
      ∧ (0 < n → n < 4294967296 → 4 ≤ s.selfLoops.length → exec i s = .next (s.raise 0x0D#8 0#64))
      ∧ (n < 4294967296 → (n = 0 ∨ s.selfLoops.length < 4) →
          (s.textSize < start + len → exec i s = .next (s.raise 0x10#8 0#64))
            ∧ (start + len ≤ s.textSize → staysInBody i s → mayPost s →
                exec i s = .next (if n = 0 then retireTo i (start + len) (s.posting (.count n))
                  else retireTo i start (setLoops (⟨n, start, start + len⟩ :: s.selfLoops) (s.posting (.count n))))))

/-- R163, R194: `lexit` pops the innermost entry and continues at its body's end when the predicate, inverted as `NEG`
says, is true, and has no effect otherwise; with no open loop it raises 0x11. -/
def Obligations.LoopExit : Prop :=
  ∀ (s : State) (neg exits : Bool) (k : PIdx),
    (∀ m : BitVec 15, decode [m ++ (if neg then 1#1 else 0#1) ++ k ++ 0x07#7 ++ 5#3 ++ 0#2]
        = if m = 0#15 then .ok (.lexit neg k) else .error 0x05#8)
      ∧ (s.selfLoops = [] → exec (.lexit neg k) s = .next (s.raise 0x11#8 0#64))
      ∧ (∀ l rest, s.selfLoops = l :: rest → s.takes neg k = some exits → staysInBody (.lexit neg k) s → mayPost s →
          exec (.lexit neg k) s = .next
            (if exits then retireTo (.lexit neg k) l.stop (setLoops rest (s.posting (.taken exits)))
              else retireTo (.lexit neg k) (s.selfPc + 4) (s.posting (.taken exits))))

/-- R183, R184, R196, Table 8.1: `fence`, `isync` and `meet` complete once every PC has reached them and what they
have passed is done; a `fence` wider than the cluster and `isync` wait for the write-acknowledge count, such a `fence`
empties L1, and at system scope it reads host memory, after which every write posted to the host has been performed
there (R348; the count of them is the model's, log 105); `isync` discards the parcels that the task's PCs, or the
thread, have fetched. Until then the S PC waits. R186: `halt` at the S PC ends the cluster task once its conditions
hold: the task stands halted with the exit status, its threads have ended, and its end comes about next. A thread's
`halt` ends the thread, its outstanding item counted as complete; a die manager core's ends its task. -/
def Obligations.FencesAndHalt : Prop :=
  (∀ (s : State),
      (allPassed s → exec (.fence 0#8) s = .next (retire (.fence 0#8) s)
          ∧ (staysInBody .meet s → exec .meet s = .next (retire .meet s))
          ∧ (acksDone s → exec .isync s = .next (retire .isync (discardText s))
              ∧ (∀ n : BitVec 8, n ≠ 0#8 → n ≠ 4#8 → exec (.fence n) s = .next (retire (.fence n) s.freshL1))
              ∧ ∃ u, exec (.fence 4#8) s = .next (retire (.fence 4#8) u) ∧ u.hostDone = s.hostOut.length ∧ u.hostOut = s.hostOut
                ∧ u = { s.freshL1 with hostDone := s.hostOut.length }))
        ∧ (∀ c, s.actor = .pc c .S → ((s.cl c).gathered && settled s c) = false →
            exec .isync s = .next (s.noteWait .order) ∧ ∀ n, exec (.fence n) s = .next (s.noteWait .order)))
    ∧ (∀ (s : State) (n : BitVec 8),
      (∀ c t, s.actor = .pc c .S → allPassed s → mayEnd s c = true → (s.cl c).task = some t →
          ∃ u, exec (.halt n) s = .next u
            ∧ (u.cl c).task = some { t with state := .halted, exit := n }
            ∧ (∀ e ∈ (u.cl c).rakes, e.2.st = .ended)
            ∧ u.agenda = .soon (.taskEnd c) :: s.agenda)
        ∧ (∀ c k, s.actor = .rake c k →
          ∃ u, exec (.halt n) s = .next u ∧ ((u.cl c).rake k).st = .ended ∧ (∀ j, j ≠ k → (u.cl c).rake j = (s.cl c).rake j)
            ∧ (∀ h, ((s.cl c).rake k).item = some h →
                (u.windrow s.selfCtx h).completions = (s.windrow s.selfCtx h).completions + 1))
        ∧ (∀ d, s.actor = .mgr d → ∃ u, exec (.halt n) s = .next u ∧ (u.die d).coreTask = none ∧ (u.die d).core.st = .ended))

/-- R187: `trap n`, opcode 0x39 with `A` and `D` zero, raises cause 0xE0 + n precisely, with n from 0 to 31, and has
no effect beyond the trap; any other n, or a field that is not zero, raises 0x05. -/
def Obligations.SoftwareTrap : Prop :=
  ∀ (s : State) (n : BitVec 8),
    (∀ a d : BitVec 6, decode [n ++ a ++ d ++ 0x39#7 ++ 0#3 ++ 0#2]
        = if a = 0#6 ∧ d = 0#6 ∧ n.toNat ≤ 31 then .ok (.trap n) else .error 0x05#8)
      ∧ exec (.trap n) s = .next (s.raise (0xE0#8 + n) 0#64)

/-- R188: the flag instructions. `ftst` writes the flag to k[D] and `fwait` completes once the flag is 1, each an
acquire that empties L1; a `fwait` that waits has seen a flag that is set meanwhile, whatever clears it before the PC
moves; `fset` and `fclr`, releases, write the named flag of the cluster and no other. R195, R354, R355: the S PC's
`bar` arrives once every PC has reached it, what they have passed is done and no write is unacknowledged, and then
waits; once the barrier has completed for the cluster it writes the superstep number, extended with zeros, to s[D].
The other PCs pass it. -/
def Obligations.FlagsAndBarrier : Prop :=
  (∀ (s : State) (k : PIdx) (n : BitVec 14),
      let f := (s.cl s.selfCl).flags
      exec (.ftst k n) s = .next (retire (.ftst k n) (s.freshL1.wrK k (f.getLsbD n.toNat)))
        ∧ (let seen := KMap.get? (s.cl s.selfCl).awaited (agentNum s)
          let put (l : KMap (Nat × Bool)) : State := s.modCl s.selfCl fun x => { x with awaited := l }
          ((f.getLsbD n.toNat = true ∨ seen = some (n.toNat, true)) → exec (.fwait n) s = .next
              (retire (.fwait n) (put (KMap.erase (s.cl s.selfCl).awaited (agentNum s))).freshL1))
            ∧ (f.getLsbD n.toNat = false → seen ≠ some (n.toNat, true) → exec (.fwait n) s = .next
              ((put (KMap.set (s.cl s.selfCl).awaited (agentNum s) (n.toNat, false))).noteWait .flag))
            ∧ ∀ (x : Cluster) (a m : Nat) (b : Bool), KMap.get? x.awaited a = some (m, b) →
              KMap.get? (x.setFlag m true).awaited a = some (m, true) ∧ (x.setFlag m false).awaited = x.awaited)
        ∧ (allPassed s → n.toNat < 4096 →
            (∃ u, exec (.fset n) s = .next u
                ∧ ∀ m, (u.cl s.selfCl).flags.getLsbD m = (f.getLsbD m || decide (m = n.toNat)))
              ∧ (∃ u, exec (.fclr n) s = .next u
                ∧ ∀ m, (u.cl s.selfCl).flags.getLsbD m = (f.getLsbD m && decide (m ≠ n.toNat)))))
    ∧ (∀ (s : State) (d : Reg) (c : Nat), staysInBody (.bar d) s →
      (s.actor = .pc c .S → (s.cl c).released = false → (s.cl c).arrived = false → allPassed s → acksDone s →
          ∃ u, exec (.bar d) s = .next u ∧ (u.cl c).arrived = true ∧ (u.cl c).wS.pc = (s.cl c).wS.pc
            ∧ (u.cl c).wS.wait = some .barrier)
        ∧ (s.actor = .pc c .S → (s.cl c).released = true →
            exec (.bar d) s = .next (retire (.bar d)
              ((s.modCl c fun x => { x with arrived := false, released := false }).wr d ((s.sstepOf s.selfGang).setWidth 64))))
        ∧ (∀ e, e ≠ .S → s.actor = .pc c e → exec (.bar d) s = .next (retire (.bar d) s)))

/-- R189, R289, R290, R333: `wlpush` of a handle up to 4,095 and an item with bit 63 zero appends the item at the tail
of the windrow, a synchronising write of its slot in device memory or pinned L2, and counts one append, once its wait
is over, no append accepted before it is still to be served and the windrow has room; else it waits and keeps its
place, the tick of its first issue (log 1). A handle above 4,095 raises 0x69, and an item with bit 63 set 0x68, the
handle first and both with address 0 (logs 50, 52). R190, R333: `wlpop` counts the agent's outstanding item as
complete, and takes the item at the head of the windrow, a synchronising read of its slot, which stays outstanding;
from an empty windrow it writes 0x8000_0000_0000_0000. It never waits. A handle above 4,095 raises 0x69. -/
def Obligations.WindrowItems : Prop :=
  (∀ (s s1 : State) (a b : Reg) (w : WlDesc),
      let h := (s.rd a).toNat
      let at_ := pushStamp s (pushAgent s) h
      let k := s1.windrow s.selfCtx h
      let home := dieWho s.selfCtx w.home s.selfGang
      allPassed s →
      (4095 < h → exec (.wlpush a b) s = .next (s.raise 0x69#8 0#64))
        ∧ (h ≤ 4095 → (s.rd b).getLsbD 63 = true → exec (.wlpush a b) s = .next (s.raise 0x68#8 0#64))
        ∧ (h ≤ 4095 → (s.rd b).getLsbD 63 = false → wlDesc s.selfCtx s.selfDie s.selfGang h s = .ok (s1, w) →
            (appendBusy s1 s1.selfCtx h at_ = true ∨ w.cap ≤ k.held → exec (.wlpush a b) s = .next
              ((s1.modCl s1.selfCl fun x => { x with pushAt := KMap.set x.pushAt (pushAgent s) (h, at_) }).noteWait .windrow))
              ∧ (∀ s2, appendBusy s1 s1.selfCtx h at_ = false → k.held < w.cap → slotReach home (w.slot k.tail) s1 = true →
                vaSyncWrite home (w.slot k.tail) (natLe 8 (s.rd b).toNat) s1 = .ok s2 →
                let s3 := s2.modWindrow s.selfCtx h fun k =>
                  { k with tail := k.tail + 1#32, appends := k.appends + 1, users := NSet.insert k.users s.selfGang }
                exec (.wlpush a b) s = .next (retire (.wlpush a b)
                  (s3.modCl s3.selfCl fun x => { x with pushAt := KMap.erase x.pushAt (pushAgent s) })))))
    ∧ (∀ (s s1 : State) (d a : Reg) (w : WlDesc),
      let h := (s.rd a).toNat
      let k := s1.finishItem.windrow s.selfCtx h
      let home := dieWho s.selfCtx w.home s.selfGang
      (4095 < h → exec (.wlpop d a) s = .next (s.raise 0x69#8 0#64))
        ∧ (h ≤ 4095 → wlDesc s.selfCtx s.selfDie s.selfGang h s = .ok (s1, w) →
          (k.held = 0 →
              exec (.wlpop d a) s = .next (retire (.wlpop d a) (s1.finishItem.freshL1.wr d 0x8000000000000000#64)))
            ∧ (∀ s2 bs, k.held ≠ 0 → slotReach home (w.slot k.head) s1.finishItem = true →
                vaSyncRead home (w.slot k.head) 8 s1.finishItem = .ok (s2, bs) →
                let s3 := s2.modWindrow s.selfCtx h fun k =>
                  { k with head := k.head + 1#32, pops := k.pops + 1, users := NSet.insert k.users s.selfGang }
                exec (.wlpop d a) s = .next (retire (.wlpop d a)
                  ((s3.freshL1.wr d (BitVec.ofNat 64 (leNat bs))).setSelfItem (some h))))))

/-- R198, R199: `recv`, `recvt` and `rpeek` on a ring bound to the executing thread. With a message at the head, after
pads are consumed, `recv` and `recvt` write its local offset to s[D]; without one `recv` puts the thread to sleep, and
`recvt` too until its count has run out, when it writes 2^64 - 1. `rpeek` writes the number of lines held. The headers
that are read for this lie in lines without an error; an owed one is waited for (R17). R199: `radv` moves the head of
the thread's ring by s[B] lines, no more than it holds, and messages that wait for the room land; more raise 0x6A.
`rbind` binds a ring to the executing agent, empty, and writes the old descriptor to s[D]; a descriptor other than
zero that breaks Table 8.4, in its reserved bits, its base, its size or where it ends, raises 0x6A, as a ring above 15
does. -/
def Obligations.RingReceives : Prop :=
  (∀ (s : State) (d a : Reg) (p : Pred) (b : RegOrImm) (k : Nat), ownsRing s a k → s.holds p = true →
      let r := s.unpadded k
      let u := s.dropPad k
      let n := (s.rdRI b).toNat
      let heads := headerLines (s.cl s.selfCl) ((s.cl s.selfCl).ring k).lines ((s.cl s.selfCl).ring k)
      away s s.selfCtx s.selfCl = false → (s.cl s.selfCl).bad = [] →
      ((∃ l ∈ heads, owedLine (s.cl s.selfCl) l = true) → ∀ i ∈ [Instr.recv d a, .rpeek d a], exec i s = .next (s.noteWait .owed))
        ∧ ((∀ l ∈ heads, owedLine (s.cl s.selfCl) l = false) →
      (r.held ≠ 0 →
          exec (.recv d a) s = .next (retire (.recv d a) ((sleepAs .ready none u).wr d (BitVec.ofNat 64 (r.at r.head))))
            ∧ (n ≤ 4294967295 → exec (.recvt p d a b) s = .next (retire (.recvt p d a b)
                ((sleepAs .ready none u).wr d (BitVec.ofNat 64 (r.at r.head))))))
        ∧ (r.held = 0 →
          exec (.recv d a) s = .next ((sleepAs .recv none u).noteWait .room)
            ∧ (n ≤ 4294967295 → s.recvtLeft n ≠ 0 →
                exec (.recvt p d a b) s = .next ((sleepAs .recvt (some (s.recvtLeft n)) u).noteWait .room))
            ∧ (n ≤ 4294967295 → s.recvtLeft n = 0 →
                exec (.recvt p d a b) s = .next (retire (.recvt p d a b) ((sleepAs .ready none u).wr d (BitVec.allOnes 64)))))
        ∧ exec (.rpeek d a) s = .next (retire (.rpeek d a) (u.wr d (BitVec.ofNat 64 r.held)))))
    ∧ (∀ (s : State) (d a b : Reg) (k : Nat),
      (ownsRing s a k →
          let r := (s.cl s.selfCl).ring k
          ((s.rd b).toNat ≤ r.held → exec (.radv a b) s = .next (retire (.radv a b)
              (drainInbox s.selfCl
                (s.modCl s.selfCl fun x => x.setRing k { r with head := r.head + (s.rd b).setWidth 32 }))))
            ∧ (r.held < (s.rd b).toNat → exec (.radv a b) s = .next (s.raise 0x6A#8 0#64)))
        ∧ ((s.rd a).toNat = k →
          (k ≤ 15 → (s.rd b = 0#64 ∨ ringDescOk (s.cl s.selfCl) (s.rd b).toNat = true) →
              exec (.rbind d a b) s = .next (retire (.rbind d a b)
                ((s.modCl s.selfCl fun x => x.setRing k ⟨s.rd b, agentNum s, 0#32, 0#32⟩).wr d ((s.cl s.selfCl).ring k).desc)))
            ∧ (let v := (s.rd b).toNat
              v ≠ 0 → (bits v 23 22 ≠ 0 ∨ bits v 63 28 ≠ 0 ∨ bits v 21 0 % 128 ≠ 0 ∨ bits v 27 24 < 1 ∨ 12 < bits v 27 24
                ∨ 65536 * firstL1Bank (s.cl s.selfCl) < bits v 21 0 + 128 * 2 ^ bits v 27 24) →
              exec (.rbind d a b) s = .next (s.raise 0x6A#8 0#64))
            ∧ (15 < k → exec (.rbind d a b) s = .next (s.raise 0x6A#8 0#64)
              ∧ exec (.radv a b) s = .next (s.raise 0x6A#8 0#64))))

/-- R199: `rsend` of a message of 8 to 1,024 bytes in the own cluster's banks, in lines without an error, to a ring of
a granted cluster where no earlier message waits delivers a copy stamped with the sender, and writes 0 where it has
been delivered, 1 where the ring is unbound and 2 where the message is larger than the ring; without room it waits.
R198, R17: a message that reaches a bound ring with room before its end, at lines that no command owes, lands at the
tail, which passes it; one that reaches an unbound ring is discarded and counted; one that lacks the room waits. No
earlier message waits and the cluster's task is not saved. -/
def Obligations.RingSends : Prop :=
  (∀ (s s1 : State) (p : Pred) (d a : Reg) (b : RegOrImm) (off : Nat) (out : Delivery),
      s.holds p = true → s.place (s.rd a) 128 = .ok (s.selfCl, off) →
      let dst := (s.rdRI b).toNat
      let x := s.cl s.selfCl
      let n := msgLen x off
      bits dst 15 9 = 0 → bits dst 63 20 = 0 → bits dst 8 0 ≤ 383 → s.granted s.selfCtx s.selfCl (bits dst 8 0) = true →
      away s s.selfCtx s.selfCl = false → away s s.selfCtx (bits dst 8 0) = false →
      8 ≤ n → n ≤ 1024 → inBanks x off = true → inBanks x (off + n - 1) = true →
      owedLine x (off / 128) = false → (∀ l ∈ linesOf off n, owedLine x l = false) → x.bad = [] →
      (∀ m ∈ (s.cl (bits dst 8 0)).inbox, m.1 ≠ bits dst 19 16) →
      ringDeliver (bits dst 8 0) (bits dst 19 16) (stamped s.selfCl (sramRead x off n)) s = (s1, out) →
      exec (.rsend p d a b) s = .next (match out with
        | .delivered => retire (.rsend p d a b) (s1.wr d 0#64)
        | .unbound => retire (.rsend p d a b) (s1.wr d 1#64)
        | .tooLarge => retire (.rsend p d a b) (s1.wr d 2#64)
        | .noRoom => s1.noteWait .room))
    ∧ (∀ (s : State) (c k : Nat) (msg : List Byte), k < 16 → 8 ≤ msg.length → msg.length ≤ 1024 →
      (∀ p ∈ s.spilled, p.from_ ≠ c) → (s.cl c).inbox = [] → (s.cl c).bad = [] →
      let r := (s.cl c).ring k
      let fits := r.tail.toNat % r.lines + msgLines msg.length ≤ r.lines
      (r.desc ≠ 0#64 → fits → msgLines msg.length ≤ r.lines - r.held →
          (∀ l ∈ linesOf (r.at r.tail) msg.length, owedLine (s.cl c) l = false) →
          ∃ u, exec (.ringArrival c k msg) s = .next u
            ∧ ((u.cl c).ring k).tail = r.tail + BitVec.ofNat 32 (msgLines msg.length)
            ∧ ((u.cl c).ring k).head = r.head
            ∧ sramRead (u.cl c) (r.at r.tail) msg.length = msg ∧ (u.cl c).inbox = [])
        ∧ (r.desc = 0#64 → ∃ u, exec (.ringArrival c k msg) s = .next u
            ∧ (u.cl c).ringDrops = (s.cl c).ringDrops + 1 ∧ (u.cl c).rings = (s.cl c).rings ∧ u.hbm = s.hbm)
        ∧ (r.desc ≠ 0#64 → fits → msgLines msg.length ≤ r.lines → r.lines - r.held < msgLines msg.length →
          ∃ u, exec (.ringArrival c k msg) s = .next u ∧ (u.cl c).inbox = [(k, msg)] ∧ (u.cl c).ring k = r))

/-- R199: `kwake` sets the wake flag of the thread s[A], from 0 to 7, and any other number raises 0x6A; `ksleep` takes
a wake flag that is set and goes on, or sleeps; the end of a `recvt`'s count is noted at the sleeping thread. R36,
R199, R190: `nop` does nothing but pass; `kid` writes the thread's number in bits [7:0] and the cluster's id from bit
8 on; `tdone` counts the outstanding item as complete. -/
def Obligations.ThreadInstructions : Prop :=
  (∀ (s : State) (a : Reg) (c k : Nat), s.actor = .rake c k →
      let t := (s.rd a).toNat
      (t ≤ 7 → exec (.kwake a) s = .next (retire (.kwake a) (s.modCl c fun x => x.setRake t { x.rake t with wake := true })))
        ∧ (7 < t → exec (.kwake a) s = .next (s.raise 0x6A#8 0#64))
        ∧ (((s.cl c).rake k).wake = true → ∃ u, exec .ksleep s = .next u ∧ ((u.cl c).rake k).wake = false
            ∧ ((u.cl c).rake k).st = .ready ∧ ((u.cl c).rake k).pc = ((s.cl c).rake k).pc + 4)
        ∧ (((s.cl c).rake k).wake = false → ∃ u, exec .ksleep s = .next u ∧ ((u.cl c).rake k).st = .ksleep
            ∧ ((u.cl c).rake k).pc = ((s.cl c).rake k).pc)
        ∧ (∀ j, ∃ u, exec (.recvtTimeout c j) s = .next u
            ∧ (((s.cl c).rake j).st = .recvt → ((u.cl c).rake j).remain = some 0)
            ∧ (((s.cl c).rake j).st ≠ .recvt → u.cl c = s.cl c)))
    ∧ ((∀ s, exec .nop s = .next (retire .nop s))
      ∧ (∀ (s : State) (d : Reg) (c n : Nat), s.actor = .rake c n → n < 8 → c < 384 →
          exec (.kid d) s = .next (retire (.kid d) (s.wr d (BitVec.ofNat 64 (n + 256 * c)))))
      ∧ (∀ (s : State), s.selfItem = none → exec .tdone s = .next (retire .tdone s))
      ∧ (∀ (s : State) (h : Nat), s.selfItem = some h →
          exec .tdone s = .next (retire .tdone ((wlComplete s s.selfCtx h).setSelfItem none))))

/-- Table 7.3: which state the numbers of a cluster's control registers name. R160, R181: `mfc` writes a control
register that the executing agent may read to s[D]: a register of its cluster, where a quiet one waits for every PC
and a stream pointer for its owner and for follow-ons that use it (R262), or, at supervisor level, one of its die. At
user level the latter raises 0x0A, and a number that no table gives 0x0E. -/
def Obligations.ControlRegisterReads : Prop :=
  (∀ (s : State) (c : Nat),
      (∀ n, n < 48 → clusterReg s c n = some (KMap.getD (s.cl c).bfmt n 9#64))
        ∧ clusterReg s c 0x030 = some (s.cl c).rmode ∧ clusterReg s c 0x031 = some (s.cl c).rseed
        ∧ clusterReg s c 0x032 = some ((s.cl c).sramcfg.setWidth 64) ∧ clusterReg s c 0x033 = some ((s.cl c).slipw.setWidth 64)
        ∧ clusterReg s c 0x034 = some ((s.cl c).tkcnt.setWidth 64) ∧ clusterReg s c 0x035 = some (s.cl c).sigtab
        ∧ clusterReg s c 0x036 = some (s.cl c).sigcnt ∧ clusterReg s c 0x039 = some ((s.cl c).bphase.setWidth 64)
        ∧ (∀ n, n < 64 → clusterReg s c (0x060 + n) = some (KMap.getD (s.cl c).vshp n 0#64))
        ∧ (∀ n, n < 1024 → supRead s c (0x400 + n) = some (KMap.getD (s.die c).rpol n 0#64)))
    ∧ (∀ (s : State) (d : Reg) (n : BitVec 14) (v : Word),
      (clusterReg s s.selfCl n.toNat = some v → ¬ (0x040 ≤ n.toNat ∧ n.toNat ≤ 0x05F) → (quietReg n.toNat = true → allPassed s) →
          exec (.mfc d n) s = .next (retire (.mfc d n) (s.wr d v)))
        ∧ (∀ c k, s.actor = .pc c .S → n.toNat = 0x040 + k → k < 32 →
          (∀ e, ownerOf (ptrVal (s.cl c) k (s.cl c).wS.dp) = some e → (s.cl c).wS.dp < ((s.cl c).walk e).dp) →
          (∀ m ∈ followsOwed (s.cl c), ∀ j, m.followWord = some j → (pointersOf j).contains k = false) →
          exec (.mfc d n) s = .next (retire (.mfc d n) (s.wr d (BitVec.ofNat 64 (ptrVal (s.cl c) k (s.cl c).wS.dp)))))
        ∧ (clusterReg s s.selfCl n.toNat = none → supRead s s.selfDie n.toNat = some v →
          (s.atUser = false → n.toNat ≠ 0x126 → exec (.mfc d n) s = .next (retire (.mfc d n) (s.wr d v)))
            ∧ (s.atUser = true → exec (.mfc d n) s = .next (s.raise 0x0A#8 0#64)))
        ∧ (clusterReg s s.selfCl n.toNat = none → supRead s s.selfDie n.toNat = none →
          exec (.mfc d n) s = .next (s.raise 0x0E#8 0#64)))

/-- R58, R65, R155, R160, R162, R181: the S PC's `mtc` of a value that keeps the register's layout completes: it
writes the register of its cluster, which then holds the value; no scalar register, predicate, other cluster or byte
of memory changes. A value that breaks the layout raises 0x0E, or 0x09 for a format register; a register that is not
written by `mtc` 0x0E; a rake thread has no register to write, and a die manager core none of a cluster's: 0x0A. R160,
R181, R385: a control register of the die is written by system software alone: `mtc` of one, by an S PC or a die
manager core, takes effect at supervisor level where the register takes the value, raises 0x0A at user level, and
waits while the register's earlier action goes on. A write by an agent of the die that REGISTER_WRITE stands for has
the same effect, or none where the register does not take the value. R256, R379 to R383, R425: what a write of a die's
register that system software may write leaves in it: the routing policies, the thresholds, the island limits, the
event ring's head, and, for `ctxbase` and `dplace`, the package's own. Which values are ignored or raise a cause, and
when an action that takes time takes effect, are the model's choices where the spec leaves them open (logs 34, 36, 37,
38, 43). -/
def Obligations.ControlRegisterWrites : Prop :=
  (∀ (s : State) (d : Reg) (n : BitVec 14),
      (∀ c, s.actor = .pc c .S → clusterWritable n.toNat = true →
        (n.toNat = 0x032 → s.atUser = false) → (quietReg n.toNat = true → allPassed s) →
          (clusterFits n.toNat (s.rd d).toNat = true →
              let u := retire (.mtc d n) (clusterStore c n.toNat (s.rd d) s)
              exec (.mtc d n) s = .next u ∧ clusterReg u c n.toNat = some (s.rd d)
                ∧ (u.cl c).sregs = (s.cl c).sregs ∧ (u.cl c).preds = (s.cl c).preds ∧ u.hbm = s.hbm ∧ (u.cl c).sram = (s.cl c).sram
                ∧ (∀ c', c' ≠ c → u.cl c' = s.cl c'))
            ∧ (clusterFits n.toNat (s.rd d).toNat = false →
              exec (.mtc d n) s = .next (s.raise (if n.toNat < 0x030 then 0x09#8 else 0x0E#8) 0#64)))
        ∧ (∀ c, s.actor = .pc c .S → (clusterReg s c n.toNat).isSome = true → clusterWritable n.toNat = false →
            exec (.mtc d n) s = .next (s.raise 0x0E#8 0#64))
        ∧ (∀ c k, s.actor = .rake c k → exec (.mtc d n) s = .next (s.raise 0x0A#8 0#64))
        ∧ (∀ e, s.actor = .mgr e → (clusterReg s s.selfCl n.toNat).isSome = true →
            exec (.mtc d n) s = .next (s.raise 0x0A#8 0#64)))
    ∧ (∀ (s s1 : State) (d : Reg) (n : BitVec 14),
      (((∃ c, s.actor = .pc c .S) ∨ ∃ e, s.actor = .mgr e) → clusterReg s s.selfCl n.toNat = none →
        (s.atUser = false →
          (supWrite s.selfDie n.toNat (s.rd d) s = .ok s1 → exec (.mtc d n) s = .next (retire (.mtc d n) s1))
            ∧ (supWrite s.selfDie n.toNat (s.rd d) s = .error none → exec (.mtc d n) s = .next (s.noteWait .engine)))
          ∧ (s.atUser = true → (supRead s s.selfDie n.toNat).isSome = true → exec (.mtc d n) s = .next (s.raise 0x0A#8 0#64)))
        ∧ (∀ die v s2, die < 4 → supWrite die n.toNat v s = .ok s2 → exec (.registerWrite die n.toNat v) s = .next s2)
        ∧ (∀ die v e, supWrite die n.toNat v s = .error e → exec (.registerWrite die n.toNat v) s = .next s))
    ∧ (∀ (s : State) (die : Nat) (v : Word), die < 4 →
      (∀ k, k < 1024 → supFits (0x400 + k) v.toNat = true → ∃ u, supWrite die (0x400 + k) v s = .ok u
          ∧ supRead u die (0x400 + k) = some v ∧ (∀ j, j < 1024 → j ≠ k → supRead u die (0x400 + j) = supRead s die (0x400 + j))
          ∧ u.hbm = s.hbm)
        ∧ (supFits 0x106 v.toNat = true → ∃ u, supWrite die 0x106 v s = .ok u ∧ supRead u die 0x106 = some v ∧ u.hbm = s.hbm)
        ∧ (∃ u, supWrite die 0x100 v s = .ok u ∧ supRead u die 0x100 = some v ∧ supRead u die 0x101 = supRead s die 0x101)
        ∧ (∃ u, supWrite die 0x101 v s = .ok u ∧ supRead u die 0x101 = some v ∧ supRead u die 0x100 = supRead s die 0x100)
        ∧ (∀ k, k < 24 → supFits (0x170 + k) v.toNat = true →
          ∃ u, supWrite die (0x170 + k) v s = .ok u ∧ supRead u die (0x170 + k) = some v)
        ∧ (∀ n, supReadOnly n = true → ∃ e, supWrite die n v s = .error e))

/-- R386 to R388: a precise cause raised by a PC of a task at user level. The task stands trapped with the cause, the
engine, the address and the engine's position recorded, and the number of its fault-log entry where the log had room;
every PC keeps its place, with its wait ended; the cluster's bit of its die's `tpend` is set; the registers, the
predicates and the scratchpad are as they were. R390: a cause raised by a rake thread stops that thread alone, with
the cause recorded at it; the PCs and the other threads of its cluster go on. R381, R386: one raised by a PC or a
thread of a management task, or by a die manager core, ends its task, and the die logs 0xAA; that the task of a
cluster then leaves by a step of its own is log 34. -/
def Obligations.TrapEntry : Prop :=
  (∀ (s : State) (c : Nat) (e : Eng) (t : Task) (cause : BitVec 8) (a : Word),
      s.actor = .pc c e → (s.cl c).task = some t → t.priv = false → c < 384 →
      let u := s.raise cause a
      (∃ t', (u.cl c).task = some t' ∧ t'.state = .trapped
          ∧ (∃ n, t'.trap = some ⟨cause, engNum e, 0, a, ((s.cl c).walk e).dp, n⟩) ∧ t'.ctx = t.ctx ∧ t'.agent = t.agent)
        ∧ (∀ g, ((u.cl c).walk g).pc = ((s.cl c).walk g).pc ∧ ((u.cl c).walk g).dp = ((s.cl c).walk g).dp
            ∧ ((u.cl c).walk g).wait = none)
        ∧ (u.cl c).sregs = (s.cl c).sregs ∧ (u.cl c).preds = (s.cl c).preds ∧ (u.cl c).sram = (s.cl c).sram
        ∧ (u.die (dieOf c)).tpend.getLsbD (c % 96) = true
        ∧ (∀ i, i ≠ c % 96 → (u.die (dieOf c)).tpend.getLsbD i = (s.die (dieOf c)).tpend.getLsbD i))
    ∧ (∀ (s : State) (cause : BitVec 8) (a : Word),
      (∀ c k t, s.actor = .rake c k → (s.cl c).task = some t → t.priv = false → c < 384 →
          let u := s.raise cause a
          ((u.cl c).rake k).st = .trapped ∧ (∃ n, ((u.cl c).rake k).trap = some ⟨cause, 5, k, a, 0, n⟩)
            ∧ ((u.cl c).rake k).pc = ((s.cl c).rake k).pc ∧ (∀ j, j ≠ k → (u.cl c).rake j = (s.cl c).rake j)
            ∧ (∀ g, (u.cl c).walk g = (s.cl c).walk g) ∧ (u.cl c).task = some t
            ∧ (u.die (dieOf c)).tpend.getLsbD (c % 96) = true)
        ∧ (∀ c t, ((∃ e, s.actor = .pc c e) ∨ ∃ k, s.actor = .rake c k) → (s.cl c).task = some t → t.priv = true →
          let u := s.raise cause a
          (u.cl c).task = some { t with state := .halted } ∧ (u.die (dieOf c)).dieLog = (s.die (dieOf c)).dieLog ++ [(0xAA#8, cause.toNat)]
            ∧ (u.die (dieOf c)).tpend = (s.die (dieOf c)).tpend ∧ u.agenda = .soon (.taskEnd c) :: s.agenda)
        ∧ (∀ d, s.actor = .mgr d →
          let u := s.raise cause a
          (u.die d).coreTask = none ∧ (u.die d).core.st = .ended
            ∧ (u.die d).dieLog = (s.die d).dieLog ++ [(0xAA#8, cause.toNat)]))

/-- R24, R171: no instruction and no event ends a run: a cause, a wait or an operand that is refused leads to a next
state as any other effect does. -/
def Obligations.EveryStepAnswers : Prop :=
  ∀ (i : Instr) (s : State), ∃ t, exec i s = .next t

/-- R151 to R158, R201 to R204: what the L, A, W and M engines read from an operand and write to one. A plain vector
name holds what was written last; a queue name gives its head to its consumer alone, kept by a peek, and takes a value
from its producer alone while it has room; an uncorrectable error in either raises 0xC3 by the rollback route; a
scalar stands in every lane; another engine's pointer, or a queue's wrong end, raises 0x0C. R57, R62, R108, R121,
R153, R205 to R207: a run of one element for each lane. In row orientation at an aligned place in a bank of the slot
width `z`: a read converts element i, at bit 8·OFFSET + z·i, to lane i; a write converts lane i to the bank's format
and stores it there, and no other byte of a scratchpad changes. In column orientation, for every slot width: a run
that fits (R206, R109) is read from and written to the places of its elements, in cells of the columns from the
place's on, and no other byte changes; one that does not fit raises 0x28, or 0x09 where a run of wide slots has
another number of elements. A raw read of a narrow bank takes the 128 bytes as they are. An owed line makes a read
wait and a write raise 0x40. -/
def Obligations.VectorOperands : Prop :=
  (∀ (s : State) (t : Ty) (r : Round_) (k : As) (n : BitVec 11) (pk : Bool) (v : Vec),
      let x := s.cl s.here.1
      (shapeOf x n.toNat = none → x.nameBad.contains n.toNat = false →
          readSrc t r k (.v pk n) s = .ok (KMap.getD x.vnames n.toNat 0#1024, s)
            ∧ ∃ u, writeDst t r k (.v false n) v s = .ok ((), u)
              ∧ (∀ m, KMap.getD (u.cl s.here.1).vnames m 0#1024 = if m = n.toNat then v else KMap.getD x.vnames m 0#1024)
              ∧ u.hbm = s.hbm
              ∧ (∀ c a, u.spByte c a = s.spByte c a))
        ∧ (x.nameBad.contains n.toNat = true → readSrc t r k (.v pk n) s = .error (.check 0xC3#8))
        ∧ (∀ sh, shapeOf x n.toNat = some sh → x.nameBad.contains n.toNat = false →
          (shapeCons sh = engNum s.here.2 →
              (∀ w rest, KMap.getD x.vqueues n.toNat [] = w :: rest →
                  (readSrc t r k (.v true n) s = .ok (w, s))
                    ∧ readSrc t r k (.v false n) s
                      = .ok (w, s.modCl s.here.1 fun x => { x with vqueues := KMap.set x.vqueues n.toNat rest }))
                ∧ (KMap.getD x.vqueues n.toNat [] = [] → shapeProd sh ≠ shapeCons sh →
                  readSrc t r k (.v pk n) s = .error (.wait .queue)))
            ∧ (shapeCons sh ≠ engNum s.here.2 → readSrc t r k (.v pk n) s = .error (.trap 0x0C#8 0#64))
            ∧ (shapeProd sh = engNum s.here.2 → (KMap.getD x.vqueues n.toNat []).length < shapeDepth sh →
                writeDst t r k (.v false n) v s
                  = .ok ((), s.modCl s.here.1 fun x => { x with vqueues := KMap.set x.vqueues n.toNat (KMap.getD x.vqueues n.toNat [] ++ [v]) }))
            ∧ (shapeProd sh ≠ engNum s.here.2 → writeDst t r k (.v false n) v s = .error (.trap 0x0C#8 0#64)))
        ∧ (∃ w, readSrc t r k (.s n) s = .ok (w, s)
            ∧ ∀ i, i < t.lanes → laneAt t w i = (s.rd (n.setWidth 6)).toNat % 2 ^ t.bits)
        ∧ (∀ q, q = ptrVal x n.toNat (x.walk s.here.2).dp → (bits q 63 61 = 0 ∨ bits q 63 61 ≠ engNum s.here.2) →
            readSrc t r k (.p n) s = .error (.trap 0x0C#8 0#64) ∧ writeDst t r k (.p n) v s = .error (.trap 0x0C#8 0#64)))
    ∧ (∀ (s : State) (t : Ty) (r : Round_) (p : Spot), away s s.selfCtx p.cl = false →
      let z := s.widthAt p
      let len := t.lanes * z / 8
      let lane (q : Nat) (i : Nat) := convert (fmtOfWord (s.wordAt p)) (fmtTy t) (r.rm i) r.sat (slotRead (s.cl p.cl) z q)
      (t.isN = false → p.col = false → p.off % (min len 128) = 0 → p.off / 8192 = (p.off + len - 1) / 8192 →
        ((∀ l, p.off / 128 ≤ l → l ≤ (p.off + len - 1) / 128 → owedLine (s.cl p.cl) l = false) → (s.cl p.cl).bad = [] →
            readRun t r p s = .ok (vecMade t fun i => lane (8 * p.off + z * i) i, s)
              ∧ ∀ v, ∃ u, writeRun t r p v s = .ok ((), u)
                ∧ (∀ i, i < t.lanes → slotRead (u.cl p.cl) z (8 * p.off + z * i)
                    = convert (fmtTy t) (fmtOfWord (s.wordAt p)) (r.rm i) r.sat (laneAt t v i) % 2 ^ z)
                ∧ (∀ c a, ¬ (c = p.cl ∧ p.off ≤ a ∧ a < p.off + len) → u.spByte c a = s.spByte c a))
          ∧ ((∃ l, p.off / 128 ≤ l ∧ l ≤ (p.off + len - 1) / 128 ∧ owedLine (s.cl p.cl) l = true) →
            readRun t r p s = .error (.wait .owed) ∧ ∀ v, writeRun t r p v s = .error (.trap 0x40#8 p.addr)))
        ∧ (t.isN = false → p.col = true →
          (colFits z p.off t.lanes →
            ((∀ l ∈ blockLines p.off, owedLine (s.cl p.cl) l = false) → (s.cl p.cl).bad = [] →
              readRun t r p s = .ok (vecMade t fun i => lane (colSlot z p.off i) i, s)
                ∧ ∀ v, ∃ u, writeRun t r p v s = .ok ((), u)
                  ∧ (∀ i, i < t.lanes → slotRead (u.cl p.cl) z (colSlot z p.off i)
                      = convert (fmtTy t) (fmtOfWord (s.wordAt p)) (r.rm i) r.sat (laneAt t v i) % 2 ^ z)
                  ∧ (∀ c a, ¬ (c = p.cl ∧ ∃ i, i < t.lanes ∧ colSlot z p.off i / 8 ≤ a ∧ a ≤ (colSlot z p.off i + z - 1) / 8) →
                    u.spByte c a = s.spByte c a))
              ∧ ((∃ l ∈ blockLines p.off, owedLine (s.cl p.cl) l = true) →
                readRun t r p s = .error (.wait .owed) ∧ ∀ v, writeRun t r p v s = .error (.trap 0x40#8 p.addr)))
            ∧ (¬ colFits z p.off t.lanes → let e : BitVec 8 := if z ≤ 16 ∨ t.lanes * z = 1024 then 0x28#8 else 0x09#8
              readRun t r p s = .error (.trap e p.addr) ∧ ∀ v, writeRun t r p v s = .error (.trap e p.addr)))
        ∧ (t.isN = true → p.col = false → p.off % 128 = 0 → bits (s.wordAt p) 3 0 = 11 →
          owedLine (s.cl p.cl) (p.off / 128) = false → (s.cl p.cl).bad = [] →
          readRun t r p s = .ok (BitVec.ofNat 1024 (leNat (sramRead (s.cl p.cl) p.off 128)), s)))

/-- R220, R221, R223, R224, R229, Tables 9.6 and 9.7: every lane-by-lane instruction completes wherever its operands
can be read and written, and writes for lane i the table's result of the sources' lanes i in the lane's rounding.
`vhash` (R230) takes its hash to K bits. R222: comparisons write a mask, bit i the test of lanes i; `vsel` takes each
lane by its mask bit; `vmsk` combines masks over the type's lanes; `vcnt` writes the count of a mask's bits to every
lane. -/
def Obligations.LaneArithmetic : Prop :=
  ((∀ w ∈ lane1Rows, ∀ hd d a, RunsLanes (w.form hd d a) hd .lanes d [(.lanes, a)] fun r vs =>
        vecMade hd.ty fun i => w.val hd.ty (r.rm i) r.sat (laneAt hd.ty (src vs 0) i))
      ∧ (∀ w ∈ lane2Rows, ∀ hd d a b, RunsLanes (w.form hd d a b) hd .lanes d [(.lanes, a), (.lanes, b)] fun r vs =>
        vecMade hd.ty fun i => w.val hd.ty (r.rm i) r.sat (laneAt hd.ty (src vs 0) i) (laneAt hd.ty (src vs 1) i))
      ∧ (∀ w ∈ lane3Rows, ∀ hd d a b c, RunsLanes (w.form hd d a b c) hd .lanes d [(.lanes, a), (.lanes, b), (.lanes, c)] fun r vs =>
        vecMade hd.ty fun i =>
          w.val hd.ty (r.rm i) r.sat (laneAt hd.ty (src vs 0) i) (laneAt hd.ty (src vs 1) i) (laneAt hd.ty (src vs 2) i))
      ∧ (∀ k hd d a b, RunsLanes (.vhash hd k d a b) hd .lanes d [(.lanes, a), (.lanes, b)] fun _ vs =>
        vecMade hd.ty fun i => laneHash hd.ty k.toNat (laneAt hd.ty (src vs 0) i) (laneAt hd.ty (src vs 1) i)))
    ∧ ((∀ w ∈ laneTests, ∀ hd d a b, RunsLanes (w.form hd d a b) hd .mask d [(.lanes, a), (.lanes, b)] fun _ vs =>
        maskMade hd.ty fun i => w.test hd.ty (laneAt hd.ty (src vs 0) i) (laneAt hd.ty (src vs 1) i))
      ∧ (∀ hd d a b c, RunsLanes (.vsel hd d a b c) hd .lanes d [(.lanes, a), (.lanes, b), (.mask, c)] fun _ vs =>
        vecMade hd.ty fun i => if (src vs 2).getLsbD i then laneAt hd.ty (src vs 0) i else laneAt hd.ty (src vs 1) i)
      ∧ (∀ hd d a b, ∀ w ∈ ([(.and, fun x y => x && y), (.or, fun x y => x || y), (.xor, fun x y => x != y),
            (.andn, fun x y => x && !y)] : List (MaskOp × (Bool → Bool → Bool))),
        RunsLanes (.vmsk hd w.1 d a b) hd .mask d [(.mask, a), (.mask, b)] fun _ vs =>
          maskMade hd.ty fun i => w.2 ((src vs 0).getLsbD i) ((src vs 1).getLsbD i))
      ∧ (∀ hd d a b, RunsLanes (.vmsk hd .not d a b) hd .mask d [(.mask, a)] (fun _ vs =>
            maskMade hd.ty fun i => !(src vs 0).getLsbD i)
          ∧ RunsLanes (.vmsk hd .first d a b) hd .mask d [(.mask, a)] (fun _ vs =>
            maskMade hd.ty fun i => (src vs 0).getLsbD i && (List.range i).all fun j => !(src vs 0).getLsbD j)
          ∧ RunsLanes (.vmsk hd .all d a b) hd .mask d [] (fun _ _ => maskMade hd.ty fun _ => true)
          ∧ RunsLanes (.vmsk hd .none d a b) hd .mask d [] (fun _ _ => 0#1024))
      ∧ (∀ hd d a, RunsLanes (.vcnt hd d a) hd .lanes d [(.mask, a)] fun _ vs =>
        vecMade hd.ty fun _ => (List.range hd.ty.lanes).countP fun j => (src vs 0).getLsbD j))

/-- R73, R74, R225 to R227: a reduction writes total(0, n) of its operator to lane 0 and zero elsewhere; the scans
write the Brent-Kung tree's prefixes, or with `.tot` the totals of the lanes before each, and `vscanc` combines each
lane with a carry; the affine forms write both parts. Each operator rounds in the mode of its node; the add of a scan
is one `encode`, which clamps an integer sum to its type (`opSum`), where the add of a reduction wraps without `.sat`.
The key of a node's stochastic rounding in a scan is the model's reading (log 70). -/
def Obligations.LaneReductions : Prop :=
  (∀ hd d a, ∀ w ∈ ([(.vredadd, opAdd), (.vredmax, opMax), (.vredmin, opMin)]
        : List ((VHead → Opnd → Opnd → Instr) × (Ty → Bool → Rm → Nat → Nat → Nat))),
      RunsLanes (w.1 hd d a) hd .lanes d [(.lanes, a)] fun r vs =>
        vecMade hd.ty fun i => if i = 0 then
          totalOf (fun k => w.2 hd.ty r.sat (r.rm k)) (fun k => laneAt hd.ty (src vs 0) k) 8 0 hd.ty.lanes else 0)
    ∧ (∀ hd d e a b, ∀ w ∈ ([(.add, opSum, addIdentity), (.max, opMax, maxIdentity)]
          : List (ScanOp × (Ty → Bool → Rm → Nat → Nat → Nat) × (Ty → Nat))),
        let leaf (v : Vec) (k : Nat) : Nat := laneAt hd.ty v k
        RunsLanes (.vscan hd true w.1 d e a b) hd .lanes d [(.lanes, a)] (fun r vs =>
            vecMade hd.ty fun i => if i = 0 then w.2.2 hd.ty
              else totalOf (fun k => w.2.1 hd.ty r.sat (r.rm k)) (leaf (src vs 0)) 8 0 i)
          ∧ RunsLanes (.vscan hd false w.1 d e a b) hd .lanes d [(.lanes, a)] (fun r vs =>
            vecOf hd.ty (brentKung (fun k => w.2.1 hd.ty r.sat (r.rm k)) (Nat.log2 hd.ty.lanes)
              ((List.range hd.ty.lanes).map (leaf (src vs 0)))))
          ∧ ∀ c, RunsLanes (.vscanc hd w.1 d e a b c) hd .lanes d [(.lanes, a), (.lanes, c)] fun r vs =>
            vecMade hd.ty fun i => w.2.1 hd.ty r.sat (r.rm i) (leaf (src vs 1) 0) (leaf (src vs 0) i))
    ∧ (∀ hd d e a b tot (s s1 s2 s3 s4 : State) (x y : Vec), s.vecStart hd.tok [d, e, a, b] s1 →
        readSrcs hd.ty (s.round hd) [(.lanes, a), (.lanes, b)] s1 = .ok ([x, y], s2) →
        let r := s.round hd
        let pairs := (List.range hd.ty.lanes).map fun i => (laneAt hd.ty x i, laneAt hd.ty y i)
        let q := scanLanes tot (fun k => opAffine hd.ty r.sat (r.rm k)) (affIdentity hd.ty) pairs
        writeDst hd.ty r .lanes d (vecOf hd.ty (q.map (·.1))) s2 = .ok ((), s3) →
        writeDst hd.ty r .lanes e (vecOf hd.ty (q.map (·.2))) s3 = .ok ((), s4) →
        exec (.vscan hd tot .affine d e a b) s = .next (s4.vecEnd (.vscan hd tot .affine d e a b) hd.tok r))
    ∧ (∀ hd d e a b c (s s1 s2 s3 s4 : State) (x y z : Vec), s.vecStart hd.tok [d, e, a, b, c] s1 →
        readSrcs hd.ty (s.round hd) [(.lanes, a), (.lanes, b), (.lanes, c)] s1 = .ok ([x, y, z], s2) →
        let r := s.round hd
        let q (i : Nat) := opAffine hd.ty r.sat (r.rm i) (laneAt hd.ty z 0, laneAt hd.ty z 1) (laneAt hd.ty x i, laneAt hd.ty y i)
        writeDst hd.ty r .lanes d (vecMade hd.ty fun i => (q i).1) s2 = .ok ((), s3) →
        writeDst hd.ty r .lanes e (vecMade hd.ty fun i => (q i).2) s3 = .ok ((), s4) →
        exec (.vscanc hd .affine d e a b c) s = .next (s4.vecEnd (.vscanc hd .affine d e a b c) hd.tok r))

/-- R223, R229, R231: the forms that move lanes: `vperm`, `vrot`, `vshuf`, `vdup`, `viota`, `vcmpr` (selected lanes
packed), `vexpd` (its inverse); `vcvt` converts the part that its field names, and reads a stream operand from its
bank's format into its own type in one encode; `vnft` writes the mask of lanes that are not finite and sets its flag
when there is one. -/
def Obligations.LaneMoves : Prop :=
  (∀ (hd : VHead) (d a b : Opnd),
      let n := hd.ty.lanes
      let x (vs : List Vec) (i : Nat) := laneAt hd.ty (src vs 0) i
      let y (vs : List Vec) (i : Nat) := laneAt hd.ty (src vs 1) i
      let two := [(As.lanes, a), (As.lanes, b)]
      RunsLanes (.vperm hd d a b) hd .lanes d two (fun _ vs => vecMade hd.ty fun i => x vs (y vs i % n))
        ∧ RunsLanes (.vrot hd d a b) hd .lanes d two (fun _ vs => vecMade hd.ty fun i => x vs ((i + y vs 0) % n))
        ∧ RunsLanes (.vdup hd d a b) hd .lanes d two (fun _ vs => vecMade hd.ty fun _ => x vs (y vs 0 % n))
        ∧ (∀ c, RunsLanes (.vshuf hd d a b c) hd .lanes d [(.lanes, a), (.lanes, b), (.lanes, c)] fun _ vs =>
            vecMade hd.ty fun i =>
              let k := laneAt hd.ty (src vs 2) i % (2 * n)
              if k < n then x vs k else y vs (k - n))
        ∧ RunsLanes (.viota hd d a) hd .lanes d [(.lanes, a)] (fun _ vs => vecMade hd.ty fun i => (x vs 0 + i) % 2 ^ hd.ty.bits)
        ∧ RunsLanes (.vcmpr hd d a b) hd .lanes d [(.lanes, a), (.mask, b)] (fun _ vs =>
            vecOf hd.ty (((List.range n).filter fun i => (src vs 1).getLsbD i).map (x vs)))
        ∧ RunsLanes (.vexpd hd d a b) hd .lanes d [(.lanes, a), (.mask, b)] (fun _ vs =>
            vecMade hd.ty fun i => if (src vs 1).getLsbD i then
              x vs ((List.range i).countP fun j => (src vs 1).getLsbD j) else 0))
    ∧ (∀ (hd : VHead) (part : BitVec 2) (st : Ty) (d a : Opnd) (s s1 s2 s3 : State) (v : Vec),
        (∀ k, a ≠ .p k) → s.vecStart hd.tok [d, a] s1 → readSrc st (s.round hd) .lanes a s1 = .ok (v, s2) →
        let r := s.round hd
        let one (i c : Nat) := encodeVal (fmtTy hd.ty) (decodeVal (fmtTy st) c) (r.rm i) r.sat
        let base := part.toNat * min hd.ty.lanes st.lanes
        writeDst hd.ty r .lanes d (vecMade hd.ty fun i =>
          if hd.ty.lanes ≤ st.lanes then one i (if base + i < st.lanes then laneAt st v (base + i) else 0)
          else if base ≤ i ∧ i < base + st.lanes then one i (laneAt st v (i - base)) else 0) s2 = .ok ((), s3) →
        exec (.vcvt hd part st d a) s = .next (s3.vecEnd (.vcvt hd part st d a) hd.tok r))
    ∧ (∀ hd part st d k, RunsLanes (.vcvt hd part st d (.p k)) hd .lanes d [(.lanes, .p k)] fun _ vs => src vs 0)
    ∧ (∀ (hd : VHead) (d a : Opnd) (b : BitVec 11) (s s1 s2 s3 : State) (v : Vec), s.vecStart hd.tok [d, a] s1 →
        (s1.rd (b.setWidth 6)).toNat ≤ 4095 → readSrc hd.ty (s.round hd) .lanes a s1 = .ok (v, s2) →
        let odd (i : Nat) : Bool := (laneVal hd.ty (laneAt hd.ty v i)).isNan || (laneVal hd.ty (laneAt hd.ty v i)).isInf
        writeDst hd.ty (s.round hd) .mask d (maskMade hd.ty odd) s2 = .ok ((), s3) →
        exec (.vnft hd d a (.s b)) s = .next
          ((if (List.range hd.ty.lanes).any odd then s3.setFlagOf s3.here.1 (s1.rd (b.setWidth 6)).toNat true else s3).vecEnd
            (.vnft hd d a (.s b)) hd.tok (s.round hd)))

/-- R121, R153, R214 to R216: the loads and stores of scratchpad runs. `vld` and `vst` move one run; `vldbc`
replicates one converted element (each lane with its own key under stochastic rounding, log 69; a column element of a
narrow bank may lie at an odd offset, log 94); `vldx` and `vstx` take for lane i the element that index lane i names
from the base (a nibble for `.nf` in a 4-bit bank, and past 2^22 from a pointer a relative address, log 94); `vstm`
writes the elements whose mask bit is set; `vstc` writes the selected lanes densely and moves a pointer by the bytes
they take. A column pointer raises 0x28 in `vldx`, `vstx` and `vstc`, as a dense run beyond two lines does, and a word
of `vldx` or `vstx` with a scalar base in column orientation is malformed (0x05). -/
def Obligations.ScratchpadVectors : Prop :=
  ∀ (hd : VHead) (d a b : Opnd) (s s1 : State),
    let t := hd.ty
    let r := s.round hd
    s.vecStart hd.tok [d, a] s1 →
    (∀ s2 s3 s4 s5 p v, spotOf a hd.mod.col (asMis t .lanes) s1 = .ok (p, s2) → readRun t r p s2 = .ok (v, s3) →
        stepPointer a s3 = .ok ((), s4) → writeDst t r .lanes d v s4 = .ok ((), s5) →
        exec (.vld hd d a) s = .next (s5.vecEnd (.vld hd d a) hd.tok r))
      ∧ (∀ s2 s3 s4 s5 p v, readSrc t r .lanes a s1 = .ok (v, s2) → spotOf d hd.mod.col (asMis t .lanes) s2 = .ok (p, s3) →
        writeRun t r p v s3 = .ok ((), s4) → stepPointer d s4 = .ok ((), s5) →
        exec (.vst hd d a) s = .next (s5.vecEnd (.vst hd d a) hd.tok r))
      ∧ (∀ s2 s3 s4 s5 p, spotOf a hd.mod.col slotMis s1 = .ok (p, s2) → slotMis p.col s2 p.cl p.off = false →
        (if p.col then awaitCol p.cl p.off (runCols 1 (s2.widthAt p)) else awaitOwed p.cl [p.off / 128]) s2 = .ok ((), s3) →
        stepPointer a s3 = .ok ((), s4) →
        writeDst t r .lanes d (vecMade t fun i => convert (fmtOfWord (s2.wordAt p)) (fmtTy t) (r.rm i) r.sat
          (slotRead (s3.cl p.cl) (s2.widthAt p) (8 * p.off))) s4 = .ok ((), s5) →
        exec (.vldbc hd d a) s = .next (s5.vecEnd (.vldbc hd d a) hd.tok r))
      ∧ (∀ s2 s3 s4 s5 p idx (cl bit : Nat → Nat), readSrc t r .mask b s1 = .ok (idx, s2) →
        spotOf a hd.mod.col rowMis s2 = .ok (p, s3) →
        (∀ i, i < t.lanes → elementAt s3 p (s3.widthAt p) t (laneAt t idx i) (cl i) (bit i)) →
        stepPointer a s3 = .ok ((), s4) →
        writeDst t r .lanes d (vecMade t fun i =>
          let c := slotRead (s3.cl (cl i)) (s3.widthAt p) (bit i)
          if t.isN then c else convert (fmtAtBit s3 (cl i) (bit i)) (fmtTy t) (r.rm i) r.sat c) s4 = .ok ((), s5) →
        exec (.vldx hd d a b) s = .next (s5.vecEnd (.vldx hd d a b) hd.tok r))
      ∧ (∀ s2 s3 s4 s5 p v idx (cl bit : Nat → Nat), readSrc t r .lanes a s1 = .ok (v, s2) →
        readSrc t r .mask b s2 = .ok (idx, s3) →
        spotOf d hd.mod.col rowMis s3 = .ok (p, s4) →
        (∀ i, i < t.lanes → elementAt s4 p (s4.widthAt p) t (laneAt t idx i) (cl i) (bit i)) →
        let code (i : Nat) : Nat := if t.isN then laneAt t v i
          else convert (fmtTy t) (fmtAtBit s4 (cl i) (bit i)) (r.rm i) r.sat (laneAt t v i)
        stepPointer d ((List.range t.lanes).foldl (fun u i =>
          slotWrite u (cl i) (s4.widthAt p) (bit i) (code i)) s4) = .ok ((), s5) →
        exec (.vstx hd d a b) s = .next (s5.vecEnd (.vstx hd d a b) hd.tok r))
      ∧ (∀ s2 s3 s4 s5 s6 p v m q, readSrc t r .lanes a s1 = .ok (v, s2) → readSrc t r .mask b s2 = .ok (m, s3) →
        spotOf d hd.mod.col (asMis t .lanes) s3 = .ok (p, s4) → runSlots t p s4 = .ok (q, s4) →
        claimRun p.cl q.2 q.1 p.off p.col p.addr.toNat s4 = .ok ((), s5) →
        let code (i : Nat) : Nat := if t.isN then laneAt t v i
          else convert (fmtTy t) (fmtOfWord (s5.wordAt p)) (r.rm i) r.sat (laneAt t v i)
        stepPointer d ((List.range t.lanes).foldl (fun u i => if m.getLsbD i then
          slotWrite u p.cl q.1 (q.2.getD i 0) (code i) else u) s5) = .ok ((), s6) →
        exec (.vstm hd d a b) s = .next (s6.vecEnd (.vstm hd d a b) hd.tok r))
      ∧ (∀ s2 s3 s4 s5 p v m, readSrc t r .lanes a s1 = .ok (v, s2) → readSrc t r .mask b s2 = .ok (m, s3) →
        let on := (List.range t.lanes).filter fun i => m.getLsbD i
        spotOf d hd.mod.col (denseMis on.length) s3 = .ok (p, s4) →
        (t.isN = true → bits (s4.wordAt p) 3 0 = 11) →
        let z := s4.widthAt p
        let len := (on.length * z + 7) / 8
        rejectOwed p.cl (linesOf p.off len) p.addr.toNat s4 = .ok ((), s5) →
        let code (i : Nat) : Nat := if t.isN then laneAt t v i
          else convert (fmtTy t) (fmtOfWord (s4.wordAt p)) (r.rm i) r.sat (laneAt t v i)
        let u := (on.zipIdx).foldl (fun u e => slotWrite u p.cl z (8 * p.off + z * e.2) (code e.1)) s5
        let moved := match d with
          | .p k => u.modCl u.here.1 fun x => ptrMove x k.toNat (x.walk u.here.2).dp len
          | _ => u
        exec (.vstc hd d a b) s = .next (moved.vecEnd (.vstc hd d a b) hd.tok r))
      ∧ (∀ s2 idx k, readSrc t r .mask b s1 = .ok (idx, s2) → a = .p k → s2.ownsPtr k → bit (s2.ptrWord k) 60 = true →
        exec (.vldx hd d a b) s = .next (s.raise 0x28#8 (BitVec.ofNat 64 (bits (s2.ptrWord k) 21 0))))
      ∧ (∀ s2 s3 v m k, readSrc t r .lanes a s1 = .ok (v, s2) → readSrc t r .mask b s2 = .ok (m, s3) → d = .p k → s3.ownsPtr k →
        let off := bits (s3.ptrWord k) 21 0
        let z := slotBits (fmtWordOf s3 s3.here.1 (off / 65536))
        let len := (((List.range t.lanes).countP fun i => m.getLsbD i) * z + 7) / 8
        (bit (s3.ptrWord k) 60 = true → exec (.vstx hd d a b) s = .next (s.raise 0x28#8 (BitVec.ofNat 64 off)))
          ∧ ((bit (s3.ptrWord k) 60 = true ∨ (len ≠ 0 ∧ (off / 8192 ≠ (off + len - 1) / 8192 ∨ 1 < (off + len - 1) / 128 - off / 128))) →
            exec (.vstc hd d a b) s = .next (s.raise 0x28#8 (BitVec.ofNat 64 off))))
      ∧ (∀ k, hd.mod.col = true → wf (.vldx hd d (.s k) b) = false ∧ wf (.vstx hd (.s k) a b) = false)

/-- R119, R143, R217, R218: the device-memory forms. At an aligned address that reaches device memory through an
unchecked page that L1 does not hold, `vldg` completes and writes the line's 128 bytes to its destination; `vstg`
completes and stores them there and nowhere else; `vldfl` completes and writes the line and an all-ones mask, or,
where its address meets a cause that it suppresses, zero and a mask of zero. `vpref` completes whatever its address,
with its request made, and with no register, vector name or byte of a scratchpad changed. -/
def Obligations.DeviceVectors : Prop :=
  ∀ (hd : VHead) (d a b : Opnd) (k : BitVec 11) (s s1 : State),
    let t := hd.ty
    let r := s.round hd
    let va := s1.rd (k.setWidth 6)
    s.vecStart hd.tok [] s1 →
    (∀ s2 s3 p, s1.deviceLine va false s2 p →
        writeDst t r .lanes d (BitVec.ofNat 1024 (leNat (s2.hbmRead p 128))) (l2Read p 128 s2) = .ok ((), s3) →
        exec (.vldg hd d (.s k)) s = .next (s3.vecEnd (.vldg hd d (.s k)) hd.tok r))
      ∧ (∀ s2 s3 p v, readSrc t r .lanes a s1 = .ok (v, s2) → s2.rd (k.setWidth 6) = va → s2.deviceLine va true s3 p →
        let c := s3.here.1
        let s4 := addWack ((devStore p (natLe 128 v.toNat) s3).modCl c fun y => l1Update y p (natLe 128 v.toNat)) c 1
        exec (.vstg hd (.s k) a) s = .next (s4.vecEnd (.vstg hd (.s k) a) hd.tok r)
          ∧ s4.hbmRead p 128 = natLe 128 v.toNat
          ∧ (∀ y, ¬ (p ≤ y ∧ y < p + 128) → Mem.byte s4.hbm y = Mem.byte s2.hbm y)
          ∧ (∀ c y, s4.spByte c y = s2.spByte c y))
      ∧ (∀ s2 s3 s4 p, s1.deviceLine va false s2 p →
        writeDst t r .lanes d (BitVec.ofNat 1024 (leNat (s2.hbmRead p 128))) (l2Read p 128 s2) = .ok ((), s3) →
        writeDst t r .mask b (maskMade t fun _ => true) s3 = .ok ((), s4) →
        exec (.vldfl hd d (.s k) b) s = .next (s4.vecEnd (.vldfl hd d (.s k) b) hd.tok r))
      ∧ (∀ s3 s4, bits va.toNat 63 48 = 0 → va.toNat % 128 = 0 →
        (∀ q, translate s1.who va.toNat false false s1 = .ok q → ∃ c o, q.2.tgt = .sram c o) →
        (∀ e, translate s1.who va.toNat false false s1 = .error e → e ∈ [0x20#8, 0x21#8, 0x22#8, 0x29#8, 0x2A#8, 0x2B#8]) →
        writeDst t r .lanes d 0#1024 s1 = .ok ((), s3) → writeDst t r .mask b 0#1024 s3 = .ok ((), s4) →
        exec (.vldfl hd d (.s k) b) s = .next (s4.vecEnd (.vldfl hd d (.s k) b) hd.tok r))
      ∧ (let u := (prefetch va s1).vecEnd (.vpref hd (.s k)) hd.tok r
        exec (.vpref hd (.s k)) s = .next u ∧ (∀ n, u.regOf s.actor n = s.regOf s.actor n)
          ∧ (∀ c, (u.cl c).sregs = (s.cl c).sregs ∧ (u.cl c).vnames = (s.cl c).vnames ∧ (u.cl c).sram = (s.cl c).sram))

/-- R68, R219: the bit-field forms, where the format word and the pattern line can be taken: `vbfx` extracts the
fields of the source's 1,024 bits, `vldb` those of two lines of a scratchpad block, `vlds` those of two device lines;
`vstb` and `vsts` insert the lanes into their two lines, of which `vsts` writes the sectors that a field touches,
merged at their slices. R68, R219: what inserting lanes into a packed string leaves: field j holds lane j's code,
converted, and every bit outside the fields is as it was, for a pattern whose fields do not overlap. -/
def Obligations.BitFields : Prop :=
  (∀ (hd : VHead) (base : BitVec 10) (fmt : BitVec 32) (d a c : Opnd) (s s1 s2 : State) (f : Fmt) (q : Pattern),
      let t := hd.ty
      let r := s.round hd
      let out (str : Nat) : Vec := vecMade t fun j => fieldLane t r f q base.toNat str j
      (s.vecStart hd.tok [d, a] s1 →
          (∀ s3 s4 v, s1.patternAt t fmt c base.toNat t.lanes 1024 f q s2 → readSrc t r .mask a s2 = .ok (v, s3) →
            writeDst t r .lanes d (out v.toNat) s3 = .ok ((), s4) →
            exec (.vbfx hd base fmt d a c) s = .next (s4.vecEnd (.vbfx hd base fmt d a c) hd.tok r))
          ∧ (∀ s3 s4 s5 p, s1.patternAt t fmt c base.toNat t.lanes 2048 f q s2 → twoRowLines a hd.mod.col s2 = .ok (p, s3) →
            away s3 s3.selfCtx p.cl = false → owedLine (s3.cl p.cl) (p.off / 128) = false →
            owedLine (s3.cl p.cl) (p.off / 128 + 1) = false → (s3.cl p.cl).bad = [] → stepPointer a s3 = .ok ((), s4) →
            writeDst t r .lanes d (out (leNat (sramRead (s3.cl p.cl) p.off 256))) s4 = .ok ((), s5) →
            exec (.vldb hd base fmt d a c) s = .next (s5.vecEnd (.vldb hd base fmt d a c) hd.tok r))
          ∧ (∀ s3 s4 s5 p v, s1.patternAt t fmt c base.toNat t.lanes 2048 f q s2 → readSrc t r .lanes a s2 = .ok (v, s3) →
            twoRowLines d hd.mod.col s3 = .ok (p, s4) → away s4 s4.selfCtx p.cl = false →
            owedLine (s4.cl p.cl) (p.off / 128) = false → owedLine (s4.cl p.cl) (p.off / 128 + 1) = false →
            (s4.cl p.cl).bad = [] → stepPointer d (sramWrite s4 p.cl p.off
              (natLe 256 (insertLanes t r f q base.toNat v (leNat (sramRead (s4.cl p.cl) p.off 256))))) = .ok ((), s5) →
            exec (.vstb hd base fmt d a c) s = .next (s5.vecEnd (.vstb hd base fmt d a c) hd.tok r)))
        ∧ (s.vecStart hd.tok [] s1 → s1.patternAt t fmt c base.toNat t.lanes 2048 f q s2 →
          (∀ k s3 s4 s5 p p', a = .s k → let va := s2.rd (k.setWidth 6)
            s2.deviceLine va false s3 p → (l2Read p 128 s3).deviceLine (va + 128#64) false s4 p' →
            writeDst t r .lanes d (out (leNat (s3.hbmRead p 128) + 2 ^ 1024 * leNat (s4.hbmRead p' 128))) (l2Read p' 128 s4)
              = .ok ((), s5) →
            exec (.vlds hd base fmt d a c) s = .next (s5.vecEnd (.vlds hd base fmt d a c) hd.tok r))
          ∧ (∀ k s3 v, d = .s k → readSrc t r .lanes a s2 = .ok (v, s3) → let va := s3.rd (k.setWidth 6)
            ∀ xl s4 xh s5, lineTarget va true s3 = .ok (xl, s4) → lineTarget (va + 128#64) true s4 = .ok (xh, s5) →
            let put := insertLanes t r f q base.toNat v
            let str := put (leNat (portBytes s5 xl ++ portBytes s5 xh))
            let mask := 2 ^ 2048 - 1 - (put 0 ^^^ put (2 ^ 2048 - 1))
            ∀ s6 s7, lineMerge va xl (mask % 2 ^ 1024) (natLe 128 str) s5 = .ok ((), s6) →
            lineMerge (va + 128#64) xh (mask / 2 ^ 1024) (natLe 128 (str / 2 ^ 1024)) s6 = .ok ((), s7) →
            exec (.vsts hd base fmt d a c) s = .next (s7.vecEnd (.vsts hd base fmt d a c) hd.tok r))))
    ∧ (∀ (t : Ty) (r : Round_) (f : Fmt) (q : Pattern) (base str : Nat) (v : Vec),
      q.fits base t.lanes 2048 = true → str < 2 ^ 2048 →
      (∀ i j, i < j → j < t.lanes →
        (q.at base i).1 + (q.at base i).2 ≤ (q.at base j).1 ∨ (q.at base j).1 + (q.at base j).2 ≤ (q.at base i).1) →
      let out := insertLanes t r f q base v str
      (∀ j, j < t.lanes → out / 2 ^ (q.at base j).1 % 2 ^ (q.at base j).2
          = (if t.isN then laneAt t v j else convert (fmtTy t) f (r.rm j) r.sat (laneAt t v j)) % 2 ^ (q.at base j).2)
        ∧ (∀ n, (∀ j, j < t.lanes → ¬ ((q.at base j).1 ≤ n ∧ n < (q.at base j).1 + (q.at base j).2)) →
          out.testBit n = str.testBit n))

/-- R164, R232, R233: `vbr`. The S PC checks the target and waits for the steering token; the A PC, once the outcomes
posted before have been taken, takes its tokens, decides by the mask and the condition, sends where the others
continue, and continues there itself; each other PC waits for that and then continues there. -/
def Obligations.VectorBranch : Prop :=
  ∀ (t : Ty) (c : BrCond) (tok : Tok) (a : Opnd) (off : BitVec 32) (s : State) (cl : Nat) (n : Nat),
    let i := Instr.vbr t c tok a off
    (∀ e, s.actor = .pc cl e →
        (∀ nx, ((s.cl cl).walk e).token = some nx →
          exec i s = .next (retireTo i nx (if e = .S then s.modCl cl fun x => { x with vbrAt := none } else s)))
          ∧ (((s.cl cl).walk e).token = none → e ≠ .S → e ≠ .A → exec i s = .next (s.noteWait .steering)))
      ∧ ((n : Int) = s.selfPc + off.toInt → n < s.textSize → leavesBody s n = false →
        (s.actor = .pc cl .S → (s.cl cl).wS.token = none → staysInBody i s →
            exec i s = .next ((s.modCl cl fun x =>
              if x.vbrAt = some x.wS.dp then x else { x.clearWaits with vbrAt := some x.wS.dp }).noteWait .steering))
          ∧ (∀ s1 s2 v, s.actor = .pc cl .A → (s.cl cl).wA.token = none → (s.cl cl).outcomes = [] → popTokens .A tok.pop s = .ok ((), s1) →
            readSrc t (roundOf s 0#3 false) .mask a s1 = .ok (v, s2) →
            let lit (k : Nat) : Prop := k < t.lanes ∧ v.getLsbD k = true
            let holds : Prop := match c with
              | .any => ∃ k, lit k | .none => ∀ k, ¬ lit k | .all => ∀ k, k < t.lanes → lit k | .notall => ∃ k, k < t.lanes ∧ ¬ lit k
            ∃ nx u, exec i s = .next u ∧ (holds → nx = n) ∧ (¬ holds → nx = s.selfPc + 12)
              ∧ (∀ e, e ≠ .A → ((u.cl cl).walk e).steer = ((s2.cl cl).walk e).steer ++ [((s2.cl cl).wA.dp, nx)] ∧ ((u.cl cl).walk e).dp = ((s2.cl cl).walk e).dp)
              ∧ (u.cl cl).wA.dp = (s2.cl cl).wA.dp + 12
              ∧ (u.cl cl).wA.pc = (loopEnd nx (s2.cl cl).wA.loops).1))

/-- R236, R250 to R255, R260, R265: the five products run wherever their steps can be taken, but for errors that they
consume. `mmac`, `mmacs` and `mrot` take the steps of whole slabs where the grove's source slabs are full and fit each
other; `mrot` then moves its slabs; `mgx` takes its rows of A from the lines that its indices name. R69, R70, R236,
R243, R251: one step of a product: each element of the set in each tile of the grove that still steps takes one step
of its row of A and its row of B, or stays where A names no row; the other sets, the tiles that have no more steps and
the tiles outside the grove stay, and the set is unsettled. A slab that moves gives each tile the lines and the tags
of its source, of both slabs where the source is FP32; R251 does not say the latter, and it is the model's (log 54).
-/
def Obligations.MatrixProducts : Prop :=
  (∀ (tok : Tok) (t : Ty) (acc rms : BitVec 2) (sa sb : BitVec 3),
      (RunsProduct (.mmac tok t acc sa sb rms) tok acc (mmacSteps t acc sa sb rms none))
        ∧ (∀ qa ca qb cb, RunsProduct (.mmacs tok t acc sa sb rms qa ca qb cb) tok acc
            (mmacSteps t acc sa sb rms (some (qa.toNat, ca.toNat, qb.toNat, cb.toNat))))
        ∧ (RunsProduct (.mrot tok t acc sa sb rms) tok acc (mrotSteps t acc sa sb rms))
        ∧ (∀ a c, RunsProduct (.mgx tok t acc sb rms a c) tok acc (mgxSteps t acc sb rms a c))
        ∧ (∀ a b nb j ks, RunsProduct (.mgrp tok t acc rms a b nb j ks) tok acc (mgrpSteps t acc rms a b nb j ks))
        ∧ (∀ (s : State), let cl := s.selfCl; let g := (s.cl cl).grove
            let T (r c : Nat) : Tile := s.tile (dieOf cl) (g.at r c)
            g.h ≠ 0 → g.w ≠ 0 →
            (∀ z, (∀ r c, r < g.h → c < g.w → slabSource t (T r 0) sa.toNat ∧ slabSource t (T 0 c) sb.toNat
                ∧ slotBits ((T r 0).tag sa.toNat) = z ∧ slotBits ((T 0 c).tag sb.toNat) = z) →
              (mmacSteps t acc sa sb rms none s
                  = .ok (slabSteps cl acc.toNat t rms g (slabFeed s cl sa.toNat sb.toNat false none), s))
                ∧ ∀ qa ca qb cb : Nat, z ≤ 8 → t ≠ .i32 → ca + 2 * stepsOf z ≤ 64 → cb + 2 * stepsOf z ≤ 64 →
                  (∀ r c, r < g.h → c < g.w → slabScales (T r 0) qa ∧ slabScales (T 0 c) qb) →
                  mmacSteps t acc sa sb rms (some (qa, ca, qb, cb)) s
                    = .ok (slabSteps cl acc.toNat t rms g (slabFeed s cl sa.toNat sb.toNat false (some (qa, ca, qb, cb))), s))
              ∧ (g.h = g.w → (∀ r c, r < g.h → c < g.w → slabSource t (T r c) sa.toNat ∧ slabSource t (T r c) sb.toNat
                  ∧ slotBits ((T r c).tag sa.toNat) = slotBits ((T r c).tag sb.toNat)) →
                ∃ l, mrotSteps t acc sa sb rms s = .ok (l, s) ∧ ∀ u : State,
                  l.foldl (fun (u : State) (m : MStep) => m.2.2 u) u = rotated s cl sa.toNat sb.toNat
                    ((slabSteps cl acc.toNat t rms g (slabFeed s cl sa.toNat sb.toNat true none)).foldl
                      (fun (u : State) (m : MStep) => m.2.2 u) u))
              ∧ (∀ (z : Nat) (pk : Bool) (n m : BitVec 11), let base := (s.rd (m.setWidth 6)).toNat
                let idx (r : Nat) : Vec := KMap.getD (s.cl cl).vnames (n.toNat + r) 0#1024
                z ≠ 32 → base % 128 = 0 → (∀ r, r < g.h → n.toNat + r ≤ 1535 ∧ shapeOf (s.cl cl) (n.toNat + r) = none) →
                (s.cl cl).nameBad = [] →
                (∀ c, c < g.w → slabSource t (T 0 c) sb.toNat ∧ slotBits ((T 0 c).tag sb.toNat) = z) →
                (∀ r i a, r < g.h → i < 64 → gatherAddr base (idx r) i = some a → ∃ c off w, lineAt s a = .ok (c, off, w)
                  ∧ away s s.selfCtx c = false ∧ owedLine (s.cl c) (off / 128) = false ∧ (s.cl c).bad = []
                  ∧ wordAdmitted w = true ∧ slotBits w = z ∧ wordInt w = (t == .i32)) →
                ∃ f : Feed, mgxSteps t acc sb rms (.s m) (.v pk n) s = .ok (slabSteps cl acc.toNat t rms g f, s) ∧ f.scale.isNone = true
                  ∧ (∀ r c, c < g.w → f.steps r c = stepsOf z)
                  ∧ (∀ r c i, r < g.h → i < 64 → f.rowA r c i = (gatherAddr base (idx r) i).bind fun a =>
                    (lineAt s a).toOption.map fun y => lineRow y.2.2 (bytesVec (sramRead (s.cl y.1) y.2.1 128)))
                  ∧ ∀ r c j, c < g.w → f.rowB r c j = ((T 0 c).tag sb.toNat, slabCode (T 0 c) sb.toNat z j))))
    ∧ (∀ (s : State) (cl n st : Nat) (int : Bool) (rm : Rm) (f : Feed), n < 4 →
      let g := (s.cl cl).grove
      let d := dieOf cl
      g.col + g.w ≤ 24 →
      let u := feedStep cl n int rm f st s
      ((∀ r c, r < g.h → c < g.w →
            (f.steps r c ≤ st → u.tile d (g.at r c) = s.tile d (g.at r c))
            ∧ (st < f.steps r c → (s.tile d (g.at r c)).upset = false → ∀ i j, i < 64 → j < 64 →
              (u.tile d (g.at r c)).elem n i j = (match f.rowA r c i with
                | none => (s.tile d (g.at r c)).elem n i j
                | some a => elemStep int rm st a (f.rowB r c j) (f.scale.map fun x => (x.1 r i, x.2 c j)) ((s.tile d (g.at r c)).elem n i j))
              ∧ ∀ m, m < 4 → m ≠ n → (u.tile d (g.at r c)).elem m i j = (s.tile d (g.at r c)).elem m i j))
          ∧ (∀ k, k ∉ g.tiles → u.tile d k = s.tile d k)
          ∧ (u.cl cl).grove.settled.getLsbD n = false ∧ (∀ m, m ≠ n → (u.cl cl).grove.settled.getLsbD m = g.settled.getLsbD m)
          ∧ (u.cl cl).sregs = (s.cl cl).sregs ∧ (u.cl cl).sram = (s.cl cl).sram ∧ u.hbm = s.hbm)
        ∧ ∀ (k : Nat) (at_ : Nat → Nat → Nat × Nat) (r c l : Nat), r < g.h → c < g.w → l < 64 →
          let o := s.tile d (g.at (at_ r c).1 (at_ r c).2)
          ∀ k' ∈ slabRun o k, ((rotateSlab cl k at_ s).tile d (g.at r c)).line k' l = o.line k' l
            ∧ ((rotateSlab cl k at_ s).tile d (g.at r c)).tag k' = o.tag k')

/-- R240, R244, R248, R249, R257 to R261, Table 10.2: `mchk`, `mzero`, `mkeep`, `mrel`, `mmov` and `mrd` in a grove:
checking switched, a set's sums verified, a set zeroed, kept, or read, a slab released, the shape and status read, or
a routing policy that holds no error. Without a grove those that need one raise 0x12; `mrd` reads shape and status
then too. -/
def Obligations.MatrixSets : Prop :=
  ∀ (tok : Tok) (acc : BitVec 2) (s s1 : State), s.vecStart tok [] s1 →
    let cl := s1.selfCl
    let d := dieOf cl
    let g := (s1.cl cl).grove
    (g.h = 0 → ∀ (op : ChkOp) (sl : BitVec 3), ∀ i ∈ [Instr.mchk tok op acc, .mkeep tok acc, .mzero tok acc, .mrel tok sl],
        exec i s = .next (s.raise 0x12#8 0#64))
      ∧ (g.h ≠ 0 → ∀ on : Bool, exec (.mchk tok (if on then .on else .off) acc) s = .next
        ((s1.modCl cl fun x => { x with grove := { x.grove with checked := on } }).matEnd s (.mchk tok (if on then .on else .off) acc) tok))
      ∧ (g.h ≠ 0 → (∀ k ∈ g.tiles, (s1.tile d k).accBad = []) → (∀ k ∈ g.tiles, cellsHold (s1.tile d k) acc.toNat) →
          exec (.mchk tok .verify acc) s = .next (s1.matEnd s (.mchk tok .verify acc) tok))
      ∧ (g.h ≠ 0 → (∃ k ∈ g.tiles, ¬ cellsHold (s1.tile d k) acc.toNat) →
          exec (.mchk tok .verify acc) s = .next (s.raiseSelfCheck 0xC6#8))
      ∧ (g.h ≠ 0 → exec (.mkeep tok acc) s = .next
          ((s1.modCl cl fun x => { x with grove := x.grove.settle acc.toNat true }).matEnd s (.mkeep tok acc) tok))
      ∧ (g.h ≠ 0 → ∃ u, exec (.mzero tok acc) s = .next u ∧ (u.cl cl).grove = g.settle acc.toNat false
          ∧ (∀ k ∈ g.tiles, ∀ i j, i < 64 → j < 64 → (u.tile d k).elem acc.toNat i j = 0#32
            ∧ ∀ m, m < 4 → m ≠ acc.toNat → (u.tile d k).elem m i j = (s1.tile d k).elem m i j)
          ∧ (∀ k, k ∉ g.tiles → u.tile d k = s1.tile d k) ∧ u.hbm = s1.hbm)
      ∧ (g.h ≠ 0 → ∀ sl : BitVec 3,
        ((∃ k ∈ g.tiles, ∃ n, n < 64 ∧ (s1.tile d k).state sl.toNat n = .owed) → exec (.mrel tok sl) s = .next (s.noteWait .owed))
          ∧ ((∀ k ∈ g.tiles, ∀ n, n < 64 → (s1.tile d k).state sl.toNat n ≠ .owed) →
            ∃ u, exec (.mrel tok sl) s = .next u ∧ (u.cl cl).grove = g
              ∧ (∀ k ∈ g.tiles, ∀ n, n < 64 → (u.tile d k).state sl.toNat n = .free
                ∧ ∀ m, m < 8 → m ≠ sl.toNat → (u.tile d k).state m n = (s1.tile d k).state m n
                  ∧ (u.tile d k).line m n = (s1.tile d k).line m n)
              ∧ (∀ k, k ∉ g.tiles → u.tile d k = s1.tile d k)))
      ∧ (∀ pk m a s3, writeName m.toNat (vecZ 32 ([shapeWord cl g, (if g.checked then 1 else 0) + 16 * g.settled.toNat + 256 * g.kept.toNat]
            ++ (List.range 8).map fun sl => g.tiles.countP fun k => (List.range 64).all fun n => (s1.tile d k).state sl n == .full)) s1
              = .ok ((), s3) →
          exec (.mrd tok 0#3 (.v pk m) a) s = .next (s3.matEnd s (.mrd tok 0#3 (.v pk m) a) tok))
      ∧ (∀ pk m n s3, (s1.rd (n.setWidth 6)).toNat ≤ 1023 → badRpol s1 cl (s1.rd (n.setWidth 6)).toNat = false →
          let v := (KMap.getD (s1.die d).rpol (s1.rd (n.setWidth 6)).toNat 0#64).toNat
          writeName m.toNat (vecZ 32 [v % 2 ^ 32, v / 2 ^ 32]) s1 = .ok ((), s3) →
          exec (.mrd tok 1#3 (.v pk m) (.s n)) s = .next (s3.matEnd s (.mrd tok 1#3 (.v pk m) (.s n)) tok))

/-- R241, R244, R245, R248, R258, R259: `mshape` gives the cluster the grove that its operand describes, tiles that
join or leave it cleared and sets of tiles that stay zeroed but for the kept; `mfill` marks the slab's lines owed,
tags it, and issues the block's 64 lines with the bytes that they have at issue (log 54); `mdrain` stores a set
converted, 64 elements a run; `mmov` writes a row of a set to a vector. -/
def Obligations.MatrixMoves : Prop :=
  (∀ (tok : Tok) (n : BitVec 11) (s s1 : State) (r c h w : Nat), s.vecStart tok [] s1 →
      let cl := s1.selfCl
      let d := dieOf cl
      let g := (s1.cl cl).grove
      let new : Grove := ⟨r, c, h, w, 15#4, 0#4, g.checked⟩
      slabFillsOwed s1 cl = false →
      shapeRect cl (s1.rd (n.setWidth 6)).toNat = some (r, c, h, w) →
      (g.h ≠ 0 → g.settled = 15#4 ∧ ∀ k ∈ g.tiles, ∀ sl l, sl < 8 → l < 64 → (s1.tile d k).state sl l = .free) →
      (∀ k ∈ new.tiles, k ∉ g.tiles → (s1.tile d k).busyAtStart = false ∧ (s1.tile d k).claimed = false
        ∧ (s1.tile d k).owner = none ∧ inGang s1 s1.selfGang (homeOf d k) = true) →
      ∃ u, exec (.mshape tok (.s n)) s = .next u ∧ (u.cl cl).grove = new
        ∧ (∀ k, k ∈ new.tiles → k ∉ g.tiles → u.tile d k = { (s1.tile d k).clear with owner := some cl, claimed := true })
        ∧ (∀ k, k ∈ g.tiles → k ∉ new.tiles → u.tile d k = { (s1.tile d k).clear with owner := none })
        ∧ (∀ k, k ∈ g.tiles → k ∈ new.tiles → ∀ m i j, m < 4 → i < 64 → j < 64 →
          (u.tile d k).elem m i j = if g.kept.getLsbD m then (s1.tile d k).elem m i j else 0#32)
        ∧ (∀ k, k ∉ g.tiles → k ∉ new.tiles → u.tile d k = s1.tile d k))
    ∧ (∀ (tok : Tok) (col : Bool) (sl : BitVec 3) (a : Opnd) (b : BitVec 11) (s s1 : State) (c off : Nat), s.vecStart tok [] s1 →
      let cl := s1.selfCl
      let g := (s1.cl cl).grove
      let k := (s1.rd (b.setWidth 6)).toNat
      let tk := g.at (k / g.w) (k % g.w)
      let w := fmtWordOf s1 c (off / 65536)
      let ref (n : Nat) : LineRef := .tile (dieOf cl) (tk / 24) (tk % 24) sl.toNat n
      g.h ≠ 0 → k < g.h * g.w →
      (∃ p, spotOf a false (fun _ _ _ off => off % 8192 != 0) s1 = .ok (p, s1) ∧ p.cl = c ∧ p.off = off) →
      (col = true → slotBits w ≠ 32) → away s1 s1.selfCtx c = false → (s1.cl c).bad = [] →
      (∀ n, n < 64 → (s1.tile (dieOf cl) tk).state sl.toNat n = .free ∧ owedLine (s1.cl c) ((off + 128 * n) / 128) = false) →
      ∃ u, exec (.mfill tok col sl a (.s b)) s = .next u ∧ (u.tile (dieOf cl) tk).tag sl.toNat = w % 2 ^ 64
        ∧ (∀ n, n < 64 → (u.tile (dieOf cl) tk).state sl.toNat n = .owed)
        ∧ u.fills = s1.fills ++ (List.range 64).map (fun n =>
          ⟨ref n, (blockLine (s1.cl c) off col n).mapIdx fun i b => (i, b), .copy, cl, 0#32, 0, s1.selfDp, 0#32, false, true⟩))
    ∧ (∀ (hd : VHead) (acc : BitVec 2) (d : Opnd) (s s1 : State) (p : Spot), s.vecStart hd.tok [d] s1 →
      let cl := s1.selfCl
      let g := (s1.cl cl).grove
      spotOf d hd.mod.col (drainMis g) s1 = .ok (p, s1) →
      let z := s1.widthAt p
      let f (o : Nat) : Nat := fmtWordOf s1 p.cl (o / 65536)
      g.h ≠ 0 → g.w ≠ 0 → g.col + g.w ≤ 24 → away s1 s1.selfCtx p.cl = false → (s1.cl p.cl).bad = [] →
      (∀ k ∈ g.tiles, (s1.tile (dieOf cl) k).accBad = []) →
      bits (s1.wordAt p) 3 0 = hd.ty.code.toNat → (p.col = true → z = 16 ∧ p.off % 8192 = 0) →
      (∀ q ∈ drainRuns g z p.off p.col, inBanks (s1.cl p.cl) q.1 = true ∧ bits (f q.1) 3 0 = hd.ty.code.toNat
        ∧ slotBits (f q.1) = z ∧ ∃ ps, runBits 64 z q.1 p.col = .ok ps
          ∧ ∀ l ∈ runLines ps z q.1 p.col, owedLine (s1.cl p.cl) l = false) →
      ∃ u, exec (.mdrain hd acc d) s = .next u ∧ (u.cl cl).grove = g.settle acc.toNat false
        ∧ ∀ r c i j ps, r < g.h → c < g.w → i < 64 → j < 64 →
          let o := if p.col then p.off + (r * g.w + c) * 0x2000 + 2 * i else p.off + ((64 * r + i) * g.w + c) * 64 * z / 8
          runBits 64 z o p.col = .ok ps →
          slotRead (u.cl p.cl) z (ps.getD j 0) = accConvert (s1.tile (dieOf cl) (g.at r c)) acc.toNat i j (fmtOfWord (f o))
            ((s.round hd).rm (64 * g.w * (64 * r + i) + 64 * c + j)) hd.mod.sat % 2 ^ z)
    ∧ (∀ (hd : VHead) (acc : BitVec 2) (pk : Bool) (m n : BitVec 11) (s s1 s2 : State),
      s.vecStart hd.tok [.v pk m, .s n] s1 →
      let v := (s1.rd (n.setWidth 6)).toNat
      let g := (s1.cl s1.selfCl).grove
      let k := bits v 11 6
      let x := s1.tile s1.selfDie (g.at (k / g.w) (k % g.w))
      let first := if hd.ty.bits = 32 then 32 * bits v 12 12 else 0
      v < 8192 → g.h ≠ 0 → k < g.h * g.w → (∀ k ∈ g.tiles, (s1.tile s1.selfDie k).accBad = []) →
      writeName m.toNat (vecOf hd.ty ((List.range (if hd.ty.bits = 32 then 32 else 64)).map fun j =>
        accConvert x acc.toNat (bits v 5 0) (first + j) (fmtTy hd.ty) ((s.round hd).rm j) hd.mod.sat)) s1 = .ok ((), s2) →
      exec (.mmov hd acc (.v pk m) (.s n)) s = .next (s2.vecEnd (.mmov hd acc (.v pk m) (.s n)) hd.tok (s.round hd)))

/-- R125, R128: a C instruction that issues a command. Where every PC has reached it and the template and its fields
stand the checks, the command takes the next number of its queue and is kicked; once the engine accepts it the
instruction ends with the number in s[D], and until then it waits with the kick pending. R17, R128, R135, R136: an
engine accepts a command while it has a free slot and no line that the command fills is owed: the command takes the
slot, not started, and its lines are owed; no register, no flag and no byte of memory changes. An `escat` is accepted
once its wait bits are set and its list is read, which names its lines, and it starts then; one whose list cannot be
read takes its slot with nothing owed (the model's choice, log 55). -/
def Obligations.CommandIssue : Prop :=
  (∀ w ∈ issueRows, ∀ (s s1 s2 : State) (p : Pred) (d a f0 f1 f2 f3 : Reg) (c0 c1 : Cmd),
      let i := w.form p d a f0 f1 f2 f3
      let cl := s.selfCl
      let who := agentNum s
      s.holds p = true →
      (noKick s → allPassed s → template w.unit w.op a [f0, f1, f2, f3] s = .ok (c0, s1) → w.check c0 s1 = .ok (c1, s2) →
          let c := numbered c1 ((s2.cl cl).lastSeq w.unit + 1#32)
          c.cl = cl →
          (∀ u, acceptCmd c (s2.kicked cl who w.unit c) = some u →
              exec i s = .next (retire i ((u.unkicked cl who).wr d (c.seq.setWidth 64))))
            ∧ (acceptCmd c (s2.kicked cl who w.unit c) = none →
              exec i s = .next ((s2.kicked cl who w.unit c).noteWait .engine)))
        ∧ (∀ k, KMap.get? (s.cl cl).kicks who = some k → k.accepted = true →
          exec i s = .next (retire i ((s.unkicked cl who).wr d (k.cmd.seq.setWidth 64)))))
    ∧ (∀ (s s0 : State) (c c1 : Cmd),
      let listed : Prop := c.unit = .copy ∧ c.op = opEscat
      (listed → (c.ready s = false ∨ readList c s = .error .wait) → acceptCmd c s = none)
        ∧ ((listed → c.ready s = true ∧ ((∃ l, readList c s = .ok (l, s0) ∧ c1 = { c with idx := l, started := true })
          ∨ (∃ e a, readList c s = .error (.park e a)) ∧ c1 = c ∧ s0 = s)) → (¬ listed → c1 = c ∧ s0 = s) →
      ((slotFree s0 c.unit c.cl = false ∨ ∃ l ∈ c1.linesAtAcceptance s0, lineOwed s0 l = true) → acceptCmd c s = none)
        ∧ (slotFree s0 c.unit c.cl = true → (∀ l ∈ c1.linesAtAcceptance s0, lineOwed s0 l = false) →
          ∃ u k, acceptCmd c s = some u ∧ (u.cl c.cl).cmds = (s0.cl c.cl).cmds ++ [k]
            ∧ k.unit = c.unit ∧ k.seq = c.seq ∧ k.raw = c.raw ∧ k.ctx = c.ctx ∧ k.gang = c.gang ∧ k.started = c1.started ∧ k.idx = c1.idx
            ∧ (∀ l ∈ c1.linesAtAcceptance s0, lineOwed u l = true)
            ∧ (∀ c', (u.cl c').sregs = (s0.cl c').sregs ∧ (u.cl c').flags = (s0.cl c').flags
              ∧ (u.cl c').scoreboard = (s0.cl c').scoreboard)
            ∧ u.hbm = s0.hbm ∧ ∀ c' a, u.spByte c' a = s0.spByte c' a)))

/-- R128 to R130, R137, R139, R143, R146, R356: the steps of commands. A pending kick is accepted where it can be; a
command starts once its scoreboard bits are set, `efset` by writing its flag and retiring; a command with nothing left
to do leaves its slot; a marker retires once what came before it has, and sets its flag; merged reads are served in
ascending cluster id; an `eacc` performs its next update. A follow-on of an exited task runs on the task that stands
there (the model's choice, log 97), and the steps that commands are cut into are the model's (logs 6, 49, 55). -/
def Obligations.CommandSteps : Prop :=
  (∀ (s : State) (cl who : Nat) (k : Kick), KMap.get? (s.cl cl).kicks who = some k → k.accepted = false → (∀ p ∈ s.spilled, p.from_ ≠ cl) →
      ((runsOn k.cmd.unit = true ∨ ∀ t, (s.cl cl).task = some t → t.state ≠ .saved) →
          (∀ u, acceptCmd k.cmd s = some u → exec (.commandAcceptance cl who) s
              = .next (u.modCl cl fun x => { x with kicks := KMap.set x.kicks who { k with accepted := true } }))
            ∧ (acceptCmd k.cmd s = none → exec (.commandAcceptance cl who) s = .next s))
        ∧ (∀ t, (s.cl cl).task = some t → t.state = .saved → runsOn k.cmd.unit = false → exec (.commandAcceptance cl who) s = .next s))
    ∧ (∀ (s : State) (cl : Nat) (seq : BitVec 32) (c : Cmd),
      (holding s .copy cl seq c → c.op = 0x14 → c.started = false → c.parked = [] → c.items = [] → plainEnd s c →
          (c.ready s = true → ∀ cl' off, coord s c.ctx c.cl c.dst false = .ok (cl', off) → away s c.ctx cl' = false →
            ∃ u, exec (.commandStart .copy cl seq) s = .next u
              ∧ (∀ n, n < 4096 → (u.cl cl').flags.getLsbD n
                = if n = (off - 0x300000) / 4 then c.opx == 0 else (s.cl cl').flags.getLsbD n)
              ∧ u.hbm = s.hbm)
            ∧ (c.ready s = false → exec (.commandStart .copy cl seq) s = .next s))
        ∧ (holding s .batcher cl seq c → c.started = false → away s c.ctx c.cl = false →
          exec (.commandStart .batcher cl seq) s = .next (if c.ready s then s.setCmd { c with started := true } else s))
        ∧ (holding s .copy cl seq c → c.started = true → c.op ≠ opEacc → c.op ≠ opEmark → c.op ≠ opEfset →
          exec (.commandStart .copy cl seq) s = .next (runCopy c s))
        ∧ (∀ u, holding s u cl seq c → u ≠ .sluice → retiresApart c = false → (u = .compaction → c.next ≠ 1 ∨ c.flagged = true) → plainEnd s c →
          (mayRetire s c = true → ∃ t, exec (.commandRetirement u cl seq) s = .next t
              ∧ (let s0 := if c.landsLast then landOwn c s else s
                hasLeft s0 c (c.follow != .failed) t ∧ t.hbm = s0.hbm))
            ∧ (mayRetire s c = false → ¬ (u = .compaction ∧ c.flagged = true) → exec (.commandRetirement u cl seq) s = .next s))
        ∧ (holding s .copy cl seq c → c.op = 4 → c.started = true → c.parked = [] → c.flagged = false → plainEnd s c →
          (∀ m ∈ c.marks, markHeld s c m = false) → (bit c.n0 1 = true → slabFillsOwed s cl = false) → (s.cl cl).writeAcks = 0 →
          ∃ u, exec (.markerRetire cl seq) s = .next u ∧ hasLeft s c true u ∧ (u.cl cl).flags.getLsbD c.flag = true)
        ∧ (holding s .copy cl seq c → c.op = 4 → c.flagged = false → ((s.cl cl).writeAcks ≠ 0 ∨ ∃ m ∈ c.marks, markHeld s c m = true) →
          exec (.markerRetire cl seq) s = .next s)
        ∧ (holding s .copy cl seq c → c.op = 3 → c.started = true → c.cancelled = false →
          exec (.eaccUpdate cl seq) s = .next (nextUpdate c s)))
    ∧ (∀ (s : State) (die : Nat) (a b : Nat × BitVec 32) (c d : Cmd), s.cmd? .copy a.1 a.2 = some c → s.cmd? .copy b.1 b.2 = some d →
      c.cl < d.cl → mergeable die s c = true → mergeable die s d = true → mergeKey c = mergeKey d →
      exec (.combiningNodeMerge die [a, b]) s = .next (startCopy d (startCopy c s))
        ∧ exec (.combiningNodeMerge die [b, a]) s = .next (startCopy d (startCopy c s)))

/-- R129, R142, R144, R145, R360: the C instructions that issue no command. `earm` clears and sets scoreboard bits and
writes what it found; `ewait` and `edrain` end once what they wait for is done; `ecancel` cancels a held command;
`estat` writes the value that its operand selects; `ebexp` posts an expectation to a byte counter, which completes
where the bytes balance it, and fails where too many have come. What is answered about a command that is kicked and
not accepted, and other answers that R144 leaves open, are the model's choices (logs 55, 96). R318, R319: `egroup` as
a command. A query ends with its result in s[D] once accepted; an update ends with the status that its phases come to;
the slot that is set becomes the active one, and the former drains, a marker out on every port. -/
def Obligations.EngineStatus : Prop :=
  (∀ (s : State) (p : Pred) (d a f0 f1 f2 f3 : Reg), s.holds p = true →
      let cl := s.selfCl
      let x := s.cl cl
      let i := Instr.estat p d a
      (allPassed s → exec (.earm p d a f0) s = .next (retire (.earm p d a f0)
          ((s.modCl cl fun x => { x with scoreboard := (x.scoreboard &&& ~~~ s.rd a) ||| s.rd f0 }).wr d x.scoreboard)))
        ∧ (let t : BitVec 32 := if (s.rd a).setWidth 32 = 0#32 then x.lastSeq .copy else (s.rd a).setWidth 32
          exec (.ewait p a) s = .next (if 0 ≤ (x.rtOf .copy - t).toInt then retire (.ewait p a) s else s.noteWait .engine))
        ∧ (s.copies = [] → x.writeAcks = 0 → exec (.edrain p) s = .next (retire (.edrain p) s))
        ∧ ((s.copies ≠ [] ∨ x.writeAcks ≠ 0) → exec (.edrain p) s = .next (s.noteWait .engine))
        ∧ (∀ c, s.cmdAt .copy cl ((s.rd a).setWidth 32) s.selfGang = some c →
          exec (.ecancel p d a) s = .next (retire (.ecancel p d a) ((cancelCmd c s).wr d 0#64)))
        ∧ (s.cmdAt .copy cl ((s.rd a).setWidth 32) s.selfGang = none →
          ∃ v, exec (.ecancel p d a) s = .next (retire (.ecancel p d a) (s.wr d v))
            ∧ (((s.rd a).setWidth 32 : BitVec 32) = 0#32 → x.gone .copy = false → v = 2#64) ∧ (((s.rd a).setWidth 32 : BitVec 32) = x.lastSeq .copy → x.lastSeq .copy ≠ 0#32 → v = 1#64)
            ∧ (x.lastSeq .copy = 0#32 → x.gone .copy = false → v = 2#64))
        ∧ (∀ v, ((s.rd a = 0#64 ∧ v = (x.rtOf .copy).setWidth 64) ∨ (s.rd a = 1#64 ∧ v = (x.lastSeq .copy).setWidth 64)
              ∨ (s.rd a = 2#64 ∧ v = BitVec.ofNat 64 s.copies.length) ∨ (s.rd a = 3#64 ∧ v = BitVec.ofNat 64 x.writeAcks)
              ∨ (s.rd a = 4#64 ∧ v = x.scoreboard) ∨ (s.rd a = 5#64 ∧ v = BitVec.ofNat 64 ((s.copies.map fun c => c.parked.length).sum))
              ∨ (∃ b k, b < 16 ∧ k < 64 ∧ (s.rd a).toNat = 0x100 + 64 * b + k ∧ v = (KMap.getD x.cbm b 0#4096).extractLsb' (64 * k) 64)) →
            exec i s = .next (retire i (s.wr d v)))
        ∧ ((5 < (s.rd a).toNat ∧ ((s.rd a).toNat < 0x100 ∨ 0x500 ≤ (s.rd a).toNat)) → exec i s = .next (s.raise 0x60#8 0#64))
        ∧ (∀ c off, template .copy 0x11 a [f0, f1, f2, f3] s = .ok (c, s) →
          onlyFields c.raw.toNat [(255, 192), (95, 80), (767, 704), (39, 36), (971, 960)] = true → c.aux < 2 ^ 39 →
          ownLine c.dst (128 * (c.n1 + 1)) 128 s = .ok (off, s) →
          let k := c.opx % 8
          let b := x.counter k
          let y : ByteCounter := { b with bound := true, base := off / 128, lines := c.n1 + 1, flag := c.flag, cur := b.cur - c.aux, pst := true }
          b.pst = false → b.err = false →
          (∀ j, j < 8 → j ≠ k → (x.counter j).bound = true →
            off / 128 + c.n1 + 1 ≤ (x.counter j).base ∨ (x.counter j).base + (x.counter j).lines ≤ off / 128) →
          ((b.bound = true ∧ b.base = off / 128 ∧ b.lines = c.n1 + 1) ∨ (b.cur = 0 ∧ b.nxt = 0)) →
          let s1 := s.modCl cl fun x => { x.setCounter k y with bphase := if 8 ≤ c.opx then x.bphase + 1#32 else x.bphase }
          let j := Instr.ebexp p d a f0 f1 f2 f3
          (y.cur = 0 → exec j s = .next (retire j (((s1.setFlagOf cl y.flag true).modCl cl fun x =>
                x.setCounter k { y with phase := b.phase + 1#32, cur := b.nxt, nxt := 0, pst := false }).wr d 1#64)))
            ∧ (y.cur < 0 → exec j s = .next (retire j (s1.wr d 0#64)))
            ∧ (0 < y.cur → exec j s = .next (retire j
                (((s1.modCl cl fun x => x.setCounter k { y with err := true }).logPhase cl).wr d 0#64)))))
    ∧ ((∀ (s : State) (p : Pred) (d a f0 f1 f2 f3 : Reg), s.holds p = true →
        let i := Instr.egroup p d a f0 f1 f2 f3
        let cl := s.selfCl
        let who := agentNum s
        (∀ c0 c1 s1 s2, noKick s → allPassed s → template .fabric 0xA a [f0, f1, f2, f3] s = .ok (c0, s1) → checkEgroup c0 s1 = .ok (c1, s2) →
            let c := { c1 with seq := (s2.cl cl).lastSeq .fabric + 1#32 }
            c.cl = cl → c.opx = 1 → ∀ u, acceptCmd c (s2.kicked cl who .fabric c) = some u →
            exec i s = .next (retire i ((u.groupEnded cl who c).wr d (groupQuery u c.groupOf))))
          ∧ (∀ k, KMap.get? (s.cl cl).kicks who = some k → k.accepted = true →
            (k.cmd.opx = 1 → exec i s = .next (retire i ((s.groupEnded cl who k.cmd).wr d (groupQuery s k.cmd.groupOf))))
              ∧ (k.cmd.opx ≠ 1 → ∀ s2 v, groupRun cl k.cmd.seq 4 s = (s2, some v) →
                exec i s = .next (retire i ((s2.groupEnded cl who k.cmd).wr d (BitVec.ofNat 64 v))))))
      ∧ (∀ (s : State) (g : Nat) (x : GroupSlot), groupRoom s g = true →
        ((activeSlot (setGroup g x s) g).map (·.2) = some { x with st := 1 })
          ∧ (∀ n y, activeSlot s g = some (n, y) → (setGroup g x s).slot (2 * g + n) = { y with st := 2, markers := upPorts s (2 ^ 64 - 1) })
          ∧ (∀ k, k ≠ 2 * g → k ≠ 2 * g + 1 → (setGroup g x s).slot k = s.slot k)
          ∧ activeSlot (clearGroup g s) g = none))

/-- R17, R122, R141, R262, R358, R359: a line lands whole: its bytes are stored and its owed bit is cleared; a follow-
on whose command's data has landed executes, or is logged with the cause that it raises; bytes delivered count at the
byte counter that covers them, which completes when it is posted and balanced; in a cluster whose task is spilled
nothing is counted. What waits with a spilled task, whose the entry of a follow-on is, and a follow-on of a task that
has halted or exited are the model's choices (logs 25, 26, 50, 97). -/
def Obligations.Landing : Prop :=
  (∀ (s : State) (l : LineRef) (f : Fill), landable s l = some f →
      (∀ cl n, l = .sram cl n → (∀ b ∈ f.bytes, b.1 < 128) → (s.cl cl).bad = [] →
          ∃ u, exec (.lineLanding l) s = .next u ∧ KMap.get? (u.cl cl).owed n = none
            ∧ (∀ o, o < 128 → u.spByte cl (128 * n + o) = (match f.bytes.find? fun b => b.1 == o with
              | some b => b.2
              | none => s.spByte cl (128 * n + o)))
            ∧ (∀ c a, ¬ (c = cl ∧ 128 * n ≤ a ∧ a < 128 * n + 128) → u.spByte c a = s.spByte c a))
        ∧ (∀ d r c sl n, l = .tile d r c sl n → n < 64 →
          ∃ u, exec (.lineLanding l) s = .next u ∧ (u.tile d (24 * r + c)).state sl n = .full
            ∧ (∀ k, k ≠ 24 * r + c → u.tile d k = s.tile d k) ∧ u.clusters = (s.stir f.cl).clusters ∧ u.hbm = s.hbm))
    ∧ (∀ (s : State) (cl : Nat) (seq : BitVec 32) (c : Cmd) (t : Task) (i : Instr), holding s .copy cl seq c →
      followReady s c = true → (s.cl cl).task = some t → t.state ≠ .placed → c.followWord = some i → behindFollow s c i = false →
      (∀ u, withCaptured c (fun s => followBody i s) s = .ok u →
          exec (.followOn cl seq) s = .next ((u.setCmd { c with follow := .done }).stir cl))
        ∧ (∀ e a, withCaptured c (fun s => followBody i s) s = .error (.trap e a) →
          exec (.followOn cl seq) s = .next ((s.setCmd { c with follow := .failed }).logFault c.ctx
            ⟨0x65#8, 2, c.agent + 1, engNum .M, 0, c.seq, 0, c.gen, a.toNat, e.toNat⟩)))
    ∧ (∀ (s : State) (cl off n k : Nat) (tag : BitVec 32), k < 8 →
      let b := (s.cl cl).counter k
      (∀ j, j < 8 → j ≠ k → (((s.cl cl).counter j).bound && ((s.cl cl).counter j).base ≤ off / 128
        && off / 128 < ((s.cl cl).counter j).base + ((s.cl cl).counter j).lines) = false) →
      ((b.bound && b.base ≤ off / 128 && off / 128 < b.base + b.lines) = false →
          exec (.byteCounterDelivery cl off n tag) s = .next s)
        ∧ ((∃ p ∈ s.spilled, p.from_ = cl) → exec (.byteCounterDelivery cl off n tag) s = .next s)
        ∧ ((∀ p ∈ s.spilled, p.from_ ≠ cl) → b.bound = true → b.base ≤ off / 128 → off / 128 < b.base + b.lines → (b.cur + n).natAbs < 2 ^ 39 → (b.nxt + n).natAbs < 2 ^ 39 →
          (tag = b.phase → b.pst = false → ∃ u, exec (.byteCounterDelivery cl off n tag) s = .next u
              ∧ (u.cl cl).counter k = { b with cur := b.cur + n } ∧ (u.cl cl).sram = (s.cl cl).sram)
            ∧ (tag = b.phase → b.pst = true → b.err = false → b.cur + n = 0 → ∃ u, exec (.byteCounterDelivery cl off n tag) s = .next u
              ∧ (u.cl cl).counter k = { b with phase := b.phase + 1#32, cur := b.nxt, nxt := 0, pst := false }
              ∧ (b.flag < 4096 → (u.cl cl).flags.getLsbD b.flag = true))
            ∧ (tag = b.phase → b.pst = true → b.err = false → 0 < b.cur + n → ∃ u, exec (.byteCounterDelivery cl off n tag) s = .next u
              ∧ (u.cl cl).counter k = { b with cur := b.cur + n, err := true } ∧ (u.cl cl).flags = (s.cl cl).flags)
            ∧ (tag = b.phase + 1#32 → ∃ u, exec (.byteCounterDelivery cl off n tag) s = .next u
              ∧ (u.cl cl).counter k = { b with nxt := b.nxt + n } ∧ (u.cl cl).flags = (s.cl cl).flags)))

/-- R275 to R287: the steps of a round of the sluice: a message for a round that is not open is kept, one for an open
round is taken; the placement table is read whole and gives the local bins; a token is ranked; past its deadline a
receiver that lacks openings aborts; the bins close once every sender is done and their flag can be set; the round
retires. How far a round goes in one step and that rows never sent leave their lines as they were are the model's
readings (logs 23, 56, 78). -/
def Obligations.SluiceRounds : Prop :=
  ∀ (s : State) (die ctx n : Nat) (m : RoundMsg) (r : Round) (c : Cmd),
    (abortedGen s ctx m.gen = false → roundAt s die ctx m.round = none → ∀ e ∈ ([(.roundOpening, 0), (.permitRequest, 1), (.permitReply, 2), (.doneMessage, 3)]
          : List ((Nat → Nat → RoundMsg → Instr) × Nat)),
        exec (e.1 die ctx m) s = .next (s.modDie die fun d => { d with early := d.early ++ [(ctx, e.2, m)] }))
      ∧ (abortedGen s ctx m.gen = true → ∀ e ∈ ([.roundOpening, .permitRequest, .permitReply, .doneMessage] : List (Nat → Nat → RoundMsg → Instr)),
        exec (e die ctx m) s = .next { s with dropped := s.dropped + 1 })
      ∧ (abortedGen s ctx m.gen = false → inRound s die ctx m.round r c → m.params = c.params →
        (exec (.doneMessage die ctx m) s = .next (setRound s die { r with dones := r.dones ++ [m] }))
          ∧ (r.table = none →
            exec (.roundOpening die ctx m) s = .next (setRound s die { r with openings := r.openings ++ [m] })
              ∧ exec (.permitRequest die ctx m) s = .next (setRound s die { r with requests := r.requests ++ [m] }))
          ∧ (∀ b, r.table.isSome = true → c.params.det = false → r.aborted = false → r.bad.contains (senderOf m) = false → r.requests = [] → away s c.ctx c.bcl = false →
            (r.bins.find? fun b => b.e == m.expert) = some b →
            let g := min m.count b.rem
            let ls := grantLines c b (b.cap - b.rem) g
            (∀ l ∈ ls, lineOwed s (.sram c.bcl l.2) = false) →
            ∃ u r', exec (.permitRequest die ctx m) s = .next u ∧ roundAt u die ctx m.round = some r' ∧ r'.requests = []
              ∧ (r'.bins.find? fun b => b.e == m.expert) = some { b with rem := b.rem - g, rref := b.rref + (m.count - g) }
              ∧ (∀ l ∈ ls, lineOwed u (.sram c.bcl l.2) = true) ∧ u.hbm = s.hbm)
          ∧ (m.pass = r.pass → r.waiting.contains m.expert = true → r.hostOf m.expert = some (senderOf m) →
            NSet.erase r.waiting m.expert ≠ [] →
            exec (.permitReply die ctx m) s = .next (setRound s die
              { takeReply m.expert m.count m.b0 m.full r with failed := r.failed || m.rows == 1 })))
      ∧ (inRound s die ctx n r c →
        (∀ s1 bs, r.table = none → c.parked = [] → quietRound r → c.params.det = false → r.ranked < c.tokens →
          readTable (dieWho ctx die c.gang) (c.l 895 832) (16 * (c.n0 + 1)) s = .ok (bs, s1) → s1.dies = s.dies → s1.clusters = s.clusters →
          let table := (List.range (c.n0 + 1)).map fun e => BitVec.ofNat 128 (leNat ((bs.drop (16 * e)).take 16))
          ∃ u r', exec (.placementTableRead die ctx n) s = .next u ∧ roundAt u die ctx n = some r' ∧ r'.table = some table
            ∧ (∀ e, e ≤ c.n0 → ((∃ b ∈ r'.bins, b.e = e) ↔ r'.hostOf e = some (4 * devId s + die))))
          ∧ (∀ s0 c1 vs s1, r.table.isSome = true → c.params.det = false → quietRound r → r.ranked + 1 < c.tokens →
            (∀ p ∈ c.parked, p.item ≠ r.ranked) → requestItem c r.ranked s = .ok ((), s0) → s0.cmdOf c = some c1 →
            tokenScores c1 r.ranked s0 = .ok (vs, s1) → inRound s1 die ctx n r c1 →
            ∃ u r', exec (.tokenRanking die ctx n) s = .next u ∧ roundAt u die ctx n = some r' ∧ r'.ranked = r.ranked + 1
              ∧ KMap.get? r'.scores r.ranked = some vs
              ∧ ∃ cs, KMap.get? r'.cands r.ranked = some cs ∧ cs.length ≤ c.params.km1 + 3 ∧ (∀ e ∈ cs, r.valid s c e = true))
          ∧ ((c.params.det = false ∨ c.l 935 920 = 0) → exec (.roundDeadline die ctx n) s = .next s)
          ∧ (c.params.det = true → c.l 935 920 ≠ 0 → r.closed = false → r.aborted = false → r.pass = 3 → r.requests = [] →
            (∃ p ∈ r.parts, ∀ o ∈ r.openings, senderOf o ≠ p) →
            ∃ u r', exec (.roundDeadline die ctx n) s = .next u ∧ roundAt u die ctx n = some r' ∧ r'.aborted = true ∧ r'.failed = true)
          ∧ (∀ s1, r.mayClose c = true → c.parked = [] → (c.l 907 907 = 1 → away s c.ctx c.bcl = false) →
            closingWrites c r (s.dropFills fun f => f.of c && f.item != 0) = .ok ((), s1) → roundAt s1 die ctx n = some r →
            ∃ u r', exec (.binClose die ctx n) s = .next u ∧ roundAt u die ctx n = some r' ∧ r'.closed = true
              ∧ r'.hints = r.bins.countP RBin.hinted
              ∧ (c.l 907 907 = 1 → c.l 906 906 = 0 → (u.cl c.bcl).flags.getLsbD (c.l 919 908) = true))
          ∧ (c.l 907 907 = 1 → away s c.ctx c.bcl = true → exec (.binClose die ctx n) s = .next (pumpRound c s))
          ∧ (∀ s1, r.mayRetire c = true → reportWrites c r s = .ok ((), s1) → plainEnd s1 c →
            ∃ u, exec (.roundRetirement die ctx n) s = .next u ∧ hasLeft (landOwn c s1) c true u ∧ roundAt u die ctx n = none))

/-- R290 to R295, R329: the steps of the compaction unit, the batcher and the collective engine: items are appended in
order, one with bit 63 set skipped, and one whose windrow serves an earlier append waits; a sweep gathers the gang's
devices' reports, and the second of two equal idle ones sets the flag of each arming command, which retires; a group's
items share no body; a collective's step joins what its line's members bring. The lines of a group, a sweep's gang and
messages, and the output lines are the model's choices (logs 55, 59, 83, 87, 90). -/
def Obligations.OtherEngines : Prop :=
  (∀ (s : State) (cl : Nat) (seq : BitVec 32) (c : Cmd), holding s .compaction cl seq c → c.started = true → c.opx = 0 →
      exec (.windrowAppend cl seq) s = .next (appendAll c c.todo s)
        ∧ ∀ j t k s1 bs, s.cmdOf c = some k → sourceGet k (k.src + 8 * j) 8 s = .ok (bs, s1) →
          let item : Word := BitVec.ofNat 64 (leNat bs)
          let h := k.idx.getD j 0
          (item.getLsbD 63 = true → appendAll c (j :: t) s = appendAll c t (markDone k j s1))
            ∧ (∀ s2 w, item.getLsbD 63 = false → h ≤ 4095 → wlDesc k.ctx k.die k.gang h s1 = .ok (s2, w) →
              (appendBusy s2 k.ctx h k.born = true → appendAll c (j :: t) s = s)
                ∧ (appendBusy s2 k.ctx h k.born = false →
              (w.cap ≤ (s2.windrow k.ctx h).held → appendAll c (j :: t) s = s)
                ∧ (∀ s3, wlAppend k.ctx k.gang h w item s2 = .ok (some s3) →
                  appendAll c (j :: t) s = appendAll c t (markDone k j s3) ∧ (s3.windrow k.ctx h).tail = (s2.windrow k.ctx h).tail + 1#32
                    ∧ (s3.windrow k.ctx h).appends = (s2.windrow k.ctx h).appends + 1))))
    ∧ (∀ (s : State) (gang : Nat) (x : Gang), KMap.get? s.gangs gang = some x →
      let now := sweepNow s gang
      let quiet : Prop := now.1 = now.2.1 ∧ now.2.1 = now.2.2.1 ∧ now.2.2.2 = true
      let asking : Gang := { x with sweepIn := (devId s, sweepReport s gang) :: x.others.map fun d => (d, []) }
      ((lowestDev s x ≠ devId s ∨ x.sweepIn ≠ []) → exec (.terminationSweep gang x.ctx x.num) s = .next s)
        ∧ (lowestDev s x = devId s → x.sweepIn = [] →
          (x.others ≠ [] → exec (.terminationSweep gang x.ctx x.num) s
              = .next (tellAll x x.others .sweep 0 0 { s with gangs := KMap.set s.gangs gang asking }))
            ∧ (x.others = [] → (armedOf s gang = [] ∨ ¬ (quiet ∧ x.sweeps.getLast? = some now)) →
              exec (.terminationSweep gang x.ctx x.num) s = .next (s.swept gang asking (if armedOf s gang = [] then [] else [now])))
            ∧ (x.others = [] → armedOf s gang ≠ [] → quiet → x.sweeps.getLast? = some now →
              exec (.terminationSweep gang x.ctx x.num) s = .next (endArmed gang (s.swept gang asking [])))))
    ∧ (∀ (s : State) (gang : Nat) (c : Cmd), armedOf s gang = [c] → plainEnd s c →
      hasLeft s c true (endArmed gang s) ∧ ((endArmed gang s).cl c.cl).flags.getLsbD c.flag = true)
    ∧ (∀ (s : State) (cl : Nat) (seq : BitVec 32) (c : Cmd), holding s .batcher cl seq c → c.started = true → c.undone ≠ [] → c.parked = [] →
      ∀ l s1, nextGroup c s = .ok (l, s1) → exec (.batchGroup cl seq) s
        = .next (s1.setCmd { c with items := l.foldl NSet.insert c.items, next := c.next + 1 }))
    ∧ (∀ w : List (Nat × Nat), let g := formGroup w [] [] []
      g.Sublist w ∧ g.length ≤ 64 ∧ (w ≠ [] → g ≠ []) ∧ g.Pairwise fun x y => ∀ b ∈ bodiesOf x.2, b ∉ bodiesOf y.2)
    ∧ (∀ (s : State) (cl : Nat) (seq : BitVec 32) (c : Cmd) (bs : List CollBlock), holding s .collective cl seq c → c.started = true →
      c.undone ≠ [] → c.parked = [] →
      (∀ st b, c.steps[c.next]? = some st → collStep c (ownIndex c s) bs st = some b →
          let c1 := { c with
            next := c.next + 1, got := Mem.write [] 0 (elemBytes b.elems), idx := if sums c st then c.idx.set 2 1 else c.idx }
          exec (.collectiveStep cl seq bs) s = .next (sendStep c1 (s.setCmd c1)))
        ∧ (∀ s1, c.steps[c.next]? = none → vaWrite c.who c.dst (finalBytes c) s = .ok s1 →
          exec (.collectiveStep cl seq bs) s = .next (markDone c 0 s1)))

/-- R185, R364 to R366, R370, R372, R373: `yield` saves the task where it is asked to give way and passes otherwise; a
launch record adds its graph and appends its item to the entry stage; a stage places a task on the cluster chosen for
it, or a gang that waits for its clusters, unless an older one goes before it; a placed task starts; a graph ends once
nothing is left of it, with its status written. What the launch path is as an agent, a stage's age, and the order
among stages that the spec leaves open are the model's choices (logs 29, 30, 32, 48). -/
def Obligations.Scheduling : Prop :=
  (∀ (s : State), ((∀ c e t, s.actor = .pc c e → (s.cl c).task = some t → (s.cl c).preempt = false ∧ stageWaits s (dieOf c) t.level = false) →
        exec .yield s = .next (retire .yield s))
      ∧ (∀ c t, s.actor = .pc c .S → (s.cl c).task = some t → ((s.cl c).preempt = true ∨ stageWaits s (dieOf c) t.level = true) →
        let s1 := retire .yield s
        let u := preemptTask c s1
        exec .yield s = .next u
          ∧ (∃ t', (u.cl c).task = some t' ∧ t'.state = .saved ∧ t'.graph = t.graph) ∧ (u.cl c).preempt = false
          ∧ (partialProduct c (Config.productSteps s1.tick) s1 = s1 →
            (u.cl c).sregs = (s.cl c).sregs ∧ (u.cl c).wS.dp = (s.cl c).wS.dp + 4)))
    ∧ (∀ (s s1 s2 s3 s4 : State) (ctx q : Nat) (l : LaunchQueue) (x : Context) (tb hb rb : List Byte),
      KMap.get? s.queues (16 * ctx + q) = some l → l.parked = false → KMap.get? s.contexts ctx = some x → x.dying = false → l.sz ≠ 0 →
      tableRead ctx l.home l.tailVa 4 s = .ok (s1, tb) → tableRead ctx l.home l.headVa 4 s1 = .ok (s2, hb) →
      (leNat tb = leNat hb → exec (.launchRecord ctx q) s = .next s)
        ∧ (leNat tb ≠ leNat hb → tableRead ctx l.home (l.rbase + 128 * (leNat hb % 2 ^ l.sz)) 128 s2 = .ok (s3, rb) →
          vaSyncWrite (launchWho ctx l.home) l.headVa (natLe 4 (leNat hb + 1)) s3 = .ok s4 →
          let e := leNat rb
          (byteField e 32 8 % 8 ≠ 0 → exec (.launchRecord ctx q) s
              = .next (s4.logFault ctx ⟨0xA0#8, 2, 0, 7, 0, 0#32, 0, 0#32, byteField e 32 8, 0⟩))
            ∧ (∀ s5 y n entry t w s6, byteField e 32 8 % 8 = 0 → recordMalformed e = false →
              translate (launchWho ctx l.home) (byteField e 32 8) true true s4 = .ok (s5, y) →
              checkGraph ctx l.home (byteField e 0 8) s5 = .ok (n, entry) →
              let s' := addGraph (newGraph s5 ctx e n entry true) s5
              s'.stage? l.home s5.nextGraph entry = some t → launchWindrow ctx l.home t.inq s' = some w →
              appendBusy s' ctx t.inq s'.tick = false → wlAppend ctx 0 t.inq w (BitVec.ofNat 64 (byteField e 8 8)) s' = .ok (some s6) →
              exec (.launchRecord ctx q) s = .next s6 ∧ ∃ g, KMap.get? s'.graphs s5.nextGraph = some g ∧ g.ctx = ctx ∧ g.live = true
                ∧ g.va = byteField e 0 8 ∧ g.nst = n ∧ g.entry = entry ∧ g.done = byteField e 32 8)))
    ∧ (∀ (s : State) (die g st : Nat) (q : Graph) (t : Stage), g ≠ 0 →
      let s0 := noteAges die s
      let n := s0.nextGang
      let x := newGang s0 q.ctx g st t q.stamp
      KMap.get? s0.graphs g = some q → s0.stage? die g st = some t →
      let first : Prop := runnable s0 die g st t = true ∧ outranked s0 die t.lvl (ageOf s0 g st) (g, st) = false
      (¬ first → exec (.stageSchedule die g st) s = .next s0)
        ∧ (∀ c rest s2, first → t.gang = 1 → tagFree s0 q.ctx t.gtag = true → openClusters s0 die g st n t = c :: rest →
          popItem n die x t { s0 with gangs := KMap.set s0.gangs n x, nextGang := n + 1 } = some s2 →
          ∃ u t', exec (.stageSchedule die g st) s = .next u ∧ (u.cl c).task = some t' ∧ t'.state = .placed ∧ t'.graph = g ∧ t'.stage = st)
        ∧ (first → t.gang ≠ 1 → (waitingGang s0 g st).isSome = true → exec (.stageSchedule die g st) s = .next s0)
        ∧ (first → t.gang ≠ 1 → waitingGang s0 g st = none →
          ∃ u y, exec (.stageSchedule die g st) s = .next u ∧ KMap.get? u.gangs n = some y ∧ y.placed = false ∧ y.graph = g ∧ y.stage = st
            ∧ y.size = t.gang))
    ∧ (∀ (s : State) (cl : Nat) (t : Task), (s.cl cl).task = some t →
      (t.state ≠ .placed → exec (.taskLaunch cl) s = .next s)
        ∧ (∀ u, t.state = .placed → launchTask cl t s = .ok u →
          exec (.taskLaunch cl) s = .next u ∧ ∃ t', (u.cl cl).task = some t' ∧ t'.state = .running ∧ t'.graph = t.graph))
    ∧ (∀ (s : State) (g : Nat) (q : Graph), KMap.get? s.graphs g = some q →
      (q.live = false → exec (.graphEnd g) s = .next s)
        ∧ (q.live = true → (∀ i, i < q.nst → ∃ t, s.stage? 0 g i = some t ∧ (s.windrow q.ctx t.inq).held = 0
            ∧ (s.windrow q.ctx t.inq).pops = (s.windrow q.ctx t.inq).completions) →
          (∀ t ∈ s.tasks, t.graph ≠ g) → (∀ e ∈ s.gangs, e.2.graph = g → e.2.placed = false) →
          ∃ u q', exec (.graphEnd g) s = .next u ∧ KMap.get? u.graphs g = some q' ∧ q'.live = false ∧ q'.cause = 0#8))

/-- R373, R376 to R378: a gang is placed whole once its clusters, here and as the other devices have confirmed them,
suffice and nothing goes before it; until then the oldest gang that waits reserves what it can use. Another device
confirms to the gang's home what it keeps, and places the gang's tasks once it is told where they lie. What a gang
holds goes to the oldest that waits, after asking back what was confirmed elsewhere; a task is asked to give way for a
stage that has waited. What these messages hold and when they are sent are the model's choices (logs 48, 90). -/
def Obligations.GangPlacement : Prop :=
  (∀ (s : State) (gang : Nat) (remote : List (Nat × Nat)) (x : Gang) (t : Stage), KMap.get? s.gangs gang = some x →
      s.stage? 0 x.graph x.stage = some t →
      let w := s.want x.graph x.stage gang t
      let here := if homeMember s t.dgrp = true then (chooseClusters w x.size (List.range 384) [] s).1 else []
      let far := (remote.filter fun p => (KMap.getD x.offers p.1 []).contains p.2).eraseDups
      let all := (((here.map fun c => (devId s, c)) ++ far).foldl (fun l p => insertPlace p l) []).take x.size
      let late : Prop := ∃ c, (devId s, c) ∈ all ∧ outranked s (dieOf c) t.lvl w.age (x.graph, x.stage) = true
      let able : Prop := x.size ≤ all.length ∧ ¬ late ∧ tagFree s x.ctx x.tag = true ∧ runnable s 0 x.graph x.stage t = true
      let there := (chooseClusters { w with age := 0 } x.members.length x.members [] s).1
      (x.placed = true → exec (.gangPlacement gang remote) s = .next s)
        ∧ (x.placed = false → x.home = devId s → ¬ able →
          (∀ o, oldestWaiting s = some o → o.1 = gang → exec (.gangPlacement gang remote) s
              = .next (s.modGang gang fun y => { y with reserved := reservationOf s gang x t }))
            ∧ ((∀ o, oldestWaiting s = some o → o.1 ≠ gang) → exec (.gangPlacement gang remote) s = .next s))
        ∧ (∀ s1 y, x.placed = false → x.home = devId s → able → popItem gang 0 x t s = some s1 → KMap.get? s1.gangs gang = some y →
          ∃ u y', exec (.gangPlacement gang remote) s = .next u ∧ KMap.get? u.gangs gang = some y' ∧ y'.placed = true
            ∧ y'.reserved = [] ∧ (∀ c, (devId s, c) ∈ all ↔ c ∈ y'.members))
        ∧ (x.placed = false → x.home ≠ devId s → x.goAhead = true →
          exec (.gangPlacement gang remote) s
            = .next (if there.length = x.members.length then placeGang gang x t x.members x.remote s else s))
        ∧ (x.placed = false → x.home ≠ devId s → x.goAhead = false → x.yielding = false → ∀ o, oldestWaiting s = some o → o.1 = gang →
          reservationOf s gang x t ≠ x.offered →
          ∃ u y, exec (.gangPlacement gang remote) s = .next u ∧ KMap.get? u.gangs gang = some y
            ∧ y.reserved = reservationOf s gang x t ∧ y.offered = reservationOf s gang x t ∧ u.clusters = s.clusters))
    ∧ (∀ (s : State) (gang : Nat) (x : Gang), KMap.get? s.gangs gang = some x →
      (oldestWaiting s = none → exec (.reservationRelease gang) s = .next s)
        ∧ (∀ o y t, oldestWaiting s = some (o, y, t) →
          let gives : Prop := o ≠ gang ∧ x.placed = false ∧ x.goAhead = false ∧ x.yielding = false ∧ y.older x = true
          let s1 := s.modGang gang fun z => { z with reserved := [] }
          (¬ gives → exec (.reservationRelease gang) s = .next s)
            ∧ (gives → x.offered ≠ [] → ∃ u z, exec (.reservationRelease gang) s = .next u ∧ KMap.get? u.gangs gang = some z
              ∧ z.yielding = true ∧ z.reserved = x.reserved)
            ∧ (gives → x.offered = [] → exec (.reservationRelease gang) s
              = .next (if y.home = devId s then s1.modGang o fun z => { z with reserved := reservationOf s1 o z t } else s1))))
    ∧ (∀ (s : State) (die g st : Nat) (q : Graph) (t : Stage), KMap.get? s.graphs g = some q → s.stage? die g st = some t →
      let w := s.want g st (((waitingGang s g st).map (·.1)).getD 0) t
      let fits (c : Nat) (u : Task) : Prop := 96 * die ≤ c ∧ c < 96 * die + 96 ∧ (s.cl c).task = some u ∧ u.state = .running ∧ u.ctx ≠ q.ctx
        ∧ t.lvl ≤ u.level ∧ wouldFit s w c = true
      ((runnable s die g st t = false ∨ lacksClusters s die g st t = false ∨ ∀ c u, ¬ fits c u) → exec (.agingPreempt die g st) s = .next s)
        ∧ (runnable s die g st t = true → lacksClusters s die g st t = true → (∃ c u, fits c u) →
          ∃ c u, fits c u ∧ (∀ c' u', fits c' u' → u'.level < u.level ∨ (u'.level = u.level ∧ u'.born ≤ u.born))
            ∧ exec (.agingPreempt die g st) s = .next (s.modCl c fun x => { x with preempt := true })))

/-- R379 to R383: an event without a binding, or while the ring is off, is counted; one that finds the ring full is
dropped and logged with 0xA6; any other is written to the ring's slot, and the tail moves; one whose windrow is full
is tried again. A code that no event has does nothing. A write of `evring` that keeps its layout starts both counters
again, one of `evbind` binds the event, and a value that breaks the layout is ignored. The context of the management
stages and what becomes of a value that is not valid are the model's choices (logs 19, 37). R380, R425, R426: power. A
measured counter holds its value; an island's power or temperature that crosses its limit, either way, fires event 2
or 1 (the model reads a crossing as both ways, log 38); an island above its power limit is throttled one step more,
and one at or below it is not. -/
def Obligations.EventsAndPower : Prop :=
  (∀ (s : State) (die code : Nat) (ea eb : BitVec 16) (rnd : BitVec 32) (val : BitVec 48) (v : Word) (k : Nat),
      let d := s.die die
      let b := KMap.getD d.evbind code 0#64
      let i := Instr.eventFire die code ea eb rnd val
      let n := 2 ^ bits d.evring.toNat 59 56
      ((code < 6 ∨ (16 ≤ code ∧ code < 32)) →
          ((b.getLsbD 63 = false ∨ d.evring.getLsbD 0 = false) → exec i s = .next (s.modDie die fun d => { d with evlost := d.evlost + 1 }))
            ∧ (b.getLsbD 63 = true → d.evring.getLsbD 0 = true →
              ((d.evtail - d.evhead).toNat = n → exec i s = .next (s.modDie die fun d => { d with dieLog := d.dieLog ++ [(0xA6#8, code)] }))
                ∧ ((d.evtail - d.evhead).toNat ≠ n →
                  let s1 := (s.slicePut (bits d.evring.toNat 38 12 * 4096 + 16 * (d.evtail.toNat % n))
                    (natLe 1 code ++ [0#8] ++ natLe 2 ea.toNat ++ natLe 2 eb.toNat ++ natLe 4 rnd.toNat ++ natLe 6 val.toNat)).modDie die
                      fun d => { d with evtail := d.evtail + 1#32 }
                  (managementStage s1 b die = none → exec i s = .next s1)
                    ∧ (∀ t w, managementStage s1 b die = some t → launchWindrow Config.mgmtContext die t.inq s1 = some w →
                      (∀ s2, appendBusy s1 Config.mgmtContext t.inq s1.tick = false →
                        wlAppend Config.mgmtContext 0 t.inq w (d.evtail.setWidth 64) s1 = .ok (some s2) → exec i s = .next s2)
                      ∧ ((appendBusy s1 Config.mgmtContext t.inq s1.tick = true
                          ∨ wlAppend Config.mgmtContext 0 t.inq w (d.evtail.setWidth 64) s1 = .ok none) →
                        exec i s = .next { s with agenda := s.agenda ++ [.soon (.fire die code ea eb rnd val)] })))))
        ∧ (¬ (code < 6 ∨ (16 ≤ code ∧ code < 32)) → exec i s = .next s)
        ∧ ((4 ≤ bits v.toNat 59 56 ∧ bits v.toNat 59 56 ≤ 15 ∧ bits v.toNat 63 60 = 0 ∧ bits v.toNat 55 39 = 0 ∧ bits v.toNat 11 1 = 0) →
          exec (.evringWrite die v) s = .next (s.modDie die fun d => { d with evring := v, evhead := 0#32, evtail := 0#32 }))
        ∧ ((bits v.toNat 59 56 < 4 ∨ bits v.toNat 63 60 ≠ 0 ∨ bits v.toNat 55 39 ≠ 0 ∨ bits v.toNat 11 1 ≠ 0) →
          exec (.evringWrite die v) s = .next s)
        ∧ (k < 32 → bits v.toNat 59 57 = 0 → bits v.toNat 56 48 ≤ 383 →
          ∃ u, exec (.evbindWrite die k v) s = .next u ∧ KMap.get? (u.die die).evbind k = some v
            ∧ (v.getLsbD 63 = false → u = s.modDie die fun d => { d with evbind := KMap.set d.evbind k v }) ∧ u.hbm = s.hbm)
        ∧ ((32 ≤ k ∨ bits v.toNat 59 57 ≠ 0 ∨ 383 < bits v.toNat 56 48) → exec (.evbindWrite die k v) s = .next s))
    ∧ (∀ (s : State) (n : Nat) (v : Word),
      (48 < n → exec (.counterRefresh n v) s = .next s)
        ∧ (n ≤ 48 → let i := n % 24
          let limit := if n < 24 then bits (s.limit i).toNat 31 0 else bits (s.limit i).toNat 47 32
          let s1 : State := { s with counters := KMap.set s.counters n v }
          let crossed : Prop := ¬ (limit < (counterValue s 0 n).toNat ↔ limit < v.toNat)
          (n < 48 → crossed → exec (.counterRefresh n v) s
              = .next (s1.soon (.fire (islandDie i) (if n < 24 then 2 else 1) (BitVec.ofNat 16 i) 0#16 0#32 (v.setWidth 48))))
            ∧ ((n = 48 ∨ ¬ crossed) → exec (.counterRefresh n v) s = .next s1)
            ∧ ∀ d, counterValue s1 d n = v)
        ∧ (23 < n → exec (.islandThrottle n) s = .next s)
        ∧ (n ≤ 23 → ∃ u, exec (.islandThrottle n) s = .next u
          ∧ (∀ k, KMap.getD u.throttle k 0 = if k = n then
              (if bits (s.limit n).toNat 31 0 < (counterValue s 0 n).toNat then KMap.getD s.throttle n 0 + 1 else 0)
            else KMap.getD s.throttle k 0)
          ∧ u.counters = s.counters ∧ u.clusters = s.clusters))

/-- R168, R387, R388, R391 to R397: traps that come about of themselves, pre-emption, spilling and filling back, and
the actions of `tctl`. A precise cause stops the task with its record, and of two the one at the lower position is
kept; five PCs that wait for one another raise 0x0F; a pre-empted task is saved where its PCs stand, and one that is
to give up its cluster is spilled once nothing is on its way to it; a trapped task or thread resumes at, or past, its
instruction. While a barrier's question stands nothing of its gang halts, and two causes share one log entry: the
model's choices (logs 13, 50, 52). -/
def Obligations.TrapEvents : Prop :=
  ∀ (s : State) (c : Nat) (t : Task), (s.cl c).task = some t →
    let trapped (u : State) (e : Eng) (cause : BitVec 8) (a : Word) (entry : Option Nat) : Prop :=
      (∃ t', (u.cl c).task = some t' ∧ t'.state = .trapped ∧ t'.trap = some ⟨cause, engNum e, 0, a, ((s.cl c).walk e).dp, entry⟩)
        ∧ (∀ g, ((u.cl c).walk g).pc = ((s.cl c).walk g).pc ∧ ((u.cl c).walk g).dp = ((s.cl c).walk g).dp) ∧ (u.cl c).sregs = (s.cl c).sregs
    let halted (u : State) : Prop := (∀ g, ((u.cl c).walk g).pc = ((s.cl c).walk g).pc) ∧ (u.cl c).sregs = (s.cl c).sregs
    (∀ e cause a, trapCause cause = true →
        (t.state = .running → s.frozenGang t.gang = true → exec (.trapEntry c e cause a) s = .next s)
          ∧ (t.state = .running → s.frozenGang t.gang = false → t.priv = false →
            ∃ u, exec (.trapEntry c e cause a) s = .next u ∧ trapped u e cause a (s.nextEntry t.ctx))
          ∧ (∀ r, t.state = .trapped → t.trap = some r → ((s.cl c).walk e).dp < r.pos →
            ∃ u, exec (.trapEntry c e cause a) s = .next u ∧ trapped u e cause a r.entry)
          ∧ (∀ r, t.state = .trapped → t.trap = some r → r.pos ≤ ((s.cl c).walk e).dp → exec (.trapEntry c e cause a) s = .next s))
      ∧ (∀ e cause a, trapCause cause = false → exec (.trapEntry c e cause a) s = .next s)
      ∧ (t.state = .running → t.priv = false → (∀ e, stalled ((s.cl c).walk e) = true) → slabFillsOwed s c = false →
        ∃ u, exec (.walkDeadlock c) s = .next u ∧ trapped u .S 0x0F#8 0#64 (s.nextEntry t.ctx))
      ∧ ((∃ e, stalled ((s.cl c).walk e) = false) → exec (.walkDeadlock c) s = .next s)
      ∧ ((s.cl c).preempt = true → t.state = .running → s.frozenGang t.gang = false →
        ∃ u t', exec (.preemption c 0) s = .next u ∧ (u.cl c).task = some t' ∧ t'.state = .saved ∧ halted u)
      ∧ ((s.cl c).preempt = false → ∀ n, exec (.preemption c n) s = .next s)
      ∧ (let goes : Prop := (t.state = .saved ∧ ((s.cl c).preempt = true ∨ wanted s c t = true))
          ∨ (t.state = .trapped ∧ (t.preq = true ∨ (s.cl c).preempt = true))
        ((¬ goes ∨ dyingCtx s t.ctx = true ∨ maySpill c t s = false) → exec (.spill c) s = .next s)
          ∧ (goes → dyingCtx s t.ctx = false → maySpill c t s = true → ∃ u p, exec (.spill c) s = .next u ∧ (u.cl c).task = none ∧ p ∈ u.spilled ∧ p.agent = t.agent ∧ p.ctx = t.ctx ∧ p.from_ = c
          ∧ p.image.sregs = (s.cl c).sregs ∧ p.image.preds = (s.cl c).preds))
      ∧ (s.frozenGang t.gang = true → exec (.save c) s = .next s)
      ∧ (t.state = .running → s.frozenGang t.gang = false → ∀ x, KMap.get? s.contexts t.ctx = some x → x.dying = false →
        ∃ u, exec (.save c) s = .next u ∧ ((∃ t', (u.cl c).task = some t' ∧ t'.state = .saved)
          ∨ ((u.cl c).task = none ∧ ∃ p ∈ u.spilled, p.agent = t.agent ∧ p.ctx = t.ctx)))
      ∧ (∀ x, KMap.get? s.contexts t.ctx = some x → x.dying = false → (t.state = .trapped ∨ t.state = .saved) →
        (∃ u t', exec (.resume c none) s = .next u ∧ (u.cl c).task = some t' ∧ t'.state = .running ∧ t'.trap = none ∧ halted u
            ∧ (u.die (dieOf c)).tpend.getLsbD (c % 96)
              = ((u.cl c).anyTrapped || s.spilled.any fun p => p.from_ == c && p.image.anyTrapped))
          ∧ (∀ r len bs, t.trap = some r → trappedWord (taskWho c t) t ((s.cl c).walk (engOf r.eng)).pc s = some (false, len, bs) →
            ∃ u t', exec (.resumePast c none) s = .next u ∧ (u.cl c).task = some t' ∧ t'.state = .running
              ∧ ((u.cl c).walk (engOf r.eng)).dp = ((s.cl c).walk (engOf r.eng)).dp + len
              ∧ ((u.cl c).walk (engOf r.eng)).sig = crcBytes ((s.cl c).walk (engOf r.eng)).sig bs ∧ (u.cl c).sregs = (s.cl c).sregs)
          ∧ (∀ r len bs, t.trap = some r → trappedWord (taskWho c t) t ((s.cl c).walk (engOf r.eng)).pc s = some (true, len, bs) →
            exec (.resumePast c none) s = .next s))
      ∧ (∀ k, ((s.cl c).rake k).st = .trapped →
        (∃ u, exec (.resume c (some k)) s = .next u ∧ ((u.cl c).rake k).st = .ready ∧ ((u.cl c).rake k).trap = none
            ∧ ((u.cl c).rake k).pc = ((s.cl c).rake k).pc)
          ∧ (∀ len bs, trappedWord (taskWho c t) t ((s.cl c).rake k).pc s = some (false, len, bs) →
            ∃ u, exec (.resumePast c (some k)) s = .next u ∧ ((u.cl c).rake k).st = .ready
              ∧ ((u.cl c).rake k).pc = ((s.cl c).rake k).pc + len))

/-- R375, R392 to R394, R397, R401, R407: a spilled task goes on where it is filled back, stays saved with 0xA8 logged
where its frame's checks fail, and takes the rollback route where the frame is uncorrectable; a replay puts the
context's parked queues back into service; a kill stops every task of its context and discards its commands; the
teardown is complete once no packet of the context is left and its drain markers have come back. The frame's layout,
the order in which tasks are filled back and the markers' ways are the model's choices (logs 17, 27, 45, 46, 86). -/
def Obligations.ContextEnds : Prop :=
  (∀ (s : State) (agent ctx cl : Nat) (p : Spilled) (t : Task), (s.spilled.find? fun p => p.agent == agent && p.ctx == ctx) = some p →
      p.image.task = some t → t.state = .saved → mayFill p cl s = true →
      ∀ bad s1, readFrame p s = (bad, s1) →
      (∀ cause, bad = some cause → exec (.fillBack agent ctx cl) s = .next (s1.raiseCheck p.ctx t.gang (p.agent + 1) 0 cause))
        ∧ (bad = none → frameGood p s1 = true → exec (.fillBack agent ctx cl) s = .next (fillTask p cl s1)
          ∧ (p.fills = [] → ∃ t', let u := fillTask p cl s1
            (u.cl cl).task = some t' ∧ t'.state = .running ∧ (u.cl cl).sregs = p.image.sregs ∧ (u.cl cl).preds = p.image.preds
            ∧ (∀ e, ((u.cl cl).walk e).pc = (p.image.walk e).pc) ∧ u.spilled = s1.spilled.erase p))
        ∧ (bad = none → frameGood p s1 = false → ∃ u, exec (.fillBack agent ctx cl) s = .next u ∧ u.spilled = s1.spilled
          ∧ u.cl cl = s1.cl cl))
    ∧ (∀ (s : State) (die ctx : Nat), exec (.replayParked die ctx) s = .next (replayAct die ctx s)
      ∧ ∀ e ∈ (replayAct die ctx s).queues, e.2.ctx = ctx → e.2.parked = false)
    ∧ (∀ (s : State) (ctx : Nat) (x : Context), KMap.get? s.contexts ctx = some x →
      (x.dying = true → exec (.kill ctx) s = .next s)
        ∧ (x.dying = false → exec (.kill ctx) s = .next (killAct ctx s)
          ∧ ∃ y, let u := killAct ctx s
          KMap.get? u.contexts ctx = some y ∧ y.dying = true
          ∧ (∀ c t, (u.cl c).task = some t → t.ctx = ctx → t.state = .saved) ∧ (∀ e ∈ u.clusters, ∀ k ∈ e.2.cmds, k.ctx ≠ ctx)
          ∧ (∀ p ∈ u.spilled, p.ctx ≠ ctx))
        ∧ ((x.dying = false ∨ x.markers ≠ [] ∨ ∃ p ∈ s.net, p.ctx = ctx) → exec (.teardownComplete ctx) s = .next s)
        ∧ (x.dying = true → x.markers = [] → (∀ p ∈ s.net, p.ctx ≠ ctx) → ∃ u y, exec (.teardownComplete ctx) s = .next u
          ∧ KMap.get? u.contexts ctx = some y ∧ y.dying = false ∧ (∀ c t, c < 384 → (u.cl c).task = some t → t.ctx ≠ ctx)
          ∧ ∀ e ∈ u.gangs, e.2.ctx ≠ ctx))

/-- R97, R186, R354, R355, R407, R411, R415: a task that has halted ends, and one of the protected gang is held; a
barrier of a gang on this device completes once every task has arrived and nothing of the superstep is left: the
number advances, L1 is emptied and the tasks at `bar` are released; the lowest-numbered of several devices completes
it once the others have reported and, asked again, are still ready; a sweep zeroes the shadow words of other
generations; the scrub poisons an uncorrectable sector; a rollback ends with its tasks running, once every device has
rolled back. What these messages hold, that the question is asked, and what a sweep does with an uncorrectable word
are the model's choices (logs 13, 47). -/
def Obligations.Supersteps : Prop :=
  (∀ (s : State) (c : Nat) (t : Task), (s.cl c).task = some t →
      (t.state ≠ .halted → exec (.taskEnd c) s = .next s)
        ∧ (t.state = .halted → s.protectedGang t.gang = false → exec (.taskEnd c) s = .next (settleGang t.gang (releaseTask c s)))
        ∧ (∀ x, t.state = .halted → s.protectedGang t.gang = true → KMap.get? s.gangs t.gang = some x →
          ({ x with ended := NSet.insert x.ended t.agent } : Gang).allEnded = false →
          ∃ u t' y, exec (.taskEnd c) s = .next u ∧ (u.cl c).task = some t' ∧ t'.state = .held ∧ KMap.get? u.gangs t.gang = some y
            ∧ t.agent ∈ y.ended))
    ∧ (∀ (s : State) (g : Nat) (x : Gang), KMap.get? s.gangs g = some x →
      let ok : Prop := tasksArrived s g x = true ∧ gangQuiet s g x = true
      let low := lowestDev s x
      let i := Instr.barrierCompletion g
      ((x.placed = false ∨ (x.others = [] ∧ ¬ ok) ∨ (x.others ≠ [] ∧ x.members = [])) → exec i s = .next s)
        ∧ (x.placed = true → ok → x.others = [] → exec i s = .next (completeBarrier g x s))
        ∧ (x.placed = true → ok → x.others = [] → s.protectedGang g = false →
          x.allEnded = false → (∀ c t, (s.cl c).task = some t → t.gang = g → t.state = .running) →
          ∃ u y, exec i s = .next u ∧ KMap.get? u.gangs g = some y ∧ y.sstep = x.sstep + 1#32
            ∧ (∀ c t, (s.cl c).task = some t → t.gang = g → (u.cl c).l1 = [] ∧ (u.cl c).released = (s.cl c).arrived
              ∧ (u.cl c).sregs = (s.cl c).sregs ∧ (u.cl c).sram = (s.cl c).sram) ∧ u.hbm = s.hbm)
        ∧ (x.placed = true → x.others ≠ [] → x.members ≠ [] → low = devId s →
          let reported : Prop := ∀ d ∈ x.others, d ∈ x.arrivedDevs
          (¬ (ok ∧ reported) → exec i s = .next (if x.frozen then tellAll x x.others .barrier 6 0
              (s.modGang g fun y => { y with frozen := false, prepared := [] }) else s))
            ∧ (ok → reported → x.frozen = false → exec i s = .next (tellAll x x.others .barrier 2 (x.poll + 1)
              (s.modGang g fun y => { y with frozen := true, prepared := [], poll := y.poll + 1 })))
            ∧ (ok → reported → x.frozen = true → exec i s = .next
              (if ∀ d ∈ x.others, d ∈ x.prepared then completeBarrier g x (tellAll x x.others .barrier 5 0 s) else s)))
        ∧ (x.placed = true → x.others ≠ [] → x.members ≠ [] → low ≠ devId s →
          (x.goAhead = true → exec i s = .next (completeBarrier g x s))
            ∧ (x.goAhead = false → ¬ ok → exec i s = .next (if x.reported then tellAll x [low] .barrier 1 0
              (s.modGang g fun y => { y with reported := false, frozen := false, prepared := [] }) else s))
            ∧ (x.goAhead = false → ok → x.reported = false → exec i s
              = .next (tellAll x [low] .barrier 0 0 (s.modGang g fun y => { y with reported := true })))
            ∧ (x.goAhead = false → ok → x.reported = true → exec i s
              = .next (if x.frozen = true ∧ x.prepared = [] then tellAll x [low] .barrier 4 x.poll
                (s.modGang g fun y => { y with prepared := [devId s] }) else s))))
    ∧ (∀ (s : State) (ctx : Nat) (x : Context), KMap.get? s.contexts ctx = some x →
      ∃ u, exec (.shadowSweep ctx) s = .next u ∧ u.clusters = s.clusters
        ∧ (∀ a, ¬ (x.shbase ≤ a ∧ a < x.shbase + x.cksize / 32) → Mem.byte u.hbm a = Mem.byte s.hbm a)
        ∧ (∀ a, Mem.byte u.hbm a = Mem.byte s.hbm a ∨ Mem.byte u.hbm a = 0#8)
        ∧ ((∀ k ∈ shadowWords s x, sectorCause s (x.shbase + 4 * k) 4 = none) → ∀ a, x.shbase ≤ a → a < x.shbase + x.cksize / 32 →
          Mem.byte u.hbm a = (if bits (s.hbmNat (x.shbase + (a - x.shbase) / 4 * 4) 4) 31 20
              = (s.sstepOf ((protectedGangOf s ctx).getD 0)).toNat % 4096 then Mem.byte s.hbm a else 0#8)))
    ∧ (∀ (s : State) (n : Nat),
      (n < 2 ^ 34 → ∃ u, exec (.patrolScrub n true) s = .next u ∧ n ∈ u.poisoned ∧ (∀ m, m ≠ n → (m ∈ u.poisoned ↔ m ∈ s.poisoned))
          ∧ u.hbm = s.hbm)
        ∧ exec (.patrolScrub n false) s = .next s)
    ∧ (∀ (s : State) (g : Nat) (x : Gang) (cause : BitVec 8), KMap.get? s.gangs g = some x →
      (x.restored = true → x.markers ≠ [] → exec (.rollback g cause) s = .next s)
        ∧ (x.restored = true → x.markers = [] → x.others = [] → exec (.rollback g cause) s = .next (resumeGang g s))
        ∧ (x.restored = false → x.frozen = true → exec (.rollback g cause) s = .next s)
        ∧ (∀ c, x.restored = false → x.frozen = false → (x.rollback.isSome = true ∨ (0xC0 ≤ cause.toNat ∧ cause.toNat ≤ 0xC6)) → KMap.get? s.contexts x.ctx = some c →
          let r := x.rollback.getD cause
          (s.protectedGang g = true → x.unprotected = false → logsPoisoned s g c = false → x.others = [] →
              let u := rollDevice g { x with rollback := some r } c s
              exec (.rollback g cause) s = .next (if fabricOn s = true then u else resumeGang g u))
            ∧ (s.protectedGang g = true → x.unprotected = false → logsPoisoned s g c = true → exec (.rollback g cause) s
              = .next (((s.logFault x.ctx ⟨0xC8#8, 2, 0, 7, 0, 0#32, 0, x.sstep, 0, 0⟩).soon (.kill x.ctx)).soon (.alert g true)))
            ∧ ((s.protectedGang g = false ∨ x.unprotected = true) → exec (.rollback g cause) s = .next (s.raiseCheck x.ctx g 0 7 r)))
        ∧ (x.restored = false → x.frozen = false → x.rollback = none → (cause.toNat < 0xC0 ∨ 0xC6 < cause.toNat) → exec (.rollback g cause) s = .next s)
        ∧ ∃ y, KMap.get? (resumeGang g s).gangs g = some y ∧ y.rollback = none ∧ y.restored = false ∧ y.sstep = x.sstep
          ∧ ∀ c t, (s.cl c).task = some t → t.gang = g → ∃ t', ((resumeGang g s).cl c).task = some t'
            ∧ t'.state = (if t.state = .placed then .placed else .running))

/-- R89, R90, R93, R103, R104: a walk that ends leaves its die's list, and fills the TLBs of the clusters that joined
it where it finds a page; an invalidation drops the entries that it names on its die, keeps the others, and is busy
until its accesses are performed; pinned lines within the new capacity stay; a context is taken from a descriptor that
keeps its table, and none from one that does not or that is uncorrectable. Which accesses an invalidation waits for,
and what an unreadable descriptor leaves, are the model's choices (logs 35, 41, 99, 101). -/
def Obligations.ContextsAndTranslation : Prop :=
  ∀ (s : State) (die : Nat) (d : Die), d = s.die die →
    (∀ k w s1, d.walks[k]? = some w →
        let s0 := s.modDie die fun d => { d with walks := d.walks.eraseIdx k }
        (∀ e, walkPage w.ctx (65536 * w.page) s0 = (s1, .error e) → exec (.translationWalk die k) s = .next s1)
          ∧ (∀ r, walkPage w.ctx (65536 * w.page) s0 = (s1, .ok r) → exec (.translationWalk die k) s
            = .next (tlbFill (some die) w.cls (leafEntry w.ctx (65536 * w.page) r) s1)))
      ∧ (∀ k, d.walks.length ≤ k → exec (.translationWalk die k) s = .next s)
      ∧ (die < 4 → d.xlbusy = false →
        (∀ (ctx : Nat) (vpg : BitVec 32), 0 < ctx → ctx < 65536 →
          (∃ u, exec (.xlinvPage die ctx vpg) s = .next u ∧ (u.die die).xlbusy = true
              ∧ (∀ e, e ∈ (u.die die).tlb ↔ e ∈ d.tlb ∧ ¬ (e.ctx = ctx ∧ e.base ≤ 65536 * vpg.toNat ∧ 65536 * vpg.toNat < e.base + 2 ^ e.size))
              ∧ u.hbm = s.hbm)
            ∧ (∃ u, exec (.xlinvContext die ctx) s = .next u ∧ (u.die die).xlbusy = true
              ∧ (∀ e, e ∈ (u.die die).tlb ↔ e ∈ d.tlb ∧ e.ctx ≠ ctx)))
          ∧ (∃ u, exec (.xlinvAll die) s = .next u ∧ (u.die die).xlbusy = true ∧ (u.die die).tlb = []
            ∧ (∀ c, dieOf c = die → (u.cl c).tlb = []) ∧ (∀ c, dieOf c ≠ die → u.cl c = s.cl c)))
      ∧ (d.xlbusy = true → ∀ ctx vpg, exec (.xlinvPage die ctx vpg) s = .next s ∧ exec (.xlinvContext die ctx) s = .next s
        ∧ exec (.xlinvAll die) s = .next s)
      ∧ (exec (.invalidationComplete die) s = .next (if inFlight s die then s else s.modDie die fun d => { d with xlbusy := false }))
      ∧ (∀ v : Word, die < 4 →
        (v.toNat ≤ 12 → ∃ u, exec (.l2pinWrite die v) s = .next u ∧ (u.die die).l2pin = v
            ∧ (∀ a, Mem.byte (u.die die).pinned a = if a < 6291456 * v.toNat then Mem.byte d.pinned a else 0#8) ∧ u.hbm = s.hbm)
          ∧ (12 < v.toNat → exec (.l2pinWrite die v) s = .next s))
      ∧ (∀ n, 0 < n → n ≤ 4095 →
        let a := s.ctxbase.toNat + 256 * n
        ((sectorCause s a 256 ≠ none ∨ contextOf s (s.hbmNat a 256) = none) →
            exec (.contextLoad n) s = .next { l2Read a 256 s with ctxerr := true })
          ∧ (∀ x, sectorCause s a 256 = none → contextOf s (s.hbmNat (s.ctxbase.toNat + 256 * n) 256) = some x → KMap.get? s.contexts n = none → x.lqcnt = 0 →
            ∃ u, exec (.contextLoad n) s = .next u ∧ KMap.get? u.contexts n = some x ∧ u.ctxerr = false ∧ u.hbm = s.hbm)
          ∧ (∃ u, exec (.contextUnload n) s = .next u ∧ KMap.get? u.contexts n = none ∧ (∀ m, m ≠ n → KMap.get? u.contexts m = KMap.get? s.contexts m)
            ∧ ∀ e ∈ u.queues, e.1 / 16 ≠ n))
      ∧ exec (.contextUnload 0) s = .next s ∧ exec (.contextLoad 0) s = .next s

/-- R298 to R306, R309, R310, R317: configuring the fabric, its tables, its links and its router. `fabcfg` is taken
where its Q is a prime power and its device is in the plane, and is otherwise as before; a table write sets the entry
that it names and no other, a read shows it, and an access outside the tables is an error; a port that R298 names
trains; what the neighbour has acknowledged leaves a link's retry buffer, and a replay doubles nothing (R304); a link
that has failed 16 times goes down with its packets injected again, 0x87 logged and event 4 fired (in every loaded
context's log and on die 0, the model's choices, logs 20 and 98); a packet leaves by the port that its route gives, or
by one port per part of its string, and waits behind an earlier one of its class, source and destination; nothing
moves while the fabric is disabled. Fabric levels, turns and markers' ways are the model's readings (logs 27, 36, 57,
75, 79, 84). -/
def Obligations.FabricLinks : Prop :=
  ∀ (s : State),
    (∀ v : Word, let q := bits v.toNat 12 8
        (q ∈ primePowers → bits v.toNat 25 16 < q * q + q + 1 → v &&& 0xFFFFFFFFFC00E0FE#64 = 0#64 →
          exec (.fabcfgWrite v) s = .next { s with fabcfg := v })
        ∧ ((q ∉ primePowers ∨ q * q + q + 1 ≤ bits v.toNat 25 16 ∨ v &&& 0xFFFFFFFFFC00E0FE#64 ≠ 0#64) → exec (.fabcfgWrite v) s = .next s))
      ∧ (∀ (sel : Word) (dat : BitVec 256), let tbl := bits sel.toNat 30 28; let i := bits sel.toNat 15 0
        let quarter (x : State) (j : Nat) : BitVec 256 := (KMap.getD x.reach (j / 4) 0#1024).extractLsb' (256 * (j % 4)) 256
        ((tbl = 0 ∧ i < 1024) ∨ (tbl = 1 ∧ i < 4096) ∨ (tbl = 2 ∧ i < 256) →
            ∃ u, exec (.fabricTableWrite sel dat) s = .next u ∧ u.fabterr = false ∧ u.fabtbusy = false
              ∧ (∀ j, KMap.getD u.routes j 0#128 = if tbl = 0 ∧ j = i then dat.setWidth 128 else KMap.getD s.routes j 0#128)
              ∧ (∀ j, KMap.getD u.keys j 0#256 = if tbl = 1 ∧ j = i then dat else KMap.getD s.keys j 0#256)
              ∧ (∀ j, quarter u j = if tbl = 2 ∧ j = i then dat else quarter s j)
              ∧ u.groups = s.groups ∧ u.clusters = s.clusters ∧ u.hbm = s.hbm)
          ∧ (((tbl = 0 ∧ 1024 ≤ i) ∨ (tbl = 1 ∧ 4096 ≤ i) ∨ (tbl = 2 ∧ 256 ≤ i) ∨ 3 ≤ tbl) →
            ∃ u, exec (.fabricTableWrite sel dat) s = .next u ∧ u.fabterr = true ∧ u.routes = s.routes ∧ u.keys = s.keys ∧ u.reach = s.reach
              ∧ u.groups = s.groups)
          ∧ (∃ u, exec (.fabricTableRead sel) s = .next u ∧ u.routes = s.routes ∧ u.keys = s.keys ∧ u.reach = s.reach ∧ u.groups = s.groups
              ∧ (tbl = 0 → i < 1024 → u.fabterr = false ∧ u.fabtdat = (KMap.getD s.routes i 0#128).setWidth 256)
              ∧ (tbl = 1 → i < 4096 → u.fabterr = false ∧ u.fabtdat = KMap.getD s.keys i 0#256)
              ∧ (tbl = 2 → i < 256 → u.fabterr = false ∧ u.fabtdat = quarter s i)
              ∧ (tbl = 3 → i < 8192 → u.fabterr = false ∧ u.fabtdat = BitVec.ofNat 256 (groupEntryBits (s.slot i)))
              ∧ (tbl = 4 → i < 32768 → u.fabterr = false ∧ u.fabtdat = (s.slot (i / 4)).memb.extractLsb' (256 * (i % 4)) 256)
              ∧ (4 < tbl → u.fabterr = true ∧ u.fabtdat = s.fabtdat)))
      ∧ (∀ port,
        ((portPeer s port).isSome = true → fabricOn s = true →
            exec (.portTraining port) s = .next (s.setPort port { s.port port with trained := true, up := true, replays := 0 }))
          ∧ ((portPeer s port = none ∨ fabricOn s = false) → exec (.portTraining port) s = .next s)
          ∧ ((s.port port).up = true → ∃ u n, exec (.linkReplay port) s = .next u ∧ (u.port port).retry = (s.port port).retry.drop n
            ∧ (u.port port).replays = (if n = 0 then (s.port port).replays else 0) + 1 ∧ u.wire = s.wire ∧ u.net = s.net)
          ∧ ((s.port port).up = false → exec (.linkReplay port) s = .next s)
          ∧ ((s.port port).up = true → 16 ≤ (s.port port).replays → ∃ u, exec (.linkDown port) s = .next u ∧ (u.port port).up = false
            ∧ (u.port port).retry = [] ∧ u.net = (s.port port).retry ++ s.net
            ∧ (∃ l, u.agenda = .soon (.fire 0 4 (BitVec.ofNat 16 port) 0#16 0#32 0#48) :: l)
            ∧ (∀ n x, s.contexts = [(n, x)] → u.hbm = (s.logFault n ⟨0x87#8, 2, 389, 7, 0, 0#32, 0, 0#32, port, 0⟩).hbm)
            ∧ ∀ k, k ≠ port → u.port k = s.port k)
          ∧ (((s.port port).up = false ∨ (s.port port).replays < 16) → exec (.linkDown port) s = .next s))
      ∧ (∀ p : Packet,
        let before := s.net.takeWhile fun q => q != p
        let held : Prop := behindPair { s with park0 := [], park1 := [] } before p = true ∨ markerHeld before p = true
        let s0 : State := { s with net := s.net.erase p }
        ((fabricOn s = false ∨ p ∉ s.net ∨ held) → exec (.packetForward p) s = .next s)
          ∧ (fabricOn s = true → p ∈ s.net → ¬ held →
            (p.mc = false → p.ddev ≠ devId s →
                (∀ k q, outPort s0 p = some (k, q) → mayLeave s0 k q = true → exec (.packetForward p) s = .next (sendOut k q s0))
                  ∧ (∀ k q, outPort s0 p = some (k, q) → mayLeave s0 k q = false → exec (.packetForward p) s = .next s)
                  ∧ (outPort s0 p = none → exec (.packetForward p) s = .next (bounce p s0)))
              ∧ (p.mc = false → p.ddev = devId s →
                (∀ u, parkFull s0 p = false → deliverPacket p s0 = some u → exec (.packetForward p) s = .next u)
                  ∧ ((parkFull s0 p = true ∨ deliverPacket p s0 = none) → exec (.packetForward p) s = .next s))
              ∧ (∀ out, p.mc = true → p.kind ≠ .ack → p.dests.getLsbD (devId s) = false → copies s p.dests = (out, 0#1024) →
                ((∀ e ∈ out, mayLeave s0 e.1 p = true) → exec (.packetForward p) s
                    = .next (out.foldl (fun s e => sendOut e.1 { p with dests := e.2 } s) s0))
                  ∧ ((∃ e ∈ out, mayLeave s0 e.1 p = false) → exec (.packetForward p) s = .next s)))
          ∧ (∀ k, let u := sendOut k p s
            u.net = s.net ∧ { p with slow := false } ∈ (u.port k).retry ∧ u.clusters = s.clusters ∧ u.hbm = s.hbm
              ∧ ∀ far, portLink s k = some far → u.wire = s.wire ++ [⟨k, far.1, far.2, flitBytes { p with hop := p.hop + 1 }⟩])
          ∧ ((p.kind = .write ∨ p.kind = .readReq ∨ p.kind = .accUpdate) → p.mc = false →
            bounce p s = s.send { ackOf s p 5 [] with key := BitVec.ofNat 32 p.ddev }))

/-- R143, R300, R309, R311, R315, R326: what a packet leaves at this device. One for another device goes to the
router; one whose key does not admit its access is refused with status 4, dropped and counted; a read is answered with
its bytes and a write with an acknowledgement, performed as the key's context; one whose translation misses waits in a
park buffer, and is delivered from it once the page is there; a carry lands whole and sets its flag, and is refused
with status 3 while the mailbox is full; an acknowledgement of a plain write is taken off the cluster's count; what a
barrier or a rollback holds back or discards is not taken. The packets' fields and what waits are the model's choices
(logs 13, 57, 59, 75, 80, 81, 84, 100). -/
def Obligations.Arrivals : Prop :=
  ∀ (s : State) (p : Packet),
    (fabricOn s = false → exec (.packetArrival p) s = .next s ∧ exec (.carryArrival p) s = .next s)
      ∧ (fabricOn s = true → (p.ddev ≠ devId s ∨ p.mc = true) →
        let v := policed p s
        exec (.packetArrival p) s = .next { v.1 with net := v.1.net ++ [v.2] } ∧ ((p.tc ≠ 0 ∨ 64 ≤ p.via) → v = (s, p)))
      ∧ (fabricOn s = true → p.ddev = devId s → p.mc = false → (behindPair s s.net p = true ∨ parkFull s p = true) →
        exec (.packetArrival p) s = .next { s with net := s.net ++ [p] })
      ∧ (fabricOn s = true → p.ddev = devId s → p.mc = false → behindPair s s.net p = false → parkFull s p = false →
        (∀ g, lateOf s p = some g → exec (.packetArrival p) s = .next (g s))
          ∧ (lateOf s p = none → aborted s p = true → exec (.packetArrival p) s = .next { s with dropped := s.dropped + 1 })
          ∧ (lateOf s p = none → aborted s p = false → afterBarrier s p = true →
            exec (.packetArrival p) s = .next { s with net := s.net ++ [p] }))
      ∧ (s.admitsNow p → p.ddev = devId s → p.mc = false →
        (p.kind = .readReq → keyCheck p p.addr .rd p.mbr s = none → exec (.packetArrival p) s = .next (refuseKey p s))
          ∧ (p.kind = .write → keyCheck p p.addr .wrt p.data.length s = none → exec (.packetArrival p) s = .next (refuseKey p s))
          ∧ (p.kind = .accUpdate → keyCheck p p.addr .acc p.mbr s = none → exec (.packetArrival p) s = .next (refuseKey p s))
          ∧ (∀ ctx a bs s1, p.kind = .readReq → keyCheck p p.addr .rd p.mbr s = some (ctx, a) → ingressRead ctx a p.mbr s = .ok (bs, s1) →
            ∃ u q, exec (.packetArrival p) s = .next u ∧ u = s1.send q ∧ q.kind = .readReply ∧ q.data = bs ∧ q.ddev = p.sdev ∧ q.seq = p.seq
              ∧ q.arg = p.arg ∧ q.addr = p.addr ∧ q.tc = 2)
          ∧ (∀ ctx a s1, p.kind = .write → keyCheck p p.addr .wrt p.data.length s = some (ctx, a) →
            ingressWrite ctx (argTag p) a p.data s = .ok ((), s1) →
            ∃ u q, exec (.packetArrival p) s = .next u ∧ u = s1.send q ∧ q.kind = .ack ∧ q.mbr = 0 ∧ q.data = [] ∧ q.ddev = p.sdev
              ∧ q.seq = p.seq ∧ q.arg = p.arg)
          ∧ (∀ ctx a b, p.kind = .write → keyCheck p p.addr .wrt p.data.length s = some (ctx, a) → p.tc ≠ 0 →
            ingressWrite ctx (argTag p) a p.data s = .error (.park 0x20#8 b) → (((parkOf s p) ++ [p]).map flits).sum ≤ parkRoom →
            ∃ u, exec (.packetArrival p) s = .next u ∧ parkOf u p = parkOf s p ++ [{ p with imd := b / 65536 % 1024 }] ∧ u.clusters = s.clusters ∧ u.net = s.net)
          ∧ (∀ ctx a, p.kind = .write → keyCheck p p.addr .wrt p.data.length s = some (ctx, a) →
            ingressWrite ctx (argTag p) a p.data s = .error .wait → exec (.packetArrival p) s = .next { s with net := s.net ++ [p] })
          ∧ (∀ c, p.kind = .readReply → argUnit p ≠ 7 → cmdOfArg p s = some c →
            exec (.packetArrival p) s = .next (s.setCmd { c with
              got := Mem.write c.got (farKey p.sdev p.addr) p.data, owing := KMap.set c.owing (farKey p.sdev p.addr) 0 })))
      ∧ (∀ jd, (jd = 0 → s.park0 = []) → (jd ≠ 0 → s.park1 = []) → exec (.parkBufferRelease jd) s = .next s)
      ∧ (∀ s0, s0 = { s with park0 := [] } → s.park0 = [p] →
        (deliverPacket p s0 = none → exec (.parkBufferRelease 0) s = .next s)
          ∧ (∀ u, deliverPacket p s0 = some u → parkOf u p = [] → exec (.parkBufferRelease 0) s = .next u)
          ∧ (∀ u q t, deliverPacket p s0 = some u → parkOf u p = q :: t → q.imd = p.imd →
            exec (.parkBufferRelease 0) s = .next { s with park0 := [q] }))
      ∧ (∀ cl, ∃ u, exec (.writeAcknowledge cl) s = .next u ∧ (u.cl cl).wack = (s.cl cl).wack - 1 ∧ (u.cl cl).sregs = (s.cl cl).sregs
        ∧ (∀ c, c ≠ cl → u.cl c = s.cl c) ∧ u.hbm = s.hbm)
      ∧ (∀ c, c = { p with kind := .carry } → s.admitsNow c →
        (keyCheck c c.addr .wrt (128 * c.mbr) s = none → exec (.carryArrival p) s = .next (refuseKey c s))
          ∧ (∀ ctx a s1 x cl off, keyCheck c c.addr .wrt (128 * c.mbr) s = some (ctx, a) →
            translate (ingressWho ctx) a true false s = .ok (s1, x) → x.tgt = .sram cl off → off % 128 = 0 →
            (s1.granted ctx 384 cl = false → exec (.carryArrival p) s = .next (refuse c 3 s1))
              ∧ (s1.granted ctx 384 cl = true → inBanks (s1.cl cl) off = true → inBanks (s1.cl cl) (off + 128 * c.mbr - 1) = true → c.ver = 0 →
                ((canLand s1 ctx cl = false ∨ (s1.cl cl).flags.getLsbD c.grp = true) → exec (.carryArrival p) s = .next (refuse c 3 s1))
                  ∧ (canLand s1 ctx cl = true → c.grp < 4096 → (s1.cl cl).flags.getLsbD c.grp = false → s1.carries = [] → (s1.cl cl).bad = [] → 0 < c.mbr →
                    c.data.length = 128 * c.mbr → (∀ i, i < c.mbr → tagRefused (s1.cl cl) (off / 128 + i) (argTag c) = false
                      ∧ lineOwed s1 (.sram cl (off / 128 + i)) = false) →
                    ∃ u, exec (.carryArrival p) s = .next u ∧ (u.cl cl).flags.getLsbD c.grp = true ∧ u.carries = []
                      ∧ (∀ o, o < 128 * c.mbr → u.spByte cl (off + o) = c.data.getD o 0#8)
                      ∧ (∀ k b, ¬ (k = cl ∧ off ≤ b ∧ b < off + 128 * c.mbr) → u.spByte k b = s1.spByte k b)))))

/-- R318 to R325: groups and reductions at this device. A contribution of a version that no slot carries is dropped,
counted and answered with status 6, and one that came before is dropped; the first opens its reduction, and the last
completes it: every member receives the total of the tree over the members in their order, and the reduction is kept;
past its timeout a reduction is flushed, with a notice of who is missing to every member; a notice ends the command
that has not contributed as late; a pull load is contributed with the elements of the landing region, refused with
status 6 out of sequence or of a version unknown here; a slot that drains becomes free, with its counters and records,
once every port has returned its marker. Which router completes a reduction and the packets' fields are the model's
choices (logs 13, 24). -/
def Obligations.Reductions : Prop :=
  ∀ (s : State),
    (∀ (c : Contribution),
        (versionSlot s c.grp c.ver = none → exec (.reductionContribution c) s
            = .next (replyMember c 6 { s with dropped := s.dropped + 1 }))
          ∧ ∀ k, versionSlot s c.grp c.ver = some k →
            let x := s.slot k
            let n := memberCount x.memb
            (∀ r ∈ s.kept, r.of c.ctx c.grp c.ver = false) →
            ((∀ r ∈ s.reductions, r.same c = false) → 1 < n → ∃ u, exec (.reductionContribution c) s = .next u
                ∧ u.reductions = s.reductions ++ [⟨c.ctx, c.grp, c.ver, c.gen, c.seq, [c]⟩] ∧ u.dropped = s.dropped
                ∧ ∃ q, u.net = s.net ++ [q] ∧ q.kind = .ack ∧ q.ddev = c.dev ∧ q.mbr = groupStatus 0)
              ∧ ∀ r, (s.reductions.find? fun r => r.same c) = some r →
                ((∃ p ∈ r.parts, p.mbr = c.mbr) → exec (.reductionContribution c) s = .next { s with dropped := s.dropped + 1 })
                  ∧ ((∀ p ∈ r.parts, p.mbr ≠ c.mbr) → r.parts.length + 1 = n → x.op ≠ 4 →
                    ({ r with parts := r.parts ++ [c] } : Reduction) ∉ s.reductions →
                    let r1 : Reduction := { r with parts := r.parts ++ [c] }
                    let e := (r1.parts.head?.map (·.vals.length)).getD 0
                    let leaves := (List.range n).map fun i => match r1.parts.find? fun p => p.mbr == i with
                      | some p => p.vals.map (·.toNat)
                      | none => codes32 (identityOf x.op e)
                    let total := treeTotal (mergeCodes x.op) leaves 10 0 n
                    ∃ u, exec (.reductionContribution c) s = .next u ∧ u.reductions = s.reductions.erase r
                      ∧ (∃ y ∈ u.kept, y.of r.ctx r.grp r.ver = true ∧ y.seq = r.seq)
                      ∧ ∀ j, j < n → ∀ q ∈ trainOf { newPacket s (memberDev x.memb j) 1 .result r.ctx r.gen with
                          grp := r.grp, ver := r.ver, seq := r.seq, key := x.key
                          data := natLe 128 (r1.missing x.memb).toNat ++ total.flatMap (natLe 4) }, q ∈ u.net))
      ∧ (∀ (ctx grp ver : Nat) (seq : BitVec 32),
        let found := s.reductions.find? fun r => r.ctx == ctx && r.grp == grp && r.ver == ver && r.seq == seq
        ((versionSlot s grp ver = none ∨ found = none) → exec (.reductionTimeout ctx grp ver seq) s = .next s)
          ∧ ∀ k r, versionSlot s grp ver = some k → found = some r →
            let x := s.slot k
            (x.tmo = 0 → exec (.reductionTimeout ctx grp ver seq) s = .next s)
              ∧ (x.tmo ≠ 0 → r.missing x.memb ≠ 0#1024 → ∃ u, exec (.reductionTimeout ctx grp ver seq) s = .next u
                ∧ u.reductions = s.reductions.erase r
                ∧ (∃ y ∈ u.kept, y.of ctx grp ver = true ∧ y.seq = seq ∧ y.missing = r.missing x.memb)
                ∧ ∀ d ∈ devicesOf x.memb, ∃ q ∈ u.net, q.kind = .flush ∧ q.ddev = d ∧ q.seq = seq
                  ∧ q.data = natLe 128 (r.missing x.memb).toNat))
      ∧ (∀ (ctx grp ver : Nat) (gen seq : BitVec 32) (missing : BitVec 1024),
        let n : Kept := ⟨ctx, grp, ver, gen, seq, missing⟩
        let s1 : State := if n ∈ s.notices then s else { s with notices := s.notices ++ [n] }
        let late := s1.clusters.flatMap fun e => e.2.cmds.filter fun c => c.unit == .fabric && c.op == opEldred && c.ctx == ctx
          && c.grpOf == grp && c.verOf == ver && c.next == seq.toNat && c.push && !c.started
        (late = [] → exec (.flushNotice ctx grp ver ⟨gen, seq⟩ missing) s = .next s1)
          ∧ ∀ c, late = [c] → c.undone.contains 0 = true → c.parked = [] → missing.getLsbD (devId s) = true →
            exec (.flushNotice ctx grp ver ⟨gen, seq⟩ missing) s
              = .next (s1.setCmd { c with started := true, status := 2, items := NSet.insert c.items 0, owing := [], acks := 0 }))
      ∧ (∀ (ctx grp ver off n frm : Nat) (gen seq : BitVec 32),
        let p : Packet := { newPacket s (devId s) 1 .pullLoad ctx gen with
          sdev := frm, mc := true, grp, ver, seq, addr := off, data := natLe 4 n }
        let i := Instr.pullLoad ctx grp ver ⟨gen, seq⟩ off n frm
        (fabricOn s = false → exec i s = .next s)
          ∧ (s.admitsNow p → n < 2 ^ 32 →
            ((versionSlot s grp ver = none ∨ ∃ k, versionSlot s grp ver = some k ∧ s.groupCount k ctx + 1#32 ≠ seq) →
                exec i s = .next (refuse p 6 s))
              ∧ ∀ k, versionSlot s grp ver = some k → s.groupCount k ctx + 1#32 = seq →
                let x := s.slot k
                let z := if x.ity then 4 else 2
                (keyCheck { p with key := x.key } off .rd (z * n) s = none → exec i s = .next (refuseKey p s))
                  ∧ ∀ c a bs s1, keyCheck { p with key := x.key } off .rd (z * n) s = some (c, a) →
                    ingressRead c a (z * n) s = .ok (bs, s1) →
                    ∃ q, exec i s = .next ((s1.countGroup k ctx).send q) ∧ q.kind = .contribution ∧ q.gen = gen
                      ∧ q.ddev = rootDev x ∧ q.mbr = memberIndex x.memb (devId s) ∧ q.seq = seq ∧ q.grp = grp ∧ q.ver = ver
                      ∧ q.data.length = 4 * n))
      ∧ (∀ (grp slot : Nat), let k := 2 * grp + slot
        (((s.slot k).st ≠ 2 ∨ (s.slot k).markers ≠ []) → exec (.groupSlotDrain grp slot) s = .next s)
          ∧ ((s.slot k).st = 2 → (s.slot k).markers = [] → ∃ u, exec (.groupSlotDrain grp slot) s = .next u ∧ (u.slot k).st = 0
            ∧ (∀ j, j ≠ k → u.slot j = s.slot j) ∧ (∀ r ∈ u.kept, ¬ (r.grp = grp ∧ r.ver = (s.slot k).ver))
            ∧ (∀ ctx, ctx < 4096 → u.groupCount k ctx = 0#32)))

/-- R417 to R420: the host's aperture, link and mailboxes. An enabled aperture accesses its context's memory, line by
line, and returns what it read; a refused access leaves memory as it was, a read completing with completer abort; a
mailbox that holds a request takes no write, and the attempt is counted; a request for a context that is not loaded is
answered with 2 and one that no command knows with 1, the others wait to be served: QUIESCE until every running gang
has passed a barrier and every graph has ended or waits, FAULT_LOG_STATE at once. A reply signals its vector. The
context of a mailbox, the cause of an access while the aperture is off, what waiting means and the vectors' messages
are the model's readings (logs 40, 58, 61, 102, 103). -/
def Obligations.HostAccess : Prop :=
  ∀ (s : State),
    (∀ v : Word, exec (.hapctlWrite v) s = .next { s with hapctl := v &&& 0xFFFF0000FFFF0001#64 })
      ∧ (∀ o len, o + len ≤ 2 ^ 32 →
        let w := hostWho (bits s.hapctl.toNat 63 48)
        let va := bits s.hapctl.toNat 31 16 * 2 ^ 32 + o
        let r := hostReads w (pieces va len) s
        (s.hapctl.getLsbD 0 = false →
            exec (.hostApertureRead o len) s = .next (complete 2 o none (refuseHost s va (Config.apertureCause)))
              ∧ ∀ bs : List Byte, bs.length = len → exec (.hostApertureWrite o bs) s = .next (refuseHost s va (Config.apertureCause)))
          ∧ (s.hapctl.getLsbD 0 = true →
            (∀ s1 bs, r = .ok (s1, bs) → exec (.hostApertureRead o len) s = .next (complete 2 o (some bs) s1))
              ∧ (∀ c a, r = .error (c, a) → exec (.hostApertureRead o len) s
                = .next (if c = owedCause then s else complete 2 o none (refuseHost s a c)))
              ∧ (∀ bs : List Byte, bs.length = len →
                (∀ s1, hostWrites w va bs (pieces va len) s = .ok s1 → exec (.hostApertureWrite o bs) s = .next s1)
                  ∧ (∀ c a, hostWrites w va bs (pieces va len) s = .error (c, a) → exec (.hostApertureWrite o bs) s
                    = .next (if c = owedCause then s else refuseHost s a c)))))
      ∧ (∀ width gen, (width = 4 ∨ width = 8 ∨ width = 16) → (gen = 5 ∨ gen = 6 ∨ gen = 7) →
        exec (.pcieLinkTraining width gen) s = .next { s with pcieUp := true, pcieWidth := width, pcieGen := gen })
      ∧ (∀ k off (bs : List Byte), let m := s.mailbox k
        (15 < k → exec (.mailboxWrite k off bs) s = .next s)
          ∧ (k ≤ 15 → m.mseq ≠ m.rseq → ∃ u, exec (.mailboxWrite k off bs) s = .next u ∧ u.mailboxes = s.mailboxes
            ∧ counterValue u 0 137 = counterValue s 0 137 + 1#64)
          ∧ (k ≤ 15 → m.mseq = m.rseq → 16 ≤ off → off + bs.length ≤ 256 → ∃ u, exec (.mailboxWrite k off bs) s = .next u
            ∧ (u.mailbox k).mseq = m.mseq ∧ (u.mailbox k).rseq = m.rseq ∧ (∀ j, j ≠ k → u.mailbox j = s.mailbox j)
            ∧ ∀ i, Mem.byte (u.mailbox k).payload i
              = if off ≤ i ∧ i < off + bs.length then bs.getD (i - off) 0#8 else Mem.byte m.payload i)
          ∧ (∀ n : BitVec 32, k ≤ 15 → m.mseq = m.rseq → n ≠ m.rseq →
            let ctx := Config.mailboxContext s.tick k
            let told (mst : BitVec 16) : Prop := ∃ u, exec (.mailboxWrite k 0 (natLe 4 n.toNat)) s = .next u ∧ (u.mailbox k).mst = mst
              ∧ (u.mailbox k).rseq = n ∧ s.signalled u k
            let kept : Prop := ∃ u, exec (.mailboxWrite k 0 (natLe 4 n.toNat)) s = .next u
              ∧ (u.mailbox k).mseq = n ∧ (u.mailbox k).rseq = m.rseq ∧ (u.mailbox k).ctx = ctx ∧ u.msix = s.msix ∧ u.hostOut = s.hostOut
            (KMap.get? s.contexts ctx = none → told 2#16)
              ∧ (∀ c, KMap.get? s.contexts ctx = some c →
                (3 < m.mop.toNat ∨ m.mop.toNat = 0 → told 1#16)
                  ∧ (m.mop.toNat = 2 → spdmKnown m.spdm = false → told 0#16)
                  ∧ (m.mop.toNat = 1 ∨ m.mop.toNat = 3 ∨ (m.mop.toNat = 2 ∧ spdmKnown m.spdm = true) → kept))))
      ∧ (∀ k, let m := s.mailbox k
        let answered (u : State) (mst : BitVec 16) (bs : List Byte) : Prop :=
          (u.mailbox k).rseq = m.mseq ∧ (u.mailbox k).mst = mst ∧ s.signalled u k
            ∧ (∀ i, i < bs.length → Mem.byte (u.mailbox k).payload (16 + i) = bs.getD i 0#8) ∧ ∀ j, j ≠ k → u.mailbox j = s.mailbox j
        let mine := s.gangs.filter fun e => e.2.ctx == m.ctx && e.2.placed
        let done : Prop := (∀ e ∈ mine, e.2.sstep ≠ ((m.pend.find? fun g => g.1 == e.1).map (·.2)).getD 0#32)
          ∧ ∀ e ∈ s.graphs, e.2.ctx = m.ctx → graphWaits s e.1 e.2 = true
        (holdsRequest s k 1 = false → exec (.quiesce k) s = .next s)
          ∧ (holdsRequest s k 3 = false → exec (.faultLogState k) s = .next s)
          ∧ (holdsRequest s k 1 = true → ¬ done → exec (.quiesce k) s = .next s)
          ∧ (holdsRequest s k 1 = true → done → ∃ u, exec (.quiesce k) s = .next u ∧ answered u 0#16 (natLe 4 mine.length))
          ∧ (holdsRequest s k 3 = true → KMap.get? s.contexts m.ctx = none → ∃ u, exec (.faultLogState k) s = .next u ∧ answered u 2#16 [])
          ∧ (∀ c, holdsRequest s k 3 = true → KMap.get? s.contexts m.ctx = some c → ∃ u, exec (.faultLogState k) s = .next u
            ∧ answered u 0#16 (s.hbmRead c.flbase 4 ++ s.hbmRead (c.flbase + 128) 4 ++ s.hbmRead (c.flbase + 4) 4)))

/-- R417, R422, R423: boot, attestation and reset of the device. A stage boots where its signature holds and its
version is not below the fused one, and its digest extends the measurement of the stage before; otherwise boot stops.
The requests of SPDM are answered in the mailbox that holds them, or over the fabric: with version 1.3, the algorithms
0x0001 and 0x0002, and the measurements and digests; one that is not supported with ERROR. A function-level reset
kills every context and leaves the device at ROM with nothing measured or bound. What else an answer holds is a free
value (log 14); what the reset leaves as it was is the model's choice (log 104). -/
def Obligations.BootAndAttestation : Prop :=
  ∀ (s : State),
    (∀ img : BootImage, let n := s.stage.toNat; let d := shake256 img.bytes
        let torn : Prop := ∀ e ∈ s.contexts, e.2.dying = false
        let idle : Prop := s.bootFailed = false ∧ s.resetting = false ∧ torn
        let extended (u : State) (k : Nat) (d : List Byte) : Prop :=
          KMap.getD u.meas k [] = shake256 (KMap.getD s.meas k (List.replicate 64 0#8) ++ d) ∧ u.digests = s.digests ++ [(k, d)]
            ∧ ∀ j, j ≠ k → KMap.get? u.meas j = KMap.get? s.meas j
        (s.resetting = true → torn → exec (.boot img) s = .next (romReset s))
          ∧ (s.resetting = true → ¬ torn → exec (.boot img) s = .next s)
          ∧ (s.resetting = false → (¬ idle ∨ 2 < n) → exec (.boot img) s = .next s)
          ∧ (idle → n = 2 → ∃ u, exec (.boot img) s = .next u ∧ u.stage = 3#3 ∧ u.bootFailed = false ∧ extended u 2 (shake256 (configBytes s)))
          ∧ (idle → n < 2 → Config.falconOk d img.sig = true → Config.fusedVersion (n + 1) ≤ img.version →
            ∃ u, exec (.boot img) s = .next u ∧ u.stage = s.stage + 1#3 ∧ u.bootFailed = false ∧ extended u n d)
          ∧ (idle → n < 2 → (Config.falconOk d img.sig = false ∨ img.version < Config.fusedVersion (n + 1)) →
            ∃ u, exec (.boot img) s = .next u ∧ u.stage = s.stage ∧ u.bootFailed = true ∧ u.meas = s.meas))
      ∧ (let u := romReset s
        u.stage = 0#3 ∧ u.fabcfg = State.reset.fabcfg ∧ u.routes = State.reset.routes ∧ u.keys = State.reset.keys
          ∧ u.groups = State.reset.groups ∧ u.clusters = State.reset.clusters ∧ u.dies = State.reset.dies ∧ u.resetting = false
          ∧ u.meas = [] ∧ u.ports = s.ports ∧ u.net = s.net)
      ∧ (∀ k, ∀ e ∈ ([(.getVersion, 0x84), (.getCapabilities, 0xE1), (.negotiateAlgorithms, 0xE3), (.getDigests, 0x81),
            (.getCertificate, 0x82), (.challenge, 0x83), (.getMeasurements, 0xE0)] : List ((Nat → Instr) × Nat)),
        let m := s.mailbox k
        let req := Config.peerRequest s.tick (k - 16)
        let held : Prop := k < 16 ∧ holdsRequest s k 2 = true ∧ spdmCode m.spdm = e.2 ∧ spdmKnown m.spdm = true
        let asked : Prop := 16 ≤ k ∧ fabricOn s = true ∧ (spdmKnown req = false ∨ spdmCode req = e.2)
        (held → ∃ u, exec (e.1 k) s = .next u ∧ (u.mailbox k).rseq = m.mseq ∧ (u.mailbox k).mst = 0#16 ∧ s.signalled u k
            ∧ ∀ i, i < 240 → i < (spdmAnswer s m.spdm).length → Mem.byte (u.mailbox k).payload (16 + i) = (spdmAnswer s m.spdm).getD i 0#8)
          ∧ (asked → ∃ u q, exec (e.1 k) s = .next u ∧ u = s.send q ∧ q.kind = .spdm ∧ q.tc = 3 ∧ q.ddev = k - 16
            ∧ q.data = (if spdmKnown req = true then spdmAnswer s req else spdmError (spdmCode req)))
          ∧ (¬ held → ¬ asked → exec (e.1 k) s = .next s))
      ∧ (∀ req, (spdmCode req = 0x84 → spdmAnswer s req = versionBody)
        ∧ (spdmCode req = 0xE3 → (spdmAnswer s req).getD 38 0#8 = 1#8 ∧ (spdmAnswer s req).getD 42 0#8 = 2#8)
        ∧ (spdmCode req = 0xE0 → req.getD 3 0#8 = 0xFF#8 → (∀ v ∈ measurements s, v.length = 64) →
          ∀ i v, (measurements s)[i]? = some v → ((spdmAnswer s req).drop (15 + 71 * i)).take 64 = v))
      ∧ ∃ u, exec .functionLevelReset s = .next u ∧ u.stage = 0#3 ∧ u.bootFailed = false ∧ u.bootReason = 0#8 ∧ u.hapctl = 0#64
        ∧ u.meas = [] ∧ u.digests = [] ∧ u.msix = 0#32 ∧ u.counters = [] ∧ u.islim = [] ∧ (∀ k, u.mailbox k = Mailbox.reset)
        ∧ (∀ d k, KMap.getD (u.die d).evbind k 0#64 = 0#64 ∧ (u.die d).evring = 0#64)
        ∧ (∀ c x, KMap.get? u.contexts c = some x → x.dying = true) ∧ (s.contexts = [] → u.resetting = false ∧ u.clusters = State.reset.clusters)
        ∧ (s.contexts ≠ [] → u.resetting = true)
        ∧ ∀ c t, (u.cl c).task = some t → (s.cl c).task.isSome = true
end

