-- ==== Sys2Proof/Laws/Maps.lean ====
section
/-! SUPPORT. Maps by number and sets of numbers: what a read gives after a write. -/

namespace Sys2Proof.Machine

theorem KMap.get?_set_self {α : Type} (m : KMap α) (k : Nat) (x : α) : KMap.get? (KMap.set m k x) k = some x := by
  induction m with
  | nil => simp [KMap.set, KMap.get?]
  | cons e t ih =>
    obtain ⟨j, y⟩ := e
    simp only [KMap.set]
    split
    · simp [KMap.get?]
    · split
      · simp [KMap.get?]
      · next h => simpa [KMap.get?, h] using ih

theorem KMap.get?_set_ne {α : Type} (m : KMap α) {k j : Nat} (x : α) (h : j ≠ k) :
    KMap.get? (KMap.set m k x) j = KMap.get? m j := by
  induction m with
  | nil => simp [KMap.set, KMap.get?, Ne.symm h]
  | cons e t ih =>
    obtain ⟨i, y⟩ := e
    simp only [KMap.set]
    split
    · simp [KMap.get?, Ne.symm h]
    · split
      · next hik =>
        have hki : i = k := by simpa using hik
        subst hki
        simp [KMap.get?, Ne.symm h]
      · simp only [KMap.get?, ih]

@[simp] theorem KMap.getD_set_self {α : Type} (m : KMap α) (k : Nat) (x d : α) : KMap.getD (KMap.set m k x) k d = x := by
  simp [KMap.getD, KMap.get?_set_self]

theorem KMap.getD_set_ne {α : Type} (m : KMap α) {k j : Nat} (x d : α) (h : j ≠ k) :
    KMap.getD (KMap.set m k x) j d = KMap.getD m j d := by
  simp [KMap.getD, KMap.get?_set_ne m x h]

/-- Every entry of a map that has been written is the one written or an earlier one. -/
theorem KMap.mem_set {α : Type} {m : KMap α} {k : Nat} {x : α} {e : Nat × α} (h : e ∈ KMap.set m k x) :
    e = (k, x) ∨ e ∈ m := by
  induction m with
  | nil => simpa [KMap.set] using h
  | cons f t ih =>
    obtain ⟨j, y⟩ := f
    simp only [KMap.set] at h
    split at h
    · simpa using h
    · split at h
      · rcases List.mem_cons.mp h with h | h
        · exact Or.inl h
        · exact Or.inr (List.mem_cons_of_mem _ h)
      · rcases List.mem_cons.mp h with h | h
        · exact Or.inr (by simp [h])
        · rcases ih h with h | h
          · exact Or.inl h
          · exact Or.inr (List.mem_cons_of_mem _ h)

/-- What a map answers for a key is one of its entries, or the default. -/
theorem KMap.getD_mem {α : Type} (m : KMap α) (k : Nat) (d : α) : KMap.getD m k d = d ∨ ∃ j, (j, KMap.getD m k d) ∈ m := by
  induction m with
  | nil => exact Or.inl rfl
  | cons e t ih =>
    obtain ⟨j, y⟩ := e
    by_cases h : j = k
    · exact Or.inr ⟨j, by simp [KMap.getD, KMap.get?, h]⟩
    · have hd : KMap.getD ((j, y) :: t) k d = KMap.getD t k d := by simp [KMap.getD, KMap.get?, h]
      rw [hd]
      rcases ih with ih | ⟨i, ih⟩
      · exact Or.inl ih
      · exact Or.inr ⟨i, List.mem_cons_of_mem _ ih⟩

theorem KMap.getD_self_default {α : Type} (d : α) (k : Nat) : KMap.getD ([] : KMap α) k d = d := rfl

end Sys2Proof.Machine
end

