-- ==== Sys2Proof/Laws/State.lean ====
section
/-! SUPPORT. What each update of the machine's state leaves as it was and what it writes, field by field, and the
reads of a cluster, a die, a PC and a rake thread after each. -/

namespace Sys2Proof.Machine

/-! ### Updates of the state -/

@[simp] theorem State.setCl_agenda (s : State) (c : Nat) (x : Cluster) : (s.setCl c x).agenda = s.agenda := rfl
@[simp] theorem State.setCl_tick (s : State) (c : Nat) (x : Cluster) : (s.setCl c x).tick = s.tick := rfl
@[simp] theorem State.setCl_actor (s : State) (c : Nat) (x : Cluster) : (s.setCl c x).actor = s.actor := rfl
@[simp] theorem State.setCl_dies (s : State) (c : Nat) (x : Cluster) : (s.setCl c x).dies = s.dies := rfl
@[simp] theorem State.setCl_hbm (s : State) (c : Nat) (x : Cluster) : (s.setCl c x).hbm = s.hbm := rfl
@[simp] theorem State.setCl_poisoned (s : State) (c : Nat) (x : Cluster) : (s.setCl c x).poisoned = s.poisoned := rfl
@[simp] theorem State.setCl_dplace (s : State) (c : Nat) (x : Cluster) : (s.setCl c x).dplace = s.dplace := rfl
@[simp] theorem State.setCl_hostDone (s : State) (c : Nat) (x : Cluster) : (s.setCl c x).hostDone = s.hostDone := rfl
@[simp] theorem State.setCl_resetting (s : State) (c : Nat) (x : Cluster) : (s.setCl c x).resetting = s.resetting := rfl
@[simp] theorem State.setCl_l2 (s : State) (c : Nat) (x : Cluster) : (s.setCl c x).l2 = s.l2 := rfl
@[simp] theorem State.setCl_l2bad (s : State) (c : Nat) (x : Cluster) : (s.setCl c x).l2bad = s.l2bad := rfl
@[simp] theorem State.setCl_trains (s : State) (c : Nat) (x : Cluster) : (s.setCl c x).trains = s.trains := rfl
@[simp] theorem State.setCl_hostCpl (s : State) (c : Nat) (x : Cluster) : (s.setCl c x).hostCpl = s.hostCpl := rfl
@[simp] theorem State.setCl_ctxbase (s : State) (c : Nat) (x : Cluster) : (s.setCl c x).ctxbase = s.ctxbase := rfl
@[simp] theorem State.setCl_ctxctl (s : State) (c : Nat) (x : Cluster) : (s.setCl c x).ctxctl = s.ctxctl := rfl
@[simp] theorem State.setCl_ctxbusy (s : State) (c : Nat) (x : Cluster) : (s.setCl c x).ctxbusy = s.ctxbusy := rfl
@[simp] theorem State.setCl_ctxerr (s : State) (c : Nat) (x : Cluster) : (s.setCl c x).ctxerr = s.ctxerr := rfl
@[simp] theorem State.setCl_contexts (s : State) (c : Nat) (x : Cluster) : (s.setCl c x).contexts = s.contexts := rfl
@[simp] theorem State.setCl_queues (s : State) (c : Nat) (x : Cluster) : (s.setCl c x).queues = s.queues := rfl
@[simp] theorem State.setCl_graphs (s : State) (c : Nat) (x : Cluster) : (s.setCl c x).graphs = s.graphs := rfl
@[simp] theorem State.setCl_nextGraph (s : State) (c : Nat) (x : Cluster) : (s.setCl c x).nextGraph = s.nextGraph := rfl
@[simp] theorem State.setCl_gangs (s : State) (c : Nat) (x : Cluster) : (s.setCl c x).gangs = s.gangs := rfl
@[simp] theorem State.setCl_nextGang (s : State) (c : Nat) (x : Cluster) : (s.setCl c x).nextGang = s.nextGang := rfl
@[simp] theorem State.setCl_windrows (s : State) (c : Nat) (x : Cluster) : (s.setCl c x).windrows = s.windrows := rfl
@[simp] theorem State.setCl_logWait (s : State) (c : Nat) (x : Cluster) : (s.setCl c x).logWait = s.logWait := rfl
@[simp] theorem State.setCl_spilled (s : State) (c : Nat) (x : Cluster) : (s.setCl c x).spilled = s.spilled := rfl
@[simp] theorem State.setCl_fills (s : State) (c : Nat) (x : Cluster) : (s.setCl c x).fills = s.fills := rfl
@[simp] theorem State.setCl_fabcfg (s : State) (c : Nat) (x : Cluster) : (s.setCl c x).fabcfg = s.fabcfg := rfl
@[simp] theorem State.setCl_routes (s : State) (c : Nat) (x : Cluster) : (s.setCl c x).routes = s.routes := rfl
@[simp] theorem State.setCl_keys (s : State) (c : Nat) (x : Cluster) : (s.setCl c x).keys = s.keys := rfl
@[simp] theorem State.setCl_reach (s : State) (c : Nat) (x : Cluster) : (s.setCl c x).reach = s.reach := rfl
@[simp] theorem State.setCl_fabtsel (s : State) (c : Nat) (x : Cluster) : (s.setCl c x).fabtsel = s.fabtsel := rfl
@[simp] theorem State.setCl_fabtdat (s : State) (c : Nat) (x : Cluster) : (s.setCl c x).fabtdat = s.fabtdat := rfl
@[simp] theorem State.setCl_fabtbusy (s : State) (c : Nat) (x : Cluster) : (s.setCl c x).fabtbusy = s.fabtbusy := rfl
@[simp] theorem State.setCl_fabterr (s : State) (c : Nat) (x : Cluster) : (s.setCl c x).fabterr = s.fabterr := rfl
@[simp] theorem State.setCl_groups (s : State) (c : Nat) (x : Cluster) : (s.setCl c x).groups = s.groups := rfl
@[simp] theorem State.setCl_groupSeq (s : State) (c : Nat) (x : Cluster) : (s.setCl c x).groupSeq = s.groupSeq := rfl
@[simp] theorem State.setCl_reductions (s : State) (c : Nat) (x : Cluster) : (s.setCl c x).reductions = s.reductions := rfl
@[simp] theorem State.setCl_kept (s : State) (c : Nat) (x : Cluster) : (s.setCl c x).kept = s.kept := rfl
@[simp] theorem State.setCl_notices (s : State) (c : Nat) (x : Cluster) : (s.setCl c x).notices = s.notices := rfl
@[simp] theorem State.setCl_ports (s : State) (c : Nat) (x : Cluster) : (s.setCl c x).ports = s.ports := rfl
@[simp] theorem State.setCl_net (s : State) (c : Nat) (x : Cluster) : (s.setCl c x).net = s.net := rfl
@[simp] theorem State.setCl_wire (s : State) (c : Nat) (x : Cluster) : (s.setCl c x).wire = s.wire := rfl
@[simp] theorem State.setCl_park0 (s : State) (c : Nat) (x : Cluster) : (s.setCl c x).park0 = s.park0 := rfl
@[simp] theorem State.setCl_park1 (s : State) (c : Nat) (x : Cluster) : (s.setCl c x).park1 = s.park1 := rfl
@[simp] theorem State.setCl_carries (s : State) (c : Nat) (x : Cluster) : (s.setCl c x).carries = s.carries := rfl
@[simp] theorem State.setCl_dropped (s : State) (c : Nat) (x : Cluster) : (s.setCl c x).dropped = s.dropped := rfl
@[simp] theorem State.setCl_fabtime (s : State) (c : Nat) (x : Cluster) : (s.setCl c x).fabtime = s.fabtime := rfl
@[simp] theorem State.setCl_commit (s : State) (c : Nat) (x : Cluster) : (s.setCl c x).commit = s.commit := rfl
@[simp] theorem State.setCl_hostOut (s : State) (c : Nat) (x : Cluster) : (s.setCl c x).hostOut = s.hostOut := rfl
@[simp] theorem State.setCl_stage (s : State) (c : Nat) (x : Cluster) : (s.setCl c x).stage = s.stage := rfl
@[simp] theorem State.setCl_bootFailed (s : State) (c : Nat) (x : Cluster) : (s.setCl c x).bootFailed = s.bootFailed := rfl
@[simp] theorem State.setCl_bootReason (s : State) (c : Nat) (x : Cluster) : (s.setCl c x).bootReason = s.bootReason := rfl
@[simp] theorem State.setCl_hapctl (s : State) (c : Nat) (x : Cluster) : (s.setCl c x).hapctl = s.hapctl := rfl
@[simp] theorem State.setCl_mailboxes (s : State) (c : Nat) (x : Cluster) : (s.setCl c x).mailboxes = s.mailboxes := rfl
@[simp] theorem State.setCl_msix (s : State) (c : Nat) (x : Cluster) : (s.setCl c x).msix = s.msix := rfl
@[simp] theorem State.setCl_msixTable (s : State) (c : Nat) (x : Cluster) : (s.setCl c x).msixTable = s.msixTable := rfl
@[simp] theorem State.setCl_meas (s : State) (c : Nat) (x : Cluster) : (s.setCl c x).meas = s.meas := rfl
@[simp] theorem State.setCl_digests (s : State) (c : Nat) (x : Cluster) : (s.setCl c x).digests = s.digests := rfl
@[simp] theorem State.setCl_pcieUp (s : State) (c : Nat) (x : Cluster) : (s.setCl c x).pcieUp = s.pcieUp := rfl
@[simp] theorem State.setCl_pcieWidth (s : State) (c : Nat) (x : Cluster) : (s.setCl c x).pcieWidth = s.pcieWidth := rfl
@[simp] theorem State.setCl_pcieGen (s : State) (c : Nat) (x : Cluster) : (s.setCl c x).pcieGen = s.pcieGen := rfl
@[simp] theorem State.setCl_islim (s : State) (c : Nat) (x : Cluster) : (s.setCl c x).islim = s.islim := rfl
@[simp] theorem State.setCl_throttle (s : State) (c : Nat) (x : Cluster) : (s.setCl c x).throttle = s.throttle := rfl
@[simp] theorem State.setCl_counters (s : State) (c : Nat) (x : Cluster) : (s.setCl c x).counters = s.counters := rfl

@[simp] theorem State.modCl_agenda (s : State) (c : Nat) (f : Cluster → Cluster) : (s.modCl c f).agenda = s.agenda := rfl
@[simp] theorem State.modCl_tick (s : State) (c : Nat) (f : Cluster → Cluster) : (s.modCl c f).tick = s.tick := rfl
@[simp] theorem State.modCl_actor (s : State) (c : Nat) (f : Cluster → Cluster) : (s.modCl c f).actor = s.actor := rfl
@[simp] theorem State.modCl_dies (s : State) (c : Nat) (f : Cluster → Cluster) : (s.modCl c f).dies = s.dies := rfl
@[simp] theorem State.modCl_hbm (s : State) (c : Nat) (f : Cluster → Cluster) : (s.modCl c f).hbm = s.hbm := rfl
@[simp] theorem State.modCl_poisoned (s : State) (c : Nat) (f : Cluster → Cluster) : (s.modCl c f).poisoned = s.poisoned := rfl
@[simp] theorem State.modCl_dplace (s : State) (c : Nat) (f : Cluster → Cluster) : (s.modCl c f).dplace = s.dplace := rfl
@[simp] theorem State.modCl_hostDone (s : State) (c : Nat) (f : Cluster → Cluster) : (s.modCl c f).hostDone = s.hostDone := rfl
@[simp] theorem State.modCl_resetting (s : State) (c : Nat) (f : Cluster → Cluster) : (s.modCl c f).resetting = s.resetting := rfl
@[simp] theorem State.modCl_l2 (s : State) (c : Nat) (f : Cluster → Cluster) : (s.modCl c f).l2 = s.l2 := rfl
@[simp] theorem State.modCl_l2bad (s : State) (c : Nat) (f : Cluster → Cluster) : (s.modCl c f).l2bad = s.l2bad := rfl
@[simp] theorem State.modCl_trains (s : State) (c : Nat) (f : Cluster → Cluster) : (s.modCl c f).trains = s.trains := rfl
@[simp] theorem State.modCl_hostCpl (s : State) (c : Nat) (f : Cluster → Cluster) : (s.modCl c f).hostCpl = s.hostCpl := rfl
@[simp] theorem State.modCl_ctxbase (s : State) (c : Nat) (f : Cluster → Cluster) : (s.modCl c f).ctxbase = s.ctxbase := rfl
@[simp] theorem State.modCl_ctxctl (s : State) (c : Nat) (f : Cluster → Cluster) : (s.modCl c f).ctxctl = s.ctxctl := rfl
@[simp] theorem State.modCl_ctxbusy (s : State) (c : Nat) (f : Cluster → Cluster) : (s.modCl c f).ctxbusy = s.ctxbusy := rfl
@[simp] theorem State.modCl_ctxerr (s : State) (c : Nat) (f : Cluster → Cluster) : (s.modCl c f).ctxerr = s.ctxerr := rfl
@[simp] theorem State.modCl_contexts (s : State) (c : Nat) (f : Cluster → Cluster) : (s.modCl c f).contexts = s.contexts := rfl
@[simp] theorem State.modCl_queues (s : State) (c : Nat) (f : Cluster → Cluster) : (s.modCl c f).queues = s.queues := rfl
@[simp] theorem State.modCl_graphs (s : State) (c : Nat) (f : Cluster → Cluster) : (s.modCl c f).graphs = s.graphs := rfl
@[simp] theorem State.modCl_nextGraph (s : State) (c : Nat) (f : Cluster → Cluster) : (s.modCl c f).nextGraph = s.nextGraph := rfl
@[simp] theorem State.modCl_gangs (s : State) (c : Nat) (f : Cluster → Cluster) : (s.modCl c f).gangs = s.gangs := rfl
@[simp] theorem State.modCl_nextGang (s : State) (c : Nat) (f : Cluster → Cluster) : (s.modCl c f).nextGang = s.nextGang := rfl
@[simp] theorem State.modCl_windrows (s : State) (c : Nat) (f : Cluster → Cluster) : (s.modCl c f).windrows = s.windrows := rfl
@[simp] theorem State.modCl_logWait (s : State) (c : Nat) (f : Cluster → Cluster) : (s.modCl c f).logWait = s.logWait := rfl
@[simp] theorem State.modCl_spilled (s : State) (c : Nat) (f : Cluster → Cluster) : (s.modCl c f).spilled = s.spilled := rfl
@[simp] theorem State.modCl_fills (s : State) (c : Nat) (f : Cluster → Cluster) : (s.modCl c f).fills = s.fills := rfl
@[simp] theorem State.modCl_fabcfg (s : State) (c : Nat) (f : Cluster → Cluster) : (s.modCl c f).fabcfg = s.fabcfg := rfl
@[simp] theorem State.modCl_routes (s : State) (c : Nat) (f : Cluster → Cluster) : (s.modCl c f).routes = s.routes := rfl
@[simp] theorem State.modCl_keys (s : State) (c : Nat) (f : Cluster → Cluster) : (s.modCl c f).keys = s.keys := rfl
@[simp] theorem State.modCl_reach (s : State) (c : Nat) (f : Cluster → Cluster) : (s.modCl c f).reach = s.reach := rfl
@[simp] theorem State.modCl_fabtsel (s : State) (c : Nat) (f : Cluster → Cluster) : (s.modCl c f).fabtsel = s.fabtsel := rfl
@[simp] theorem State.modCl_fabtdat (s : State) (c : Nat) (f : Cluster → Cluster) : (s.modCl c f).fabtdat = s.fabtdat := rfl
@[simp] theorem State.modCl_fabtbusy (s : State) (c : Nat) (f : Cluster → Cluster) : (s.modCl c f).fabtbusy = s.fabtbusy := rfl
@[simp] theorem State.modCl_fabterr (s : State) (c : Nat) (f : Cluster → Cluster) : (s.modCl c f).fabterr = s.fabterr := rfl
@[simp] theorem State.modCl_groups (s : State) (c : Nat) (f : Cluster → Cluster) : (s.modCl c f).groups = s.groups := rfl
@[simp] theorem State.modCl_groupSeq (s : State) (c : Nat) (f : Cluster → Cluster) : (s.modCl c f).groupSeq = s.groupSeq := rfl
@[simp] theorem State.modCl_reductions (s : State) (c : Nat) (f : Cluster → Cluster) : (s.modCl c f).reductions = s.reductions := rfl
@[simp] theorem State.modCl_kept (s : State) (c : Nat) (f : Cluster → Cluster) : (s.modCl c f).kept = s.kept := rfl
@[simp] theorem State.modCl_notices (s : State) (c : Nat) (f : Cluster → Cluster) : (s.modCl c f).notices = s.notices := rfl
@[simp] theorem State.modCl_ports (s : State) (c : Nat) (f : Cluster → Cluster) : (s.modCl c f).ports = s.ports := rfl
@[simp] theorem State.modCl_net (s : State) (c : Nat) (f : Cluster → Cluster) : (s.modCl c f).net = s.net := rfl
@[simp] theorem State.modCl_wire (s : State) (c : Nat) (f : Cluster → Cluster) : (s.modCl c f).wire = s.wire := rfl
@[simp] theorem State.modCl_park0 (s : State) (c : Nat) (f : Cluster → Cluster) : (s.modCl c f).park0 = s.park0 := rfl
@[simp] theorem State.modCl_park1 (s : State) (c : Nat) (f : Cluster → Cluster) : (s.modCl c f).park1 = s.park1 := rfl
@[simp] theorem State.modCl_carries (s : State) (c : Nat) (f : Cluster → Cluster) : (s.modCl c f).carries = s.carries := rfl
@[simp] theorem State.modCl_dropped (s : State) (c : Nat) (f : Cluster → Cluster) : (s.modCl c f).dropped = s.dropped := rfl
@[simp] theorem State.modCl_fabtime (s : State) (c : Nat) (f : Cluster → Cluster) : (s.modCl c f).fabtime = s.fabtime := rfl
@[simp] theorem State.modCl_commit (s : State) (c : Nat) (f : Cluster → Cluster) : (s.modCl c f).commit = s.commit := rfl
@[simp] theorem State.modCl_hostOut (s : State) (c : Nat) (f : Cluster → Cluster) : (s.modCl c f).hostOut = s.hostOut := rfl
@[simp] theorem State.modCl_stage (s : State) (c : Nat) (f : Cluster → Cluster) : (s.modCl c f).stage = s.stage := rfl
@[simp] theorem State.modCl_bootFailed (s : State) (c : Nat) (f : Cluster → Cluster) : (s.modCl c f).bootFailed = s.bootFailed := rfl
@[simp] theorem State.modCl_bootReason (s : State) (c : Nat) (f : Cluster → Cluster) : (s.modCl c f).bootReason = s.bootReason := rfl
@[simp] theorem State.modCl_hapctl (s : State) (c : Nat) (f : Cluster → Cluster) : (s.modCl c f).hapctl = s.hapctl := rfl
@[simp] theorem State.modCl_mailboxes (s : State) (c : Nat) (f : Cluster → Cluster) : (s.modCl c f).mailboxes = s.mailboxes := rfl
@[simp] theorem State.modCl_msix (s : State) (c : Nat) (f : Cluster → Cluster) : (s.modCl c f).msix = s.msix := rfl
@[simp] theorem State.modCl_msixTable (s : State) (c : Nat) (f : Cluster → Cluster) : (s.modCl c f).msixTable = s.msixTable := rfl
@[simp] theorem State.modCl_meas (s : State) (c : Nat) (f : Cluster → Cluster) : (s.modCl c f).meas = s.meas := rfl
@[simp] theorem State.modCl_digests (s : State) (c : Nat) (f : Cluster → Cluster) : (s.modCl c f).digests = s.digests := rfl
@[simp] theorem State.modCl_pcieUp (s : State) (c : Nat) (f : Cluster → Cluster) : (s.modCl c f).pcieUp = s.pcieUp := rfl
@[simp] theorem State.modCl_pcieWidth (s : State) (c : Nat) (f : Cluster → Cluster) : (s.modCl c f).pcieWidth = s.pcieWidth := rfl
@[simp] theorem State.modCl_pcieGen (s : State) (c : Nat) (f : Cluster → Cluster) : (s.modCl c f).pcieGen = s.pcieGen := rfl
@[simp] theorem State.modCl_islim (s : State) (c : Nat) (f : Cluster → Cluster) : (s.modCl c f).islim = s.islim := rfl
@[simp] theorem State.modCl_throttle (s : State) (c : Nat) (f : Cluster → Cluster) : (s.modCl c f).throttle = s.throttle := rfl
@[simp] theorem State.modCl_counters (s : State) (c : Nat) (f : Cluster → Cluster) : (s.modCl c f).counters = s.counters := rfl

@[simp] theorem State.setDie_agenda (s : State) (d : Nat) (x : Die) : (s.setDie d x).agenda = s.agenda := rfl
@[simp] theorem State.setDie_tick (s : State) (d : Nat) (x : Die) : (s.setDie d x).tick = s.tick := rfl
@[simp] theorem State.setDie_actor (s : State) (d : Nat) (x : Die) : (s.setDie d x).actor = s.actor := rfl
@[simp] theorem State.setDie_clusters (s : State) (d : Nat) (x : Die) : (s.setDie d x).clusters = s.clusters := rfl
@[simp] theorem State.setDie_hbm (s : State) (d : Nat) (x : Die) : (s.setDie d x).hbm = s.hbm := rfl
@[simp] theorem State.setDie_poisoned (s : State) (d : Nat) (x : Die) : (s.setDie d x).poisoned = s.poisoned := rfl
@[simp] theorem State.setDie_dplace (s : State) (d : Nat) (x : Die) : (s.setDie d x).dplace = s.dplace := rfl
@[simp] theorem State.setDie_hostDone (s : State) (d : Nat) (x : Die) : (s.setDie d x).hostDone = s.hostDone := rfl
@[simp] theorem State.setDie_resetting (s : State) (d : Nat) (x : Die) : (s.setDie d x).resetting = s.resetting := rfl
@[simp] theorem State.setDie_l2 (s : State) (d : Nat) (x : Die) : (s.setDie d x).l2 = s.l2 := rfl
@[simp] theorem State.setDie_l2bad (s : State) (d : Nat) (x : Die) : (s.setDie d x).l2bad = s.l2bad := rfl
@[simp] theorem State.setDie_trains (s : State) (d : Nat) (x : Die) : (s.setDie d x).trains = s.trains := rfl
@[simp] theorem State.setDie_hostCpl (s : State) (d : Nat) (x : Die) : (s.setDie d x).hostCpl = s.hostCpl := rfl
@[simp] theorem State.setDie_ctxbase (s : State) (d : Nat) (x : Die) : (s.setDie d x).ctxbase = s.ctxbase := rfl
@[simp] theorem State.setDie_ctxctl (s : State) (d : Nat) (x : Die) : (s.setDie d x).ctxctl = s.ctxctl := rfl
@[simp] theorem State.setDie_ctxbusy (s : State) (d : Nat) (x : Die) : (s.setDie d x).ctxbusy = s.ctxbusy := rfl
@[simp] theorem State.setDie_ctxerr (s : State) (d : Nat) (x : Die) : (s.setDie d x).ctxerr = s.ctxerr := rfl
@[simp] theorem State.setDie_contexts (s : State) (d : Nat) (x : Die) : (s.setDie d x).contexts = s.contexts := rfl
@[simp] theorem State.setDie_queues (s : State) (d : Nat) (x : Die) : (s.setDie d x).queues = s.queues := rfl
@[simp] theorem State.setDie_graphs (s : State) (d : Nat) (x : Die) : (s.setDie d x).graphs = s.graphs := rfl
@[simp] theorem State.setDie_nextGraph (s : State) (d : Nat) (x : Die) : (s.setDie d x).nextGraph = s.nextGraph := rfl
@[simp] theorem State.setDie_gangs (s : State) (d : Nat) (x : Die) : (s.setDie d x).gangs = s.gangs := rfl
@[simp] theorem State.setDie_nextGang (s : State) (d : Nat) (x : Die) : (s.setDie d x).nextGang = s.nextGang := rfl
@[simp] theorem State.setDie_windrows (s : State) (d : Nat) (x : Die) : (s.setDie d x).windrows = s.windrows := rfl
@[simp] theorem State.setDie_logWait (s : State) (d : Nat) (x : Die) : (s.setDie d x).logWait = s.logWait := rfl
@[simp] theorem State.setDie_spilled (s : State) (d : Nat) (x : Die) : (s.setDie d x).spilled = s.spilled := rfl
@[simp] theorem State.setDie_fills (s : State) (d : Nat) (x : Die) : (s.setDie d x).fills = s.fills := rfl
@[simp] theorem State.setDie_fabcfg (s : State) (d : Nat) (x : Die) : (s.setDie d x).fabcfg = s.fabcfg := rfl
@[simp] theorem State.setDie_routes (s : State) (d : Nat) (x : Die) : (s.setDie d x).routes = s.routes := rfl
@[simp] theorem State.setDie_keys (s : State) (d : Nat) (x : Die) : (s.setDie d x).keys = s.keys := rfl
@[simp] theorem State.setDie_reach (s : State) (d : Nat) (x : Die) : (s.setDie d x).reach = s.reach := rfl
@[simp] theorem State.setDie_fabtsel (s : State) (d : Nat) (x : Die) : (s.setDie d x).fabtsel = s.fabtsel := rfl
@[simp] theorem State.setDie_fabtdat (s : State) (d : Nat) (x : Die) : (s.setDie d x).fabtdat = s.fabtdat := rfl
@[simp] theorem State.setDie_fabtbusy (s : State) (d : Nat) (x : Die) : (s.setDie d x).fabtbusy = s.fabtbusy := rfl
@[simp] theorem State.setDie_fabterr (s : State) (d : Nat) (x : Die) : (s.setDie d x).fabterr = s.fabterr := rfl
@[simp] theorem State.setDie_groups (s : State) (d : Nat) (x : Die) : (s.setDie d x).groups = s.groups := rfl
@[simp] theorem State.setDie_groupSeq (s : State) (d : Nat) (x : Die) : (s.setDie d x).groupSeq = s.groupSeq := rfl
@[simp] theorem State.setDie_reductions (s : State) (d : Nat) (x : Die) : (s.setDie d x).reductions = s.reductions := rfl
@[simp] theorem State.setDie_kept (s : State) (d : Nat) (x : Die) : (s.setDie d x).kept = s.kept := rfl
@[simp] theorem State.setDie_notices (s : State) (d : Nat) (x : Die) : (s.setDie d x).notices = s.notices := rfl
@[simp] theorem State.setDie_ports (s : State) (d : Nat) (x : Die) : (s.setDie d x).ports = s.ports := rfl
@[simp] theorem State.setDie_net (s : State) (d : Nat) (x : Die) : (s.setDie d x).net = s.net := rfl
@[simp] theorem State.setDie_wire (s : State) (d : Nat) (x : Die) : (s.setDie d x).wire = s.wire := rfl
@[simp] theorem State.setDie_park0 (s : State) (d : Nat) (x : Die) : (s.setDie d x).park0 = s.park0 := rfl
@[simp] theorem State.setDie_park1 (s : State) (d : Nat) (x : Die) : (s.setDie d x).park1 = s.park1 := rfl
@[simp] theorem State.setDie_carries (s : State) (d : Nat) (x : Die) : (s.setDie d x).carries = s.carries := rfl
@[simp] theorem State.setDie_dropped (s : State) (d : Nat) (x : Die) : (s.setDie d x).dropped = s.dropped := rfl
@[simp] theorem State.setDie_fabtime (s : State) (d : Nat) (x : Die) : (s.setDie d x).fabtime = s.fabtime := rfl
@[simp] theorem State.setDie_commit (s : State) (d : Nat) (x : Die) : (s.setDie d x).commit = s.commit := rfl
@[simp] theorem State.setDie_hostOut (s : State) (d : Nat) (x : Die) : (s.setDie d x).hostOut = s.hostOut := rfl
@[simp] theorem State.setDie_stage (s : State) (d : Nat) (x : Die) : (s.setDie d x).stage = s.stage := rfl
@[simp] theorem State.setDie_bootFailed (s : State) (d : Nat) (x : Die) : (s.setDie d x).bootFailed = s.bootFailed := rfl
@[simp] theorem State.setDie_bootReason (s : State) (d : Nat) (x : Die) : (s.setDie d x).bootReason = s.bootReason := rfl
@[simp] theorem State.setDie_hapctl (s : State) (d : Nat) (x : Die) : (s.setDie d x).hapctl = s.hapctl := rfl
@[simp] theorem State.setDie_mailboxes (s : State) (d : Nat) (x : Die) : (s.setDie d x).mailboxes = s.mailboxes := rfl
@[simp] theorem State.setDie_msix (s : State) (d : Nat) (x : Die) : (s.setDie d x).msix = s.msix := rfl
@[simp] theorem State.setDie_msixTable (s : State) (d : Nat) (x : Die) : (s.setDie d x).msixTable = s.msixTable := rfl
@[simp] theorem State.setDie_meas (s : State) (d : Nat) (x : Die) : (s.setDie d x).meas = s.meas := rfl
@[simp] theorem State.setDie_digests (s : State) (d : Nat) (x : Die) : (s.setDie d x).digests = s.digests := rfl
@[simp] theorem State.setDie_pcieUp (s : State) (d : Nat) (x : Die) : (s.setDie d x).pcieUp = s.pcieUp := rfl
@[simp] theorem State.setDie_pcieWidth (s : State) (d : Nat) (x : Die) : (s.setDie d x).pcieWidth = s.pcieWidth := rfl
@[simp] theorem State.setDie_pcieGen (s : State) (d : Nat) (x : Die) : (s.setDie d x).pcieGen = s.pcieGen := rfl
@[simp] theorem State.setDie_islim (s : State) (d : Nat) (x : Die) : (s.setDie d x).islim = s.islim := rfl
@[simp] theorem State.setDie_throttle (s : State) (d : Nat) (x : Die) : (s.setDie d x).throttle = s.throttle := rfl
@[simp] theorem State.setDie_counters (s : State) (d : Nat) (x : Die) : (s.setDie d x).counters = s.counters := rfl

@[simp] theorem State.modDie_agenda (s : State) (d : Nat) (f : Die → Die) : (s.modDie d f).agenda = s.agenda := rfl
@[simp] theorem State.modDie_tick (s : State) (d : Nat) (f : Die → Die) : (s.modDie d f).tick = s.tick := rfl
@[simp] theorem State.modDie_actor (s : State) (d : Nat) (f : Die → Die) : (s.modDie d f).actor = s.actor := rfl
@[simp] theorem State.modDie_clusters (s : State) (d : Nat) (f : Die → Die) : (s.modDie d f).clusters = s.clusters := rfl
@[simp] theorem State.modDie_hbm (s : State) (d : Nat) (f : Die → Die) : (s.modDie d f).hbm = s.hbm := rfl
@[simp] theorem State.modDie_poisoned (s : State) (d : Nat) (f : Die → Die) : (s.modDie d f).poisoned = s.poisoned := rfl
@[simp] theorem State.modDie_dplace (s : State) (d : Nat) (f : Die → Die) : (s.modDie d f).dplace = s.dplace := rfl
@[simp] theorem State.modDie_hostDone (s : State) (d : Nat) (f : Die → Die) : (s.modDie d f).hostDone = s.hostDone := rfl
@[simp] theorem State.modDie_resetting (s : State) (d : Nat) (f : Die → Die) : (s.modDie d f).resetting = s.resetting := rfl
@[simp] theorem State.modDie_l2 (s : State) (d : Nat) (f : Die → Die) : (s.modDie d f).l2 = s.l2 := rfl
@[simp] theorem State.modDie_l2bad (s : State) (d : Nat) (f : Die → Die) : (s.modDie d f).l2bad = s.l2bad := rfl
@[simp] theorem State.modDie_trains (s : State) (d : Nat) (f : Die → Die) : (s.modDie d f).trains = s.trains := rfl
@[simp] theorem State.modDie_hostCpl (s : State) (d : Nat) (f : Die → Die) : (s.modDie d f).hostCpl = s.hostCpl := rfl
@[simp] theorem State.modDie_ctxbase (s : State) (d : Nat) (f : Die → Die) : (s.modDie d f).ctxbase = s.ctxbase := rfl
@[simp] theorem State.modDie_ctxctl (s : State) (d : Nat) (f : Die → Die) : (s.modDie d f).ctxctl = s.ctxctl := rfl
@[simp] theorem State.modDie_ctxbusy (s : State) (d : Nat) (f : Die → Die) : (s.modDie d f).ctxbusy = s.ctxbusy := rfl
@[simp] theorem State.modDie_ctxerr (s : State) (d : Nat) (f : Die → Die) : (s.modDie d f).ctxerr = s.ctxerr := rfl
@[simp] theorem State.modDie_contexts (s : State) (d : Nat) (f : Die → Die) : (s.modDie d f).contexts = s.contexts := rfl
@[simp] theorem State.modDie_queues (s : State) (d : Nat) (f : Die → Die) : (s.modDie d f).queues = s.queues := rfl
@[simp] theorem State.modDie_graphs (s : State) (d : Nat) (f : Die → Die) : (s.modDie d f).graphs = s.graphs := rfl
@[simp] theorem State.modDie_nextGraph (s : State) (d : Nat) (f : Die → Die) : (s.modDie d f).nextGraph = s.nextGraph := rfl
@[simp] theorem State.modDie_gangs (s : State) (d : Nat) (f : Die → Die) : (s.modDie d f).gangs = s.gangs := rfl
@[simp] theorem State.modDie_nextGang (s : State) (d : Nat) (f : Die → Die) : (s.modDie d f).nextGang = s.nextGang := rfl
@[simp] theorem State.modDie_windrows (s : State) (d : Nat) (f : Die → Die) : (s.modDie d f).windrows = s.windrows := rfl
@[simp] theorem State.modDie_logWait (s : State) (d : Nat) (f : Die → Die) : (s.modDie d f).logWait = s.logWait := rfl
@[simp] theorem State.modDie_spilled (s : State) (d : Nat) (f : Die → Die) : (s.modDie d f).spilled = s.spilled := rfl
@[simp] theorem State.modDie_fills (s : State) (d : Nat) (f : Die → Die) : (s.modDie d f).fills = s.fills := rfl
@[simp] theorem State.modDie_fabcfg (s : State) (d : Nat) (f : Die → Die) : (s.modDie d f).fabcfg = s.fabcfg := rfl
@[simp] theorem State.modDie_routes (s : State) (d : Nat) (f : Die → Die) : (s.modDie d f).routes = s.routes := rfl
@[simp] theorem State.modDie_keys (s : State) (d : Nat) (f : Die → Die) : (s.modDie d f).keys = s.keys := rfl
@[simp] theorem State.modDie_reach (s : State) (d : Nat) (f : Die → Die) : (s.modDie d f).reach = s.reach := rfl
@[simp] theorem State.modDie_fabtsel (s : State) (d : Nat) (f : Die → Die) : (s.modDie d f).fabtsel = s.fabtsel := rfl
@[simp] theorem State.modDie_fabtdat (s : State) (d : Nat) (f : Die → Die) : (s.modDie d f).fabtdat = s.fabtdat := rfl
@[simp] theorem State.modDie_fabtbusy (s : State) (d : Nat) (f : Die → Die) : (s.modDie d f).fabtbusy = s.fabtbusy := rfl
@[simp] theorem State.modDie_fabterr (s : State) (d : Nat) (f : Die → Die) : (s.modDie d f).fabterr = s.fabterr := rfl
@[simp] theorem State.modDie_groups (s : State) (d : Nat) (f : Die → Die) : (s.modDie d f).groups = s.groups := rfl
@[simp] theorem State.modDie_groupSeq (s : State) (d : Nat) (f : Die → Die) : (s.modDie d f).groupSeq = s.groupSeq := rfl
@[simp] theorem State.modDie_reductions (s : State) (d : Nat) (f : Die → Die) : (s.modDie d f).reductions = s.reductions := rfl
@[simp] theorem State.modDie_kept (s : State) (d : Nat) (f : Die → Die) : (s.modDie d f).kept = s.kept := rfl
@[simp] theorem State.modDie_notices (s : State) (d : Nat) (f : Die → Die) : (s.modDie d f).notices = s.notices := rfl
@[simp] theorem State.modDie_ports (s : State) (d : Nat) (f : Die → Die) : (s.modDie d f).ports = s.ports := rfl
@[simp] theorem State.modDie_net (s : State) (d : Nat) (f : Die → Die) : (s.modDie d f).net = s.net := rfl
@[simp] theorem State.modDie_wire (s : State) (d : Nat) (f : Die → Die) : (s.modDie d f).wire = s.wire := rfl
@[simp] theorem State.modDie_park0 (s : State) (d : Nat) (f : Die → Die) : (s.modDie d f).park0 = s.park0 := rfl
@[simp] theorem State.modDie_park1 (s : State) (d : Nat) (f : Die → Die) : (s.modDie d f).park1 = s.park1 := rfl
@[simp] theorem State.modDie_carries (s : State) (d : Nat) (f : Die → Die) : (s.modDie d f).carries = s.carries := rfl
@[simp] theorem State.modDie_dropped (s : State) (d : Nat) (f : Die → Die) : (s.modDie d f).dropped = s.dropped := rfl
@[simp] theorem State.modDie_fabtime (s : State) (d : Nat) (f : Die → Die) : (s.modDie d f).fabtime = s.fabtime := rfl
@[simp] theorem State.modDie_commit (s : State) (d : Nat) (f : Die → Die) : (s.modDie d f).commit = s.commit := rfl
@[simp] theorem State.modDie_hostOut (s : State) (d : Nat) (f : Die → Die) : (s.modDie d f).hostOut = s.hostOut := rfl
@[simp] theorem State.modDie_stage (s : State) (d : Nat) (f : Die → Die) : (s.modDie d f).stage = s.stage := rfl
@[simp] theorem State.modDie_bootFailed (s : State) (d : Nat) (f : Die → Die) : (s.modDie d f).bootFailed = s.bootFailed := rfl
@[simp] theorem State.modDie_bootReason (s : State) (d : Nat) (f : Die → Die) : (s.modDie d f).bootReason = s.bootReason := rfl
@[simp] theorem State.modDie_hapctl (s : State) (d : Nat) (f : Die → Die) : (s.modDie d f).hapctl = s.hapctl := rfl
@[simp] theorem State.modDie_mailboxes (s : State) (d : Nat) (f : Die → Die) : (s.modDie d f).mailboxes = s.mailboxes := rfl
@[simp] theorem State.modDie_msix (s : State) (d : Nat) (f : Die → Die) : (s.modDie d f).msix = s.msix := rfl
@[simp] theorem State.modDie_msixTable (s : State) (d : Nat) (f : Die → Die) : (s.modDie d f).msixTable = s.msixTable := rfl
@[simp] theorem State.modDie_meas (s : State) (d : Nat) (f : Die → Die) : (s.modDie d f).meas = s.meas := rfl
@[simp] theorem State.modDie_digests (s : State) (d : Nat) (f : Die → Die) : (s.modDie d f).digests = s.digests := rfl
@[simp] theorem State.modDie_pcieUp (s : State) (d : Nat) (f : Die → Die) : (s.modDie d f).pcieUp = s.pcieUp := rfl
@[simp] theorem State.modDie_pcieWidth (s : State) (d : Nat) (f : Die → Die) : (s.modDie d f).pcieWidth = s.pcieWidth := rfl
@[simp] theorem State.modDie_pcieGen (s : State) (d : Nat) (f : Die → Die) : (s.modDie d f).pcieGen = s.pcieGen := rfl
@[simp] theorem State.modDie_islim (s : State) (d : Nat) (f : Die → Die) : (s.modDie d f).islim = s.islim := rfl
@[simp] theorem State.modDie_throttle (s : State) (d : Nat) (f : Die → Die) : (s.modDie d f).throttle = s.throttle := rfl
@[simp] theorem State.modDie_counters (s : State) (d : Nat) (f : Die → Die) : (s.modDie d f).counters = s.counters := rfl

@[simp] theorem State.hbmWrite_agenda (s : State) (a : Nat) (bs : List Byte) : (s.hbmWrite a bs).agenda = s.agenda := rfl
@[simp] theorem State.hbmWrite_tick (s : State) (a : Nat) (bs : List Byte) : (s.hbmWrite a bs).tick = s.tick := rfl
@[simp] theorem State.hbmWrite_actor (s : State) (a : Nat) (bs : List Byte) : (s.hbmWrite a bs).actor = s.actor := rfl
@[simp] theorem State.hbmWrite_clusters (s : State) (a : Nat) (bs : List Byte) : (s.hbmWrite a bs).clusters = s.clusters := rfl
@[simp] theorem State.hbmWrite_dies (s : State) (a : Nat) (bs : List Byte) : (s.hbmWrite a bs).dies = s.dies := rfl
@[simp] theorem State.hbmWrite_poisoned (s : State) (a : Nat) (bs : List Byte) : (s.hbmWrite a bs).poisoned = s.poisoned := rfl
@[simp] theorem State.hbmWrite_dplace (s : State) (a : Nat) (bs : List Byte) : (s.hbmWrite a bs).dplace = s.dplace := rfl
@[simp] theorem State.hbmWrite_hostDone (s : State) (a : Nat) (bs : List Byte) : (s.hbmWrite a bs).hostDone = s.hostDone := rfl
@[simp] theorem State.hbmWrite_resetting (s : State) (a : Nat) (bs : List Byte) : (s.hbmWrite a bs).resetting = s.resetting := rfl
@[simp] theorem State.hbmWrite_l2 (s : State) (a : Nat) (bs : List Byte) : (s.hbmWrite a bs).l2 = s.l2 := rfl
@[simp] theorem State.hbmWrite_l2bad (s : State) (a : Nat) (bs : List Byte) : (s.hbmWrite a bs).l2bad = s.l2bad := rfl
@[simp] theorem State.hbmWrite_trains (s : State) (a : Nat) (bs : List Byte) : (s.hbmWrite a bs).trains = s.trains := rfl
@[simp] theorem State.hbmWrite_hostCpl (s : State) (a : Nat) (bs : List Byte) : (s.hbmWrite a bs).hostCpl = s.hostCpl := rfl
@[simp] theorem State.hbmWrite_ctxbase (s : State) (a : Nat) (bs : List Byte) : (s.hbmWrite a bs).ctxbase = s.ctxbase := rfl
@[simp] theorem State.hbmWrite_ctxctl (s : State) (a : Nat) (bs : List Byte) : (s.hbmWrite a bs).ctxctl = s.ctxctl := rfl
@[simp] theorem State.hbmWrite_ctxbusy (s : State) (a : Nat) (bs : List Byte) : (s.hbmWrite a bs).ctxbusy = s.ctxbusy := rfl
@[simp] theorem State.hbmWrite_ctxerr (s : State) (a : Nat) (bs : List Byte) : (s.hbmWrite a bs).ctxerr = s.ctxerr := rfl
@[simp] theorem State.hbmWrite_contexts (s : State) (a : Nat) (bs : List Byte) : (s.hbmWrite a bs).contexts = s.contexts := rfl
@[simp] theorem State.hbmWrite_queues (s : State) (a : Nat) (bs : List Byte) : (s.hbmWrite a bs).queues = s.queues := rfl
@[simp] theorem State.hbmWrite_graphs (s : State) (a : Nat) (bs : List Byte) : (s.hbmWrite a bs).graphs = s.graphs := rfl
@[simp] theorem State.hbmWrite_nextGraph (s : State) (a : Nat) (bs : List Byte) : (s.hbmWrite a bs).nextGraph = s.nextGraph := rfl
@[simp] theorem State.hbmWrite_gangs (s : State) (a : Nat) (bs : List Byte) : (s.hbmWrite a bs).gangs = s.gangs := rfl
@[simp] theorem State.hbmWrite_nextGang (s : State) (a : Nat) (bs : List Byte) : (s.hbmWrite a bs).nextGang = s.nextGang := rfl
@[simp] theorem State.hbmWrite_windrows (s : State) (a : Nat) (bs : List Byte) : (s.hbmWrite a bs).windrows = s.windrows := rfl
@[simp] theorem State.hbmWrite_logWait (s : State) (a : Nat) (bs : List Byte) : (s.hbmWrite a bs).logWait = s.logWait := rfl
@[simp] theorem State.hbmWrite_spilled (s : State) (a : Nat) (bs : List Byte) : (s.hbmWrite a bs).spilled = s.spilled := rfl
@[simp] theorem State.hbmWrite_fills (s : State) (a : Nat) (bs : List Byte) : (s.hbmWrite a bs).fills = s.fills := rfl
@[simp] theorem State.hbmWrite_fabcfg (s : State) (a : Nat) (bs : List Byte) : (s.hbmWrite a bs).fabcfg = s.fabcfg := rfl
@[simp] theorem State.hbmWrite_routes (s : State) (a : Nat) (bs : List Byte) : (s.hbmWrite a bs).routes = s.routes := rfl
@[simp] theorem State.hbmWrite_keys (s : State) (a : Nat) (bs : List Byte) : (s.hbmWrite a bs).keys = s.keys := rfl
@[simp] theorem State.hbmWrite_reach (s : State) (a : Nat) (bs : List Byte) : (s.hbmWrite a bs).reach = s.reach := rfl
@[simp] theorem State.hbmWrite_fabtsel (s : State) (a : Nat) (bs : List Byte) : (s.hbmWrite a bs).fabtsel = s.fabtsel := rfl
@[simp] theorem State.hbmWrite_fabtdat (s : State) (a : Nat) (bs : List Byte) : (s.hbmWrite a bs).fabtdat = s.fabtdat := rfl
@[simp] theorem State.hbmWrite_fabtbusy (s : State) (a : Nat) (bs : List Byte) : (s.hbmWrite a bs).fabtbusy = s.fabtbusy := rfl
@[simp] theorem State.hbmWrite_fabterr (s : State) (a : Nat) (bs : List Byte) : (s.hbmWrite a bs).fabterr = s.fabterr := rfl
@[simp] theorem State.hbmWrite_groups (s : State) (a : Nat) (bs : List Byte) : (s.hbmWrite a bs).groups = s.groups := rfl
@[simp] theorem State.hbmWrite_groupSeq (s : State) (a : Nat) (bs : List Byte) : (s.hbmWrite a bs).groupSeq = s.groupSeq := rfl
@[simp] theorem State.hbmWrite_reductions (s : State) (a : Nat) (bs : List Byte) : (s.hbmWrite a bs).reductions = s.reductions := rfl
@[simp] theorem State.hbmWrite_kept (s : State) (a : Nat) (bs : List Byte) : (s.hbmWrite a bs).kept = s.kept := rfl
@[simp] theorem State.hbmWrite_notices (s : State) (a : Nat) (bs : List Byte) : (s.hbmWrite a bs).notices = s.notices := rfl
@[simp] theorem State.hbmWrite_ports (s : State) (a : Nat) (bs : List Byte) : (s.hbmWrite a bs).ports = s.ports := rfl
@[simp] theorem State.hbmWrite_net (s : State) (a : Nat) (bs : List Byte) : (s.hbmWrite a bs).net = s.net := rfl
@[simp] theorem State.hbmWrite_wire (s : State) (a : Nat) (bs : List Byte) : (s.hbmWrite a bs).wire = s.wire := rfl
@[simp] theorem State.hbmWrite_park0 (s : State) (a : Nat) (bs : List Byte) : (s.hbmWrite a bs).park0 = s.park0 := rfl
@[simp] theorem State.hbmWrite_park1 (s : State) (a : Nat) (bs : List Byte) : (s.hbmWrite a bs).park1 = s.park1 := rfl
@[simp] theorem State.hbmWrite_carries (s : State) (a : Nat) (bs : List Byte) : (s.hbmWrite a bs).carries = s.carries := rfl
@[simp] theorem State.hbmWrite_dropped (s : State) (a : Nat) (bs : List Byte) : (s.hbmWrite a bs).dropped = s.dropped := rfl
@[simp] theorem State.hbmWrite_fabtime (s : State) (a : Nat) (bs : List Byte) : (s.hbmWrite a bs).fabtime = s.fabtime := rfl
@[simp] theorem State.hbmWrite_commit (s : State) (a : Nat) (bs : List Byte) : (s.hbmWrite a bs).commit = s.commit := rfl
@[simp] theorem State.hbmWrite_hostOut (s : State) (a : Nat) (bs : List Byte) : (s.hbmWrite a bs).hostOut = s.hostOut := rfl
@[simp] theorem State.hbmWrite_stage (s : State) (a : Nat) (bs : List Byte) : (s.hbmWrite a bs).stage = s.stage := rfl
@[simp] theorem State.hbmWrite_bootFailed (s : State) (a : Nat) (bs : List Byte) : (s.hbmWrite a bs).bootFailed = s.bootFailed := rfl
@[simp] theorem State.hbmWrite_bootReason (s : State) (a : Nat) (bs : List Byte) : (s.hbmWrite a bs).bootReason = s.bootReason := rfl
@[simp] theorem State.hbmWrite_hapctl (s : State) (a : Nat) (bs : List Byte) : (s.hbmWrite a bs).hapctl = s.hapctl := rfl
@[simp] theorem State.hbmWrite_mailboxes (s : State) (a : Nat) (bs : List Byte) : (s.hbmWrite a bs).mailboxes = s.mailboxes := rfl
@[simp] theorem State.hbmWrite_msix (s : State) (a : Nat) (bs : List Byte) : (s.hbmWrite a bs).msix = s.msix := rfl
@[simp] theorem State.hbmWrite_msixTable (s : State) (a : Nat) (bs : List Byte) : (s.hbmWrite a bs).msixTable = s.msixTable := rfl
@[simp] theorem State.hbmWrite_meas (s : State) (a : Nat) (bs : List Byte) : (s.hbmWrite a bs).meas = s.meas := rfl
@[simp] theorem State.hbmWrite_digests (s : State) (a : Nat) (bs : List Byte) : (s.hbmWrite a bs).digests = s.digests := rfl
@[simp] theorem State.hbmWrite_pcieUp (s : State) (a : Nat) (bs : List Byte) : (s.hbmWrite a bs).pcieUp = s.pcieUp := rfl
@[simp] theorem State.hbmWrite_pcieWidth (s : State) (a : Nat) (bs : List Byte) : (s.hbmWrite a bs).pcieWidth = s.pcieWidth := rfl
@[simp] theorem State.hbmWrite_pcieGen (s : State) (a : Nat) (bs : List Byte) : (s.hbmWrite a bs).pcieGen = s.pcieGen := rfl
@[simp] theorem State.hbmWrite_islim (s : State) (a : Nat) (bs : List Byte) : (s.hbmWrite a bs).islim = s.islim := rfl
@[simp] theorem State.hbmWrite_throttle (s : State) (a : Nat) (bs : List Byte) : (s.hbmWrite a bs).throttle = s.throttle := rfl
@[simp] theorem State.hbmWrite_counters (s : State) (a : Nat) (bs : List Byte) : (s.hbmWrite a bs).counters = s.counters := rfl

@[simp] theorem State.soon_tick (s : State) (x : Soon) : (s.soon x).tick = s.tick := rfl
@[simp] theorem State.soon_actor (s : State) (x : Soon) : (s.soon x).actor = s.actor := rfl
@[simp] theorem State.soon_clusters (s : State) (x : Soon) : (s.soon x).clusters = s.clusters := rfl
@[simp] theorem State.soon_dies (s : State) (x : Soon) : (s.soon x).dies = s.dies := rfl
@[simp] theorem State.soon_hbm (s : State) (x : Soon) : (s.soon x).hbm = s.hbm := rfl
@[simp] theorem State.soon_poisoned (s : State) (x : Soon) : (s.soon x).poisoned = s.poisoned := rfl
@[simp] theorem State.soon_dplace (s : State) (x : Soon) : (s.soon x).dplace = s.dplace := rfl
@[simp] theorem State.soon_hostDone (s : State) (x : Soon) : (s.soon x).hostDone = s.hostDone := rfl
@[simp] theorem State.soon_resetting (s : State) (x : Soon) : (s.soon x).resetting = s.resetting := rfl
@[simp] theorem State.soon_l2 (s : State) (x : Soon) : (s.soon x).l2 = s.l2 := rfl
@[simp] theorem State.soon_l2bad (s : State) (x : Soon) : (s.soon x).l2bad = s.l2bad := rfl
@[simp] theorem State.soon_trains (s : State) (x : Soon) : (s.soon x).trains = s.trains := rfl
@[simp] theorem State.soon_hostCpl (s : State) (x : Soon) : (s.soon x).hostCpl = s.hostCpl := rfl
@[simp] theorem State.soon_ctxbase (s : State) (x : Soon) : (s.soon x).ctxbase = s.ctxbase := rfl
@[simp] theorem State.soon_ctxctl (s : State) (x : Soon) : (s.soon x).ctxctl = s.ctxctl := rfl
@[simp] theorem State.soon_ctxbusy (s : State) (x : Soon) : (s.soon x).ctxbusy = s.ctxbusy := rfl
@[simp] theorem State.soon_ctxerr (s : State) (x : Soon) : (s.soon x).ctxerr = s.ctxerr := rfl
@[simp] theorem State.soon_contexts (s : State) (x : Soon) : (s.soon x).contexts = s.contexts := rfl
@[simp] theorem State.soon_queues (s : State) (x : Soon) : (s.soon x).queues = s.queues := rfl
@[simp] theorem State.soon_graphs (s : State) (x : Soon) : (s.soon x).graphs = s.graphs := rfl
@[simp] theorem State.soon_nextGraph (s : State) (x : Soon) : (s.soon x).nextGraph = s.nextGraph := rfl
@[simp] theorem State.soon_gangs (s : State) (x : Soon) : (s.soon x).gangs = s.gangs := rfl
@[simp] theorem State.soon_nextGang (s : State) (x : Soon) : (s.soon x).nextGang = s.nextGang := rfl
@[simp] theorem State.soon_windrows (s : State) (x : Soon) : (s.soon x).windrows = s.windrows := rfl
@[simp] theorem State.soon_logWait (s : State) (x : Soon) : (s.soon x).logWait = s.logWait := rfl
@[simp] theorem State.soon_spilled (s : State) (x : Soon) : (s.soon x).spilled = s.spilled := rfl
@[simp] theorem State.soon_fills (s : State) (x : Soon) : (s.soon x).fills = s.fills := rfl
@[simp] theorem State.soon_fabcfg (s : State) (x : Soon) : (s.soon x).fabcfg = s.fabcfg := rfl
@[simp] theorem State.soon_routes (s : State) (x : Soon) : (s.soon x).routes = s.routes := rfl
@[simp] theorem State.soon_keys (s : State) (x : Soon) : (s.soon x).keys = s.keys := rfl
@[simp] theorem State.soon_reach (s : State) (x : Soon) : (s.soon x).reach = s.reach := rfl
@[simp] theorem State.soon_fabtsel (s : State) (x : Soon) : (s.soon x).fabtsel = s.fabtsel := rfl
@[simp] theorem State.soon_fabtdat (s : State) (x : Soon) : (s.soon x).fabtdat = s.fabtdat := rfl
@[simp] theorem State.soon_fabtbusy (s : State) (x : Soon) : (s.soon x).fabtbusy = s.fabtbusy := rfl
@[simp] theorem State.soon_fabterr (s : State) (x : Soon) : (s.soon x).fabterr = s.fabterr := rfl
@[simp] theorem State.soon_groups (s : State) (x : Soon) : (s.soon x).groups = s.groups := rfl
@[simp] theorem State.soon_groupSeq (s : State) (x : Soon) : (s.soon x).groupSeq = s.groupSeq := rfl
@[simp] theorem State.soon_reductions (s : State) (x : Soon) : (s.soon x).reductions = s.reductions := rfl
@[simp] theorem State.soon_kept (s : State) (x : Soon) : (s.soon x).kept = s.kept := rfl
@[simp] theorem State.soon_notices (s : State) (x : Soon) : (s.soon x).notices = s.notices := rfl
@[simp] theorem State.soon_ports (s : State) (x : Soon) : (s.soon x).ports = s.ports := rfl
@[simp] theorem State.soon_net (s : State) (x : Soon) : (s.soon x).net = s.net := rfl
@[simp] theorem State.soon_wire (s : State) (x : Soon) : (s.soon x).wire = s.wire := rfl
@[simp] theorem State.soon_park0 (s : State) (x : Soon) : (s.soon x).park0 = s.park0 := rfl
@[simp] theorem State.soon_park1 (s : State) (x : Soon) : (s.soon x).park1 = s.park1 := rfl
@[simp] theorem State.soon_carries (s : State) (x : Soon) : (s.soon x).carries = s.carries := rfl
@[simp] theorem State.soon_dropped (s : State) (x : Soon) : (s.soon x).dropped = s.dropped := rfl
@[simp] theorem State.soon_fabtime (s : State) (x : Soon) : (s.soon x).fabtime = s.fabtime := rfl
@[simp] theorem State.soon_commit (s : State) (x : Soon) : (s.soon x).commit = s.commit := rfl
@[simp] theorem State.soon_hostOut (s : State) (x : Soon) : (s.soon x).hostOut = s.hostOut := rfl
@[simp] theorem State.soon_stage (s : State) (x : Soon) : (s.soon x).stage = s.stage := rfl
@[simp] theorem State.soon_bootFailed (s : State) (x : Soon) : (s.soon x).bootFailed = s.bootFailed := rfl
@[simp] theorem State.soon_bootReason (s : State) (x : Soon) : (s.soon x).bootReason = s.bootReason := rfl
@[simp] theorem State.soon_hapctl (s : State) (x : Soon) : (s.soon x).hapctl = s.hapctl := rfl
@[simp] theorem State.soon_mailboxes (s : State) (x : Soon) : (s.soon x).mailboxes = s.mailboxes := rfl
@[simp] theorem State.soon_msix (s : State) (x : Soon) : (s.soon x).msix = s.msix := rfl
@[simp] theorem State.soon_msixTable (s : State) (x : Soon) : (s.soon x).msixTable = s.msixTable := rfl
@[simp] theorem State.soon_meas (s : State) (x : Soon) : (s.soon x).meas = s.meas := rfl
@[simp] theorem State.soon_digests (s : State) (x : Soon) : (s.soon x).digests = s.digests := rfl
@[simp] theorem State.soon_pcieUp (s : State) (x : Soon) : (s.soon x).pcieUp = s.pcieUp := rfl
@[simp] theorem State.soon_pcieWidth (s : State) (x : Soon) : (s.soon x).pcieWidth = s.pcieWidth := rfl
@[simp] theorem State.soon_pcieGen (s : State) (x : Soon) : (s.soon x).pcieGen = s.pcieGen := rfl
@[simp] theorem State.soon_islim (s : State) (x : Soon) : (s.soon x).islim = s.islim := rfl
@[simp] theorem State.soon_throttle (s : State) (x : Soon) : (s.soon x).throttle = s.throttle := rfl
@[simp] theorem State.soon_counters (s : State) (x : Soon) : (s.soon x).counters = s.counters := rfl

@[simp] theorem State.send_agenda (s : State) (p : Packet) : (s.send p).agenda = s.agenda := rfl
@[simp] theorem State.send_tick (s : State) (p : Packet) : (s.send p).tick = s.tick := rfl
@[simp] theorem State.send_actor (s : State) (p : Packet) : (s.send p).actor = s.actor := rfl
@[simp] theorem State.send_clusters (s : State) (p : Packet) : (s.send p).clusters = s.clusters := rfl
@[simp] theorem State.send_dies (s : State) (p : Packet) : (s.send p).dies = s.dies := rfl
@[simp] theorem State.send_hbm (s : State) (p : Packet) : (s.send p).hbm = s.hbm := rfl
@[simp] theorem State.send_poisoned (s : State) (p : Packet) : (s.send p).poisoned = s.poisoned := rfl
@[simp] theorem State.send_dplace (s : State) (p : Packet) : (s.send p).dplace = s.dplace := rfl
@[simp] theorem State.send_hostDone (s : State) (p : Packet) : (s.send p).hostDone = s.hostDone := rfl
@[simp] theorem State.send_resetting (s : State) (p : Packet) : (s.send p).resetting = s.resetting := rfl
@[simp] theorem State.send_l2 (s : State) (p : Packet) : (s.send p).l2 = s.l2 := rfl
@[simp] theorem State.send_l2bad (s : State) (p : Packet) : (s.send p).l2bad = s.l2bad := rfl
@[simp] theorem State.send_trains (s : State) (p : Packet) : (s.send p).trains = s.trains := rfl
@[simp] theorem State.send_hostCpl (s : State) (p : Packet) : (s.send p).hostCpl = s.hostCpl := rfl
@[simp] theorem State.send_ctxbase (s : State) (p : Packet) : (s.send p).ctxbase = s.ctxbase := rfl
@[simp] theorem State.send_ctxctl (s : State) (p : Packet) : (s.send p).ctxctl = s.ctxctl := rfl
@[simp] theorem State.send_ctxbusy (s : State) (p : Packet) : (s.send p).ctxbusy = s.ctxbusy := rfl
@[simp] theorem State.send_ctxerr (s : State) (p : Packet) : (s.send p).ctxerr = s.ctxerr := rfl
@[simp] theorem State.send_contexts (s : State) (p : Packet) : (s.send p).contexts = s.contexts := rfl
@[simp] theorem State.send_queues (s : State) (p : Packet) : (s.send p).queues = s.queues := rfl
@[simp] theorem State.send_graphs (s : State) (p : Packet) : (s.send p).graphs = s.graphs := rfl
@[simp] theorem State.send_nextGraph (s : State) (p : Packet) : (s.send p).nextGraph = s.nextGraph := rfl
@[simp] theorem State.send_gangs (s : State) (p : Packet) : (s.send p).gangs = s.gangs := rfl
@[simp] theorem State.send_nextGang (s : State) (p : Packet) : (s.send p).nextGang = s.nextGang := rfl
@[simp] theorem State.send_windrows (s : State) (p : Packet) : (s.send p).windrows = s.windrows := rfl
@[simp] theorem State.send_logWait (s : State) (p : Packet) : (s.send p).logWait = s.logWait := rfl
@[simp] theorem State.send_spilled (s : State) (p : Packet) : (s.send p).spilled = s.spilled := rfl
@[simp] theorem State.send_fills (s : State) (p : Packet) : (s.send p).fills = s.fills := rfl
@[simp] theorem State.send_fabcfg (s : State) (p : Packet) : (s.send p).fabcfg = s.fabcfg := rfl
@[simp] theorem State.send_routes (s : State) (p : Packet) : (s.send p).routes = s.routes := rfl
@[simp] theorem State.send_keys (s : State) (p : Packet) : (s.send p).keys = s.keys := rfl
@[simp] theorem State.send_reach (s : State) (p : Packet) : (s.send p).reach = s.reach := rfl
@[simp] theorem State.send_fabtsel (s : State) (p : Packet) : (s.send p).fabtsel = s.fabtsel := rfl
@[simp] theorem State.send_fabtdat (s : State) (p : Packet) : (s.send p).fabtdat = s.fabtdat := rfl
@[simp] theorem State.send_fabtbusy (s : State) (p : Packet) : (s.send p).fabtbusy = s.fabtbusy := rfl
@[simp] theorem State.send_fabterr (s : State) (p : Packet) : (s.send p).fabterr = s.fabterr := rfl
@[simp] theorem State.send_groups (s : State) (p : Packet) : (s.send p).groups = s.groups := rfl
@[simp] theorem State.send_groupSeq (s : State) (p : Packet) : (s.send p).groupSeq = s.groupSeq := rfl
@[simp] theorem State.send_reductions (s : State) (p : Packet) : (s.send p).reductions = s.reductions := rfl
@[simp] theorem State.send_kept (s : State) (p : Packet) : (s.send p).kept = s.kept := rfl
@[simp] theorem State.send_notices (s : State) (p : Packet) : (s.send p).notices = s.notices := rfl
@[simp] theorem State.send_ports (s : State) (p : Packet) : (s.send p).ports = s.ports := rfl
@[simp] theorem State.send_wire (s : State) (p : Packet) : (s.send p).wire = s.wire := rfl
@[simp] theorem State.send_park0 (s : State) (p : Packet) : (s.send p).park0 = s.park0 := rfl
@[simp] theorem State.send_park1 (s : State) (p : Packet) : (s.send p).park1 = s.park1 := rfl
@[simp] theorem State.send_carries (s : State) (p : Packet) : (s.send p).carries = s.carries := rfl
@[simp] theorem State.send_dropped (s : State) (p : Packet) : (s.send p).dropped = s.dropped := rfl
@[simp] theorem State.send_fabtime (s : State) (p : Packet) : (s.send p).fabtime = s.fabtime := rfl
@[simp] theorem State.send_commit (s : State) (p : Packet) : (s.send p).commit = s.commit := rfl
@[simp] theorem State.send_hostOut (s : State) (p : Packet) : (s.send p).hostOut = s.hostOut := rfl
@[simp] theorem State.send_stage (s : State) (p : Packet) : (s.send p).stage = s.stage := rfl
@[simp] theorem State.send_bootFailed (s : State) (p : Packet) : (s.send p).bootFailed = s.bootFailed := rfl
@[simp] theorem State.send_bootReason (s : State) (p : Packet) : (s.send p).bootReason = s.bootReason := rfl
@[simp] theorem State.send_hapctl (s : State) (p : Packet) : (s.send p).hapctl = s.hapctl := rfl
@[simp] theorem State.send_mailboxes (s : State) (p : Packet) : (s.send p).mailboxes = s.mailboxes := rfl
@[simp] theorem State.send_msix (s : State) (p : Packet) : (s.send p).msix = s.msix := rfl
@[simp] theorem State.send_msixTable (s : State) (p : Packet) : (s.send p).msixTable = s.msixTable := rfl
@[simp] theorem State.send_meas (s : State) (p : Packet) : (s.send p).meas = s.meas := rfl
@[simp] theorem State.send_digests (s : State) (p : Packet) : (s.send p).digests = s.digests := rfl
@[simp] theorem State.send_pcieUp (s : State) (p : Packet) : (s.send p).pcieUp = s.pcieUp := rfl
@[simp] theorem State.send_pcieWidth (s : State) (p : Packet) : (s.send p).pcieWidth = s.pcieWidth := rfl
@[simp] theorem State.send_pcieGen (s : State) (p : Packet) : (s.send p).pcieGen = s.pcieGen := rfl
@[simp] theorem State.send_islim (s : State) (p : Packet) : (s.send p).islim = s.islim := rfl
@[simp] theorem State.send_throttle (s : State) (p : Packet) : (s.send p).throttle = s.throttle := rfl
@[simp] theorem State.send_counters (s : State) (p : Packet) : (s.send p).counters = s.counters := rfl


/-! ### Updates of a cluster -/

@[simp] theorem Cluster.setWalk_sregs (x : Cluster) (e : Eng) (w : Walk) : (x.setWalk e w).sregs = x.sregs := by
  cases e <;> rfl
@[simp] theorem Cluster.setWalk_preds (x : Cluster) (e : Eng) (w : Walk) : (x.setWalk e w).preds = x.preds := by
  cases e <;> rfl
@[simp] theorem Cluster.setWalk_ptrs (x : Cluster) (e : Eng) (w : Walk) : (x.setWalk e w).ptrs = x.ptrs := by
  cases e <;> rfl
@[simp] theorem Cluster.setWalk_owedVers (x : Cluster) (e : Eng) (w : Walk) : (x.setWalk e w).owedVers = x.owedVers := by
  cases e <;> rfl
@[simp] theorem Cluster.setWalk_vnames (x : Cluster) (e : Eng) (w : Walk) : (x.setWalk e w).vnames = x.vnames := by
  cases e <;> rfl
@[simp] theorem Cluster.setWalk_vqueues (x : Cluster) (e : Eng) (w : Walk) : (x.setWalk e w).vqueues = x.vqueues := by
  cases e <;> rfl
@[simp] theorem Cluster.setWalk_vshp (x : Cluster) (e : Eng) (w : Walk) : (x.setWalk e w).vshp = x.vshp := by
  cases e <;> rfl
@[simp] theorem Cluster.setWalk_bfmt (x : Cluster) (e : Eng) (w : Walk) : (x.setWalk e w).bfmt = x.bfmt := by
  cases e <;> rfl
@[simp] theorem Cluster.setWalk_rmode (x : Cluster) (e : Eng) (w : Walk) : (x.setWalk e w).rmode = x.rmode := by
  cases e <;> rfl
@[simp] theorem Cluster.setWalk_rseed (x : Cluster) (e : Eng) (w : Walk) : (x.setWalk e w).rseed = x.rseed := by
  cases e <;> rfl
@[simp] theorem Cluster.setWalk_sramcfg (x : Cluster) (e : Eng) (w : Walk) : (x.setWalk e w).sramcfg = x.sramcfg := by
  cases e <;> rfl
@[simp] theorem Cluster.setWalk_slipw (x : Cluster) (e : Eng) (w : Walk) : (x.setWalk e w).slipw = x.slipw := by
  cases e <;> rfl
@[simp] theorem Cluster.setWalk_tkcnt (x : Cluster) (e : Eng) (w : Walk) : (x.setWalk e w).tkcnt = x.tkcnt := by
  cases e <;> rfl
@[simp] theorem Cluster.setWalk_tkheld (x : Cluster) (e : Eng) (w : Walk) : (x.setWalk e w).tkheld = x.tkheld := by
  cases e <;> rfl
@[simp] theorem Cluster.setWalk_sigtab (x : Cluster) (e : Eng) (w : Walk) : (x.setWalk e w).sigtab = x.sigtab := by
  cases e <;> rfl
@[simp] theorem Cluster.setWalk_sigcnt (x : Cluster) (e : Eng) (w : Walk) : (x.setWalk e w).sigcnt = x.sigcnt := by
  cases e <;> rfl
@[simp] theorem Cluster.setWalk_outcomes (x : Cluster) (e : Eng) (w : Walk) : (x.setWalk e w).outcomes = x.outcomes := by
  cases e <;> rfl
@[simp] theorem Cluster.setWalk_vbrAt (x : Cluster) (e : Eng) (w : Walk) : (x.setWalk e w).vbrAt = x.vbrAt := by
  cases e <;> rfl
@[simp] theorem Cluster.setWalk_trail (x : Cluster) (e : Eng) (w : Walk) : (x.setWalk e w).trail = x.trail := by
  cases e <;> rfl
@[simp] theorem Cluster.setWalk_task (x : Cluster) (e : Eng) (w : Walk) : (x.setWalk e w).task = x.task := by
  cases e <;> rfl
@[simp] theorem Cluster.setWalk_rakes (x : Cluster) (e : Eng) (w : Walk) : (x.setWalk e w).rakes = x.rakes := by
  cases e <;> rfl
@[simp] theorem Cluster.setWalk_rings (x : Cluster) (e : Eng) (w : Walk) : (x.setWalk e w).rings = x.rings := by
  cases e <;> rfl
@[simp] theorem Cluster.setWalk_sram (x : Cluster) (e : Eng) (w : Walk) : (x.setWalk e w).sram = x.sram := by
  cases e <;> rfl
@[simp] theorem Cluster.setWalk_written (x : Cluster) (e : Eng) (w : Walk) : (x.setWalk e w).written = x.written := by
  cases e <;> rfl
@[simp] theorem Cluster.setWalk_logged (x : Cluster) (e : Eng) (w : Walk) : (x.setWalk e w).logged = x.logged := by
  cases e <;> rfl
@[simp] theorem Cluster.setWalk_owed (x : Cluster) (e : Eng) (w : Walk) : (x.setWalk e w).owed = x.owed := by
  cases e <;> rfl
@[simp] theorem Cluster.setWalk_flags (x : Cluster) (e : Eng) (w : Walk) : (x.setWalk e w).flags = x.flags := by
  cases e <;> rfl
@[simp] theorem Cluster.setWalk_l1 (x : Cluster) (e : Eng) (w : Walk) : (x.setWalk e w).l1 = x.l1 := by
  cases e <;> rfl
@[simp] theorem Cluster.setWalk_l1errs (x : Cluster) (e : Eng) (w : Walk) : (x.setWalk e w).l1errs = x.l1errs := by
  cases e <;> rfl
@[simp] theorem Cluster.setWalk_tlb (x : Cluster) (e : Eng) (w : Walk) : (x.setWalk e w).tlb = x.tlb := by
  cases e <;> rfl
@[simp] theorem Cluster.setWalk_cmds (x : Cluster) (e : Eng) (w : Walk) : (x.setWalk e w).cmds = x.cmds := by
  cases e <;> rfl
@[simp] theorem Cluster.setWalk_kicks (x : Cluster) (e : Eng) (w : Walk) : (x.setWalk e w).kicks = x.kicks := by
  cases e <;> rfl
@[simp] theorem Cluster.setWalk_seqs (x : Cluster) (e : Eng) (w : Walk) : (x.setWalk e w).seqs = x.seqs := by
  cases e <;> rfl
@[simp] theorem Cluster.setWalk_rts (x : Cluster) (e : Eng) (w : Walk) : (x.setWalk e w).rts = x.rts := by
  cases e <;> rfl
@[simp] theorem Cluster.setWalk_retired (x : Cluster) (e : Eng) (w : Walk) : (x.setWalk e w).retired = x.retired := by
  cases e <;> rfl
@[simp] theorem Cluster.setWalk_scoreboard (x : Cluster) (e : Eng) (w : Walk) : (x.setWalk e w).scoreboard = x.scoreboard := by
  cases e <;> rfl
@[simp] theorem Cluster.setWalk_heldAt (x : Cluster) (e : Eng) (w : Walk) : (x.setWalk e w).heldAt = x.heldAt := by
  cases e <;> rfl
@[simp] theorem Cluster.setWalk_awaited (x : Cluster) (e : Eng) (w : Walk) : (x.setWalk e w).awaited = x.awaited := by
  cases e <;> rfl
@[simp] theorem Cluster.setWalk_bad (x : Cluster) (e : Eng) (w : Walk) : (x.setWalk e w).bad = x.bad := by
  cases e <;> rfl
@[simp] theorem Cluster.setWalk_regBad (x : Cluster) (e : Eng) (w : Walk) : (x.setWalk e w).regBad = x.regBad := by
  cases e <;> rfl
@[simp] theorem Cluster.setWalk_nameBad (x : Cluster) (e : Eng) (w : Walk) : (x.setWalk e w).nameBad = x.nameBad := by
  cases e <;> rfl
@[simp] theorem Cluster.setWalk_inbox (x : Cluster) (e : Eng) (w : Walk) : (x.setWalk e w).inbox = x.inbox := by
  cases e <;> rfl
@[simp] theorem Cluster.setWalk_pushAt (x : Cluster) (e : Eng) (w : Walk) : (x.setWalk e w).pushAt = x.pushAt := by
  cases e <;> rfl
@[simp] theorem Cluster.setWalk_cbm (x : Cluster) (e : Eng) (w : Walk) : (x.setWalk e w).cbm = x.cbm := by
  cases e <;> rfl
@[simp] theorem Cluster.setWalk_wack (x : Cluster) (e : Eng) (w : Walk) : (x.setWalk e w).wack = x.wack := by
  cases e <;> rfl
@[simp] theorem Cluster.setWalk_counters (x : Cluster) (e : Eng) (w : Walk) : (x.setWalk e w).counters = x.counters := by
  cases e <;> rfl
@[simp] theorem Cluster.setWalk_bphase (x : Cluster) (e : Eng) (w : Walk) : (x.setWalk e w).bphase = x.bphase := by
  cases e <;> rfl
@[simp] theorem Cluster.setWalk_snap (x : Cluster) (e : Eng) (w : Walk) : (x.setWalk e w).snap = x.snap := by
  cases e <;> rfl
@[simp] theorem Cluster.setWalk_grove (x : Cluster) (e : Eng) (w : Walk) : (x.setWalk e w).grove = x.grove := by
  cases e <;> rfl
@[simp] theorem Cluster.setWalk_progress (x : Cluster) (e : Eng) (w : Walk) : (x.setWalk e w).progress = x.progress := by
  cases e <;> rfl
@[simp] theorem Cluster.setWalk_winReads (x : Cluster) (e : Eng) (w : Walk) : (x.setWalk e w).winReads = x.winReads := by
  cases e <;> rfl
@[simp] theorem Cluster.setWalk_arrived (x : Cluster) (e : Eng) (w : Walk) : (x.setWalk e w).arrived = x.arrived := by
  cases e <;> rfl
@[simp] theorem Cluster.setWalk_released (x : Cluster) (e : Eng) (w : Walk) : (x.setWalk e w).released = x.released := by
  cases e <;> rfl
@[simp] theorem Cluster.setWalk_preempt (x : Cluster) (e : Eng) (w : Walk) : (x.setWalk e w).preempt = x.preempt := by
  cases e <;> rfl
@[simp] theorem Cluster.setWalk_ringDrops (x : Cluster) (e : Eng) (w : Walk) : (x.setWalk e w).ringDrops = x.ringDrops := by
  cases e <;> rfl
@[simp] theorem Cluster.clearWaits_sregs (x : Cluster) : x.clearWaits.sregs = x.sregs := rfl
@[simp] theorem Cluster.clearWaits_preds (x : Cluster) : x.clearWaits.preds = x.preds := rfl
@[simp] theorem Cluster.clearWaits_ptrs (x : Cluster) : x.clearWaits.ptrs = x.ptrs := rfl
@[simp] theorem Cluster.clearWaits_owedVers (x : Cluster) : x.clearWaits.owedVers = x.owedVers := rfl
@[simp] theorem Cluster.clearWaits_vnames (x : Cluster) : x.clearWaits.vnames = x.vnames := rfl
@[simp] theorem Cluster.clearWaits_vqueues (x : Cluster) : x.clearWaits.vqueues = x.vqueues := rfl
@[simp] theorem Cluster.clearWaits_vshp (x : Cluster) : x.clearWaits.vshp = x.vshp := rfl
@[simp] theorem Cluster.clearWaits_bfmt (x : Cluster) : x.clearWaits.bfmt = x.bfmt := rfl
@[simp] theorem Cluster.clearWaits_rmode (x : Cluster) : x.clearWaits.rmode = x.rmode := rfl
@[simp] theorem Cluster.clearWaits_rseed (x : Cluster) : x.clearWaits.rseed = x.rseed := rfl
@[simp] theorem Cluster.clearWaits_sramcfg (x : Cluster) : x.clearWaits.sramcfg = x.sramcfg := rfl
@[simp] theorem Cluster.clearWaits_slipw (x : Cluster) : x.clearWaits.slipw = x.slipw := rfl
@[simp] theorem Cluster.clearWaits_tkcnt (x : Cluster) : x.clearWaits.tkcnt = x.tkcnt := rfl
@[simp] theorem Cluster.clearWaits_tkheld (x : Cluster) : x.clearWaits.tkheld = x.tkheld := rfl
@[simp] theorem Cluster.clearWaits_sigtab (x : Cluster) : x.clearWaits.sigtab = x.sigtab := rfl
@[simp] theorem Cluster.clearWaits_sigcnt (x : Cluster) : x.clearWaits.sigcnt = x.sigcnt := rfl
@[simp] theorem Cluster.clearWaits_outcomes (x : Cluster) : x.clearWaits.outcomes = x.outcomes := rfl
@[simp] theorem Cluster.clearWaits_vbrAt (x : Cluster) : x.clearWaits.vbrAt = x.vbrAt := rfl
@[simp] theorem Cluster.clearWaits_trail (x : Cluster) : x.clearWaits.trail = x.trail := rfl
@[simp] theorem Cluster.clearWaits_task (x : Cluster) : x.clearWaits.task = x.task := rfl
@[simp] theorem Cluster.clearWaits_rakes (x : Cluster) : x.clearWaits.rakes = x.rakes := rfl
@[simp] theorem Cluster.clearWaits_rings (x : Cluster) : x.clearWaits.rings = x.rings := rfl
@[simp] theorem Cluster.clearWaits_sram (x : Cluster) : x.clearWaits.sram = x.sram := rfl
@[simp] theorem Cluster.clearWaits_written (x : Cluster) : x.clearWaits.written = x.written := rfl
@[simp] theorem Cluster.clearWaits_logged (x : Cluster) : x.clearWaits.logged = x.logged := rfl
@[simp] theorem Cluster.clearWaits_owed (x : Cluster) : x.clearWaits.owed = x.owed := rfl
@[simp] theorem Cluster.clearWaits_flags (x : Cluster) : x.clearWaits.flags = x.flags := rfl
@[simp] theorem Cluster.clearWaits_l1 (x : Cluster) : x.clearWaits.l1 = x.l1 := rfl
@[simp] theorem Cluster.clearWaits_l1errs (x : Cluster) : x.clearWaits.l1errs = x.l1errs := rfl
@[simp] theorem Cluster.clearWaits_tlb (x : Cluster) : x.clearWaits.tlb = x.tlb := rfl
@[simp] theorem Cluster.clearWaits_cmds (x : Cluster) : x.clearWaits.cmds = x.cmds := rfl
@[simp] theorem Cluster.clearWaits_kicks (x : Cluster) : x.clearWaits.kicks = x.kicks := rfl
@[simp] theorem Cluster.clearWaits_seqs (x : Cluster) : x.clearWaits.seqs = x.seqs := rfl
@[simp] theorem Cluster.clearWaits_rts (x : Cluster) : x.clearWaits.rts = x.rts := rfl
@[simp] theorem Cluster.clearWaits_retired (x : Cluster) : x.clearWaits.retired = x.retired := rfl
@[simp] theorem Cluster.clearWaits_scoreboard (x : Cluster) : x.clearWaits.scoreboard = x.scoreboard := rfl
@[simp] theorem Cluster.clearWaits_heldAt (x : Cluster) : x.clearWaits.heldAt = x.heldAt := rfl
@[simp] theorem Cluster.clearWaits_awaited (x : Cluster) : x.clearWaits.awaited = x.awaited := rfl
@[simp] theorem Cluster.clearWaits_bad (x : Cluster) : x.clearWaits.bad = x.bad := rfl
@[simp] theorem Cluster.clearWaits_regBad (x : Cluster) : x.clearWaits.regBad = x.regBad := rfl
@[simp] theorem Cluster.clearWaits_nameBad (x : Cluster) : x.clearWaits.nameBad = x.nameBad := rfl
@[simp] theorem Cluster.clearWaits_inbox (x : Cluster) : x.clearWaits.inbox = x.inbox := rfl
@[simp] theorem Cluster.clearWaits_pushAt (x : Cluster) : x.clearWaits.pushAt = x.pushAt := rfl
@[simp] theorem Cluster.clearWaits_cbm (x : Cluster) : x.clearWaits.cbm = x.cbm := rfl
@[simp] theorem Cluster.clearWaits_wack (x : Cluster) : x.clearWaits.wack = x.wack := rfl
@[simp] theorem Cluster.clearWaits_counters (x : Cluster) : x.clearWaits.counters = x.counters := rfl
@[simp] theorem Cluster.clearWaits_bphase (x : Cluster) : x.clearWaits.bphase = x.bphase := rfl
@[simp] theorem Cluster.clearWaits_snap (x : Cluster) : x.clearWaits.snap = x.snap := rfl
@[simp] theorem Cluster.clearWaits_grove (x : Cluster) : x.clearWaits.grove = x.grove := rfl
@[simp] theorem Cluster.clearWaits_progress (x : Cluster) : x.clearWaits.progress = x.progress := rfl
@[simp] theorem Cluster.clearWaits_winReads (x : Cluster) : x.clearWaits.winReads = x.winReads := rfl
@[simp] theorem Cluster.clearWaits_arrived (x : Cluster) : x.clearWaits.arrived = x.arrived := rfl
@[simp] theorem Cluster.clearWaits_released (x : Cluster) : x.clearWaits.released = x.released := rfl
@[simp] theorem Cluster.clearWaits_preempt (x : Cluster) : x.clearWaits.preempt = x.preempt := rfl
@[simp] theorem Cluster.clearWaits_ringDrops (x : Cluster) : x.clearWaits.ringDrops = x.ringDrops := rfl
@[simp] theorem Cluster.prune_sregs (x : Cluster) : x.prune.sregs = x.sregs := rfl
@[simp] theorem Cluster.prune_preds (x : Cluster) : x.prune.preds = x.preds := rfl
@[simp] theorem Cluster.prune_ptrs (x : Cluster) : x.prune.ptrs = x.ptrs := rfl
@[simp] theorem Cluster.prune_vnames (x : Cluster) : x.prune.vnames = x.vnames := rfl
@[simp] theorem Cluster.prune_vqueues (x : Cluster) : x.prune.vqueues = x.vqueues := rfl
@[simp] theorem Cluster.prune_vshp (x : Cluster) : x.prune.vshp = x.vshp := rfl
@[simp] theorem Cluster.prune_bfmt (x : Cluster) : x.prune.bfmt = x.bfmt := rfl
@[simp] theorem Cluster.prune_rmode (x : Cluster) : x.prune.rmode = x.rmode := rfl
@[simp] theorem Cluster.prune_rseed (x : Cluster) : x.prune.rseed = x.rseed := rfl
@[simp] theorem Cluster.prune_sramcfg (x : Cluster) : x.prune.sramcfg = x.sramcfg := rfl
@[simp] theorem Cluster.prune_slipw (x : Cluster) : x.prune.slipw = x.slipw := rfl
@[simp] theorem Cluster.prune_tkcnt (x : Cluster) : x.prune.tkcnt = x.tkcnt := rfl
@[simp] theorem Cluster.prune_tkheld (x : Cluster) : x.prune.tkheld = x.tkheld := rfl
@[simp] theorem Cluster.prune_sigtab (x : Cluster) : x.prune.sigtab = x.sigtab := rfl
@[simp] theorem Cluster.prune_sigcnt (x : Cluster) : x.prune.sigcnt = x.sigcnt := rfl
@[simp] theorem Cluster.prune_wS (x : Cluster) : x.prune.wS = x.wS := rfl
@[simp] theorem Cluster.prune_wL (x : Cluster) : x.prune.wL = x.wL := rfl
@[simp] theorem Cluster.prune_wA (x : Cluster) : x.prune.wA = x.wA := rfl
@[simp] theorem Cluster.prune_wW (x : Cluster) : x.prune.wW = x.wW := rfl
@[simp] theorem Cluster.prune_wM (x : Cluster) : x.prune.wM = x.wM := rfl
@[simp] theorem Cluster.prune_vbrAt (x : Cluster) : x.prune.vbrAt = x.vbrAt := rfl
@[simp] theorem Cluster.prune_task (x : Cluster) : x.prune.task = x.task := rfl
@[simp] theorem Cluster.prune_rakes (x : Cluster) : x.prune.rakes = x.rakes := rfl
@[simp] theorem Cluster.prune_rings (x : Cluster) : x.prune.rings = x.rings := rfl
@[simp] theorem Cluster.prune_sram (x : Cluster) : x.prune.sram = x.sram := rfl
@[simp] theorem Cluster.prune_written (x : Cluster) : x.prune.written = x.written := rfl
@[simp] theorem Cluster.prune_logged (x : Cluster) : x.prune.logged = x.logged := rfl
@[simp] theorem Cluster.prune_owed (x : Cluster) : x.prune.owed = x.owed := rfl
@[simp] theorem Cluster.prune_flags (x : Cluster) : x.prune.flags = x.flags := rfl
@[simp] theorem Cluster.prune_l1 (x : Cluster) : x.prune.l1 = x.l1 := rfl
@[simp] theorem Cluster.prune_l1errs (x : Cluster) : x.prune.l1errs = x.l1errs := rfl
@[simp] theorem Cluster.prune_tlb (x : Cluster) : x.prune.tlb = x.tlb := rfl
@[simp] theorem Cluster.prune_cmds (x : Cluster) : x.prune.cmds = x.cmds := rfl
@[simp] theorem Cluster.prune_kicks (x : Cluster) : x.prune.kicks = x.kicks := rfl
@[simp] theorem Cluster.prune_seqs (x : Cluster) : x.prune.seqs = x.seqs := rfl
@[simp] theorem Cluster.prune_rts (x : Cluster) : x.prune.rts = x.rts := rfl
@[simp] theorem Cluster.prune_retired (x : Cluster) : x.prune.retired = x.retired := rfl
@[simp] theorem Cluster.prune_scoreboard (x : Cluster) : x.prune.scoreboard = x.scoreboard := rfl
@[simp] theorem Cluster.prune_heldAt (x : Cluster) : x.prune.heldAt = x.heldAt := rfl
@[simp] theorem Cluster.prune_awaited (x : Cluster) : x.prune.awaited = x.awaited := rfl
@[simp] theorem Cluster.prune_bad (x : Cluster) : x.prune.bad = x.bad := rfl
@[simp] theorem Cluster.prune_regBad (x : Cluster) : x.prune.regBad = x.regBad := rfl
@[simp] theorem Cluster.prune_nameBad (x : Cluster) : x.prune.nameBad = x.nameBad := rfl
@[simp] theorem Cluster.prune_inbox (x : Cluster) : x.prune.inbox = x.inbox := rfl
@[simp] theorem Cluster.prune_pushAt (x : Cluster) : x.prune.pushAt = x.pushAt := rfl
@[simp] theorem Cluster.prune_cbm (x : Cluster) : x.prune.cbm = x.cbm := rfl
@[simp] theorem Cluster.prune_wack (x : Cluster) : x.prune.wack = x.wack := rfl
@[simp] theorem Cluster.prune_counters (x : Cluster) : x.prune.counters = x.counters := rfl
@[simp] theorem Cluster.prune_bphase (x : Cluster) : x.prune.bphase = x.bphase := rfl
@[simp] theorem Cluster.prune_snap (x : Cluster) : x.prune.snap = x.snap := rfl
@[simp] theorem Cluster.prune_grove (x : Cluster) : x.prune.grove = x.grove := rfl
@[simp] theorem Cluster.prune_progress (x : Cluster) : x.prune.progress = x.progress := rfl
@[simp] theorem Cluster.prune_winReads (x : Cluster) : x.prune.winReads = x.winReads := rfl
@[simp] theorem Cluster.prune_arrived (x : Cluster) : x.prune.arrived = x.arrived := rfl
@[simp] theorem Cluster.prune_released (x : Cluster) : x.prune.released = x.released := rfl
@[simp] theorem Cluster.prune_preempt (x : Cluster) : x.prune.preempt = x.preempt := rfl
@[simp] theorem Cluster.prune_ringDrops (x : Cluster) : x.prune.ringDrops = x.ringDrops := rfl
@[simp] theorem Cluster.leave_sregs (x : Cluster) (q a : Nat) : (x.leave q a).sregs = x.sregs := by
  unfold Cluster.leave; split <;> rfl
@[simp] theorem Cluster.leave_preds (x : Cluster) (q a : Nat) : (x.leave q a).preds = x.preds := by
  unfold Cluster.leave; split <;> rfl
@[simp] theorem Cluster.leave_ptrs (x : Cluster) (q a : Nat) : (x.leave q a).ptrs = x.ptrs := by
  unfold Cluster.leave; split <;> rfl
@[simp] theorem Cluster.leave_owedVers (x : Cluster) (q a : Nat) : (x.leave q a).owedVers = x.owedVers := by
  unfold Cluster.leave; split <;> rfl
@[simp] theorem Cluster.leave_vnames (x : Cluster) (q a : Nat) : (x.leave q a).vnames = x.vnames := by
  unfold Cluster.leave; split <;> rfl
@[simp] theorem Cluster.leave_vqueues (x : Cluster) (q a : Nat) : (x.leave q a).vqueues = x.vqueues := by
  unfold Cluster.leave; split <;> rfl
@[simp] theorem Cluster.leave_vshp (x : Cluster) (q a : Nat) : (x.leave q a).vshp = x.vshp := by
  unfold Cluster.leave; split <;> rfl
@[simp] theorem Cluster.leave_bfmt (x : Cluster) (q a : Nat) : (x.leave q a).bfmt = x.bfmt := by
  unfold Cluster.leave; split <;> rfl
@[simp] theorem Cluster.leave_rmode (x : Cluster) (q a : Nat) : (x.leave q a).rmode = x.rmode := by
  unfold Cluster.leave; split <;> rfl
@[simp] theorem Cluster.leave_rseed (x : Cluster) (q a : Nat) : (x.leave q a).rseed = x.rseed := by
  unfold Cluster.leave; split <;> rfl
@[simp] theorem Cluster.leave_sramcfg (x : Cluster) (q a : Nat) : (x.leave q a).sramcfg = x.sramcfg := by
  unfold Cluster.leave; split <;> rfl
@[simp] theorem Cluster.leave_slipw (x : Cluster) (q a : Nat) : (x.leave q a).slipw = x.slipw := by
  unfold Cluster.leave; split <;> rfl
@[simp] theorem Cluster.leave_tkcnt (x : Cluster) (q a : Nat) : (x.leave q a).tkcnt = x.tkcnt := by
  unfold Cluster.leave; split <;> rfl
@[simp] theorem Cluster.leave_tkheld (x : Cluster) (q a : Nat) : (x.leave q a).tkheld = x.tkheld := by
  unfold Cluster.leave; split <;> rfl
@[simp] theorem Cluster.leave_sigtab (x : Cluster) (q a : Nat) : (x.leave q a).sigtab = x.sigtab := by
  unfold Cluster.leave; split <;> rfl
@[simp] theorem Cluster.leave_sigcnt (x : Cluster) (q a : Nat) : (x.leave q a).sigcnt = x.sigcnt := by
  unfold Cluster.leave; split <;> rfl
@[simp] theorem Cluster.leave_wS (x : Cluster) (q a : Nat) : (x.leave q a).wS = x.wS := by
  unfold Cluster.leave; split <;> rfl
@[simp] theorem Cluster.leave_wL (x : Cluster) (q a : Nat) : (x.leave q a).wL = x.wL := by
  unfold Cluster.leave; split <;> rfl
@[simp] theorem Cluster.leave_wA (x : Cluster) (q a : Nat) : (x.leave q a).wA = x.wA := by
  unfold Cluster.leave; split <;> rfl
@[simp] theorem Cluster.leave_wW (x : Cluster) (q a : Nat) : (x.leave q a).wW = x.wW := by
  unfold Cluster.leave; split <;> rfl
@[simp] theorem Cluster.leave_wM (x : Cluster) (q a : Nat) : (x.leave q a).wM = x.wM := by
  unfold Cluster.leave; split <;> rfl
@[simp] theorem Cluster.leave_outcomes (x : Cluster) (q a : Nat) : (x.leave q a).outcomes = x.outcomes := by
  unfold Cluster.leave; split <;> rfl
@[simp] theorem Cluster.leave_vbrAt (x : Cluster) (q a : Nat) : (x.leave q a).vbrAt = x.vbrAt := by
  unfold Cluster.leave; split <;> rfl
@[simp] theorem Cluster.leave_task (x : Cluster) (q a : Nat) : (x.leave q a).task = x.task := by
  unfold Cluster.leave; split <;> rfl
@[simp] theorem Cluster.leave_rakes (x : Cluster) (q a : Nat) : (x.leave q a).rakes = x.rakes := by
  unfold Cluster.leave; split <;> rfl
@[simp] theorem Cluster.leave_rings (x : Cluster) (q a : Nat) : (x.leave q a).rings = x.rings := by
  unfold Cluster.leave; split <;> rfl
@[simp] theorem Cluster.leave_sram (x : Cluster) (q a : Nat) : (x.leave q a).sram = x.sram := by
  unfold Cluster.leave; split <;> rfl
@[simp] theorem Cluster.leave_written (x : Cluster) (q a : Nat) : (x.leave q a).written = x.written := by
  unfold Cluster.leave; split <;> rfl
@[simp] theorem Cluster.leave_logged (x : Cluster) (q a : Nat) : (x.leave q a).logged = x.logged := by
  unfold Cluster.leave; split <;> rfl
@[simp] theorem Cluster.leave_owed (x : Cluster) (q a : Nat) : (x.leave q a).owed = x.owed := by
  unfold Cluster.leave; split <;> rfl
@[simp] theorem Cluster.leave_flags (x : Cluster) (q a : Nat) : (x.leave q a).flags = x.flags := by
  unfold Cluster.leave; split <;> rfl
@[simp] theorem Cluster.leave_l1 (x : Cluster) (q a : Nat) : (x.leave q a).l1 = x.l1 := by
  unfold Cluster.leave; split <;> rfl
@[simp] theorem Cluster.leave_l1errs (x : Cluster) (q a : Nat) : (x.leave q a).l1errs = x.l1errs := by
  unfold Cluster.leave; split <;> rfl
@[simp] theorem Cluster.leave_tlb (x : Cluster) (q a : Nat) : (x.leave q a).tlb = x.tlb := by
  unfold Cluster.leave; split <;> rfl
@[simp] theorem Cluster.leave_cmds (x : Cluster) (q a : Nat) : (x.leave q a).cmds = x.cmds := by
  unfold Cluster.leave; split <;> rfl
@[simp] theorem Cluster.leave_kicks (x : Cluster) (q a : Nat) : (x.leave q a).kicks = x.kicks := by
  unfold Cluster.leave; split <;> rfl
@[simp] theorem Cluster.leave_seqs (x : Cluster) (q a : Nat) : (x.leave q a).seqs = x.seqs := by
  unfold Cluster.leave; split <;> rfl
@[simp] theorem Cluster.leave_rts (x : Cluster) (q a : Nat) : (x.leave q a).rts = x.rts := by
  unfold Cluster.leave; split <;> rfl
@[simp] theorem Cluster.leave_retired (x : Cluster) (q a : Nat) : (x.leave q a).retired = x.retired := by
  unfold Cluster.leave; split <;> rfl
@[simp] theorem Cluster.leave_scoreboard (x : Cluster) (q a : Nat) : (x.leave q a).scoreboard = x.scoreboard := by
  unfold Cluster.leave; split <;> rfl
@[simp] theorem Cluster.leave_heldAt (x : Cluster) (q a : Nat) : (x.leave q a).heldAt = x.heldAt := by
  unfold Cluster.leave; split <;> rfl
@[simp] theorem Cluster.leave_awaited (x : Cluster) (q a : Nat) : (x.leave q a).awaited = x.awaited := by
  unfold Cluster.leave; split <;> rfl
@[simp] theorem Cluster.leave_bad (x : Cluster) (q a : Nat) : (x.leave q a).bad = x.bad := by
  unfold Cluster.leave; split <;> rfl
@[simp] theorem Cluster.leave_regBad (x : Cluster) (q a : Nat) : (x.leave q a).regBad = x.regBad := by
  unfold Cluster.leave; split <;> rfl
@[simp] theorem Cluster.leave_nameBad (x : Cluster) (q a : Nat) : (x.leave q a).nameBad = x.nameBad := by
  unfold Cluster.leave; split <;> rfl
@[simp] theorem Cluster.leave_inbox (x : Cluster) (q a : Nat) : (x.leave q a).inbox = x.inbox := by
  unfold Cluster.leave; split <;> rfl
@[simp] theorem Cluster.leave_pushAt (x : Cluster) (q a : Nat) : (x.leave q a).pushAt = x.pushAt := by
  unfold Cluster.leave; split <;> rfl
@[simp] theorem Cluster.leave_cbm (x : Cluster) (q a : Nat) : (x.leave q a).cbm = x.cbm := by
  unfold Cluster.leave; split <;> rfl
@[simp] theorem Cluster.leave_wack (x : Cluster) (q a : Nat) : (x.leave q a).wack = x.wack := by
  unfold Cluster.leave; split <;> rfl
@[simp] theorem Cluster.leave_counters (x : Cluster) (q a : Nat) : (x.leave q a).counters = x.counters := by
  unfold Cluster.leave; split <;> rfl
@[simp] theorem Cluster.leave_bphase (x : Cluster) (q a : Nat) : (x.leave q a).bphase = x.bphase := by
  unfold Cluster.leave; split <;> rfl
@[simp] theorem Cluster.leave_snap (x : Cluster) (q a : Nat) : (x.leave q a).snap = x.snap := by
  unfold Cluster.leave; split <;> rfl
@[simp] theorem Cluster.leave_grove (x : Cluster) (q a : Nat) : (x.leave q a).grove = x.grove := by
  unfold Cluster.leave; split <;> rfl
@[simp] theorem Cluster.leave_progress (x : Cluster) (q a : Nat) : (x.leave q a).progress = x.progress := by
  unfold Cluster.leave; split <;> rfl
@[simp] theorem Cluster.leave_winReads (x : Cluster) (q a : Nat) : (x.leave q a).winReads = x.winReads := by
  unfold Cluster.leave; split <;> rfl
@[simp] theorem Cluster.leave_arrived (x : Cluster) (q a : Nat) : (x.leave q a).arrived = x.arrived := by
  unfold Cluster.leave; split <;> rfl
@[simp] theorem Cluster.leave_released (x : Cluster) (q a : Nat) : (x.leave q a).released = x.released := by
  unfold Cluster.leave; split <;> rfl
@[simp] theorem Cluster.leave_preempt (x : Cluster) (q a : Nat) : (x.leave q a).preempt = x.preempt := by
  unfold Cluster.leave; split <;> rfl
@[simp] theorem Cluster.leave_ringDrops (x : Cluster) (q a : Nat) : (x.leave q a).ringDrops = x.ringDrops := by
  unfold Cluster.leave; split <;> rfl
@[simp] theorem Cluster.pass_sregs (x : Cluster) (e : Eng) (len nx : Nat) : (x.pass e len nx).sregs = x.sregs := by
  simp [Cluster.pass]
@[simp] theorem Cluster.pass_preds (x : Cluster) (e : Eng) (len nx : Nat) : (x.pass e len nx).preds = x.preds := by
  simp [Cluster.pass]
@[simp] theorem Cluster.pass_ptrs (x : Cluster) (e : Eng) (len nx : Nat) : (x.pass e len nx).ptrs = x.ptrs := by
  simp [Cluster.pass]
@[simp] theorem Cluster.pass_vnames (x : Cluster) (e : Eng) (len nx : Nat) : (x.pass e len nx).vnames = x.vnames := by
  simp [Cluster.pass]
@[simp] theorem Cluster.pass_vqueues (x : Cluster) (e : Eng) (len nx : Nat) : (x.pass e len nx).vqueues = x.vqueues := by
  simp [Cluster.pass]
@[simp] theorem Cluster.pass_vshp (x : Cluster) (e : Eng) (len nx : Nat) : (x.pass e len nx).vshp = x.vshp := by
  simp [Cluster.pass]
@[simp] theorem Cluster.pass_bfmt (x : Cluster) (e : Eng) (len nx : Nat) : (x.pass e len nx).bfmt = x.bfmt := by
  simp [Cluster.pass]
@[simp] theorem Cluster.pass_rmode (x : Cluster) (e : Eng) (len nx : Nat) : (x.pass e len nx).rmode = x.rmode := by
  simp [Cluster.pass]
@[simp] theorem Cluster.pass_rseed (x : Cluster) (e : Eng) (len nx : Nat) : (x.pass e len nx).rseed = x.rseed := by
  simp [Cluster.pass]
@[simp] theorem Cluster.pass_sramcfg (x : Cluster) (e : Eng) (len nx : Nat) : (x.pass e len nx).sramcfg = x.sramcfg := by
  simp [Cluster.pass]
@[simp] theorem Cluster.pass_slipw (x : Cluster) (e : Eng) (len nx : Nat) : (x.pass e len nx).slipw = x.slipw := by
  simp [Cluster.pass]
@[simp] theorem Cluster.pass_tkcnt (x : Cluster) (e : Eng) (len nx : Nat) : (x.pass e len nx).tkcnt = x.tkcnt := by
  simp [Cluster.pass]
@[simp] theorem Cluster.pass_tkheld (x : Cluster) (e : Eng) (len nx : Nat) : (x.pass e len nx).tkheld = x.tkheld := by
  simp [Cluster.pass]
@[simp] theorem Cluster.pass_sigtab (x : Cluster) (e : Eng) (len nx : Nat) : (x.pass e len nx).sigtab = x.sigtab := by
  simp [Cluster.pass]
@[simp] theorem Cluster.pass_sigcnt (x : Cluster) (e : Eng) (len nx : Nat) : (x.pass e len nx).sigcnt = x.sigcnt := by
  simp [Cluster.pass]
@[simp] theorem Cluster.pass_vbrAt (x : Cluster) (e : Eng) (len nx : Nat) : (x.pass e len nx).vbrAt = x.vbrAt := by
  simp [Cluster.pass]
@[simp] theorem Cluster.pass_task (x : Cluster) (e : Eng) (len nx : Nat) : (x.pass e len nx).task = x.task := by
  simp [Cluster.pass]
@[simp] theorem Cluster.pass_rakes (x : Cluster) (e : Eng) (len nx : Nat) : (x.pass e len nx).rakes = x.rakes := by
  simp [Cluster.pass]
@[simp] theorem Cluster.pass_rings (x : Cluster) (e : Eng) (len nx : Nat) : (x.pass e len nx).rings = x.rings := by
  simp [Cluster.pass]
@[simp] theorem Cluster.pass_sram (x : Cluster) (e : Eng) (len nx : Nat) : (x.pass e len nx).sram = x.sram := by
  simp [Cluster.pass]
@[simp] theorem Cluster.pass_written (x : Cluster) (e : Eng) (len nx : Nat) : (x.pass e len nx).written = x.written := by
  simp [Cluster.pass]
@[simp] theorem Cluster.pass_logged (x : Cluster) (e : Eng) (len nx : Nat) : (x.pass e len nx).logged = x.logged := by
  simp [Cluster.pass]
@[simp] theorem Cluster.pass_owed (x : Cluster) (e : Eng) (len nx : Nat) : (x.pass e len nx).owed = x.owed := by
  simp [Cluster.pass]
@[simp] theorem Cluster.pass_flags (x : Cluster) (e : Eng) (len nx : Nat) : (x.pass e len nx).flags = x.flags := by
  simp [Cluster.pass]
@[simp] theorem Cluster.pass_l1 (x : Cluster) (e : Eng) (len nx : Nat) : (x.pass e len nx).l1 = x.l1 := by
  simp [Cluster.pass]
@[simp] theorem Cluster.pass_l1errs (x : Cluster) (e : Eng) (len nx : Nat) : (x.pass e len nx).l1errs = x.l1errs := by
  simp [Cluster.pass]
@[simp] theorem Cluster.pass_tlb (x : Cluster) (e : Eng) (len nx : Nat) : (x.pass e len nx).tlb = x.tlb := by
  simp [Cluster.pass]
@[simp] theorem Cluster.pass_cmds (x : Cluster) (e : Eng) (len nx : Nat) : (x.pass e len nx).cmds = x.cmds := by
  simp [Cluster.pass]
@[simp] theorem Cluster.pass_kicks (x : Cluster) (e : Eng) (len nx : Nat) : (x.pass e len nx).kicks = x.kicks := by
  simp [Cluster.pass]
@[simp] theorem Cluster.pass_seqs (x : Cluster) (e : Eng) (len nx : Nat) : (x.pass e len nx).seqs = x.seqs := by
  simp [Cluster.pass]
@[simp] theorem Cluster.pass_rts (x : Cluster) (e : Eng) (len nx : Nat) : (x.pass e len nx).rts = x.rts := by
  simp [Cluster.pass]
@[simp] theorem Cluster.pass_retired (x : Cluster) (e : Eng) (len nx : Nat) : (x.pass e len nx).retired = x.retired := by
  simp [Cluster.pass]
@[simp] theorem Cluster.pass_scoreboard (x : Cluster) (e : Eng) (len nx : Nat) : (x.pass e len nx).scoreboard = x.scoreboard := by
  simp [Cluster.pass]
@[simp] theorem Cluster.pass_heldAt (x : Cluster) (e : Eng) (len nx : Nat) : (x.pass e len nx).heldAt = x.heldAt := by
  simp [Cluster.pass]
@[simp] theorem Cluster.pass_awaited (x : Cluster) (e : Eng) (len nx : Nat) : (x.pass e len nx).awaited = x.awaited := by
  simp [Cluster.pass]
@[simp] theorem Cluster.pass_bad (x : Cluster) (e : Eng) (len nx : Nat) : (x.pass e len nx).bad = x.bad := by
  simp [Cluster.pass]
@[simp] theorem Cluster.pass_regBad (x : Cluster) (e : Eng) (len nx : Nat) : (x.pass e len nx).regBad = x.regBad := by
  simp [Cluster.pass]
@[simp] theorem Cluster.pass_nameBad (x : Cluster) (e : Eng) (len nx : Nat) : (x.pass e len nx).nameBad = x.nameBad := by
  simp [Cluster.pass]
@[simp] theorem Cluster.pass_inbox (x : Cluster) (e : Eng) (len nx : Nat) : (x.pass e len nx).inbox = x.inbox := by
  simp [Cluster.pass]
@[simp] theorem Cluster.pass_pushAt (x : Cluster) (e : Eng) (len nx : Nat) : (x.pass e len nx).pushAt = x.pushAt := by
  simp [Cluster.pass]
@[simp] theorem Cluster.pass_cbm (x : Cluster) (e : Eng) (len nx : Nat) : (x.pass e len nx).cbm = x.cbm := by
  simp [Cluster.pass]
@[simp] theorem Cluster.pass_wack (x : Cluster) (e : Eng) (len nx : Nat) : (x.pass e len nx).wack = x.wack := by
  simp [Cluster.pass]
@[simp] theorem Cluster.pass_counters (x : Cluster) (e : Eng) (len nx : Nat) : (x.pass e len nx).counters = x.counters := by
  simp [Cluster.pass]
@[simp] theorem Cluster.pass_bphase (x : Cluster) (e : Eng) (len nx : Nat) : (x.pass e len nx).bphase = x.bphase := by
  simp [Cluster.pass]
@[simp] theorem Cluster.pass_snap (x : Cluster) (e : Eng) (len nx : Nat) : (x.pass e len nx).snap = x.snap := by
  simp [Cluster.pass]
@[simp] theorem Cluster.pass_grove (x : Cluster) (e : Eng) (len nx : Nat) : (x.pass e len nx).grove = x.grove := by
  simp [Cluster.pass]
@[simp] theorem Cluster.pass_progress (x : Cluster) (e : Eng) (len nx : Nat) : (x.pass e len nx).progress = x.progress := by
  simp [Cluster.pass]
@[simp] theorem Cluster.pass_winReads (x : Cluster) (e : Eng) (len nx : Nat) : (x.pass e len nx).winReads = x.winReads := by
  simp [Cluster.pass]
@[simp] theorem Cluster.pass_arrived (x : Cluster) (e : Eng) (len nx : Nat) : (x.pass e len nx).arrived = x.arrived := by
  simp [Cluster.pass]
@[simp] theorem Cluster.pass_released (x : Cluster) (e : Eng) (len nx : Nat) : (x.pass e len nx).released = x.released := by
  simp [Cluster.pass]
@[simp] theorem Cluster.pass_preempt (x : Cluster) (e : Eng) (len nx : Nat) : (x.pass e len nx).preempt = x.preempt := by
  simp [Cluster.pass]
@[simp] theorem Cluster.pass_ringDrops (x : Cluster) (e : Eng) (len nx : Nat) : (x.pass e len nx).ringDrops = x.ringDrops := by
  simp [Cluster.pass]
@[simp] theorem Cluster.setRake_sregs (x : Cluster) (t : Nat) (r : Rake) : (x.setRake t r).sregs = x.sregs := rfl
@[simp] theorem Cluster.setRake_preds (x : Cluster) (t : Nat) (r : Rake) : (x.setRake t r).preds = x.preds := rfl
@[simp] theorem Cluster.setRake_ptrs (x : Cluster) (t : Nat) (r : Rake) : (x.setRake t r).ptrs = x.ptrs := rfl
@[simp] theorem Cluster.setRake_owedVers (x : Cluster) (t : Nat) (r : Rake) : (x.setRake t r).owedVers = x.owedVers := rfl
@[simp] theorem Cluster.setRake_vnames (x : Cluster) (t : Nat) (r : Rake) : (x.setRake t r).vnames = x.vnames := rfl
@[simp] theorem Cluster.setRake_vqueues (x : Cluster) (t : Nat) (r : Rake) : (x.setRake t r).vqueues = x.vqueues := rfl
@[simp] theorem Cluster.setRake_vshp (x : Cluster) (t : Nat) (r : Rake) : (x.setRake t r).vshp = x.vshp := rfl
@[simp] theorem Cluster.setRake_bfmt (x : Cluster) (t : Nat) (r : Rake) : (x.setRake t r).bfmt = x.bfmt := rfl
@[simp] theorem Cluster.setRake_rmode (x : Cluster) (t : Nat) (r : Rake) : (x.setRake t r).rmode = x.rmode := rfl
@[simp] theorem Cluster.setRake_rseed (x : Cluster) (t : Nat) (r : Rake) : (x.setRake t r).rseed = x.rseed := rfl
@[simp] theorem Cluster.setRake_sramcfg (x : Cluster) (t : Nat) (r : Rake) : (x.setRake t r).sramcfg = x.sramcfg := rfl
@[simp] theorem Cluster.setRake_slipw (x : Cluster) (t : Nat) (r : Rake) : (x.setRake t r).slipw = x.slipw := rfl
@[simp] theorem Cluster.setRake_tkcnt (x : Cluster) (t : Nat) (r : Rake) : (x.setRake t r).tkcnt = x.tkcnt := rfl
@[simp] theorem Cluster.setRake_tkheld (x : Cluster) (t : Nat) (r : Rake) : (x.setRake t r).tkheld = x.tkheld := rfl
@[simp] theorem Cluster.setRake_sigtab (x : Cluster) (t : Nat) (r : Rake) : (x.setRake t r).sigtab = x.sigtab := rfl
@[simp] theorem Cluster.setRake_sigcnt (x : Cluster) (t : Nat) (r : Rake) : (x.setRake t r).sigcnt = x.sigcnt := rfl
@[simp] theorem Cluster.setRake_wS (x : Cluster) (t : Nat) (r : Rake) : (x.setRake t r).wS = x.wS := rfl
@[simp] theorem Cluster.setRake_wL (x : Cluster) (t : Nat) (r : Rake) : (x.setRake t r).wL = x.wL := rfl
@[simp] theorem Cluster.setRake_wA (x : Cluster) (t : Nat) (r : Rake) : (x.setRake t r).wA = x.wA := rfl
@[simp] theorem Cluster.setRake_wW (x : Cluster) (t : Nat) (r : Rake) : (x.setRake t r).wW = x.wW := rfl
@[simp] theorem Cluster.setRake_wM (x : Cluster) (t : Nat) (r : Rake) : (x.setRake t r).wM = x.wM := rfl
@[simp] theorem Cluster.setRake_outcomes (x : Cluster) (t : Nat) (r : Rake) : (x.setRake t r).outcomes = x.outcomes := rfl
@[simp] theorem Cluster.setRake_vbrAt (x : Cluster) (t : Nat) (r : Rake) : (x.setRake t r).vbrAt = x.vbrAt := rfl
@[simp] theorem Cluster.setRake_trail (x : Cluster) (t : Nat) (r : Rake) : (x.setRake t r).trail = x.trail := rfl
@[simp] theorem Cluster.setRake_task (x : Cluster) (t : Nat) (r : Rake) : (x.setRake t r).task = x.task := rfl
@[simp] theorem Cluster.setRake_rings (x : Cluster) (t : Nat) (r : Rake) : (x.setRake t r).rings = x.rings := rfl
@[simp] theorem Cluster.setRake_sram (x : Cluster) (t : Nat) (r : Rake) : (x.setRake t r).sram = x.sram := rfl
@[simp] theorem Cluster.setRake_written (x : Cluster) (t : Nat) (r : Rake) : (x.setRake t r).written = x.written := rfl
@[simp] theorem Cluster.setRake_logged (x : Cluster) (t : Nat) (r : Rake) : (x.setRake t r).logged = x.logged := rfl
@[simp] theorem Cluster.setRake_owed (x : Cluster) (t : Nat) (r : Rake) : (x.setRake t r).owed = x.owed := rfl
@[simp] theorem Cluster.setRake_flags (x : Cluster) (t : Nat) (r : Rake) : (x.setRake t r).flags = x.flags := rfl
@[simp] theorem Cluster.setRake_l1 (x : Cluster) (t : Nat) (r : Rake) : (x.setRake t r).l1 = x.l1 := rfl
@[simp] theorem Cluster.setRake_l1errs (x : Cluster) (t : Nat) (r : Rake) : (x.setRake t r).l1errs = x.l1errs := rfl
@[simp] theorem Cluster.setRake_tlb (x : Cluster) (t : Nat) (r : Rake) : (x.setRake t r).tlb = x.tlb := rfl
@[simp] theorem Cluster.setRake_cmds (x : Cluster) (t : Nat) (r : Rake) : (x.setRake t r).cmds = x.cmds := rfl
@[simp] theorem Cluster.setRake_kicks (x : Cluster) (t : Nat) (r : Rake) : (x.setRake t r).kicks = x.kicks := rfl
@[simp] theorem Cluster.setRake_seqs (x : Cluster) (t : Nat) (r : Rake) : (x.setRake t r).seqs = x.seqs := rfl
@[simp] theorem Cluster.setRake_rts (x : Cluster) (t : Nat) (r : Rake) : (x.setRake t r).rts = x.rts := rfl
@[simp] theorem Cluster.setRake_retired (x : Cluster) (t : Nat) (r : Rake) : (x.setRake t r).retired = x.retired := rfl
@[simp] theorem Cluster.setRake_scoreboard (x : Cluster) (t : Nat) (r : Rake) : (x.setRake t r).scoreboard = x.scoreboard := rfl
@[simp] theorem Cluster.setRake_heldAt (x : Cluster) (t : Nat) (r : Rake) : (x.setRake t r).heldAt = x.heldAt := rfl
@[simp] theorem Cluster.setRake_awaited (x : Cluster) (t : Nat) (r : Rake) : (x.setRake t r).awaited = x.awaited := rfl
@[simp] theorem Cluster.setRake_bad (x : Cluster) (t : Nat) (r : Rake) : (x.setRake t r).bad = x.bad := rfl
@[simp] theorem Cluster.setRake_regBad (x : Cluster) (t : Nat) (r : Rake) : (x.setRake t r).regBad = x.regBad := rfl
@[simp] theorem Cluster.setRake_nameBad (x : Cluster) (t : Nat) (r : Rake) : (x.setRake t r).nameBad = x.nameBad := rfl
@[simp] theorem Cluster.setRake_inbox (x : Cluster) (t : Nat) (r : Rake) : (x.setRake t r).inbox = x.inbox := rfl
@[simp] theorem Cluster.setRake_pushAt (x : Cluster) (t : Nat) (r : Rake) : (x.setRake t r).pushAt = x.pushAt := rfl
@[simp] theorem Cluster.setRake_cbm (x : Cluster) (t : Nat) (r : Rake) : (x.setRake t r).cbm = x.cbm := rfl
@[simp] theorem Cluster.setRake_wack (x : Cluster) (t : Nat) (r : Rake) : (x.setRake t r).wack = x.wack := rfl
@[simp] theorem Cluster.setRake_counters (x : Cluster) (t : Nat) (r : Rake) : (x.setRake t r).counters = x.counters := rfl
@[simp] theorem Cluster.setRake_bphase (x : Cluster) (t : Nat) (r : Rake) : (x.setRake t r).bphase = x.bphase := rfl
@[simp] theorem Cluster.setRake_snap (x : Cluster) (t : Nat) (r : Rake) : (x.setRake t r).snap = x.snap := rfl
@[simp] theorem Cluster.setRake_grove (x : Cluster) (t : Nat) (r : Rake) : (x.setRake t r).grove = x.grove := rfl
@[simp] theorem Cluster.setRake_progress (x : Cluster) (t : Nat) (r : Rake) : (x.setRake t r).progress = x.progress := rfl
@[simp] theorem Cluster.setRake_winReads (x : Cluster) (t : Nat) (r : Rake) : (x.setRake t r).winReads = x.winReads := rfl
@[simp] theorem Cluster.setRake_arrived (x : Cluster) (t : Nat) (r : Rake) : (x.setRake t r).arrived = x.arrived := rfl
@[simp] theorem Cluster.setRake_released (x : Cluster) (t : Nat) (r : Rake) : (x.setRake t r).released = x.released := rfl
@[simp] theorem Cluster.setRake_preempt (x : Cluster) (t : Nat) (r : Rake) : (x.setRake t r).preempt = x.preempt := rfl
@[simp] theorem Cluster.setRake_ringDrops (x : Cluster) (t : Nat) (r : Rake) : (x.setRake t r).ringDrops = x.ringDrops := rfl
@[simp] theorem Cluster.keep_sregs (x : Cluster) (k : VKey) (v : Word) : (x.keep k v).sregs = x.sregs := by
  unfold Cluster.keep; split <;> rfl
@[simp] theorem Cluster.keep_preds (x : Cluster) (k : VKey) (v : Word) : (x.keep k v).preds = x.preds := by
  unfold Cluster.keep; split <;> rfl
@[simp] theorem Cluster.keep_ptrs (x : Cluster) (k : VKey) (v : Word) : (x.keep k v).ptrs = x.ptrs := by
  unfold Cluster.keep; split <;> rfl
@[simp] theorem Cluster.keep_vnames (x : Cluster) (k : VKey) (v : Word) : (x.keep k v).vnames = x.vnames := by
  unfold Cluster.keep; split <;> rfl
@[simp] theorem Cluster.keep_vqueues (x : Cluster) (k : VKey) (v : Word) : (x.keep k v).vqueues = x.vqueues := by
  unfold Cluster.keep; split <;> rfl
@[simp] theorem Cluster.keep_vshp (x : Cluster) (k : VKey) (v : Word) : (x.keep k v).vshp = x.vshp := by
  unfold Cluster.keep; split <;> rfl
@[simp] theorem Cluster.keep_bfmt (x : Cluster) (k : VKey) (v : Word) : (x.keep k v).bfmt = x.bfmt := by
  unfold Cluster.keep; split <;> rfl
@[simp] theorem Cluster.keep_rmode (x : Cluster) (k : VKey) (v : Word) : (x.keep k v).rmode = x.rmode := by
  unfold Cluster.keep; split <;> rfl
@[simp] theorem Cluster.keep_rseed (x : Cluster) (k : VKey) (v : Word) : (x.keep k v).rseed = x.rseed := by
  unfold Cluster.keep; split <;> rfl
@[simp] theorem Cluster.keep_sramcfg (x : Cluster) (k : VKey) (v : Word) : (x.keep k v).sramcfg = x.sramcfg := by
  unfold Cluster.keep; split <;> rfl
@[simp] theorem Cluster.keep_slipw (x : Cluster) (k : VKey) (v : Word) : (x.keep k v).slipw = x.slipw := by
  unfold Cluster.keep; split <;> rfl
@[simp] theorem Cluster.keep_tkcnt (x : Cluster) (k : VKey) (v : Word) : (x.keep k v).tkcnt = x.tkcnt := by
  unfold Cluster.keep; split <;> rfl
@[simp] theorem Cluster.keep_tkheld (x : Cluster) (k : VKey) (v : Word) : (x.keep k v).tkheld = x.tkheld := by
  unfold Cluster.keep; split <;> rfl
@[simp] theorem Cluster.keep_sigtab (x : Cluster) (k : VKey) (v : Word) : (x.keep k v).sigtab = x.sigtab := by
  unfold Cluster.keep; split <;> rfl
@[simp] theorem Cluster.keep_sigcnt (x : Cluster) (k : VKey) (v : Word) : (x.keep k v).sigcnt = x.sigcnt := by
  unfold Cluster.keep; split <;> rfl
@[simp] theorem Cluster.keep_wS (x : Cluster) (k : VKey) (v : Word) : (x.keep k v).wS = x.wS := by
  unfold Cluster.keep; split <;> rfl
@[simp] theorem Cluster.keep_wL (x : Cluster) (k : VKey) (v : Word) : (x.keep k v).wL = x.wL := by
  unfold Cluster.keep; split <;> rfl
@[simp] theorem Cluster.keep_wA (x : Cluster) (k : VKey) (v : Word) : (x.keep k v).wA = x.wA := by
  unfold Cluster.keep; split <;> rfl
@[simp] theorem Cluster.keep_wW (x : Cluster) (k : VKey) (v : Word) : (x.keep k v).wW = x.wW := by
  unfold Cluster.keep; split <;> rfl
@[simp] theorem Cluster.keep_wM (x : Cluster) (k : VKey) (v : Word) : (x.keep k v).wM = x.wM := by
  unfold Cluster.keep; split <;> rfl
@[simp] theorem Cluster.keep_outcomes (x : Cluster) (k : VKey) (v : Word) : (x.keep k v).outcomes = x.outcomes := by
  unfold Cluster.keep; split <;> rfl
@[simp] theorem Cluster.keep_vbrAt (x : Cluster) (k : VKey) (v : Word) : (x.keep k v).vbrAt = x.vbrAt := by
  unfold Cluster.keep; split <;> rfl
@[simp] theorem Cluster.keep_trail (x : Cluster) (k : VKey) (v : Word) : (x.keep k v).trail = x.trail := by
  unfold Cluster.keep; split <;> rfl
@[simp] theorem Cluster.keep_task (x : Cluster) (k : VKey) (v : Word) : (x.keep k v).task = x.task := by
  unfold Cluster.keep; split <;> rfl
@[simp] theorem Cluster.keep_rakes (x : Cluster) (k : VKey) (v : Word) : (x.keep k v).rakes = x.rakes := by
  unfold Cluster.keep; split <;> rfl
@[simp] theorem Cluster.keep_rings (x : Cluster) (k : VKey) (v : Word) : (x.keep k v).rings = x.rings := by
  unfold Cluster.keep; split <;> rfl
@[simp] theorem Cluster.keep_sram (x : Cluster) (k : VKey) (v : Word) : (x.keep k v).sram = x.sram := by
  unfold Cluster.keep; split <;> rfl
@[simp] theorem Cluster.keep_written (x : Cluster) (k : VKey) (v : Word) : (x.keep k v).written = x.written := by
  unfold Cluster.keep; split <;> rfl
@[simp] theorem Cluster.keep_logged (x : Cluster) (k : VKey) (v : Word) : (x.keep k v).logged = x.logged := by
  unfold Cluster.keep; split <;> rfl
@[simp] theorem Cluster.keep_owed (x : Cluster) (k : VKey) (v : Word) : (x.keep k v).owed = x.owed := by
  unfold Cluster.keep; split <;> rfl
@[simp] theorem Cluster.keep_flags (x : Cluster) (k : VKey) (v : Word) : (x.keep k v).flags = x.flags := by
  unfold Cluster.keep; split <;> rfl
@[simp] theorem Cluster.keep_l1 (x : Cluster) (k : VKey) (v : Word) : (x.keep k v).l1 = x.l1 := by
  unfold Cluster.keep; split <;> rfl
@[simp] theorem Cluster.keep_l1errs (x : Cluster) (k : VKey) (v : Word) : (x.keep k v).l1errs = x.l1errs := by
  unfold Cluster.keep; split <;> rfl
@[simp] theorem Cluster.keep_tlb (x : Cluster) (k : VKey) (v : Word) : (x.keep k v).tlb = x.tlb := by
  unfold Cluster.keep; split <;> rfl
@[simp] theorem Cluster.keep_cmds (x : Cluster) (k : VKey) (v : Word) : (x.keep k v).cmds = x.cmds := by
  unfold Cluster.keep; split <;> rfl
@[simp] theorem Cluster.keep_kicks (x : Cluster) (k : VKey) (v : Word) : (x.keep k v).kicks = x.kicks := by
  unfold Cluster.keep; split <;> rfl
@[simp] theorem Cluster.keep_seqs (x : Cluster) (k : VKey) (v : Word) : (x.keep k v).seqs = x.seqs := by
  unfold Cluster.keep; split <;> rfl
@[simp] theorem Cluster.keep_rts (x : Cluster) (k : VKey) (v : Word) : (x.keep k v).rts = x.rts := by
  unfold Cluster.keep; split <;> rfl
@[simp] theorem Cluster.keep_retired (x : Cluster) (k : VKey) (v : Word) : (x.keep k v).retired = x.retired := by
  unfold Cluster.keep; split <;> rfl
@[simp] theorem Cluster.keep_scoreboard (x : Cluster) (k : VKey) (v : Word) : (x.keep k v).scoreboard = x.scoreboard := by
  unfold Cluster.keep; split <;> rfl
@[simp] theorem Cluster.keep_heldAt (x : Cluster) (k : VKey) (v : Word) : (x.keep k v).heldAt = x.heldAt := by
  unfold Cluster.keep; split <;> rfl
@[simp] theorem Cluster.keep_awaited (x : Cluster) (k : VKey) (v : Word) : (x.keep k v).awaited = x.awaited := by
  unfold Cluster.keep; split <;> rfl
@[simp] theorem Cluster.keep_bad (x : Cluster) (k : VKey) (v : Word) : (x.keep k v).bad = x.bad := by
  unfold Cluster.keep; split <;> rfl
@[simp] theorem Cluster.keep_regBad (x : Cluster) (k : VKey) (v : Word) : (x.keep k v).regBad = x.regBad := by
  unfold Cluster.keep; split <;> rfl
@[simp] theorem Cluster.keep_nameBad (x : Cluster) (k : VKey) (v : Word) : (x.keep k v).nameBad = x.nameBad := by
  unfold Cluster.keep; split <;> rfl
@[simp] theorem Cluster.keep_inbox (x : Cluster) (k : VKey) (v : Word) : (x.keep k v).inbox = x.inbox := by
  unfold Cluster.keep; split <;> rfl
@[simp] theorem Cluster.keep_pushAt (x : Cluster) (k : VKey) (v : Word) : (x.keep k v).pushAt = x.pushAt := by
  unfold Cluster.keep; split <;> rfl
@[simp] theorem Cluster.keep_cbm (x : Cluster) (k : VKey) (v : Word) : (x.keep k v).cbm = x.cbm := by
  unfold Cluster.keep; split <;> rfl
@[simp] theorem Cluster.keep_wack (x : Cluster) (k : VKey) (v : Word) : (x.keep k v).wack = x.wack := by
  unfold Cluster.keep; split <;> rfl
@[simp] theorem Cluster.keep_counters (x : Cluster) (k : VKey) (v : Word) : (x.keep k v).counters = x.counters := by
  unfold Cluster.keep; split <;> rfl
@[simp] theorem Cluster.keep_bphase (x : Cluster) (k : VKey) (v : Word) : (x.keep k v).bphase = x.bphase := by
  unfold Cluster.keep; split <;> rfl
@[simp] theorem Cluster.keep_snap (x : Cluster) (k : VKey) (v : Word) : (x.keep k v).snap = x.snap := by
  unfold Cluster.keep; split <;> rfl
@[simp] theorem Cluster.keep_grove (x : Cluster) (k : VKey) (v : Word) : (x.keep k v).grove = x.grove := by
  unfold Cluster.keep; split <;> rfl
@[simp] theorem Cluster.keep_progress (x : Cluster) (k : VKey) (v : Word) : (x.keep k v).progress = x.progress := by
  unfold Cluster.keep; split <;> rfl
@[simp] theorem Cluster.keep_winReads (x : Cluster) (k : VKey) (v : Word) : (x.keep k v).winReads = x.winReads := by
  unfold Cluster.keep; split <;> rfl
@[simp] theorem Cluster.keep_arrived (x : Cluster) (k : VKey) (v : Word) : (x.keep k v).arrived = x.arrived := by
  unfold Cluster.keep; split <;> rfl
@[simp] theorem Cluster.keep_released (x : Cluster) (k : VKey) (v : Word) : (x.keep k v).released = x.released := by
  unfold Cluster.keep; split <;> rfl
@[simp] theorem Cluster.keep_preempt (x : Cluster) (k : VKey) (v : Word) : (x.keep k v).preempt = x.preempt := by
  unfold Cluster.keep; split <;> rfl
@[simp] theorem Cluster.keep_ringDrops (x : Cluster) (k : VKey) (v : Word) : (x.keep k v).ringDrops = x.ringDrops := by
  unfold Cluster.keep; split <;> rfl
@[simp] theorem Cluster.setS_preds (x : Cluster) (n : Nat) (v : Word) : (x.setS n v).preds = x.preds := by
  unfold Cluster.setS; split <;> simp
@[simp] theorem Cluster.setS_ptrs (x : Cluster) (n : Nat) (v : Word) : (x.setS n v).ptrs = x.ptrs := by
  unfold Cluster.setS; split <;> simp
@[simp] theorem Cluster.setS_vnames (x : Cluster) (n : Nat) (v : Word) : (x.setS n v).vnames = x.vnames := by
  unfold Cluster.setS; split <;> simp
@[simp] theorem Cluster.setS_vqueues (x : Cluster) (n : Nat) (v : Word) : (x.setS n v).vqueues = x.vqueues := by
  unfold Cluster.setS; split <;> simp
@[simp] theorem Cluster.setS_vshp (x : Cluster) (n : Nat) (v : Word) : (x.setS n v).vshp = x.vshp := by
  unfold Cluster.setS; split <;> simp
@[simp] theorem Cluster.setS_bfmt (x : Cluster) (n : Nat) (v : Word) : (x.setS n v).bfmt = x.bfmt := by
  unfold Cluster.setS; split <;> simp
@[simp] theorem Cluster.setS_rmode (x : Cluster) (n : Nat) (v : Word) : (x.setS n v).rmode = x.rmode := by
  unfold Cluster.setS; split <;> simp
@[simp] theorem Cluster.setS_rseed (x : Cluster) (n : Nat) (v : Word) : (x.setS n v).rseed = x.rseed := by
  unfold Cluster.setS; split <;> simp
@[simp] theorem Cluster.setS_sramcfg (x : Cluster) (n : Nat) (v : Word) : (x.setS n v).sramcfg = x.sramcfg := by
  unfold Cluster.setS; split <;> simp
@[simp] theorem Cluster.setS_slipw (x : Cluster) (n : Nat) (v : Word) : (x.setS n v).slipw = x.slipw := by
  unfold Cluster.setS; split <;> simp
@[simp] theorem Cluster.setS_tkcnt (x : Cluster) (n : Nat) (v : Word) : (x.setS n v).tkcnt = x.tkcnt := by
  unfold Cluster.setS; split <;> simp
@[simp] theorem Cluster.setS_tkheld (x : Cluster) (n : Nat) (v : Word) : (x.setS n v).tkheld = x.tkheld := by
  unfold Cluster.setS; split <;> simp
@[simp] theorem Cluster.setS_sigtab (x : Cluster) (n : Nat) (v : Word) : (x.setS n v).sigtab = x.sigtab := by
  unfold Cluster.setS; split <;> simp
@[simp] theorem Cluster.setS_sigcnt (x : Cluster) (n : Nat) (v : Word) : (x.setS n v).sigcnt = x.sigcnt := by
  unfold Cluster.setS; split <;> simp
@[simp] theorem Cluster.setS_wS (x : Cluster) (n : Nat) (v : Word) : (x.setS n v).wS = x.wS := by
  unfold Cluster.setS; split <;> simp
@[simp] theorem Cluster.setS_wL (x : Cluster) (n : Nat) (v : Word) : (x.setS n v).wL = x.wL := by
  unfold Cluster.setS; split <;> simp
@[simp] theorem Cluster.setS_wA (x : Cluster) (n : Nat) (v : Word) : (x.setS n v).wA = x.wA := by
  unfold Cluster.setS; split <;> simp
@[simp] theorem Cluster.setS_wW (x : Cluster) (n : Nat) (v : Word) : (x.setS n v).wW = x.wW := by
  unfold Cluster.setS; split <;> simp
@[simp] theorem Cluster.setS_wM (x : Cluster) (n : Nat) (v : Word) : (x.setS n v).wM = x.wM := by
  unfold Cluster.setS; split <;> simp
@[simp] theorem Cluster.setS_outcomes (x : Cluster) (n : Nat) (v : Word) : (x.setS n v).outcomes = x.outcomes := by
  unfold Cluster.setS; split <;> simp
@[simp] theorem Cluster.setS_vbrAt (x : Cluster) (n : Nat) (v : Word) : (x.setS n v).vbrAt = x.vbrAt := by
  unfold Cluster.setS; split <;> simp
@[simp] theorem Cluster.setS_trail (x : Cluster) (n : Nat) (v : Word) : (x.setS n v).trail = x.trail := by
  unfold Cluster.setS; split <;> simp
@[simp] theorem Cluster.setS_task (x : Cluster) (n : Nat) (v : Word) : (x.setS n v).task = x.task := by
  unfold Cluster.setS; split <;> simp
@[simp] theorem Cluster.setS_rakes (x : Cluster) (n : Nat) (v : Word) : (x.setS n v).rakes = x.rakes := by
  unfold Cluster.setS; split <;> simp
@[simp] theorem Cluster.setS_rings (x : Cluster) (n : Nat) (v : Word) : (x.setS n v).rings = x.rings := by
  unfold Cluster.setS; split <;> simp
@[simp] theorem Cluster.setS_sram (x : Cluster) (n : Nat) (v : Word) : (x.setS n v).sram = x.sram := by
  unfold Cluster.setS; split <;> simp
@[simp] theorem Cluster.setS_written (x : Cluster) (n : Nat) (v : Word) : (x.setS n v).written = x.written := by
  unfold Cluster.setS; split <;> simp
@[simp] theorem Cluster.setS_logged (x : Cluster) (n : Nat) (v : Word) : (x.setS n v).logged = x.logged := by
  unfold Cluster.setS; split <;> simp
@[simp] theorem Cluster.setS_owed (x : Cluster) (n : Nat) (v : Word) : (x.setS n v).owed = x.owed := by
  unfold Cluster.setS; split <;> simp
@[simp] theorem Cluster.setS_flags (x : Cluster) (n : Nat) (v : Word) : (x.setS n v).flags = x.flags := by
  unfold Cluster.setS; split <;> simp
@[simp] theorem Cluster.setS_l1 (x : Cluster) (n : Nat) (v : Word) : (x.setS n v).l1 = x.l1 := by
  unfold Cluster.setS; split <;> simp
@[simp] theorem Cluster.setS_l1errs (x : Cluster) (n : Nat) (v : Word) : (x.setS n v).l1errs = x.l1errs := by
  unfold Cluster.setS; split <;> simp
@[simp] theorem Cluster.setS_tlb (x : Cluster) (n : Nat) (v : Word) : (x.setS n v).tlb = x.tlb := by
  unfold Cluster.setS; split <;> simp
@[simp] theorem Cluster.setS_cmds (x : Cluster) (n : Nat) (v : Word) : (x.setS n v).cmds = x.cmds := by
  unfold Cluster.setS; split <;> simp
@[simp] theorem Cluster.setS_kicks (x : Cluster) (n : Nat) (v : Word) : (x.setS n v).kicks = x.kicks := by
  unfold Cluster.setS; split <;> simp
@[simp] theorem Cluster.setS_seqs (x : Cluster) (n : Nat) (v : Word) : (x.setS n v).seqs = x.seqs := by
  unfold Cluster.setS; split <;> simp
@[simp] theorem Cluster.setS_rts (x : Cluster) (n : Nat) (v : Word) : (x.setS n v).rts = x.rts := by
  unfold Cluster.setS; split <;> simp
@[simp] theorem Cluster.setS_retired (x : Cluster) (n : Nat) (v : Word) : (x.setS n v).retired = x.retired := by
  unfold Cluster.setS; split <;> simp
@[simp] theorem Cluster.setS_scoreboard (x : Cluster) (n : Nat) (v : Word) : (x.setS n v).scoreboard = x.scoreboard := by
  unfold Cluster.setS; split <;> simp
@[simp] theorem Cluster.setS_heldAt (x : Cluster) (n : Nat) (v : Word) : (x.setS n v).heldAt = x.heldAt := by
  unfold Cluster.setS; split <;> simp
@[simp] theorem Cluster.setS_awaited (x : Cluster) (n : Nat) (v : Word) : (x.setS n v).awaited = x.awaited := by
  unfold Cluster.setS; split <;> simp
@[simp] theorem Cluster.setS_bad (x : Cluster) (n : Nat) (v : Word) : (x.setS n v).bad = x.bad := by
  unfold Cluster.setS; split <;> simp
@[simp] theorem Cluster.setS_nameBad (x : Cluster) (n : Nat) (v : Word) : (x.setS n v).nameBad = x.nameBad := by
  unfold Cluster.setS; split <;> simp
@[simp] theorem Cluster.setS_inbox (x : Cluster) (n : Nat) (v : Word) : (x.setS n v).inbox = x.inbox := by
  unfold Cluster.setS; split <;> simp
@[simp] theorem Cluster.setS_pushAt (x : Cluster) (n : Nat) (v : Word) : (x.setS n v).pushAt = x.pushAt := by
  unfold Cluster.setS; split <;> simp
@[simp] theorem Cluster.setS_cbm (x : Cluster) (n : Nat) (v : Word) : (x.setS n v).cbm = x.cbm := by
  unfold Cluster.setS; split <;> simp
@[simp] theorem Cluster.setS_wack (x : Cluster) (n : Nat) (v : Word) : (x.setS n v).wack = x.wack := by
  unfold Cluster.setS; split <;> simp
@[simp] theorem Cluster.setS_counters (x : Cluster) (n : Nat) (v : Word) : (x.setS n v).counters = x.counters := by
  unfold Cluster.setS; split <;> simp
@[simp] theorem Cluster.setS_bphase (x : Cluster) (n : Nat) (v : Word) : (x.setS n v).bphase = x.bphase := by
  unfold Cluster.setS; split <;> simp
@[simp] theorem Cluster.setS_snap (x : Cluster) (n : Nat) (v : Word) : (x.setS n v).snap = x.snap := by
  unfold Cluster.setS; split <;> simp
@[simp] theorem Cluster.setS_grove (x : Cluster) (n : Nat) (v : Word) : (x.setS n v).grove = x.grove := by
  unfold Cluster.setS; split <;> simp
@[simp] theorem Cluster.setS_progress (x : Cluster) (n : Nat) (v : Word) : (x.setS n v).progress = x.progress := by
  unfold Cluster.setS; split <;> simp
@[simp] theorem Cluster.setS_winReads (x : Cluster) (n : Nat) (v : Word) : (x.setS n v).winReads = x.winReads := by
  unfold Cluster.setS; split <;> simp
@[simp] theorem Cluster.setS_arrived (x : Cluster) (n : Nat) (v : Word) : (x.setS n v).arrived = x.arrived := by
  unfold Cluster.setS; split <;> simp
@[simp] theorem Cluster.setS_released (x : Cluster) (n : Nat) (v : Word) : (x.setS n v).released = x.released := by
  unfold Cluster.setS; split <;> simp
@[simp] theorem Cluster.setS_preempt (x : Cluster) (n : Nat) (v : Word) : (x.setS n v).preempt = x.preempt := by
  unfold Cluster.setS; split <;> simp
@[simp] theorem Cluster.setS_ringDrops (x : Cluster) (n : Nat) (v : Word) : (x.setS n v).ringDrops = x.ringDrops := by
  unfold Cluster.setS; split <;> simp

/-! ### Reading back -/

@[simp] theorem State.cl_setCl_self (s : State) (c : Nat) (x : Cluster) : (s.setCl c x).cl c = x := by
  simp [State.cl, State.setCl]

theorem State.cl_setCl_ne (s : State) {c j : Nat} (x : Cluster) (h : j ≠ c) : (s.setCl c x).cl j = s.cl j := by
  simp [State.cl, State.setCl, KMap.getD_set_ne _ _ _ h]

@[simp] theorem State.cl_modCl_self (s : State) (c : Nat) (f : Cluster → Cluster) : (s.modCl c f).cl c = f (s.cl c) := by
  simp [State.modCl]

theorem State.cl_modCl_ne (s : State) {c j : Nat} (f : Cluster → Cluster) (h : j ≠ c) : (s.modCl c f).cl j = s.cl j := by
  simp [State.modCl, State.cl_setCl_ne _ _ h]

@[simp] theorem State.die_setDie_self (s : State) (d : Nat) (x : Die) : (s.setDie d x).die d = x := by
  simp [State.die, State.setDie]

theorem State.die_setDie_ne (s : State) {d j : Nat} (x : Die) (h : j ≠ d) : (s.setDie d x).die j = s.die j := by
  simp [State.die, State.setDie, KMap.getD_set_ne _ _ _ h]

@[simp] theorem State.die_modDie_self (s : State) (d : Nat) (f : Die → Die) : (s.modDie d f).die d = f (s.die d) := by
  simp [State.modDie]

theorem State.die_modDie_ne (s : State) {d j : Nat} (f : Die → Die) (h : j ≠ d) : (s.modDie d f).die j = s.die j := by
  simp [State.modDie, State.die_setDie_ne _ _ h]

@[simp] theorem State.die_setCl (s : State) (c : Nat) (x : Cluster) (d : Nat) : (s.setCl c x).die d = s.die d := rfl
@[simp] theorem State.die_modCl (s : State) (c : Nat) (f : Cluster → Cluster) (d : Nat) : (s.modCl c f).die d = s.die d := rfl
@[simp] theorem State.cl_setDie (s : State) (d : Nat) (x : Die) (c : Nat) : (s.setDie d x).cl c = s.cl c := rfl
@[simp] theorem State.cl_modDie (s : State) (d : Nat) (f : Die → Die) (c : Nat) : (s.modDie d f).cl c = s.cl c := rfl
@[simp] theorem State.cl_hbmWrite (s : State) (a : Nat) (bs : List Byte) (c : Nat) : (s.hbmWrite a bs).cl c = s.cl c := rfl
@[simp] theorem State.die_hbmWrite (s : State) (a : Nat) (bs : List Byte) (d : Nat) : (s.hbmWrite a bs).die d = s.die d := rfl
@[simp] theorem State.cl_soon (s : State) (x : Soon) (c : Nat) : (s.soon x).cl c = s.cl c := rfl
@[simp] theorem State.die_soon (s : State) (x : Soon) (d : Nat) : (s.soon x).die d = s.die d := rfl

@[simp] theorem Cluster.walk_setWalk_self (x : Cluster) (e : Eng) (w : Walk) : (x.setWalk e w).walk e = w := by
  cases e <;> rfl

theorem Cluster.walk_setWalk_ne (x : Cluster) {e g : Eng} (w : Walk) (h : g ≠ e) : (x.setWalk e w).walk g = x.walk g := by
  cases e <;> cases g <;> first | rfl | exact absurd rfl h

@[simp] theorem Cluster.rake_setRake_self (x : Cluster) (t : Nat) (r : Rake) : (x.setRake t r).rake t = r := by
  simp [Cluster.rake, Cluster.setRake]

theorem Cluster.rake_setRake_ne (x : Cluster) {t u : Nat} (r : Rake) (h : u ≠ t) : (x.setRake t r).rake u = x.rake u := by
  simp [Cluster.rake, Cluster.setRake, KMap.getD_set_ne _ _ _ h]

@[simp] theorem Cluster.walk_prune (x : Cluster) (e : Eng) : x.prune.walk e = x.walk e := by cases e <;> rfl

@[simp] theorem Cluster.walk_leave (x : Cluster) (q a : Nat) (e : Eng) : (x.leave q a).walk e = x.walk e := by
  unfold Cluster.leave; split <;> cases e <;> rfl

@[simp] theorem Cluster.walk_clearWaits (x : Cluster) (e : Eng) :
    x.clearWaits.walk e = { x.walk e with wait := none } := by
  cases e <;> rfl

@[simp] theorem Cluster.walk_setS (x : Cluster) (n : Nat) (v : Word) (e : Eng) : (x.setS n v).walk e = x.walk e := by
  cases e <;> simp [Cluster.walk]

@[simp] theorem Cluster.walk_setRake (x : Cluster) (t : Nat) (r : Rake) (e : Eng) : (x.setRake t r).walk e = x.walk e := by
  cases e <;> rfl

@[simp] theorem Cluster.rake_setWalk (x : Cluster) (e : Eng) (w : Walk) (t : Nat) : (x.setWalk e w).rake t = x.rake t := by
  cases e <;> rfl

/-- Where the PC that passes an instruction then stands. -/
@[simp] theorem Cluster.walk_pass_self (x : Cluster) (e : Eng) (len nx : Nat) :
    (x.pass e len nx).walk e = (x.walk e).pass len nx := by
  simp [Cluster.pass]

/-- The other PCs stay where they are; their waits end. -/
theorem Cluster.walk_pass_ne (x : Cluster) {e g : Eng} (len nx : Nat) (h : g ≠ e) :
    (x.pass e len nx).walk g = { x.walk g with wait := none } := by
  simp [Cluster.pass, Cluster.walk_setWalk_ne _ _ h]

end Sys2Proof.Machine
end

