-- ==== Sys2Proof/Laws/Ops.lean ====
section
/-! SUPPORT. What the shared operations can do, said once: writing a register, writing the predicates, passing an
instruction change nothing but the executing agent's own registers and place. -/

namespace Sys2Proof.Machine

theorem Moved.refl (s : State) : Moved s s := by
  unfold Moved
  split
  · exact ⟨rfl, fun _ _ => rfl, rfl⟩
  · exact ⟨rfl, fun _ _ => rfl, rfl, fun _ _ => rfl, rfl⟩
  · exact ⟨rfl, fun _ _ => rfl, rfl⟩
  · rfl

theorem Moved.actor_eq {s t : State} (h : Moved s t) : t.actor = s.actor := by
  unfold Moved at h
  split at h
  · rw [h.1]; rfl
  · rw [h.1]; rfl
  · rw [h.1]; rfl
  · rw [h]

theorem Moved.trans {s t u : State} (h : Moved s t) (g : Moved t u) : Moved s u := by
  have ha := h.actor_eq
  unfold Moved at h g ⊢
  rw [ha] at g
  split at h
  · next e =>
    rw [e] at g
    obtain ⟨h1, h2, h3⟩ := h
    obtain ⟨g1, g2, g3⟩ := g
    exact ⟨by rw [g1, h1]; rfl, fun c' hc => by rw [g2 c' hc, h2 c' hc], by rw [g3, h3]; rfl⟩
  · next e =>
    rw [e] at g
    obtain ⟨h1, h2, h3, h4, h5⟩ := h
    obtain ⟨g1, g2, g3, g4, g5⟩ := g
    exact ⟨by rw [g1, h1]; rfl, fun c' hc => by rw [g2 c' hc, h2 c' hc], by rw [g3, h3],
      fun m hm => by rw [g4 m hm, h4 m hm], by rw [g5, h5]; rfl⟩
  · next e =>
    rw [e] at g
    obtain ⟨h1, h2, h3⟩ := h
    obtain ⟨g1, g2, g3⟩ := g
    exact ⟨by rw [g1, h1]; rfl, fun c' hc => by rw [g2 c' hc, h2 c' hc], by rw [g3, h3]; rfl⟩
  · next e =>
    rw [e] at g
    rw [g, h]

/-- A change of a rake thread to one that differs in its place, registers and predicates alone, with the errors its
registers hold (R391). -/
theorem moved_rake {s : State} {c n : Nat} (h : s.actor = .rake c n) (f : Rake → Rake) (e : NSet → NSet)
    (hf : ∀ r, f r = r.movedTo (f r)) :
    Moved s (s.modCl c fun x => { x.setRake n (f (x.rake n)) with regBad := e x.regBad }) := by
  unfold Moved
  rw [h]
  refine ⟨rfl, fun c' hc => State.cl_modCl_ne _ _ hc, ?_, ?_, ?_⟩
  · rw [State.cl_modCl_self]; rfl
  · intro n' hn
    rw [State.cl_modCl_self]
    exact Cluster.rake_setRake_ne _ _ hn
  · rw [State.cl_modCl_self]
    show ((s.cl c).setRake n (f ((s.cl c).rake n))).rake n = ((s.cl c).rake n).movedTo
      (((s.cl c).setRake n (f ((s.cl c).rake n))).rake n)
    rw [Cluster.rake_setRake_self]
    exact hf _

/-- The same for a die manager core. -/
theorem moved_core {s : State} {d : Nat} (h : s.actor = .mgr d) (f : Rake → Rake) (b : NSet → NSet)
    (hf : ∀ r, f r = r.movedTo (f r)) :
    Moved s (s.modDie d fun x => { x with core := f x.core, coreBad := b x.coreBad }) := by
  unfold Moved
  rw [h]
  refine ⟨rfl, fun d' hd => State.die_modDie_ne _ _ hd, ?_⟩
  rw [State.die_modDie_self]
  show ({ s.die d with core := f (s.die d).core, coreBad := b (s.die d).coreBad } : Die) = _
  rw [← hf]

/-- The same for a cluster's task. -/
theorem moved_pc {s : State} {c : Nat} {e : Eng} (h : s.actor = .pc c e) (f : Cluster → Cluster)
    (hf : ∀ x, f x = x.movedTo (f x)) : Moved s (s.modCl c f) := by
  unfold Moved
  rw [h]
  refine ⟨rfl, fun c' hc => State.cl_modCl_ne _ _ hc, ?_⟩
  rw [State.cl_modCl_self]
  exact hf _

theorem Cluster.setS_movedTo (x : Cluster) (n : Nat) (v : Word) : x.setS n v = x.movedTo (x.setS n v) := by
  unfold Cluster.setS Cluster.keep
  split
  · rfl
  · split <;> rfl

theorem Cluster.movedTo_trans {x y z : Cluster} (h : y = x.movedTo y) (g : z = y.movedTo z) : z = x.movedTo z := by
  have : y.movedTo z = x.movedTo z := by rw [h]; rfl
  rwa [this] at g

theorem Cluster.setWalk_movedTo (x : Cluster) (e : Eng) (w : Walk) : x.setWalk e w = x.movedTo (x.setWalk e w) := by
  cases e <;> rfl

theorem Cluster.leave_movedTo (x : Cluster) (q a : Nat) : x.leave q a = x.movedTo (x.leave q a) := by
  unfold Cluster.leave
  split <;> rfl

theorem Cluster.pass_movedTo (x : Cluster) (e : Eng) (w : Walk) (len nx : Nat) :
    (x.setWalk e w).pass e len nx = x.movedTo ((x.setWalk e w).pass e len nx) := by
  refine Cluster.movedTo_trans (Cluster.setWalk_movedTo x e w) ?_
  generalize x.setWalk e w = y
  unfold Cluster.pass
  refine Cluster.movedTo_trans (Cluster.leave_movedTo y (y.walk e).dp (y.walk e).pc) ?_
  generalize y.leave (y.walk e).dp (y.walk e).pc = z
  refine Cluster.movedTo_trans (y := z.clearWaits) rfl ?_
  generalize z.clearWaits = v
  exact Cluster.movedTo_trans (Cluster.setWalk_movedTo v e ((y.walk e).pass len nx)) rfl

/-- A write of a register changes the executing agent's registers alone (R149). -/
theorem moved_wr (s : State) (n : Reg) (v : Word) : Moved s (s.wr n v) := by
  unfold State.wr
  split
  · next h => exact moved_pc h _ fun x => Cluster.setS_movedTo x _ _
  · next c t h =>
    split
    · exact Moved.refl s
    · exact moved_rake h (fun r => { r with regs := KMap.set r.regs n.toNat v }) (fun l => NSet.erase l _) fun _ => rfl
  · next d h =>
    split
    · exact Moved.refl s
    · exact moved_core h (fun r => { r with regs := KMap.set r.regs n.toNat v }) (fun l => NSet.erase l _) fun _ => rfl
  · exact Moved.refl s

/-- A write of the predicates changes the executing agent's predicates alone (R150). -/
theorem moved_putPreds (s : State) (m v : BitVec 16) : Moved s (s.putPreds m v) := by
  unfold State.putPreds
  split
  · next h => exact moved_pc h (fun x => { x with preds := v ||| 1#16, regBad := clearPreds 64 m x.regBad }) fun _ => rfl
  · next h => exact moved_rake h (fun r => { r with preds := v ||| 1#16 }) (clearPreds _ m) fun _ => rfl
  · next h => exact moved_core h (fun r => { r with preds := v ||| 1#16 }) (clearPreds 64 m) fun _ => rfl
  · exact Moved.refl s

theorem moved_setPreds (s : State) (v : BitVec 16) : Moved s (s.setPreds v) := moved_putPreds s _ v

theorem moved_wrK (s : State) (k : PIdx) (b : Bool) : Moved s (s.wrK k b) := moved_putPreds s _ _

/-- Passing an instruction changes the executing agent's place alone (R161). -/
theorem moved_retireTo (i : Instr) (nx : Nat) (s : State) : Moved s (retireTo i nx s) := by
  unfold retireTo
  split
  · next c e h => exact moved_pc h _ fun x => Cluster.pass_movedTo x e _ _ _
  · next c t h => exact moved_rake h (fun r => r.pass i nx) id fun _ => rfl
  · next d h => exact moved_core h (fun r => r.pass i nx) id fun _ => rfl
  · exact Moved.refl s

theorem moved_retire (i : Instr) (s : State) : Moved s (retire i s) := moved_retireTo i _ s

/-! ### Instructions under a predicate -/

/-- An instruction without a predicate executes (R30, R150). -/
theorem holds_always (s : State) : s.holds always = true := by
  simp [State.holds, always, State.rdK, State.preds]

theorem plainOp_holds {i : Instr} {p : Pred} {f : State → State} {s : State} (h : s.holds p = true) :
    plainOp i p f s = .next (retire i (f s)) := by
  simp only [plainOp, h, if_true]

theorem plainOp_always (i : Instr) (f : State → State) (s : State) : plainOp i always f s = .next (retire i (f s)) :=
  plainOp_holds (holds_always s)

/-- An action that succeeds is followed by the passing of its instruction. -/
theorem actOp_ok {i : Instr} {p : Pred} {a : Act Unit} {s t : State} (h : s.holds p = true) (ha : a s = .ok ((), t)) :
    actOp i p a s = .next (retire i t) := by
  have : (do (if s.holds p then a else pure ()); modify (retire i) : Act Unit) s = .ok ((), retire i t) := by
    simp only [h, if_true]
    show (StateT.bind a fun _ => modify (retire i)) s = _
    simp only [StateT.bind, ha]
    rfl
  simp only [actOp, perform, this]

/-- An action that stops on a precise cause leaves no effect but the trap (R24, R387). -/
theorem actOp_trap {i : Instr} {p : Pred} {a : Act Unit} {s : State} {c : BitVec 8} {v : Word} (h : s.holds p = true)
    (ha : a s = .error (.trap c v)) : actOp i p a s = .next (s.raise c v) := by
  have : (do (if s.holds p then a else pure ()); modify (retire i) : Act Unit) s = .error (.trap c v) := by
    simp only [h, if_true]
    show (StateT.bind a fun _ => modify (retire i)) s = _
    simp only [StateT.bind, ha]
    rfl
  simp only [actOp, perform, this]

end Sys2Proof.Machine
end

