-- ==== Sys2Proof/Laws/Act.lean ====
section
/-! SUPPORT. Running an action of an agent, or of an engine, one piece at a time: what each primitive gives in a state,
and what becomes of the whole. -/

namespace Sys2Proof.Machine

/-! ### Actions of agents -/

theorem Act.bind_run {α β : Type} (a : Act α) (f : α → Act β) (s : State) :
    (a >>= f) s = match a s with | .ok (v, t) => f v t | .error e => .error e := by
  show (StateT.bind a f) s = _
  unfold StateT.bind
  cases a s with
  | ok r => rfl
  | error e => rfl

theorem Act.bind_ok {α β : Type} {a : Act α} {f : α → Act β} {s t : State} {v : α} (h : a s = .ok (v, t)) :
    (a >>= f) s = f v t := by
  rw [Act.bind_run, h]

theorem Act.bind_error {α β : Type} {a : Act α} {f : α → Act β} {s : State} {e : Stop} (h : a s = .error e) :
    (a >>= f) s = .error e := by
  rw [Act.bind_run, h]

theorem Act.pure_run {α : Type} (v : α) (s : State) : (pure v : Act α) s = .ok (v, s) := rfl

theorem Act.get_run (s : State) : (get : Act State) s = .ok (s, s) := rfl

theorem Act.set_run (t s : State) : (set t : Act PUnit) s = .ok ((), t) := rfl

theorem Act.modify_run (f : State → State) (s : State) : (modify f : Act PUnit) s = .ok ((), f s) := rfl

theorem Act.trap_run {α : Type} (c : BitVec 8) (s : State) : (trap c : Act α) s = .error (.trap c 0#64) := rfl

theorem Act.trapAt_run {α : Type} (c : BitVec 8) (a : Word) (s : State) : (trapAt c a : Act α) s = .error (.trap c a) := rfl

theorem Act.waitFor_run {α : Type} (w : Wait) (s : State) : (waitFor w : Act α) s = .error (.wait w) := rfl

theorem Act.checkStop_run {α : Type} (c : BitVec 8) (s : State) : (checkStop c : Act α) s = .error (.check c) := rfl

theorem Act.trapIf_run (b : Bool) (c : BitVec 8) (s : State) :
    trapIf b c s = if b then .error (.trap c 0#64) else .ok ((), s) := by
  unfold trapIf
  cases b <;> rfl

theorem Act.waitIf_run (b : Bool) (w : Wait) (s : State) : waitIf b w s = if b then .error (.wait w) else .ok ((), s) := by
  unfold waitIf
  cases b <;> rfl

theorem Act.ite_run {α : Type} (p : Prop) [Decidable p] (a b : Act α) (s : State) :
    (if p then a else b) s = if p then a s else b s := by
  split <;> rfl

theorem Act.liftC_run {α : Type} (a : Nat) (x : Except (BitVec 8) α) (s : State) :
    liftC a x s = match x with | .ok v => .ok (v, s) | .error c => .error (.trap c (BitVec.ofNat 64 a)) := by
  cases x <;> rfl

theorem Act.liftA_run {α : Type} (a : Nat) (f : State → Except (BitVec 8) (State × α)) (s : State) :
    liftA a f s = match f s with | .ok (t, v) => .ok (v, t) | .error c => .error (stopOf c a) := by
  unfold liftA
  cases f s <;> rfl

theorem Act.liftU_run (a : Nat) (f : State → Except (BitVec 8) State) (s : State) :
    liftU a f s = match f s with | .ok t => .ok ((), t) | .error c => .error (stopOf c a) := by
  unfold liftU
  cases f s <;> rfl

/-! ### What becomes of an action -/

theorem perform_ok {a : Act Unit} {s t : State} (h : a s = .ok ((), t)) : perform a s = .next t := by
  simp only [perform, h]

theorem perform_trap {a : Act Unit} {s : State} {c : BitVec 8} {v : Word} (h : a s = .error (.trap c v)) :
    perform a s = .next (s.raise c v) := by
  simp only [perform, h]

theorem perform_wait {a : Act Unit} {s : State} {w : Wait} (h : a s = .error (.wait w)) :
    perform a s = .next (s.noteWait w) := by
  simp only [perform, h]

theorem perform_check {a : Act Unit} {s : State} {c : BitVec 8} (h : a s = .error (.check c)) :
    perform a s = .next (s.raiseSelfCheck c) := by
  simp only [perform, h]

/-- An action always comes to a next state: it has its effect, or a trap, a wait or a check is taken (R386). -/
theorem perform_next (a : Act Unit) (s : State) : ∃ t, perform a s = .next t := by
  cases h : a s with
  | ok r => exact ⟨r.2, perform_ok (by rw [h])⟩
  | error e =>
    cases e with
    | trap c v => exact ⟨_, perform_trap h⟩
    | wait w => exact ⟨_, perform_wait h⟩
    | check c => exact ⟨_, perform_check h⟩

/-- An action under a predicate that may come to a wait with an effect of its own. -/
theorem actOpW_done {i : Instr} {p : Pred} {w : Wait} {a : Act Bool} {s t : State} (h : s.holds p = true)
    (ha : a s = .ok (true, t)) : actOpW i p w a s = .next (retire i t) := by
  unfold actOpW
  refine perform_ok ?_
  simp only [h, if_true]
  rw [Act.bind_ok ha]
  rfl

theorem actOpW_waits {i : Instr} {p : Pred} {w : Wait} {a : Act Bool} {s t : State} (h : s.holds p = true)
    (ha : a s = .ok (false, t)) : actOpW i p w a s = .next (t.noteWait w) := by
  unfold actOpW
  refine perform_ok ?_
  simp only [h, if_true]
  rw [Act.bind_ok ha]
  rfl

theorem actOpW_error {i : Instr} {p : Pred} {w : Wait} {a : Act Bool} {s : State} {c : BitVec 8} {v : Word}
    (h : s.holds p = true) (ha : a s = .error (.trap c v)) : actOpW i p w a s = .next (s.raise c v) := by
  unfold actOpW
  refine perform_trap ?_
  simp only [h, if_true]
  rw [Act.bind_error ha]

theorem actOp_wait {i : Instr} {p : Pred} {a : Act Unit} {s : State} {w : Wait} (h : s.holds p = true)
    (ha : a s = .error (.wait w)) : actOp i p a s = .next (s.noteWait w) := by
  unfold actOp
  refine perform_wait ?_
  simp only [h, if_true]
  rw [Act.bind_error ha]

/-! ### Waits and checks that several instructions share -/

theorem awaitAll_ok {s : State} (h : allPassed s) : awaitAll s = .ok ((), s) := by
  unfold awaitAll
  rw [Act.bind_ok (Act.get_run s)]
  rcases ha : s.actor with _ | ⟨c, e⟩ | ⟨c, k⟩ | d
  · rfl
  · cases e
    · obtain ⟨h1, h2⟩ := h c ha
      simp only [Act.waitIf_run, h1, h2]
      rfl
    all_goals rfl
  · rfl
  · rfl

/-- Until every PC has reached it and what they have passed is done, the S PC waits (Table 8.1). -/
theorem awaitAll_wait {s : State} {c : Nat} (ha : s.actor = .pc c .S) (h : ((s.cl c).gathered && settled s c) = false) :
    awaitAll s = .error (.wait .order) := by
  unfold awaitAll
  rw [Act.bind_ok (Act.get_run s)]
  simp only [ha, Act.waitIf_run, h]
  rfl

theorem awaitWack_ok {s : State} (h : acksDone s) : awaitWack s = .ok ((), s) := by
  unfold awaitWack
  rw [Act.bind_ok (Act.get_run s)]
  rcases ha : s.who.cl with _ | c
  · rfl
  · simp only [Act.waitIf_run, h c ha]
    rfl

theorem acquireDevice_run (s : State) : acquireDevice s = .ok ((), s.freshL1) := by
  unfold acquireDevice State.freshL1
  rw [Act.bind_ok (Act.get_run s)]
  rcases ha : s.who.cl with _ | c
  · rfl
  · rfl

theorem straddleX_ok {i : Instr} {s : State} (h : staysInBody i s) : straddleX i s = .ok ((), s) := by
  unfold straddleX
  rw [Act.bind_ok (Act.get_run s)]
  rcases hl : s.selfLoops with _ | ⟨l, r⟩
  · rfl
  · have h' := h l r hl
    simp only [Act.trapIf_run]
    rw [if_neg]
    simp only [Bool.and_eq_true, decide_eq_true_eq]
    intro hh
    have := h' hh.1.1 hh.1.2
    omega

theorem post_ok {o : BrOut} {s : State} (h : mayPost s) : post o s = .ok ((), s.posting o) := by
  unfold post State.posting
  rw [Act.bind_ok (Act.get_run s)]
  rcases ha : s.actor with _ | ⟨c, e⟩ | ⟨c, k⟩ | d
  · rfl
  · cases e
    · have := h c ha
      simp only [Act.bind_run, Act.waitIf_run]
      rw [if_neg (by simp [this.1]; omega)]
      rfl
    all_goals rfl
  · rfl
  · rfl

end Sys2Proof.Machine
end

