-- ==== Sys2Proof/Laws/Memory.lean ====
section
/-! SUPPORT. Memory: every operation keeps the canonical form (log 4), and what a byte reads after a write. -/

namespace Sys2Proof.Machine

/-! ### The canonical form -/

theorem Mem.wf_iff (m : Mem) : Mem.wf m = true ↔ m.Pairwise (fun c d => c.1 < d.1) ∧ ∀ c ∈ m, c.2 ≠ 0#8 := by
  induction m with
  | nil => simp [Mem.wf]
  | cons c t ih =>
    cases t with
    | nil => simp [Mem.wf]
    | cons d u =>
      simp only [Mem.wf, Bool.and_eq_true, decide_eq_true_eq, bne_iff_ne, ih]
      constructor
      · rintro ⟨⟨h1, h2⟩, h3, h4⟩
        refine ⟨List.pairwise_cons.mpr ⟨fun e he => ?_, h3⟩, ?_⟩
        · rcases List.mem_cons.mp he with rfl | he
          · exact h2
          · exact lt_trans h2 ((List.pairwise_cons.mp h3).1 e he)
        · intro e he
          rcases List.mem_cons.mp he with rfl | he
          · exact h1
          · exact h4 e he
      · rintro ⟨h1, h2⟩
        have h := List.pairwise_cons.mp h1
        exact ⟨⟨h2 c (by simp), h.1 d (by simp)⟩, h.2, fun e he => h2 e (List.mem_cons_of_mem _ he)⟩

theorem Mem.wf_nil : Mem.wf [] = true := rfl

theorem Mem.wf_sublist {m n : Mem} (h : Mem.wf m = true) (hs : n.Sublist m) : Mem.wf n = true := by
  rw [Mem.wf_iff] at h ⊢
  exact ⟨h.1.sublist hs, fun c hc => h.2 c (hs.subset hc)⟩

theorem Mem.wf_filter {m : Mem} (p : Host.Cell → Bool) (h : Mem.wf m = true) : Mem.wf (m.filter p) = true :=
  Mem.wf_sublist h List.filter_sublist

theorem Mem.wf_below {m : Mem} (a : Nat) (h : Mem.wf m = true) : Mem.wf (Mem.below m a) = true := Mem.wf_filter _ h

theorem Mem.wf_from {m : Mem} (a : Nat) (h : Mem.wf m = true) : Mem.wf (Mem.from m a) = true := Mem.wf_filter _ h

theorem Mem.cells_range (bs : List Byte) : ∀ a, ∀ c ∈ Mem.cells a bs, a ≤ c.1 ∧ c.1 < a + bs.length := by
  induction bs with
  | nil => simp [Mem.cells]
  | cons b t ih =>
    intro a c hc
    simp only [Mem.cells] at hc
    split at hc
    · have := ih (a + 1) c hc
      simp only [List.length_cons]; omega
    · rcases List.mem_cons.mp hc with rfl | hc
      · simp
      · have := ih (a + 1) c hc
        simp only [List.length_cons]; omega

theorem Mem.wf_cells (bs : List Byte) : ∀ a, Mem.wf (Mem.cells a bs) = true := by
  induction bs with
  | nil => intro a; rfl
  | cons b t ih =>
    intro a
    simp only [Mem.cells]
    split
    · exact ih _
    · next hb =>
      have h := (Mem.wf_iff _).mp (ih (a + 1))
      rw [Mem.wf_iff]
      refine ⟨List.pairwise_cons.mpr ⟨fun c hc => ?_, h.1⟩, ?_⟩
      · have := Mem.cells_range t (a + 1) c hc
        omega
      · intro c hc
        rcases List.mem_cons.mp hc with rfl | hc
        · simpa using hb
        · exact h.2 c hc

/-- Three pieces of rising ranges make one memory. -/
theorem Mem.wf_splice {l m r : Mem} (a b : Nat) (hl : Mem.wf l = true) (hm : Mem.wf m = true) (hr : Mem.wf r = true)
    (h1 : ∀ c ∈ l, c.1 < a) (h2 : ∀ c ∈ m, a ≤ c.1 ∧ c.1 < b) (h3 : ∀ c ∈ r, b ≤ c.1) (hab : a ≤ b) : Mem.wf (l ++ m ++ r) = true := by
  rw [Mem.wf_iff] at *
  refine ⟨?_, ?_⟩
  · rw [List.pairwise_append, List.pairwise_append]
    refine ⟨⟨hl.1, hm.1, fun c hc d hd => ?_⟩, hr.1, fun c hc d hd => ?_⟩
    · have := h1 c hc; have := (h2 d hd).1; omega
    · have := h3 d hd
      rcases List.mem_append.mp hc with hc | hc
      · have := h1 c hc; omega
      · have := (h2 c hc).2; omega
  · intro c hc
    simp only [List.mem_append] at hc
    rcases hc with (hc | hc) | hc
    · exact hl.2 c hc
    · exact hm.2 c hc
    · exact hr.2 c hc

theorem Mem.mem_below {m : Mem} {a : Nat} {c : Host.Cell} (h : c ∈ Mem.below m a) : c.1 < a := by
  simpa using (List.mem_filter.mp h).2

theorem Mem.mem_from {m : Mem} {a : Nat} {c : Host.Cell} (h : c ∈ Mem.from m a) : a ≤ c.1 := by
  simpa using (List.mem_filter.mp h).2

/-- Storing bytes keeps the canonical form. -/
theorem Mem.wf_write {m : Mem} (a : Nat) (bs : List Byte) (h : Mem.wf m = true) : Mem.wf (Mem.write m a bs) = true :=
  Mem.wf_splice a (a + bs.length) (Mem.wf_below a h) (Mem.wf_cells bs a) (Mem.wf_from _ h) (fun _ hc => Mem.mem_below hc)
    (fun c hc => Mem.cells_range bs a c hc) (fun _ hc => Mem.mem_from hc) (by omega)

/-- Setting bytes to zero keeps it. -/
theorem Mem.wf_zero {m : Mem} (a n : Nat) (h : Mem.wf m = true) : Mem.wf (Mem.zero m a n) = true := by
  have := Mem.wf_splice (m := []) a (a + n) (Mem.wf_below a h) rfl (Mem.wf_from (a + n) h) (fun _ hc => Mem.mem_below hc) (by simp)
    (fun _ hc => Mem.mem_from hc) (by omega)
  simpa [Mem.zero] using this

/-- Replacing a range by cells of that range keeps it. -/
theorem Mem.wf_spliceCells {m cells : Mem} (b n : Nat) (h : Mem.wf m = true) (hc : Mem.wf cells = true)
    (hr : ∀ c ∈ cells, b ≤ c.1 ∧ c.1 < b + n) : Mem.wf (spliceCells m b n cells) = true :=
  Mem.wf_splice b (b + n) (Mem.wf_below b h) hc (Mem.wf_from _ h) (fun _ hc => Mem.mem_below hc) hr (fun _ hc => Mem.mem_from hc)
    (by omega)

/-! ### Reading after writing -/

theorem Mem.byte_append (m n : Mem) (a : Nat) (h : ∀ c ∈ m, c.1 ≠ a) : Mem.byte (m ++ n) a = Mem.byte n a := by
  induction m with
  | nil => rfl
  | cons c t ih =>
    obtain ⟨b, x⟩ := c
    have hb : b ≠ a := h (b, x) (by simp)
    simp only [List.cons_append, Mem.byte]
    rw [if_neg (by simpa using hb)]
    exact ih fun d hd => h d (List.mem_cons_of_mem _ hd)

/-- Cells that are kept by their address alone read as before. -/
theorem Mem.byte_filter (m : Mem) (p : Host.Cell → Bool) (a : Nat) (h : ∀ c ∈ m, c.1 = a → p c = true) :
    Mem.byte (m.filter p) a = Mem.byte m a := by
  induction m with
  | nil => rfl
  | cons c t ih =>
    obtain ⟨b, x⟩ := c
    have ih := ih fun d hd => h d (List.mem_cons_of_mem _ hd)
    by_cases hb : b = a
    · subst hb
      rw [List.filter_cons_of_pos (h (b, x) (by simp) rfl)]
      simp [Mem.byte]
    · by_cases hp : p (b, x) = true
      · rw [List.filter_cons_of_pos hp]
        simp only [Mem.byte]
        rw [if_neg (by simpa using hb), if_neg (by simpa using hb)]
        exact ih
      · rw [List.filter_cons_of_neg hp]
        simp only [Mem.byte]
        rw [if_neg (by simpa using hb)]
        exact ih

theorem Mem.byte_none (m : Mem) (a : Nat) (h : ∀ c ∈ m, c.1 ≠ a) : Mem.byte m a = 0#8 := by
  have := Mem.byte_append m [] a h
  simpa [Mem.byte] using this

theorem Mem.byte_append_left (m n : Mem) (a : Nat) (h : ∀ c ∈ n, c.1 ≠ a) : Mem.byte (m ++ n) a = Mem.byte m a := by
  induction m with
  | nil => simpa [Mem.byte] using Mem.byte_none n a h
  | cons c t ih =>
    obtain ⟨b, x⟩ := c
    simp only [List.cons_append, Mem.byte]
    split
    · rfl
    · exact ih

theorem Mem.byte_cells (bs : List Byte) : ∀ a i, Mem.byte (Mem.cells a bs) (a + i) = bs.getD i 0#8 := by
  induction bs with
  | nil => intro a i; simp [Mem.cells, Mem.byte]
  | cons b t ih =>
    intro a i
    simp only [Mem.cells]
    split
    · next hb =>
      cases i with
      | zero =>
        rw [Mem.byte_none]
        · simpa using (eq_of_beq hb).symm
        · intro c hc; have := Mem.cells_range t (a + 1) c hc; omega
      | succ j =>
        have := ih (a + 1) j
        rw [show a + (j + 1) = a + 1 + j by omega, this]
        simp
    · cases i with
      | zero => simp [Mem.byte]
      | succ j =>
        have := ih (a + 1) j
        simp only [Mem.byte]
        rw [if_neg (by simp), show a + (j + 1) = a + 1 + j by omega, this]
        simp

/-- What a byte reads after bytes have been stored: the byte stored there, or what it read before. -/
theorem Mem.byte_write (m : Mem) (a : Nat) (bs : List Byte) (b : Nat) :
    Mem.byte (Mem.write m a bs) b = if a ≤ b ∧ b < a + bs.length then bs.getD (b - a) 0#8 else Mem.byte m b := by
  unfold Mem.write
  split
  · next h =>
    rw [List.append_assoc, Mem.byte_append _ _ _ (fun c hc => by have := Mem.mem_below hc; omega),
      Mem.byte_append_left _ _ _ (fun c hc => by have := Mem.mem_from hc; omega)]
    have := Mem.byte_cells bs a (b - a)
    rwa [show a + (b - a) = b by omega] at this
  · next h =>
    by_cases hb : b < a
    · rw [Mem.byte_append_left _ _ _ (fun c hc => by have := Mem.mem_from hc; omega),
        Mem.byte_append_left _ _ _ (fun c hc => by have := Mem.cells_range bs a c hc; omega)]
      exact Mem.byte_filter m _ b fun c _ hc => by simp; omega
    · rw [Mem.byte_append _ _ _ (fun c hc => ?_)]
      · exact Mem.byte_filter m _ b fun c _ hc => by simp; omega
      · rcases List.mem_append.mp hc with hc | hc
        · have := Mem.mem_below hc; omega
        · have := Mem.cells_range bs a c hc; omega

theorem Mem.length_read (m : Mem) (a n : Nat) : (Mem.read m a n).length = n := by simp [Mem.read]

/-! ### The memories of the package -/

theorem State.reset_memoryForm : Mem.wf State.reset.hbm = true ∧ State.reset.clusters = [] ∧ State.reset.dies = [] := ⟨rfl, rfl, rfl⟩

/-- Storing in device memory keeps every memory's form. -/
theorem State.memoryWf_hbmWrite {s : State} (a : Nat) (bs : List Byte) (h : s.memoryWf) : (s.hbmWrite a bs).memoryWf :=
  ⟨Mem.wf_write a bs h.1, h.2⟩

/-- A cluster that is listed, or as at reset, has a scratchpad in form. -/
theorem State.sram_wf {s : State} (h : s.memoryWf) (c : Nat) : Mem.wf (s.cl c).sram = true := by
  rcases KMap.getD_mem s.clusters c Cluster.reset with e | ⟨j, e⟩
  · show Mem.wf (KMap.getD s.clusters c Cluster.reset).sram = true
    rw [e]; rfl
  · exact h.2.1 _ e

/-- A die's pinned space is in form. -/
theorem State.pinned_wf {s : State} (h : s.memoryWf) (d : Nat) : Mem.wf (s.die d).pinned = true := by
  rcases KMap.getD_mem s.dies d Die.reset with e | ⟨j, e⟩
  · show Mem.wf (KMap.getD s.dies d Die.reset).pinned = true
    rw [e]; rfl
  · exact h.2.2.1 _ e

/-- A change of a cluster that keeps its scratchpad's form keeps every memory's form. -/
theorem State.memoryWf_modCl {s : State} (c : Nat) (f : Cluster → Cluster) (h : s.memoryWf)
    (hf : Mem.wf (f (s.cl c)).sram = true) : (s.modCl c f).memoryWf := by
  refine ⟨h.1, fun e he => ?_, h.2.2⟩
  rcases KMap.mem_set he with rfl | he
  · exact hf
  · exact h.2.1 e he

/-- A change of a die that keeps its pinned space's form keeps every memory's form. -/
theorem State.memoryWf_modDie {s : State} (d : Nat) (f : Die → Die) (h : s.memoryWf)
    (hf : Mem.wf (f (s.die d)).pinned = true) : (s.modDie d f).memoryWf := by
  refine ⟨h.1, h.2.1, fun e he => ?_, h.2.2.2⟩
  rcases KMap.mem_set he with rfl | he
  · exact hf
  · exact h.2.2.1 e he

end Sys2Proof.Machine
end

