-- ==== Sys2Proof/Tests/Slice0.lean ====
section
/-! SUPPORT. The model's own tests: words written out from the spec's encodings, ill-formed terms that the checks refuse, and for every
obligation with hypotheses a state and operands that meet them (test_met_…). -/

namespace Sys2Proof.Tests

set_option Elab.async false

open Sys2Proof Sys2Proof.Machine

/-! ### Small states -/

/-- The state in which a program is loaded and nothing has run: context 1, gang 1, a task on cluster 0 (log 2). -/
def loaded0 : State := { State.reset.withFetchWord 96 0 with agenda := [] }

/-- The loaded state with cluster 0 changed, as PC `e`, as thread 0, and as the manager core of die 0 see it. -/
def asPc (e : Eng) (f : Cluster → Cluster := id) : State := { loaded0.modCl 0 f with actor := .pc 0 e }
def asRake (f : Cluster → Cluster := id) : State := { loaded0.modCl 0 f with actor := .rake 0 0 }
def asMgr (f : Die → Die := id) : State :=
  { loaded0.modDie 0 fun d => f { d with coreTask := some loadTask } with actor := .mgr 0 }

/-- The value of an action that succeeds. -/
def got {ε α : Type} [Inhabited α] : Except ε α → α
  | .ok a => a
  | .error _ => default

def gotOr {ε α : Type} (d : α) : Except ε α → α
  | .ok a => a
  | .error _ => d

/-- An action succeeds; it stops with a given cause. -/
def okay {ε α : Type} (x : Except ε α) : Bool := x.isOk
def stopsWith {α : Type} [DecidableEq α] {β : Type} (x : Except α β) (e : α) : Bool :=
  match x with
  | .ok _ => false
  | .error f => f == e

/-- An access reaches what `p` says. -/
def reaches (r : Except (BitVec 8) (State × Xlat)) (p : State → Xlat → Bool) : Bool :=
  match r with
  | .ok q => p q.1 q.2
  | .error _ => false

/-- The state that a step answers. -/
def after (o : Host.Outcome State Fault Refusal) : State :=
  match o with
  | .next s => s
  | _ => default

/-- The same state with no context loaded: a trap then writes no frame and no log. -/
def bare (s : State) : State := { s with contexts := [] }

/-- The cause of the trap that the task of cluster 0 has taken. -/
def causeNow (o : Host.Outcome State Fault Refusal) : Option (BitVec 8) :=
  (((after o).cl 0).task.bind (·.trap)).map (·.cause)

/-- The instruction `i` of PC `e` has nothing to wait for (freeToIssue). -/
def free (s : State) (c : Nat) (t : Task) (e : Eng) (i : Instr) : Bool :=
  !awaitsScalar s c s.who t e i && !interlocked s c s.who t e i
    && !heldBack s c none (if e == .S then scalarTouches s (s.cl c) c i else touches s (s.cl c) c e true i)
    && (e != .M || !awaitsFollow s c s.who t i)

/-- Operands and heads without tokens. -/
def head (t : Ty) : VHead := ⟨t, ⟨false, false, 0#3⟩, ⟨0#8, 0#8⟩⟩
def noTok0 : Tok := ⟨0#8, 0#8⟩
def name (n : Nat) : Opnd := .v false (BitVec.ofNat 11 n)
def ptr (n : Nat) : Opnd := .p (BitVec.ofNat 11 n)
def sreg (n : Nat) : Opnd := .s (BitVec.ofNat 11 n)

/-- An instruction completes: its PC, or its thread, stands after it. -/
def completes (s : State) (i : Instr) : Bool := (after (exec i s)).selfPc == s.selfPc + lenOf i

/-! ### Decoding: words written out bit by bit from the spec's encodings -/

def decodesTo (e : List Parcel × Instr) : Bool :=
  match decode e.1 with
  | .ok i => i == e.2
  | .error _ => false

def causeOf (ws : List Parcel) : Option (BitVec 8) :=
  match decode ws with
  | .ok _ => none
  | .error c => some c

def wordsScalar1 : List (List Parcel × Instr) := [
  ([0x3E841020#32], .add 1#6 33#6 62#6),
  ([0x3D882040#32], .sub 2#6 34#6 61#6),
  ([0x3C8C3060#32], .mul 3#6 35#6 60#6),
  ([0x3B904080#32], .mulh 4#6 36#6 59#6),
  ([0x3A9450A0#32], .mulhn 5#6 37#6 58#6),
  ([0x399860C0#32], .div 6#6 38#6 57#6),
  ([0x389C70E0#32], .divn 7#6 39#6 56#6),
  ([0x37A08100#32], .rem 8#6 40#6 55#6),
  ([0x36A49120#32], .remn 9#6 41#6 54#6),
  ([0x35A8A140#32], .and 10#6 42#6 53#6),
  ([0x34ACB160#32], .or 11#6 43#6 52#6),
  ([0x33B0C180#32], .xor 12#6 44#6 51#6),
  ([0x32B4D1A0#32], .shl 13#6 45#6 50#6),
  ([0x31B8E1C0#32], .shr 14#6 46#6 49#6),
  ([0x30BCF1E0#32], .sra 15#6 47#6 48#6),
  ([0x2FC10200#32], .min 16#6 48#6 47#6),
  ([0x2EC51220#32], .max 17#6 49#6 46#6),
  ([0x2DC92240#32], .minn 18#6 50#6 45#6),
  ([0x2CCD3260#32], .maxn 19#6 51#6 44#6),
  ([0x2BD142E0#32], .andn 20#6 52#6 43#6),
  ([0x2AD55660#32], .nearad 21#6 53#6 42#6),
  ([0x29D96680#32], .clad 22#6 54#6 41#6),
  ([0x00849280#32], .clz 9#6 33#6),
  ([0x008492A0#32], .popc 9#6 33#6)]

theorem test_decode_scalar1 : wordsScalar1.all decodesTo = true := by decide +kernel

def wordsScalar2 : List (List Parcel × Instr) := [
  ([0x808492C0#32], .sext 2#2 9#6 33#6),
  ([0xC8849300#32], .addi 9#6 33#6 200#8),
  ([0xC9849320#32], .andi 9#6 33#6 201#8),
  ([0xCA849340#32], .ori 9#6 33#6 202#8),
  ([0xCB849360#32], .xori 9#6 33#6 203#8),
  ([0x3F849380#32], .shli 9#6 33#6 63#8),
  ([0x3E8493A0#32], .shri 9#6 33#6 62#8),
  ([0x3D8493C0#32], .srai 9#6 33#6 61#8),
  ([0x00000000#32], .nop),
  ([0xC00493E0#32], .li 9#6 0x3001#14),
  ([0x3C84F400#32], .cmpeq 15#4 33#6 60#6),
  ([0x3C84E420#32], .cmpne 14#4 33#6 60#6),
  ([0x3C84D440#32], .cmplt 13#4 33#6 60#6),
  ([0x3C84C460#32], .cmple 12#4 33#6 60#6),
  ([0x3C84B480#32], .cmpltn 11#4 33#6 60#6),
  ([0x3C84A4A0#32], .cmplen 10#4 33#6 60#6),
  ([0x033894C0#32], .pand 9#4 14#4 3#4),
  ([0x033894E0#32], .por 9#4 14#4 3#4),
  ([0x03389500#32], .pxor 9#4 14#4 3#4),
  ([0x00389520#32], .pnot 9#4 14#4),
  ([0x00009540#32], .kget 9#6),
  ([0x00840560#32], .kset 33#6),
  ([0xB5849580#32], .ld .i16 9#6 33#6 11#4),
  ([0xC08495A0#32], .st .n8 9#6 33#6 12#4)]

theorem test_decode_scalar2 : wordsScalar2.all decodesTo = true := by decide +kernel

def wordsScalar3 : List (List Parcel × Instr) := [
  ([0xD78495C0#32], .ldg .i64 9#6 33#6 13#4),
  ([0xE28495E0#32], .stg .n32 9#6 33#6 14#4),
  ([0x0FFC9600#32], .mfc 9#6 0x3FF#14),
  ([0x00D09620#32], .mtc 9#6 0x034#14),
  ([0x00009640#32], .cid 9#6),
  ([0x040006A0#32], .fence 4#8),
  ([0xFF000700#32], .halt 255#8),
  ([0x1F000720#32], .trap 31#8),
  ([0x000006C0#32], .isync),
  ([0x000006E0#32], .yield),
  ([0x3FFC9740#32], .ftst 9#4 4095#14),
  ([0x3FF80760#32], .fset 4094#14),
  ([0x3FF80780#32], .fclr 4094#14),
  ([0x3FF807A0#32], .fwait 4094#14),
  ([0x3C8407C0#32], .wlpush 33#6 60#6),
  ([0x008497E0#32], .wlpop 9#6 33#6)]

theorem test_decode_scalar3 : wordsScalar3.all decodesTo = true := by decide +kernel

def wordsControl : List (List Parcel × Instr) := [
  ([0x80001014#32], .b 0x80001#20),
  ([0x40003054#32], .call 0x40003#20),
  ([0xABCDE154#32], .sigchk 0xABCDE#20),
  ([0x80079034#32], .bk true 9#4 0x4003#15),
  ([0x00000074#32], .ret),
  ([0x00840094#32], .jr 33#6),
  ([0x801490B4#32], .loop 9#6 0x2005#14),
  ([0x000190F4#32], .lexit true 9#4),
  ([0x00009114#32], .bar 9#6),
  ([0x00000134#32], .meet),
  ([0x00020015#32, 0x00000000#32, 0xFFFFFFF8#32], .bLong 0xFFFFFFF8#32),
  ([0x00020055#32, 0x00000000#32, 0x00010004#32], .callLong 0x10004#32),
  ([0x00020035#32, 0x00190000#32, 0xFFFFFF00#32], .bkLong true 9#4 0xFFFFFF00#32),
  ([0x000200D5#32, 0x09C30000#32, 0xFFFFFFFF#32], .loopi 0xFFFFFFFF#32 0x9C3#12),
  ([0x05060175#32, 0x084D1621#32, 0xFFFFFFE8#32], .vbr .f32 .notall ⟨0x21#8, 0x16#8⟩ (.v true 77#11) 0xFFFFFFE8#32)]

theorem test_decode_control : wordsControl.all decodesTo = true := by decide +kernel

def wordsRake : List (List Parcel × Instr) := [
  ([0x0084901C#32], .recv 9#6 33#6),
  ([0x0084905C#32], .rpeek 9#6 33#6),
  ([0x3C84007C#32], .radv 33#6 60#6),
  ([0x3C8490BC#32], .rbind 9#6 33#6 60#6),
  ([0x000000DC#32], .tdone),
  ([0x008400FC#32], .kwake 33#6),
  ([0x0000011C#32], .ksleep),
  ([0x0000913C#32], .kid 9#6),
  ([0x0003D03D#32, 0x08490000#32, 0x000003E8#32], .recvt ⟨true, 13#4⟩ 9#6 33#6 (.imm 1000#32)),
  ([0x0001D09D#32, 0x08490000#32, 0x0000003C#32], .rsend ⟨true, 13#4⟩ 9#6 33#6 (.reg 60#6))]

theorem test_decode_rake : wordsRake.all decodesTo = true := by decide +kernel

def wordsScalarLong1 : List (List Parcel × Instr) := [
  ([0x0001D021#32, 0x08490000#32, 0x0000003C#32], .addLong ⟨true, 13#4⟩ 9#6 33#6 (.reg 60#6)),
  ([0x0003D041#32, 0x08490000#32, 0x87654301#32], .subLong ⟨true, 13#4⟩ 9#6 33#6 (.imm 2271560449#32)),
  ([0x0001D061#32, 0x08490000#32, 0x0000003A#32], .mulLong ⟨true, 13#4⟩ 9#6 33#6 (.reg 58#6)),
  ([0x0003D081#32, 0x08490000#32, 0x87654303#32], .mulhLong ⟨true, 13#4⟩ 9#6 33#6 (.imm 2271560451#32)),
  ([0x0001D0A1#32, 0x08490000#32, 0x00000038#32], .mulhnLong ⟨true, 13#4⟩ 9#6 33#6 (.reg 56#6)),
  ([0x0003D0C1#32, 0x08490000#32, 0x87654305#32], .divLong ⟨true, 13#4⟩ 9#6 33#6 (.imm 2271560453#32)),
  ([0x0001D0E1#32, 0x08490000#32, 0x00000036#32], .divnLong ⟨true, 13#4⟩ 9#6 33#6 (.reg 54#6)),
  ([0x0003D101#32, 0x08490000#32, 0x87654307#32], .remLong ⟨true, 13#4⟩ 9#6 33#6 (.imm 2271560455#32)),
  ([0x0001D121#32, 0x08490000#32, 0x00000034#32], .remnLong ⟨true, 13#4⟩ 9#6 33#6 (.reg 52#6)),
  ([0x0003D141#32, 0x08490000#32, 0x87654309#32], .andLong ⟨true, 13#4⟩ 9#6 33#6 (.imm 2271560457#32)),
  ([0x0001D161#32, 0x08490000#32, 0x00000032#32], .orLong ⟨true, 13#4⟩ 9#6 33#6 (.reg 50#6)),
  ([0x0003D181#32, 0x08490000#32, 0x8765430B#32], .xorLong ⟨true, 13#4⟩ 9#6 33#6 (.imm 2271560459#32)),
  ([0x0001D1A1#32, 0x08490000#32, 0x00000030#32], .shlLong ⟨true, 13#4⟩ 9#6 33#6 (.reg 48#6)),
  ([0x0003D1C1#32, 0x08490000#32, 0x8765430D#32], .shrLong ⟨true, 13#4⟩ 9#6 33#6 (.imm 2271560461#32)),
  ([0x0001D1E1#32, 0x08490000#32, 0x0000002E#32], .sraLong ⟨true, 13#4⟩ 9#6 33#6 (.reg 46#6)),
  ([0x0003D201#32, 0x08490000#32, 0x8765430F#32], .minLong ⟨true, 13#4⟩ 9#6 33#6 (.imm 2271560463#32)),
  ([0x0001D221#32, 0x08490000#32, 0x0000002C#32], .maxLong ⟨true, 13#4⟩ 9#6 33#6 (.reg 44#6)),
  ([0x0003D241#32, 0x08490000#32, 0x87654311#32], .minnLong ⟨true, 13#4⟩ 9#6 33#6 (.imm 2271560465#32)),
  ([0x0001D261#32, 0x08490000#32, 0x0000002A#32], .maxnLong ⟨true, 13#4⟩ 9#6 33#6 (.reg 42#6)),
  ([0x0003D2E1#32, 0x08490000#32, 0x87654313#32], .andnLong ⟨true, 13#4⟩ 9#6 33#6 (.imm 2271560467#32)),
  ([0x0001D661#32, 0x08490000#32, 0x00000028#32], .nearadLong ⟨true, 13#4⟩ 9#6 33#6 (.reg 40#6)),
  ([0x0003D681#32, 0x08490000#32, 0x87654315#32], .cladLong ⟨true, 13#4⟩ 9#6 33#6 (.imm 2271560469#32)),
  ([0x0001D281#32, 0x08490000#32, 0x00000000#32], .clzLong ⟨true, 13#4⟩ 9#6 33#6),
  ([0x0001D2A1#32, 0x08490000#32, 0x00000000#32], .popcLong ⟨true, 13#4⟩ 9#6 33#6)]

theorem test_decode_scalarLong1 : wordsScalarLong1.all decodesTo = true := by decide +kernel

def wordsScalarLong2 : List (List Parcel × Instr) := [
  ([0x0005D2C1#32, 0x08490000#32, 0x00000000#32], .sextLong ⟨true, 13#4⟩ 1#2 9#6 33#6),
  ([0x0003D301#32, 0x08490000#32, 0xF0000001#32], .addiLong ⟨true, 13#4⟩ 9#6 33#6 4026531841#32),
  ([0x0003D321#32, 0x08490000#32, 0xF0000002#32], .andiLong ⟨true, 13#4⟩ 9#6 33#6 4026531842#32),
  ([0x0003D341#32, 0x08490000#32, 0xF0000003#32], .oriLong ⟨true, 13#4⟩ 9#6 33#6 4026531843#32),
  ([0x0003D361#32, 0x08490000#32, 0xF0000004#32], .xoriLong ⟨true, 13#4⟩ 9#6 33#6 4026531844#32),
  ([0x0003D381#32, 0x08490000#32, 0x0000003D#32], .shliLong ⟨true, 13#4⟩ 9#6 33#6 61#32),
  ([0x0003D3A1#32, 0x08490000#32, 0x0000003E#32], .shriLong ⟨true, 13#4⟩ 9#6 33#6 62#32),
  ([0x0003D3C1#32, 0x08490000#32, 0x0000003F#32], .sraiLong ⟨true, 13#4⟩ 9#6 33#6 63#32),
  ([0x0003D3E1#32, 0x00090000#32, 0x80000001#32], .liLong ⟨true, 13#4⟩ 9#6 0x80000001#32),
  ([0x0007D3E1#32, 0x00090000#32, 0x80000001#32], .liHi ⟨true, 13#4⟩ 9#6 0x80000001#32),
  ([0x0003D401#32, 0x084F0000#32, 0x00000005#32], .cmpeqLong ⟨true, 13#4⟩ 15#4 33#6 (.imm 5#32)),
  ([0x0001D421#32, 0x084E0000#32, 0x0000003C#32], .cmpneLong ⟨true, 13#4⟩ 14#4 33#6 (.reg 60#6)),
  ([0x0003D441#32, 0x084D0000#32, 0x00000005#32], .cmpltLong ⟨true, 13#4⟩ 13#4 33#6 (.imm 5#32)),
  ([0x0001D461#32, 0x084C0000#32, 0x0000003C#32], .cmpleLong ⟨true, 13#4⟩ 12#4 33#6 (.reg 60#6)),
  ([0x0003D481#32, 0x084B0000#32, 0x00000005#32], .cmpltnLong ⟨true, 13#4⟩ 11#4 33#6 (.imm 5#32)),
  ([0x0001D4A1#32, 0x084A0000#32, 0x0000003C#32], .cmplenLong ⟨true, 13#4⟩ 10#4 33#6 (.reg 60#6)),
  ([0x0303D581#32, 0x08490000#32, 0xFFFFFFF8#32], .ldLong ⟨true, 13#4⟩ .i32 9#6 33#6 (.imm 0xFFFFFFF8#32)),
  ([0x0181D5A1#32, 0x08490000#32, 0x0000003C#32], .stLong ⟨true, 13#4⟩ .n64 9#6 33#6 (.reg 60#6)),
  ([0x0203D5C1#32, 0x08490000#32, 0xFFFFFFF8#32], .ldgLong ⟨true, 13#4⟩ .i8 9#6 33#6 (.imm 0xFFFFFFF8#32)),
  ([0x0081D5E1#32, 0x08490000#32, 0x0000003C#32], .stgLong ⟨true, 13#4⟩ .n16 9#6 33#6 (.reg 60#6)),
  ([0x0001D641#32, 0x00090000#32, 0x00000000#32], .cidLong ⟨true, 13#4⟩ 9#6)]

theorem test_decode_scalarLong2 : wordsScalarLong2.all decodesTo = true := by decide +kernel

def wordsCommand : List (List Parcel × Instr) := [
  ([0x0001D019#32, 0x08490000#32, 0x00D23481#32], .ecopy ⟨true, 13#4⟩ 9#6 33#6 1#6 18#6 35#6 52#6),
  ([0x0001D039#32, 0x08490000#32, 0x00D23481#32], .egath ⟨true, 13#4⟩ 9#6 33#6 1#6 18#6 35#6 52#6),
  ([0x0001D059#32, 0x08490000#32, 0x00D23481#32], .escat ⟨true, 13#4⟩ 9#6 33#6 1#6 18#6 35#6 52#6),
  ([0x0001D079#32, 0x08490000#32, 0x00D23481#32], .eacc ⟨true, 13#4⟩ 9#6 33#6 1#6 18#6 35#6 52#6),
  ([0x0001D099#32, 0x08490000#32, 0x00D23481#32], .emark ⟨true, 13#4⟩ 9#6 33#6 1#6 18#6 35#6 52#6),
  ([0x0001D0F9#32, 0x08490000#32, 0x00D23481#32], .eroute ⟨true, 13#4⟩ 9#6 33#6 1#6 18#6 35#6 52#6),
  ([0x0001D119#32, 0x08490000#32, 0x00D23481#32], .ebatch ⟨true, 13#4⟩ 9#6 33#6 1#6 18#6 35#6 52#6),
  ([0x0001D139#32, 0x08490000#32, 0x00D23481#32], .eldred ⟨true, 13#4⟩ 9#6 33#6 1#6 18#6 35#6 52#6),
  ([0x0001D159#32, 0x08490000#32, 0x00D23481#32], .egroup ⟨true, 13#4⟩ 9#6 33#6 1#6 18#6 35#6 52#6),
  ([0x0001D179#32, 0x08490000#32, 0x00D23481#32], .ecarry ⟨true, 13#4⟩ 9#6 33#6 1#6 18#6 35#6 52#6),
  ([0x0001D199#32, 0x08490000#32, 0x00D23481#32], .ecoll ⟨true, 13#4⟩ 9#6 33#6 1#6 18#6 35#6 52#6),
  ([0x0001D1B9#32, 0x08490000#32, 0x00D23481#32], .eget ⟨true, 13#4⟩ 9#6 33#6 1#6 18#6 35#6 52#6),
  ([0x0001D1D9#32, 0x08490000#32, 0x00D23481#32], .eput ⟨true, 13#4⟩ 9#6 33#6 1#6 18#6 35#6 52#6),
  ([0x0001D1F9#32, 0x08490000#32, 0x00D23481#32], .emcast ⟨true, 13#4⟩ 9#6 33#6 1#6 18#6 35#6 52#6),
  ([0x0001D219#32, 0x08490000#32, 0x00D23481#32], .eappend ⟨true, 13#4⟩ 9#6 33#6 1#6 18#6 35#6 52#6),
  ([0x0001D239#32, 0x08490000#32, 0x00D23481#32], .ebexp ⟨true, 13#4⟩ 9#6 33#6 1#6 18#6 35#6 52#6),
  ([0x0001D299#32, 0x08490000#32, 0x00D23481#32], .efset ⟨true, 13#4⟩ 9#6 33#6 1#6 18#6 35#6 52#6),
  ([0x0001D0B9#32, 0x08490000#32, 0x00000034#32], .earm ⟨true, 13#4⟩ 9#6 33#6 52#6),
  ([0x0001D0D9#32, 0x08400000#32, 0x00000000#32], .ewait ⟨true, 13#4⟩ 33#6),
  ([0x0001D259#32, 0x08490000#32, 0x00000000#32], .ecancel ⟨true, 13#4⟩ 9#6 33#6),
  ([0x0001D279#32, 0x08490000#32, 0x00000000#32], .estat ⟨true, 13#4⟩ 9#6 33#6),
  ([0x0001D2B9#32, 0x00000000#32, 0x00000000#32], .edrain ⟨true, 13#4⟩)]

theorem test_decode_command : wordsCommand.all decodesTo = true := by decide +kernel

def wordsLoad : List (List Parcel × Instr) := [
  ([0x7C800005#32, 0x05FF010A#32, 0x00001005#32], .vld ⟨.bf16, ⟨false, true, 7#3⟩, ⟨10#8, 1#8⟩⟩ (.v false 1535#11) (.p 5#11)),
  ([0x3A800025#32, 0x05FF010A#32, 0x0202603F#32], .vldx ⟨.i16, ⟨false, false, 7#3⟩, ⟨10#8, 1#8⟩⟩ (.v false 1535#11) (.s 63#11) (.v true 9#11)),
  ([0x25000046#32, 0x05FF010A#32, 0x0000203F#32, 0x00002011#32, 0x000003FF#32, 0x03A6400B#32], .vldb ⟨.f32, ⟨false, false, 4#3⟩, ⟨10#8, 1#8⟩⟩ 1023#10 0x03A6400B#32 (.v false 1535#11) (.s 63#11) (.s 17#11)),
  ([0x00000065#32, 0x05FF010A#32, 0x0000203F#32], .vldg ⟨.n8, ⟨false, false, 0#3⟩, ⟨10#8, 1#8⟩⟩ (.v false 1535#11) (.s 63#11)),
  ([0xBC000085#32, 0x05FF010A#32, 0x0000203F#32], .vldbc ⟨.f16, ⟨true, false, 7#3⟩, ⟨10#8, 1#8⟩⟩ (.v false 1535#11) (.s 63#11)),
  ([0x010000A6#32, 0x05FF010A#32, 0x0000203F#32, 0x00002011#32, 0x000003FF#32, 0x03A6400B#32], .vlds ⟨.n32, ⟨false, false, 0#3⟩, ⟨10#8, 1#8⟩⟩ 1023#10 0x03A6400B#32 (.v false 1535#11) (.s 63#11) (.s 17#11)),
  ([0x000000C5#32, 0x0000010A#32, 0x0000203F#32], .vpref ⟨.n8, ⟨false, false, 0#3⟩, ⟨10#8, 1#8⟩⟩ (.s 63#11)),
  ([0x018000E5#32, 0x05FF010A#32, 0x000A203F#32], .vldfl ⟨.n64, ⟨false, false, 0#3⟩, ⟨10#8, 1#8⟩⟩ (.v false 1535#11) (.s 63#11) (.v false 40#11))]

theorem test_decode_load : wordsLoad.all decodesTo = true := by decide +kernel

def wordsStore : List (List Parcel × Instr) := [
  ([0x0580000D#32, 0x101F8844#32, 0x0000004D#32], .vst ⟨.nf, ⟨false, false, 0#3⟩, ⟨68#8, 136#8⟩⟩ (.p 31#11) (.v false 77#11)),
  ([0x0200002D#32, 0x203F8844#32, 0x0002404D#32], .vstx ⟨.i8, ⟨false, false, 0#3⟩, ⟨68#8, 136#8⟩⟩ (.s 63#11) (.v false 77#11) (.v false 9#11)),
  ([0xC500004E#32, 0x203F8844#32, 0x0000004D#32, 0x00002011#32, 0x000003FF#32, 0x03A6400B#32], .vstb ⟨.f32, ⟨true, true, 0#3⟩, ⟨68#8, 136#8⟩⟩ 1023#10 0x03A6400B#32 (.s 63#11) (.v false 77#11) (.s 17#11)),
  ([0x0080006D#32, 0x203F8844#32, 0x0000004D#32], .vstg ⟨.n16, ⟨false, false, 0#3⟩, ⟨68#8, 136#8⟩⟩ (.s 63#11) (.v false 77#11)),
  ([0x3800008E#32, 0x203F8844#32, 0x0000084D#32, 0x00002011#32, 0x000003FF#32, 0x03A6400B#32], .vsts ⟨.n8, ⟨false, false, 7#3⟩, ⟨68#8, 136#8⟩⟩ 1023#10 0x03A6400B#32 (.s 63#11) (.v true 77#11) (.s 17#11)),
  ([0x030000AD#32, 0x203F8844#32, 0x0002404D#32], .vstm ⟨.i32, ⟨false, false, 0#3⟩, ⟨68#8, 136#8⟩⟩ (.s 63#11) (.v false 77#11) (.v false 9#11)),
  ([0x3B8000CD#32, 0x101F8844#32, 0x0002404D#32], .vstc ⟨.i64, ⟨false, false, 7#3⟩, ⟨68#8, 136#8⟩⟩ (.p 31#11) (.v false 77#11) (.v false 9#11))]

theorem test_decode_store : wordsStore.all decodesTo = true := by decide +kernel

def wordsArithmetic1 : List (List Parcel × Instr) := [
  ([0x05800009#32, 0x05FF1621#32, 0x00001005#32], .vmov ⟨.nf, ⟨false, false, 0#3⟩, ⟨33#8, 22#8⟩⟩ (.v false 1535#11) (.p 5#11)),
  ([0x0D000029#32, 0x101F1621#32, 0x080FC84D#32], .vadd ⟨.f32, ⟨false, false, 1#3⟩, ⟨33#8, 22#8⟩⟩ (.p 31#11) (.v true 77#11) (.s 63#11)),
  ([0x0A000049#32, 0x101F1621#32, 0x080FC84D#32], .vsub ⟨.i8, ⟨false, false, 1#3⟩, ⟨33#8, 22#8⟩⟩ (.p 31#11) (.v true 77#11) (.s 63#11)),
  ([0x0C000069#32, 0x101F1621#32, 0x080FC84D#32], .vmul ⟨.f16, ⟨false, false, 1#3⟩, ⟨33#8, 22#8⟩⟩ (.p 31#11) (.v true 77#11) (.s 63#11)),
  ([0x0C800129#32, 0x101F1621#32, 0x080FC84D#32], .vmin ⟨.bf16, ⟨false, false, 1#3⟩, ⟨33#8, 22#8⟩⟩ (.p 31#11) (.v true 77#11) (.s 63#11)),
  ([0x09000149#32, 0x101F1621#32, 0x080FC84D#32], .vmax ⟨.n32, ⟨false, false, 1#3⟩, ⟨33#8, 22#8⟩⟩ (.p 31#11) (.v true 77#11) (.s 63#11)),
  ([0x0A800189#32, 0x101F1621#32, 0x080FC84D#32], .vmulh ⟨.i16, ⟨false, false, 1#3⟩, ⟨33#8, 22#8⟩⟩ (.p 31#11) (.v true 77#11) (.s 63#11)),
  ([0x080001A9#32, 0x101F1621#32, 0x080FC84D#32], .vavg ⟨.n8, ⟨false, false, 1#3⟩, ⟨33#8, 22#8⟩⟩ (.p 31#11) (.v true 77#11) (.s 63#11)),
  ([0x0B0001C9#32, 0x101F1621#32, 0x080FC84D#32], .vabsd ⟨.i32, ⟨false, false, 1#3⟩, ⟨33#8, 22#8⟩⟩ (.p 31#11) (.v true 77#11) (.s 63#11)),
  ([0x0D8001E9#32, 0x101F1621#32, 0x080FC84D#32], .vand ⟨.nf, ⟨false, false, 1#3⟩, ⟨33#8, 22#8⟩⟩ (.p 31#11) (.v true 77#11) (.s 63#11)),
  ([0x09800209#32, 0x101F1621#32, 0x080FC84D#32], .vor ⟨.n64, ⟨false, false, 1#3⟩, ⟨33#8, 22#8⟩⟩ (.p 31#11) (.v true 77#11) (.s 63#11)),
  ([0x0B800229#32, 0x101F1621#32, 0x080FC84D#32], .vxor ⟨.i64, ⟨false, false, 1#3⟩, ⟨33#8, 22#8⟩⟩ (.p 31#11) (.v true 77#11) (.s 63#11)),
  ([0x08800249#32, 0x101F1621#32, 0x080FC84D#32], .vandn ⟨.n16, ⟨false, false, 1#3⟩, ⟨33#8, 22#8⟩⟩ (.p 31#11) (.v true 77#11) (.s 63#11)),
  ([0x08000289#32, 0x101F1621#32, 0x080FC84D#32], .vshl ⟨.n8, ⟨false, false, 1#3⟩, ⟨33#8, 22#8⟩⟩ (.p 31#11) (.v true 77#11) (.s 63#11)),
  ([0x0A8002A9#32, 0x101F1621#32, 0x080FC84D#32], .vshr ⟨.i16, ⟨false, false, 1#3⟩, ⟨33#8, 22#8⟩⟩ (.p 31#11) (.v true 77#11) (.s 63#11)),
  ([0x0B8002C9#32, 0x101F1621#32, 0x080FC84D#32], .vsra ⟨.i64, ⟨false, false, 1#3⟩, ⟨33#8, 22#8⟩⟩ (.p 31#11) (.v true 77#11) (.s 63#11)),
  ([0x0C000329#32, 0x101F1621#32, 0x080FC84D#32], .vcmpeq ⟨.f16, ⟨false, false, 1#3⟩, ⟨33#8, 22#8⟩⟩ (.p 31#11) (.v true 77#11) (.s 63#11)),
  ([0x0D000349#32, 0x101F1621#32, 0x080FC84D#32], .vcmpne ⟨.f32, ⟨false, false, 1#3⟩, ⟨33#8, 22#8⟩⟩ (.p 31#11) (.v true 77#11) (.s 63#11)),
  ([0x0A000369#32, 0x101F1621#32, 0x080FC84D#32], .vcmplt ⟨.i8, ⟨false, false, 1#3⟩, ⟨33#8, 22#8⟩⟩ (.p 31#11) (.v true 77#11) (.s 63#11)),
  ([0x09800389#32, 0x101F1621#32, 0x080FC84D#32], .vcmple ⟨.n64, ⟨false, false, 1#3⟩, ⟨33#8, 22#8⟩⟩ (.p 31#11) (.v true 77#11) (.s 63#11)),
  ([0x0D800569#32, 0x101F1621#32, 0x080FC84D#32], .vperm ⟨.nf, ⟨false, false, 1#3⟩, ⟨33#8, 22#8⟩⟩ (.p 31#11) (.v true 77#11) (.s 63#11)),
  ([0x0C800589#32, 0x101F1621#32, 0x080FC84D#32], .vrot ⟨.bf16, ⟨false, false, 1#3⟩, ⟨33#8, 22#8⟩⟩ (.p 31#11) (.v true 77#11) (.s 63#11)),
  ([0x080005C9#32, 0x101F1621#32, 0x080FC84D#32], .vcmpr ⟨.n8, ⟨false, false, 1#3⟩, ⟨33#8, 22#8⟩⟩ (.p 31#11) (.v true 77#11) (.s 63#11)),
  ([0x0D0005E9#32, 0x101F1621#32, 0x080FC84D#32], .vexpd ⟨.f32, ⟨false, false, 1#3⟩, ⟨33#8, 22#8⟩⟩ (.p 31#11) (.v true 77#11) (.s 63#11))]

theorem test_decode_arithmetic1 : wordsArithmetic1.all decodesTo = true := by decide +kernel

def wordsArithmetic2 : List (List Parcel × Instr) := [
  ([0x0A800689#32, 0x101F1621#32, 0x080FC84D#32], .vdup ⟨.i16, ⟨false, false, 1#3⟩, ⟨33#8, 22#8⟩⟩ (.p 31#11) (.v true 77#11) (.s 63#11)),
  ([0x5C000629#32, 0x101F1621#32, 0x080FC84D#32], .vnft ⟨.f16, ⟨false, true, 3#3⟩, ⟨33#8, 22#8⟩⟩ (.p 31#11) (.v true 77#11) (.s 63#11)),
  ([0x150000E9#32, 0x05FF1621#32, 0x00001005#32], .vneg ⟨.f32, ⟨false, false, 2#3⟩, ⟨33#8, 22#8⟩⟩ (.v false 1535#11) (.p 5#11)),
  ([0x12000109#32, 0x05FF1621#32, 0x00001005#32], .vabs ⟨.i8, ⟨false, false, 2#3⟩, ⟨33#8, 22#8⟩⟩ (.v false 1535#11) (.p 5#11)),
  ([0x15800269#32, 0x05FF1621#32, 0x00001005#32], .vnot ⟨.nf, ⟨false, false, 2#3⟩, ⟨33#8, 22#8⟩⟩ (.v false 1535#11) (.p 5#11)),
  ([0x110002E9#32, 0x05FF1621#32, 0x00001005#32], .vclz ⟨.n32, ⟨false, false, 2#3⟩, ⟨33#8, 22#8⟩⟩ (.v false 1535#11) (.p 5#11)),
  ([0x13800309#32, 0x05FF1621#32, 0x00001005#32], .vpopc ⟨.i64, ⟨false, false, 2#3⟩, ⟨33#8, 22#8⟩⟩ (.v false 1535#11) (.p 5#11)),
  ([0x14800409#32, 0x05FF1621#32, 0x00001005#32], .vrnd ⟨.bf16, ⟨false, false, 2#3⟩, ⟨33#8, 22#8⟩⟩ (.v false 1535#11) (.p 5#11)),
  ([0x14000429#32, 0x05FF1621#32, 0x00001005#32], .vexp ⟨.f16, ⟨false, false, 2#3⟩, ⟨33#8, 22#8⟩⟩ (.v false 1535#11) (.p 5#11)),
  ([0x15000449#32, 0x05FF1621#32, 0x00001005#32], .vlog ⟨.f32, ⟨false, false, 2#3⟩, ⟨33#8, 22#8⟩⟩ (.v false 1535#11) (.p 5#11)),
  ([0x14800469#32, 0x05FF1621#32, 0x00001005#32], .vrcp ⟨.bf16, ⟨false, false, 2#3⟩, ⟨33#8, 22#8⟩⟩ (.v false 1535#11) (.p 5#11)),
  ([0x14000489#32, 0x05FF1621#32, 0x00001005#32], .vrsqrt ⟨.f16, ⟨false, false, 2#3⟩, ⟨33#8, 22#8⟩⟩ (.v false 1535#11) (.p 5#11)),
  ([0x150004A9#32, 0x05FF1621#32, 0x00001005#32], .vtanh ⟨.f32, ⟨false, false, 2#3⟩, ⟨33#8, 22#8⟩⟩ (.v false 1535#11) (.p 5#11)),
  ([0x128004C9#32, 0x05FF1621#32, 0x00001005#32], .vredadd ⟨.i16, ⟨false, false, 2#3⟩, ⟨33#8, 22#8⟩⟩ (.v false 1535#11) (.p 5#11)),
  ([0x150004E9#32, 0x05FF1621#32, 0x00001005#32], .vredmax ⟨.f32, ⟨false, false, 2#3⟩, ⟨33#8, 22#8⟩⟩ (.v false 1535#11) (.p 5#11)),
  ([0x10000509#32, 0x05FF1621#32, 0x00001005#32], .vredmin ⟨.n8, ⟨false, false, 2#3⟩, ⟨33#8, 22#8⟩⟩ (.v false 1535#11) (.p 5#11)),
  ([0x10800669#32, 0x05FF1621#32, 0x00001005#32], .viota ⟨.n16, ⟨false, false, 2#3⟩, ⟨33#8, 22#8⟩⟩ (.v false 1535#11) (.p 5#11)),
  ([0x120006A9#32, 0x05FF1621#32, 0x00001005#32], .vcnt ⟨.i8, ⟨false, false, 2#3⟩, ⟨33#8, 22#8⟩⟩ (.v false 1535#11) (.p 5#11)),
  ([0x1D000649#32, 0x05FF1621#32, 0x0000203F#32], .vsplat ⟨.f32, ⟨false, false, 3#3⟩, ⟨33#8, 22#8⟩⟩ (.v false 1535#11) (.s 63#11)),
  ([0x2500008A#32, 0x05FF1621#32, 0x0401404D#32, 0x0000203F#32, 0x00000000#32, 0x00000000#32], .vfma ⟨.f32, ⟨false, false, 4#3⟩, ⟨33#8, 22#8⟩⟩ (.v false 1535#11) (.v false 77#11) (.p 5#11) (.s 63#11)),
  ([0x248000AA#32, 0x05FF1621#32, 0x0401404D#32, 0x0000203F#32, 0x00000000#32, 0x00000000#32], .vfms ⟨.bf16, ⟨false, false, 4#3⟩, ⟨33#8, 22#8⟩⟩ (.v false 1535#11) (.v false 77#11) (.p 5#11) (.s 63#11)),
  ([0x240000CA#32, 0x05FF1621#32, 0x0401404D#32, 0x0000203F#32, 0x00000000#32, 0x00000000#32], .vfnma ⟨.f16, ⟨false, false, 4#3⟩, ⟨33#8, 22#8⟩⟩ (.v false 1535#11) (.v false 77#11) (.p 5#11) (.s 63#11)),
  ([0x2200016A#32, 0x05FF1621#32, 0x0401404D#32, 0x0000203F#32, 0x00000000#32, 0x00000000#32], .vclamp ⟨.i8, ⟨false, false, 4#3⟩, ⟨33#8, 22#8⟩⟩ (.v false 1535#11) (.v false 77#11) (.p 5#11) (.s 63#11)),
  ([0x258003AA#32, 0x05FF1621#32, 0x0401404D#32, 0x0000203F#32, 0x00000000#32, 0x00000000#32], .vsel ⟨.nf, ⟨false, false, 4#3⟩, ⟨33#8, 22#8⟩⟩ (.v false 1535#11) (.v false 77#11) (.p 5#11) (.s 63#11))]

theorem test_decode_arithmetic2 : wordsArithmetic2.all decodesTo = true := by decide +kernel

def wordsArithmetic3 : List (List Parcel × Instr) := [
  ([0x208005AA#32, 0x05FF1621#32, 0x0401404D#32, 0x0000203F#32, 0x00000000#32, 0x00000000#32], .vshuf ⟨.n16, ⟨false, false, 4#3⟩, ⟨33#8, 22#8⟩⟩ (.v false 1535#11) (.v false 77#11) (.p 5#11) (.s 63#11)),
  ([0x000603C9#32, 0x101F1621#32, 0x080FC84D#32], .vmsk ⟨.n8, ⟨false, false, 0#3⟩, ⟨33#8, 22#8⟩⟩ .andn (.p 31#11) (.v true 77#11) (.s 63#11)),
  ([0x053203E9#32, 0x05FF1621#32, 0x00001005#32], .vcvt ⟨.f32, ⟨false, false, 0#3⟩, ⟨33#8, 22#8⟩⟩ 1#2 .bf16 (.v false 1535#11) (.p 5#11)),
  ([0x050C052A#32, 0x05FF1621#32, 0x0401404D#32, 0x00030000#32, 0x00000000#32, 0x00000000#32], .vscan ⟨.f32, ⟨false, false, 0#3⟩, ⟨33#8, 22#8⟩⟩ true .affine (.v false 1535#11) (.v false 12#11) (.v false 77#11) (.p 5#11)),
  ([0x0404054A#32, 0x05FF1621#32, 0x0401404D#32, 0x0003203F#32, 0x00000000#32, 0x00000000#32], .vscanc ⟨.f16, ⟨false, false, 0#3⟩, ⟨33#8, 22#8⟩⟩ .affine (.v false 1535#11) (.v false 12#11) (.v false 77#11) (.p 5#11) (.s 63#11)),
  ([0x0180060A#32, 0x101F1621#32, 0x080FC84D#32, 0x00000000#32, 0x00000040#32, 0x00000000#32], .vhash ⟨.n64, ⟨false, false, 0#3⟩, ⟨33#8, 22#8⟩⟩ 64#7 (.p 31#11) (.v true 77#11) (.s 63#11)),
  ([0x020006CA#32, 0x05FF1621#32, 0x0000004D#32, 0x0000203F#32, 0x000003FF#32, 0x03A6400B#32], .vbfx ⟨.i8, ⟨false, false, 0#3⟩, ⟨33#8, 22#8⟩⟩ 1023#10 0x03A6400B#32 (.v false 1535#11) (.v false 77#11) (.s 63#11))]

theorem test_decode_arithmetic3 : wordsArithmetic3.all decodesTo = true := by decide +kernel

def wordsMatrix : List (List Parcel × Instr) := [
  ([0xBD780011#32, 0x00006090#32, 0x00000000#32], .mmac ⟨0x90#8, 0x60#8⟩ .f32 3#2 6#3 5#3 3#2),
  ([0xA3780051#32, 0x00006090#32, 0x00000000#32], .mrot ⟨0x90#8, 0x60#8⟩ .i32 3#2 6#3 5#3 0#2),
  ([0xB5380032#32, 0x00006090#32, 0x00000000#32, 0x00000000#32, 0x0003D911#32, 0x00000000#32], .mmacs ⟨0x90#8, 0x60#8⟩ .f32 1#2 6#3 5#3 2#2 1#3 34#6 4#3 61#6),
  ([0xE3400072#32, 0x00006090#32, 0x0000203F#32, 0x000005FE#32, 0x00000000#32, 0x00000000#32], .mgx ⟨0x90#8, 0x60#8⟩ .i32 2#2 7#3 0#2 (.s 63#11) (.v false 1534#11)),
  ([0x0D400092#32, 0x00006090#32, 0x0800603F#32, 0x00000000#32, 0x00000040#32, 0x800100FF#32], .mgrp ⟨0x90#8, 0x60#8⟩ .f32 2#2 1#2 (.s 63#11) (.s 1#11) 64#7 255#8 0x8001#16),
  ([0x006800B1#32, 0x00006090#32, 0x00000000#32], .mchk ⟨0x90#8, 0x60#8⟩ .verify 3#2),
  ([0x000000D1#32, 0x00006090#32, 0x0000203F#32], .mshape ⟨0x90#8, 0x60#8⟩ (.s 63#11)),
  ([0x006000F1#32, 0x00006090#32, 0x00000000#32], .mzero ⟨0x90#8, 0x60#8⟩ 3#2),
  ([0x00600191#32, 0x00006090#32, 0x00000000#32], .mkeep ⟨0x90#8, 0x60#8⟩ 3#2),
  ([0xFCC00111#32, 0x203F6090#32, 0x00000000#32], .mdrain ⟨.bf16, ⟨true, true, 7#3⟩, ⟨144#8, 96#8⟩⟩ 2#2 (.s 63#11)),
  ([0x7D400131#32, 0x05FF6090#32, 0x0000203F#32], .mmov ⟨.f32, ⟨false, true, 7#3⟩, ⟨144#8, 96#8⟩⟩ 2#2 (.v false 1535#11) (.s 63#11)),
  ([0x80140151#32, 0x00006090#32, 0x080FD01F#32], .mfill ⟨0x90#8, 0x60#8⟩ true 5#3 (.p 31#11) (.s 63#11)),
  ([0x001C0171#32, 0x00006090#32, 0x00000000#32], .mrel ⟨0x90#8, 0x60#8⟩ 7#3),
  ([0x010401B1#32, 0x05FF6090#32, 0x0000203F#32], .mrd ⟨0x90#8, 0x60#8⟩ 1#3 (.v false 1535#11) (.s 63#11))]

theorem test_decode_matrix : wordsMatrix.all decodesTo = true := by decide +kernel


/-! ### Ill-formed terms -/

/-- A head of an L, A or W word: type, column bit, saturation, rounding code, and the tokens of an engine. -/
def hd (t : Ty) (rm : BitVec 3 := 0#3) (col : Bool := false) (tok : Tok := ⟨0#8, 0#8⟩) : VHead := ⟨t, ⟨col, false, rm⟩, tok⟩

def v1 : Opnd := .v false 1#11
def p1 : Opnd := .p 1#11
def s1 : Opnd := .s 1#11
def noTok : Tok := ⟨0#8, 0#8⟩

/-- R33, R173, R178, R183, R187, R188, R191, R193: a field or an index of a scalar or control word out of its limits. -/
def illScalar : List Instr := [
  .sext 3#2 1#6 2#6, .sextLong always 3#2 1#6 2#6, .shli 1#6 2#6 64#8, .shri 1#6 2#6 64#8, .srai 1#6 2#6 255#8,
  .shliLong always 1#6 2#6 64#32, .shriLong always 1#6 2#6 64#32, .sraiLong always 1#6 2#6 0xFFFFFFFF#32,
  .ld .f16 1#6 2#6 0#4, .st .nf 1#6 2#6 0#4, .ldg .f32 1#6 2#6 0#4, .stg .bf16 1#6 2#6 0#4,
  .ldLong always .nf 1#6 2#6 (.imm 0#32), .stLong always .f32 1#6 2#6 (.imm 0#32), .ldgLong always .f16 1#6 2#6 (.imm 0#32),
  .stgLong always .nf 1#6 2#6 (.imm 0#32), .fence 5#8, .trap 32#8, .ftst 1#4 4096#14, .fset 4096#14, .fclr 4096#14, .fwait 16383#14,
  .bLong 2#32, .bkLong false 1#4 1#32, .callLong 3#32, .loop 1#6 0#14, .loopi 4#32 0#12]

/-- R28, R29, R202, R212, R217, R219: a type, kind, index, modifier or token of a load or store that its entry does not admit. -/
def illMoves : List Instr := [
  .vld (hd .n8 5#3) v1 p1, .vld (hd .n8 6#3) v1 p1, .vld (hd .n8 0#3 true) v1 p1, .vld (hd .n8) (.v true 1#11) p1, .vld (hd .n8) v1 v1,
  .vld (hd .n8) (.v false 1536#11) p1, .vld (hd .n8) v1 (.p 32#11), .vld (hd .n8) v1 (.s 64#11), .vld (hd .n8 0#3 false ⟨1#8, 0#8⟩) v1 p1,
  .vld (hd .n8 0#3 false ⟨0#8, 2#8⟩) v1 p1, .vldx (hd .n8) v1 p1 p1, .vldx (hd .n8 0#3 true) v1 s1 v1, .vldb (hd .n8) 0#10 0#32 v1 p1 v1,
  .vldg (hd .n8 1#3) v1 s1, .vldg (hd .n8) v1 p1, .vldbc (hd .nf) v1 p1, .vlds (hd .n8 0#3 true) 0#10 0#32 v1 s1 s1,
  .vlds (hd .n8) 0#10 0#32 v1 p1 s1, .vpref (hd .n16) s1, .vpref (hd .n8 5#3) s1, .vpref (hd .n8) p1, .vldfl (hd .n8) v1 s1 (.v true 1#11),
  .vst (hd .n8) v1 v1, .vst (hd .n8) p1 p1]

def illStores : List Instr := [
  .vst (hd .n8 0#3 true) p1 v1, .vst (hd .n8 0#3 false ⟨1#8, 0#8⟩) p1 v1, .vstx (hd .n8) p1 v1 s1, .vstx (hd .n8 0#3 true) s1 v1 v1,
  .vstb (hd .n8) 0#10 0#32 p1 v1 p1, .vstg (hd .n8 7#3) s1 v1, .vstg (hd .n8) p1 v1, .vsts (hd .n8) 0#10 0#32 p1 v1 s1,
  .vstm (hd .n8) p1 v1 p1, .vstc (hd .n8) p1 s1 v1]

/-- R213, R222, R223, R226, R229 to R231: a type, slot, keyword or extension field of an A word that Table 9.5 does not admit. -/
def illArithmetic : List Instr := [
  .vmov (hd .n8 0#3 true) v1 p1, .vmov (hd .n8) s1 p1, .vmov (hd .n8 0#3 false ⟨2#8, 0#8⟩) v1 p1, .vadd (hd .nf) v1 v1 v1,
  .vfma (hd .n8) v1 v1 v1 v1, .vclamp (hd .nf) v1 v1 v1 v1, .vmulh (hd .f32) v1 v1 v1, .vavg (hd .nf) v1 v1 v1, .vand (hd .f16) v1 v1 v1,
  .vnot (hd .f32) v1 v1, .vshl (hd .f32) v1 v1 v1, .vclz (hd .nf) v1 v1, .vcmpeq (hd .nf) v1 v1 v1, .vsel (hd .n8) s1 v1 v1 v1,
  .vmsk (hd .n8) .not v1 v1 v1, .vmsk (hd .n8) .all v1 v1 Opnd.zero, .vcvt (hd .f32) 0#2 .nf v1 v1, .vcvt (hd .n64) 0#2 .n8 v1 v1,
  .vcvt (hd .f32) 2#2 .bf16 v1 v1, .vcvt (hd .nf) 0#2 .n8 v1 v1, .vrnd (hd .i32) v1 v1, .vexp (hd .nf) v1 v1, .vredadd (hd .nf) v1 v1]

def illArithmetic2 : List Instr := [
  .vscan (hd .n8) false .affine v1 v1 v1 v1, .vscan (hd .f32) false .add v1 v1 v1 Opnd.zero, .vscan (hd .f32) false .affine v1 s1 v1 v1,
  .vscan (hd .nf) false .add v1 Opnd.zero v1 Opnd.zero, .vscanc (hd .f32) .max v1 Opnd.zero v1 v1 v1, .vhash (hd .n16) 1#7 v1 v1 v1,
  .vhash (hd .n32) 0#7 v1 v1 v1, .vhash (hd .n32) 33#7 v1 v1 v1, .vhash (hd .n64) 65#7 v1 v1 v1, .vnft (hd .f32) v1 v1 v1,
  .vnft (hd .n8) v1 v1 s1, .vsplat (hd .f32) v1 v1, .viota (hd .f32) v1 s1, .vcnt (hd .f16) v1 v1, .vbfx (hd .n8) 0#10 0#32 v1 v1 v1,
  .vperm (hd .n8) v1 (.v false 2047#11) v1, .vbr .n8 .any noTok s1 0#32, .vbr .n8 .any noTok v1 2#32, .vbr .n8 .any ⟨2#8, 0#8⟩ v1 0#32]

/-- R246, R248, R252, R254, R255, R258 to R261: what Table 10.4 does not admit in an M word. -/
def illMatrix : List Instr := [
  .mmac noTok .f16 0#2 0#3 1#3 0#2, .mmac noTok .i32 0#2 0#3 1#3 1#2, .mmac ⟨1#8, 0#8⟩ .f32 0#2 0#3 1#3 0#2,
  .mmacs noTok .i32 0#2 0#3 1#3 0#2 2#3 0#6 3#3 0#6, .mmacs noTok .f32 0#2 0#3 1#3 0#2 0#3 0#6 3#3 0#6,
  .mmacs noTok .f32 0#2 0#3 1#3 0#2 1#3 0#6 3#3 0#6, .mmacs noTok .f32 0#2 0#3 1#3 0#2 2#3 0#6 0#3 0#6,
  .mmacs noTok .f32 0#2 0#3 1#3 0#2 2#3 0#6 1#3 0#6, .mgx noTok .f32 0#2 0#3 0#2 v1 v1, .mgx noTok .f32 0#2 0#3 0#2 s1 s1,
  .mgrp noTok .f32 0#2 0#2 s1 s1 0#7 0#8 1#16, .mgrp noTok .f32 0#2 0#2 s1 s1 65#7 0#8 1#16, .mgrp noTok .f32 0#2 0#2 v1 s1 1#7 0#8 1#16,
  .mchk noTok .on 1#2, .mshape noTok v1, .mdrain (hd .f32) 0#2 v1, .mmov (hd .n64) 0#2 v1 s1, .mmov (hd .nf) 0#2 v1 s1,
  .mmov (hd .f32) 0#2 v1 v1, .mfill noTok false 0#3 v1 s1, .mfill noTok false 0#3 p1 p1, .mrd noTok 2#3 v1 s1, .mrd noTok 0#3 v1 s1]

/-- A smoke test of every check of WellFormed.lean: each term breaks one of them, and is refused. -/
theorem test_illFormed_refused :
    (illScalar ++ illMoves ++ illStores ++ illArithmetic ++ illArithmetic2 ++ illMatrix).all (fun i => !wf i) = true := by decide +kernel

/-- R24: an ill-formed word is refused with the cause of the group of checks that it breaks. -/
theorem test_decode_causes :
    causeOf [3#32] = some 0x02#8 ∧ causeOf [w32 0#20 0x40#7 0#3] = some 0x01#8 ∧ causeOf [wlong 0#5 0#4 0#6 0#5 0x26#7 0#3 1#2] = some 0x03#8
      ∧ causeOf [w32 0#20 0x26#7 0#3] = none ∧ causeOf [w32 (hiI 64#8 0#6 0#6) 0x1C#7 0#3] = some 0x05#8
      ∧ causeOf [w32 (hiJ 4096#14 0#6) 0x3B#7 0#3] = some 0x06#8 ∧ causeOf [0x1#32 ||| w32 0#20 0x15#7 6#3, 1#32, 0#32] = some 0x07#8 := by
  decide +kernel


/-! ### The hypotheses of statements are met: steps and decoding

Each theorem `test_met_<Statement>` shows, clause by clause, states and operands that meet the hypotheses of the statement
Obligations.<Statement>. -/

/-- StepRunsInstruction, StepTakesTurn: `add s3, s1, s2` at the S PC, and the same word at the L PC, which steps over it. -/
theorem test_met_StepRunsInstruction :
    (let at_ (e : Eng) := { State.reset.withFetchWord 32 0x02043020 with agenda := [.walk (.pc 0 e)] }
     let h : Parcel := 0x02043020#32
     let i : Instr := .add 3#6 1#6 2#6
     let s0 := (at_ .S).startOf [] (.pc 0 .S)
     let w := (s0.cl 0).walk .S
     let r := heldParcel w.text s0.who loadTask w.pc s0
     let s1 := (got r).1.holdText w.pc [h]
     let s3 := s1.holdText w.pc [h]
     let u := (at_ .L).startOf [] (.pc 0 .L)
     [(s0.cl 0).task == some loadTask, w.pc < loadTask.image.textSize, okay r, (got r).2 == h,
      okay (heldParcels s1.selfText s0.who loadTask (parcelsOf (headLen h) - 1) 4 s1),
      (match decode [h] with | .ok j => j == i | .error _ => false), executes .S (headTag h), headLen h != 3#2, headTag h == .S,
      !straddles w 4, !slips (s0.cl 0) w 4, free s3 0 loadTask .S i, !meetsBadReg s3 i, okay (heldParcel [] u.who loadTask 0 u),
      !executes .L (headTag h), !headOrdered h, !slips (u.cl 0) (u.cl 0).wL 4]).all id = true := by
  decide +kernel

/-- StepRunsInstruction: an X instruction of a trailing PC, `b`, which the S PC has passed; `vbr` at the A PC. -/
theorem test_met_StepRunsInstruction_X :
    (let x := ({ State.reset.withFetchWord 32 0xFFFFF014 with agenda := [] }.modCl 0 fun x =>
      { x with wS := { x.wS with dp := 4 }, vbrAt := some 0 })
     let s0 := x.startOf [] (.pc 0 .A)
     let h : Parcel := 0xFFFFF014#32
     [okay (heldParcel [] s0.who loadTask 0 s0), headTag h == .X, headOpc h != 0x0B#7, (s0.cl 0).wA.dp < (s0.cl 0).wS.dp,
      free s0 0 loadTask .A (.b 0xFFFFF#20), (s0.cl 0).vbrAt == some (s0.cl 0).wA.dp, !slips (s0.cl 0) (s0.cl 0).wA 4]).all id = true := by
  decide +kernel

/-- StepRunsInstruction, of threads and cores: `kid s4` at thread 0, and `add` at a die manager core, each fetched from device memory. -/
theorem test_met_StepRunsInstruction_K :
    (let s0 := (State.reset.withFetchWord 32 0x0000413C).startOf [] (.rake 0 0)
     let u0 := ((State.reset.withFetchWord 32 0x02043020).modDie 0 fun d => { d with
      coreTask := some loadTask, core := { d.core with st := .ready }, tlb := [⟨1, 0, 29, loadLeaf⟩] }).startOf [] (.mgr 0)
     let i : Instr := .kid 4#6
     [((s0.cl 0).rake 0).st == .ready, okay (heldParcel [] s0.who loadTask 0 s0), headTag 0x0000413C#32 == .K,
      !heldBack s0 0 (some (agentNum s0)) (scalarAccess s0 s0.selfCtx 0 s0.rd s0.holds i), !meetsBadReg s0 i,
      (u0.die 0).core.st == .ready, okay (heldParcel [] u0.who loadTask 0 u0),
      !heldBack u0 u0.selfCl (some (agentNum u0)) (scalarAccess u0 u0.selfCtx u0.selfCl u0.rd u0.holds .nop)]).all id = true := by
  decide +kernel

/-- StepTakesTurn: turns of every kind, one of them for an agent that the package lacks. -/
theorem test_met_StepTakesTurn :
    ([!hasWalker (.pc 384 .S), !hasWalker (.mgr 4), !hasWalker (.rake 0 8), hasWalker (.pc 383 .M),
      (match step { loaded0 with agenda := [.walk (.pc 384 .S)] } with | .fault .noSuchAgent => true | _ => false),
      (after (step { loaded0 with agenda := [.event .nop] })).agenda == []]).all id = true := by
  decide +kernel

/-- DecoderAccepts: heads of the reserved length, and with an opcode that no table gives. -/
theorem test_met_DecoderAccepts :
    ([headLen (parcelAt [3#32] 0) == 3#2, headLen (parcelAt [0x00001000#32] 0) != 3#2,
      (opRows (headTag (parcelAt [0x00000800#32] 0))).all fun r => r.1 != headOpc (parcelAt [0x00000800#32] 0)]).all id = true := by
  decide +kernel

/-- StepKeepsMemoryForm: a state in the canonical form that lists memory of every kind. -/
theorem test_met_StepKeepsMemoryForm :
    (let s := loaded0.modCl 0 fun x => { x with sram := [(0, 1#8), (127, 255#8)] }
     let u := s.modDie 3 fun d => { d with pinned := [(0, 7#8)] }
     [Mem.wf u.hbm, u.clusters.all (fun e => Mem.wf e.2.sram), u.dies.all (fun e => Mem.wf e.2.pinned)]).all id = true := by
  decide +kernel


/-! ### The hypotheses are met: registers, scalar and control instructions -/

/-- The S PC with s1 = `a` and s2 = `b`. -/
def withRegs (a b : Word) (s : State := asPc .S) : State :=
  { s with clusters := s.clusters.map fun e => (e.1, { e.2 with sregs := [(1, a), (2, b)] }) }

/-- Nothing keeps a release back: every PC has come, and what they have passed is done. -/
def allHere (s : State) : Bool :=
  match s.actor with
  | .pc c .S => (s.cl c).gathered && settled s c
  | _ => true

/-- An instruction stays in its body (staysInBody). -/
def inBody (i : Instr) (s : State) : Bool :=
  match s.selfLoops with
  | [] => true
  | l :: _ => !(decide (l.start ≤ s.selfPc) && decide (s.selfPc < l.stop)) || decide (s.selfPc + lenOf i ≤ l.stop)

/-- Lines 0 and 511 of the scratchpad written, bytes 0 to 7 holding 0x81 to 0x88. -/
def bytes8 : State → State := fun s => { s with clusters := s.clusters.map fun e =>
  (e.1, { e.2 with written := [0, 511], sram := (List.range 8).map fun i => (i, BitVec.ofNat 8 (0x81 + i)) }) }

/-- RegistersWrite: each kind of agent with registers, and the first and the last register and predicate. -/
theorem test_met_RegistersWrite :
    ([(asPc .S).actor == .pc 0 .S, (asRake.wr 1#6 5#64).rd 1#6 == 5#64, (asMgr.wr 63#6 5#64).rd 63#6 == 5#64,
      (asRake.wrK 15#4 true).rdK 15#4, KMap.getD (((asPc .S).wr 63#6 5#64).cl 0).sregs 63 0#64 == 5#64]).all id = true := by
  decide +kernel

/-- Signature: entries within, at and beyond the end of the table, at a PC, a thread and a core. -/
theorem test_met_Signature :
    (let s := { (asPc .A fun x => { x with sigcnt := 2#64, sigtab := 0#64 }) with agenda := [] }
     let m := asMgr fun d => { d with coreTask := some { loadTask with image := { loadImage with sigCnt := 1 } }, tlb := [⟨1, 0, 29, loadLeaf⟩] }
     [sigCount s == 2, inBody (.sigchk 1#20) s, (s.place ((s.cl 0).sigtab + BitVec.ofNat 64 (32 + 4 * sigWordIdx s)) 4).isOk,
      !away s s.selfCtx 0, inBanks (s.cl 0) 40, !owedLine (s.cl 0) 0, (rowsEcc 0 [0] s).isSome, sigCount m == 1,
      okay (vaRead m.who 0 4 m), causeNow (exec (.sigchk 2#20) (bare s)) == some 0x06#8]).all id = true := by
  decide +kernel

/-- ScalarArithmetic, PredicateInstructions, ScalarFrame: predicates that hold and that do not, the last shift count. -/
theorem test_met_ScalarArithmetic :
    (let s := asPc .S
     [s.holds ⟨false, 0#4⟩, !s.holds ⟨true, 0#4⟩, s.holds ⟨true, 15#4⟩,
      predOf (.addLong ⟨true, 0#4⟩ 1#6 2#6 (.imm 0#32)) == some ⟨true, 0#4⟩, (63#8 : BitVec 8).toNat < 64,
      regResult (.li 1#6 0#14) == some 1#6, predResult (.kset 1#6) == some 0xFFFE#16, aluRows.length == 20,
      unaryRows.length == 5, immRows.length == 7, cmpRows.length == 6]).all id = true := by
  decide +kernel

/-- PredicateInstructions: `lcoord` and `acoord` at clusters 0 and 383, offsets at the limits of `DX` and `DY`, numbers at and beyond the last. -/
theorem test_met_CoordinateInstructions :
    (let s := withRegs 0#64 383#64
     [s.selfCl == clusterId 0 0 0, (s.rd 2#6).toNat == clusterId 3 7 11, 383 < (s.rdRI (.imm 384#32)).toNat,
      causeNow (exec (.nearadLong always 3#6 1#6 (.imm 0xF9F5#32)) (bare s)) == none,
      causeNow (exec (.nearadLong always 3#6 1#6 (.imm 0x080B#32)) (bare s)) == some 0x24#8]).all id = true := by
  decide +kernel

/-- ScalarLoads, ScalarStores: the last word below the flag array, the first and the last flag, device memory with L1 and
without, and a line whose errors its codes cannot correct. -/
theorem test_met_ScalarLoads :
    (let s := bytes8 (withRegs 0x3FFFF8#64 0x30FFFC#64)
     let ok (s : State) (a n : Nat) : Bool := match s.place (BitVec.ofNat 64 a) n with
       | .ok q => q.1 == 0 && q.2 == a && !away s s.selfCtx 0 && !owedLine (s.cl 0) (q.2 / 128)
       | .error _ => false
     let bad := asPc .S fun x => { x with bad := [0, 1, 1024 * 2, 1024 * 2 + 1] }
     let w : Who := { s.who with wide := true }
     let x (s : State) (wr : Bool) := translate w 8 wr false s
     let c := asPc .S fun x => { x with tlb := [⟨1, 0, 29, 0x02C0000000000007#64⟩], l1 := [⟨0, List.replicate 128 1#8⟩] }
     [ok s 0 8, ok s 0xFFF8 8, inBanks (s.cl 0) 0xFFF8, (rowsEcc 0 [0] s).isSome, ok s 0x300000 4, ok s 0x303FFC 4,
      (rowsEcc 0 [0] bad).isNone, !heartwood s 0 0,
      (reaches (x s false) fun s1 y => y.tgt == .dev 8 && !y.chk && !y.cache && (sectorCause s1 8 8).isNone),
      (reaches (x s true) fun s1 y => y.tgt == .dev 8 && !y.chk && (mergeCause s1 8 8).isNone),
      (reaches (x c false) fun s1 y => y.tgt == .dev 8 && y.cache && ((s1.cl 0).l1.find? fun l => l.line == 0).isSome)]).all id = true := by
  decide +kernel

/-- AccessTraps: an address outside the grid, a misaligned one, an offset that nothing covers; virtual addresses above the
limit, misaligned, and unmapped. -/
theorem test_met_AccessTraps :
    (let s := asPc .S
     let w : Who := { s.who with wide := true }
     [(s.place 0x80000000#64 8 matches .error 0x24#8), (s.place 4#64 8 matches .error 0x28#8),
      (s.place 0x304000#64 8 matches .ok (0, 0x304000)), !inBanks (s.cl 0) 0x304000, !inFlags 0x304000, !inKick 0x304000,
      bits (2 ^ 48) 63 48 != 0, bits (2 ^ 48 - 8) 63 48 == 0,
      (match translate w (2 ^ 40) false false s with | .error e => e == 0x20#8 | .ok _ => false)]).all id = true := by
  decide +kernel

/-- A loop of 8 bytes at offset 0, of 3 passes. -/
def inLoop (e : Eng) : State := asPc e fun x =>
  x.setWalk e { x.walk e with loops := [⟨3, 0, 8⟩], pc := 4, dp := 4 }

/-- Branches, HardwareLoops, LoopExit: targets at the last place of the text and beyond it, in a body and out of it; trip
counts 0, 1, 2^32 - 1 and 2^32; none, four and fewer open loops; what S decides and what another PC takes. -/
theorem test_met_Branches :
    (let s := inLoop .S
     let t := (asPc .A fun x => { x with outcomes := [⟨0, .taken true⟩] })
     let u (o : BrOut) := (asPc .A fun x => { x with outcomes := [⟨0, o⟩] })
     [!leavesBody s 0, !leavesBody s 8, leavesBody s 12, s.textSize == 4096, inBody (.b 0#20) s, !inBody (.bLong 0#32) s,
      (asPc .S).decides, !(t.decides), t.posted == some (.taken true), (asPc .S).takes false 0#4 == some true,
      ((asPc .S).cl 0).outcomes.length < 16, (asPc .S).selfPc + 4 * 1023 == 4092,
      (u (.target 4092)).posted == some (.target 4092), (u (.count 0)).posted == some (.count 0),
      ((withRegs (2 ^ 32) (2 ^ 32 - 1)).rd 1#6).toNat == 4294967296, s.selfLoops.length == 1, (asPc .S).selfLoops == [],
      s.takes true 0#4 == some false, inBody (.lexit false 0#4) s,
      ((asPc .S fun x => { x with wS := { x.wS with loops := List.replicate 4 ⟨2, 0, 8⟩ } }).selfLoops.length == 4)]).all id = true := by
  decide +kernel

/-- FencesAndHalt, FlagsAndBarrier: every PC here or not, writes acknowledged or not; a task that may end; the first and the
last flag, set and clear; before, at and after a barrier. -/
theorem test_met_FencesAndHalt :
    (let s := asPc .S fun x => { x with rakes := [] }
     let late := asPc .S fun x => { x with wS := { x.wS with pc := 4, dp := 4 } }
     let f := asPc .S fun x => { x with flags := 1#4096 ||| 1#4096 <<< 4095 }
     [allHere s, !((late.cl 0).gathered && settled late 0), (s.cl 0).writeAcks == 0, mayEnd s 0, inBody .meet s,
      inBody (.bar 1#6) s, (asRake.cl 0).rakes.length == 1, asMgr.selfTask.isSome, (f.cl 0).flags.getLsbD 0,
      (f.cl 0).flags.getLsbD 4095, !(f.cl 0).flags.getLsbD 1, !(s.cl 0).released, !(s.cl 0).arrived,
      ((asPc .S fun x => { x with arrived := true, released := true }).cl 0).released]).all id = true := by
  decide +kernel

/-- SoftwareTrap: the last software cause and the first number beyond it. -/
theorem test_met_SoftwareTrap :
    causeNow (exec (.trap 31#8) (bare (asPc .S))) = some 0xFF#8 ∧ wf (.trap 32#8) = false := by
  decide +kernel


/-- A windrow descriptor for handle 4095 of context 1: 16 slots at DPA 0x20000, home die 0. -/
def rowState (k : Windrow) (e : Eng := .S) : State :=
  { asPc e fun x => { x with sregs := [(1, 4095#64), (2, 0x7FFFFFFFFFFFFFFF#64), (3, 4096#64), (4, 0x8000000000000000#64)] } with
    windrows := [(4096 + 4095, k)]
    contexts := [(1, { loadContext with wlbase := 0x40000 })]
    dies := [(0, { Die.reset with tlb := [⟨1, 0, 29, loadLeaf⟩] })]
    hbm := Mem.write [] (0x40000 + 16 * 4095) (natLe 8 (1 + 4 * 2 ^ 59) ++ natLe 8 0x20000) }

/-- WindrowItems: the last handle and the first beyond it, items with bit 63 clear and set, a windrow that is empty, that
has room, and that is full. -/
theorem test_met_WindrowItems :
    (let s := rowState Windrow.reset
     let full := rowState { Windrow.reset with tail := 16#32 }
     let w := gotOr (s, ⟨0, 0, 0⟩) (wlDesc 1 0 1 4095 s)
     let one := rowState { Windrow.reset with tail := 1#32 }
     [allHere s, (s.rd 1#6).toNat == 4095, 4095 < (s.rd 3#6).toNat, !(s.rd 2#6).getLsbD 63, (s.rd 4#6).getLsbD 63,
      okay (wlDesc 1 0 1 4095 s), w.2.cap == 16, !appendBusy w.1 1 4095 0, (full.windrow 1 4095).held == 16,
      slotReach (dieWho 1 0 1) (w.2.slot 0#32) w.1, okay (vaSyncWrite (dieWho 1 0 1) (w.2.slot 0#32) (natLe 8 5) w.1),
      (s.windrow 1 4095).held == 0, (one.finishItem.windrow 1 4095).held == 1,
      okay (vaSyncRead (dieWho 1 0 1) (w.2.slot 0#32) 8 one.finishItem)]).all id = true := by
  decide +kernel

/-- Thread 0 with s1 = `a`, s2 = `b`, bound to ring `k` of 4 lines from offset 0x1000, with `n` lines in it. -/
def ringState (a b : Word) (k n : Nat) : State :=
  asRake fun x => { x.setRake 0 { x.rake 0 with regs := [(1, a), (2, b)] } with
    rings := [(k, ⟨BitVec.ofNat 64 (0x1000 + 2 ^ 24 * 2), 0, 0#32, BitVec.ofNat 32 n⟩)]
    written := [0, 32], sram := Mem.write [] 0x1000 (natLe 8 8) }

/-- RingReceives, RingSends, ThreadInstructions: the last ring, empty and not, an advance of what it holds and of more, a
descriptor of none; threads 0 to 7 and the first number beyond them; a wake flag set and not. -/
theorem test_met_RingReceives :
    (let s (n : Nat) := ringState 15#64 1#64 15 n
     let own (s : State) := (s.rd 1#6).toNat == 15 && ((s.cl 0).ring 15).desc != 0#64 && ((s.cl 0).ring 15).owner == agentNum s
     let x := (s 0).cl 0
     [own (s 0), own (s 1), (s 0).holds always, ((s 1).unpadded 15).held == 1, ((s 0).unpadded 15).held == 0, (s 1).recvtLeft 0 == 0,
      (s 1).recvtLeft 1 == 1, ((s 1).rd 2#6).toNat ≤ ((s 1).unpadded 15).held, ((s 0).unpadded 15).held < ((s 0).rd 2#6).toNat,
      ringDescOk x (0x1000 + 2 ^ 24 * 2), ((ringState 16#64 0#64 15 0).rd 1#6).toNat == 16,
      ((asRake fun y => y.setRake 0 { y.rake 0 with wake := true }).cl 0 |>.rake 0).wake, ((s 0).selfItem).isNone]).all id = true := by
  decide +kernel

/-- RingSends: a message of 8 bytes to the sender's own cluster, ring 1 bound or not, with room, without, and too small; the
message of 1,024 bytes. -/
theorem test_met_RingSends :
    (let s (n : Nat) := ringState 0x1000#64 0x10000#64 1 n
     let x := (s 0).cl 0
     let out (s : State) (n : Nat) := (ringDeliver 0 1 (List.replicate n 1#8) s).2
     [((s 0).place ((s 0).rd 1#6) 128).isOk, msgLen x 0x1000 == 8, bits 0x10000 15 9 == 0, bits 0x10000 19 16 == 1, inBanks x 0x1000,
      inBanks x 0x1007, !owedLine x 32, x.bad == [], x.inbox == [], out (s 0) 8 == .delivered, out (s 4) 8 == .noRoom,
      out (s 0) 1024 == .tooLarge, (ringDeliver 0 2 [1#8] (s 0)).2 == .unbound, (s 0).spilled == [],
      (x.ring 1).tail.toNat % (x.ring 1).lines + msgLines 512 ≤ (x.ring 1).lines,
      (linesOf ((x.ring 1).at (x.ring 1).tail) 512).all fun l => !owedLine x l]).all id = true := by
  decide +kernel

/-- ControlRegisterReads, ControlRegisterWrites: registers of each kind, values that keep the layout and that break it, at
user and at supervisor level. -/
theorem test_met_ControlRegisters :
    (let s := asPc .S
     let m := asMgr
     let sup : State := { loaded0.modCl 0 fun x => { x with task := some { loadTask with priv := true } } with actor := .pc 0 .S }
     [(clusterReg s 0 0x030).isSome, quietReg 0x030 == false || allHere s, (clusterReg s 0 0x100).isNone, (supRead s 0 0x400).isSome,
      s.atUser, !sup.atUser, (clusterReg s 0 0x3FFF).isNone && (supRead s 0 0x3FFF).isNone, ownerOf (ptrVal (s.cl 0) 31 0) == none,
      clusterWritable 0x033, clusterFits 0x033 0x1000, !clusterFits 0x033 (2 ^ 40), clusterWritable 0x000, !clusterFits 0x000 (2 ^ 63),
      !clusterWritable 0x035 && (clusterReg s 0 0x035).isSome, m.selfTask.isSome && (clusterReg m m.selfCl 0x030).isSome,
      okay (supWrite 0 0x7FF 0#64 sup), supFits 0x7FF 0, supFits 0x106 0, supFits 0x187 0, supReadOnly 0x105,
      !okay (supWrite 0 0x105 1#64 sup)]).all id = true := by
  decide +kernel

/-- TrapEntry, EveryStepAnswers: a PC, a thread and a core of a task at user level. -/
theorem test_met_TrapEntry :
    ([loadTask.priv == false, (asPc .M).selfTask == some loadTask, asRake.selfTask == some loadTask, asMgr.actor == .mgr 0,
      (((bare (asPc .M)).raise 0x28#8 5#64).cl 0).task.map (·.state) == some .trapped]).all id = true := by
  decide +kernel

/-! ### The hypotheses are met: vectors -/

/-- The halfwords of a pattern line of one field of 8 bits every 8 bits (R68). -/
def patternBytes : List Byte := [7#8, 0#8, 0#8, 7#8]

/-- Engine `e` with p1 at 0x4000 and p2 at a pattern line at 0x80, its own; s1 the address 0x4000, s2 the pattern's, s3 of device
memory; s4 the number 4095. -/
def vecState (e : Eng) (f : Cluster → Cluster := id) : State :=
  asPc e fun x => f { x with
    sregs := [(1, 0x4000#64), (2, 0x80#64), (3, 0x10000#64), (4, 4095#64)]
    ptrs := [(1, [(0, BitVec.ofNat 64 (engNum e * 2 ^ 61 + 0x4000))]), (2, [(0, BitVec.ofNat 64 (engNum e * 2 ^ 61 + 0x80))])]
    written := [1, 128], sram := Mem.write [] 0x80 patternBytes }



/-- VectorOperands: plain names 0 and 1535, one in error; a queue name with a value and without, at its producer, its consumer and
another engine; pointers owned and not; runs of 16-bit slots in rows and columns, owed lines, and a raw run. -/
theorem test_met_VectorOperands :
    (let q (e : Eng) (l : List Vec) := vecState e fun x => { x with
       vshp := [(0, BitVec.ofNat 64 (2 ^ 63 + 3 * 2 ^ 32 + 3 * 2 ^ 16 + 2 ^ 12 + 1 * 2 ^ 9 + 2 * 2 ^ 6))], vqueues := [(3, l)], nameBad := [7] }
     let s := vecState .A
     let x := s.cl 0
     let p : Spot := ⟨0, 0x4000, false, 0x4000#64⟩
     let raw := vecState .A fun x => { x with bfmt := [(0, 11#64)] }
     let owed := vecState .A fun x => { x with owed := [(128, 1)] }
     let sh (e : Eng) := (shapeOf ((q e []).cl 0) 3).getD 0
     [shapeOf x 0 == none, shapeCons (sh .A) == engNum .A, shapeProd (sh .L) == engNum .L, shapeDepth (sh .L) == 2,
      KMap.getD ((q .A [5#1024]).cl 0).vqueues 3 [] == [5#1024], shapeOf x 1535 == none, x.nameBad == [], (q .A []).cl 0 |>.nameBad.contains 7, s.widthAt p == 16,
      bits (ptrVal x 1 0) 63 61 == engNum .A, bits (ptrVal ((vecState .L).cl 0) 1 0) 63 61 != engNum .A, bits (ptrVal x 5 0) 63 61 == 0,
      p.off % min 128 128 == 0, p.off / 8192 == (p.off + 127) / 8192, !owedLine x 128, owedLine (owed.cl 0) 128, Ty.bf16.lanes == 64,
      bits p.off 12 7 == 0, (blockLines p.off).all fun l => !owedLine x l, bits (raw.wordAt p) 3 0 == 11, !Ty.bf16.isN, Ty.nf.isN,
      !away s 1 0]).all id = true := by
  decide +kernel

/-- LaneArithmetic, LaneReductions, LaneMoves: every form completes on sources that can be read and a destination that can be
written, which the actions of the hypotheses show for one of them. -/
theorem test_met_LaneArithmetic :
    (let s := vecState .A
     let r := s.round (head .bf16)
     let h := head .bf16
     [okay ((do popTokens .A 0#8; let vs ← readSrcs .bf16 r [(.lanes, name 1), (.lanes, ptr 1)]; writeDst .bf16 r .lanes (name 3) (src vs 0)) s),
      !twicePointer [name 3, name 1, ptr 1],
      lane1Rows.all fun w => completes s (w.form h (name 3) (name 1)),
      lane2Rows.all fun w => completes s (w.form h (name 3) (name 1) (name 2)),
      lane3Rows.all fun w => completes s (w.form h (name 3) (name 1) (name 2) (name 4)),
      laneTests.all fun w => completes s (w.form h (name 3) (name 1) (name 2)),
      completes s (.vhash (head .n32) 32#7 (name 3) (name 1) (name 2)),
      completes s (.vsel h (name 3) (name 1) (name 2) (name 4)),
      [MaskOp.and, .or, .xor, .andn, .not, .first, .all, .none].all fun k => completes s (.vmsk h k (name 3) (name 1) (name 2)),
      completes s (.vcnt h (name 3) (name 1))]).all id = true := by
  decide +kernel

theorem test_met_LaneReductions :
    (let s := vecState .A
     let h := head .bf16
     [completes s (.vredadd h (name 3) (name 1)), completes s (.vredmax h (name 3) (name 1)), completes s (.vredmin h (name 3) (name 1)),
      [ScanOp.add, .max, .affine].all fun k => completes s (.vscan h true k (name 3) (name 5) (name 1) (name 2)),
      [ScanOp.add, .max, .affine].all fun k => completes s (.vscan h false k (name 3) (name 5) (name 1) (name 2)),
      [ScanOp.add, .max, .affine].all fun k => completes s (.vscanc h k (name 3) (name 5) (name 1) (name 2) (name 4))]).all id = true := by
  decide +kernel

theorem test_met_LaneMoves :
    (let s := vecState .A
     let h := head .n32
     [completes s (.vperm h (name 3) (name 1) (name 2)), completes s (.vrot h (name 3) (name 1) (name 2)),
      completes s (.vdup h (name 3) (name 1) (name 2)), completes s (.vshuf h (name 3) (name 1) (name 2) (name 4)),
      completes s (.viota h (name 3) (name 1)), completes s (.vcmpr h (name 3) (name 1) (name 2)),
      completes s (.vexpd h (name 3) (name 1) (name 2)), completes s (.vcvt (head .f32) 1#2 .bf16 (name 3) (name 1)),
      completes s (.vcvt (head .f32) 1#2 .bf16 (name 3) (ptr 1)),
      completes s (.vnft (head .f32) (name 3) (name 1) (sreg 4))]).all id = true := by
  decide +kernel

/-- ScratchpadVectors: each form at an aligned place in a bank of 16-bit slots, by a pointer or a coordinate address. -/
theorem test_met_ScratchpadVectors :
    (let s (e : Eng) := vecState e
     let h := head .bf16
     let r := (s .L).round h
     let loads : Act Unit := do
       popTokens .L 0#8
       let v ← readRun .bf16 r (← spotOf (ptr 1) false (asMis .bf16 .lanes))
       stepPointer (ptr 1)
       writeDst .bf16 r .lanes (name 3) v
     [okay (loads (s .L)),
      completes (s .L) (.vld h (name 3) (ptr 1)), completes (s .L) (.vld h (name 3) (sreg 1)), completes (s .W) (.vst h (ptr 1) (name 3)),
      completes (s .L) (.vldbc h (name 3) (ptr 1)), completes (s .L) (.vldx h (name 3) (sreg 1) (name 1)),
      completes (s .W) (.vstx h (sreg 1) (name 3) (name 1)), completes (s .W) (.vstm h (ptr 1) (name 3) (name 1)),
      completes (s .W) (.vstc h (ptr 1) (name 3) (name 1))]).all id = true := by
  decide +kernel

/-- DeviceVectors, BitFields: a device line through an unchecked page, an address that `vldfl` suppresses, a pattern line that
fits. -/
theorem test_met_DeviceVectors :
    (let s (e : Eng) := vecState e
     let h := head .n16
     let far (e : Eng) := vecState e fun x => { x with sregs := [(3, 0x10000000000#64)] }
     [okay (lineTarget 0x10000#64 false (s .L)), completes (s .L) (.vldg h (name 3) (sreg 3)), completes (s .W) (.vstg h (sreg 3) (name 1)),
      completes (s .L) (.vldfl h (name 3) (sreg 3) (name 5)), completes (far .L) (.vldfl h (name 3) (sreg 3) (name 5)),
      completes (s .L) (.vpref h (sreg 3)), completes (far .L) (.vpref h (sreg 3)),
      okay ((do let q ← readPattern (ptr 2); (if q.fits 0 64 1024 then pure () else trap 0x09#8)) (s .A)),
      completes (s .A) (.vbfx h 0#10 0#32 (name 3) (name 1) (ptr 2)), completes (s .L) (.vldb h 0#10 0#32 (name 3) (ptr 1) (ptr 2)),
      completes (s .W) (.vstb h 0#10 0#32 (ptr 1) (name 1) (ptr 2)), completes (s .L) (.vlds h 0#10 0#32 (name 3) (sreg 3) (ptr 2)),
      completes (s .W) (.vsts h 0#10 0#32 (sreg 3) (name 1) (ptr 2))]).all id = true := by
  decide +kernel

/-- VectorBranch: the S PC before and after the A PC has decided, the A PC, and another PC with and without its token. -/
theorem test_met_VectorBranch :
    (let i : Instr := .vbr .n16 .any noTok0 (name 1) 24#32
     let sent (e : Eng) := vecState e fun x => x.setWalk e { x.walk e with steer := [(0, 24)] }
     [((sent .L).cl 0).wL.token == some 24, ((vecState .L).cl 0).wL.token == none, !leavesBody (vecState .S) 24, 24 < (vecState .S).textSize,
      ((vecState .A).cl 0).outcomes == [], okay (readSrc .n16 (roundOf (vecState .A) 0#3 false) .mask (name 1) (vecState .A)),
      ((after (exec i (vecState .S))).cl 0).vbrAt == some 0, ((after (exec i (sent .L))).cl 0).wL.pc == 24,
      ((after (exec i (vecState .A))).cl 0).wA.pc == 12]).all id = true := by
  decide +kernel


/-! ### The hypotheses are met: matrices -/

/-- The M PC of cluster 0 with a grove of its home tile alone, whose slabs 0 to 5 are full, 2 and 3 of E4M3 and the others of
BF16, slab 6 free and slab 7 owed in its first line; `f` changes the cluster, `h` the tile. s1 a shape descriptor of the home
tile and the one to its right, s2 the index of tile 0, s3 the place of a block, s4 beyond the grove, s5 above any index. -/
def groveState (f : Cluster → Cluster := id) (h : Tile → Tile := id) : State :=
  State.modTile (asPc .M fun x => f { x with
    grove := ⟨0, 0, 1, 1, 15#4, 0#4, false⟩
    sregs := [(1, BitVec.ofNat 64 (1 * 2 ^ 11 + 2 * 2 ^ 14)), (3, 0x4000#64), (4, 1#64), (5, 1024#64)] }) 0 0 fun t => h { t with
    owner := some 0
    states := (List.range 384).map (fun k => (k, SlabLine.full)) ++ [(448, .owed)]
    tags := [(2, BitVec.ofNat 64 (11 + 3 * 2 ^ 13 + 4 * 2 ^ 17 + 2 ^ 21 + 7 * 2 ^ 24)), (3, BitVec.ofNat 64 (11 + 3 * 2 ^ 13 + 4 * 2 ^ 17 + 2 ^ 21 + 7 * 2 ^ 24))] }

/-- MatrixProducts: the steps of each of the five can be taken, with whole slabs of 16 and of 8 bits, scales, gathered lines and
one bin of one token; no step is done, no sum and no element in error; and one in error. -/
theorem test_met_MatrixProducts :
    (let s := groveState
     let t := s.tile 0 0
     let far := groveState fun x => { x with vnames := [(0, 1#1024)] }
     let table := groveState fun x => { x with written := [128], sram := Mem.write [] 0x4000 (natLe 8 1), sregs := [(1, 0x4000#64), (2, 0x8000#64)] }
     let bin := table.modDie 0 fun d => { d with rpol := [(0, BitVec.ofNat 64 (2 ^ 62 + 0xA000))] }
     let steps (a : Act (List MStep)) (s : State) : Nat := match a s with | .ok (l, _) => l.length | .error _ => 999
     [steps (mmacSteps .f32 0#2 0#3 1#3 0#2 none) s == 1, steps (mmacSteps .f32 3#2 2#3 3#3 3#2 none) s == 2,
      steps (mmacSteps .f32 0#2 2#3 3#3 0#2 (some (4, 60, 5, 60))) s == 2, steps (mrotSteps .f32 0#2 0#3 1#3 0#2) s == 1,
      steps (mgxSteps .f32 0#2 1#3 0#2 (.s 3#11) (.v false 0#11)) far == 1,
      steps (mgrpSteps .f32 0#2 0#2 (.s 1#11) (.s 2#11) 1#7 0#8 0#16) bin == 1,
      (s.cl 0).progress == none, s.myTiles.all fun t => t.accBad == [] && !t.upset,
      (groveState id fun t => { t with accBad := [4095] }).myTiles.any fun t => t.accBad.any fun e => e / 4096 == 0,
      ((groveState fun x => { x with grove := { x.grove with checked := true } }).cl 0).grove.checked,
      (groveState id fun t => { t with upset := true }).myTiles.any fun t => t.upset,
      (List.range 64).all fun n => t.state 0 n == .full && t.state 5 n == .full, t.lineBad == [], wordAdmitted (t.tag 0), wordAdmitted (t.tag 2),
      !wordInt (t.tag 2), slotBits (t.tag 2) == 8, slotBits (t.tag 1) == 16, bits (t.tag 4) 3 0 == 9, 60 + 2 * stepsOf 8 ≤ 64,
      (List.range 64).all fun i => match gatherAddr 0x4000 (KMap.getD (far.cl 0).vnames 0 0#1024) i with
        | none => false
        | some a => match lineAt far a with
          | .ok (c, off, w) => !owedLine (far.cl c) (off / 128) && wordAdmitted w && slotBits w == 16 && !wordInt w
          | .error _ => false]).all id = true := by
  decide +kernel

/-- MatrixSets: with and without a grove, a slab with an owed line and one without; the shape and a policy entry of `mrd`. -/
theorem test_met_MatrixSets :
    (let s := groveState
     let t := s.tile 0 0
     let none_ := asPc .M
     let tok := noTok0
     let ends (i : Instr) : Bool := completes s i
     [(none_.cl 0).grove.h == 0, (s.cl 0).grove.tiles == [0], okay (popTokens .M tok.pop s),
      [ChkOp.on, .off].all fun op => ends (.mchk tok op 3#2), ends (.mkeep tok 3#2), ends (.mzero tok 3#2), ends (.mrel tok 6#3), ends (.mrel tok 0#3),
      t.state 7 0 == .owed, (List.range 64).all fun n => t.state 6 n != .owed, !completes s (.mrel tok 7#3),
      ends (.mrd tok 0#3 (.v false 1535#11) (.s 0#11)), ends (.mrd tok 1#3 (.v false 0#11) (.s 4#11)), ends (.mrd tok 1#3 (.v false 0#11) (.s 0#11)),
      completes none_ (.mrd tok 0#3 (.v false 0#11) (.s 0#11)), causeNow (exec (.mkeep tok 0#2) (bare none_)) == some 0x12#8,
      causeNow (exec (.mchk tok .verify 3#2) (bare none_)) == some 0x12#8]).all id = true := by
  decide +kernel

/-- The checksum cells that a set of zeros gives are all zero. -/
theorem zero_cells (t : Tile) (n : Nat) (int : Bool) (h : t.acc = []) :
    (t.writeSet n int (t.elem n)).cells = spliceMap t.cells (128 * n) (128 * n + 128) [] := by
  have add : ∀ a b : Machine.Dyadic, a.m = 0 → b.m = 0 → (a.add b).m = 0 := fun a b p q => by simp [Machine.Dyadic.add, p, q]
  have sum : ∀ (g : Nat → Machine.Dyadic), (∀ k, (g k).m = 0) → ∀ (l : List Nat) (a : Machine.Dyadic), a.m = 0 →
      (l.foldl (fun x k => x.add (g k)) a).m = 0 := by
    intro g p l
    induction l with
    | nil => exact fun _ q => q
    | cons k l ih => exact fun a q => ih _ (add _ _ q (p k))
  have cells : ∀ v : List Machine.Dyadic, (∀ k, (v.getD k ⟨0, 0⟩).m = 0) →
      ((List.range 128).map fun k => (128 * n + k,
        if k < 64 then (List.range 64).foldl (fun (a : Machine.Dyadic) j => a.add (v.getD (64 * k + j) ⟨0, 0⟩)) ⟨0, 0⟩
        else (List.range 64).foldl (fun (a : Machine.Dyadic) i => a.add (v.getD (64 * i + (k - 64)) ⟨0, 0⟩)) ⟨0, 0⟩)).filter
          (fun e => e.2.m != 0) = [] := by
    intro v z
    refine List.filter_eq_nil_iff.2 fun x hx => ?_
    obtain ⟨k, -, rfl⟩ := List.mem_map.1 hx
    simp only [bne_iff_ne, ne_eq, Decidable.not_not]
    split
    · exact sum _ (fun _ => z _) _ _ rfl
    · exact sum _ (fun _ => z _) _ _ rfl
  simp only [Tile.writeSet]
  rw [cells]
  intro k
  simp only [List.getD_eq_getElem?_getD, List.getElem?_map]
  cases (List.range 4096)[k]? with
  | none => rfl
  | some v =>
    have e : ∀ i j, t.elem n i j = 0#32 := fun _ _ => by simp [Tile.elem, h, KMap.getD, KMap.get?]
    simp only [Option.map_some, Option.getD_some, e]
    cases int <;> decide +kernel

/-- A tile of zeros has the sums of zeros, so that `mchk .verify` finds it good; one whose first cell is 1 has not. -/
theorem test_met_CellsHold : cellsHold Tile.reset 3 ∧ ¬ cellsHold { Tile.reset with cells := [(384, ⟨1, 0⟩)] } 3 := by
  refine ⟨fun c _ => ?_, fun h => ?_⟩
  · simp only [zero_cells Tile.reset 3 _ rfl]
    rfl
  · have k := h 0 (by decide)
    simp only [zero_cells (Tile.mk [] [(384, ⟨1, 0⟩)] [] [] [] none false false 0#4 [] [] false) 3 _ rfl, Tile.reset] at k
    exact absurd k (by decide +kernel)

/-- MatrixMoves: a grove of the home tile and the one to its right, claimed by nobody, and the empty one; a block of 16-bit slots
into a free slab, by rows and by columns; a set into banks of its type; a row of tile 0. -/
theorem test_met_MatrixMoves :
    (let s := groveState
     let bare_ := asPc .M fun x => { x with sregs := [(1, BitVec.ofNat 64 (1 * 2 ^ 11 + 2 * 2 ^ 14)), (3, 0x4000#64)] }
     let rest := groveState id fun t => { t with states := [] }
     let hd : VHead := head .bf16
     [!slabFillsOwed bare_ 0, shapeRect 0 (bare_.rd 1#6).toNat == some (0, 0, 1, 2), shapeRect 0 0 == some (0, 0, 0, 0),
      !(bare_.tile 0 1).busyAtStart, (bare_.tile 0 1).owner.isNone, !(bare_.tile 0 1).claimed, inGang bare_ bare_.selfGang (homeOf 0 1),
      inGang bare_ bare_.selfGang (homeOf 0 0),
      completes bare_ (.mshape noTok0 (.s 1#11)), completes rest (.mshape noTok0 (.s 0#11)), completes rest (.mshape noTok0 (.s 1#11)),
      completes s (.mfill noTok0 false 6#3 (.s 3#11) (.s 0#11)), completes s (.mfill noTok0 true 6#3 (.s 3#11) (.s 0#11)),
      okay (spotOf (.s 3#11) false (drainMis (s.cl 0).grove) s), s.widthAt (gotOr (⟨0, 0, false, 0#64⟩, s) (spotOf (.s 3#11) false (drainMis (s.cl 0).grove) s)).1 == 16,
      bits (s.wordAt ⟨0, 0x4000, false, 0x4000#64⟩) 3 0 == Ty.bf16.code.toNat,
      [false, true].all fun col => (drainRuns (s.cl 0).grove 16 0x4000 col).all fun q => inBanks (s.cl 0) q.1 && (match runBits 64 16 q.1 col with
        | .ok ps => (runLines ps 16 q.1 col).all fun l => !owedLine (s.cl 0) l
        | .error _ => false),
      completes s (.mmov hd 3#2 (.v false 0#11) (.s 0#11)), completes s (.mmov (head .f32) 0#2 (.v false 1535#11) (.s 0#11))]).all id = true := by
  decide +kernel


/-! ### The hypotheses are met: commands -/

/-- The S PC of cluster 0 of device 0 on an enabled fabric, all PCs before a C instruction, with the template `raw` at 0x4000,
which s1 names, and the line `line` at 0x8000: windows 0 and 1 lead to device 1 with every right, and group 0 has devices 0
and 1, or 0 alone, for members. -/
def issueState (raw : Nat) (line : Nat := 0) (members : BitVec 1024 := 3#1024) : State :=
  { asPc .S fun x => { x with
      sregs := [(1, 0x4000#64), (2, 2#64)], written := [0, 128, 256, 257]
      sram := Mem.write (Mem.write [] 0x4000 (natLe 128 raw)) 0x8000 (natLe 128 line) } with
    fabcfg := 0x00000501#64
    contexts := [(1, { loadContext with winbase := 0x50000, wincnt := 2 })]
    dies := [(0, { Die.reset with tlb := [⟨1, 0, 29, loadLeaf⟩] })]
    hbm := Mem.write [] 0x50000 (natLe 32 (2 ^ 224 + 2 ^ 214 + 7 * 2 ^ 211 + 2 ^ 128 + 2 ^ 20 * 2 ^ 64))
    groups := [(0, ⟨1, members, 0, 0, false, 0, 1#32, []⟩)] }

/-- For each command, by its opcode, a template and a line that its checks admit. -/
def templates : List (Nat × Nat × Nat) := [
  (0, 0, 0), (0, 7 * 2 ^ 64 + 3 * 2 ^ 80 + 16 * 2 ^ 256 + 16 * 2 ^ 352 + 0x2000 * 2 ^ 192, 0),
  (1, 2 ^ 41 + 0x8000 * 2 ^ 704, 0), (2, 2 ^ 41 + 0x8000 * 2 ^ 704, 0), (3, 10 * 2 ^ 36, 0), (4, 0x7F * 2 ^ 64 + 4095 * 2 ^ 960, 0),
  (7, 0x8000 * 2 ^ 192, 2 ^ 975 + 2 ^ 971), (8, 128 * 2 ^ 352 + 2 ^ 768 + 0x8000 * 2 ^ 704, 0), (9, 9 * 2 ^ 448, 0), (9, 2 ^ 780, 0),
  (0xB, 2 * 2 ^ 46, 0), (0xC, 9 * 2 ^ 448 + 9 * 2 ^ 480 + 0x8000 * 2 ^ 704,
    2 ^ 0 + 2 ^ 32 + 2 ^ 64 + 2 ^ 96 + 2 * 2 ^ 128 + 2 ^ 144 + 2 ^ 160 + 2 ^ 176 + 2 ^ 320 + 4 * 2 ^ 448),
  (0xD, 2 * 2 ^ 48 + 9 * 2 ^ 448, 0), (0xE, 2 * 2 ^ 46 + 9 * 2 ^ 480, 0), (0xE, 2 * 2 ^ 46 + 9 * 2 ^ 480 + 2 ^ 36 + 4095 * 2 ^ 960, 0),
  (0xF, 9 * 2 ^ 480, 0), (0x10, 2 ^ 36, 0), (0x14, 0x300000 * 2 ^ 192 + 2 ^ 36, 0)]

/-- CommandIssue, CommandAccepted, GroupUpdates: each command is issued and, where a slot is free, ends; with every slot taken
it waits with its kick pending, and a kick that has been accepted ends it. -/
theorem test_met_CommandIssue :
    (let regs (f : Pred → Reg → Reg → Reg → Reg → Reg → Reg → Instr) : Instr := f always 5#6 1#6 0#6 0#6 0#6 0#6
     let s := issueState 0
     let k := after (exec (.ecopy always 5#6 1#6 0#6 0#6 0#6 0#6) s)
     let c := (k.cl 0).cmds.headD default
     let taken := s.modCl 0 fun x => { x with cmds := List.replicate 8 c }
     let owed := { s with fills := [⟨.sram 0 0, [], .copy, 1, 1#32, 1, 0, 0#32, false, false⟩] }
     let kicked := s.modCl 0 fun x => { x with kicks := [(8, ⟨c, true⟩)] }
     [(s.cl 0).gathered && settled s 0, KMap.get? (s.cl 0).kicks (agentNum s) == none, agentNum s == 8,
      templates.all fun t => issueRows.any fun w => w.op == t.1 && completes (issueState t.2.1 t.2.2) (regs w.form),
      issueRows.all fun w => templates.any fun t => w.op == t.1,
      c.cl == 0 && c.seq == 1#32, k.rd 5#6 == 1#64, ((after (exec (regs .ecopy) taken)).cl 0).kicks.length == 1,
      (acceptCmd c taken).isNone, (acceptCmd c owed).isNone, slotFree s .copy 0, !slotFree taken .copy 0,
      lineOwed owed (.sram 0 0), c.linesAtAcceptance s == [.sram 0 0], completes kicked (regs .ecopy)]).all id = true := by
  decide +kernel

/-- The state once the command of a template has been issued, and the command. -/
def issued (f : Pred → Reg → Reg → Reg → Reg → Reg → Reg → Instr) (raw : Nat) (line : Nat := 0) : State :=
  after (exec (f always 5#6 1#6 0#6 0#6 0#6 0#6) (issueState raw line))
def firstCmd (s : State) : Cmd := (s.cl 0).cmds.headD default

theorem test_met_GroupUpdates :
    (let q := Instr.egroup always 5#6 1#6 0#6 0#6 0#6 0#6
     let query := issueState (2 ^ 36)
     let set_ := issueState (0x8000 * 2 ^ 704 + 15 * 2 ^ 812) 1
     let clear := issueState (2 * 2 ^ 36) 0 1#1024
     let far := after (exec q (issueState (0x8000 * 2 ^ 704) 3))
     let full := { query with groups := [(0, ⟨1, 3#1024, 0, 0, false, 0, 1#32, []⟩), (1, ⟨2, 3#1024, 0, 0, false, 0, 1#32, []⟩)] }
     [completes query q, (after (exec q query)).rd 5#6 == 0x0000000000020000#64, completes set_ q, completes clear q,
      far.selfPc == 0, (KMap.getD (far.cl 0).kicks 8 default).accepted, (firstCmd far).acks == 1, far.net != [],
      groupRoom query 0, !groupRoom full 0, (activeSlot query 0).isSome, activeSlot query 4095 == none, groupRoom query 4095]).all id = true := by
  decide +kernel

/-- CommandSteps: a pending kick where there is room and where there is none, of a running and of a saved task; an `efset`
ready and not; a batch; a copy that runs, one with nothing left, a marker with nothing before it and with a write not
acknowledged; an `eacc`; two merged reads of a window. -/
theorem test_met_CommandSteps :
    (let s := issued .ecopy 0
     let c := firstCmd s
     let kick := { s with clusters := [(0, { s.cl 0 with kicks := [(8, ⟨{ c with seq := 2#32 }, false⟩)] })] }
     let saved := kick.modCl 0 fun x => { x with task := x.task.map fun t => { t with state := .saved } }
     let e := issued .efset (0x303FFC * 2 ^ 192 + 2 ^ 36)
     let waits := issued .efset (0x300000 * 2 ^ 192 + 2 ^ 512)
     let b := issued .ebatch (128 * 2 ^ 352 + 2 ^ 768 + 0x8000 * 2 ^ 704)
     let m := (issued .emark (4095 * 2 ^ 960)).modCl 0 fun x => { x with cmds := x.cmds.map fun c => { c with started := true } }
     let busy := m.modCl 0 fun x => { x with wack := 1 }
     let u := (issued .eacc (10 * 2 ^ 36)).modCl 0 fun x => { x with cmds := x.cmds.map fun c => { c with started := true } }
     let held (s : State) (v : Unit6) : Bool := match s.cmd? v 0 1#32 with
       | some c => c.cl == 0 && c.unit == v && !away s c.ctx 0 && !exited s c && c.cwk == 0
       | none => false
     let done := (after (exec (.commandStart .copy 0 1#32) s))
     let gone := after (exec (.lineLanding (.sram 0 0)) done)
     let w := issued .ecopy (2 ^ 48)
     [held s .copy, held e .copy, held b .batcher, held m .copy, held u .copy, held waits .copy, (acceptCmd c kick).isNone, c.op == 0,
      (after (exec (.commandAcceptance 0 8) { kick with fills := [] })).cl 0 |>.kicks.all fun k => k.2.accepted,
      ((saved.cl 0).task.map (·.state)) == some .saved, (firstCmd e).op == 0x14, (firstCmd e).ready e, !(firstCmd waits).ready waits,
      gotOr (1, 0) (coord e 1 0 0x303FFC false) == (0, 0x303FFC), ((after (exec (.commandStart .copy 0 1#32) e)).cl 0).flags.getLsbD 4095 == false,
      ((after (exec (.commandStart .copy 0 1#32) e)).cl 0).cmds.isEmpty,
      (firstCmd (after (exec (.commandStart .batcher 0 1#32) b))).started, (firstCmd done).started, mayRetire gone (firstCmd gone),
      !mayRetire s c, ((after (exec (.commandRetirement .copy 0 1#32) gone)).cl 0).cmds.isEmpty,
      ((after (exec (.commandRetirement .copy 0 1#32) gone)).cl 0).rtOf .copy == 1#32,
      (firstCmd m).marks.all fun k => !markHeld m (firstCmd m) k, (m.cl 0).writeAcks == 0, (busy.cl 0).writeAcks == 1,
      ((after (exec (.markerRetire 0 1#32) m)).cl 0).flags.getLsbD 4095, ((after (exec (.markerRetire 0 1#32) m)).cl 0).cmds.isEmpty,
      !((after (exec (.markerRetire 0 1#32) busy)).cl 0).cmds.isEmpty, (firstCmd u).op == 3 && !(firstCmd u).cancelled,
      (firstCmd (nextUpdate (firstCmd u) u)).items == [0], (firstCmd w).op == 0]).all id = true := by
  decide +kernel

/-- EngineStatus: each form with nothing held and with a command held; selectors 0 to 5, 0x100, 0x4FF, and beyond them;
expectations met, under and over. -/
theorem test_met_EngineStatus :
    (let s := issueState 0
     let h := issued .ecopy 0
     let at_ (v : Word) (s : State) : State := (s.modCl 0 fun x => { x with sregs := KMap.set x.sregs 2 v }).modCl 0 fun x => { x with wS := { x.wS with pc := 0 } }
     let b (cur : Nat) := issueState (0x8000 * 2 ^ 192 + cur * 2 ^ 704 + 4095 * 2 ^ 960 + 7 * 2 ^ 36)
     let over_ := (b 0).modCl 0 fun x => x.setCounter 7 { ByteCounter.reset with bound := true, base := 256, lines := 1, cur := 5 }
     let e := Instr.ebexp always 5#6 1#6 0#6 0#6 0#6 0#6
     [s.copies == [], h.copies.length == 1, completes s (.earm always 5#6 2#6 1#6), completes s (.ewait always 2#6) == false,
      completes (at_ 0#64 s) (.ewait always 2#6), completes s (.edrain always), !completes (at_ 0#64 h) (.edrain always),
      (h.cmdAt .copy 0 1#32 h.selfGang).isSome, completes (at_ 1#64 h) (.ecancel always 5#6 2#6), completes s (.ecancel always 5#6 2#6),
      [0, 1, 2, 3, 4, 5, 0x100, 0x4FF].all fun v => completes (at_ (BitVec.ofNat 64 v) s) (.estat always 5#6 2#6),
      [6, 0xFF, 0x500].all fun v => causeNow (exec (.estat always 5#6 2#6) (bare (at_ (BitVec.ofNat 64 v) s))) == some 0x60#8,
      completes (b 0) e, completes (b 127) e, completes over_ e,
      (after (exec e (b 0))).rd 5#6 == 1#64, (after (exec e (b 127))).rd 5#6 == 0#64, ((after (exec e over_)).cl 0 |>.counter 7).err,
      ((after (exec e (b 0))).cl 0).flags.getLsbD 4095]).all id = true := by
  decide +kernel

/-- Landing: the last line of a scratchpad bank, a tile line, a follow-on whose data has landed and one that raises a cause, bytes
at a counter that is unposted, posted and balanced, over, and in the next phase. -/
theorem test_met_Landing :
    (let put (l : LineRef) : State := { asPc .S with fills := [⟨l, [(127, 7#8), (0, 9#8)], .copy, 0, 1#32, 1, 0, 0#32, false, true⟩] }
     let one := put (.sram 0 511)
     let slab := put (.tile 3 15 23 7 63)
     let b (v : Int) (pst : Bool) : State := (asPc .S).modCl 0 fun x =>
       x.setCounter 7 { ByteCounter.reset with bound := true, base := 256, lines := 2, cur := v, pst := pst, flag := 4095 }
     let hit (s : State) (tag : BitVec 32) : ByteCounter := ((after (exec (.byteCounterDelivery 0 0x80FF 128 tag) s)).cl 0).counter 7
     let word : Nat := (encode (.mzero noTok0 3#2)).foldr (fun (w : Parcel) n => w.toNat + 2 ^ 32 * n) 0
     let c : Cmd := { firstCmd (issued .ecopy 0) with
       started := true, items := [0], follow := .owed, dp := 0, raw := BitVec.ofNat 1024 (2 ^ 56 + word * 2 ^ 768) }
     let f : State := asPc .S fun x => { x with cmds := [c], wM := { x.wM with pc := 12, dp := 1 } }
     let g : State := f.modCl 0 fun x => { x with grove := ⟨0, 0, 1, 1, 0#4, 0#4, false⟩ }
     let ran (s : State) : Option Follow := (s.cmd? .copy 0 1#32).map (·.follow)
     [(landable one (.sram 0 511)).isSome, (landable slab (.tile 3 15 23 7 63)).isSome, (one.cl 0).bad == [], c.followWord == some (.mzero noTok0 3#2), !behindFollow f c (.mzero noTok0 3#2),
      ran (after (exec (.followOn 0 1#32) g)) == some .done, ran (after (exec (.followOn 0 1#32) (bare f))) == some .failed,
      (after (exec (.lineLanding (.sram 0 511)) one)).spByte 0 (128 * 511 + 127) == 7#8,
      ((after (exec (.lineLanding (.tile 3 15 23 7 63)) slab)).tile 3 (24 * 15 + 23)).state 7 63 == .full,
      hit (b 0 false) 0#32 == { (b 0 false).cl 0 |>.counter 7 with cur := 128 }, (hit (b (-128) true) 0#32).phase == 1#32,
      (hit (b (-1) true) 0#32).err, (hit (b (-128) true) 1#32).nxt == 128, (hit (b 0 false) 0#32).bound,
      ((after (exec (.byteCounterDelivery 0 0x8100 128 0#32) (b 0 false))).cl 0).counter 7 == ((b 0 false).cl 0).counter 7,
      followReady f c, (f.cl 0).task.any fun t => t.state != .placed, (f.cmd? .copy 0 1#32) == some c]).all id = true := by
  decide +kernel


/-! ### The hypotheses are met: the engines of a die -/

/-- The states that instructions and events lead to. -/
def runAll (l : List Instr) (s : State) : State := l.foldl (fun s i => after (exec i s)) s

/-- An `eroute` of two tokens to two experts, both with bins on cluster 0 (of 4 and of 2 rows), alone or with device 1's die 0, issued
from cluster 0: round 1, its table at 0x60000, token rows at 0x20000. -/
def routeLine (det : Bool) (solo : Bool) : Nat :=
  2 ^ 992 + (if solo then 2 ^ 975 else 0) + 2 ^ 971 + (if det then 2 ^ 967 + 100 * 2 ^ 920 else 0) + 0x60000 * 2 ^ 832
    + 0x20000 * 2 ^ 768 + 0x24000 * 2 ^ 704 + 0x28000 * 2 ^ 640 + 0x2C000 * 2 ^ 576 + 2 ^ 907 + 4095 * 2 ^ 908
def routed (det : Bool := false) (solo : Bool := true) : State :=
  let bin (off cap thr : Nat) : Nat := 1 + off * 2 ^ 53 + cap * 2 ^ 96 + thr * 2 ^ 112
  let s := issueState (0x8000 * 2 ^ 192 + 2 ^ 64 + 2 ^ 80 + 128 * 2 ^ 256) (routeLine det solo)
  after (exec (.eroute always 5#6 1#6 0#6 0#6 0#6 0#6) { s with
    hbm := Mem.write s.hbm 0x60000 (natLe 16 (bin 0x30000 4 0) ++ natLe 16 (bin 0x31000 2 1)) })
def theRound (s : State) : Round := ((s.die 0).rounds.headD default)

theorem test_met_SluiceRounds :
    (let s := runAll [.commandStart .sluice 0 1#32] routed
     let d := runAll [.commandStart .sluice 0 1#32] (routed true false)
     let t := runAll [.placementTableRead 0 1 1] s
     let ranked := runAll [.tokenRanking 0 1 1] t
     let all_ := runAll [.tokenRanking 0 1 1] ranked
     let msg (s : State) (e n : Nat) : RoundMsg := { baseMsg s (firstCmd s) with expert := e, count := n }
     let none_ := routed
     [roundAt none_ 0 1 1 == none, !abortedGen none_ 1 0#32, (roundAt s 0 1 1).isSome,
      ((theRound s).cmd s).isSome, (firstCmd s).die == 0 && (firstCmd s).ctx == 1 && (firstCmd s).roundNum == 1,
      (msg s 0 1).params == (firstCmd s).params, (theRound s).table == none,
      (theRound t).table.isSome && (theRound t).requests == [] && !(theRound t).aborted && !(firstCmd t).params.det,
      (theRound t).bins.map (fun b => (b.e, b.cap)) == [(0, 4), (1, 2)], (theRound t).ranked + 1 < (firstCmd t).tokens,
      (theRound ranked).ranked == 1, (theRound all_).pass == 3 || !(theRound all_).waiting.isEmpty,
      firstCmd s |>.parked.isEmpty, okay (vaRead (dieWho 1 0 1) 0x60000 32 s),
      okay (requestItem (firstCmd t) 0 t), okay (tokenScores (firstCmd t) 0 t),
      (firstCmd d).params.det && (firstCmd d).l 935 920 == 100, (theRound d).parts == [0, 4]]).all id = true := by
  decide +kernel

/-- The grant of a request, a reply that is awaited, bins that may close, a round that may retire, a deadline that an opening
misses. -/
theorem test_met_SluiceEnds :
    (let t := runAll [.commandStart .sluice 0 1#32, .placementTableRead 0 1 1] routed
     let c := firstCmd t
     let r := theRound t
     let msg : RoundMsg := { baseMsg t c with expert := 1, count := 3 }
     let u := runAll [.permitRequest 0 1 msg] t
     let asked := setRound t 0 { r with begun := true, waiting := [0, 1], slots := [⟨0, 0, 1, 1, 0, 0, 0, [1], false, false⟩] }
     let v := runAll [.permitReply 0 1 { msg with count := 1 }] asked
     let due := runAll [.commandStart .sluice 0 1#32, .placementTableRead 0 1 1] (routed true false)
     let late := setRound due 0 { theRound due with pass := 3 }
     let w := runAll [.roundDeadline 0 1 1] late
     let full := setRound t 0 { r with pass := 3, dones := [baseMsg t c] }
     let x := runAll [.binClose 0 1 1] full
     let y := runAll [.roundRetirement 0 1 1] x
     [(theRound u).bins.map (fun b => (b.e, b.rem, b.rref)) == [(0, 4, 0), (1, 0, 1)], (grantLines c ((r.bins.getD 1 default)) 0 2).all fun l =>
        !lineOwed t (.sram c.bcl l.2) && lineOwed u (.sram c.bcl l.2), (theRound v).waiting == [0], (r.hostOf 1) == some (senderOf msg),
      (theRound late).served < 3 && (theRound late).openings == [] && (theRound late).requests == [] && !(theRound late).closed,
      (theRound w).aborted && (theRound w).failed, (theRound full).mayClose c, (theRound x).closed, (x.cl 0).flags.getLsbD 4095,
      c.l 906 906 == 0 && c.l 907 907 == 1, { theRound x with slots := [] }.mayRetire (firstCmd x), (y.cl 0).cmds.isEmpty,
      roundAt y 0 1 1 == none, (y.cl 0).rtOf .sluice == 1#32]).all id = true := by
  decide +kernel

/-- OtherEngines: an item with bit 63 clear and set, a windrow with room and full; a sweep of a gang alone and of one with device 1,
asked for by none and by one armed command, the first and the second of two equal ones; a group; a sum and its end. -/
theorem test_met_OtherEngines :
    (let row (item : Nat) (k : Windrow) : State := runAll [.commandStart .compaction 0 1#32]
       (after (exec (.eappend always 5#6 1#6 0#6 0#6 0#6 0#6) { (rowState k).modCl 0 fun x => { x with
         sregs := [(1, 0x4000#64)], written := [0, 128]
         sram := Mem.write (Mem.write [] 0x4000 (natLe 128 (4095 * 2 ^ 192))) 0 (natLe 8 item) } with fabcfg := 0x501#64 }))
     let one := row 5 Windrow.reset
     let skip := row (2 ^ 63) Windrow.reset
     let full := row 5 { Windrow.reset with tail := 16#32 }
     let armed := runAll [.commandStart .compaction 0 1#32] (issued .eappend (2 ^ 36 + 4095 * 2 ^ 960))
     let two := runAll [.terminationSweep 1 1 1] armed
     let g (s : State) : Gang := KMap.getD s.gangs 1 loadGang
     let far := { armed with gangs := [(1, { g armed with remote := [(1, 0)] })] }
     let b := runAll [.commandStart .batcher 0 1#32] (issued .ebatch (128 * 2 ^ 352 + 2 ^ 768 + 0x8000 * 2 ^ 704))
     let e := templates.find? fun t => t.1 == 0xC
     let k := runAll [.commandStart .collective 0 1#32] (issued .ecoll (e.map (·.2.1)).get! (e.map (·.2.2)).get!)
     let sum := runAll [.collectiveStep 0 1#32 [⟨1, natLe 8 0x3F80⟩]] k
     let last := runAll [.collectiveStep 0 1#32 []] sum
     [(firstCmd one).started && (firstCmd one).opx == 0, ((runAll [.windrowAppend 0 1#32] one).windrow 1 4095).held == 1,
      ((runAll [.windrowAppend 0 1#32] skip).windrow 1 4095).held == 0, (firstCmd (runAll [.windrowAppend 0 1#32] skip)).undone.isEmpty,
      !(firstCmd (runAll [.windrowAppend 0 1#32] full)).undone.isEmpty, !appendBusy one 1 4095 (firstCmd one).born,
      (armedOf armed 1).length == 1, gangIdle armed 1, (g two).sweeps.length == 1,
      ((runAll [.terminationSweep 1 1 1] two).cl 0).flags.getLsbD 4095, (armedOf (runAll [.terminationSweep 1 1 1] two) 1).isEmpty,
      lowestDev far (g far) == devId far, (runAll [.terminationSweep 1 1 1] far).net.length == far.net.length + 1,
      (firstCmd b).started && !(firstCmd b).undone.isEmpty, okay (nextGroup (firstCmd b) b), (firstCmd (runAll [.batchGroup 0 1#32] b)).undone.isEmpty,
      (firstCmd k).started && !(firstCmd k).undone.isEmpty, (firstCmd k).steps.length == 1, (firstCmd sum).next == 1,
      (firstCmd last).undone.isEmpty, okay (vaWrite (firstCmd sum).who (firstCmd sum).dst (finalBytes (firstCmd sum)) sum)]).all id = true := by
  decide +kernel


/-! ### The hypotheses are met: graphs, stages, gangs -/

/-- Bytes of a table in device memory. -/
def table (l : List (Nat × Nat × Nat)) : Mem := l.foldl (fun m e => Mem.write m e.1 (natLe e.2.1 e.2.2)) []

/-- A graph of one stage at 0x100000: one task for each item of windrow 1, or a gang of `n`, on die 0, of level 1. -/
def graphTable (n : Nat) : Mem :=
  table [(0x100000, 1, 1), (0x100080, 8, 0x110000), (0x100088, 1, 1), (0x10008C, 4, n), (0x100090, 2, 1), (0x100092, 8, 2 ^ 64 - 1), (0x10009A, 2, 1),
    (0x10009E, 1, 1), (0x110008, 4, 4096), (0x110020, 8, 0x111000), (0x110028, 8, 0x112000), (0x110030, 8, 0x113000),
    (0x40010, 8, 1 + 4 * 2 ^ 59), (0x40018, 8, 0x20000), (0x71000, 4, 1), (0x72000, 8, 0x100000), (0x72008, 8, 5), (0x72020, 8, 0x73000)]

/-- The device with that graph, `k` the counters of windrow 1, and graph 5, which is its launch, in being. -/
def graphState (n : Nat) (k : Windrow) (f : Cluster → Cluster := id) : State :=
  let s := asPc .S f
  { s with
    hbm := graphTable n
    contexts := [(1, { loadContext with wlbase := 0x40000 })]
    dies := [(0, { Die.reset with tlb := [⟨1, 0, 29, loadLeaf⟩] })]
    queues := [(16, ⟨1, 0, 0x71080, 0x71000, 0x72000, 4, 0, false⟩)]
    windrows := [(4097, k)]
    graphs := [(5, { (default : Graph) with ctx := 1, va := 0x100000, nst := 1, done := 0x73000, live := true })], nextGraph := 6, nextGang := 8 }

/-- One item in windrow 1, brought by nobody. -/
def item1 : Windrow := { Windrow.reset with tail := 1#32, appends := 1 }

/-- Scheduling: a task that is asked to give way and one that is not; a queue with a record and one without; a stage with an item and
one without; a placed task; a graph with nothing left. -/
theorem test_met_Scheduling :
    (let s := graphState 1 item1
     let idle := graphState 1 Windrow.reset
     let l : LaunchQueue := KMap.getD s.queues 16 default
     let asked := graphState 1 Windrow.reset fun x => { x with preempt := true }
     let started := runAll [.stageSchedule 0 5 0] s
     let ran := runAll [.taskLaunch 1] started
     let none_ := { idle with hbm := Mem.write idle.hbm 0x71080 (natLe 4 1) }
     let launched := runAll [.launchRecord 1 0] idle
     let gone := { idle with clusters := [] }
     let st := (s.stage? 0 5 0).getD default
     [!(idle.cl 0).preempt && !stageWaits idle 0 0, completes idle .yield, (asked.cl 0).preempt,
      ((after (exec .yield asked)).cl 0).task.any fun t => t.state == .saved,
      !l.parked && l.sz == 4, okay (tableRead 1 0 l.tailVa 4 s), okay (tableRead 1 0 l.headVa 4 s), okay (checkGraph 1 0 0x100000 idle),
      (runAll [.launchRecord 1 0] none_).graphs == none_.graphs, launched.graphs.length == 2, (launched.windrow 1 1).held == 1,
      runnable s 0 5 0 st, !runnable idle 0 5 0 st, st.gang == 1, !outranked s 0 1 (ageOf s 5 0) (5, 0), outranked s 0 9 0 (0, 0), tagFree s 1 st.gtag,
      (openClusters s 0 5 0 8 st).head? == some 1, (noteAges 0 s).gangs == s.gangs, (started.cl 1).task.any fun t => t.state == .placed && t.graph == 5,
      (ran.cl 1).task.any fun t => t.state == .running, (runAll [.stageSchedule 0 5 0] (graphState 2 { item1 with tail := 2#32 })).gangs.any fun e =>
        e.1 == 8 && !e.2.placed && e.2.size == 2,
      (KMap.get? (runAll [.graphEnd 5] gone).graphs 5).any fun q => !q.live,
      (KMap.get? (runAll [.graphEnd 5] s).graphs 5).any fun q => q.live]).all id = true := by
  decide +kernel

/-- GangPlacement: a gang of two whose clusters are free here, and one that needs another device's too, which has confirmed one or not;
one that another device placed, told where its task lies and not, which confirms what it keeps; what a younger gang holds passed to the older
one; a task of another context asked to give way where no cluster is free. -/
theorem test_met_GangPlacement :
    (let s0 := { graphState 2 item1 with fabcfg := 0x501#64 }
     let st := (s0.stage? 0 5 0).getD default
     let x := newGang s0 1 5 0 st 10
     let s : State := { s0 with gangs := [(7, x)] }
     let few : State := { s with contexts := [(1, { loadContext with wlbase := 0x40000, grant := 3#384 })] }
     let lent : State := { few with gangs := [(7, { x with offers := [(4, [9])] })] }
     let put := runAll [.gangPlacement 7 []] s
     let hold := runAll [.gangPlacement 7 [(4, 9)]] few
     let both := runAll [.gangPlacement 7 [(4, 9)]] lent
     let far (go : Bool) : State := { s with gangs := [(7, { x with home := 1, goAhead := go, members := [4], remote := [(1, 0)] })] }
     let two : State := { s with gangs := [(7, { x with reserved := [1, 2] }), (6, newGang s0 1 5 0 st 9)] }
     let kept : State := { s with gangs := [(7, { x with home := 1, reserved := [1, 2], offered := [1, 2] }), (6, newGang s0 1 5 0 st 9)] }
     let one := graphState 1 item1
     let busy : State := { one with
       contexts := [(1, { loadContext with wlbase := 0x40000, grant := 1#384 })]
       clusters := [(0, { one.cl 0 with task := some { loadTask with ctx := 2, level := 2 } })] }
     let st1 := (one.stage? 0 5 0).getD default
     [(put.gangs.any fun e => e.1 == 7 && e.2.placed && e.2.members == [1, 2]), (hold.gangs.any fun e => e.1 == 7 && !e.2.placed && e.2.reserved == [1]),
      (both.gangs.any fun e => e.1 == 7 && e.2.placed && e.2.members == [1] && e.2.remote == [(4, 9)]), homeMember s st.dgrp,
      (chooseClusters (few.want 5 0 7 st) 2 (List.range 384) [] few).1.length == 1, !outranked s 0 1 (ageOf s 5 0) (5, 0), tagFree s 1 0,
      (oldestWaiting s).map (·.1) == some 7, (oldestWaiting two).map (·.1) == some 6, runnable s 0 5 0 st,
      (runAll [.gangPlacement 7 []] (far true)).gangs.any fun e => e.1 == 7 && e.2.placed, (((far true).cl 4).task).isNone,
      (runAll [.gangPlacement 7 []] (far false)).gangs.any fun e => e.1 == 7 && !e.2.placed && e.2.offered == [1, 2],
      (runAll [.reservationRelease 7] two).gangs.any fun e => e.1 == 6 && e.2.reserved == [1, 2],
      (runAll [.reservationRelease 6] two).gangs == two.gangs, (runAll [.reservationRelease 7] kept).gangs.any fun e => e.1 == 7 && e.2.yielding,
      (runAll [.reservationRelease 7] { s with gangs := [] }).gangs == [],
      runnable busy 0 5 0 st1 && lacksClusters busy 0 5 0 st1 && wouldFit busy (busy.want 5 0 0 st1) 0,
      (((runAll [.agingPreempt 0 5 0] busy).cl 0).preempt), !((runAll [.agingPreempt 0 5 0] one).cl 0).preempt]).all id = true := by
  decide +kernel

/-- Events: event 31 unbound, bound with the ring off, full and with room; the least and the greatest size of the ring, and those
beyond; bindings 31 and 32. -/
theorem test_met_Events :
    (let d (ring : Word) (tail : Nat) (b : Word) : State :=
       { (asMgr fun d => { d with evring := ring, evtail := BitVec.ofNat 32 tail, evbind := [(31, b)] }) with contexts := [] }
     let on : Word := BitVec.ofNat 64 (4 * 2 ^ 56 + 0x5000 + 1)
     let v : Word := 0x8000000000000000#64
     let run (s : State) : State := after (exec (.eventFire 0 31 1#16 2#16 3#32 4#48) s)
     [((run (d on 0 0#64)).die 0).evlost == 1, ((run (d 0#64 0 v)).die 0).evlost == 1, ((run (d on 16 v)).die 0).dieLog == [(0xA6#8, 31)],
      ((run (d on 15 v)).die 0).evtail == 16#32, Mem.read (run (d on 15 v)).hbm (0x5000 + 240) 1 == [31#8],
      ((after (exec (.evringWrite 0 on) (d 0#64 5 0#64))).die 0).evtail == 0#32, managementStage (d on 0 v) v 0 == none,
      evringOk (15 * 2 ^ 56) && !evringOk (16 * 2 ^ 56) && !evringOk (3 * 2 ^ 56), evbindOk (383 * 2 ^ 48) && !evbindOk (384 * 2 ^ 48),
      KMap.get? ((after (exec (.evbindWrite 0 31 0#64) (d on 0 v))).die 0).evbind 31 == some 0#64,
      ((after (exec (.evbindWrite 0 32 0#64) (d on 0 v))).die 0).evbind.length == 1]).all id = true := by
  decide +kernel

/-- Power: counters 0, 47, 48 and 49 at and above their limits; islands 23 and 24. -/
theorem test_met_Power :
    (let s : State := { State.reset with islim := [(0, 100#64), (23, BitVec.ofNat 64 (7 * 2 ^ 32))] }
     let run (n : Nat) (v : Word) : State := after (exec (.counterRefresh n v) s)
     [(run 0 101#64).agenda.length == 1, (run 0 100#64).agenda == [], (runAll [.counterRefresh 0 100#64] { run 0 101#64 with agenda := [] }).agenda.length == 1, (run 47 8#64).agenda.length == 1, (run 47 7#64).agenda == [],
      (run 48 9#64).agenda == [], counterValue (run 48 9#64) 0 48 == 9#64, (run 49 9#64).counters == [],
      KMap.getD (after (exec (.islandThrottle 0) (run 0 101#64))).throttle 0 0 == 1,
      KMap.getD (after (exec (.islandThrottle 23) s)).throttle 23 0 == 0, (after (exec (.islandThrottle 24) s)).throttle == []]).all id = true := by
  decide +kernel


/-! ### The hypotheses are met: traps, contexts, supersteps -/

/-- The task of cluster 0 in another state, with the record of a trap of its A PC. -/
def taskIn (st : RunState) (r : Option TrapRec := none) (f : Cluster → Cluster := id) : State :=
  asPc .S fun x => f { x with task := x.task.map fun t => { t with state := st, trap := r } }

/-- TrapEvents: the first and the last cause of a precise trap and one that is none; a running task, one trapped at a higher and at
a lower position; five PCs that wait for each other and one that does not; a request to give way and none; a saved task that may
be spilled and one that waits for a line; a trapped task at an instruction of its PC and at an X word; a trapped thread. -/
theorem test_met_TrapEvents :
    (let rec_ (n : Nat) : TrapRec := ⟨0x0E#8, engNum .A, 0, 0#64, n, none⟩
     let run := bare (taskIn .running)
     let wait (w : Option Wait) : State := bare (taskIn .running none fun x =>
       engines.foldl (fun x e => x.setWalk e { x.walk e with wait := if e == .M then w else some .token }) x)
     let high := bare (taskIn .trapped (some (rec_ 5)))
     let frozen : State := { run with gangs := [(1, { loadGang with frozen := true })] }
     let leaves := taskIn .saved none fun x => { x with preempt := true }
     let ask := bare (taskIn .running none fun x => { x with preempt := true })
     let saved := taskIn .saved
     let owing := { saved with fills := [⟨.sram 0 0, [], .fabric, 1, 0#32, 1, 0, 0#32, false, false⟩] }
     let st (s : State) : Option RunState := (s.cl 0).task.map (·.state)
     let thread := (taskIn .running none fun x => x.setRake 7 { x.rake 7 with st := .trapped, trap := some ⟨0x0A#8, 5, 7, 0#64, 0, none⟩ })
     let t := { loadTask with state := .trapped, trap := some (rec_ 0) }
     let low := { taskIn .trapped (some (rec_ 0)) with dies := [(0, { Die.reset with tlb := [⟨1, 0, 29, loadLeaf⟩] })] }
     let crossed := { low with hbm := Mem.write [] 0 ((encode (.b 1#20)).flatMap parcelBytes) }
     let past := runAll [.resumePast 0 none] low
     [trapCause 0x01#8, !trapCause 0xC0#8, trapCause 0xFF#8, st (runAll [.trapEntry 0 .A 0x0E#8 1#64] run) == some .trapped,
      ((runAll [.trapEntry 0 .A 0x05#8 1#64] high).cl 0).task.any fun t => (t.trap.map (·.cause)) == some 0x05#8,
      ((runAll [.trapEntry 0 .A 0x05#8 1#64] low).cl 0).task.any fun t => (t.trap.map (·.cause)) == some 0x0E#8,
      engines.all fun e => stalled (((wait (some .order)).cl 0).walk e), !slabFillsOwed (wait (some .order)) 0,
      causeNow (exec (.walkDeadlock 0) (wait (some .order))) == some 0x0F#8, !stalled ((wait none).cl 0).wM,
      causeNow (exec (.walkDeadlock 0) (wait none)) == none, st (runAll [.preemption 0 0] ask) == some .saved,
      st (runAll [.preemption 0 0] run) == some .running, maySpill 0 { loadTask with state := .saved } saved,
      frozen.frozenGang 1 && !run.frozenGang 1, st (runAll [.trapEntry 0 .A 0x0E#8 1#64] frozen) == some .running, (leaves.cl 0).preempt,
      maySpill 0 { loadTask with state := .saved } leaves && !dyingCtx leaves 1,
      st (runAll [.spill 0] saved) == some .saved,
      !maySpill 0 { loadTask with state := .saved } owing, (KMap.get? saved.contexts 1).any fun x => !x.dying,
      st (runAll [.resume 0 none] (taskIn .saved)) == some .running, st (runAll [.resume 0 none] (taskIn .trapped (some (rec_ 0)))) == some .running,
      (trappedWord (taskWho 0 t) t 0 low).map (fun w => (w.1, w.2.1)) == some (false, 4), (past.cl 0).wA.dp == 4,
      (trappedWord (taskWho 0 t) t 0 crossed).map (·.1) == some true, ((runAll [.resumePast 0 none] crossed).cl 0).wA.dp == 0,
      ((thread.cl 0).rake 7).st == .trapped, ((runAll [.resume 0 (some 7)] thread).cl 0 |>.rake 7).st == .ready]).all id = true := by
  decide +kernel

/-- ContextEnds: a queue out of service; a context, one under teardown with and without packets and markers. -/
theorem test_met_ContextEnds :
    (let s := asPc .S
     let q : State := { s with queues := [(16, ⟨1, 0, 0, 0, 0, 4, 0, true⟩)] }
     let dying (m : NSet) (n : List Packet) : State := { s with contexts := [(1, { loadContext with dying := true, markers := m })], net := n }
     let p : Packet := newPacket s 1 2 .write 1 0#32
     let p1 : Spilled := ⟨1, 0, 0, { s.cl 0 with task := (s.cl 0).task.map fun t => { t with state := .saved } }, [], false, 0, []⟩
     let free_ : State := { s with clusters := [], spilled := [p1] }
     [(runAll [.replayParked 0 1] q).queues.all fun e => !e.2.parked, (KMap.get? s.contexts 1).any fun x => !x.dying,
      (KMap.get? (runAll [.kill 1] s).contexts 1).any fun x => x.dying, (runAll [.kill 1] (dying [] [])).contexts == (dying [] []).contexts,
      (KMap.get? (runAll [.teardownComplete 1] (dying [4] [])).contexts 1).any fun x => x.dying,
      (KMap.get? (runAll [.teardownComplete 1] (dying [] [p])).contexts 1).any fun x => x.dying,
      (KMap.get? (dying [] []).contexts 1).any fun x => x.dying && x.markers == [],
      mayFill p1 0 free_, (free_.spilled.find? fun p => p.agent == 0 && p.ctx == 1) == some p1, p1.image.task.any fun t => t.state == .saved]).all id = true := by
  decide +kernel

/-- ContextEnds: a frame that can be read, and one with a poisoned sector. -/
def framed (l : List Nat) : State :=
  { State.reset with contexts := [(1, { loadContext with svbase := 0 })], poisoned := l }
def spilled0 : Spilled := ⟨1, 0, 0, Cluster.reset, [], false, 0, []⟩
theorem test_met_FrameRead :
    (readFrame spilled0 (framed [])).1 = none ∧ (readFrame spilled0 (framed [122880])).1 = some 0xC2#8 := by
  have c : ∀ l, KMap.get? (framed l).contexts 1 = some { loadContext with svbase := 0 } := fun _ => rfl
  have none_ : ∀ a n, sectorCause (framed []) a n = none := fun a n => by simp [sectorCause, framed, State.reset]
  have off : ∀ n, n ≤ 0x3C0000 → sectorCause (framed [122880]) 0 n = none := by
    intro n h
    simp [sectorCause, framed, State.reset]
    omega
  have on : ∀ n, 0 < n → sectorCause (framed [122880]) 0x3C0000 n = some 0xC2#8 := by
    intro n k
    have h : l2Holds (framed [122880]) (122880) = false := by decide +kernel
    simp only [sectorCause]
    rw [if_neg (by simp [framed, State.reset]), if_pos]
    simp only [List.any_eq_true, Bool.and_eq_true, List.mem_map]
    exact ⟨122880, ⟨0, by simp; omega, by decide⟩, by simp [framed], by simp [h]⟩
  have parts : frameParts { loadContext with svbase := 0 } spilled0 = [(0, 0x340000), (0x3C0000, 0x20000)] := rfl
  have first : ∀ l, (readFrame spilled0 (framed l)).1
      = ([(0, 0x340000), (0x3C0000, 0x20000)] : List (Nat × Nat)).findSome? fun a => sectorCause (framed l) a.1 a.2 := by
    intro l
    simp only [readFrame, show spilled0.ctx = 1 from rfl, c, parts]
  have two : ∀ (f : Nat → Nat → Option (BitVec 8)) (m n : Nat) (r : Option (BitVec 8)), f 0 m = none → f 0x3C0000 n = r →
      ([(0, m), (0x3C0000, n)] : List (Nat × Nat)).findSome? (fun a => f a.1 a.2) = r := by
    intro f m n r h k
    cases r <;> simp [h, k]
  exact ⟨(first []).trans (two (sectorCause (framed [])) _ _ _ (none_ _ _) (none_ _ _)),
    (first _).trans (two (sectorCause (framed [122880])) _ _ _ (off 0x340000 (by decide)) (on _ (by decide : 0 < 0x20000)))⟩

/-- Bytes read off those that have been stored are zero. -/
theorem zeros_read (v a n : Nat) (h : a + n ≤ 0x3C006C ∨ 0x3C0070 ≤ a) :
    Mem.read (Mem.write [] 0x3C006C (natLe 4 v)) a n = List.replicate n 0#8 := by
  refine List.ext_getElem (by simp [Mem.read]) fun i k _ => ?_
  have k' : i < n := by simpa [Mem.read] using k
  simp only [Mem.read, List.getElem_map, List.getElem_range, List.getElem_replicate, Mem.byte_write]
  rw [if_neg (by simp [natLe]; omega)]
  rfl

theorem drop_read (m : Mem) (a n k : Nat) : (Mem.read m a n).drop k = Mem.read m (a + k) (n - k) := by
  refine List.ext_getElem (by simp [Mem.read]) fun i _ _ => ?_
  simp [Mem.read, Nat.add_assoc]

theorem take_read (m : Mem) (a n k : Nat) (h : k ≤ n) : (Mem.read m a n).take k = Mem.read m a k := by
  refine List.ext_getElem (by simp [Mem.read]; omega) fun i _ _ => ?_
  simp [Mem.read]

theorem check_read (v : Nat) (h : v < 2 ^ 32) : leNat (Mem.read (Mem.write [] 0x3C006C (natLe 4 v)) 0x3C006C 4) = v := by
  have e : Mem.read (Mem.write [] 0x3C006C (natLe 4 v)) 0x3C006C 4 = natLe 4 v := by
    refine List.ext_getElem (by simp [Mem.read, natLe]) fun i k _ => ?_
    have k' : i < 4 := by simpa [Mem.read] using k
    simp only [Mem.read, List.getElem_map, List.getElem_range, Mem.byte_write]
    rw [if_pos (by simp [natLe]; omega), show 0x3C006C + i - 0x3C006C = i by omega, List.getD_eq_getElem?_getD,
      List.getElem?_eq_getElem (by simpa [natLe] using k')]
    rfl
  rw [e]
  simp [natLe, leNat]
  omega

/-- ContextEnds: a frame of zeros whose check is that of its bytes is good; one with another check is not. -/
theorem test_met_FrameGood (v : Nat) (h : v < 2 ^ 32) :
    (let p : Spilled := ⟨1, 0, 0, Cluster.reset, [], false, 0, []⟩
     let s : State := { State.reset with contexts := [(1, { loadContext with svbase := 0 })], hbm := Mem.write [] 0x3C006C (natLe 4 v) }
     frameGood p s = decide (v = (crc32c (List.replicate 131068 0#8)).toNat)) := by
  have c : KMap.get? [(1, { loadContext with svbase := 0 })] 1 = some { loadContext with svbase := 0 } := rfl
  have b : frameBase { loadContext with svbase := 0 } 0 = 0 := rfl
  simp only [frameGood, c, b, State.hbmRead, Nat.zero_add, drop_read _ _ 4096 112, take_read _ _ 4096 108 (by decide),
    drop_read _ _ 4096 108, take_read _ _ (4096 - 108) 4 (by decide), zeros_read v 0x3C0000 108 (by decide),
    zeros_read v (0x3C0000 + 112) (4096 - 112) (by decide), zeros_read v 0x3C1000 126976 (by decide), List.replicate_append_replicate]
  rw [show (0x3C0000 + 108 : Nat) = 0x3C006C from rfl, check_read v h]
  generalize (crc32c _).toNat = w
  simp [beq_eq_decide]

/-- Supersteps: a task that has halted, in an ordinary and in the protected gang; a gang that has arrived and one with a command left,
alone, first of two devices and not the first; an error in the last sector; a gang whose rollback has been performed, with and without
markers, and a cause at each end of the range and beyond it. -/
theorem test_met_Supersteps :
    (let s := bare (taskIn .halted)
     let g (f : Gang → Gang) (t : State) : State := { t with gangs := [(1, f loadGang)] }
     let prot : State := { g (fun x => { x with tag := 3, members := [0, 1] }) (taskIn .halted) with contexts := [(1, { loadContext with ckgang := 3 })] }
     let here := asPc .S fun x => { x with arrived := true }
     let left := asPc .S fun x => { x with arrived := true, cmds := [{ firstCmd (issued .ecopy 0) with gang := 1 }] }
     let sst (t : State) : BitVec 32 := (KMap.getD t.gangs 1 loadGang).sstep
     let run (t : State) : State := runAll [.barrierCompletion 1] t
     let first (d : List Nat) (fz : Bool) (p : NSet) : State :=
       { g (fun x => { x with remote := [(1, 0)], arrivedDevs := d, frozen := fz, prepared := p }) here with fabcfg := 0x501#64 }
     let last (b r : Bool) (p : NSet) : State :=
       { g (fun x => { x with remote := [(0, 0)], goAhead := b, reported := r, frozen := r, prepared := p }) here with fabcfg := 0x10501#64 }
     let busy (t : State) : State := t.modCl 0 fun x => { x with arrived := false }
     let gang (t : State) : Gang := KMap.getD t.gangs 1 loadGang
     let asks (t : State) : List Nat := (run t).net.map (·.imd)
     let rolled (m : NSet) : State := g (fun x => { x with restored := true, rollback := some 0xC0#8, markers := m }) (taskIn .saved)
     [((runAll [.taskEnd 0] s).cl 0).task.isNone, !s.protectedGang 1, (runAll [.taskEnd 0] here).clusters == here.clusters,
      prot.protectedGang 1, ((runAll [.taskEnd 0] prot).cl 0).task.any fun t => t.state == .held, !(KMap.getD prot.gangs 1 loadGang).allEnded,
      loadGang.placed && tasksArrived here 1 loadGang && gangQuiet here 1 loadGang && !loadGang.allEnded && loadGang.others == [],
      !gangQuiet left 1 loadGang, sst (run left) == 0#32, !tasksArrived (asPc .S) 1 loadGang, sst (run here) == 1#32,
      ((run here).cl 0).released, sst (run (first [1] true [1])) == 1#32, sst (run (first [1] true [])) == 0#32,
      (gang (run (first [1] false []))).frozen && asks (first [1] false []) == [2], !(gang (run (busy (first [1] true [])))).frozen,
      sst (run (first [] false [])) == 0#32, sst (run (last true false [])) == 1#32, (gang (run (last false false []))).reported,
      asks (last false false []) == [0], asks (last false true []) == [4], asks (busy (last false true [])) == [1], asks (last false true [1]) == [],
      lowestDev (first [] false []) (gang (first [] false [])) == 0,
      (runAll [.patrolScrub (2 ^ 34 - 1) true] s).poisoned == [2 ^ 34 - 1], (runAll [.rollback 1 0xC0#8] (rolled [3])).gangs == (rolled [3]).gangs,
      (KMap.getD (runAll [.rollback 1 0xC0#8] (rolled [])).gangs 1 loadGang).rollback == none,
      ((runAll [.rollback 1 0xC0#8] (rolled [])).cl 0).task.any fun t => t.state == .running,
      (runAll [.rollback 1 0xC7#8] here).gangs == here.gangs, (runAll [.rollback 1 0xBF#8] here).gangs == here.gangs]).all id = true := by
  decide +kernel

/-- A protected gang with nothing to roll back to but its snapshot. -/
theorem test_met_Rollback :
    (let s : State := { taskIn .running none (fun x => { x with snap := none }) with
       gangs := [(1, { loadGang with tag := 3 })], contexts := [(1, { loadContext with ckgang := 3 })] }
     [s.protectedGang 1, !(KMap.getD s.gangs 1 loadGang).unprotected, !logsPoisoned s 1 loadContext, (KMap.getD s.gangs 1 loadGang).others == [],
      fabricOn s == false, (KMap.get? s.contexts 1).isSome]).all id = true := by
  decide +kernel

/-- ContextsAndTranslation: a walk that finds a page and one that does not; an idle and a busy die; entries that an invalidation
names and keeps; 12 and 13 pinned ways; descriptors that keep their table and that do not. -/
theorem test_met_ContextsAndTranslation :
    (let e (ctx base : Nat) : TlbEntry := ⟨ctx, base, 16, loadLeaf⟩
     let s := (asMgr fun d => { d with tlb := [e 1 0, e 1 65536, e 2 0], walks := [⟨1, 0, [0]⟩] })
     let page : State := { s with hbm := table [(0, 8, 0x2001), (0x2000, 8, loadLeaf.toNat)] }
     let busy := s.modDie 0 fun d => { d with xlbusy := true }
     let desc (v : Nat) : State := { s with hbm := table [(256, 2, v), (260, 4, 1024)] }
     let ok (r : State × Except (BitVec 8) (Nat × Nat)) : Bool := match r.2 with
       | .ok _ => true
       | .error _ => false
     let d (i : List Instr) : Die := (runAll i s).die 0
     [!ok (walkPage 1 0 s), (s.die 0).walks.length == 1, (d [.translationWalk 0 0]).walks == [], (d [.translationWalk 0 1]).walks.length == 1,
      ok (walkPage 1 0 page), ((runAll [.translationWalk 0 0] page).cl 0).tlb.length == 2, !(s.die 0).xlbusy, (d [.xlinvPage 0 1 1#32]).tlb == [e 1 0, e 2 0], (d [.xlinvContext 0 1]).tlb == [e 2 0],
      (d [.xlinvAll 0]).tlb == [], (d [.xlinvAll 0]).xlbusy, ((runAll [.xlinvAll 0] busy).die 0).tlb.length == 3, !inFlight s 0,
      !(d [.xlinvAll 0, .invalidationComplete 0]).xlbusy, (d [.l2pinWrite 0 12#64]).l2pin == 12#64, (d [.l2pinWrite 0 13#64]).l2pin == 0#64,
      (contextOf (desc 1) ((desc 1).hbmNat 256 256)).isSome, contextOf (desc 0) ((desc 0).hbmNat 256 256) == none,
      (KMap.get? (runAll [.contextLoad 1] { desc 1 with contexts := [] }).contexts 1).isSome, (runAll [.contextLoad 1] (desc 0)).ctxerr, (runAll [.contextLoad 1] { desc 1 with contexts := [], poisoned := [8] }).ctxerr,
      KMap.get? (runAll [.contextUnload 1] s).contexts 1 == none]).all id = true := by
  decide +kernel


/-! ### The hypotheses are met: the fabric, the host, boot -/

/-- Device 0 of a plane of order 5 with its links up and a route to device 1 by port 0, key 1 of context 1 (4 KiB of device memory
from 0x10000, every right), and the packets `net` to route. -/
def fabricState (net : List Packet := []) : State :=
  { issueState 0 with
    agenda := [], net, hbm := table [(0, 8, 0x2001), (0x2000, 8, loadLeaf.toNat)]
    ports := (List.range 6).map fun k => (k, { Port.reset with up := true, trained := true })
    routes := [(1, BitVec.ofNat 128 (1 + 2 ^ 64))]
    reach := [(0, 2#1024)]
    keys := [(1, BitVec.ofNat 256 (2 ^ 224 + 2 ^ 208 + 7 * 2 ^ 205 + 2 ^ 192 + 4096 * 2 ^ 128 + 0x10000 * 2 ^ 64))] }

/-- A packet from device 1 to device `d`. -/
def packet (kind : PKind) (d : Nat) (s : State) : Packet :=
  { newPacket s d 2 kind 1 0#32 with sdev := 1, key := 1#32, addr := 0x10000, data := [7#8, 8#8], mbr := 2 }

/-- FabricLinks: values that Table 12.2 admits and not; the last entry of each table and the first beyond; a port that the plane names and
one that it does not; a port up and one down, one that has failed 15 times and 16; a packet in the router and one that is not, to a
device with a route, without one, and here. -/
theorem test_met_FabricLinks :
    (let s := fabricState
     let sel (t i : Nat) : Word := BitVec.ofNat 64 (2 ^ 28 * t + i)
     let wr (t i : Nat) : State := runAll [.fabricTableWrite (sel t i) 5#256] s
     let rd (t i : Nat) : State := runAll [.fabricTableRead (sel t i)] s
     let fail (n : Nat) : State := s.setPort 0 { s.port 0 with replays := n, retry := [packet .ack 1 s] }
     let p := { packet .write 1 s with sdev := 0 }
     let q := { packet .write 2 s with sdev := 0 }
     let r := packet .write 0 s
     let m := { p with mc := true, dests := 2#1024, kind := .flagSet }
     let at_ (x : Packet) : State := fabricState [x]
     let free (x : Packet) : Bool := !behindPair { at_ x with park0 := [], park1 := [] } [] x && !markerHeld [] x
     [(runAll [.fabcfgWrite 0x3E01F01#64] s).fabcfg == 0x3E01F01#64, (runAll [.fabcfgWrite 0x3E11F01#64] s).fabcfg == s.fabcfg, (runAll [.fabcfgWrite 0x601#64] s).fabcfg == s.fabcfg,
      (runAll [.fabcfgWrite 0x1E0501#64] s).fabcfg == 0x1E0501#64, (runAll [.fabcfgWrite 0x1F0501#64] s).fabcfg == s.fabcfg,
      [(0, 1023), (1, 4095), (2, 255)].all fun t => !(wr t.1 t.2).fabterr, [(0, 1024), (1, 4096), (2, 256), (3, 0)].all fun t => (wr t.1 t.2).fabterr,
      [(0, 1023), (1, 4095), (2, 255), (3, 8191), (4, 32767)].all fun t => !(rd t.1 t.2).fabterr, (rd 5 0).fabterr,
      (portPeer s 59).isSome, portPeer s 60 == none, (runAll [.portTraining 59] s).port 59 |>.up, !(s.port 59).up,
      !((runAll [.linkDown 0] (fail 16)).port 0).up, (runAll [.linkDown 0] (fail 16)).net.length == 1, ((runAll [.linkDown 0] (fail 15)).port 0).up,
      (nextHop (at_ p) p).isSome, mayLeave { at_ p with net := [] } 0 p, free p && free q && free r, (outPort (at_ q) q).isNone,
      okay (keyCheck r r.addr .wrt 2 s |>.elim (.error ()) (fun x => Except.ok x)), !parkFull (at_ r) r, (deliverPacket r { at_ r with net := [] }).isSome,
      (copies (at_ m) m.dests).2 == 0#1024, mayLeave { at_ m with net := [] } 0 m]).all id = true := by
  decide +kernel

/-- Arrivals: a packet for another device and for this one; a key that admits it and one that does not; a page that is there and one
that is not, with room in the park buffer; a read that an own command waits for; a carry to a granted cluster, whose flag is clear and
set; a write acknowledged. -/
theorem test_met_Arrivals :
    (let s := fabricState
     let w := packet .write 0 s
     let rd := packet .readReq 0 s
     let far := packet .write 1 s
     let bad := { w with key := 2#32 }
     let away_ := { s with keys := [(1, BitVec.ofNat 256 (2 ^ 224 + 2 ^ 208 + 7 * 2 ^ 205 + 2 ^ 192 + 4096 * 2 ^ 128 + 2 ^ 30 * 2 ^ 64))] }
     let miss := { w with addr := 2 ^ 30 }
     let run (p : Packet) (s : State) : State := runAll [.packetArrival p] s
     let sp : State := { s with
       hbm := table [(0, 8, 0x2001), (0x2000, 8, 0x3001), (0x3000, 8, 2 ^ 62 + 0xC0000000000000 + 5)]
       keys := [(1, BitVec.ofNat 256 (2 ^ 224 + 2 ^ 208 + 7 * 2 ^ 205 + 2 ^ 192 + 65536 * 2 ^ 128))] }
     let carry (g : Nat) : Packet := { packet .carry 0 sp with addr := 0x8000, mbr := 1, data := List.replicate 128 9#8, grp := g }
     let c (g : Nat) (s : State) : State := runAll [.carryArrival (carry g)] s
     let set_ := sp.modCl 0 fun x => { x with flags := 1#4096 }
     [(run far s).net == [far], keyCheck bad bad.addr .wrt 2 s == none, (run bad s).dropped == 1,
      (run bad s).net.length == 1, okay (ingressWrite 1 (argTag w) w.addr w.data s), (run w s).hbmNat 0x10000 2 == 0x807,
      (run w s).net.map (fun q => (q.kind, q.ddev, q.mbr)) == [(.ack, 1, 0)], okay (ingressRead 1 0x10000 2 s),
      ((run rd s).net.map fun q => q.kind) == [.readReply], (keyCheck miss miss.addr .wrt 2 away_).isSome,
      (parkOf (run miss away_) miss).length == 1, !aborted s w, !behindPair s s.net w, !parkFull s w, fabricOn s,
      (run w { s with fabcfg := 0#64 }).net == [], ((runAll [.writeAcknowledge 0] (s.modCl 0 fun x => { x with wack := 3 })).cl 0 |>.wack) == 2,
      sp.granted 1 384 0, canLand sp 1 0, ((c 4095 sp).cl 0).flags.getLsbD 4095, (c 4095 sp).spByte 0 0x807F == 9#8,
      (c 0 set_).spByte 0 0x807F == 0#8, ((c 0 set_).net.map fun q => q.mbr) == [3], (c 0 sp).carries == []]).all id = true := by
  decide +kernel

/-- Reductions: a version that a slot carries and one that none does; the first contribution of two and the last, and one that came before;
a timeout with somebody missing; a notice that finds a command and one that does not; a pull load in sequence and out of it; slots that
drain, with and without markers. -/
theorem test_met_Reductions :
    (let s := fabricState
     let c (m : Nat) : Contribution := ⟨1, 0, 0, 0#32, 1#32, m, m, [0x3F800000#32]⟩
     let one := runAll [.reductionContribution (c 0)] s
     let both := runAll [.reductionContribution (c 1)] one
     let timed : State := { one with groups := [(0, ⟨1, 3#1024, 0, 0, false, 5, 1#32, []⟩)] }
     let out := runAll [.reductionTimeout 1 0 0 1#32] timed
     let late := issued .eldred (2 ^ 780)
     let drain (m : NSet) : State := { s with groups := [(8191, ⟨2, 3#1024, 0, 0, false, 0, 1#32, m⟩)] }
     [versionSlot s 0 0 == some 0, versionSlot s 0 1 == none, one.reductions.length == 1, both.reductions.isEmpty, both.kept.length == 1,
      (both.net.any fun q => q.kind == .result), (runAll [.reductionContribution (c 0)] one).dropped == one.dropped + 1,
      (runAll [.reductionContribution { c 0 with ver := 1 }] s).dropped == 1, out.reductions.isEmpty, (out.net.any fun q => q.kind == .flush),
      (runAll [.reductionTimeout 1 0 0 1#32] one).reductions.length == 1, (firstCmd late).next == 1 && (firstCmd late).push,
      (firstCmd (runAll [.flushNotice 1 0 0 ⟨0#32, 1#32⟩ 1#1024] late)).started, (runAll [.flushNotice 1 0 0 ⟨0#32, 1#32⟩ 1#1024] s).notices.length == 1,
      s.groupCount 0 1 + 1#32 == 1#32, (runAll [.pullLoad 1 0 0 ⟨0#32, 1#32⟩ 0 4 1] s).net.any fun q => q.kind == .contribution,
      (runAll [.pullLoad 1 0 0 ⟨0#32, 2#32⟩ 0 4 1] s).net.any fun q => q.mbr == groupStatus 6,
      ((runAll [.groupSlotDrain 4095 1] (drain [])).slot 8191).st == 0, ((runAll [.groupSlotDrain 4095 1] (drain [0])).slot 8191).st == 2]).all id = true := by
  decide +kernel

/-- HostAccess: the aperture off and on, at its last byte; a page that is there and one that is not; mailboxes 15 and 16, idle and with a
request; a gang that has passed a barrier and one that has not. -/
theorem test_met_HostAccess :
    (let s0 := fabricState
     let s : State := { s0 with hapctl := BitVec.ofNat 64 (2 ^ 48 + 1), stage := 3#3 }
     let none_ : State := { s with hapctl := BitVec.ofNat 64 (2 ^ 48 + 2 ^ 16 + 1), contexts := [] }
     let m (op : Nat) (pend : List (Nat × BitVec 32)) : State := s.setMailbox 15 { Mailbox.reset with
       mseq := 1#32, mop := BitVec.ofNat 16 op, ctx := 1, pend }
     let rd (o n : Nat) (s : State) : List (Nat × Bool) := (runAll [.hostApertureRead o n] s).hostCpl.map fun r => (r.off, r.data.isSome)
     [rd 0x10000 4 s == [(0x10000, true)], rd (2 ^ 32 - 1) 1 none_ == [(2 ^ 32 - 1, false)], rd (2 ^ 32) 1 s == [],
      pieces 0x10000 4 == [(0x10000, 4)], (runAll [.hostApertureWrite 0x10000 [5#8]] s).hbmNat 0x10000 1 == 5,
      (runAll [.pcieLinkTraining 16 7] s).pcieUp, !(runAll [.pcieLinkTraining 2 7] s).pcieUp, (runAll [.mailboxWrite 16 0 [1#8]] s).mailboxes == [],
      counterValue (runAll [.mailboxWrite 15 16 [1#8]] (m 1 [])) 0 137 == 1#64,
      Mem.byte ((runAll [.mailboxWrite 15 255 [9#8]] s).mailbox 15).payload 255 == 9#8, holdsRequest (m 1 []) 15 1, !holdsRequest s 15 1,
      ((runAll [.quiesce 15] (m 1 [(1, 0#32)])).mailbox 15).rseq == 0#32, pieces 0x10070 32 == [(0x10070, 16), (0x10080, 16)],
      ((runAll [.quiesce 15] (m 1 [(1, 7#32)])).mailbox 15).rseq == 1#32, ((runAll [.faultLogState 15] (m 3 [])).mailbox 15).rseq == 1#32]).all id = true := by
  decide +kernel

/-- BootAndAttestation: an idle device at each stage (whether a signature holds is a free value, log 14), one under teardown, and a
mailbox that holds a request of SPDM. -/
theorem test_met_BootAndAttestation :
    (let s : State := { State.reset with stage := 2#3 }
     let busy : State := { s with contexts := [(1, { loadContext with dying := true })] }
     let m : State := fabricState.setMailbox 0 { Mailbox.reset with mseq := 1#32, mop := 2#16, ctx := 1, payload := [(16, 0x10#8), (17, 0x84#8)] }
     let flr := runAll [.functionLevelReset] { s with meas := [(0, [1#8])] }
     [(runAll [.boot ⟨[], [], 0⟩] s).stage == 3#3, (runAll [.boot ⟨[], [], 0⟩] busy).stage == 2#3, s.bootFailed == false,
      (s.contexts.all fun e => !e.2.dying), holdsRequest m 0 2, spdmCode (m.mailbox 0).spdm == 0x84,
      ((runAll [.getVersion 0] m).mailbox 0).rseq == 1#32, ((runAll [.getDigests 0] m).mailbox 0).rseq == 0#32, flr.stage == 0#3, flr.meas == [],
      spdmKnown (m.mailbox 0).spdm, !spdmKnown [0x12#8, 0xE0#8], spdmKnown [0x13#8, 0xE0#8, 0#8, 0xFF#8],
      (spdmAnswer m [0x10#8, 0x84#8]) == versionBody, (runAll [.functionLevelReset] m).resetting, !flr.resetting,
      (runAll [.boot ⟨[], [], 0⟩] { s with resetting := true, islim := [(0, 1#64)] }).islim == [],
      (runAll [.boot ⟨[], [], 0⟩] { busy with resetting := true, islim := [(0, 1#64)] }).islim.length == 1]).all id = true := by
  decide +kernel


/-! ### The hypotheses are met: stores in error, hard-wired registers, what waits at a device -/

/-- StepKeepsHardwired: a state whose clusters, snapshot stores and images keep k0 true and s0 without a value, and whose step
answers. -/
theorem test_met_StepKeepsHardwired :
    (let s := { loaded0 with agenda := [.event .nop] }.modCl 0 fun x => { x with sregs := [(1, 5#64)], preds := 3#16 }
     [s.clusters.all (fun e => e.2.preds.getLsbD 0 && e.2.snap.all fun n => n.preds.getLsbD 0), s.spilled == [],
      s.clusters.all (fun e => KMap.getD e.2.sregs 0 0#64 == 0#64 && e.2.snap.all fun n => KMap.getD n.sregs 0 0#64 == 0#64),
      match step s with | .next _ => true | _ => false]).all id = true := by
  decide +kernel

/-- StorageErrors: a row with no error, one, and two that lie alone in their columns; two rows with two errors in the same columns;
a landing on such a row; a sector struck beyond its code and within it, read, partly and wholly written; a table of a port that is up;
a set with room, one that is full, and one that has no unpinned way but the last. -/
theorem test_met_StorageErrors :
    (let x (l : NSet) : Cluster := { Cluster.reset with bad := l }
     let put (l : NSet) : State := { asPc .S fun x => { x with bad := l } with
       fills := [⟨.sram 0 0, [(127, 7#8), (0, 9#8)], .copy, 0, 1#32, 1, 0, 0#32, false, true⟩] }
     let block : NSet := [0, 17, 1024, 1041]
     let s := asPc .S
     let bad := strike (.hbm (2 ^ 34 - 1) true) s
     let top := 2 ^ 39 - 32
     let full : List L2Line := (List.range 4).map fun w => ⟨12 + w, w, 0#4, 0#4⟩
     let pinned := fun l => (s.modDie 0 fun d => { d with l2pin := 12#64 }).l2 == [] && (l2Insert 12 l 99 15#4 0#4 0#4 0#4).1.length == 4
     [(rowErrors (x []) 0).length == 0, (rowErrors (x [0]) 0).length == 1, (rowErrors (x [0, 17]) 0).length == 2,
      (rowEcc (x [0, 17]) 0).isSome, rowEcc (x block) 0 == none, (rowErrors (x block) 1).all fun b => (colErrors (x block) (colOfBit b)).length == 2,
      (landable (put block) (.sram 0 0)).isSome, (after (exec (.lineLanding (.sram 0 0)) (put block))).spByte 0 127 == 0#8,
      (after (exec (.lineLanding (.sram 0 0)) (put [0, 17]))).spByte 0 127 == 7#8, bad.poisoned == [2 ^ 34 - 1],
      (strike (.hbm 0 false) s).poisoned == [], sectorCause bad top 32 == some 0xC2#8, sectorCause bad (top - 32) 32 == none,
      mergeCause bad top 31 == some 0xC2#8, mergeCause bad top 32 == none, (devStore top (List.replicate 32 0#8) bad).poisoned == [],
      (fabricState.port 0).up, !((strike (.table 0) fabricState).port 0).up, !(s.port 0).up, (l2Insert 0 [] 5 0#4 15#4 0#4 0#4).1.length == 1,
      full.all (fun l => 12 ≤ l.way && l.way < 16), pinned full]).all id = true := by
  decide +kernel

/-- Arrivals: a packet of the superstep after the one of a frozen gang, of the aborted run of a superstep, and of a context that has
been torn down; Supersteps: a frozen gang and one that drains. -/
theorem test_met_WaitingArrivals :
    (let s := fabricState
     let w := packet .write 0 s
     let g (f : Gang → Gang) : State := { s with gangs := [(1, f { loadGang with remote := [(1, 0)] })] }
     let frozen := g fun x => { x with frozen := true }
     let ended : State := { s with contexts := [(1, { loadContext with ended := true })] }
     [afterBarrier frozen { w with gen := 1#32 }, !afterBarrier frozen w, !afterBarrier s w, aborted (g fun x => { x with restored := true, rollback := some 0xC0#8, markers := [3] }) w,
      !aborted s w, (lateOf ended { w with kind := .permit }).isSome, (lateOf ended w).isNone, (lateOf s { w with kind := .permit }).isNone,
      frozen.frozenGang 1]).all id = true := by
  decide +kernel

/-- CommandAccepted: a scatter whose bits are set and one whose are not, whose list is there, is owed to another command, and lies in a
line that cannot be read; CommandSteps: two reads that merge; SluiceRounds, Landing: a cluster whose task is spilled, and a superstep
that is being rolled back. -/
theorem test_met_CommandAccepted :
    (let raw : Nat := 2 ^ 41 + 0x8000 * 2 ^ 704
     let line (r : Nat) : State × Cmd :=
       let s := issued .escat r
       let c := { firstCmd s with started := false, seq := 2#32 }
       ({ s with fills := [], clusters := [(0, { s.cl 0 with cmds := [], owed := [] })] }, c)
     let a := line raw
     let waits := { a.2 with raw := a.2.raw ||| BitVec.ofNat 1024 (2 ^ 512) }
     let owing := { a.1 with fills := [⟨.sram 0 256, [], .copy, 0, 1#32, 1, 0, 0#32, false, false⟩] }
     let broken := a.1.modCl 0 fun x => { x with bad := [256 * 1024, 256 * 1024 + 17, 257 * 1024, 257 * 1024 + 17] }
     let two := (issued .ecopy (2 ^ 48)).modCl 0 fun x => { x with cmds := x.cmds.map fun c => { c with started := false } }
     let p : Spilled := ⟨1, 0, 0, two.cl 0, [], false, 0, []⟩
     [a.2.ready a.1, !waits.ready a.1, okay (readList a.2 a.1), stopsWith (readList a.2 owing) .wait,
      (match readList a.2 broken with | .error (.park _ _) => true | _ => false), (acceptCmd a.2 a.1).isSome, (acceptCmd waits a.1).isNone,
      (acceptCmd a.2 owing).isNone, (acceptCmd a.2 broken).isSome, mergeable 0 two (firstCmd two), away { two with spilled := [p] } 1 0,
      abortedGen { a.1 with gangs := [(1, { loadGang with restored := true, rollback := some 0xC0#8, markers := [3] })] } 1 0#32]).all id = true := by
  decide +kernel

/-- SHAKE256 of no byte (FIPS 202; the first bytes of its known answer). -/
theorem test_shake256_empty :
    (shake256 []).take 8 = [0x46#8, 0xB9#8, 0xDD#8, 0x2B#8, 0x0B#8, 0xA8#8, 0x8D#8, 0x13#8] := by
  decide +kernel

end Sys2Proof.Tests
end

section
/-! SUPPORT. What reading may change, said once: memory that is read through the caches leaves everything but the caches and
the codes' corrections as it was (R88 to R90, R101, R102, R405 to R407). The fetch of a parcel is such a read (R35). -/

namespace Sys2Proof.Machine

/-- `t` is `s` but for what a read brings about: L2 and the sectors it writes back, the counters of events, the TLBs, the walks
outstanding in a die, and the bits in error of a scratchpad. -/
structure ReadFrame (s t : State) : Prop where
  rest : t = { s with
    clusters := t.clusters, dies := t.dies, l2 := t.l2, l2bad := t.l2bad, poisoned := t.poisoned, counters := t.counters }
  cl : ∀ c, t.cl c = { s.cl c with tlb := (t.cl c).tlb, bad := (t.cl c).bad }
  die : ∀ d, t.die d = { s.die d with tlb := (t.die d).tlb, walks := (t.die d).walks }

namespace ReadFrame

theorem refl (s : State) : ReadFrame s s := ⟨rfl, fun _ => rfl, fun _ => rfl⟩

theorem trans {s t u : State} (h : ReadFrame s t) (g : ReadFrame t u) : ReadFrame s u where
  rest := by rw [g.rest, h.rest]
  cl c := by rw [g.cl c, h.cl c]
  die d := by rw [g.die d, h.die d]

theorem actor {s t : State} (h : ReadFrame s t) : t.actor = s.actor := by rw [h.rest]

theorem hbm {s t : State} (h : ReadFrame s t) : t.hbm = s.hbm := by rw [h.rest]

theorem walk {s t : State} (h : ReadFrame s t) (c : Nat) (e : Eng) : (t.cl c).walk e = (s.cl c).walk e := by
  rw [h.cl c]; cases e <;> rfl

theorem sregs {s t : State} (h : ReadFrame s t) (c : Nat) : (t.cl c).sregs = (s.cl c).sregs := by rw [h.cl c]

end ReadFrame

/-! ### The rule of each operation that a read is made of -/

theorem readFrame_setCl {s : State} {c : Nat} {x : Cluster} (h : x = { s.cl c with tlb := x.tlb, bad := x.bad }) :
    ReadFrame s (s.setCl c x) where
  rest := rfl
  cl j := by
    by_cases hj : j = c
    · subst hj; rw [State.cl_setCl_self]; exact h
    · rw [State.cl_setCl_ne _ _ hj]
  die _ := rfl

theorem readFrame_modDie {s : State} {d : Nat} {f : Die → Die}
    (h : f (s.die d) = { s.die d with tlb := (f (s.die d)).tlb, walks := (f (s.die d)).walks }) : ReadFrame s (s.modDie d f) where
  rest := rfl
  cl _ := rfl
  die j := by
    by_cases hj : j = d
    · subst hj; rw [State.die_modDie_self]; exact h
    · rw [State.die_modDie_ne _ _ hj]

theorem readFrame_foldl {α : Type} {f : State → α → State} (hf : ∀ s a, ReadFrame s (f s a)) (l : List α) (s : State) :
    ReadFrame s (l.foldl f s) := by
  induction l generalizing s with
  | nil => exact .refl s
  | cons a l ih => exact (hf s a).trans (ih (f s a))

theorem readFrame_count (s : State) (die n k : Nat) : ReadFrame s (s.count die n k) := by
  unfold State.count
  split
  · exact .refl s
  · exact ⟨rfl, fun _ => rfl, fun _ => rfl⟩

/-! ### L2 (R101, R102, R407) -/

theorem readFrame_poison (s : State) (q : Nat) : ReadFrame s (s.poison q) := by
  unfold State.poison
  split
  · exact .refl s
  · refine .trans ?_ (readFrame_count _ _ _ _)
    exact ⟨rfl, fun _ => rfl, fun _ => rfl⟩

theorem readFrame_l2Leave (gone : List L2Line) (s : State) : ReadFrame s (l2Leave gone s) := by
  unfold l2Leave
  refine .trans ?_ (readFrame_foldl readFrame_poison _ _)
  exact ⟨rfl, fun _ => rfl, fun _ => rfl⟩

theorem readFrame_l2One (line : Nat) (fill whole part : BitVec 4) (s : State) : ReadFrame s (l2One line fill whole part s) := by
  unfold l2One
  refine .trans ?_ (readFrame_l2Leave _ _)
  exact ⟨rfl, fun _ => rfl, fun _ => rfl⟩

theorem readFrame_l2Read (a n : Nat) (s : State) : ReadFrame s (l2Read a n s) :=
  readFrame_foldl (fun s _ => readFrame_l2One _ _ _ _ s) _ s

/-! ### Translation (R83, R88, R89) -/

theorem readFrame_walkPage (ctx va : Nat) (s : State) : ReadFrame s (walkPage ctx va s).1 := by
  unfold walkPage
  cases KMap.get? s.contexts ctx with
  | none => exact .refl s
  | some c =>
    have path := readFrame_foldl (fun s a => readFrame_l2Read a 8 s) (walkPath s va levels c.root) s
    dsimp only
    repeat' split
    all_goals exact path

theorem readFrame_tlbFill (d : Option Nat) (cls : List Nat) (e : TlbEntry) (s : State) : ReadFrame s (tlbFill d cls e s) := by
  have first : ∀ s c, ReadFrame s (State.modCl s c fun x => { x with tlb := tlbAdd 64 x.tlb e s.tick }) :=
    fun _ _ => readFrame_setCl rfl
  cases d with
  | none => exact readFrame_foldl first cls s
  | some d => exact .trans (readFrame_modDie rfl) (readFrame_foldl first cls _)

theorem readFrame_endWalk (d k : Nat) (s : State) : ReadFrame s (endWalk d k s) := by
  unfold endWalk
  split
  · exact .refl s
  · next w _ =>
    have page := (readFrame_modDie (s := s) (d := d) (f := fun x => { x with walks := x.walks.eraseIdx k }) rfl).trans
      (readFrame_walkPage w.ctx (65536 * w.page) _)
    dsimp only
    split
    · next h => rw [h] at page; exact page
    · next h => rw [h] at page; exact page.trans (readFrame_tlbFill _ _ _ _)

theorem readFrame_missWalk (d ctx va : Nat) (s : State) : ReadFrame s (missWalk d ctx va s).1 := by
  have room : ReadFrame s (if (s.die d).walks.length < 4096 then s else endWalk d 0 s) := by
    split
    · exact .refl s
    · exact readFrame_endWalk d 0 s
  have page := room.trans (readFrame_walkPage ctx va _)
  unfold missWalk
  dsimp only
  split
  · next h =>
    rw [h] at page
    dsimp only at page ⊢
    exact page.trans (readFrame_modDie rfl)
  · next h =>
    rw [h] at page
    dsimp only at page ⊢
    exact (page.trans (readFrame_modDie rfl)).trans (readFrame_tlbFill _ _ _ _)

theorem readFrame_findLeaf {w : Who} {va : Nat} {s t : State} {r : Nat × Nat} (h : findLeaf w va s = .ok (t, r)) :
    ReadFrame s t := by
  unfold findLeaf at h
  dsimp only at h
  split at h
  · cases h; exact .refl s
  split at h
  · cases h; exact readFrame_tlbFill _ _ _ _
  cases hd : w.die with
  | none =>
    have page := readFrame_walkPage w.ctx va s
    simp only [hd] at h
    split at h
    · cases h
    · next hr => cases h; rw [hr] at page; exact page.trans (readFrame_tlbFill _ _ _ _)
  | some d =>
    have page := readFrame_missWalk d w.ctx va s
    simp only [hd] at h
    split at h
    · cases h
    · next hr => cases h; rw [hr] at page; exact page.trans (readFrame_tlbFill _ _ _ _)

theorem readFrame_translate {w : Who} {va : Nat} {write sync : Bool} {s t : State} {x : Xlat}
    (h : translate w va write sync s = .ok (t, x)) : ReadFrame s t := by
  unfold translate at h
  split at h
  · cases h
  split at h
  · cases h
  · next hl =>
    have leaf := readFrame_findLeaf hl
    dsimp only at h
    repeat' split at h
    all_goals cases h
    all_goals exact leaf

/-! ### Rows of a scratchpad (R405, R406) -/

theorem rowEcc_frame {x y : Cluster} {line : Nat} (h : rowEcc x line = some y) : y = { x with bad := y.bad } := by
  unfold rowEcc at h
  dsimp only at h
  split at h
  · cases h; rfl
  split at h
  · cases h; rfl
  · cases h

theorem foldlM_rowEcc_frame {ls : List Nat} {x y : Cluster} (h : ls.foldlM rowEcc x = some y) : y = { x with bad := y.bad } := by
  induction ls generalizing x with
  | nil => cases h; rfl
  | cons l ls ih =>
    rw [List.foldlM_cons] at h
    obtain ⟨z, hz, hy⟩ := Option.bind_eq_some_iff.mp h
    rw [ih hy, rowEcc_frame hz]

theorem readFrame_rowsEcc {c : Nat} {ls : List Nat} {s t : State} (h : rowsEcc c ls s = some t) : ReadFrame s t := by
  unfold rowsEcc at h
  split at h
  · cases h
  · next x hx =>
    split at h
    · cases h; exact .refl s
    · cases h
      refine .trans ?_ (readFrame_count _ _ _ _)
      exact readFrame_setCl (by rw [foldlM_rowEcc_frame hx])

/-! ### A parcel of text (R35) -/

theorem readFrame_devRead {w : Who} {va dpa n : Nat} {x : Xlat} {s t : State} {bs : List Byte} (hx : x.chk = false)
    (h : devRead w va dpa n x s = .ok (t, bs)) : ReadFrame s t := by
  unfold devRead at h
  split at h
  · cases h
  · rw [hx] at h; cases h; exact readFrame_l2Read _ _ _

theorem readFrame_fetchAt {w : Who} {k : Task} {off n : Nat} {s t : State} {bs : List Byte}
    (h : fetchAt w k off n s = .ok (t, bs)) : ReadFrame s t := by
  unfold fetchAt at h
  dsimp only at h
  split at h
  · cases h
  next s1 x hx =>
  have found := readFrame_translate hx
  split at h
  case h_1 dpa _ =>
    cases hr : devRead w (k.image.textVa + off) dpa n { x with chk := false } s1 with
    | error c => rw [hr] at h; cases h
    | ok r => rw [hr] at h; cases h; exact found.trans (readFrame_devRead rfl hr)
  case h_2 =>
    split at h
    · cases h
    · cases h; exact found
  case h_3 =>
    split at h
    · cases h
    split at h
    · cases h
    · next hr => cases h; exact found.trans (readFrame_rowsEcc hr)
  case h_4 => cases h
  case h_5 => cases h; exact found

/-- A parcel is met as it is held, or fetched: nothing but the caches changes. -/
theorem readFrame_heldParcel {held : KMap Parcel} {w : Who} {k : Task} {off : Nat} {s t : State} {p : Parcel}
    (h : heldParcel held w k off s = .ok (t, p)) : ReadFrame s t := by
  unfold heldParcel at h
  split at h
  · cases h; exact .refl s
  unfold fetchParcel at h
  split at h
  · cases h
  · next hf => cases h; exact readFrame_fetchAt hf

end Sys2Proof.Machine
end

section
/-! SUPPORT. The turn that a step takes, and a PC that steps over an instruction of another engine (R21). -/

namespace Sys2Proof.Machine

/-- A step takes the first turn of the agenda. -/
theorem step_of_agenda {s : State} {t : Turn} {rest : List Turn} (h : s.agenda = t :: rest) :
    step s = takeTurn t { s with agenda := rest } := by
  simp only [step, h]

theorem takeTurn_event (s : State) (i : Instr) : takeTurn (.event i) s = exec i s.beginEvent := rfl

theorem takeTurn_soon (s : State) (x : Soon) : takeTurn (.soon x) s = takeSoon x (s.begin .device) := rfl

theorem takeTurn_walk_absent {w : Walker} (h : hasWalker w = false) (s : State) : takeTurn (.walk w) s = .fault .noSuchAgent := by
  simp [takeTurn, h]

/-! ### Holding a parcel, and starting the ordinals again -/

/-- A PC that holds parcels differs in the parcels it holds alone. -/
theorem holdText_pc {s : State} {c : Nat} {e : Eng} (ha : s.actor = .pc c e) (off : Nat) (ps : List Parcel) :
    ∃ l, s.holdText off ps = s.modCl c fun x => x.setWalk e { x.walk e with text := l } := by
  unfold State.holdText
  rw [ha]
  exact ⟨_, rfl⟩

theorem reseed_walk (e : Eng) (h : Parcel) (x : Cluster) : ∃ n, (reseed e h x).walk e = { x.walk e with ordinal := n } := by
  unfold reseed
  split
  · exact ⟨0, Cluster.walk_setWalk_self _ _ _⟩
  · exact ⟨_, rfl⟩

@[simp] theorem reseed_sregs (e : Eng) (h : Parcel) (x : Cluster) : (reseed e h x).sregs = x.sregs := by
  unfold reseed
  split
  · exact Cluster.setWalk_sregs _ _ _
  · rfl

/-! ### Stepping over (R21) -/

/-- The state of PC `e` of cluster `c` past an instruction of another engine, of head parcel `h`, that stands at `pc`. -/
def State.stepOver (s : State) (c : Nat) (e : Eng) (pc : Nat) (h : Parcel) : State :=
  (s.holdText pc [h]).modCl c fun y => (reseed e h y).pass e (headBytes h) (pc + headBytes h)

/-- The head parcel of another engine's instruction moves the PC past it, where neither order nor the slip window holds the PC
back (R21, R162). -/
theorem plan_stepOver {s s1 : State} {c : Nat} {e : Eng} {t : Task} {h : Parcel} (htask : (s.cl c).task = some t)
    (hrun : t.state = .running) (hbar : ((s.cl c).walk e).barred = true → ((s.cl c).walk e).dp < (s.cl c).wS.dp)
    (hin : ((s.cl c).walk e).pc < t.image.textSize)
    (hh : heldParcel ((s.cl c).walk e).text s.who t ((s.cl c).walk e).pc s = .ok (s1, h)) (hlen : headLen h ≠ 3#2)
    (hex : executes e (headTag h) = false) (hK : ¬ (e = .S ∧ headTag h = .K))
    (hord : e = .S ∨ headOrdered h = false ∨ ((s.cl c).walk e).dp < (s.cl c).wS.dp)
    (hslip : slips (s.cl c) ((s.cl c).walk e) (headBytes h) = false) :
    plan (.pc c e) s = .done (s1.stepOver c e ((s.cl c).walk e).pc h) := by
  have unbarred : (((s.cl c).walk e).barred && decide ((s.cl c).wS.dp ≤ ((s.cl c).walk e).dp)) = false := by
    cases hb : ((s.cl c).walk e).barred with
    | false => rfl
    | true => simpa using hbar hb
  have unordered : (e != .S && headOrdered h && decide ((s.cl c).wS.dp ≤ ((s.cl c).walk e).dp)) = false := by
    rcases hord with rfl | ho | ho
    · rfl
    · simp [ho]
    · simp [ho]
  have noK : (e == .S && headTag h == .K) = false := by simpa using hK
  have inText : ¬ t.image.textSize ≤ ((s.cl c).walk e).pc := by omega
  simp [plan, planPc, htask, hrun, unbarred, inText, hh, hlen, noK, hex, unordered, hslip, State.stepOver]

section StepOver

variable {s : State} {c : Nat} {e : Eng} (ha : s.actor = .pc c e) (pc : Nat) (h : Parcel)
include ha

/-- Past another engine's instruction the PC stands as R161 has it, but for its ordinal and the parcels it holds. -/
theorem stepOver_walk : ∃ l n, ((s.stepOver c e pc h).cl c).walk e =
    ({ (s.cl c).walk e with text := l, ordinal := n } : Walk).pass (headBytes h) (pc + headBytes h) := by
  obtain ⟨l, hl⟩ := holdText_pc ha pc [h]
  obtain ⟨n, hn⟩ := reseed_walk e h ((s.cl c).setWalk e { (s.cl c).walk e with text := l })
  refine ⟨l, n, ?_⟩
  rw [State.stepOver, hl, State.cl_modCl_self, State.cl_modCl_self, Cluster.walk_pass_self, hn, Cluster.walk_setWalk_self]

theorem stepOver_sregs : ((s.stepOver c e pc h).cl c).sregs = (s.cl c).sregs := by
  obtain ⟨l, hl⟩ := holdText_pc ha pc [h]
  simp [State.stepOver, hl]

theorem stepOver_hbm : (s.stepOver c e pc h).hbm = s.hbm := by
  obtain ⟨l, hl⟩ := holdText_pc ha pc [h]
  simp [State.stepOver, hl]

end StepOver

/-- Settles O6: a turn is taken by the clause of its kind; a PC that steps over an instruction has fetched its head parcel, which
changes nothing but caches, and passes it with its signature register as it was. -/
theorem stepTakesTurn : Obligations.StepTakesTurn := by
  refine ⟨fun s rest => ⟨fun i ha => ?_, fun w ha hw => ?_, fun die reg ha => ?_, fun c ha => ?_⟩, ?_⟩
  · rw [step_of_agenda ha, takeTurn_event]; rfl
  · rw [step_of_agenda ha, takeTurn_walk_absent hw]
  · rw [step_of_agenda ha, takeTurn_soon]; rfl
  · rw [step_of_agenda ha, takeTurn_soon]; rfl
  · intro s s1 c e t h ha htask hrun hbar hin hh hlen hex hK hord hslip
    have fetch := readFrame_heldParcel hh
    have ha1 : s1.actor = .pc c e := by rw [fetch.actor, ha]
    obtain ⟨l, n, hwalk⟩ := stepOver_walk ha1 ((s.cl c).walk e).pc h
    rw [fetch.walk c e] at hwalk
    refine ⟨_, plan_stepOver htask hrun hbar hin hh hlen hex hK hord hslip, ?_, ?_, ?_, ?_, ?_⟩
    · rw [hwalk]; rfl
    · rw [hwalk]; rfl
    · rw [hwalk]; rfl
    · rw [stepOver_sregs ha1, fetch.sregs]
    · rw [stepOver_hbm ha1, fetch.hbm]

end Sys2Proof.Machine
end

section
/-! SUPPORT. Maps by number and clusters, written twice and erased. -/

namespace Sys2Proof.Machine

theorem KMap.set_set {α : Type} (m : KMap α) (k : Nat) (x y : α) : KMap.set (KMap.set m k x) k y = KMap.set m k y := by
  induction m with
  | nil => simp [KMap.set]
  | cons e t ih =>
    obtain ⟨j, z⟩ := e
    by_cases hk : k < j
    · simp [KMap.set, hk]
    by_cases hj : j = k
    · simp [KMap.set, hj]
    · simp [KMap.set, hk, hj, ih]

theorem KMap.erase_set {α : Type} (m : KMap α) (k : Nat) (x : α) : KMap.erase (KMap.set m k x) k = KMap.erase m k := by
  induction m with
  | nil => simp [KMap.set, KMap.erase]
  | cons e t ih =>
    obtain ⟨j, z⟩ := e
    by_cases hk : k < j
    · simp [KMap.set, KMap.erase, hk]
    by_cases hj : j = k
    · simp [KMap.set, KMap.erase, hj]
    · simpa [KMap.set, KMap.erase, hk, hj] using ih

theorem State.modCl_modCl (s : State) (c : Nat) (f g : Cluster → Cluster) :
    (s.modCl c f).modCl c g = s.modCl c fun x => g (f x) := by
  simp only [State.modCl, State.cl_setCl_self]
  simp only [State.setCl, KMap.set_set]

/-- A change of one cluster, read at any cluster, where it keeps what is read. -/
theorem State.cl_modCl_keeps {α : Type} (g : Cluster → α) (s : State) (c : Nat) (f : Cluster → Cluster)
    (hf : g (f (s.cl c)) = g (s.cl c)) (j : Nat) : g ((s.modCl c f).cl j) = g (s.cl j) := by
  by_cases hj : j = c
  · subst hj; rw [State.cl_modCl_self, hf]
  · rw [State.cl_modCl_ne _ _ hj]

end Sys2Proof.Machine
end

section
/-! SUPPORT. The issue of a command (R125, R128): what an instruction that has kicked its command comes to. -/

namespace Sys2Proof.Machine

/-! ### The kick (R128) -/

section Kick

variable {s u : State} {cl who : Nat} {k : Kick} (hk : KMap.get? (s.cl cl).kicks who = some k)
include hk

theorem tryAccept_accepted (ha : k.accepted = true) : tryAccept cl who s = s := by
  simp [tryAccept, hk, ha]

theorem tryAccept_none (hu : acceptCmd k.cmd s = none) : tryAccept cl who s = s := by
  simp [tryAccept, hk, hu]

theorem tryAccept_some (ha : k.accepted = false) (hu : acceptCmd k.cmd s = some u) :
    tryAccept cl who s = u.modCl cl fun x => { x with kicks := KMap.set x.kicks who { k with accepted := true } } := by
  simp [tryAccept, hk, ha, hu]

end Kick

theorem kicks_kicked (s : State) (cl who : Nat) (u : Unit6) (c : Cmd) :
    KMap.get? ((s.kicked cl who u c).cl cl).kicks who = some ⟨c, false⟩ := by
  simp [State.kicked, KMap.get?_set_self]

/-- The kick is gone whatever it had come to. -/
theorem unkicked_modCl_kicks (s : State) (cl who : Nat) (k : Kick) :
    (s.modCl cl fun x => { x with kicks := KMap.set x.kicks who k }).unkicked cl who = s.unkicked cl who := by
  rw [State.unkicked, State.modCl_modCl, State.unkicked]
  simp only [KMap.erase_set]

/-! ### The end of an issue (R125) -/

/-- What follows the kick of agent `who`: the engine accepts it where it can, and once it has, `SEQ` is written; true when the
instruction is done. -/
def issueEnd (d : Reg) (cl who : Nat) : Act Bool := do
  modify (tryAccept cl who)
  let s ← get
  match KMap.get? (s.cl cl).kicks who with
  | some k =>
    if k.accepted then
      set ((s.unkicked cl who).wr d (k.cmd.seq.setWidth 64))
      pure true
    else pure false
  | none => pure true

section IssueEnd

variable {s u : State} {cl who : Nat} {d : Reg} {k : Kick}

theorem issueEnd_run (hk : KMap.get? ((tryAccept cl who s).cl cl).kicks who = some k) :
    issueEnd d cl who s = if k.accepted then .ok (true, ((tryAccept cl who s).unkicked cl who).wr d (k.cmd.seq.setWidth 64))
      else .ok (false, tryAccept cl who s) := by
  unfold issueEnd
  rw [Act.bind_ok (Act.modify_run _ _), Act.bind_ok (Act.get_run _)]
  simp only [hk, Act.ite_run]
  rfl

theorem issueEnd_accepted (hk : KMap.get? (s.cl cl).kicks who = some k) (ha : k.accepted = true) :
    issueEnd d cl who s = .ok (true, (s.unkicked cl who).wr d (k.cmd.seq.setWidth 64)) := by
  have same := tryAccept_accepted hk ha
  rw [issueEnd_run (by rw [same]; exact hk), same, if_pos ha]

theorem issueEnd_accepts (hk : KMap.get? (s.cl cl).kicks who = some k) (ha : k.accepted = false)
    (hu : acceptCmd k.cmd s = some u) :
    issueEnd d cl who s = .ok (true, (u.unkicked cl who).wr d (k.cmd.seq.setWidth 64)) := by
  have taken := tryAccept_some hk ha hu
  rw [issueEnd_run (k := { k with accepted := true }) (by rw [taken]; simp [KMap.get?_set_self]), taken, unkicked_modCl_kicks]
  rfl

theorem issueEnd_pending (hk : KMap.get? (s.cl cl).kicks who = some k) (ha : k.accepted = false)
    (hu : acceptCmd k.cmd s = none) : issueEnd d cl who s = .ok (false, s) := by
  have same := tryAccept_none hk hu
  rw [issueEnd_run (by rw [same]; exact hk), same, ha]
  rfl

end IssueEnd

/-! ### The instruction (R125) -/

theorem actOpW_run {i : Instr} {p : Pred} {w : Wait} {a : Act Bool} {b : Bool} {s t : State} (hp : s.holds p = true)
    (ha : a s = .ok (b, t)) : actOpW i p w a s = .next (if b then retire i t else t.noteWait w) := by
  cases b
  · exact actOpW_waits hp ha
  · exact actOpW_done hp ha

section IssueOp

variable {i : Instr} {p : Pred} {v : Unit6} {op : Nat} {d a : Reg} {fs : List Reg} {check : Cmd → Act Cmd} {s t : State} {b : Bool}

/-- An issue whose kick stands goes on to its end. -/
theorem issueOp_again {k : Kick} (hp : s.holds p = true) (hk : KMap.get? (s.cl s.selfCl).kicks (agentNum s) = some k)
    (he : issueEnd d s.selfCl (agentNum s) s = .ok (b, t)) :
    issueOp i p v op d a fs check s = .next (if b then retire i t else t.noteWait .engine) := by
  refine actOpW_run hp ?_
  rw [Act.bind_ok (Act.get_run s)]
  simp only [hk]
  exact he

/-- A first issue builds its command, checks it, kicks it under its queue's next number, and goes on to its end. -/
theorem issueOp_first {s1 s2 : State} {c0 c1 c : Cmd} (hp : s.holds p = true) (hno : noKick s) (hall : allPassed s)
    (ht : template v op a fs s = .ok (c0, s1)) (hc : check c0 s1 = .ok (c1, s2))
    (hn : c = numbered c1 ((s2.cl s.selfCl).lastSeq v + 1#32))
    (he : issueEnd d s.selfCl (agentNum s) (s2.kicked s.selfCl (agentNum s) v c) = .ok (b, t)) :
    issueOp i p v op d a fs check s = .next (if b then retire i t else t.noteWait .engine) := by
  subst hn
  unfold noKick at hno
  refine actOpW_run hp ?_
  rw [Act.bind_ok (Act.get_run s)]
  simp only [hno]
  rw [Act.bind_ok (awaitAll_ok hall), Act.bind_ok ht, Act.bind_ok hc, Act.bind_ok (Act.modify_run _ _)]
  exact he

end IssueOp

/-- Each instruction of the table is an issue of its command (Tables 6.3, 11.1, 12.7). -/
theorem exec_issueRows {w : IssueRow} (hw : w ∈ issueRows) (p : Pred) (d a f0 f1 f2 f3 : Reg) (s : State) :
    exec (w.form p d a f0 f1 f2 f3) s = issueOp (w.form p d a f0 f1 f2 f3) p w.unit w.op d a [f0, f1, f2, f3] w.check s := by
  have all : issueRows.Forall fun w =>
      exec (w.form p d a f0 f1 f2 f3) s = issueOp (w.form p d a f0 f1 f2 f3) p w.unit w.op d a [f0, f1, f2, f3] w.check s := by
    refine ⟨?_, ?_, ?_, ?_, ?_, ?_, ?_, ?_, ?_, ?_, ?_, ?_, ?_, ?_, ?_⟩ <;> rfl
  exact List.forall_iff_forall_mem.mp all w hw

/-! ### Acceptance (R17, R128, R135, R136) -/

/-- `t` is `s` but for lines that have come to be owed: fills, the owed bits of scratchpads, and the states of slabs' lines. -/
structure OwesMore (s t : State) : Prop where
  hbm : t.hbm = s.hbm
  cl : ∀ c, t.cl c = { s.cl c with owed := (t.cl c).owed }

namespace OwesMore

theorem refl (s : State) : OwesMore s s := ⟨rfl, fun _ => rfl⟩

theorem trans {s t u : State} (h : OwesMore s t) (g : OwesMore t u) : OwesMore s u where
  hbm := g.hbm.trans h.hbm
  cl c := by rw [g.cl c, h.cl c]

theorem cmds {s t : State} (h : OwesMore s t) (c : Nat) : (t.cl c).cmds = (s.cl c).cmds := by rw [h.cl c]
theorem sregs {s t : State} (h : OwesMore s t) (c : Nat) : (t.cl c).sregs = (s.cl c).sregs := by rw [h.cl c]
theorem flags {s t : State} (h : OwesMore s t) (c : Nat) : (t.cl c).flags = (s.cl c).flags := by rw [h.cl c]
theorem scoreboard {s t : State} (h : OwesMore s t) (c : Nat) : (t.cl c).scoreboard = (s.cl c).scoreboard := by rw [h.cl c]
theorem spByte {s t : State} (h : OwesMore s t) (c a : Nat) : t.spByte c a = s.spByte c a := by
  unfold State.spByte; rw [h.cl c]; rfl

end OwesMore

@[simp] theorem setOwed_fills (s : State) (l : LineRef) (b : Bool) : (s.setOwed l b).fills = s.fills := by cases l <;> rfl

theorem owesMore_setOwed (s : State) (l : LineRef) (b : Bool) : OwesMore s (s.setOwed l b) := by
  cases l with
  | tile d r c sl n => exact ⟨rfl, fun _ => rfl⟩
  | sram cl n =>
    refine ⟨rfl, fun j => ?_⟩
    by_cases hj : j = cl
    · subst hj; simp only [State.setOwed, State.cl_modCl_self]
    · simp only [State.setOwed, State.cl_modCl_ne _ _ hj]

theorem owesMore_beginFill (c : Cmd) (b : Bool) (l : LineRef) (s : State) : OwesMore s (beginFill c b l s) := by
  unfold beginFill
  refine .trans ?_ (owesMore_setOwed _ _ _)
  exact ⟨rfl, fun _ => rfl⟩

theorem lineOwed_beginFill (c : Cmd) (b : Bool) (l m : LineRef) (s : State) :
    lineOwed (beginFill c b l s) m = (lineOwed s m || l == m) := by
  simp [lineOwed, beginFill]

/-- The fills of a list of lines begin, each counted or not as `b` says. -/
theorem owesMore_beginFills (c : Cmd) (b : LineRef → Bool) (ls : List LineRef) (s : State) :
    OwesMore s (ls.foldl (fun s l => beginFill c (b l) l s) s) := by
  induction ls generalizing s with
  | nil => exact .refl s
  | cons l ls ih => exact (owesMore_beginFill c _ l s).trans (ih _)

theorem lineOwed_beginFills (c : Cmd) (b : LineRef → Bool) (ls : List LineRef) (s : State) (m : LineRef) :
    lineOwed (ls.foldl (fun s l => beginFill c (b l) l s) s) m = (lineOwed s m || ls.contains m) := by
  induction ls generalizing s with
  | nil => simp
  | cons l ls ih => rw [List.foldl_cons, ih, lineOwed_beginFill, List.contains_cons, Bool.or_assoc, BEq.comm]

theorem takeSlot_none {c : Cmd} {s : State} (h : slotFree s c.unit c.cl = false ∨ ∃ l ∈ c.linesAtAcceptance s, lineOwed s l = true) :
    takeSlot c s = none := by
  unfold takeSlot
  rw [if_pos (by simpa using h)]

/-- The command as its slot holds it: the items that its bitmap shows done are done, and its follow-on is owed (R136, R141). -/
def Cmd.inSlot (c : Cmd) (s : State) : Cmd :=
  let before := (List.range c.items_).filter (doneBefore s c)
  { c with
    born := s.tick
    items := if c.op == opEacc then before.flatMap fun j => (List.range (c.n0 + 1)).map fun i => j * (c.n0 + 1) + i else before
    follow := if c.flw then .owed else .none }

/-- The slot taken, its bitmap cleared where the command asks for that. -/
def State.slotTaken (s : State) (c : Cmd) : State :=
  s.modCl c.cl fun x =>
    { x with
      cmds := x.cmds ++ [c.inSlot s]
      cbm := if c.ben && c.bclr then KMap.set x.cbm c.bmp 0#4096 else x.cbm }

theorem takeSlot_some {c : Cmd} {s : State} (hf : slotFree s c.unit c.cl = true)
    (ho : ∀ l ∈ c.linesAtAcceptance s, lineOwed s l = false) :
    takeSlot c s = some ((c.linesAtAcceptance s).foldl
      (fun t l => beginFill (c.inSlot s) ((c.inSlot s).counts s l) l t) (s.slotTaken c)) := by
  unfold takeSlot
  rw [if_neg (by simpa [hf] using ho)]
  rfl

/-- A command that is accepted is held after the others, its lines owed, and the registers, flags and bytes stand. -/
theorem takeSlot_holds {c : Cmd} {s : State} (hf : slotFree s c.unit c.cl = true)
    (ho : ∀ l ∈ c.linesAtAcceptance s, lineOwed s l = false) :
    ∃ u, takeSlot c s = some u ∧ (u.cl c.cl).cmds = (s.cl c.cl).cmds ++ [c.inSlot s]
      ∧ (∀ l ∈ c.linesAtAcceptance s, lineOwed u l = true)
      ∧ (∀ j, (u.cl j).sregs = (s.cl j).sregs ∧ (u.cl j).flags = (s.cl j).flags ∧ (u.cl j).scoreboard = (s.cl j).scoreboard)
      ∧ u.hbm = s.hbm ∧ ∀ j a, u.spByte j a = s.spByte j a := by
  have more := owesMore_beginFills (c.inSlot s) ((c.inSlot s).counts s) (c.linesAtAcceptance s) (s.slotTaken c)
  refine ⟨_, takeSlot_some hf ho, ?_, fun l hl => ?_, fun j => ⟨?_, ?_, ?_⟩, more.hbm, fun j a => ?_⟩
  · rw [more.cmds, State.slotTaken, State.cl_modCl_self]
  · rw [lineOwed_beginFills]; simp [hl]
  · rw [more.sregs, State.slotTaken, State.cl_modCl_keeps Cluster.sregs _ _ _ rfl]
  · rw [more.flags, State.slotTaken, State.cl_modCl_keeps Cluster.flags _ _ _ rfl]
  · rw [more.scoreboard, State.slotTaken, State.cl_modCl_keeps Cluster.scoreboard _ _ _ rfl]
  · rw [more.spByte]
    exact State.cl_modCl_keeps (fun x => (sramRead x a 1).headD 0#8) _ _ _ rfl j

/-! ### Commands accepted with their list, or without one (R135) -/

/-- An `escat`, which is accepted with its list. -/
def Cmd.listed (c : Cmd) : Prop := c.unit = .copy ∧ c.op = opEscat

section Accept

variable {c c1 : Cmd} {s s0 : State}

theorem acceptCmd_unlisted (h : ¬ c.listed) : acceptCmd c s = takeSlot c s := by
  unfold acceptCmd
  exact if_neg (by simpa [Cmd.listed] using h)

theorem acceptCmd_notReady (h : c.listed) (hw : c.ready s = false ∨ readList c s = .error .wait) : acceptCmd c s = none := by
  obtain ⟨hu, ho⟩ := h
  rcases hw with hw | hw <;> simp [acceptCmd, hu, ho, hw]

theorem acceptCmd_list {l : List Nat} (h : c.listed) (hr : c.ready s = true) (hl : readList c s = .ok (l, s0)) :
    acceptCmd c s = takeSlot { c with idx := l, started := true } s0 := by
  obtain ⟨hu, ho⟩ := h
  simp [acceptCmd, hu, ho, hr, hl]

theorem acceptCmd_parked {e : BitVec 8} {a : Nat} (h : c.listed) (hr : c.ready s = true)
    (hl : readList c s = .error (.park e a)) : acceptCmd c s = takeSlot c s := by
  obtain ⟨hu, ho⟩ := h
  simp [acceptCmd, hu, ho, hr, hl]

end Accept

end Sys2Proof.Machine
end

section
namespace Sys2Proof.Machine

/-- Settles O43: an issue goes on to its end, which the acceptance of its kick decides; an acceptance is the taking of a slot, by the
command itself or, for a scatter, with its list. -/
theorem commandIssue : Obligations.CommandIssue := by
  refine ⟨fun w hw s s1 s2 p d a f0 f1 f2 f3 c0 c1 => ?_, fun s s0 c c1 => ⟨acceptCmd_notReady, fun hlist hplain => ?_⟩⟩
  · dsimp only
    rw [exec_issueRows hw]
    refine fun hp => ⟨fun hno hall ht hc _ => ⟨fun u hu => ?_, fun hu => ?_⟩, fun k hk ha => ?_⟩
    · exact issueOp_first hp hno hall ht hc rfl (issueEnd_accepts (kicks_kicked _ _ _ _ _) rfl hu)
    · exact issueOp_first hp hno hall ht hc rfl (issueEnd_pending (kicks_kicked _ _ _ _ _) rfl hu)
    · exact issueOp_again hp hk (issueEnd_accepted hk ha)
  · have taken : acceptCmd c s = takeSlot c1 s0 ∧ c1 = { c with idx := c1.idx, started := c1.started } := by
      by_cases h : c.listed
      · obtain ⟨hr, ⟨l, hl, rfl⟩ | ⟨⟨e, a, hl⟩, rfl, rfl⟩⟩ := hlist h
        · exact ⟨acceptCmd_list h hr hl, rfl⟩
        · exact ⟨acceptCmd_parked h hr hl, rfl⟩
      · obtain ⟨rfl, rfl⟩ := hplain h
        exact ⟨acceptCmd_unlisted h, rfl⟩
    obtain ⟨taken, same⟩ := taken
    have hunit : c1.unit = c.unit := by rw [same]
    have hcl : c1.cl = c.cl := by rw [same]
    rw [taken, ← hunit, ← hcl]
    refine ⟨takeSlot_none, fun hf ho => ?_⟩
    obtain ⟨u, hu, hcmds, howed, hregs, hbm, hbytes⟩ := takeSlot_holds hf ho
    exact ⟨u, c1.inSlot s0, hu, hcmds, rfl, by rw [same]; rfl, by rw [same]; rfl, by rw [same]; rfl, by rw [same]; rfl, rfl, rfl,
      howed, hregs, hbm, hbytes⟩

end Sys2Proof.Machine
end

section
/-! SUPPORT. What the device's own stores leave: a store at a slice, an entry of a fault log and a record of an undo log change no
cluster. -/

namespace Sys2Proof.Machine

theorem foldl_clusters {α : Type} {f : State → α → State} (hf : ∀ s a, (f s a).clusters = s.clusters) (l : List α) (s : State) :
    (l.foldl f s).clusters = s.clusters := by
  induction l generalizing s with
  | nil => rfl
  | cons a l ih => exact (ih (f s a)).trans (hf s a)

@[simp] theorem count_clusters (s : State) (die n k : Nat) : (s.count die n k).clusters = s.clusters := by
  unfold State.count; split <;> rfl

@[simp] theorem poison_clusters (s : State) (q : Nat) : (s.poison q).clusters = s.clusters := by
  unfold State.poison
  split
  · rfl
  · exact count_clusters _ _ _ _

@[simp] theorem l2One_clusters (line : Nat) (fill whole part : BitVec 4) (s : State) :
    (l2One line fill whole part s).clusters = s.clusters := by
  unfold l2One l2Leave
  exact foldl_clusters poison_clusters _ _

@[simp] theorem l2Read_clusters (a n : Nat) (s : State) : (l2Read a n s).clusters = s.clusters :=
  foldl_clusters (fun s _ => l2One_clusters _ _ _ _ s) _ s

@[simp] theorem slicePut_clusters (s : State) (a : Nat) (bs : List Byte) : (s.slicePut a bs).clusters = s.clusters :=
  foldl_clusters (fun s _ => l2One_clusters _ _ _ _ s) _ s

@[simp] theorem logFault_clusters (s : State) (ctx : Nat) (e : LogEntry) : (s.logFault ctx e).clusters = s.clusters := by
  unfold State.logFault
  split
  · rfl
  dsimp only
  split
  · split <;> simp
  · simp

@[simp] theorem exposeGang_clusters (g : Nat) (s : State) : (exposeGang g s).clusters = s.clusters := by
  unfold exposeGang
  split
  · rfl
  dsimp only
  split <;> rfl

@[simp] theorem undoAppend_clusters (s : State) (ctx d : Nat) (old : List Byte) (loc osh g : Nat) :
    (undoAppend s ctx d old loc osh g).1.clusters = s.clusters := by
  unfold undoAppend
  split
  · rfl
  dsimp only
  split <;> simp

theorem State.cl_of_clusters {s t : State} (h : t.clusters = s.clusters) (c : Nat) : t.cl c = s.cl c := by
  unfold State.cl; rw [h]


end Sys2Proof.Machine
end

section
/-! SUPPORT. Bytes of a scratchpad (R110, R116, R371): what each reads as after a store. -/

namespace Sys2Proof.Machine

/-! ### Sets and maps read back -/

theorem NSet.mem_insert {l : NSet} {k j : Nat} : j ∈ NSet.insert l k ↔ j = k ∨ j ∈ l := by
  induction l with
  | nil => simp [NSet.insert]
  | cons i t ih =>
    simp only [NSet.insert]
    split
    · simp
    · split
      · next h =>
        have hik : i = k := by simpa using h
        simp [hik]
      · simp only [List.mem_cons, ih]; exact or_left_comm

theorem KMap.get?_erase_self {α : Type} (m : KMap α) (k : Nat) : KMap.get? (KMap.erase m k) k = none := by
  induction m with
  | nil => rfl
  | cons e t ih =>
    obtain ⟨j, x⟩ := e
    by_cases h : j = k
    · simpa [KMap.erase, h] using ih
    · simpa [KMap.erase, KMap.get?, h] using ih

/-! ### Zeros -/

theorem Mem.cells_replicate_zero (n a : Nat) : Mem.cells a (List.replicate n 0#8) = [] := by
  induction n generalizing a with
  | zero => rfl
  | succ n ih => simp [List.replicate_succ, Mem.cells, ih]

/-- Clearing is storing zeros. -/
theorem Mem.zero_eq_write (m : Mem) (a n : Nat) : Mem.zero m a n = Mem.write m a (List.replicate n 0#8) := by
  simp [Mem.zero, Mem.write, Mem.cells_replicate_zero]

theorem Mem.byte_zero (m : Mem) (a n b : Nat) :
    Mem.byte (Mem.zero m a n) b = if a ≤ b ∧ b < a + n then 0#8 else Mem.byte m b := by
  rw [Mem.zero_eq_write, Mem.byte_write, List.length_replicate]
  split
  · next h => rw [List.getD_replicate _ (by omega)]
  · rfl

/-! ### One byte -/

/-- The byte at an offset of a cluster's scratchpad. -/
def Cluster.byte (x : Cluster) (a : Nat) : Byte := if a / 128 ∈ x.written then Mem.byte x.sram a else 0#8

theorem State.spByte_eq (s : State) (c a : Nat) : s.spByte c a = (s.cl c).byte a := by
  simp [State.spByte, sramRead, Cluster.byte]

/-- A line's first touch leaves what its bytes read as (R371). -/
theorem byte_touchLine (x : Cluster) (line a : Nat) : (touchLine x line).byte a = x.byte a := by
  unfold touchLine
  split
  · rfl
  · next h =>
    simp only [List.contains_iff_mem] at h
    simp only [Cluster.byte, NSet.mem_insert, Mem.byte_zero]
    by_cases hl : a / 128 = line
    · subst hl
      rw [if_pos (by omega : 128 * (a / 128) ≤ a ∧ a < 128 * (a / 128) + 128), ite_self, if_neg h]
    · rw [if_neg (by omega : ¬ (128 * line ≤ a ∧ a < 128 * line + 128))]
      simp only [hl, false_or]

theorem mem_written_touchLine {x : Cluster} {line k : Nat} : k ∈ (touchLine x line).written ↔ k = line ∨ k ∈ x.written := by
  unfold touchLine
  split
  · next h =>
    simp only [List.contains_iff_mem] at h
    exact ⟨Or.inr, fun hk => hk.elim (fun e => e ▸ h) id⟩
  · exact NSet.mem_insert

/-! ### A store (R110, R116) -/

/-- An undo record is made outside the clusters; in one, the line's logged bit is all that changes (R116). -/
theorem logHeartwood_cases (s : State) (c line : Nat) : (logHeartwood s c line).clusters = s.clusters
    ∨ ∃ t : State, t.clusters = s.clusters
      ∧ logHeartwood s c line = t.modCl c fun x => { x with logged := NSet.insert x.logged line } := by
  unfold logHeartwood
  split
  · dsimp only
    split
    · next h => exact Or.inr ⟨_, (congrArg (fun r => r.1.clusters) h).symm.trans (undoAppend_clusters _ _ _ _ _ _ _), rfl⟩
    · next h => exact Or.inl ((congrArg (fun r => r.1.clusters) h).symm.trans (undoAppend_clusters _ _ _ _ _ _ _))
  · exact Or.inl rfl

theorem byte_logHeartwood (s : State) (c line j a : Nat) : ((logHeartwood s c line).cl j).byte a = (s.cl j).byte a := by
  obtain h | ⟨t, ht, h⟩ := logHeartwood_cases s c line
  · rw [State.cl_of_clusters h]
  · rw [h, State.cl_modCl_keeps (Cluster.byte · a) _ _ _ rfl, State.cl_of_clusters ht]

/-- The lines of a store made ready: logged, and touched. -/
def readyLines (c : Nat) (ls : List Nat) (s : State) : State :=
  ls.foldl (fun s l => (logHeartwood s c l).modCl c fun x => touchLine x l) s

theorem byte_readyLines (c : Nat) (ls : List Nat) (s : State) (j a : Nat) :
    ((readyLines c ls s).cl j).byte a = (s.cl j).byte a := by
  induction ls generalizing s with
  | nil => rfl
  | cons l ls ih =>
    exact (ih _).trans ((State.cl_modCl_keeps (Cluster.byte · a) _ _ _ (byte_touchLine _ _ _) j).trans (byte_logHeartwood s c l j a))

/-- No line that has been touched goes back. -/
theorem written_readyLines {c : Nat} {ls : List Nat} {s : State} {k : Nat} (h : k ∈ ls ∨ k ∈ (s.cl c).written) :
    k ∈ ((readyLines c ls s).cl c).written := by
  induction ls generalizing s with
  | nil => simpa [readyLines] using h
  | cons l ls ih =>
    refine ih ?_
    rw [State.cl_modCl_self, mem_written_touchLine]
    have kept : ((logHeartwood s c l).cl c).written = (s.cl c).written := by
      obtain h | ⟨t, ht, h⟩ := logHeartwood_cases s c l
      · rw [State.cl_of_clusters h]
      · rw [h, State.cl_modCl_self, State.cl_of_clusters ht]
    rw [kept]
    rcases h with h | h
    · rcases List.mem_cons.mp h with h | h
      · exact Or.inr (Or.inl h)
      · exact Or.inl h
    · exact Or.inr (Or.inr h)

theorem sramWrite_eq (s : State) (c off : Nat) (bs : List Byte) : sramWrite s c off bs =
    (readyLines c (linesOf off bs.length) s).modCl c fun x => { x with sram := Mem.write x.sram off bs } := rfl

theorem mem_linesOf {a n b : Nat} (h : a ≤ b ∧ b < a + n) : b / 128 ∈ linesOf a n := by
  have hn : (n == 0) = false := by simp; omega
  simp only [linesOf, hn, Bool.false_eq_true, if_false, List.mem_map, List.mem_range]
  exact ⟨b / 128 - a / 128, by omega, by omega⟩

/-- What a byte of a scratchpad reads after a store: the byte stored there, or what it read before. -/
theorem byte_sramWrite (s : State) (c off : Nat) (bs : List Byte) (j a : Nat) : ((sramWrite s c off bs).cl j).byte a =
    if j = c ∧ off ≤ a ∧ a < off + bs.length then bs.getD (a - off) 0#8 else (s.cl j).byte a := by
  have ready := byte_readyLines c (linesOf off bs.length) s j a
  rw [sramWrite_eq]
  by_cases hj : j = c
  · subst hj
    rw [State.cl_modCl_self]
    rw [Cluster.byte] at ready ⊢
    simp only [Mem.byte_write, true_and]
    by_cases ha : off ≤ a ∧ a < off + bs.length
    · rw [if_pos ha, if_pos ha, if_pos (written_readyLines (Or.inl (mem_linesOf ha)))]
    · rw [if_neg ha, if_neg ha, ready]
  · rw [State.cl_modCl_ne _ _ hj, ready, if_neg (fun h => hj h.1)]

end Sys2Proof.Machine
end

section
/-! SUPPORT. Byte counters (R357 to R359): what one delivery does to the counter that covers it, and what it leaves. -/

namespace Sys2Proof.Machine

@[simp] theorem logPhase_clusters (s : State) (cl : Nat) : (s.logPhase cl).clusters = s.clusters := by
  unfold State.logPhase
  split
  · rfl
  · exact logFault_clusters _ _ _

@[simp] theorem cl_logPhase (s : State) (cl j : Nat) : (s.logPhase cl).cl j = s.cl j :=
  State.cl_of_clusters (logPhase_clusters s cl) j

@[simp] theorem counter_setCounter_self (x : Cluster) (k : Nat) (b : ByteCounter) : (x.setCounter k b).counter k = b :=
  KMap.getD_set_self _ _ _ _

theorem counter_setCounter_ne (x : Cluster) {k j : Nat} (b : ByteCounter) (h : j ≠ k) :
    (x.setCounter k b).counter j = x.counter j := KMap.getD_set_ne _ _ _ h

/-- Whether byte counter `k` of a cluster covers a line (R357). -/
def Cluster.covers (x : Cluster) (k line : Nat) : Bool :=
  (x.counter k).bound && (x.counter k).base ≤ line && line < (x.counter k).base + (x.counter k).lines

/-! ### What counting leaves -/

/-- Scratchpad bytes, clear bits and owed bits of a cluster. -/
def Cluster.store (x : Cluster) : Mem × NSet × KMap Nat := (x.sram, x.written, x.owed)

/-- `t` is `s`, in the cluster's scratchpads and in the counters of cluster `cl` but for counter `k`. -/
structure CountsAt (cl k : Nat) (s t : State) : Prop where
  store : ∀ j, (t.cl j).store = (s.cl j).store
  counter : ∀ j, j ≠ k → (t.cl cl).counter j = (s.cl cl).counter j

namespace CountsAt

variable {cl k : Nat} {s t u : State}

theorem refl (s : State) : CountsAt cl k s s := ⟨fun _ => rfl, fun _ _ => rfl⟩

theorem trans (h : CountsAt cl k s t) (g : CountsAt cl k t u) : CountsAt cl k s u where
  store j := (g.store j).trans (h.store j)
  counter j hj := (g.counter j hj).trans (h.counter j hj)

theorem of_clusters (h : t.clusters = s.clusters) : CountsAt cl k s t where
  store j := by rw [State.cl_of_clusters h]
  counter j _ := by rw [State.cl_of_clusters h]

theorem setCounter (s : State) (b : Cluster → ByteCounter) : CountsAt cl k s (s.modCl cl fun x => x.setCounter k (b x)) where
  store := State.cl_modCl_keeps Cluster.store _ _ _ rfl
  counter j hj := by rw [State.cl_modCl_self, counter_setCounter_ne _ _ hj]

theorem setFlag (s : State) (n : Nat) (v : Bool) : CountsAt cl k s (s.setFlagOf cl n v) where
  store := State.cl_modCl_keeps Cluster.store _ _ _ rfl
  counter j _ := by rw [State.setFlagOf, State.cl_modCl_self]; rfl

end CountsAt

theorem countsAt_fail (s : State) (cl k : Nat) (b : ByteCounter) :
    CountsAt cl k s ((s.modCl cl fun x => x.setCounter k b).logPhase cl) :=
  (CountsAt.setCounter s _).trans (.of_clusters (logPhase_clusters _ _))

theorem countsAt_settleCounter (cl k : Nat) (s : State) : CountsAt cl k s (settleCounter cl k s) := by
  unfold settleCounter
  dsimp only
  split
  · exact .refl s
  split
  · exact (CountsAt.setFlag s _ _).trans (.setCounter _ _)
  split
  · exact countsAt_fail s cl k _
  · exact .refl s

theorem countsAt_countLanding (cl line n : Nat) (tag : BitVec 32) (k : Nat) (s : State) :
    CountsAt cl k s (countLanding cl line n tag k s) := by
  unfold countLanding
  dsimp only
  split
  · exact .refl s
  split
  · split
    · exact countsAt_fail s cl k _
    · exact (CountsAt.setCounter s _).trans (countsAt_settleCounter cl k _)
  split
  · split
    · exact countsAt_fail s cl k _
    · exact .setCounter s _
  · exact countsAt_fail s cl k _

theorem store_countAll (cl line n : Nat) (tag : BitVec 32) (s : State) (j : Nat) :
    ((countAll cl line n tag s).cl j).store = (s.cl j).store := by
  unfold countAll
  induction List.range 8 generalizing s with
  | nil => rfl
  | cons k ks ih => exact (ih _).trans ((countsAt_countLanding cl line n tag k s).store j)

/-! ### The counter that counts -/

theorem countLanding_elsewhere {cl line n k : Nat} {tag : BitVec 32} {s : State} (h : (s.cl cl).covers k line = false) :
    countLanding cl line n tag k s = s := by
  unfold Cluster.covers at h
  unfold countLanding
  dsimp only
  rw [h]
  rfl

theorem foldl_countLanding_elsewhere {cl line n : Nat} {tag : BitVec 32} {ks : List Nat} {s : State}
    (h : ∀ k ∈ ks, (s.cl cl).covers k line = false) : ks.foldl (fun s k => countLanding cl line n tag k s) s = s := by
  induction ks with
  | nil => rfl
  | cons k ks ih =>
    rw [List.foldl_cons, countLanding_elsewhere (h k (by simp))]
    exact ih fun j hj => h j (List.mem_cons_of_mem _ hj)

/-- Regions do not overlap: where no other counter covers the line, counter `k` alone counts. -/
theorem countAll_one {cl line n k : Nat} {tag : BitVec 32} {s : State} (hk : k < 8)
    (h : ∀ j, j < 8 → j ≠ k → (s.cl cl).covers j line = false) : countAll cl line n tag s = countLanding cl line n tag k s := by
  obtain ⟨l, r, hlr⟩ := List.append_of_mem (List.mem_range.mpr hk)
  have nodup : (l ++ k :: r).Nodup := hlr ▸ List.nodup_range
  have elsewhere (j : Nat) (hj : j ∈ l ∨ j ∈ r) : j < 8 ∧ j ≠ k := by
    refine ⟨List.mem_range.mp (hlr ▸ List.mem_append.mpr (hj.imp id (List.mem_cons_of_mem k))), ?_⟩
    rintro rfl
    rw [List.nodup_middle] at nodup
    exact (List.nodup_cons.mp nodup).1 (List.mem_append.mpr hj)
  unfold countAll
  rw [hlr, List.foldl_append, List.foldl_cons]
  rw [foldl_countLanding_elsewhere fun j hj => h j (elsewhere j (.inl hj)).1 (elsewhere j (.inl hj)).2]
  refine foldl_countLanding_elsewhere fun j hj => ?_
  obtain ⟨hj8, hjk⟩ := elsewhere j (.inr hj)
  rw [Cluster.covers, (countsAt_countLanding cl line n tag k s).counter j hjk]
  exact h j hj8 hjk

section Covered

variable {cl line n k : Nat} {s : State} (h : (s.cl cl).covers k line = true)
include h

/-- Bytes of the counter's phase count at once (R358). -/
theorem countLanding_phase (hn : (((s.cl cl).counter k).cur + n).natAbs < 2 ^ 39) :
    countLanding cl line n ((s.cl cl).counter k).phase k s
      = settleCounter cl k (s.modCl cl fun x => x.setCounter k { (s.cl cl).counter k with cur := ((s.cl cl).counter k).cur + n }) := by
  unfold Cluster.covers at h
  unfold countLanding
  dsimp only
  rw [h]
  simp only [Bool.not_true, Bool.false_eq_true, if_false, beq_self_eq_true, if_true]
  rw [if_neg (by simpa using hn)]

/-- Bytes of the next phase are kept for it (R358). -/
theorem countLanding_next (hn : (((s.cl cl).counter k).nxt + n).natAbs < 2 ^ 39) :
    countLanding cl line n (((s.cl cl).counter k).phase + 1#32) k s
      = s.modCl cl fun x => x.setCounter k { (s.cl cl).counter k with nxt := ((s.cl cl).counter k).nxt + n } := by
  have later : (((s.cl cl).counter k).phase + 1#32 == ((s.cl cl).counter k).phase) = false := by
    rw [beq_eq_false_iff_ne]; bv_omega
  unfold Cluster.covers at h
  unfold countLanding
  dsimp only
  rw [h]
  simp only [Bool.not_true, Bool.false_eq_true, if_false, later, beq_self_eq_true, if_true]
  rw [if_neg (by simpa using hn)]

end Covered

/-! ### A counter settles (R359) -/

section Settle

variable {cl k : Nat} {s : State}

theorem settleCounter_unposted (h : ((s.cl cl).counter k).pst = false) : settleCounter cl k s = s := by
  simp [settleCounter, h]

theorem settleCounter_balanced (hp : ((s.cl cl).counter k).pst = true) (he : ((s.cl cl).counter k).err = false)
    (hc : ((s.cl cl).counter k).cur = 0) :
    settleCounter cl k s = (s.setFlagOf cl ((s.cl cl).counter k).flag true).modCl cl fun x => x.setCounter k
      { (s.cl cl).counter k with phase := ((s.cl cl).counter k).phase + 1#32, cur := ((s.cl cl).counter k).nxt, nxt := 0, pst := false } := by
  simp [settleCounter, hp, he, hc]

theorem settleCounter_over (hp : ((s.cl cl).counter k).pst = true) (he : ((s.cl cl).counter k).err = false)
    (hc : 0 < ((s.cl cl).counter k).cur) :
    settleCounter cl k s = (s.modCl cl fun x => x.setCounter k { (s.cl cl).counter k with err := true }).logPhase cl := by
  have unbalanced : ((s.cl cl).counter k).cur ≠ 0 := by omega
  simp [settleCounter, hp, he, hc, unbalanced]

end Settle

theorem flags_setFlag_self (x : Cluster) {n : Nat} (hn : n < 4096) : (x.setFlag n true).flags.getLsbD n = true := by
  simp [Cluster.setFlag, hn]

/-! ### What a delivery comes to (R358, R359) -/

section Delivery

variable {cl line n k : Nat} {s : State} (h : (s.cl cl).covers k line = true)
include h

theorem delivery_unposted (hn : (((s.cl cl).counter k).cur + n).natAbs < 2 ^ 39) (hp : ((s.cl cl).counter k).pst = false) :
    let u := countLanding cl line n ((s.cl cl).counter k).phase k s
    (u.cl cl).counter k = { (s.cl cl).counter k with cur := ((s.cl cl).counter k).cur + n } ∧ (u.cl cl).sram = (s.cl cl).sram := by
  dsimp only
  rw [countLanding_phase h hn, settleCounter_unposted (by simpa using hp), State.cl_modCl_self]
  exact ⟨counter_setCounter_self _ _ _, rfl⟩

theorem delivery_balanced (hn : (((s.cl cl).counter k).cur + n).natAbs < 2 ^ 39) (hp : ((s.cl cl).counter k).pst = true)
    (he : ((s.cl cl).counter k).err = false) (hz : ((s.cl cl).counter k).cur + n = 0) :
    let b := (s.cl cl).counter k
    let u := countLanding cl line n b.phase k s
    (u.cl cl).counter k = { b with phase := b.phase + 1#32, cur := b.nxt, nxt := 0, pst := false }
      ∧ (b.flag < 4096 → (u.cl cl).flags.getLsbD b.flag = true) := by
  dsimp only
  rw [countLanding_phase h hn, settleCounter_balanced (by simpa using hp) (by simpa using he) (by simpa using hz)]
  simp only [State.setFlagOf, State.cl_modCl_self, counter_setCounter_self]
  exact ⟨trivial, fun hf => flags_setFlag_self _ hf⟩

theorem delivery_over (hn : (((s.cl cl).counter k).cur + n).natAbs < 2 ^ 39) (hp : ((s.cl cl).counter k).pst = true)
    (he : ((s.cl cl).counter k).err = false) (hz : 0 < ((s.cl cl).counter k).cur + n) :
    let b := (s.cl cl).counter k
    let u := countLanding cl line n b.phase k s
    (u.cl cl).counter k = { b with cur := b.cur + n, err := true } ∧ (u.cl cl).flags = (s.cl cl).flags := by
  dsimp only
  rw [countLanding_phase h hn, settleCounter_over (by simpa using hp) (by simpa using he) (by simpa using hz)]
  simp only [cl_logPhase, State.cl_modCl_self, counter_setCounter_self]
  exact ⟨trivial, rfl⟩

theorem delivery_nextPhase (hn : (((s.cl cl).counter k).nxt + n).natAbs < 2 ^ 39) :
    let b := (s.cl cl).counter k
    let u := countLanding cl line n (b.phase + 1#32) k s
    (u.cl cl).counter k = { b with nxt := b.nxt + n } ∧ (u.cl cl).flags = (s.cl cl).flags := by
  dsimp only
  rw [countLanding_next h hn, State.cl_modCl_self]
  exact ⟨counter_setCounter_self _ _ _, rfl⟩

end Delivery

end Sys2Proof.Machine
end

section
/-! SUPPORT. A line that lands (R17, R122): what its bytes read as, and what else changes. -/

namespace Sys2Proof.Machine

/-! ### Bytes landing on a scratchpad line -/

/-- A line with no bit in error is written as it is (R406). -/
theorem landBytes_clean {cl n g : Nat} {data : List (Nat × Byte)} {s : State} (h : (s.cl cl).bad = []) :
    landBytes cl n g data s = data.foldl (fun s b => sramWrite s cl (128 * n + b.1) [b.2]) s := by
  have rows : rowsEcc cl [n] s = some s := by simp [rowsEcc, rowEcc, rowErrors, h]
  simp only [landBytes, rows]

theorem byte_writeOne (s : State) (cl n o : Nat) (b : Byte) (j a : Nat) : ((sramWrite s cl (128 * n + o) [b]).cl j).byte a =
    if j = cl ∧ 128 * n ≤ a ∧ a - 128 * n = o then b else (s.cl j).byte a := by
  have same : 128 * n + o ≤ a ∧ a < 128 * n + o + [b].length ↔ 128 * n ≤ a ∧ a - 128 * n = o := by
    rw [List.length_singleton]; omega
  rw [byte_sramWrite]
  simp only [same]
  split
  · next h => rw [show a - (128 * n + o) = 0 by omega]; rfl
  · rfl

/-- Bytes written at offsets of a line, each with the value that `g` gives its offset. -/
theorem byte_writes (cl n : Nat) (g : Nat → Byte) (offs : List Nat) (s : State) (j a : Nat) :
    (((offs.map fun o => (o, g o)).foldl (fun s b => sramWrite s cl (128 * n + b.1) [b.2]) s).cl j).byte a
      = if j = cl ∧ 128 * n ≤ a ∧ a - 128 * n ∈ offs then g (a - 128 * n) else (s.cl j).byte a := by
  induction offs generalizing s with
  | nil => simp
  | cons o offs ih =>
    rw [List.map_cons, List.foldl_cons, ih, byte_writeOne]
    by_cases hin : j = cl ∧ 128 * n ≤ a
    · by_cases ho : a - 128 * n = o
      · simp [hin, ho]
      · simp [hin, ho]
    · simp only [← and_assoc, hin, false_and, if_false]

/-- The byte that a fill brings to an offset of its line, where it brings one. -/
def Fill.byteAt (f : Fill) (o : Nat) : Option Byte := (f.bytes.find? fun b => b.1 == o).map (·.2)

theorem Fill.byteAt_isSome {f : Fill} {o : Nat} : (f.byteAt o).isSome = true ↔ o ∈ (f.bytes.map (·.1)).eraseDups := by
  simp [Fill.byteAt, List.mem_eraseDups]

theorem Fill.byteAt_none {f : Fill} {o : Nat} (hf : ∀ b ∈ f.bytes, b.1 < 128) (ho : 128 ≤ o) : f.byteAt o = none := by
  simp only [Fill.byteAt, Option.map_eq_none_iff, List.find?_eq_none, beq_iff_eq]
  intro b hb h
  have := hf b hb
  omega

theorem byte_landBytes {cl n g : Nat} {f : Fill} {s : State} (h : (s.cl cl).bad = []) (j a : Nat) :
    ((landBytes cl n g f.data s).cl j).byte a =
      if j = cl ∧ 128 * n ≤ a then (f.byteAt (a - 128 * n)).getD ((s.cl j).byte a) else (s.cl j).byte a := by
  rw [landBytes_clean h]
  refine (byte_writes cl n (fun o => (f.byteAt o).getD 0#8) _ s j a).trans ?_
  simp only [← Fill.byteAt_isSome, ← and_assoc]
  by_cases hj : j = cl ∧ 128 * n ≤ a
  · rw [if_pos hj]
    cases f.byteAt (a - 128 * n) with
    | none => simp
    | some b => simp [hj]
  · rw [if_neg hj, if_neg fun h => hj h.1]

/-! ### After the bytes: waits end, bytes are counted, the bitmap follows -/

theorem byte_of_store {x y : Cluster} (h : x.store = y.store) (a : Nat) : x.byte a = y.byte a := by
  simp only [Cluster.store, Prod.mk.injEq] at h
  obtain ⟨hsram, hwritten, -⟩ := h
  rw [Cluster.byte, hsram, hwritten, Cluster.byte]

theorem owed_of_store {x y : Cluster} (h : x.store = y.store) : x.owed = y.owed := by
  simp only [Cluster.store, Prod.mk.injEq] at h
  exact h.2.2

theorem store_stir (s : State) (c j : Nat) : ((s.stir c).cl j).store = (s.cl j).store :=
  State.cl_modCl_keeps Cluster.store _ _ _ rfl j

theorem bad_stir (s : State) (c j : Nat) : ((s.stir c).cl j).bad = (s.cl j).bad :=
  State.cl_modCl_keeps Cluster.bad _ _ _ rfl j

theorem store_markLanded (c : Cmd) (s : State) (j : Nat) : ((markLanded c s).cl j).store = (s.cl j).store := by
  unfold markLanded
  split
  · rfl
  split
  · rfl
  · exact State.cl_modCl_keeps Cluster.store _ _ _ rfl j

theorem byte_setOwed (s : State) (l : LineRef) (b : Bool) (j a : Nat) : ((s.setOwed l b).cl j).byte a = (s.cl j).byte a := by
  cases l with
  | sram cl n => exact State.cl_modCl_keeps (Cluster.byte · a) _ _ _ rfl j
  | tile => rfl

/-- The state of the landing scratchpad line `n` of cluster `cl` once its bytes are stored and its owed bit is cleared. -/
def lineStored (f : Fill) (cl n : Nat) (s : State) : State :=
  State.setOwed ((landBytes cl n f.gang f.data (State.stir { s with fills := s.fills.erase f } f.cl)).stir cl) (.sram cl n) false

/-- Counting and the bitmap leave what has been stored. -/
theorem store_landFill {f : Fill} {cl n : Nat} (h : f.line = .sram cl n) (s : State) (j : Nat) :
    ((landFill f s).cl j).store = ((lineStored f cl n s).cl j).store := by
  have counted : ((if f.counted then countAll cl n f.data.length f.tag (lineStored f cl n s) else lineStored f cl n s).cl j).store
      = ((lineStored f cl n s).cl j).store := by
    split
    · exact store_countAll _ _ _ _ _ _
    · rfl
  unfold landFill
  rw [h]
  dsimp only
  split
  · exact (store_markLanded _ _ _).trans counted
  · exact counted

/-- A scratchpad line lands whole: its owed bit is clear, and each of its bytes is the one brought, or what it was. -/
theorem landFill_sram {f : Fill} {cl n : Nat} {s : State} (h : f.line = .sram cl n) (hbad : (s.cl cl).bad = []) :
    KMap.get? ((landFill f s).cl cl).owed n = none
      ∧ ∀ j a, (landFill f s).spByte j a =
        if j = cl ∧ 128 * n ≤ a then (f.byteAt (a - 128 * n)).getD (s.spByte j a) else s.spByte j a := by
  have clean : ((State.stir { s with fills := s.fills.erase f } f.cl).cl cl).bad = [] := (bad_stir _ _ _).trans hbad
  constructor
  · rw [owed_of_store (store_landFill h s cl), lineStored, State.setOwed, State.cl_modCl_self]
    exact KMap.get?_erase_self _ _
  · intro j a
    rw [State.spByte_eq, byte_of_store (store_landFill h s j), lineStored, byte_setOwed, byte_of_store (store_stir _ _ _),
      byte_landBytes clean, byte_of_store (store_stir _ _ _), State.spByte_eq]
    rfl

/-! ### A line of a tile -/

@[simp] theorem tile_modTile_self (s : State) (d k : Nat) (g : Tile → Tile) : (s.modTile d k g).tile d k = g (s.tile d k) := by
  simp [State.tile, State.modTile, KMap.modify]

theorem tile_modTile_ne (s : State) {d k j : Nat} (g : Tile → Tile) (h : j ≠ k) : (s.modTile d k g).tile d j = s.tile d j := by
  simp [State.tile, State.modTile, KMap.modify, KMap.getD_set_ne _ _ _ h]

/-- A tile's line lands full, in its own tile alone. -/
theorem landFill_tile {f : Fill} {d r c sl n : Nat} (h : f.line = .tile d r c sl n) (s : State) :
    ((landFill f s).tile d (24 * r + c)).state sl n = .full
      ∧ (∀ k, k ≠ 24 * r + c → (landFill f s).tile d k = s.tile d k)
      ∧ (landFill f s).clusters = (s.stir f.cl).clusters ∧ (landFill f s).hbm = s.hbm := by
  have landed : ∃ g : Tile → Tile, landFill f s = (State.stir { s with fills := s.fills.erase f } f.cl).modTile d (24 * r + c) g
      ∧ ∀ t, (g t).state sl n = .full := by
    unfold landFill
    rw [h]
    exact ⟨_, rfl, fun t => KMap.getD_set_self _ _ _ _⟩
  obtain ⟨g, hg, full⟩ := landed
  rw [hg]
  exact ⟨by rw [tile_modTile_self, full], fun k hk => tile_modTile_ne _ _ hk, rfl, rfl⟩

/-! ### The events -/

theorem exec_lineLanding {l : LineRef} {f : Fill} {s : State} (h : landable s l = some f) :
    exec (.lineLanding l) s = .next (landFill f s) := by
  show execLineLanding l s = _
  simp only [execLineLanding, h]

theorem line_of_landable {l : LineRef} {f : Fill} {s : State} (h : landable s l = some f) : f.line = l := by
  have := List.find?_some h
  simp only [Bool.and_eq_true, beq_iff_eq] at this
  exact this.1.1

theorem exec_byteCounterDelivery (cl off n : Nat) (tag : BitVec 32) (s : State) : exec (.byteCounterDelivery cl off n tag) s =
    .next (if s.spilled.any (fun p => p.from_ == cl) then s else countAll cl (off / 128) n tag s) := rfl

/-- A follow-on that may run does (R141). -/
theorem exec_followOn {s : State} {cl : Nat} {seq : BitVec 32} {c : Cmd} {t : Task} {i : Instr} (hc : holding s .copy cl seq c)
    (hr : followReady s c = true) (ht : (s.cl cl).task = some t) (hp : t.state ≠ .placed) (hw : c.followWord = some i)
    (hb : behindFollow s c i = false) :
    (∀ u, withCaptured c (fun s => followBody i s) s = .ok u →
        exec (.followOn cl seq) s = .next ((u.setCmd { c with follow := .done }).stir cl))
      ∧ ∀ e a, withCaptured c (fun s => followBody i s) s = .error (.trap e a) →
        exec (.followOn cl seq) s = .next ((s.setCmd { c with follow := .failed }).logFault c.ctx
          ⟨0x65#8, 2, c.agent + 1, engNum .M, 0, c.seq, 0, c.gen, a.toNat, e.toNat⟩) := by
  have run : exec (.followOn cl seq) s = execFollowOn cl seq s := rfl
  simp only [run, execFollowOn, hc.1]
  constructor
  · intro u hu
    simp [hr, ht, hp, hw, hb, hu]
  · intro e a he
    simp [hr, ht, hp, hw, hb, he]

end Sys2Proof.Machine
end

section
namespace Sys2Proof.Machine.Settled

/-- Settles O46: a landing stores its fill's bytes and clears the owed bit, and what follows leaves both; a follow-on runs; a
delivery is what the one counter that covers its line makes of it. -/
theorem landing : Obligations.Landing := by
  refine ⟨fun s l f hl => ⟨?_, ?_⟩, fun s cl seq c t i hc hr ht hp hw hb => exec_followOn hc hr ht hp hw hb, ?_⟩
  · intro cl n h hoffs hbad
    obtain ⟨owed, bytes⟩ := landFill_sram ((line_of_landable hl).trans h) hbad
    refine ⟨_, exec_lineLanding hl, owed, fun o ho => ?_, fun c a hout => ?_⟩
    · have brought := bytes cl (128 * n + o)
      rw [if_pos ⟨rfl, by omega⟩, Nat.add_sub_cancel_left, Fill.byteAt] at brought
      rw [brought]
      cases f.bytes.find? fun b => b.1 == o <;> rfl
    · rw [bytes]
      split
      · next hin => rw [Fill.byteAt_none hoffs (by have := fun h => hout ⟨hin.1, hin.2, h⟩; omega)]; rfl
      · rfl
  · intro d r c sl n h _
    exact ⟨_, exec_lineLanding hl, landFill_tile ((line_of_landable hl).trans h) s⟩
  · intro s cl off n k tag hk b alone
    have counts : exec (.byteCounterDelivery cl off n tag) s =
        .next (if s.spilled.any (fun p => p.from_ == cl) then s else countLanding cl (off / 128) n tag k s) := by
      rw [exec_byteCounterDelivery, countAll_one hk alone]
    rw [counts]
    refine ⟨fun h => ?_, fun h => ?_, fun hhome hbound hlo hhi hcur hnxt => ?_⟩
    · rw [countLanding_elsewhere h, ite_self]
    · rw [if_pos (by simpa using h)]
    · have covered : (s.cl cl).covers k (off / 128) = true := by
        simp only [Cluster.covers, Bool.and_eq_true, decide_eq_true_eq]
        exact ⟨⟨hbound, hlo⟩, hhi⟩
      rw [if_neg (by simpa using hhome)]
      refine ⟨?_, ?_, ?_, ?_⟩
      · rintro rfl hp
        exact ⟨_, rfl, delivery_unposted covered hcur hp⟩
      · rintro rfl hp he hz
        exact ⟨_, rfl, delivery_balanced covered hcur hp he hz⟩
      · rintro rfl hp he hz
        exact ⟨_, rfl, delivery_over covered hcur hp he hz⟩
      · rintro rfl
        exact ⟨_, rfl, delivery_nextPhase covered hnxt⟩

end Sys2Proof.Machine.Settled
end

section
/-! SUPPORT. Words laid out from their fields, format by format (Tables 2.5 to 2.8): each field reads back as it was written. -/

namespace Sys2Proof

open BitVec (extractLsb'_append_eq_of_add_le extractLsb'_append_eq_of_le extractLsb'_eq_self)

/-! ### A word of one parcel (Table 2.5) -/

section Short
variable (opc : BitVec 7) (eng : BitVec 3)

@[simp] theorem head_w32 (hi : BitVec 20) : headLen (w32 hi opc eng) = 0#2 ∧ headTag (w32 hi opc eng) = Tag.ofCode eng
    ∧ headOpc (w32 hi opc eng) = opc ∧ fImm20 (w32 hi opc eng) = hi := by
  simp (disch := decide) only [headLen, headTag, headOpc, fImm20, w32, extractLsb'_append_eq_of_add_le,
    extractLsb'_append_eq_of_le, Nat.reduceSub, extractLsb'_eq_self, and_self]

@[simp] theorem fields_hiR (f : BitVec 2) (b a d : BitVec 6) : fD (w32 (hiR f b a d) opc eng) = d
    ∧ fA (w32 (hiR f b a d) opc eng) = a ∧ fB (w32 (hiR f b a d) opc eng) = b ∧ fF (w32 (hiR f b a d) opc eng) = f := by
  simp (disch := decide) only [fD, fA, fB, fF, w32, hiR, extractLsb'_append_eq_of_add_le, extractLsb'_append_eq_of_le,
    Nat.reduceSub, extractLsb'_eq_self, and_self]

@[simp] theorem fields_hiI (i : BitVec 8) (a d : BitVec 6) : fD (w32 (hiI i a d) opc eng) = d
    ∧ fA (w32 (hiI i a d) opc eng) = a ∧ fImm8 (w32 (hiI i a d) opc eng) = i := by
  simp (disch := decide) only [fD, fA, fImm8, w32, hiI, extractLsb'_append_eq_of_add_le, extractLsb'_append_eq_of_le,
    Nat.reduceSub, extractLsb'_eq_self, and_self]

@[simp] theorem fields_hiJ (i : BitVec 14) (d : BitVec 6) : fD (w32 (hiJ i d) opc eng) = d
    ∧ fImm14 (w32 (hiJ i d) opc eng) = i := by
  simp (disch := decide) only [fD, fImm14, w32, hiJ, extractLsb'_append_eq_of_add_le, extractLsb'_append_eq_of_le,
    Nat.reduceSub, extractLsb'_eq_self, and_self]

@[simp] theorem fields_hiM (i t : BitVec 4) (a d : BitVec 6) : fD (w32 (hiM i t a d) opc eng) = d
    ∧ fA (w32 (hiM i t a d) opc eng) = a ∧ fTyM (w32 (hiM i t a d) opc eng) = t
    ∧ fImm4 (w32 (hiM i t a d) opc eng) = i := by
  simp (disch := decide) only [fD, fA, fTyM, fImm4, w32, hiM, extractLsb'_append_eq_of_add_le, extractLsb'_append_eq_of_le,
    Nat.reduceSub, extractLsb'_eq_self, and_self]

@[simp] theorem fields_hiK (i : BitVec 15) (neg : Bool) (k : PIdx) : fK (w32 (hiK i neg k) opc eng) = k
    ∧ fImm15 (w32 (hiK i neg k) opc eng) = i ∧ fNeg (w32 (hiK i neg k) opc eng) = neg := by
  refine ⟨?_, ?_, ?_⟩
  · simp (disch := decide) only [fK, w32, hiK, extractLsb'_append_eq_of_add_le, extractLsb'_append_eq_of_le,
      Nat.reduceSub, extractLsb'_eq_self]
  · simp (disch := decide) only [fImm15, w32, hiK, extractLsb'_append_eq_of_le,
      Nat.reduceSub, extractLsb'_eq_self]
  · simp only [fNeg, w32, hiK, BitVec.getLsbD_append, BitVec.getLsbD_ofBool]
    rfl

/-! Predicate indices, in the low four bits of D, A and B (R38). -/

@[simp] theorem fK_hiR (f : BitVec 2) (b a : BitVec 6) (k : PIdx) : fK (w32 (hiR f b a (regK k)) opc eng) = k := by
  simp (disch := decide) only [fK, w32, hiR, regK, extractLsb'_append_eq_of_add_le, extractLsb'_append_eq_of_le,
    Nat.reduceSub, extractLsb'_eq_self]

@[simp] theorem fKA_hiR (f : BitVec 2) (b d : BitVec 6) (k : PIdx) : fKA (w32 (hiR f b (regK k) d) opc eng) = k := by
  simp (disch := decide) only [fKA, w32, hiR, regK, extractLsb'_append_eq_of_add_le, extractLsb'_append_eq_of_le,
    Nat.reduceSub, extractLsb'_eq_self]

@[simp] theorem fKB_hiR (f : BitVec 2) (a d : BitVec 6) (k : PIdx) : fKB (w32 (hiR f (regK k) a d) opc eng) = k := by
  simp (disch := decide) only [fKB, w32, hiR, regK, extractLsb'_append_eq_of_add_le, extractLsb'_append_eq_of_le,
    Nat.reduceSub, extractLsb'_eq_self]

@[simp] theorem fK_hiJ (i : BitVec 14) (k : PIdx) : fK (w32 (hiJ i (regK k)) opc eng) = k := by
  simp (disch := decide) only [fK, w32, hiJ, regK, extractLsb'_append_eq_of_add_le, extractLsb'_append_eq_of_le,
    Nat.reduceSub, extractLsb'_eq_self]

end Short

/-! ### A word of three or six parcels (Tables 2.6 and 2.7) -/

section Long
variable (mod : BitVec 5) (ty : BitVec 4) (sub : BitVec 6) (pred : BitVec 5) (opc : BitVec 7) (eng : BitVec 3) (len : BitVec 2)

@[simp] theorem head_wlong : headLen (wlong mod ty sub pred opc eng len) = len
    ∧ headTag (wlong mod ty sub pred opc eng len) = Tag.ofCode eng ∧ headOpc (wlong mod ty sub pred opc eng len) = opc
    ∧ fSub (wlong mod ty sub pred opc eng len) = sub ∧ fTy (wlong mod ty sub pred opc eng len) = ty
    ∧ fMod (wlong mod ty sub pred opc eng len) = mod := by
  simp (disch := decide) only [headLen, headTag, headOpc, fSub, fTy, fMod, wlong, extractLsb'_append_eq_of_add_le,
    extractLsb'_append_eq_of_le, Nat.reduceSub, extractLsb'_eq_self, and_self]

/-- PRED (R30). -/
@[simp] theorem fPred_wlong (p : Pred) : fPred (wlong mod ty sub (predBits p) opc eng len) = p := by
  have neg : (wlong mod ty sub (predBits p) opc eng len).getLsbD 16 = p.neg := by
    simp only [wlong, predBits, BitVec.getLsbD_append, BitVec.getLsbD_ofBool]
    rfl
  have k : (wlong mod ty sub (predBits p) opc eng len).extractLsb' 12 4 = p.k := by
    simp (disch := decide) only [wlong, predBits, extractLsb'_append_eq_of_add_le, extractLsb'_append_eq_of_le,
      Nat.reduceSub, extractLsb'_eq_self]
  rw [fPred, neg, k]

/-- F and IMMS of SUB (R172). -/
@[simp] theorem fields_subS (f : BitVec 2) (imms : Bool) : fSubF (wlong mod ty (subS f imms) pred opc eng len) = f
    ∧ fImms (wlong mod ty (subS f imms) pred opc eng len) = imms := by
  constructor
  · simp (disch := decide) only [fSubF, wlong, subS, extractLsb'_append_eq_of_add_le, extractLsb'_append_eq_of_le,
      Nat.reduceSub, extractLsb'_eq_self]
  · simp only [fImms, wlong, subS, BitVec.getLsbD_append, BitVec.getLsbD_ofBool]
    rfl

/-- The third operand of F96S (R172). -/
@[simp] theorem fRI_parcRI (f : BitVec 2) (o : RegOrImm) :
    fRI (wlong mod ty (subS f (isImm o)) pred opc eng len) (parcRI o) = o := by
  cases o with
  | imm v => simp [fRI, isImm, parcRI]
  | reg r =>
    have low : (parcRI (.reg r)).extractLsb' 0 6 = r := by
      simp (disch := decide) only [parcRI, extractLsb'_append_eq_of_add_le, extractLsb'_eq_self]
    simp [fRI, isImm, low]

@[simp] theorem Ty.ofCode_code (t : Ty) : Ty.ofCode t.code = some t := by cases t <;> rfl
@[simp] theorem BrCond.ofCode_code (c : BrCond) : BrCond.ofCode c.code = some c := by cases c <;> rfl
@[simp] theorem MaskOp.ofCode_code (op : MaskOp) : MaskOp.ofCode op.code = some op := by cases op <;> rfl
@[simp] theorem ScanOp.ofCode_code (op : ScanOp) : ScanOp.ofCode op.code = some op := by cases op <;> rfl
@[simp] theorem ChkOp.ofCode_code (op : ChkOp) : ChkOp.ofCode op.code = some op := by cases op <;> rfl

/-! ### The later parcels (Tables 2.7 and 2.8) -/

@[simp] theorem fields_parcS (a d : BitVec 6) : gD (parcS a d) = d ∧ gA (parcS a d) = a
    ∧ (parcS a d).extractLsb' 0 16 = 0#16 := by
  simp (disch := decide) only [gD, gA, parcS, extractLsb'_append_eq_of_add_le, extractLsb'_append_eq_of_le, Nat.reduceSub,
    extractLsb'_eq_self, and_self]

@[simp] theorem gK_parcS (a : BitVec 6) (k : PIdx) : gK (parcS a (regK k)) = k := by
  simp (disch := decide) only [gK, parcS, regK, extractLsb'_append_eq_of_add_le, extractLsb'_append_eq_of_le,
    Nat.reduceSub, extractLsb'_eq_self]

@[simp] theorem predicate_parcS (a : BitVec 6) (neg : Bool) (k : PIdx) : gK (parcS a (regNK neg k)) = k
    ∧ gNeg (parcS a (regNK neg k)) = neg := by
  constructor
  · simp (disch := decide) only [gK, parcS, regNK, extractLsb'_append_eq_of_add_le, extractLsb'_append_eq_of_le,
      Nat.reduceSub, extractLsb'_eq_self]
  · simp only [gNeg, parcS, regNK, BitVec.getLsbD_append, BitVec.getLsbD_ofBool]
    rfl

@[simp] theorem fields_parcF (f0 f1 f2 f3 : BitVec 6) : gF0 (parcF f0 f1 f2 f3) = f0 ∧ gF1 (parcF f0 f1 f2 f3) = f1
    ∧ gF2 (parcF f0 f1 f2 f3) = f2 ∧ gF3 (parcF f0 f1 f2 f3) = f3 := by
  simp (disch := decide) only [gF0, gF1, gF2, gF3, parcF, extractLsb'_append_eq_of_add_le, extractLsb'_append_eq_of_le,
    Nat.reduceSub, extractLsb'_eq_self, and_self]

@[simp] theorem fields_parcV (tok : Tok) (d : Opnd) : vD (parcV tok d) = d.bits ∧ vTok (parcV tok d) = tok := by
  simp (disch := decide) only [vD, vTok, parcV, extractLsb'_append_eq_of_add_le, extractLsb'_append_eq_of_le,
    Nat.reduceSub, extractLsb'_eq_self, and_self]

@[simp] theorem fields_parcAB (a b : Opnd) : vA (parcAB a b) = a.bits ∧ vB (parcAB a b) = b.bits := by
  simp (disch := decide) only [vA, vB, parcAB, extractLsb'_append_eq_of_add_le, extractLsb'_append_eq_of_le,
    Nat.reduceSub, extractLsb'_eq_self, and_self]

/-- An operand field: its kind, PK and index. -/
@[simp] theorem operand_fields (kind : BitVec 2) (pk : Bool) (n : BitVec 11) :
    (kind ++ BitVec.ofBool pk ++ n).extractLsb' 12 2 = kind ∧ (kind ++ BitVec.ofBool pk ++ n).extractLsb' 0 11 = n
    ∧ (kind ++ BitVec.ofBool pk ++ n).getLsbD 11 = pk := by
  refine ⟨?_, ?_, ?_⟩
  · simp (disch := decide) only [extractLsb'_append_eq_of_le, Nat.reduceSub, extractLsb'_eq_self]
  · simp (disch := decide) only [extractLsb'_append_eq_of_add_le, extractLsb'_eq_self]
  · simp only [BitVec.getLsbD_append, BitVec.getLsbD_ofBool]
    rfl

/-- An operand field has one reading (Table 2.8). -/
@[simp] theorem Opnd.ofBits_bits (o : Opnd) : Opnd.ofBits o.bits = some o := by
  cases o with
  | v pk n =>
    obtain ⟨kind, low, keep⟩ := operand_fields 0#2 pk n
    rw [Opnd.bits, Opnd.ofBits, kind, low, keep]
    rfl
  | p n =>
    obtain ⟨kind, low, keep⟩ := operand_fields 1#2 false n
    show Opnd.ofBits (1#2 ++ BitVec.ofBool false ++ n) = some (.p n)
    rw [Opnd.ofBits, kind, low, keep]
    rfl
  | s n =>
    obtain ⟨kind, low, keep⟩ := operand_fields 2#2 false n
    show Opnd.ofBits (2#2 ++ BitVec.ofBool false ++ n) = some (.s n)
    rw [Opnd.ofBits, kind, low, keep]
    rfl

/-- TYPE, MOD and TOKEN of an L, A or W word. -/
@[simp] theorem vhead_wlong (hd : VHead) (d : Opnd) :
    vhead (wlong hd.mod.bits hd.ty.code sub pred opc eng len) (parcV hd.tok d) = some hd := by
  have col : (wlong hd.mod.bits hd.ty.code sub pred opc eng len).getLsbD 31 = hd.mod.col := by
    simp only [wlong, VMod.bits, BitVec.getLsbD_append, BitVec.getLsbD_ofBool]
    rfl
  have sat : (wlong hd.mod.bits hd.ty.code sub pred opc eng len).getLsbD 30 = hd.mod.sat := by
    simp only [wlong, VMod.bits, BitVec.getLsbD_append, BitVec.getLsbD_ofBool]
    rfl
  have rm : (wlong hd.mod.bits hd.ty.code sub pred opc eng len).extractLsb' 27 3 = hd.mod.rm := by
    simp (disch := decide) only [wlong, VMod.bits, extractLsb'_append_eq_of_add_le, extractLsb'_append_eq_of_le,
      Nat.reduceSub, extractLsb'_eq_self]
  simp only [vhead, head_wlong, Ty.ofCode_code, fields_parcV, Option.map_some, col, sat, rm]

end Long

/-! ### Parts of SUB and MOD, and of parcels 4 and 5, that single instructions divide -/

/-- The set and the slab of a matrix word (Table 2.19). -/
@[simp] theorem sub_matrix (acc : BitVec 2) (sl : BitVec 3) : (acc ++ sl ++ 0#1).extractLsb' 4 2 = acc
    ∧ (acc ++ sl ++ 0#1).extractLsb' 1 3 = sl := by
  simp (disch := decide) only [extractLsb'_append_eq_of_add_le, extractLsb'_append_eq_of_le, Nat.reduceSub,
    extractLsb'_eq_self, and_self]

@[simp] theorem mod_matrix (sb : BitVec 3) (rms : BitVec 2) : (sb ++ rms).extractLsb' 2 3 = sb
    ∧ (sb ++ rms).extractLsb' 0 2 = rms := by
  simp (disch := decide) only [extractLsb'_append_eq_of_add_le, extractLsb'_append_eq_of_le, Nat.reduceSub,
    extractLsb'_eq_self, and_self]

/-- The orientation bit of `mfill`, alone in MOD (R248). -/
@[simp] theorem mod_mfill (col : Bool) : (BitVec.ofBool col ++ 0#4)[4] = col := by cases col <;> rfl

/-- The part and the source type of `vcvt` (R223). -/
@[simp] theorem sub_vcvt (part : BitVec 2) (st : BitVec 4) : (part ++ st).extractLsb' 4 2 = part
    ∧ (part ++ st).extractLsb' 0 4 = st := by
  simp (disch := decide) only [extractLsb'_append_eq_of_add_le, extractLsb'_append_eq_of_le, Nat.reduceSub,
    extractLsb'_eq_self, and_self]

/-- The total bit and the operator of a scan (R226). -/
@[simp] theorem sub_vscan (tot : Bool) (op : BitVec 2) : (0#3 ++ BitVec.ofBool tot ++ op).extractLsb' 0 2 = op
    ∧ (0#3 ++ BitVec.ofBool tot ++ op)[2] = tot := by
  constructor
  · simp (disch := decide) only [extractLsb'_append_eq_of_add_le, extractLsb'_eq_self]
  · show (0#3 ++ BitVec.ofBool tot ++ op).getLsbD 2 = tot
    simp only [BitVec.getLsbD_append, BitVec.getLsbD_ofBool]
    rfl

@[simp] theorem sub_vscanc (op : BitVec 2) : (0#4 ++ op).extractLsb' 0 2 = op := by
  simp (disch := decide) only [extractLsb'_append_eq_of_add_le, extractLsb'_eq_self]

/-- The base of a bit field, and a count in the low bits of parcel 4. -/
@[simp] theorem base_parcel (base : BitVec 10) : (0#22 ++ base).extractLsb' 0 10 = base := by
  simp (disch := decide) only [extractLsb'_append_eq_of_add_le, extractLsb'_eq_self]

@[simp] theorem count_parcel (n : BitVec 7) : (0#25 ++ n).extractLsb' 0 7 = n := by
  simp (disch := decide) only [extractLsb'_append_eq_of_add_le, extractLsb'_eq_self]

/-- The scale slabs and columns of `mmacs` (Table 2.19). -/
@[simp] theorem scales_parcel (qa qb : BitVec 3) (ca cb : BitVec 6) :
    (0#14 ++ cb ++ qb ++ ca ++ qa).extractLsb' 0 3 = qa ∧ (0#14 ++ cb ++ qb ++ ca ++ qa).extractLsb' 3 6 = ca
    ∧ (0#14 ++ cb ++ qb ++ ca ++ qa).extractLsb' 9 3 = qb ∧ (0#14 ++ cb ++ qb ++ ca ++ qa).extractLsb' 12 6 = cb := by
  simp (disch := decide) only [extractLsb'_append_eq_of_add_le, extractLsb'_append_eq_of_le, Nat.reduceSub,
    extractLsb'_eq_self, and_self]

/-- The block and the stride of `mgrp` (Table 2.19). -/
@[simp] theorem group_parcel (j : BitVec 8) (ks : BitVec 16) : (ks ++ 0#8 ++ j).extractLsb' 0 8 = j
    ∧ (ks ++ 0#8 ++ j).extractLsb' 16 16 = ks := by
  simp (disch := decide) only [extractLsb'_append_eq_of_add_le, extractLsb'_append_eq_of_le, Nat.reduceSub,
    extractLsb'_eq_self, and_self]

/-- The two halves of LEN in `loopi` (R193). -/
@[simp] theorem halves_append (n : BitVec 12) : n.extractLsb' 6 6 ++ n.extractLsb' 0 6 = n :=
  (BitVec.extractLsb'_append_extractLsb'_eq_extractLsb' rfl).trans extractLsb'_eq_self

end Sys2Proof
end

section
/-! SUPPORT. Decoding (R24): words that a row of the opcode map reads, and that its instruction encodes to. -/

namespace Sys2Proof

theorem findRow_some {rows : List OpRow} {opc : BitVec 7} {len : BitVec 2} {row : OpRow} (h : findRow rows opc len = some row) :
    (rows.any fun r => r.1 == opc) = true := by
  have key := List.find?_some h
  rw [Bool.and_eq_true] at key
  exact List.any_eq_true.mpr ⟨row, List.mem_of_find?_eq_some h, key.1⟩

section Decode
variable {i : Instr} {ws rest : List Parcel} {row : OpRow}

theorem decode_of_row (hlen : headLen (parcelAt ws 0) ≠ 3#2)
    (hrow : findRow (opRows (headTag (parcelAt ws 0))) (headOpc (parcelAt ws 0)) (headLen (parcelAt ws 0)) = some row)
    (hstray : strayTokens (headTag (parcelAt ws 0)) (headOpc (parcelAt ws 0)) (headLen (parcelAt ws 0)) (parcelAt ws 1) = false)
    (hread : row.2.2 (parcelAt ws 0) (parcelAt ws 1) (parcelAt ws 2) (parcelAt ws 3) (parcelAt ws 4) (parcelAt ws 5) = some i)
    (henc : encode i = [parcelAt ws 0, parcelAt ws 1, parcelAt ws 2, parcelAt ws 3, parcelAt ws 4, parcelAt ws 5].take
      (parcelsOf (headLen (parcelAt ws 0))))
    (hwf : wf i = true) : decode ws = .ok i := by
  rw [wf, Bool.and_eq_true, Bool.and_eq_true] at hwf
  obtain ⟨⟨fields, index⟩, tokens⟩ := hwf
  simp [decode, hlen, findRow_some hrow, hrow, dropTokens, hstray, hread, henc, fields, index, tokens]

variable {hi : BitVec 20} {opc : BitVec 7} {eng : BitVec 3}
  {f : Parcel → Parcel → Parcel → Parcel → Parcel → Parcel → Option Instr}

theorem strayTokens_of_len {t : Tag} {len : BitVec 2} (h : len ≠ 1#2) (p1 : Parcel) : strayTokens t opc len p1 = false := by
  cases t <;> simp [strayTokens, h]

/-- Parcel 1 of a word of registers has no token (Table 2.7). -/
theorem strayTokens_parcS (t : Tag) (opc : BitVec 7) (a d : BitVec 6) : strayTokens t opc 1#2 (parcS a d) = false := by
  cases t <;> simp [strayTokens]

/-- A word of one parcel (R18). -/
theorem decode_short (he : encode i = [w32 hi opc eng]) (hrow : findRow (opRows (Tag.ofCode eng)) opc 0#2 = some (opc, 0#2, f))
    (hread : ∀ p1 p2 p3 p4 p5, f (w32 hi opc eng) p1 p2 p3 p4 p5 = some i) (hwf : wf i = true) :
    decode (encode i ++ rest) = .ok i := by
  have head : parcelAt (encode i ++ rest) 0 = w32 hi opc eng := by rw [he]; rfl
  obtain ⟨len, tag, op, -⟩ := head_w32 opc eng hi
  refine decode_of_row ?_ (by rw [head, len, tag, op]; exact hrow) ?_ (by rw [head]; exact hread _ _ _ _ _) ?_ hwf
  · rw [head, len]; decide
  · rw [head, len]; exact strayTokens_of_len (by decide) _
  · rw [head, len, he]; rfl

variable {mod : BitVec 5} {ty : BitVec 4} {sub : BitVec 6} {pred : BitVec 5}

/-- A word of three parcels (R18), whose parcel 1 has no token that its instruction has no field for (R29). -/
theorem decode_long {p1 p2 : Parcel} (he : encode i = [wlong mod ty sub pred opc eng 1#2, p1, p2])
    (hrow : findRow (opRows (Tag.ofCode eng)) opc 1#2 = some (opc, 1#2, f))
    (hstray : strayTokens (Tag.ofCode eng) opc 1#2 p1 = false)
    (hread : ∀ p3 p4 p5, f (wlong mod ty sub pred opc eng 1#2) p1 p2 p3 p4 p5 = some i) (hwf : wf i = true) :
    decode (encode i ++ rest) = .ok i := by
  have head : parcelAt (encode i ++ rest) 0 = wlong mod ty sub pred opc eng 1#2 := by rw [he]; rfl
  have at1 : parcelAt (encode i ++ rest) 1 = p1 := by rw [he]; rfl
  have at2 : parcelAt (encode i ++ rest) 2 = p2 := by rw [he]; rfl
  obtain ⟨len, tag, op, -⟩ := head_wlong mod ty sub pred opc eng 1#2
  refine decode_of_row ?_ (by rw [head, len, tag, op]; exact hrow) ?_ (by rw [head, at1, at2]; exact hread _ _ _) ?_ hwf
  · rw [head, len]; decide
  · rw [head, len, tag, op, at1]; exact hstray
  · rw [head, len, at1, at2, he]; rfl

/-- A word of six parcels (R18). -/
theorem decode_double {p1 p2 p3 p4 p5 : Parcel} (he : encode i = [wlong mod ty sub pred opc eng 2#2, p1, p2, p3, p4, p5])
    (hrow : findRow (opRows (Tag.ofCode eng)) opc 2#2 = some (opc, 2#2, f))
    (hread : f (wlong mod ty sub pred opc eng 2#2) p1 p2 p3 p4 p5 = some i) (hwf : wf i = true) :
    decode (encode i ++ rest) = .ok i := by
  have head : parcelAt (encode i ++ rest) 0 = wlong mod ty sub pred opc eng 2#2 := by rw [he]; rfl
  obtain ⟨len, tag, op, -⟩ := head_wlong mod ty sub pred opc eng 2#2
  refine decode_of_row ?_ (by rw [head, len, tag, op]; exact hrow) ?_ (by rw [he]; exact hread) ?_ hwf
  · rw [head, len]; decide
  · rw [head, len]; exact strayTokens_of_len (by decide) _
  · rw [head, len, he]; rfl

end Decode

end Sys2Proof
end

section
/-! Each format of chapter 2 in turn: the word of an instruction is read by its own row of the opcode map. -/

namespace Sys2Proof

/-- Settles O1: the row of an instruction's tag, opcode and length reads the fields that its encoding wrote. -/
theorem decodeOfEncode : Obligations.DecodeOfEncode := by
  intro i rest hwf hne
  cases i
  case nop | add | sub | mul | mulh | mulhn | div | divn | rem | remn | and | or | xor | shl | shr | sra | min | max
      | minn | maxn | clz | popc | sext | andn | addi | andi | ori | xori | shli | shri | srai | li | cmpeq | cmpne
      | cmplt | cmple | cmpltn | cmplen | pand | por | pxor | pnot | kget | kset | ld | st | ldg | stg | mfc | mtc
      | cid | nearad | clad | fence | isync | yield | halt | trap | ftst | fset | fclr | fwait | wlpush | wlpop | b
      | bk | call | ret | jr | loop | lexit | bar | meet | sigchk | recv | rpeek | radv | rbind | tdone | kwake
      | ksleep | kid =>
    exact decode_short rfl rfl (by simp) hwf
  case addLong | subLong | mulLong | mulhLong | mulhnLong | divLong | divnLong | remLong | remnLong | andLong | orLong
      | xorLong | shlLong | shrLong | sraLong | minLong | maxLong | minnLong | maxnLong | clzLong | popcLong
      | sextLong | andnLong | addiLong | andiLong | oriLong | xoriLong | shliLong | shriLong | sraiLong | liLong
      | liHi | cmpeqLong | cmpneLong | cmpltLong | cmpleLong | cmpltnLong | cmplenLong | ldLong | stLong | ldgLong
      | stgLong | cidLong | nearadLong | cladLong | bLong | bkLong | callLong | loopi | ecopy | egath | escat | eacc
      | emark | earm | ewait | eroute | ebatch | eldred | egroup | ecarry | ecoll | eget | eput | emcast | eappend
      | ebexp | ecancel | estat | efset | edrain | recvt | rsend =>
    exact decode_long rfl rfl (strayTokens_parcS _ _ _ _) (by simp) hwf
  case vbr | vld | vldx | vldg | vldbc | vpref | vldfl | vst | vstx | vstg | vstm | vstc | vmov | vadd | vsub | vmul
      | vneg | vabs | vmin | vmax | vmulh | vavg | vabsd | vand | vor | vxor | vandn | vnot | vshl | vshr | vsra
      | vclz | vpopc | vcmpeq | vcmpne | vcmplt | vcmple | vmsk | vcvt | vrnd | vexp | vlog | vrcp | vrsqrt | vtanh
      | vredadd | vredmax | vredmin | vperm | vrot | vcmpr | vexpd | vnft | vsplat | viota | vdup | vcnt | mmac | mrot
      | mchk | mshape | mzero | mdrain | mmov | mfill | mrel | mkeep | mrd =>
    exact decode_long rfl rfl rfl (by simp) hwf
  case vldb | vlds | vstb | vsts | vfma | vfms | vfnma | vclamp | vsel | vscan | vscanc | vshuf | vhash | vbfx | mmacs
      | mgx | mgrp =>
    exact decode_double rfl rfl (by simp) hwf
  all_goals exact absurd rfl hne

end Sys2Proof
end

section
/-! The words of chapter 2's tables are those that their instructions encode to. -/

namespace Sys2Proof

theorem decode_word {ws : List Parcel} {i : Instr} (hw : encode i = ws) (hwf : wf i = true) (hne : ws ≠ []) :
    decode ws = .ok i := by
  rw [← List.append_nil ws, ← hw]
  exact decodeOfEncode i [] hwf (by rw [hw]; exact hne)

/-- Settles O3: each of the words is what its instruction encodes to. -/
theorem decodedWords : Obligations.DecodedWords := by
  unfold Obligations.DecodedWords
  repeat' apply And.intro
  all_goals exact decode_word rfl rfl (List.cons_ne_nil _ _)

end Sys2Proof
end

section
/-! SUPPORT. What becomes of an instruction or an event: always a next state (R24, R171). -/

namespace Sys2Proof.Machine

theorem ite_next {c : Prop} [Decidable c] {a b : Host.Outcome State Fault Refusal} (ha : ∃ t, a = .next t)
    (hb : ∃ t, b = .next t) : ∃ t, (if c then a else b) = .next t := by
  split
  · exact ha
  · exact hb

/-- Settles O31: an instruction performs an action, whose value, cause or wait all become a next state; an event answers with a
state in every branch. -/
theorem everyStepAnswers : Obligations.EveryStepAnswers := by
  intro i s
  cases i
  -- Meanings that change the state in one way.
  case nop | add | addLong | sub | subLong | mul | mulLong | mulh | mulhLong | mulhn | mulhnLong | div | divLong
      | divn | divnLong | rem | remLong | remn | remnLong | and | andLong | or | orLong | xor | xorLong | shl
      | shlLong | shr | shrLong | sra | sraLong | min | minLong | max | maxLong | minn | minnLong | maxn | maxnLong
      | clz | clzLong | popc | popcLong | sext | sextLong | andn | andnLong | addi | addiLong | andi | andiLong | ori
      | oriLong | xori | xoriLong | shli | shliLong | shri | shriLong | srai | sraiLong | li | liLong | liHi | cmpeq
      | cmpeqLong | cmpne | cmpneLong | cmplt | cmpltLong | cmple | cmpleLong | cmpltn | cmpltnLong | cmplen
      | cmplenLong | pand | por | pxor | pnot | kget | kset | cid | cidLong | ecancel | tdone | kid | recvtTimeout
      | save | replayParked | kill | taskEnd | commandAcceptance | translationWalk | xlinvPage | xlinvContext
      | xlinvAll | invalidationComplete | l2pinWrite | contextLoad | contextUnload | fabcfgWrite | fabricTableWrite
      | fabricTableRead | evringWrite | evbindWrite | hapctlWrite | registerWrite | quiesce | faultLogState
      | getVersion | getCapabilities | negotiateAlgorithms | getDigests | getCertificate | challenge | getMeasurements
      | functionLevelReset | permitRequest | permitReply | roundOpening | doneMessage | packetForward | linkReplay
      | linkDown | reductionContribution | pullLoad | flushNotice | carryArrival | ringArrival | byteCounterDelivery
      | patrolScrub | eventFire | writeAcknowledge | portTraining | pcieLinkTraining =>
    exact ⟨_, rfl⟩
  -- Meanings that can wait or meet a cause.
  case ld | ldLong | st | stLong | ldg | ldgLong | stg | stgLong | mfc | mtc | nearad | nearadLong | clad | cladLong
      | fence | isync | halt | trap | ftst | fset | fclr | fwait | wlpush | wlpop | b | bLong | bk | bkLong | call
      | callLong | ret | jr | loop | loopi | lexit | bar | meet | sigchk | vbr | ecopy | egath | escat | eacc | emark
      | earm | ewait | eroute | ebatch | eldred | egroup | ecarry | ecoll | eget | eput | emcast | eappend | ebexp
      | estat | efset | edrain | vld | vldx | vldb | vldg | vldbc | vlds | vpref | vldfl | vst | vstx | vstb | vstg
      | vsts | vstm | vstc | vmov | vadd | vsub | vmul | vfma | vfms | vfnma | vneg | vabs | vmin | vmax | vclamp
      | vmulh | vavg | vabsd | vand | vor | vxor | vandn | vnot | vshl | vshr | vsra | vclz | vpopc | vcmpeq | vcmpne
      | vcmplt | vcmple | vsel | vmsk | vcvt | vrnd | vexp | vlog | vrcp | vrsqrt | vtanh | vredadd | vredmax
      | vredmin | vperm | vrot | vshuf | vcmpr | vexpd | vhash | vnft | vsplat | viota | vdup | vcnt | vbfx | mmac
      | mmacs | mrot | mgx | mgrp | mchk | mshape | mzero | mdrain | mmov | mfill | mrel | mkeep | mrd | recv | recvt
      | rpeek | radv | rsend | rbind | kwake | ksleep =>
    exact perform_next _ _
  -- The operator chooses the operation.
  case vscan _ op _ _ _ _ => cases op <;> exact perform_next _ _
  case vscanc op _ _ _ _ _ => cases op <;> exact perform_next _ _
  -- Commands and their engines.
  case lineLanding | commandStart | commandRetirement | followOn | markerRetire | combiningNodeMerge | eaccUpdate =>
    simp only [exec, execLineLanding, execCommandStart, execCommandRetirement, execFollowOn, execMarkerRetire,
      execCombiningNodeMerge, execEaccUpdate]
    repeat' split
    all_goals exact ⟨_, rfl⟩
  -- Rounds and windrows.
  case placementTableRead | tokenRanking | roundDeadline | binClose | roundRetirement | windrowAppend | batchGroup =>
    simp only [exec, execPlacementTableRead, execTokenRanking, execRoundDeadline, execBinClose,
      execRoundRetirement, execWindrowAppend, execBatchGroup]
    repeat' split
    all_goals exact ⟨_, rfl⟩
  -- The fabric.
  case packetArrival | parkBufferRelease | reductionTimeout | groupSlotDrain | collectiveStep =>
    simp only [exec, execPacketArrival, execParkBufferRelease, execReductionTimeout, execGroupSlotDrain,
      execCollectiveStep]
    repeat' split
    all_goals exact ⟨_, rfl⟩
  -- Traps, pre-emption and teardown.
  case walkDeadlock | trapEntry | preemption | spill | fillBack | resume | resumePast | teardownComplete =>
    simp only [exec, execWalkDeadlock, execTrapEntry, execPreemption, execSpill, execFillBack, execResume,
      execResumePast, execTeardownComplete]
    repeat' split
    all_goals exact ⟨_, rfl⟩
  -- Launch and placement.
  case yield | launchRecord | graphEnd | stageSchedule | taskLaunch | gangPlacement | reservationRelease
      | agingPreempt =>
    simp only [exec, execYield, execLaunchRecord, execGraphEnd, execStageSchedule, execTaskLaunch,
      execGangPlacement, execReservationRelease, execAgingPreempt]
    repeat' split
    all_goals exact ⟨_, rfl⟩
  -- The end of a task, scrub and rollback.
  case terminationSweep | shadowSweep | rollback =>
    simp only [exec, execTerminationSweep, execShadowSweep, execRollback]
    repeat' split
    all_goals exact ⟨_, rfl⟩
  -- The host, boot and registers.
  case hostApertureRead | hostApertureWrite | boot | counterRefresh | islandThrottle | mailboxWrite =>
    simp only [exec, execHostApertureRead, execHostApertureWrite, execBoot, execCounterRefresh, execIslandThrottle,
      execMailboxWrite]
    repeat' split
    all_goals exact ⟨_, rfl⟩
  -- A barrier's completion: a gang that is there, then the rest is a chain of conditions.
  case barrierCompletion =>
    simp only [exec, execBarrierCompletion]
    split
    · exact ⟨_, rfl⟩
    · repeat' apply ite_next
      all_goals exact ⟨_, rfl⟩

end Sys2Proof.Machine
end

section
/-! SUPPORT. The instructions of rake threads (R199), and what passing one leaves. -/

namespace Sys2Proof.Machine

theorem rake_retire {s : State} {c k : Nat} (h : s.actor = .rake c k) (i : Instr) :
    ((retire i s).cl c).rake k = ((s.cl c).rake k).pass i (((s.cl c).rake k).pc + lenOf i) := by
  simp only [retire, retireTo, State.selfPc, h, State.cl_modCl_self, Cluster.rake_setRake_self]

section Rake
variable {s : State} {c k : Nat} (h : s.actor = .rake c k)
include h

theorem exec_kwake (a : Reg) : exec (.kwake a) s =
    if 7 < (s.rd a).toNat then .next (s.raise 0x6A#8 0#64)
    else .next (retire (.kwake a)
      (s.modCl c fun x => x.setRake (s.rd a).toNat { x.rake (s.rd a).toNat with wake := true })) := by
  have cl : s.selfCl = c := by rw [State.selfCl, h]
  split
  · next big =>
    refine actOp_trap (holds_always s) ?_
    rw [Act.bind_ok (Act.get_run s), Act.bind_error]
    rw [Act.trapIf_run, if_pos (decide_eq_true big)]
  · next small =>
    refine actOp_ok (holds_always s) ?_
    rw [Act.bind_ok (Act.get_run s), Act.bind_ok (v := ()) (t := s), Act.set_run, cl]
    rw [Act.trapIf_run, decide_eq_false small]
    rfl

/-- A wake flag that is set is taken, and the thread goes on. -/
theorem exec_ksleep_wake (hw : ((s.cl c).rake k).wake = true) : exec .ksleep s =
    .next (retire .ksleep (s.modCl c fun x => x.setRake k { (s.cl c).rake k with wake := false, st := .ready })) := by
  refine actOpW_done (holds_always s) ?_
  rw [Act.bind_ok (Act.get_run s)]
  simp only [State.selfRake, State.setSelfRake, h, hw, if_true]
  rfl

/-- Without one the thread sleeps. -/
theorem exec_ksleep_sleep (hw : ((s.cl c).rake k).wake = false) : exec .ksleep s =
    .next (s.modCl c fun x => x.setRake k { (s.cl c).rake k with st := .ksleep }) := by
  have run : exec .ksleep s =
      .next ((s.modCl c fun x => x.setRake k { (s.cl c).rake k with st := .ksleep }).noteWait .room) := by
    refine actOpW_waits (holds_always s) ?_
    rw [Act.bind_ok (Act.get_run s)]
    simp only [State.selfRake, State.setSelfRake, h, hw]
    rfl
  rw [run, State.noteWait, State.modCl_actor, h]

theorem exec_kid (d : Reg) : exec (.kid d) s = .next (retire (.kid d) (s.wr d (BitVec.ofNat 64 (k + 256 * c)))) := by
  have run := plainOp_always (.kid d)
    (fun s => s.wr d (BitVec.ofNat 64 ((match s.actor with | .rake _ t => t | _ => 0) + 256 * s.selfCl))) s
  simp only [State.selfCl, h] at run
  exact run

end Rake

theorem exec_recvtTimeout (s : State) (c j : Nat) : ∃ u, exec (.recvtTimeout c j) s = .next u
    ∧ (((s.cl c).rake j).st = .recvt → ((u.cl c).rake j).remain = some 0)
    ∧ (((s.cl c).rake j).st ≠ .recvt → u.cl c = s.cl c) := by
  refine ⟨_, rfl, fun hr => ?_, fun hr => ?_⟩
  · rw [State.cl_modCl_self, if_pos (beq_iff_eq.mpr hr), Cluster.rake_setRake_self]
  · rw [State.cl_modCl_self, if_neg (mt beq_iff_eq.mp hr)]

theorem exec_tdone (s : State) : exec .tdone s = .next (retire .tdone s.finishItem) := plainOp_always .tdone State.finishItem s

end Sys2Proof.Machine
end

section
namespace Sys2Proof.Machine

/-- Settles O27: each instruction is its equation above; a thread that sleeps is neither moved nor marked as waiting. -/
theorem threadInstructions : Obligations.ThreadInstructions := by
  refine ⟨fun s a c k h => ⟨fun small => ?_, fun big => ?_, fun hw => ?_, fun hw => ?_, exec_recvtTimeout s c⟩,
    plainOp_always .nop (fun s => s), fun s d c n h _ _ => exec_kid h d, fun s hi => ?_, fun s w hi => ?_⟩
  · rw [exec_kwake h, if_neg (by omega)]
  · rw [exec_kwake h, if_pos big]
  · refine ⟨_, exec_ksleep_wake h hw, ?_⟩
    rw [rake_retire (s := s.modCl c _) h, State.cl_modCl_self, Cluster.rake_setRake_self]
    exact ⟨rfl, rfl, rfl⟩
  · refine ⟨_, exec_ksleep_sleep h hw, ?_⟩
    rw [State.cl_modCl_self, Cluster.rake_setRake_self]
    exact ⟨rfl, rfl⟩
  · rw [exec_tdone, State.finishItem, hi]
  · rw [exec_tdone, State.finishItem, hi]

end Sys2Proof.Machine
end

section
/-! SUPPORT. Passing an instruction of a PC (R48, R161, R165), and the signature check (R49, R50). -/

namespace Sys2Proof.Machine

/-! ### Passing -/

section Pass
variable {s : State} {c : Nat} {e : Eng} (h : s.actor = .pc c e) (i : Instr)
include h

theorem cl_retire : (retire i s).cl c =
    ((s.cl c).setWalk e { (s.cl c).walk e with sig := foldSig ((s.cl c).walk e).sig i }).pass e (lenOf i)
      (((s.cl c).walk e).pc + lenOf i) := by
  simp only [retire, retireTo, State.selfPc, h, State.cl_modCl_self]

theorem walk_retire_self : ((retire i s).cl c).walk e =
    ({ (s.cl c).walk e with sig := foldSig ((s.cl c).walk e).sig i } : Walk).pass (lenOf i) (((s.cl c).walk e).pc + lenOf i) := by
  rw [cl_retire h, Cluster.walk_pass_self, Cluster.walk_setWalk_self]

theorem walk_retire_ne {g : Eng} (hg : g ≠ e) : ((retire i s).cl c).walk g = { (s.cl c).walk g with wait := none } := by
  rw [cl_retire h, Cluster.walk_pass_ne _ _ _ hg, Cluster.walk_setWalk_ne _ _ hg]

end Pass

/-! ### Reading a word of the scratchpad (R117, R121, R405) -/

theorem fetchRows_run {c : Nat} {ls : List Nat} {s s1 : State} (h : rowsEcc c ls s = some s1) : fetchRows c ls s = .ok ((), s1) := by
  simp only [fetchRows, h]

theorem awaitHome_ok {s : State} {c : Nat} (h : away s s.selfCtx c = false) : awaitHome c s = .ok ((), s) := by
  rw [awaitHome, Act.bind_ok (Act.get_run s), Act.waitIf_run, h]
  rfl

theorem awaitLines_ok {s : State} {c : Nat} {ls : List Nat} (h : away s s.selfCtx c = false)
    (ho : (ls.any fun l => owedLine (s.cl c) l) = false) : awaitLines c ls s = .ok ((), s) := by
  rw [awaitLines, Act.bind_ok (awaitHome_ok h), Act.bind_ok (Act.get_run s), Act.waitIf_run, ho]
  rfl

/-- An aligned word in a bank whose line is not owed reads as it stands, and its row's errors are corrected. -/
theorem coordLoad_bank {s s1 : State} {a : Word} {n c off : Nat} (hp : s.place a n = .ok (c, off))
    (haway : away s s.selfCtx c = false) (hbank : inBanks (s.cl c) off = true)
    (howed : owedLine (s.cl c) (off / 128) = false) (hecc : rowsEcc c [off / 128] s = some s1) :
    coordLoad a n s = .ok (sramRead (s.cl c) off n, s1) := by
  have place : liftC a.toNat (coord s s.selfCtx s.selfCl a.toNat (a.toNat % n != 0)) s = .ok ((c, off), s) := by
    rw [Act.liftC_run, show coord s s.selfCtx s.selfCl a.toNat (a.toNat % n != 0) = _ from hp]
  have rows : awaitOwed c [off / 128] s = .ok ((), s1) := by
    rw [awaitOwed, Act.bind_ok (awaitLines_ok haway (by simp [howed])), fetchRows_run hecc]
  rw [coordLoad, Act.bind_ok (Act.get_run s), Act.bind_ok place, localLoad, Act.bind_ok (awaitHome_ok haway),
    Act.bind_ok (Act.get_run s)]
  simp only [hbank, if_true]
  rw [Act.bind_ok rows]
  rfl

/-! ### `sigchk` (R49, R50, R381) -/

theorem sigEntry_cluster {s : State} (h : ∀ d, s.actor ≠ .mgr d) (n : Nat) :
    sigEntry n s = coordLoad ((s.cl s.selfCl).sigtab + BitVec.ofNat 64 (32 * n + 4 * sigWordIdx s)) 4 s := by
  rw [sigEntry, Act.bind_ok (Act.get_run s)]
  cases ha : s.actor with
  | mgr d => exact absurd ha (h d)
  | device => rfl
  | pc c e => rfl
  | rake c k => rfl

theorem sigEntry_core {s s1 : State} {d n : Nat} {t : Task} {bs : List Byte} (h : s.actor = .mgr d)
    (ht : (s.die d).coreTask = some t) (hr : vaRead s.who (t.image.sigVa + 32 * n) 4 s = .ok (s1, bs)) :
    sigEntry n s = .ok (bs, s1) := by
  rw [sigEntry, Act.bind_ok (Act.get_run s)]
  simp only [h, sigWordIdx, ht, Option.map_some, Option.getD_some, Nat.mul_zero, Nat.add_zero, Act.liftA_run, hr]

theorem exec_sigchk_beyond {s : State} {n : BitVec 20} (h : sigCount s ≤ n.toNat) :
    exec (.sigchk n) s = .next (s.raise 0x06#8 0#64) := by
  refine perform_trap ?_
  rw [Act.bind_ok (Act.get_run s), Act.bind_error]
  rw [Act.trapIf_run, if_pos (decide_eq_true h)]

/-- The comparison (R50). -/
theorem exec_sigchk {s s1 : State} {n : BitVec 20} {bs : List Byte} (h : n.toNat < sigCount s)
    (hb : staysInBody (.sigchk n) s) (he : sigEntry n.toNat s = .ok (bs, s1)) :
    exec (.sigchk n) s = .next
      (if leNat bs = (~~~ s.selfSig).toNat then retire (.sigchk n) (resetSig s1) else s.raiseSelfCheck 0xC4#8) := by
  have entry : trapIf (decide (sigCount s ≤ n.toNat)) 0x06#8 s = .ok ((), s) := by
    rw [Act.trapIf_run, decide_eq_false (by omega)]
    rfl
  split
  · next agree =>
    refine perform_ok ?_
    rw [Act.bind_ok (Act.get_run s), Act.bind_ok entry, Act.bind_ok (straddleX_ok hb), Act.bind_ok he, agree]
    simp only [bne_self_eq_false]
    rfl
  · next differ =>
    refine perform_check ?_
    rw [Act.bind_ok (Act.get_run s), Act.bind_ok entry, Act.bind_ok (straddleX_ok hb), Act.bind_ok he,
      if_pos (bne_iff_ne.mpr (Ne.symm differ))]
    rfl

end Sys2Proof.Machine
end

section
namespace Sys2Proof.Machine.Settled

/-- Settles O10: passing is `Walk.pass` at the PC that passes and ends the waits of the others; a check compares what its entry
holds. -/
theorem signature : Obligations.Signature := by
  refine ⟨fun s c e i h => ?_, fun s n => ⟨exec_sigchk_beyond, fun hn hb => ⟨?_, ?_⟩⟩⟩
  · rw [walk_retire_self h]
    refine ⟨rfl, rfl, rfl, rfl, fun g hg => ?_, moved_retire i s⟩
    rw [walk_retire_ne h i hg]
    exact ⟨rfl, rfl, rfl⟩
  · intro c off s1 hm hp haway hbank howed hecc
    exact exec_sigchk hn hb ((sigEntry_cluster hm _).trans (coordLoad_bank hp haway hbank howed hecc))
  · intro d t s1 bs hm ht hr
    exact exec_sigchk hn hb (sigEntry_core hm ht hr)

end Sys2Proof.Machine.Settled
end

section
/-! SUPPORT. Instructions under a false predicate (R30), and the words that `kget`, `kset` and the coordinate instructions
make (R177, R182). -/

namespace Sys2Proof.Machine

/-! ### A false predicate -/

section False
variable {i : Instr} {p : Pred} {s : State} (h : s.holds p = false)
include h

theorem retire_false {t : State} : (Host.Outcome.next (retire i (if s.holds p = true then t else s)) :
    Host.Outcome State Fault Refusal) = .next (retire i s) := by
  rw [if_neg (by rw [h]; decide)]

theorem actOp_false {a : Act Unit} : actOp i p a s = .next (retire i s) := by
  refine perform_ok ?_
  simp only [h]
  rfl

theorem actOpW_false {w : Wait} {a : Act Bool} : actOpW i p w a s = .next (retire i s) := by
  refine perform_ok ?_
  simp only [h]
  rfl

/-- Under a false predicate an instruction passes with no other effect (R30). -/
theorem exec_of_false (hp : predOf i = some p) : exec i s = .next (retire i s) := by
  cases i
  case addLong | subLong | mulLong | mulhLong | mulhnLong | divLong | divnLong | remLong | remnLong | andLong | orLong
      | xorLong | shlLong | shrLong | sraLong | minLong | maxLong | minnLong | maxnLong | clzLong | popcLong
      | sextLong | andnLong | addiLong | andiLong | oriLong | xoriLong | shliLong | shriLong | sraiLong | liLong
      | liHi | cmpeqLong | cmpneLong | cmpltLong | cmpleLong | cmpltnLong | cmplenLong | cidLong | ecancel =>
    cases hp
    exact retire_false h
  case ldLong | stLong | stgLong | nearadLong | cladLong | earm | ewait | ebexp | estat | edrain =>
    cases hp
    exact actOp_false h
  case ldgLong | recvt | rsend | egroup | ecopy | egath | escat | eacc | emark | eroute | ebatch | eldred | ecarry
      | ecoll | eget | eput | emcast | eappend | efset =>
    cases hp
    exact actOpW_false h
  all_goals cases hp

end False

/-! ### Predicates as a word (R177) -/

theorem getLsbD_preds_setWidth (s : State) (n : Nat) :
    (s.preds.setWidth 64).getLsbD n = (decide (n < 16) && s.rdK (BitVec.ofNat 4 n)) := by
  rw [State.rdK, BitVec.toNat_ofNat, BitVec.getLsbD_setWidth]
  by_cases hn : n < 16
  · rw [Nat.mod_eq_of_lt hn, decide_eq_true hn, decide_eq_true (by omega)]
  · rw [BitVec.getLsbD_of_ge _ _ (by omega), decide_eq_false hn, Bool.and_false, Bool.false_and]

/-! ### Coordinates (R182, Table 4.1) -/

section Place
variable {d y x : Nat} (hd : d < 4) (hy : y < 8) (hx : x < 12)
include hd hy hx

theorem place_clusterId : dieOf (clusterId d y x) = d ∧ rowOf (clusterId d y x) = y ∧ colOf (clusterId d y x) = x
    ∧ clusterId d y x < 384 := by
  unfold dieOf rowOf colOf clusterId
  omega

theorem cidWord_clusterId : cidWord (clusterId d y x) =
    BitVec.ofNat 64 (clusterId d y x + 2 ^ 32 * d + 2 ^ 40 * y + 2 ^ 48 * x) := by
  obtain ⟨die, row, col, -⟩ := place_clusterId hd hy hx
  simp only [cidWord, die, row, col]
  rfl

end Place

/-- Two fields side by side, as a number. -/
theorem toNat_append_add {v w : Nat} (a : BitVec v) (b : BitVec w) : (a ++ b).toNat = 2 ^ w * a.toNat + b.toNat := by
  rw [BitVec.toNat_append, ← Nat.shiftLeft_add_eq_or_of_lt b.isLt, Nat.shiftLeft_eq, Nat.mul_comm]

/-- `OFFSET` (Table 4.1). -/
theorem toNat_offset (a : Word) : (a.extractLsb' 0 22).toNat = bits a.toNat 21 0 := by
  rw [BitVec.extractLsb'_toNat, bits]

theorem clusterAddr_clusterId {d y x : Nat} (hd : d < 4) (hy : y < 8) (hx : x < 12) {a b : Word}
    (hb : b.toNat = clusterId d y x) : clusterAddr a b =
      some (1#32 ++ BitVec.ofNat 2 d ++ BitVec.ofNat 3 y ++ BitVec.ofNat 4 x ++ 0#1 ++ a.extractLsb' 0 22) := by
  obtain ⟨die, row, col, small⟩ := place_clusterId hd hy hx
  simp only [clusterAddr, hb, if_neg (show ¬ 383 < clusterId d y x by omega), die, row, col]
  refine congrArg some (BitVec.eq_of_toNat_eq ?_)
  have off : bits a.toNat 21 0 < 2 ^ 22 := toNat_offset a ▸ (a.extractLsb' 0 22).isLt
  simp only [toNat_append_add, toNat_offset, BitVec.toNat_ofNat]
  omega

theorem clusterAddr_beyond {a b : Word} (h : 383 < b.toNat) : clusterAddr a b = none := by
  rw [clusterAddr, if_pos h]

theorem sx_toNat (x : BitVec 8) : sx 8 x.toNat = x.toInt := by
  rw [sx, BitVec.toInt_eq_toNat_cond, Nat.mod_eq_of_lt x.isLt]
  split <;> split <;> omega

section Wrap
variable {w n : Nat} (hn : 2 ^ w = n) {v : Int}
include hn

theorem wrap_nonneg (low : 0 ≤ v) (high : v < n) : (wrap w v : Int) = v := by
  rw [wrap, hn, Int.toNat_of_nonneg (Int.emod_nonneg _ (by omega)), Int.emod_eq_of_lt low high]

theorem wrap_neg (low : -n ≤ v) (high : v < 0) : (wrap w v : Int) = v + n := by
  rw [wrap, hn, Int.toNat_of_nonneg (Int.emod_nonneg _ (by omega)), ← Int.add_emod_right,
    Int.emod_eq_of_lt (by omega) (by omega)]

end Wrap

/-- The low half of a relative coordinate address, as a number (Table 4.1). -/
theorem toNat_nearFields (a : Word) (dx dy : Int) :
    (BitVec.ofInt 4 dy ++ BitVec.ofInt 5 dx ++ 0#1 ++ a.extractLsb' 0 22).toNat =
      268435456 * wrap 4 dy + 8388608 * wrap 5 dx + bits a.toNat 21 0 := by
  simp only [toNat_append_add, toNat_offset, BitVec.toNat_ofInt, BitVec.toNat_ofNat, wrap]
  omega

/-- The sign extension of a half word, as a number. -/
theorem toNat_signExtend_half (v : BitVec 32) :
    (v.signExtend 64).toNat = (if 2147483648 ≤ v.toNat then 0xFFFFFFFF00000000 else 0) + v.toNat := by
  rw [BitVec.toNat_signExtend, BitVec.toNat_setWidth, BitVec.msb_eq_decide]
  have small := v.isLt
  by_cases top : 2147483648 ≤ v.toNat <;> simp [top] <;> omega

/-- A relative coordinate address is the sign extension of its low half (Table 4.1). -/
theorem nearAddr_eq (a b : Word) : nearAddr a b =
    if -11 ≤ (b.extractLsb' 0 8).toInt ∧ (b.extractLsb' 0 8).toInt ≤ 11 ∧ -7 ≤ (b.extractLsb' 8 8).toInt
      ∧ (b.extractLsb' 8 8).toInt ≤ 7 then
      some ((BitVec.ofInt 4 (b.extractLsb' 8 8).toInt ++ BitVec.ofInt 5 (b.extractLsb' 0 8).toInt ++ 0#1
        ++ a.extractLsb' 0 22).signExtend 64)
    else none := by
  have x8 : bits b.toNat 7 0 = (b.extractLsb' 0 8).toNat := by rw [BitVec.extractLsb'_toNat, bits]
  have y8 : bits b.toNat 15 8 = (b.extractLsb' 8 8).toNat := by rw [BitVec.extractLsb'_toNat, bits]
  simp only [nearAddr, x8, y8, sx_toNat]
  generalize (b.extractLsb' 0 8).toInt = dx
  generalize (b.extractLsb' 8 8).toInt = dy
  by_cases near : -11 ≤ dx ∧ dx ≤ 11 ∧ -7 ≤ dy ∧ dy ≤ 7
  · rw [if_neg (by simp; omega)]
    refine (congrArg some (BitVec.eq_of_toNat_eq ?_)).trans (if_pos near).symm
    have off : bits a.toNat 21 0 < 4194304 := toNat_offset a ▸ (a.extractLsb' 0 22).isLt
    have x : wrap 5 dx < 32 := by unfold wrap; omega
    rw [toNat_signExtend_half, toNat_nearFields, BitVec.toNat_ofNat]
    by_cases neg : dy < 0
    · have y := wrap_neg (w := 4) rfl (show -16 ≤ dy by omega) neg
      rw [if_pos neg, if_pos (by omega)]
      omega
    · have y := wrap_nonneg (w := 4) rfl (show 0 ≤ dy by omega) (show dy < 16 by omega)
      rw [if_neg neg, if_neg (by omega)]
      omega
  · rw [if_pos (by simp; omega), if_neg near]

/-! ### A coordinate instruction (R182) -/

section Coord
variable {i : Instr} {p : Pred} {s : State} {f : Word → Word → Option Word} {d a : Reg} {b : State → Word} (h : s.holds p = true)
include h

theorem coordOp_some {v : Word} (hv : f (s.rd a) (b s) = some v) :
    actOp i p (coordOp f d a b) s = .next (retire i (s.wr d v)) :=
  actOp_ok h (by rw [coordOp, hv])

theorem coordOp_none (hv : f (s.rd a) (b s) = none) : actOp i p (coordOp f d a b) s = .next (s.raise 0x24#8 0#64) :=
  actOp_trap h (by rw [coordOp, hv])

end Coord

/-- Settles O12: under a true predicate each instruction is the change that its table row gives, with the fields of a
coordinate address read as numbers; under a false one it only passes. -/
theorem predicateInstructions : Obligations.PredicateInstructions := by
  refine ⟨fun s d a b r => ⟨plainOp_always (.pand d a b) (fun s => s.wrK d (s.rdK a && s.rdK b)) s,
      plainOp_always (.por d a b) (fun s => s.wrK d (s.rdK a || s.rdK b)) s,
      plainOp_always (.pxor d a b) (fun s => s.wrK d (s.rdK a != s.rdK b)) s,
      plainOp_always (.pnot d a) (fun s => s.wrK d (!s.rdK a)) s,
      ⟨s.preds.setWidth 64, plainOp_always (.kget r) (fun s => s.wr r (s.preds.setWidth 64)) s,
        getLsbD_preds_setWidth s⟩,
      ⟨(s.rd r).setWidth 16, plainOp_always (.kset r) (fun s => s.setPreds ((s.rd r).setWidth 16)) s,
        fun n _ hn => ?_⟩⟩,
    fun i p s hp h => exec_of_false h hp, fun s r d y x hd hy hx hc => ?_, fun s d a b p o h => ?_, fun s r a b p o h => ?_⟩
  · rw [BitVec.getLsbD_setWidth, decide_eq_true hn, Bool.true_and]
  · rw [← cidWord_clusterId hd hy hx, ← hc]
    exact ⟨plainOp_always (.cid r) (fun s => s.wr r (cidWord s.selfCl)) s, fun p h =>
      plainOp_holds (i := .cidLong p r) (f := fun s => s.wr r (cidWord s.selfCl)) h⟩
  · intro near
    have near_eq (b : Word) : near b = nearAddr (s.rd a) b := (nearAddr_eq _ _).symm
    rw [near_eq, near_eq]
    constructor
    · cases hv : nearAddr (s.rd a) (s.rd b) with
      | some v => exact coordOp_some (holds_always s) hv
      | none => exact coordOp_none (holds_always s) hv
    · cases hv : nearAddr (s.rd a) (s.rdRI o) with
      | some v => exact coordOp_some h hv
      | none => exact coordOp_none h hv
  · exact ⟨fun d y x hd hy hx => ⟨fun hb => coordOp_some (holds_always s) (clusterAddr_clusterId hd hy hx hb),
        fun hb => coordOp_some h (clusterAddr_clusterId hd hy hx hb)⟩,
      fun hb => coordOp_none (holds_always s) (clusterAddr_beyond hb), fun hb => coordOp_none h (clusterAddr_beyond hb)⟩

end Sys2Proof.Machine
end

section
/-! SUPPORT. The instruction that a walker issues (R21 to R24, R161 to R170). -/

namespace Sys2Proof.Machine

/-! ### A turn that issues -/

theorem takeTurn_run {w : Walker} {s t : State} {i : Instr} (hw : hasWalker w = true)
    (hp : plan w (s.begin (actorOf w)) = .run i t) : takeTurn (.walk w) s = exec i t := by
  simp [takeTurn, hw, hp]

/-- A step whose first turn is a walker's, which issues `i`, runs `i`. -/
theorem step_of_plan_run {w : Walker} {s t : State} {rest : List Turn} {i : Instr} (ha : s.agenda = .walk w :: rest)
    (hw : hasWalker w = true) (hp : plan w (s.startOf rest (actorOf w)) = .run i t) : step s = exec i t := by
  rw [step_of_agenda ha, takeTurn_run hw hp]

/-! ### The rest of the instruction, and its decoding (R23) -/

section Issue
variable {w : Who} {t : Task} {pc : Nat} {h : Parcel} {s s1 : State} {ps : List Parcel} {i : Instr}
  (hps : heldParcels s.selfText w t (parcelsOf (headLen h) - 1) (pc + 4) s = .ok (s1, ps)) (hi : decode (h :: ps) = .ok i)
  (k : Instr → State → Plan)
include hps hi

theorem issue_ok : issue w t pc h s k = k i (s1.holdText pc (h :: ps)) := by
  simp only [issue, hps, hi]

theorem issueX_ok : issueX w t pc h s k = k i (s1.holdText pc (h :: ps)) := by
  simp only [issueX, hps, hi]

end Issue

theorem heldUp_of_free {s : State} {c : Nat} {w : Who} {t : Task} {e : Eng} {i : Instr} (h : freeToIssue s c w t e i) :
    heldUp c e w t i s = none := by
  obtain ⟨scalar, lock, held, follow⟩ := h
  have noFollow : (e == .M && awaitsFollow s c w t i) = false := by
    by_cases hM : e = .M
    · rw [follow hM, Bool.and_false]
    · rw [beq_false_of_ne hM, Bool.false_and]
  simp only [heldUp, scalar, lock, held, noFollow]
  rfl

theorem threadRun_ok {s : State} {i : Instr}
    (held : heldBack s s.selfCl (some (agentNum s)) (scalarAccess s s.selfCtx s.selfCl s.rd s.holds i) = false)
    (good : meetsBadReg s i = false) : threadRun i s = .run i s := by
  rw [threadRun, held, good]
  rfl

/-! ### A PC that issues (R21, R162, R193) -/

section Pc
variable {s s1 s2 : State} {c : Nat} {e : Eng} {t : Task} {h : Parcel} {ps : List Parcel} {i : Instr}

/-- The order in which an X instruction is issued: the S PC first, a `vbr` steered by the A PC (R164). -/
theorem unordered_x (x : Cluster) (w : Walk)
    (first : headTag h = .X → e ≠ .S → headOpc h ≠ 0x0B#7 → w.dp < x.wS.dp)
    (steered : headTag h = .X → e ≠ .S → headOpc h = 0x0B#7 → if e = .A then x.vbrAt = some w.dp else w.token ≠ none) :
    (headTag h == .X && e != .S && headOpc h == 0x0B#7 && e != .A && w.token == none) = false
      ∧ (headTag h == .X && e == .A && headOpc h == 0x0B#7 && x.vbrAt != some w.dp) = false
      ∧ (headTag h == .X && e != .S && headOpc h != 0x0B#7 && decide (x.wS.dp ≤ w.dp)) = false := by
  by_cases hX : headTag h = .X
  · by_cases hS : e = .S
    · subst hS; simp
    · by_cases hb : headOpc h = 0x0B#7
      · have token := steered hX hS hb
        by_cases hA : e = .A
        · rw [if_pos hA] at token
          simp [hA, hb, token]
        · rw [if_neg hA] at token
          simp [hA, hb, Option.isSome_iff_ne_none, token]
      · have ahead := first hX hS hb
        simp [hb, ahead]
  · simp [hX]

theorem plan_pc_run (htask : (s.cl c).task = some t) (hrun : t.state = .running)
    (hbar : ((s.cl c).walk e).barred = true → ((s.cl c).walk e).dp < (s.cl c).wS.dp)
    (hin : ((s.cl c).walk e).pc < t.image.textSize)
    (hh : heldParcel ((s.cl c).walk e).text s.who t ((s.cl c).walk e).pc s = .ok (s1, h))
    (hps : heldParcels (s1.holdText ((s.cl c).walk e).pc [h]).selfText s.who t (parcelsOf (headLen h) - 1)
      (((s.cl c).walk e).pc + 4) (s1.holdText ((s.cl c).walk e).pc [h]) = .ok (s2, ps))
    (hi : decode (h :: ps) = .ok i) (hex : executes e (headTag h) = true) (hlen : headLen h ≠ 3#2) (hK : headTag h ≠ .K)
    (hbody : headTag h ≠ .X → straddles ((s.cl c).walk e) (headBytes h) = false)
    (first : headTag h = .X → e ≠ .S → headOpc h ≠ 0x0B#7 → ((s.cl c).walk e).dp < (s.cl c).wS.dp)
    (steered : headTag h = .X → e ≠ .S → headOpc h = 0x0B#7 →
      if e = .A then (s.cl c).vbrAt = some ((s.cl c).walk e).dp else ((s.cl c).walk e).token ≠ none)
    (hslip : slips (s.cl c) ((s.cl c).walk e) (headBytes h) = false)
    (free : freeToIssue (s2.holdText ((s.cl c).walk e).pc (h :: ps)) c s.who t e i)
    (good : e = .S ∨ headTag h ≠ .X → meetsBadReg (s2.holdText ((s.cl c).walk e).pc (h :: ps)) i = false) :
    plan (.pc c e) s = .run i (s2.holdText ((s.cl c).walk e).pc (h :: ps)) := by
  have unbarred : (((s.cl c).walk e).barred && decide ((s.cl c).wS.dp ≤ ((s.cl c).walk e).dp)) = false := by
    cases hb : ((s.cl c).walk e).barred with
    | false => rfl
    | true => simpa using hbar hb
  have inText : ¬ t.image.textSize ≤ ((s.cl c).walk e).pc := by omega
  obtain ⟨steer, vbr, order⟩ := unordered_x (s.cl c) ((s.cl c).walk e) first steered
  have inBody : (headTag h != .X && straddles ((s.cl c).walk e) (headBytes h)) = false := by
    by_cases hX : headTag h = .X
    · simp [hX]
    · rw [hbody hX, Bool.and_false]
  have noBad : ((e == .S || headTag h != .X) && meetsBadReg (s2.holdText ((s.cl c).walk e).pc (h :: ps)) i) = false := by
    by_cases hg : e = .S ∨ headTag h ≠ .X
    · rw [good hg, Bool.and_false]
    · rw [not_or, not_not] at hg
      simp [hg]
  have issued (k : Instr → State → Plan) : (if headTag h == .X && e != .S then issueX else issue) s.who t
      ((s.cl c).walk e).pc h (s1.holdText ((s.cl c).walk e).pc [h]) k =
      k i (s2.holdText ((s.cl c).walk e).pc (h :: ps)) := by
    split
    · exact issueX_ok hps hi k
    · exact issue_ok hps hi k
  have whole : (headLen h == 3#2) = false := beq_false_of_ne hlen
  have noK : (e == .S && headTag h == .K) = false := by rw [beq_false_of_ne hK, Bool.and_false]
  simp only [plan, planPc, htask, hrun, unbarred, if_neg inText, hh, whole, noK, hex, steer, vbr, order, inBody, hslip, issued,
    heldUp_of_free free, noBad]
  rfl

end Pc

/-! ### A rake thread, or a die manager core, that issues (R22, R381) -/

section Rake
variable {s s1 s2 : State} {t : Task} {r : Rake} {h : Parcel} {ps : List Parcel} {i : Instr}

theorem planRake_run (hst : r.st = .ready ∨ r.st = .recv ∨ r.st = .recvt ∨ r.st = .ksleep) (hin : r.pc < t.image.textSize)
    (hh : heldParcel r.text s.who t r.pc s = .ok (s1, h)) (hlen : headLen h ≠ 3#2)
    (hps : heldParcels s1.selfText s.who t (parcelsOf (headLen h) - 1) (r.pc + 4) s1 = .ok (s2, ps))
    (hi : decode (h :: ps) = .ok i)
    (hex : headTag h = .S ∨ headTag h = .C ∨ headTag h = .K ∨ (headTag h = .X ∧ rakeX (headOpc h) = true))
    (hrun : threadRun i (s2.holdText r.pc (h :: ps)) = .run i (s2.holdText r.pc (h :: ps))) :
    planRake t r s = .run i (s2.holdText r.pc (h :: ps)) := by
  have awake : (r.st == .idle || r.st == .trapped || r.st == .ended) = false := by
    rcases hst with st | st | st | st <;> simp [st]
  have whole : (headLen h == 3#2) = false := beq_false_of_ne hlen
  have issued := (issue_ok hps hi threadRun).trans hrun
  simp only [planRake, awake, if_neg (show ¬ t.image.textSize ≤ r.pc by omega), hh, whole]
  rcases hex with tag | tag | tag | ⟨tag, opc⟩
  · simp [tag, issued]
  · simp [tag, issued]
  · simp [tag, issued]
  · simp [tag, opc, issued]

theorem plan_rake {c n : Nat} (htask : (s.cl c).task = some t) (hrun : t.state = .running ∨ t.state = .trapped)
    (thawed : ∀ x, KMap.get? s.gangs t.gang = some x → x.frozen = false) :
    plan (.rake c n) s = planRake t ((s.cl c).rake n) s := by
  have free : (KMap.get? s.gangs t.gang).any (·.frozen) = false := by
    cases hg : KMap.get? s.gangs t.gang with
    | none => rfl
    | some x => exact thawed x hg
  have live : (t.state == .running || t.state == .trapped) = true := by simpa using hrun
  simp [plan, htask, free, live]

theorem plan_mgr {d : Nat} (htask : (s.die d).coreTask = some t) : plan (.mgr d) s = planRake t (s.die d).core s := by
  simp only [plan, htask]

end Rake

/-- Settles O4: the turn's plan passes every guard that the hypotheses name, and runs the instruction. -/
theorem stepRunsInstruction : Obligations.StepRunsInstruction := by
  constructor
  · intro s s1 s2 rest c e t h ps i hagenda hc s0 w htask hrun hbar hin hh s1' hps s3 hi hex hlen hK hbody first steered hslip
      free good
    exact step_of_plan_run hagenda (decide_eq_true hc)
      (plan_pc_run htask hrun hbar hin hh hps hi hex hlen hK hbody first steered hslip free good)
  · intro s s1 s2 rest wk r t h ps i hagenda s0 hwk hst hin hh hlen hps s3 hi hex held good
    have planned := planRake_run hst hin hh hlen hps hi hex (threadRun_ok held good)
    rcases hwk with ⟨c, n, rfl, hc, hn, htask, hrun, thawed, rfl⟩ | ⟨d, rfl, hd, htask, rfl⟩
    · exact step_of_plan_run hagenda (by simp [hasWalker, hc, hn]) ((plan_rake htask hrun thawed).trans planned)
    · exact step_of_plan_run hagenda (decide_eq_true hd) ((plan_mgr htask).trans planned)

end Sys2Proof.Machine
end

section
/-! SUPPORT. Clusters (log 4): changes that leave the scratchpad's bytes, and those that keep their canonical form. -/

namespace Sys2Proof.Machine

/-! ### Changes elsewhere than in the scratchpad -/

theorem Cluster.foldl_sram {α : Type} {f : Cluster → α → Cluster} (hf : ∀ x a, (f x a).sram = x.sram) (l : List α)
    (x : Cluster) :
    (l.foldl f x).sram = x.sram := by
  induction l generalizing x with
  | nil => rfl
  | cons a l ih => exact (ih (f x a)).trans (hf x a)

@[simp] theorem Cluster.dropGroups_sram (x : Cluster) (p : Cmd → Bool) : (x.dropGroups p).sram = x.sram :=
  Cluster.foldl_sram (f := fun y n => y.retireSeq .fabric n) (fun _ _ => rfl) _ _

@[simp] theorem Cluster.dropTexts_sram (x : Cluster) : x.dropTexts.sram = x.sram := rfl

@[simp] theorem Cluster.haltPcs_sram (x : Cluster) : x.haltPcs.sram = x.sram := by simp [Cluster.haltPcs]

@[simp] theorem reseed_sram (e : Eng) (h : Parcel) (x : Cluster) : (reseed e h x).sram = x.sram := by
  unfold reseed
  split
  · simp
  · rfl

@[simp] theorem passPointers_sram (x : Cluster) (e : Eng) (q : Nat) (i : Instr) : (passPointers x e q i).sram = x.sram := by
  unfold passPointers
  refine (Cluster.foldl_sram (fun y o => ?_) _ _).trans (by simp)
  split <;> rfl

@[simp] theorem storeFlags_sram (bs : List Byte) (off : Nat) (x : Cluster) : (storeFlags x off bs).sram = x.sram := by
  induction bs generalizing off x with
  | nil => rfl
  | cons b bs ih =>
    refine (ih _ _).trans ?_
    split <;> rfl

@[simp] theorem l1Fill_sram (x : Cluster) (line : Nat) (bs : List Byte) (tick : Nat) :
    (l1Fill x line bs tick).sram = x.sram := by
  unfold l1Fill
  dsimp only
  split <;> rfl

@[simp] theorem popTok_sram (x : Cluster) (ch : Nat) : (popTok x ch).sram = x.sram := by
  unfold popTok
  split <;> rfl

@[simp] theorem pushTok_sram (dp : Nat) (x : Cluster) (ch : Nat) : (pushTok dp x ch).sram = x.sram := by
  unfold pushTok
  split <;> rfl

/-- Codes correct bits in error, and leave the bytes (R405, R406). -/
theorem rowEcc_sram {x y : Cluster} {line : Nat} (h : rowEcc x line = some y) : y.sram = x.sram := by
  unfold rowEcc at h
  dsimp only at h
  split at h
  · cases h; rfl
  · split at h <;> cases h
    rfl

theorem colEcc_sram {x y : Cluster} {col : Nat} (h : colEcc x col = some y) : y.sram = x.sram := by
  unfold colEcc at h
  dsimp only at h
  split at h
  · cases h; rfl
  · split at h <;> cases h
    rfl

theorem Cluster.foldlM_sram {α : Type} {f : Cluster → α → Option Cluster} (hf : ∀ {x a y}, f x a = some y → y.sram = x.sram)
    {l : List α} {x y : Cluster} (h : l.foldlM f x = some y) : y.sram = x.sram := by
  induction l generalizing x with
  | nil => cases h; rfl
  | cons a l ih =>
    obtain ⟨z, hz, h⟩ := Option.bind_eq_some_iff.mp h
    exact (ih h).trans (hf hz)

/-! ### Changes in the scratchpad -/

theorem touchLine_wf {x : Cluster} (line : Nat) (h : Mem.wf x.sram = true) : Mem.wf (touchLine x line).sram = true := by
  unfold touchLine
  split
  · exact h
  · exact Mem.wf_zero _ _ h

theorem Cluster.foldl_wf {α : Type} {f : Cluster → α → Cluster}
    (hf : ∀ x a, Mem.wf x.sram = true → Mem.wf (f x a).sram = true)
    (l : List α) {x : Cluster} (h : Mem.wf x.sram = true) : Mem.wf (l.foldl f x).sram = true := by
  induction l generalizing x with
  | nil => exact h
  | cons a l ih => exact ih (hf x a h)

theorem plantBytes_wf {x : Cluster} (off : Nat) (bs : List Byte) (h : Mem.wf x.sram = true) :
    Mem.wf (plantBytes x off bs).sram = true :=
  Mem.wf_write _ _ (Cluster.foldl_wf (fun _ _ => touchLine_wf _) _ h)

theorem plantImage_wf (l : Loaded) (keep : Nat → Bool) {x : Cluster} (h : Mem.wf x.sram = true) :
    Mem.wf (plantImage l keep x).sram = true := by
  unfold plantImage
  refine Cluster.foldl_wf (fun x p h => Cluster.foldl_wf (fun x q h => ?_) _ h) _ h
  split
  · exact plantBytes_wf _ _ h
  · exact h

/-- A task starts with a scratchpad that holds its image alone (R371). -/
theorem setUp_wf (t : Task) (l : Loaded) (seed : Word) (x : Cluster) : Mem.wf (setUp t l seed x).sram = true :=
  plantImage_wf _ _ Mem.wf_nil

theorem scratchLaunch_wf (l : Option Loaded) {x : Cluster} (h : Mem.wf x.sram = true) :
    Mem.wf (scratchLaunch l x).sram = true := by
  unfold scratchLaunch
  dsimp only
  split
  · exact plantImage_wf _ _ (Mem.wf_below _ h)
  · exact Mem.wf_below _ h

/-- The cells of `n` halfwords from `a` on, each 0x7FC0 (R116). -/
theorem nanCells_wf (a n : Nat) :
    let cells : Mem := (List.range n).flatMap fun i => [(a + 2 * i, 0xC0#8), (a + 2 * i + 1, 0x7F#8)]
    Mem.wf cells = true ∧ ∀ c ∈ cells, a ≤ c.1 ∧ c.1 < a + 2 * n := by
  refine ⟨(Mem.wf_iff _).mpr ⟨?_, ?_⟩, ?_⟩
  · rw [List.pairwise_flatMap]
    refine ⟨by simp, List.pairwise_lt_range.imp fun hij => ?_⟩
    simp only [List.mem_cons, List.not_mem_nil, or_false]
    rintro c (rfl | rfl) d (rfl | rfl) <;> simp only <;> omega
  · simp only [List.mem_flatMap, List.mem_cons, List.not_mem_nil, or_false]
    rintro c ⟨i, -, rfl | rfl⟩ <;> simp
  · simp only [List.mem_flatMap, List.mem_range, List.mem_cons, List.not_mem_nil, or_false]
    rintro c ⟨i, hi, rfl | rfl⟩ <;> simp only <;> omega

theorem scratchNaN_wf {x : Cluster} (h : Mem.wf x.sram = true) : Mem.wf (scratchNaN x).sram = true := by
  unfold scratchNaN
  extract_lets lo hi cells
  have hle : lo ≤ hi := le_max_left _ _
  obtain ⟨hwf, hin⟩ := nanCells_wf (128 * lo) (64 * (hi - lo))
  exact Mem.wf_splice (128 * lo) (128 * hi) (Mem.wf_below _ h) hwf (Mem.wf_from _ h) (fun _ hc => Mem.mem_below hc)
    (fun c hc => by have := hin c hc; omega) (fun _ hc => Mem.mem_from hc) (by omega)

theorem rollCluster_wf (s : State) (sstep : BitVec 32) (die : Nat) {x : Cluster} (h : Mem.wf x.sram = true) :
    Mem.wf (rollCluster s sstep die x).sram = true := by
  unfold rollCluster
  split
  · exact h
  next n _ =>
    have hr : Mem.wf (restoreSnap n x).sram = true := h
    dsimp only
    split
    · exact scratchLaunch_wf _ hr
    · simpa only using scratchNaN_wf hr

end Sys2Proof.Machine
end

section
/-! SUPPORT. The canonical form of the memories (log 4): the rules by which a state, an answer or an action is seen to keep it. -/

namespace Sys2Proof.Machine

/-! ### States -/

/-- The memories of the package. -/
def State.memories (s : State) : Mem × KMap Cluster × KMap Die × List Spilled × KMap Mailbox :=
  (s.hbm, s.clusters, s.dies, s.spilled, s.mailboxes)

namespace State.memoryWf

variable {α : Type} {s t : State}

/-- Only the memories matter. -/
theorem congr (h : s.memoryWf) (e : t.memories = s.memories) : t.memoryWf := by
  simp only [State.memories, Prod.mk.injEq] at e
  obtain ⟨hbm, clusters, dies, spilled, mailboxes⟩ := e
  unfold State.memoryWf
  rw [hbm, clusters, dies, spilled, mailboxes]
  exact h

theorem hbm (h : s.memoryWf) : Mem.wf s.hbm = true := h.1
theorem clusters (h : s.memoryWf) : ∀ e ∈ s.clusters, Mem.wf e.2.sram = true := h.2.1
theorem dies (h : s.memoryWf) : ∀ e ∈ s.dies, Mem.wf e.2.pinned = true := h.2.2.1
theorem spilled (h : s.memoryWf) : ∀ p ∈ s.spilled, Mem.wf p.image.sram = true := h.2.2.2.1
theorem mailboxes (h : s.memoryWf) : ∀ e ∈ s.mailboxes, Mem.wf e.2.payload = true := h.2.2.2.2

/-- A cluster changed elsewhere than in its scratchpad. -/
theorem modCl {c : Nat} {f : Cluster → Cluster} (h : s.memoryWf) (hf : (f (s.cl c)).sram = (s.cl c).sram) :
    (s.modCl c f).memoryWf :=
  State.memoryWf_modCl c f h (hf ▸ State.sram_wf h c)

theorem setCl {c : Nat} {x : Cluster} (h : s.memoryWf) (hx : x.sram = (s.cl c).sram) : (s.setCl c x).memoryWf :=
  h.modCl (f := fun _ => x) hx

/-- A die changed elsewhere than in its pinned space. -/
theorem modDie {d : Nat} {f : Die → Die} (h : s.memoryWf) (hf : (f (s.die d)).pinned = (s.die d).pinned) :
    (s.modDie d f).memoryWf :=
  State.memoryWf_modDie d f h (hf ▸ State.pinned_wf h d)

theorem ite {p : Prop} [Decidable p] (hs : s.memoryWf) (ht : t.memoryWf) : (if p then s else t).memoryWf := by
  split
  · exact hs
  · exact ht

theorem foldl {f : State → α → State} {l : List α} (h : s.memoryWf) (hf : ∀ s a, s.memoryWf → (f s a).memoryWf) :
    (l.foldl f s).memoryWf := by
  induction l generalizing s with
  | nil => exact h
  | cons a l ih => exact ih (hf s a h)

/-- The state of an answer that has one. -/
theorem fst {r : State × α} {x : α} (h : r.1.memoryWf) (e : r = (t, x)) : t.memoryWf := by
  rw [e] at h; exact h

theorem snd {r : α × State} {x : α} (h : r.2.memoryWf) (e : r = (x, t)) : t.memoryWf := by
  rw [e] at h; exact h

end State.memoryWf

/-- A spilled image changed elsewhere than in its scratchpad. -/
theorem State.memoryWf.replaceSpilled {p q : Spilled} {s : State} (h : s.memoryWf) (hq : Mem.wf q.image.sram = true) :
    State.memoryWf { s with spilled := s.spilled.map fun o => if o == p then q else o } := by
  refine ⟨h.hbm, h.clusters, h.dies, fun x hx => ?_, h.mailboxes⟩
  obtain ⟨o, ho, rfl⟩ := List.mem_map.mp hx
  split
  · exact hq
  · exact h.spilled o ho

theorem State.payload_wf {s : State} (h : s.memoryWf) (k : Nat) : Mem.wf (s.mailbox k).payload = true := by
  rcases KMap.getD_mem s.mailboxes k Mailbox.reset with e | ⟨j, e⟩
  · show Mem.wf (KMap.getD s.mailboxes k Mailbox.reset).payload = true
    rw [e]; rfl
  · exact h.mailboxes _ e

/-- Memories of a list's elements, each kept as the elements change. -/
theorem Mem.wf_map {α β : Type} {P : α → Mem} {Q : β → Mem} {f : α → β} {l : List α} (h : ∀ e ∈ l, Mem.wf (P e) = true)
    (hf : ∀ e, Q (f e) = P e) : ∀ e ∈ l.map f, Mem.wf (Q e) = true := by
  intro e he
  obtain ⟨d, hd, rfl⟩ := List.mem_map.mp he
  exact (congrArg Mem.wf (hf d)).trans (h d hd)

theorem Mem.wf_filtered {α : Type} {P : α → Mem} {p : α → Bool} {l : List α} (h : ∀ e ∈ l, Mem.wf (P e) = true) :
    ∀ e ∈ l.filter p, Mem.wf (P e) = true := fun e he => h e (List.mem_filter.mp he).1

/-! ### Answers -/

variable {α β γ ε : Type}

/-- The state that is the answer, where there is one, has its memories in form. -/
def OptForm (r : Option State) : Prop := ∀ ⦃t⦄, r = some t → t.memoryWf
def ExcForm (r : Except ε State) : Prop := ∀ ⦃t⦄, r = .ok t → t.memoryWf
def ResForm (r : Except ε (State × α)) : Prop := ∀ ⦃t x⦄, r = .ok (t, x) → t.memoryWf
def ActForm (r : Except ε (α × State)) : Prop := ∀ ⦃t x⦄, r = .ok (x, t) → t.memoryWf
def NextForm (r : Host.Outcome State Fault Refusal) : Prop := ∀ ⦃t⦄, r = .next t → t.memoryWf

theorem OptForm.none : OptForm none := fun _ e => by cases e
theorem OptForm.some {s : State} (h : s.memoryWf) : OptForm (some s) := by rintro _ ⟨⟩; exact h

theorem ExcForm.error {e : ε} : ExcForm (.error e) := fun _ e => by cases e
theorem ExcForm.ok {s : State} (h : s.memoryWf) : ExcForm (.ok s : Except ε State) := by rintro _ ⟨⟩; exact h

theorem ResForm.error {e : ε} : ResForm (.error e : Except ε (State × α)) := fun _ _ e => by cases e
theorem ResForm.ok {s : State} {x : α} (h : s.memoryWf) : ResForm (.ok (s, x) : Except ε (State × α)) := by
  rintro _ _ ⟨⟩; exact h

theorem ActForm.error {e : ε} : ActForm (.error e : Except ε (α × State)) := fun _ _ e => by cases e
theorem ActForm.ok {s : State} {x : α} (h : s.memoryWf) : ActForm (.ok (x, s) : Except ε (α × State)) := by
  rintro _ _ ⟨⟩; exact h

theorem NextForm.next {s : State} (h : s.memoryWf) : NextForm (.next s) := by rintro _ ⟨⟩; exact h

theorem ExcForm.ite {p : Prop} [Decidable p] {a b : Except ε State} (ha : ExcForm a) (hb : ExcForm b) :
    ExcForm (if p then a else b) := by
  split
  · exact ha
  · exact hb

theorem NextForm.ite {p : Prop} [Decidable p] {a b : Host.Outcome State Fault Refusal} (ha : NextForm a) (hb : NextForm b) :
    NextForm (if p then a else b) := by
  split
  · exact ha
  · exact hb

theorem OptForm.ite {p : Prop} [Decidable p] {a b : Option State} (ha : OptForm a) (hb : OptForm b) :
    OptForm (if p then a else b) := by
  split
  · exact ha
  · exact hb

theorem ExcForm.foldlM {f : State → α → Except ε State} (hf : ∀ s a, s.memoryWf → ExcForm (f s a)) (l : List α) {s : State}
    (h : s.memoryWf) : ExcForm (l.foldlM f s) := by
  induction l generalizing s with
  | nil => exact .ok h
  | cons a l ih =>
    intro t e
    cases ha : f s a with
    | error x => simp [List.foldlM, ha, bind, Except.bind] at e
    | ok u =>
      have e : l.foldlM f u = .ok t := by simpa [List.foldlM, ha, bind, Except.bind] using e
      exact ih (hf s a h ha) e

theorem ResForm.foldlM {f : State × β → α → Except ε (State × β)} (hf : ∀ s b a, s.memoryWf → ResForm (f (s, b) a))
    (l : List α)
    {s : State} {b : β} (h : s.memoryWf) : ResForm (l.foldlM f (s, b)) := by
  induction l generalizing s b with
  | nil => exact .ok h
  | cons a l ih =>
    intro t x e
    cases ha : f (s, b) a with
    | error y => simp [List.foldlM, ha, bind, Except.bind] at e
    | ok u =>
      have e : l.foldlM f u = .ok (t, x) := by simpa [List.foldlM, ha, bind, Except.bind] using e
      exact ih (s := u.1) (b := u.2) (hf s b a h ha) e

theorem ResForm.bind {r : Except ε (State × α)} {f : State × α → Except ε (State × β)} (hr : ResForm r)
    (hf : ∀ s x, s.memoryWf → ResForm (f (s, x))) : ResForm (r >>= f) := by
  cases r with
  | error e => exact .error
  | ok p => exact hf p.1 p.2 (hr rfl)

theorem ExcForm.mapError {ε' : Type} {g : ε → ε'} {r : Except ε State} (h : ExcForm r) : ExcForm (r.mapError g) := by
  cases r with
  | error e => exact .error
  | ok x => exact .ok (h rfl)

theorem ResForm.mapError {ε' : Type} {g : ε → ε'} {r : Except ε (State × α)} (h : ResForm r) : ResForm (r.mapError g) := by
  cases r with
  | error e => exact .error
  | ok x => exact .ok (h rfl)

/-! ### Plans -/

/-- The state that a plan leaves, or hands on, has its memories in form. -/
def PlanForm : Plan → Prop
  | .run _ s => s.memoryWf
  | .done s => s.memoryWf

theorem PlanForm.ite {p : Prop} [Decidable p] {a b : Plan} (ha : PlanForm a) (hb : PlanForm b) :
    PlanForm (if p then a else b) := by
  split
  · exact ha
  · exact hb

/-! ### Actions -/

/-- An action that ends leaves memories in form so. -/
def Keeps (a : StateT State (Except ε) α) : Prop := ∀ ⦃s⦄, s.memoryWf → ActForm (a s)

namespace Keeps

theorem pure {x : α} : Keeps (Pure.pure x : StateT State (Except ε) α) := fun _ h => .ok h

theorem bind {a : StateT State (Except ε) α} {f : α → StateT State (Except ε) β} (ha : Keeps a) (hf : ∀ x, Keeps (f x)) :
    Keeps (a >>= f) := by
  intro s h t x e
  simp only [Bind.bind, StateT.bind, Except.bind] at e
  split at e
  · cases e
  · next r hr => exact hf r.1 (ha h hr) e

/-- What has been read of the state may be taken to be in form. -/
theorem get {f : State → StateT State (Except ε) β} (hf : ∀ s, s.memoryWf → Keeps (f s)) :
    Keeps (MonadStateOf.get >>= f) := fun s h => hf s h h

theorem set {s : State} (h : s.memoryWf) : Keeps (MonadStateOf.set s : StateT State (Except ε) PUnit) := fun _ _ => .ok h

theorem modify {f : State → State} (hf : ∀ s, s.memoryWf → (f s).memoryWf) :
    Keeps (modify f : StateT State (Except ε) PUnit) := fun s h => .ok (hf s h)

theorem ite {p : Prop} [Decidable p] {a b : StateT State (Except ε) α} (ha : Keeps a) (hb : Keeps b) :
    Keeps (if p then a else b) := by
  split
  · exact ha
  · exact hb

theorem forM {l : List α} {f : α → StateT State (Except ε) PUnit} (hf : ∀ x, Keeps (f x)) : Keeps (l.forM f) := by
  induction l with
  | nil => exact .pure
  | cons a l ih => exact .bind (hf a) fun _ => ih

theorem mapM {l : List α} {f : α → StateT State (Except ε) β} (hf : ∀ x, Keeps (f x)) : Keeps (l.mapM f) := by
  rw [← List.mapM'_eq_mapM]
  induction l with
  | nil => exact .pure
  | cons a l ih => exact .bind (hf a) fun _ => .bind ih fun _ => .pure

theorem mapIdxM {l : List α} {f : Nat → α → StateT State (Except ε) β} (hf : ∀ i x, Keeps (f i x)) :
    Keeps (l.mapIdxM f) := by
  unfold List.mapIdxM
  suffices h : ∀ (l : List α) acc, Keeps (List.mapIdxM.go f l acc) from h l #[]
  intro l
  induction l with
  | nil => exact fun _ => .pure
  | cons a l ih => exact fun acc => .bind (hf acc.size a) fun y => ih _

/-! ### Accesses as actions -/

theorem liftA {a : Nat} {f : State → Except (BitVec 8) (State × α)} (hf : ∀ s, s.memoryWf → ResForm (f s)) :
    Keeps (Machine.liftA a f) := by
  intro s h
  unfold Machine.liftA
  split
  next e => exact .ok (hf s h e)
  next => exact .error

theorem liftU {a : Nat} {f : State → Except (BitVec 8) State} (hf : ∀ s, s.memoryWf → ExcForm (f s)) :
    Keeps (Machine.liftU a f) := by
  intro s h
  unfold Machine.liftU
  split
  next e => exact .ok (hf s h e)
  next => exact .error

theorem liftE {a : Nat} {f : State → Except (BitVec 8) (State × α)} (hf : ∀ s, s.memoryWf → ResForm (f s)) :
    Keeps (Machine.liftE a f) := by
  intro s h
  unfold Machine.liftE
  split
  next e => exact .ok (hf s h e)
  next => exact .error

theorem liftEU {a : Nat} {f : State → Except (BitVec 8) State} (hf : ∀ s, s.memoryWf → ExcForm (f s)) :
    Keeps (Machine.liftEU a f) := by
  intro s h
  unfold Machine.liftEU
  split
  next e => exact .ok (hf s h e)
  next => exact .error

end Keeps

/-! ### What actions give -/

/-- What an action that ends gives satisfies `P`. -/
def Gives (P : α → Prop) (a : StateT State (Except ε) α) : Prop := ∀ ⦃s x t⦄, a s = .ok (x, t) → P x

namespace Gives

variable {P : α → Prop} {Q : β → Prop}

theorem pure {x : α} (h : P x) : Gives P (Pure.pure x : StateT State (Except ε) α) := by
  intro s y t e
  cases e
  exact h

theorem bind {a : StateT State (Except ε) β} {f : β → StateT State (Except ε) α} (hf : ∀ x, Gives P (f x)) :
    Gives P (a >>= f) := by
  intro s y t e
  simp only [Bind.bind, StateT.bind, Except.bind] at e
  split at e
  · cases e
  · exact hf _ e

theorem ite {p : Prop} [Decidable p] {a b : StateT State (Except ε) α} (ha : Gives P a) (hb : Gives P b) :
    Gives P (if p then a else b) := by
  split
  · exact ha
  · exact hb

end Gives

theorem Keeps.bindGives {P : α → Prop} {a : StateT State (Except ε) α} {f : α → StateT State (Except ε) β} (ha : Keeps a)
    (hP : Gives P a) (hf : ∀ x, P x → Keeps (f x)) : Keeps (a >>= f) := by
  intro s h t x e
  simp only [Bind.bind, StateT.bind, Except.bind] at e
  split at e
  · cases e
  · next r hr => exact hf r.1 (hP hr) (ha h hr) e

end Sys2Proof.Machine
end

section
/-! SUPPORT. The canonical form of the memories (log 4) is kept: device memory, pinned spaces and their accounts. -/

namespace Sys2Proof.Machine

theorem State.memoryWf.hbmWrite {s : State} {a : Nat} {bs : List Byte} (h : s.memoryWf) :
    (State.hbmWrite s a bs).memoryWf :=
  State.memoryWf_hbmWrite a bs h

theorem Mem.wf_moved {m : Mem} {f : Nat → Nat} : Mem.wf (m.foldl (fun n c => Mem.write n (f c.1) [c.2]) []) = true := by
  suffices h : ∀ n : Mem, Mem.wf n = true → Mem.wf (m.foldl (fun n c => Mem.write n (f c.1) [c.2]) n) = true from h [] rfl
  induction m with
  | nil => exact fun _ h => h
  | cons c m ih => exact fun n h => ih _ (Mem.wf_write _ _ h)

theorem State.memoryWf.setPlacement {s : State} {v : BitVec 128} (h : s.memoryWf) : (State.setPlacement s v).memoryWf := by
  unfold State.setPlacement
  extract_lets diff
  split
  · exact h
  · exact ⟨Mem.wf_moved (f := reseat diff), h.2⟩

theorem State.memoryWf.count {s : State} {die n k : Nat} (h : s.memoryWf) : (State.count s die n k).memoryWf :=
  State.memoryWf.ite h (h.congr rfl)

theorem State.memoryWf.poison {s : State} {q : Nat} (h : s.memoryWf) : (State.poison s q).memoryWf :=
  State.memoryWf.ite h (h.congr (by rfl)).count

theorem State.memoryWf.l2Leave {gone : List L2Line} {s : State} (h : s.memoryWf) : (Machine.l2Leave gone s).memoryWf :=
  (h.congr (by rfl)).foldl fun _ _ h1 => h1.poison

theorem State.memoryWf.l2One {line : Nat} {fill whole part : BitVec 4} {s : State} (h : s.memoryWf) :
    (Machine.l2One line fill whole part s).memoryWf :=
  (h.congr (by rfl)).l2Leave

theorem State.memoryWf.l2Read {a n : Nat} {s : State} (h : s.memoryWf) : (Machine.l2Read a n s).memoryWf :=
  h.foldl fun _ _ h1 => h1.l2One

theorem State.memoryWf.l2Write {a n : Nat} {s : State} (h : s.memoryWf) : (Machine.l2Write a n s).memoryWf := by
  unfold Machine.l2Write
  refine h.foldl fun s x h1 => ?_
  extract_lets whole
  exact h1.l2One

theorem State.memoryWf.l2Unway {d pin : Nat} {s : State} (h : s.memoryWf) : (Machine.l2Unway d pin s).memoryWf :=
  (h.congr (by rfl)).l2Leave

theorem State.memoryWf.unpoison {s : State} {a n : Nat} (h : s.memoryWf) : (Machine.unpoison s a n).memoryWf := h

theorem State.memoryWf.pinPut {s : State} {d a : Nat} {bs : List Byte} (h : s.memoryWf) :
    (State.pinPut s d a bs).memoryWf :=
  State.memoryWf_modDie _ _ h (Mem.wf_write _ _ (State.pinned_wf h d))

theorem State.memoryWf.slicePut {s : State} {a : Nat} {bs : List Byte} (h : s.memoryWf) :
    (State.slicePut s a bs).memoryWf :=
  h.l2Write.unpoison.hbmWrite

end Sys2Proof.Machine
end

section
/-! SUPPORT. The canonical form of the memories (log 4) is kept: registers, retirement, faults and checks. -/

namespace Sys2Proof.Machine

theorem Keeps.trap {α : Type} {cause : BitVec 8} : Keeps (Machine.trap cause : Act α) := fun _ _ => .error

theorem Keeps.trapAt {α : Type} {cause : BitVec 8} {addr : Word} :
    Keeps (Machine.trapAt cause addr : Act α) := fun _ _ => .error

theorem Keeps.waitFor {α : Type} {w : Wait} : Keeps (Machine.waitFor w : Act α) := fun _ _ => .error

theorem Keeps.checkStop {α : Type} {cause : BitVec 8} : Keeps (Machine.checkStop cause : Act α) := fun _ _ => .error

theorem Keeps.trapIf {b : Bool} {cause : BitVec 8} : Keeps (Machine.trapIf b cause) := .ite .trap .pure

theorem Keeps.waitIf {b : Bool} {w : Wait} : Keeps (Machine.waitIf b w) := .ite .waitFor .pure

theorem Keeps.checkIf {b : Bool} {cause : BitVec 8} : Keeps (Machine.checkIf b cause) := .ite .checkStop .pure

theorem State.memoryWf.setSelfRake {s : State} {r : Rake} (h : s.memoryWf) : (State.setSelfRake s r).memoryWf := by
  unfold State.setSelfRake
  split
  · exact h.modCl rfl
  · exact h.modDie rfl
  · exact h

theorem State.memoryWf.wr {s : State} {n : Reg} {v : Word} (h : s.memoryWf) : (State.wr s n v).memoryWf := by
  unfold State.wr
  split
  · exact h.modCl (by simp)
  · exact State.memoryWf.ite h (h.modCl rfl)
  · exact State.memoryWf.ite h (h.modDie rfl)
  · exact h

theorem State.memoryWf.putPreds {s : State} {m v : BitVec 16} (h : s.memoryWf) : (State.putPreds s m v).memoryWf := by
  unfold State.putPreds
  split
  · exact h.modCl rfl
  · exact h.modCl rfl
  · exact h.modDie rfl
  · exact h

theorem State.memoryWf.setPreds {s : State} {v : BitVec 16} (h : s.memoryWf) : (State.setPreds s v).memoryWf := h.putPreds

theorem State.memoryWf.wrK {s : State} {k : PIdx} {b : Bool} (h : s.memoryWf) : (State.wrK s k b).memoryWf := h.putPreds

theorem State.memoryWf.retireTo {i : Instr} {nx : Nat} {s : State} (h : s.memoryWf) :
    (Machine.retireTo i nx s).memoryWf := by
  unfold Machine.retireTo
  split
  · exact h.modCl (by simp)
  · exact h.modCl rfl
  · exact h.modDie rfl
  · exact h

theorem State.memoryWf.retire {i : Instr} {s : State} (h : s.memoryWf) : (Machine.retire i s).memoryWf := h.retireTo

theorem State.memoryWf.soon {s : State} {x : Soon} (h : s.memoryWf) : (State.soon s x).memoryWf := h

theorem State.memoryWf.logFault {s : State} {ctx : Nat} {e : LogEntry} (h : s.memoryWf) :
    (State.logFault s ctx e).memoryWf := by
  unfold State.logFault
  split
  · exact h
  extract_lets s0
  have hs0 : s0.memoryWf := h.l2Read.l2Read
  split
  · exact State.memoryWf.ite (hs0.congr rfl) hs0.slicePut
  extract_lets s1
  have hs1 : s1.memoryWf := hs0.slicePut.slicePut
  exact hs1.soon

theorem State.memoryWf.relogFault {s : State} {ctx n : Nat} {e : LogEntry} (h : s.memoryWf) :
    (State.relogFault s ctx n e).memoryWf := by
  unfold State.relogFault
  split
  · exact h
  · exact State.memoryWf.ite h.slicePut h.logFault

theorem State.memoryWf.raiseCheck {s : State} {ctx g agent unit : Nat} {cause : BitVec 8} (h : s.memoryWf) :
    (State.raiseCheck s ctx g agent unit cause).memoryWf := by
  unfold State.raiseCheck
  split
  · exact h
  extract_lets s1
  have hs1 : s1.memoryWf := h.logFault.soon
  exact State.memoryWf.ite hs1 hs1.soon

theorem State.memoryWf.writeHeader {s : State} {c : Nat} {spilt : Bool} (h : s.memoryWf) :
    (State.writeHeader s c spilt).memoryWf := by
  unfold State.writeHeader
  split
  · exact h
  split
  · exact h
  extract_lets base h1 crc
  exact h.slicePut

theorem State.memoryWf.setTpend {s : State} {c : Nat} {b : Bool} (h : s.memoryWf) : (State.setTpend s c b).memoryWf :=
  (h.modDie rfl)

theorem State.memoryWf.endManagement {s : State} {c : Nat} {cause : BitVec 8} (h : s.memoryWf) :
    (State.endManagement s c cause).memoryWf := by
  unfold State.endManagement
  extract_lets s1
  have hs1 : s1.memoryWf := h.modCl rfl
  exact (hs1.modDie (by rfl)).soon

theorem State.memoryWf.takeTrap {c : Nat} {e : Eng} {cause : BitVec 8} {addr : Word} {s : State} (h : s.memoryWf) :
    (Machine.takeTrap c e cause addr s).memoryWf := by
  unfold Machine.takeTrap
  split
  · exact h
  split
  · exact h.endManagement
  extract_lets tr s1 s2 s3
  have hs1 : s1.memoryWf := h.modCl (by simp)
  have hs2 : s2.memoryWf := hs1.writeHeader
  have hs3 : s3.memoryWf := hs2.logFault.setTpend
  exact State.memoryWf.ite hs3 hs3.soon

theorem State.memoryWf.takeRakeTrap {c thr : Nat} {cause : BitVec 8} {addr : Word} {s : State} (h : s.memoryWf) :
    (Machine.takeRakeTrap c thr cause addr s).memoryWf := by
  unfold Machine.takeRakeTrap
  split
  · exact h
  split
  · exact h.endManagement
  extract_lets tr s1
  have hs1 : s1.memoryWf := h.modCl rfl
  exact hs1.writeHeader.logFault.setTpend

theorem State.memoryWf.takeCoreTrap {d : Nat} {cause : BitVec 8} {s : State} (h : s.memoryWf) :
    (Machine.takeCoreTrap d cause s).memoryWf :=
  (h.modDie rfl)

theorem State.memoryWf.endJoined {s : State} {d ctx : Nat} {cause : BitVec 8} {addr : Nat} (h : s.memoryWf) :
    (State.endJoined s d ctx cause addr).memoryWf :=
  State.memoryWf.ite (h.modDie rfl) h

theorem State.memoryWf.raise {s : State} {cause : BitVec 8} {addr : Word} (h : s.memoryWf) :
    (State.raise s cause addr).memoryWf := by
  unfold State.raise
  extract_lets s1
  have hs1 : s1.memoryWf := h.endJoined
  split
  · exact hs1.takeTrap
  · exact hs1.takeRakeTrap
  · exact hs1.takeCoreTrap
  · exact h

theorem State.memoryWf.raiseSelfCheck {s : State} {cause : BitVec 8} (h : s.memoryWf) :
    (State.raiseSelfCheck s cause).memoryWf := by
  unfold State.raiseSelfCheck
  split
  · exact h
  · exact h.raiseCheck

theorem State.memoryWf.noteWait {s : State} {w : Wait} (h : s.memoryWf) : (State.noteWait s w).memoryWf := by
  unfold State.noteWait
  split
  · exact h.modCl (by simp)
  · exact h

theorem State.memoryWf.perform {a : Act Unit} {s : State} (h : s.memoryWf) (ha : Keeps a) :
    NextForm (Machine.perform a s) := by
  unfold Machine.perform
  split
  next e => exact .next (ha h e)
  · exact .next h.raise
  · exact .next h.noteWait
  · exact .next h.raiseSelfCheck

theorem State.memoryWf.showTrapped {s : State} {c : Nat} (h : s.memoryWf) : (State.showTrapped s c).memoryWf := h.setTpend

theorem State.memoryWf.resumeTask {c : Nat} {s : State} (h : s.memoryWf) : (Machine.resumeTask c s).memoryWf :=
  (h.modCl (by rfl)).showTrapped

theorem State.memoryWf.resumeRake {c thr : Nat} {s : State} (h : s.memoryWf) : (Machine.resumeRake c thr s).memoryWf :=
  (h.modCl (by rfl)).showTrapped

theorem State.memoryWf.plainOp {i : Instr} {p : Pred} {f : State → State} {s : State} (h : s.memoryWf)
    (hf : ∀ s, s.memoryWf → (f s).memoryWf) :
    NextForm (Machine.plainOp i p f s) :=
  .next ((State.memoryWf.ite (hf _ h) h).retire)

theorem State.memoryWf.actOp {i : Instr} {p : Pred} {a : Act Unit} {s : State} (h : s.memoryWf) (ha : Keeps a) :
    NextForm (Machine.actOp i p a s) := by
  unfold Machine.actOp
  refine h.perform ?_
  exact .bind (.ite ha .pure) fun _ => .modify fun _ h1 => h1.retire

end Sys2Proof.Machine
end

section
/-! SUPPORT. The canonical form of the memories (log 4) is kept: translation, protection and owed lines. -/

namespace Sys2Proof.Machine

theorem Keeps.liftC {α : Type} {a : Nat} {x : Except (BitVec 8) α} : Keeps (Machine.liftC a x) := by
  unfold Machine.liftC
  split
  · exact .pure
  · exact .trapAt

theorem State.memoryWf.walkPage {ctx va : Nat} {s : State} (h : s.memoryWf) : (Machine.walkPage ctx va s).1.memoryWf := by
  unfold Machine.walkPage
  split
  · exact h
  extract_lets path s1
  have hs1 : s1.memoryWf := h.foldl fun _ _ h1 => h1.l2Read
  split
  · exact hs1
  split
  · exact hs1
  split
  · exact hs1
  · exact hs1

theorem State.memoryWf.tlbFill {d : Option Nat} {cls : List Nat} {e : TlbEntry} {s : State} (h : s.memoryWf) :
    (Machine.tlbFill d cls e s).memoryWf := by
  unfold Machine.tlbFill
  extract_lets s1
  have hs1 : s1.memoryWf := by
    unfold s1
    split
    · exact h.modDie rfl
    · exact h
  exact hs1.foldl fun _ _ h1 => h1.modCl rfl

theorem State.memoryWf.endWalk {d k : Nat} {s : State} (h : s.memoryWf) : (Machine.endWalk d k s).memoryWf := by
  unfold Machine.endWalk
  split
  · exact h
  extract_lets s0
  have hs0 : s0.memoryWf := h.modDie rfl
  split
  next e1 => exact hs0.walkPage.fst e1
  next e1 => exact (hs0.walkPage.fst e1).tlbFill

theorem State.memoryWf.missWalk {d ctx va : Nat} {s : State} (h : s.memoryWf) :
    (Machine.missWalk d ctx va s).1.memoryWf := by
  unfold Machine.missWalk
  extract_lets s0
  have hs0 : s0.memoryWf := State.memoryWf.ite h h.endWalk
  split
  next e => exact (hs0.walkPage.fst e).modDie rfl
  next e =>
    extract_lets same cls s2
    have hs2 : s2.memoryWf := (hs0.walkPage.fst e).modDie rfl
    exact hs2.tlbFill

theorem State.memoryWf.findLeaf {w : Who} {va : Nat} {s : State} (h : s.memoryWf) : ResForm (Machine.findLeaf w va s) := by
  unfold Machine.findLeaf
  extract_lets hit1 hit2 own r
  have hr : r.1.memoryWf := by
    unfold r
    split
    · exact h.missWalk
    · exact h.walkPage
  clear_value hit1 hit2 r
  split
  · exact .ok h
  · split
    · exact .ok h.tlbFill
    · split
      · exact .error
      · exact .ok (State.memoryWf.tlbFill hr)

theorem State.memoryWf.translate {w : Who} {va : Nat} {write sync : Bool} {s : State} (h : s.memoryWf) :
    ResForm (Machine.translate w va write sync s) := by
  unfold Machine.translate
  split
  · exact .error
  split
  · exact .error
  next e1 =>
    extract_lets chk base outside tgt reach
    clear_value reach
    split
    · exact .error
    split
    · exact .error
    split
    · exact .error
    split
    · exact .error
    split
    · exact .error
    · exact .ok (h.findLeaf e1)

theorem Keeps.translateA {w : Who} {va : Nat} {write sync : Bool} : Keeps (Machine.translateA w va write sync) := by
  intro s h
  unfold Machine.translateA
  split
  next e => exact .ok (h.translate e)
  · exact .error

theorem State.memoryWf.exposeGang {g : Nat} {s : State} (h : s.memoryWf) : (Machine.exposeGang g s).memoryWf := by
  unfold Machine.exposeGang
  split
  · exact h
  extract_lets s1
  have hs1 : s1.memoryWf := h
  exact State.memoryWf.ite hs1 hs1.soon

theorem State.memoryWf.undoAppend {s : State} {ctx d : Nat} {old : List Byte} {loc osh g : Nat} (h : s.memoryWf) :
    (Machine.undoAppend s ctx d old loc osh g).1.memoryWf := by
  unfold Machine.undoAppend
  split
  · exact h
  extract_lets n rec_ s1 cnt s11
  have hs1 : s1.memoryWf := h.slicePut
  have hs11 : s11.memoryWf := h.logFault
  split
  · exact hs1
  · exact hs11.exposeGang

theorem State.memoryWf.checkLine {w : Who} {va dpa : Nat} {write sync snap : Bool} {s : State} (h : s.memoryWf) :
    ExcForm (Machine.checkLine w va dpa write sync snap s) := by
  unfold Machine.checkLine
  split
  · exact .ok h
  extract_lets a g raw x0 s0 line
  have hs0 : s0.memoryWf := h.l2Write
  split
  · exact .ok h
  split
  · exact .error
  split
  · exact .error
  split
  · exact .ok hs0.hbmWrite
  split
  · exact .error
  split
  next e6 => exact .ok ((hs0.l2Read.undoAppend.fst e6).hbmWrite)

theorem State.memoryWf.checkLines {w : Who} {va dpa n : Nat} {write sync snap : Bool} {s : State} (h : s.memoryWf) :
    ExcForm (Machine.checkLines w va dpa n write sync snap s) :=
  .foldlM (fun _ _ h1 => h1.checkLine) _ h

theorem State.memoryWf.logHeartwood {s : State} {c line : Nat} (h : s.memoryWf) :
    (Machine.logHeartwood s c line).memoryWf := by
  unfold Machine.logHeartwood
  split
  · extract_lets t g
    split
    next e1 => exact (h.undoAppend.fst e1).modCl rfl
    next e1 => exact h.undoAppend.fst e1
  · exact h

theorem State.memoryWf.sramWrite {s : State} {c off : Nat} {bs : List Byte} (h : s.memoryWf) :
    (Machine.sramWrite s c off bs).memoryWf := by
  unfold Machine.sramWrite
  extract_lets s1
  have hs1 : s1.memoryWf :=
    h.foldl fun _ _ h1 => State.memoryWf_modCl _ _ h1.logHeartwood (touchLine_wf _ (State.sram_wf h1.logHeartwood _))
  exact State.memoryWf_modCl _ _ hs1 (Mem.wf_write _ _ (State.sram_wf hs1 c))

theorem State.memoryWf.countCorrected {c n : Nat} {s : State} (h : s.memoryWf) : (Machine.countCorrected c n s).memoryWf :=
  h.count

theorem State.memoryWf.rowsEcc {c : Nat} {ls : List Nat} {s : State} (h : s.memoryWf) :
    OptForm (Machine.rowsEcc c ls s) := by
  unfold Machine.rowsEcc
  split
  · exact .none
  next e =>
    split
    · exact .some h
    · exact .some (h.setCl (Cluster.foldlM_sram rowEcc_sram e)).countCorrected

theorem State.memoryWf.colsEcc {c : Nat} {ks : List Nat} {s : State} (h : s.memoryWf) :
    OptForm (Machine.colsEcc c ks s) := by
  unfold Machine.colsEcc
  split
  · exact .none
  next e =>
    split
    · exact .some h
    · exact .some (h.setCl (Cluster.foldlM_sram colEcc_sram e)).countCorrected

theorem Keeps.fetchRows {c : Nat} {ls : List Nat} : Keeps (Machine.fetchRows c ls) := by
  intro s h
  unfold Machine.fetchRows
  split
  next e => exact .ok (h.rowsEcc e)
  · exact .error

theorem Keeps.fetchCols {c : Nat} {ks : List Nat} : Keeps (Machine.fetchCols c ks) := by
  intro s h
  unfold Machine.fetchCols
  split
  next e => exact .ok (h.colsEcc e)
  · exact .error

theorem State.memoryWf.sramLand {s : State} {c off g : Nat} {bs : List Byte} (h : s.memoryWf) :
    (Machine.sramLand s c off g bs).memoryWf := by
  unfold Machine.sramLand
  split
  next e => exact (h.rowsEcc e).sramWrite
  split
  · exact h.raiseCheck
  · exact h.raiseCheck

theorem State.memoryWf.modHomeIn {s : State} {ctx c : Nat} {f : Cluster → Cluster} (h : s.memoryWf)
    (hf : ∀ x, Mem.wf x.sram = true → Mem.wf (f x).sram = true) : (State.modHome s ctx c f).memoryWf := by
  unfold State.modHome
  split
  · refine ⟨h.hbm, h.clusters, h.dies, fun p hp => ?_, h.mailboxes⟩
    obtain ⟨q, hq, rfl⟩ := List.mem_map.mp hp
    have := h.spilled q hq
    split
    · exact hf _ this
    · exact this
  · exact State.memoryWf_modCl _ _ h (hf _ (State.sram_wf h c))

theorem State.memoryWf.modHome {s : State} {ctx c : Nat} {f : Cluster → Cluster} (h : s.memoryWf)
    (hf : ∀ x, (f x).sram = x.sram) : (State.modHome s ctx c f).memoryWf :=
  h.modHomeIn fun x hx => (hf x).symm ▸ hx

theorem Keeps.awaitHome {c : Nat} : Keeps (Machine.awaitHome c) := .get fun _ _ => .waitIf

theorem Keeps.awaitLines {c : Nat} {ls : List Nat} : Keeps (Machine.awaitLines c ls) :=
  .bind .awaitHome fun _ => .get fun _ _ => .waitIf

theorem Keeps.rejectLines {c : Nat} {ls : List Nat} {addr : Nat} : Keeps (Machine.rejectLines c ls addr) :=
  .bind .awaitHome fun _ => .get fun _ _ => .ite .trapAt .pure

theorem Keeps.awaitOwed {c : Nat} {ls : List Nat} : Keeps (Machine.awaitOwed c ls) := .bind .awaitLines fun _ => .fetchRows

theorem Keeps.rejectOwed {c : Nat} {ls : List Nat} {addr : Nat} : Keeps (Machine.rejectOwed c ls addr) :=
  .bind .rejectLines fun _ => .fetchRows

theorem Keeps.awaitCol {c off n : Nat} : Keeps (Machine.awaitCol c off n) := .bind .awaitLines fun _ => .fetchCols

theorem Keeps.rejectCol {c off n addr : Nat} :
    Keeps (Machine.rejectCol c off n addr) := .bind .rejectLines fun _ => .fetchCols

theorem State.memoryWf.l1Empty {s : State} {c : Nat} (h : s.memoryWf) : (Machine.l1Empty s c).memoryWf := h.modCl rfl

theorem State.memoryWf.addWack {s : State} {c n : Nat} (h : s.memoryWf) : (Machine.addWack s c n).memoryWf := h.modCl rfl

theorem State.memoryWf.hostWrite {s : State} {ctx g a : Nat} {bs : List Byte} (h : s.memoryWf) :
    (Machine.hostWrite s ctx g a bs).memoryWf := by
  unfold Machine.hostWrite
  extract_lets w mine
  split
  · exact h
  split
  · exact h
  split
  · exact h
  extract_lets s1 s2
  have hs1 : s1.memoryWf := State.memoryWf.ite h.logFault h
  have hs2 : s2.memoryWf := hs1.exposeGang
  exact hs2

theorem State.memoryWf.devRead {w : Who} {va dpa n : Nat} {x : Xlat} {s : State} (h : s.memoryWf) :
    ResForm (Machine.devRead w va dpa n x s) := by
  unfold Machine.devRead
  split
  · exact .error
  split
  · exact .error
  next e => exact .ok (State.memoryWf.l2Read (ExcForm.ite h.checkLines (.ok h) e))

theorem State.memoryWf.notifyQueues {y : Target} {n : Nat} {s : State} (h : s.memoryWf) :
    (State.notifyQueues y n s).memoryWf := h

theorem State.memoryWf.devStore {dpa : Nat} {bs : List Byte} {s : State} (h : s.memoryWf) :
    (Machine.devStore dpa bs s).memoryWf :=
  h.l2Write.unpoison.hbmWrite.notifyQueues

theorem State.memoryWf.devWrite {w : Who} {va dpa : Nat} {bs : List Byte} {sync : Bool} {x : Xlat} {s : State}
    (h : s.memoryWf) :
    ExcForm (Machine.devWrite w va dpa bs sync x s) := by
  unfold Machine.devWrite
  split
  · exact .error
  split
  · exact .error
  next e => exact .ok (State.memoryWf.devStore (ExcForm.ite h.checkLines (.ok h) e))

theorem State.memoryWf.l1Miss {c : Nat} {w : Who} {va dpa n : Nat} {x : Xlat} {s : State} (h : s.memoryWf) :
    ResForm (Machine.l1Miss c w va dpa n x s) := by
  unfold Machine.l1Miss
  split
  · exact .error
  next e => exact .ok ((h.devRead e).modCl (by simp))

theorem State.memoryWf.cachedRead {c : Nat} {w : Who} {va dpa n : Nat} {x : Xlat} {s : State} (h : s.memoryWf) :
    ResForm (Machine.cachedRead c w va dpa n x s) := by
  unfold Machine.cachedRead
  extract_lets line
  split
  · split
    · split
      · exact (h.modCl (by rfl)).l1Miss
      · exact .ok h
    · exact h.l1Miss
  · exact h.devRead

end Sys2Proof.Machine
end

section
/-! SUPPORT. The canonical form of the memories (log 4) is kept: words fetched ahead of an engine. -/

namespace Sys2Proof.Machine

theorem State.memoryWf.fetchAt {w : Who} {t : Task} {off n : Nat} {s : State} (h : s.memoryWf) :
    ResForm (Machine.fetchAt w t off n s) := by
  unfold Machine.fetchAt
  extract_lets va
  split
  · exact .error
  next e =>
    split
    · exact ((h.translate e).devRead).mapError
    · split
      · exact .error
      · exact .ok (h.translate e)
    · split
      · exact .error
      split
      · exact .error
      next e3 => exact .ok (((h.translate e).rowsEcc) e3)
    · exact .error
    · exact .ok (h.translate e)

theorem State.memoryWf.fetchParcel {w : Who} {t : Task} {off : Nat} {s : State} (h : s.memoryWf) :
    ResForm (Machine.fetchParcel w t off s) := by
  unfold Machine.fetchParcel
  split
  · exact .error
  next e => exact .ok (h.fetchAt e)

theorem State.memoryWf.heldParcel {held : KMap Parcel} {w : Who} {t : Task} {off : Nat} {s : State} (h : s.memoryWf) :
    ResForm (Machine.heldParcel held w t off s) := by
  unfold Machine.heldParcel
  split
  · exact .ok h
  · exact h.fetchParcel

theorem State.memoryWf.heldParcels {held : KMap Parcel} {w : Who} {t : Task} {n off : Nat} {s : State} (h : s.memoryWf) :
    ResForm (Machine.heldParcels held w t n off s) := by
  induction n generalizing off s with
  | zero => exact .ok h
  | succ n ih =>
    unfold Machine.heldParcels
    split
    · exact .error
    next e1 =>
      split
      · exact .error
      next e2 => exact .ok (ih (h.heldParcel e1) e2)

end Sys2Proof.Machine
end

section
/-! SUPPORT. The canonical form of the memories (log 4) is kept: reads and writes by address. -/

namespace Sys2Proof.Machine

theorem Keeps.stopWith {α : Type} {c : BitVec 8} {a : Nat} : Keeps (Machine.stopWith c a : Act α) := fun _ _ => .error

theorem State.memoryWf.setFlagOf {s : State} {c n : Nat} {b : Bool} (h : s.memoryWf) : (State.setFlagOf s c n b).memoryWf :=
  (h.modCl rfl)

theorem Keeps.acquireDevice : Keeps Machine.acquireDevice := by
  unfold Machine.acquireDevice
  refine .get fun s h => ?_
  split
  · exact .set h.l1Empty
  · exact .pure

theorem Keeps.localLoad {c off n : Nat} {addr : Word} : Keeps (Machine.localLoad c off n addr) := by
  unfold Machine.localLoad
  refine .bind .awaitHome fun _ => .get fun s h => ?_
  extract_lets x1
  split
  · exact .bind .awaitOwed fun _ => .pure
  split
  · exact .bind .acquireDevice fun _ => .pure
  · exact .ite .pure .trapAt

theorem Keeps.localStore {c off : Nat} {bs : List Byte} {addr : Word} : Keeps (Machine.localStore c off bs addr) := by
  unfold Machine.localStore
  refine .bind .awaitHome fun _ => .get fun s h => ?_
  extract_lets count
  have hcount : ∀ s, s.memoryWf → (count s).memoryWf := fun s h => State.memoryWf.ite h.addWack h
  split
  · exact .bind .rejectOwed fun _ => .modify fun _ h1 => hcount _ h1.sramWrite
  · exact .ite (.set (hcount _ (h.modCl (by simp)))) (.ite .trapAt .trapAt)

theorem State.memoryWf.targetRead {w : Who} {va n : Nat} {x : Xlat} {s : State} (h : s.memoryWf) :
    ResForm (Machine.targetRead w va n x s) := by
  unfold Machine.targetRead
  split
  · split
    · exact h.cachedRead
    · exact h.devRead
  · split
    · exact .error
    · exact .ok h
  · split
    · exact .error
    split
    · exact .ok h
    split
    · exact .ok h
    split
    · exact .error
    split
    · exact .error
    split
    · exact .error
    next e6 => exact .ok (h.rowsEcc e6)
  · exact .error
  · exact .ok h

theorem State.memoryWf.targetWrite {w : Who} {va : Nat} {bs : List Byte} {sync : Bool} {x : Xlat} {s : State}
    (h : s.memoryWf) :
    ExcForm (Machine.targetWrite w va bs sync x s) := by
  unfold Machine.targetWrite
  split
  · exact h.devWrite
  · split
    · exact .error
    · exact .ok h.pinPut.notifyQueues
  · split
    · exact .error
    split
    · exact .ok (h.modCl (by simp))
    split
    · exact .error
    split
    · exact .error
    split
    · exact .error
    split
    · exact .error
    next e6 => exact .ok ((h.rowsEcc e6).sramWrite)
  · exact .error
  · exact .ok h.hostWrite.notifyQueues

theorem State.memoryWf.readAt {w : Who} {sync : Bool} {va n : Nat} {s : State} (h : s.memoryWf) :
    ResForm (Machine.readAt w sync va n s) := by
  refine .foldlM (fun s b p h1 => ?_) _ h
  split
  · exact .error
  next e1 =>
    split
    · exact .error
    next e2 => exact .ok (State.memoryWf.targetRead (h1.translate e1) e2)

theorem State.memoryWf.writeAt {w : Who} {sync : Bool} {va : Nat} {bs : List Byte} {s : State} (h : s.memoryWf) :
    ExcForm (Machine.writeAt w sync va bs s) := by
  refine .foldlM (fun s p h1 => ?_) _ h
  split
  · exact .error
  next e => exact State.memoryWf.targetWrite (h1.translate e)

theorem State.memoryWf.vaRead {w : Who} {a a1 : Nat} {a2 : State} (h : a2.memoryWf) : ResForm (Machine.vaRead w a a1 a2) :=
  h.readAt

theorem State.memoryWf.vaWrite {w : Who} {a : Nat} {a1 : List Byte} {a2 : State} (h : a2.memoryWf) :
    ExcForm (Machine.vaWrite w a a1 a2) :=
  h.writeAt

theorem State.memoryWf.vaSyncRead {w : Who} {a a1 : Nat} {a2 : State} (h : a2.memoryWf) :
    ResForm (Machine.vaSyncRead w a a1 a2) :=
  h.readAt

theorem State.memoryWf.vaSyncWrite {w : Who} {a : Nat} {a1 : List Byte} {a2 : State} (h : a2.memoryWf) :
    ExcForm (Machine.vaSyncWrite w a a1 a2) :=
  h.writeAt

theorem State.memoryWf.vaMerge {w : Who} {va n : Nat} {f : Nat → Nat} {s : State} (h : s.memoryWf) :
    ExcForm (Machine.vaMerge w va n f s) := by
  unfold Machine.vaMerge
  split
  · exact .error
  next e =>
    split
    · exact .error
    next e1 => exact (((h.translate e).targetRead) e1).targetWrite

theorem State.memoryWf.tableRead {ctx die a a1 : Nat} {a2 : State} (h : a2.memoryWf) :
    ResForm (Machine.tableRead ctx die a a1 a2) :=
  h.vaSyncRead

theorem State.memoryWf.windowEntry {ctx die handle : Nat} {s : State} (h : s.memoryWf) :
    ResForm (Machine.windowEntry ctx die handle s) := by
  unfold Machine.windowEntry
  split
  · exact .error
  split
  · exact .error
  split
  · exact .error
  next e2 =>
    extract_lets e3
    split
    · exact .ok (h.tableRead e2)
    · exact .error

theorem State.memoryWf.windowCheck {ctx die handle off n : Nat} {r : Right} {s : State} (h : s.memoryWf) :
    ResForm (Machine.windowCheck ctx die handle off n r s) := by
  unfold Machine.windowCheck
  split
  · exact .error
  next e =>
    split
    · exact .ok (h.windowEntry e)
    · exact .error

theorem State.memoryWf.send {s : State} {p : Packet} (h : s.memoryWf) : (State.send s p).memoryWf := h

theorem Keeps.windowLoad {ctx die handle off n : Nat} {addr : Word} :
    Keeps (Machine.windowLoad ctx die handle off n addr) := by
  unfold Machine.windowLoad
  refine .get fun s h => ?_
  extract_lets c k
  split
  · split
    · exact .bind (.set (h.modCl rfl)) fun _ => .pure
    · exact .bind (.set (h.modCl rfl)) fun _ => .pure
    · exact .waitFor
  split
  · exact .trap
  refine .bind (.liftA fun _ h1 => h1.windowCheck) fun _ => .bind ?_ fun x2 => ?_
  · refine .modify fun s h => ?_
    extract_lets p
    exact h.send.modCl rfl
  · exact .pure

theorem Keeps.windowStore {ctx die handle off : Nat} {bs : List Byte} {addr : Word} :
    Keeps (Machine.windowStore ctx die handle off bs addr) := by
  unfold Machine.windowStore
  refine .get fun s h => ?_
  extract_lets c
  split
  · exact .trap
  refine .bind (.liftA fun _ h1 => h1.windowCheck) fun _ => .modify fun s h => ?_
  extract_lets p
  exact h.send.addWack

theorem Keeps.coordLoad {addr : Word} {n : Nat} : Keeps (Machine.coordLoad addr n) :=
  .get fun _ _ => .bind .liftC fun _ => .localLoad

theorem Keeps.coordStore {addr : Word} {bs : List Byte} : Keeps (Machine.coordStore addr bs) :=
  .get fun _ _ => .bind .liftC fun _ => .localStore

theorem Keeps.virtTarget {addr : Word} {n : Nat} {write : Bool} : Keeps (Machine.virtTarget addr n write) :=
  .get fun _ _ => .ite .trapAt (.ite .trapAt .translateA)

theorem Keeps.virtLoad {addr : Word} {n : Nat} : Keeps (Machine.virtLoad addr n) := by
  unfold Machine.virtLoad
  refine .bind .virtTarget fun _ => .get fun s h => ?_
  split
  · exact .bind .localLoad fun _ => .pure
  · exact .windowLoad
  · exact .bind (.liftA fun _ h1 => h1.targetRead) fun _ => .pure

theorem Keeps.virtStore {addr : Word} {bs : List Byte} : Keeps (Machine.virtStore addr bs) := by
  unfold Machine.virtStore
  refine .bind .virtTarget fun _ => .get fun s h => ?_
  extract_lets w
  split
  · exact .localStore
  · exact .windowStore
  refine .bind (.liftU fun _ h1 => h1.targetWrite) fun _ => .modify fun s h => ?_
  split
  · refine .addWack ?_
    split
    · exact h.modCl rfl
    · exact h
  · exact h

end Sys2Proof.Machine
end

section
/-! SUPPORT. The canonical form of the memories (log 4) is kept: scalar loads and stores. -/

namespace Sys2Proof.Machine

theorem State.memoryWf.actOpW {i : Instr} {p : Pred} {w : Wait} {a : Act Bool} {s : State} (h : s.memoryWf) (ha : Keeps a) :
    NextForm (Machine.actOpW i p w a s) := by
  unfold Machine.actOpW
  refine h.perform ?_
  extract_lets k
  have hk : ∀ x, Keeps (k x) := fun x => .ite (.modify fun _ h1 => h1.retire) (.modify fun _ h1 => h1.noteWait)
  split
  · exact .bind ha fun _ => hk _
  · exact .bind .pure fun _ => hk _

theorem Keeps.loadCoord {t : Ty} {d : Reg} {addr : State → Word} : Keeps (Machine.loadCoord t d addr) :=
  .get fun _ _ => .bind .coordLoad fun _ => .modify fun _ h1 => h1.wr

theorem Keeps.storeCoord {t : Ty} {d : Reg} {addr : State → Word} : Keeps (Machine.storeCoord t d addr) :=
  .get fun _ _ => .coordStore

theorem Keeps.loadVirt {t : Ty} {d : Reg} {addr : State → Word} : Keeps (Machine.loadVirt t d addr) := by
  unfold Machine.loadVirt
  refine .get fun s h => .bind .virtLoad fun _ => ?_
  split
  · exact .bind (.modify fun _ h1 => h1.wr) fun _ => .pure
  · exact .pure

theorem Keeps.storeVirt {t : Ty} {d : Reg} {addr : State → Word} : Keeps (Machine.storeVirt t d addr) :=
  .get fun _ _ => .virtStore

end Sys2Proof.Machine
end

section
/-! SUPPORT. The canonical form of the memories (log 4) is kept: windrows. -/

namespace Sys2Proof.Machine

theorem Keeps.awaitAll : Keeps Machine.awaitAll := by
  unfold Machine.awaitAll
  refine .get fun s h => ?_
  split
  · exact .waitIf
  · exact .pure

theorem Keeps.awaitWack : Keeps Machine.awaitWack := by
  unfold Machine.awaitWack
  refine .get fun s h => ?_
  split
  · exact .waitIf
  · exact .pure

theorem State.memoryWf.wlDesc {ctx d gang h : Nat} {s : State} (hs : s.memoryWf) :
    ResForm (Machine.wlDesc ctx d gang h s) := by
  unfold Machine.wlDesc
  split
  · exact .error
  split
  · exact .error
  next e1 =>
    split
    · exact .error
    split
    · exact .ok (hs.vaRead e1)
    · exact .error

theorem State.memoryWf.modWindrow {s : State} {ctx h : Nat} {f : Windrow → Windrow} (hs : s.memoryWf) :
    (State.modWindrow s ctx h f).memoryWf :=
  hs

theorem State.memoryWf.wlAppend {ctx gang k : Nat} {w : WlDesc} {item : Word} {s t : State} (h : s.memoryWf)
    (e : Machine.wlAppend ctx gang k w item s = .ok (some t)) : t.memoryWf := by
  unfold Machine.wlAppend at e
  dsimp only at e
  split at e
  · cases e
  split at e
  · cases e
  split at e
  · cases e
  next hw => cases e; exact (h.vaSyncWrite hw).modWindrow

theorem State.memoryWf.wlTake {ctx gang h : Nat} {w : WlDesc} {s : State} (hs : s.memoryWf) :
    ResForm (Machine.wlTake ctx gang h w s) := by
  unfold Machine.wlTake
  extract_lets k
  split
  · exact .ok hs
  split
  · exact .error
  split
  · exact .error
  next e2 => exact .ok ((hs.vaSyncRead e2).modWindrow)

theorem State.memoryWf.wlComplete {s : State} {ctx h : Nat} (hs : s.memoryWf) : (Machine.wlComplete s ctx h).memoryWf :=
  hs.modWindrow

theorem State.memoryWf.setSelfItem {s : State} {h : Option Nat} (hs : s.memoryWf) : (State.setSelfItem s h).memoryWf := by
  unfold State.setSelfItem
  split
  · exact hs.modCl rfl
  split
  · exact hs.setSelfRake
  · exact hs

theorem State.memoryWf.finishItem {s : State} (h : s.memoryWf) : (State.finishItem s).memoryWf := by
  unfold State.finishItem
  split
  · exact h.wlComplete.setSelfItem
  · exact h

theorem State.memoryWf.execWlpush {a b : Reg} {s : State} (h : s.memoryWf) : NextForm (Machine.execWlpush a b s) := by
  refine h.actOpW (.bind .awaitAll fun _ => .get fun s h => .bind .trapIf fun _ => .bind .trapIf fun _ => ?_)
  refine .bind (.liftA fun _ h1 => h1.wlDesc) fun w => ?_
  extract_lets k at_ held
  have hheld : ∀ s, s.memoryWf → (held s).memoryWf := fun s h1 => h1.modCl rfl
  refine .get fun s1 hs1 => ?_
  split
  · exact .bind (.modify hheld) fun _ => .pure
  · split
    · exact .stopWith
    · exact .bind (.modify hheld) fun _ => .pure
    next e => exact .bind (.set ((hs1.wlAppend e).modCl rfl)) fun _ => .pure

theorem State.memoryWf.execWlpop {d a : Reg} {s : State} (h : s.memoryWf) : NextForm (Machine.execWlpop d a s) := by
  unfold Machine.execWlpop
  refine h.actOp ?_
  refine .get fun s1 h1 => ?_
  extract_lets h2
  refine .bind .trapIf fun _ => ?_
  refine .bind (.liftA fun _ h3 => h3.wlDesc) fun _ => .bind (.modify fun _ h3 => h3.finishItem) fun _ => ?_
  refine .bind (.liftA fun _ h3 => h3.wlTake) fun _ => .bind .acquireDevice fun _ => ?_
  split
  · exact .modify fun _ h3 => h3.wr.setSelfItem
  · exact .modify fun _ h3 => h3.wr

end Sys2Proof.Machine
end

section
/-! SUPPORT. The canonical form of the memories (log 4) is kept: operands of the vector engines. -/

namespace Sys2Proof.Machine

theorem Keeps.popTokens {e : Eng} {m : BitVec 8} : Keeps (Machine.popTokens e m) := by
  unfold Machine.popTokens
  refine .get fun s h => .bind .waitIf fun _ => .set (h.modCl ?_)
  exact Cluster.foldl_sram popTok_sram _ _

theorem Keeps.pushTokens {m : BitVec 8} : Keeps (Machine.pushTokens m) :=
  .modify fun _ h => h.modCl (Cluster.foldl_sram (pushTok_sram _) _ _)

theorem Keeps.readName {pk : Bool} {n : Nat} : Keeps (Machine.readName pk n) := by
  unfold Machine.readName
  refine .get fun s h => ?_
  extract_lets h1 x
  split
  · exact .checkStop
  split
  · exact .pure
  split
  · exact .trap
  split
  · exact .ite .trap .waitFor
  split
  · exact .pure
  · exact .bind (.set (h.modCl rfl)) fun _ => .pure

theorem Keeps.writeName {n : Nat} {v : Vec} : Keeps (Machine.writeName n v) := by
  unfold Machine.writeName
  refine .get fun s h => ?_
  extract_lets h1 x q
  split
  · exact .set (h.modCl rfl)
  · exact .ite .trap (.ite (.ite .trap .waitFor) (.set (h.modCl rfl)))

theorem State.memoryWf.slotWrite {s : State} {c z p code : Nat} (h : s.memoryWf) :
    (Machine.slotWrite s c z p code).memoryWf := by
  unfold Machine.slotWrite
  split
  · extract_lets old
    exact h.sramWrite
  · exact h.sramWrite

theorem Keeps.fetchRun {c : Nat} {ps : List Nat} {z off : Nat} {col : Bool} : Keeps (Machine.fetchRun c ps z off col) :=
  .ite .awaitCol .awaitOwed

theorem Keeps.claimRun {c : Nat} {ps : List Nat} {z off : Nat} {col : Bool} {addr : Nat} :
    Keeps (Machine.claimRun c ps z off col addr) :=
  .ite .rejectCol .rejectOwed

theorem State.memoryWf.runWrite {s : State} {c z : Nat} {col : Bool} {ps cs : List Nat} (h : s.memoryWf) :
    (Machine.runWrite s c z col ps cs).memoryWf := by
  unfold Machine.runWrite
  split
  · exact h.foldl fun _ _ h1 => h1.slotWrite
  split
  · exact h
  · exact h.sramWrite

theorem Keeps.usePointer {k : Nat} {mis : Bool → State → Nat → Nat → Bool} : Keeps (Machine.usePointer k mis) := by
  unfold Machine.usePointer
  refine .get fun s h => ?_
  extract_lets h1 v off
  exact .ite .trap (.ite .trapAt (.ite .trapAt .pure))

theorem Keeps.movePointer {k : Nat} {by_ : Int} : Keeps (Machine.movePointer k by_) := .modify fun _ h => h.modCl rfl

theorem Keeps.useCoord {a : Word} {col : Bool} {mis : Bool → State → Nat → Nat → Bool} :
    Keeps (Machine.useCoord a col mis) := by
  unfold Machine.useCoord
  refine .get fun s h => ?_
  extract_lets own r
  exact .bind .liftC fun _ => .ite .trapAt .pure

theorem Keeps.spotOf {o : Opnd} {col : Bool} {mis : Bool → State → Nat → Nat → Bool} :
    Keeps (Machine.spotOf o col mis) := by
  unfold Machine.spotOf
  split
  · exact .bind .usePointer fun _ => .pure
  · exact .get fun s h => .useCoord
  · exact .trap

theorem Keeps.stepPointer {o : Opnd} : Keeps (Machine.stepPointer o) := by
  unfold Machine.stepPointer
  split
  · refine .get fun s h => ?_
    extract_lets h1
    exact .movePointer
  · exact .pure

theorem Keeps.rawFetch {p : Spot} : Keeps (Machine.rawFetch p) :=
  .bind .liftC fun _ => .bind .fetchRun fun _ => .get fun _ _ => .pure

theorem Keeps.rawStore {p : Spot} {v : Vec} : Keeps (Machine.rawStore p v) :=
  .bind .liftC fun _ => .bind .claimRun fun _ => .modify fun _ h => h.runWrite

theorem Keeps.needNarrow {p : Spot} : Keeps (Machine.needNarrow p) := .get fun _ _ => .trapIf

theorem Keeps.readRun {t : Ty} {r : Round_} {p : Spot} : Keeps (Machine.readRun t r p) := by
  unfold Machine.readRun
  split
  · exact .bind .needNarrow fun _ => .rawFetch
  refine .get fun s h => ?_
  extract_lets w z
  refine .bind .liftC fun _ => .bind .fetchRun fun _ => ?_
  extract_lets cs
  exact .pure

theorem Keeps.writeRun {t : Ty} {r : Round_} {p : Spot} {v : Vec} : Keeps (Machine.writeRun t r p v) := by
  unfold Machine.writeRun
  split
  · exact .bind .needNarrow fun _ => .rawStore
  refine .get fun s h => ?_
  extract_lets w z cs
  exact .bind .liftC fun _ => .bind .claimRun fun _ => .modify fun _ h1 => h1.runWrite

theorem Keeps.readSrc {t : Ty} {r : Round_} {k : As} {o : Opnd} : Keeps (Machine.readSrc t r k o) := by
  unfold Machine.readSrc
  split
  · exact .readName
  · exact .get fun s h => .pure
  next x _ =>
    refine .bind .usePointer fun _ => ?_
    extract_lets k1
    have hk1 : ∀ x, Keeps (k1 x) := fun x => .bind .movePointer fun _ => .pure
    split
    · exact .bind .readRun fun _ => hk1 _
    · exact .bind .rawFetch fun _ => hk1 _

theorem Keeps.writeDst {t : Ty} {r : Round_} {k : As} {o : Opnd} {v : Vec} : Keeps (Machine.writeDst t r k o v) := by
  unfold Machine.writeDst
  split
  · exact .writeName
  · exact .trap
  next x _ =>
    refine .bind .usePointer fun _ => ?_
    extract_lets k1
    have hk1 : ∀ x, Keeps (k1 x) := fun x => .movePointer
    split
    · exact .bind .writeRun fun _ => hk1 ()
    · exact .bind .rawStore fun _ => hk1 ()

theorem State.memoryWf.countOrdinal {r : Round_} {s : State} (h : s.memoryWf) : (Machine.countOrdinal r s).memoryWf :=
  State.memoryWf.ite (h.modCl (by simp)) h

theorem State.memoryWf.engineOp {i : Instr} {tok : Tok} {rm : BitVec 3} {sat : Bool} {slots : List Opnd}
    {body : Round_ → Act Unit} {s : State} (h : s.memoryWf) (hbody : ∀ x1, Keeps (body x1)) :
    NextForm (Machine.engineOp i tok rm sat slots body s) := by
  unfold Machine.engineOp
  refine h.perform ?_
  refine .bind .trapIf fun _ => .bind .popTokens fun _ => ?_
  extract_lets r
  exact .bind (hbody _) fun _ => .bind (.modify fun _ h1 => h1.countOrdinal) fun _ => .bind .pushTokens fun _ =>
      .modify fun _ h1 => h1.retire

theorem State.memoryWf.headOp {i : Instr} {hd : VHead} {slots : List Opnd} {body : Round_ → Act Unit} {s : State}
    (h : s.memoryWf) (hbody : ∀ x1, Keeps (body x1)) :
    NextForm (Machine.headOp i hd slots body s) :=
  h.engineOp hbody

end Sys2Proof.Machine
end

section
/-! SUPPORT. The canonical form of the memories (log 4) is kept: commands issued, parked and retired. -/

namespace Sys2Proof.Machine

theorem Keeps.parkAt {α : Type} {cause : BitVec 8} {addr : Nat} :
    Keeps (Machine.parkAt cause addr : EAct α) := fun _ _ => .error

theorem Keeps.holdOn {α : Type} : Keeps (Machine.holdOn : EAct α) := fun _ _ => .error

theorem Keeps.eccRows {cl : Nat} {ls : List Nat} {a : Nat} : Keeps (Machine.eccRows cl ls a) := by
  intro s h
  unfold Machine.eccRows
  split
  next e => exact .ok (h.rowsEcc e)
  · exact .error

theorem Keeps.eccCol {cl k a : Nat} : Keeps (Machine.eccCol cl k a) := by
  intro s h
  unfold Machine.eccCol
  split
  next e => exact .ok (h.colsEcc e)
  · exact .error

theorem Keeps.locate {c : Cmd} {dst : Bool} {a n : Nat} : Keeps (Cmd.locate c dst a n) := by
  unfold Cmd.locate
  refine .get fun s h => ?_
  extract_lets window scratch
  have hwindow : ∀ h off, Keeps (window h off) := fun h off => .bind (.liftE fun _ h1 => h1.windowCheck) fun _ => .pure
  have hscratch : ∀ cl off, Keeps (scratch cl off) := fun cl off => .ite .holdOn (.ite .pure .parkAt)
  split
  · exact .pure
  split
  · split
    · exact .parkAt
    · exact hscratch _ _
  · refine .bind (.liftE fun _ h1 => h1.translate) fun _ => ?_
    split
    · exact .ite (hscratch _ _) .parkAt
    · exact hwindow _ _
    · exact .ite .parkAt .pure
    · exact .pure
  · exact hwindow _ _

theorem State.memoryWf.setOwed {s : State} {l : LineRef} {b : Bool} (h : s.memoryWf) : (State.setOwed s l b).memoryWf := by
  unfold State.setOwed
  split
  · exact h.modCl rfl
  · exact h.modDie rfl

theorem State.memoryWf.oweHome {ctx cl : Nat} {f : Fill} {s : State} (h : s.memoryWf) :
    (Machine.oweHome ctx cl f s).memoryWf := by
  unfold Machine.oweHome
  split
  · exact ⟨h.hbm, h.clusters, h.dies, Mem.wf_map h.spilled fun p => by split <;> rfl, h.mailboxes⟩
  · exact State.memoryWf.setOwed (h.congr rfl)

theorem State.memoryWf.dropFills {gone : Fill → Bool} {s : State} (h : s.memoryWf) : (State.dropFills gone s).memoryWf := by
  unfold State.dropFills
  extract_lets s1
  have hs1 : s1.memoryWf := ⟨h.hbm, h.clusters, h.dies, Mem.wf_map h.spilled fun _ => rfl, h.mailboxes⟩
  exact hs1.foldl fun _ _ h1 => h1.setOwed

theorem State.memoryWf.beginFill {c : Cmd} {counted : Bool} {l : LineRef} {s : State} (h : s.memoryWf) :
    (Machine.beginFill c counted l s).memoryWf :=
  (h.congr (by rfl)).setOwed

theorem Keeps.deliver {c : Cmd} {counted : Bool} {cl off : Nat} {bs : List Byte} :
    Keeps (Machine.deliver c counted cl off bs) := by
  unfold Machine.deliver
  refine .get fun s h => ?_
  extract_lets l mine s1 new add
  have hs1 : s1.memoryWf := State.memoryWf.ite h h.beginFill
  exact .ite .parkAt (.ite .holdOn (.set (hs1.congr rfl)))

theorem Keeps.elemRead {c : Cmd} {dst : Bool} {l : Loc} {z : Nat} {high : Bool} {addr : Nat} :
    Keeps (Machine.elemRead c dst l z high addr) := by
  unfold Machine.elemRead
  refine .get fun s h => ?_
  extract_lets pick
  split
  next x _ _ =>
    extract_lets ls k
    have hk : ∀ x, Keeps (k x) := fun x => .get fun s1 h1 => .pure
    split
    · exact .holdOn
    split
    · exact .bind .eccCol fun _ => hk ()
    · exact .bind .eccRows fun _ => hk ()
  · exact .bind (.liftE fun _ h1 => h1.vaRead) fun _ => .pure
  · exact .pure
  · exact .pure

theorem Keeps.elemWrite {c : Cmd} {l : Loc} {z : Nat} {high : Bool} {addr code : Nat} :
    Keeps (Machine.elemWrite c l z high addr code) := by
  unfold Machine.elemWrite
  refine .get fun s h => ?_
  extract_lets merge
  split
  · exact .ite (.set (h.congr rfl)) (.ite .deliver .deliver)
  next x _ =>
    extract_lets k
    have hk : ∀ x, Keeps (k x) := by
      intro x
      unfold k
      refine .bind (.liftE fun _ h1 => h1.translate) fun _ => ?_
      split
      · exact .modify fun _ h1 => h1.modCl rfl
      · exact .pure
    split
    · exact .bind (.liftEU fun _ h1 => h1.vaMerge) fun _ => hk ()
    · exact .bind (.liftEU fun _ h1 => h1.vaWrite) fun _ => hk ()
  · exact .pure

theorem State.memoryWf.setCmd {s : State} {c : Cmd} (h : s.memoryWf) : (State.setCmd s c).memoryWf := h.modCl rfl

theorem Keeps.ownLine {a n al : Nat} : Keeps (Machine.ownLine a n al) := by
  unfold Machine.ownLine
  refine .get fun s h => ?_
  extract_lets own
  split
  · exact .trapAt
  · exact .ite .trapAt (.ite .trapAt .pure)

theorem Keeps.ownRead {a n al : Nat} : Keeps (Machine.ownRead a n al) :=
  .bind .ownLine fun _ => .get fun _ _ => .bind .awaitOwed fun _ => .pure

theorem Keeps.template {u : Unit6} {op : Nat} {a : Reg} {fs : List Reg} : Keeps (Machine.template u op a fs) := by
  unfold Machine.template
  refine .get fun s h => .bind .ownRead fun _ => ?_
  extract_lets r t x1 regs
  split
  · exact .trap
  extract_lets r1 r2
  exact .pure

theorem Keeps.checkCwa {c : Cmd} {al : Nat} : Keeps (Machine.checkCwa c al) := by
  unfold Machine.checkCwa
  refine .bind .trapIf fun _ => ?_
  split
  · exact .get fun s h => .bind .liftC fun _ => .ite .pure .trapAt
  · exact .ite .trapAt .pure

theorem Keeps.checkCoord {c : Cmd} {a n al : Nat} : Keeps (Machine.checkCoord c a n al) :=
  .get fun _ _ => .bind .liftC fun _ => .ite .pure .trapAt

theorem Keeps.checkExtent {c : Cmd} {dst : Bool} : Keeps (Machine.checkExtent c dst) := by
  unfold Machine.checkExtent
  refine .get fun s h => .forM fun x => ?_
  extract_lets a
  refine .bind .liftC fun _ => ?_
  split
  · exact .trapAt
  · exact .bind .liftC fun _ => .ite .trapAt (.ite .trapAt (.ite .trapAt .pure))

theorem Keeps.checkSide {c : Cmd} {dst : Bool} : Keeps (Machine.checkSide c dst) := by
  unfold Machine.checkSide
  refine .get fun s h => ?_
  extract_lets a k k1
  have hk1 : ∀ x, Keeps (k1 x) := fun x => .ite .trapAt (.ite .checkExtent .pure)
  split
  · split
    · split
      · exact .bind .trapAt fun _ => hk1 ()
      · exact hk1 ()
    · exact hk1 ()
  · exact hk1 ()

theorem Keeps.checkWindow {c : Cmd} {dst : Bool} {r : Right} : Keeps (Machine.checkWindow c dst r) := by
  unfold Machine.checkWindow
  split
  · exact .pure
  refine .forM fun x => .get fun s h => ?_
  extract_lets a n
  split
  · exact .bind (.liftA fun _ h1 => h1.windowCheck) fun _ => .pure
  · refine .forM fun x => .get fun s1 h1 => ?_
    split
    next e2 =>
      split
      · exact .bind (.liftA fun _ h2 => (h1.translate e2).windowCheck) fun _ => .pure
      · exact .pure
    · exact .pure
  · exact .pure

theorem Keeps.readList {c : Cmd} : Keeps (Machine.readList c) := by
  unfold Machine.readList
  refine .get fun s h => ?_
  split
  · exact .parkAt
  extract_lets ls
  split
  · exact .holdOn
  · exact .bind .eccRows fun _ => .get fun s1 h1 => .pure

theorem State.memoryWf.takeSlot {c1 : Cmd} {s0 : State} (h : s0.memoryWf) : OptForm (Machine.takeSlot c1 s0) := by
  unfold Machine.takeSlot
  extract_lets ls before c0 s1
  have hs1 : s1.memoryWf := h.modCl rfl
  split
  · exact .none
  · exact .some (hs1.foldl fun _ _ h1 => h1.beginFill)

theorem State.memoryWf.acceptCmd {c : Cmd} {s : State} (h : s.memoryWf) : OptForm (Machine.acceptCmd c s) := by
  unfold Machine.acceptCmd
  split
  · split
    · exact .none
    split
    next e2 => exact ((Keeps.readList h) e2).takeSlot
    · exact .none
    · exact h.takeSlot
  · exact h.takeSlot

theorem State.memoryWf.tryAccept {cl who : Nat} {s : State} (h : s.memoryWf) : (Machine.tryAccept cl who s).memoryWf := by
  unfold Machine.tryAccept
  split
  · split
    · exact h
    split
    next e2 => exact (h.acceptCmd e2).modCl rfl
    · exact h
  · exact h

theorem State.memoryWf.issueOp {i : Instr} {p : Pred} {u : Unit6} {op : Nat} {d a : Reg} {fs : List Reg}
    {check : Cmd → Act Cmd}
    {s : State} (h : s.memoryWf) (hcheck : ∀ x1, Keeps (check x1)) :
    NextForm (Machine.issueOp i p u op d a fs check s) := by
  unfold Machine.issueOp
  refine h.actOpW ?_
  refine .get fun s1 h1 => ?_
  extract_lets cl who k
  have hk : ∀ x, Keeps (k x) := by
    intro x
    unfold k
    refine .bind (.modify fun _ h2 => h2.tryAccept) fun _ => .get fun s2 h2 => ?_
    split
    · split
      · exact .bind (.set (h2.modCl (by rfl)).wr) fun _ => .pure
      · exact .pure
    · exact .pure
  split
  · exact hk ()
  refine .bind .awaitAll fun _ => .bind .template fun _ => .bind (hcheck _) fun _ => .bind ?_ fun x4 => ?_
  · refine .modify fun s h => ?_
    extract_lets n c2
    exact h.modCl rfl
  · exact hk ()

theorem State.memoryWf.logCmd {s : State} {c : Cmd} {cause : BitVec 8} {kind item addr xtra : Nat} (h : s.memoryWf) :
    (State.logCmd s c cause kind item addr xtra).memoryWf :=
  h.logFault

theorem State.memoryWf.holdItem {s : State} {c : Cmd} {j : Nat} {cause : BitVec 8} {addr : Nat} (h : s.memoryWf) :
    (State.holdItem s c j cause addr).memoryWf := by
  unfold State.holdItem
  split
  · exact h.setCmd
  · exact h

theorem State.memoryWf.logDie {s : State} {c : Cmd} {cause : BitVec 8} {item addr xtra : Nat} (h : s.memoryWf) :
    (State.logDie s c cause item addr xtra).memoryWf :=
  h.logFault

theorem State.memoryWf.parkItem {c : Cmd} {j : Nat} {cause : BitVec 8} {addr : Nat} {s : State} (h : s.memoryWf) :
    (Machine.parkItem c j cause addr s).memoryWf := by
  unfold Machine.parkItem
  extract_lets s1
  have hs1 : s1.memoryWf := h.holdItem.endJoined
  exact State.memoryWf.ite hs1.raiseCheck hs1.logCmd

theorem State.memoryWf.parkOwn {c : Cmd} {j : Nat} {cause : BitVec 8} {addr : Nat} {s : State} (h : s.memoryWf) :
    (Machine.parkOwn c j cause addr s).memoryWf := by
  unfold Machine.parkOwn
  extract_lets s1
  have hs1 : s1.memoryWf := h.holdItem.endJoined
  exact State.memoryWf.ite hs1.raiseCheck hs1.logFault

theorem State.memoryWf.logPhase {s : State} {cl : Nat} (h : s.memoryWf) : (State.logPhase s cl).memoryWf := by
  unfold State.logPhase
  split
  · exact h
  extract_lets e1
  exact h.logFault

theorem State.memoryWf.settleCounter {cl k : Nat} {s : State} (h : s.memoryWf) : (Machine.settleCounter cl k s).memoryWf :=
  State.memoryWf.ite h (State.memoryWf.ite (h.setFlagOf.modCl rfl) (State.memoryWf.ite (h.modCl (by rfl)).logPhase h))

theorem State.memoryWf.countLanding {cl line n : Nat} {tag : BitVec 32} {k : Nat} {s : State} (h : s.memoryWf) :
    (Machine.countLanding cl line n tag k s).memoryWf := by
  unfold Machine.countLanding
  extract_lets b fail big
  have hfail : ∀ s, s.memoryWf → (fail s).memoryWf := fun s h => (h.modCl (by rfl)).logPhase
  exact State.memoryWf.ite h (State.memoryWf.ite (State.memoryWf.ite (hfail _ h) (h.modCl (by rfl)).settleCounter)
      (State.memoryWf.ite (State.memoryWf.ite (hfail _ h) (h.modCl rfl)) (hfail _ h)))

theorem State.memoryWf.countAll {cl line n : Nat} {tag : BitVec 32} {s : State} (h : s.memoryWf) :
    (Machine.countAll cl line n tag s).memoryWf :=
  h.foldl fun _ _ h1 => h1.countLanding

theorem State.memoryWf.landBytes {cl n g : Nat} {data : List (Nat × Byte)} {s : State} (h : s.memoryWf) :
    (Machine.landBytes cl n g data s).memoryWf := by
  unfold Machine.landBytes
  split
  next e => exact (h.rowsEcc e).foldl fun _ _ h1 => h1.sramWrite
  split
  · exact h.raiseCheck
  · exact h.raiseCheck

theorem State.memoryWf.stir {s : State} {cl : Nat} (h : s.memoryWf) : (State.stir s cl).memoryWf := h.modCl rfl

theorem State.memoryWf.markLanded {c0 : Cmd} {s : State} (h : s.memoryWf) : (Machine.markLanded c0 s).memoryWf := by
  unfold Machine.markLanded
  split
  · exact h
  split
  · exact h
  extract_lets owed js
  exact h.modCl rfl

theorem State.memoryWf.landFill {f : Fill} {s : State} (h : s.memoryWf) : (Machine.landFill f s).memoryWf := by
  unfold Machine.landFill
  extract_lets s1
  have hs1 : s1.memoryWf := (h.congr (by rfl)).stir
  split
  · extract_lets s2 s3
    have hs2 : s2.memoryWf := hs1.landBytes.stir.setOwed
    have hs3 : s3.memoryWf := State.memoryWf.ite hs2.countAll hs2
    split
    · exact hs3.markLanded
    · exact hs3
  · exact hs1.modDie rfl

theorem State.memoryWf.landOwn {c : Cmd} {s : State} (h : s.memoryWf) : (Machine.landOwn c s).memoryWf :=
  h.foldl fun _ _ h1 => h1.landFill

theorem Keeps.sramPut {c : Cmd} {cl off addr : Nat} {bs : List Byte} : Keeps (Machine.sramPut c cl off addr bs) := by
  unfold Machine.sramPut
  refine .get fun s h => ?_
  extract_lets ls
  split
  · exact .set (h.congr rfl)
  split
  · exact .parkAt
  split
  · exact .holdOn
  split
  · exact .parkAt
  refine .forM fun x => ?_
  extract_lets lo part
  refine .get fun s1 h1 => ?_
  split
  · exact .deliver
  · exact .bind .eccRows fun _ => .modify fun _ h2 => h2.sramWrite.countAll

theorem Keeps.coordPut {c : Cmd} {a : Nat} {bs : List Byte} : Keeps (Machine.coordPut c a bs) := by
  unfold Machine.coordPut
  refine .get fun s h => ?_
  split
  · exact .parkAt
  · exact .sramPut

theorem Keeps.coordGet {c : Cmd} {a n : Nat} : Keeps (Machine.coordGet c a n) := by
  unfold Machine.coordGet
  refine .get fun s h => ?_
  split
  · exact .parkAt
  split
  · exact .parkAt
  split
  · exact .holdOn
  · exact .bind .eccRows fun _ => .get fun s1 h1 => .pure

theorem Keeps.sourceGet {c : Cmd} {a n : Nat} :
    Keeps (Machine.sourceGet c a n) := .ite .coordGet (.liftE fun _ h => h.vaRead)

theorem Keeps.completionWrite {c : Cmd} {sync : Bool} {off v : Nat} : Keeps (Machine.completionWrite c sync off v) := by
  unfold Machine.completionWrite
  refine .get fun s h => ?_
  extract_lets a place
  have hplace : ∀ cl o, Keeps (place cl o) := by
    intro cl o
    unfold place
    split
    · exact .pure
    split
    · exact .holdOn
    · exact .bind .eccRows fun _ => .modify fun _ h1 => h1.sramWrite
  split
  · split
    · exact .parkAt
    · exact hplace _ _
  · refine .bind (.liftE fun _ h1 => h1.translate) fun _ => ?_
    split
    · exact .ite .parkAt (.ite (hplace _ _) .parkAt)
    · exact .bind (.liftEU fun _ h1 => h1.writeAt) fun _ => .modify fun _ h1 => h1.modCl rfl
    · exact .liftEU fun _ h1 => h1.writeAt
  · exact .pure

theorem Keeps.completionWords {c : Cmd} : Keeps (Machine.completionWords c) := by
  unfold Machine.completionWords
  split
  · extract_lets k
    have hk : ∀ x, Keeps (k x) := fun x => .completionWrite
    split
    · exact .bind .completionWrite fun _ => hk ()
    · exact hk ()
  · exact .pure

theorem State.memoryWf.retireCmd {c : Cmd} {sig : Bool} {s : State} (h : s.memoryWf) :
    (Machine.retireCmd c sig s).memoryWf := by
  unfold Machine.retireCmd
  split
  · exact h
  extract_lets s0
  have hs0 : s0.memoryWf := State.memoryWf.ite h.landOwn h
  split
  · exact hs0
  · exact hs0.parkItem
  next e1 =>
    extract_lets s2
    have hs2 : s2.memoryWf := ((Keeps.completionWords hs0) e1).modCl rfl
    exact State.memoryWf.ite hs2 (hs2.modHome fun x => by dsimp only; split <;> rfl)

end Sys2Proof.Machine
end

section
/-! SUPPORT. The canonical form of the memories (log 4) is kept: the copy family. -/

namespace Sys2Proof.Machine

theorem Keeps.checkFollow {c : Cmd} : Keeps (Machine.checkFollow c) := .get fun _ _ => .trapIf

theorem Keeps.checkBitmap {c : Cmd} : Keeps (Machine.checkBitmap c) := .get fun _ _ => .trapIf

theorem Keeps.checkEcopy {c : Cmd} : Keeps (Machine.checkEcopy c) :=
  .get fun _ _ => .bind .trapIf fun _ => .bind .trapIf fun _ => .bind .checkCwa fun _ => .bind .checkSide fun _ =>
      .bind .checkSide fun _ => .bind .checkWindow fun _ => .bind .checkWindow fun _ => .bind .checkBitmap fun _ =>
      .bind .checkFollow fun _ => .pure

theorem Keeps.checkIndexed {c : Cmd} : Keeps (Machine.checkIndexed c) :=
  .get fun _ _ => .bind .trapIf fun _ => .bind .trapIf fun _ => .bind .trapIf fun _ => .bind .checkCwa fun _ =>
      .bind .checkSide fun _ => .bind .checkSide fun _ => .bind .checkWindow fun _ => .bind .checkWindow fun _ =>
      .bind .ownLine fun _ => .bind .checkBitmap fun _ => .bind .checkFollow fun _ => .pure

theorem Keeps.checkEacc {c : Cmd} : Keeps (Machine.checkEacc c) := by
  unfold Machine.checkEacc
  refine .get fun s h => .bind .trapIf fun x => .bind .trapIf fun _ => ?_
  refine .bind .checkCwa fun _ => .bind .checkSide fun _ => .bind .checkSide fun _ => .bind .trapIf fun _ => ?_
  extract_lets z k k1
  have hk : ∀ x, Keeps (k x) := fun x => .bind .checkBitmap fun _ => .pure
  have hk1 : ∀ x, Keeps (k1 x) := by
    intro x
    unfold k1
    split
    · refine .bind .liftC fun _ => ?_
      split
      · exact hk ()
      · exact .bind .trapAt fun _ => hk ()
    · exact hk ()
  refine .bind .checkWindow fun _ => .bind .checkWindow fun _ => ?_
  split
  · exact .bind .ownLine fun _ => hk1 ()
  · exact hk1 ()

theorem Keeps.checkEmark {c : Cmd} : Keeps (Machine.checkEmark c) :=
  .get fun _ _ => .bind .trapIf fun _ => .bind .checkCwa fun _ => .pure

theorem Keeps.checkEfset {c : Cmd} : Keeps (Machine.checkEfset c) :=
  .get fun _ _ => .bind .trapIf fun _ => .bind .checkCwa fun _ => .bind .liftC fun _ => .ite .pure .trapAt

theorem Keeps.run {c : Cmd} {dst : Bool} {j : Nat} : Keeps (Cmd.run c dst j) := by
  unfold Cmd.run
  extract_lets row base
  refine .bind .locate fun x => ?_
  extract_lets z
  refine .bind ?_ fun x1 => ?_
  · refine .mapM fun x => ?_
    extract_lets e
    exact .bind .locate fun _ => .ite .parkAt .pure
  · exact .pure

theorem Keeps.requestItem {c0 : Cmd} {j : Nat} : Keeps (Machine.requestItem c0 j) := by
  unfold Machine.requestItem
  refine .bind .run fun x => .modify fun s h => ?_
  refine h.foldl fun s x h1 => ?_
  split
  · exact h1
  extract_lets k x3
  exact State.memoryWf.ite h1 h1.setCmd.send

theorem Keeps.fetched {c : Cmd} {l : Loc} : Keeps (Machine.fetched c l) := by
  unfold Machine.fetched
  split
  · extract_lets k
    exact .ite .holdOn .pure
  · exact .pure

theorem State.memoryWf.sendWrite {c0 : Cmd} {w : Dest × Nat × List Byte} {s : State} (h : s.memoryWf) :
    (Machine.sendWrite c0 w s).memoryWf := by
  unfold Machine.sendWrite
  split
  · exact h
  split
  · extract_lets ks x5
    exact h.setCmd.send
  split
  · exact h
  · exact h.setCmd.send

theorem Keeps.performItem {c : Cmd} {j : Nat} : Keeps (Machine.performItem c j) := by
  unfold Machine.performItem
  refine .bind .run fun a => .bind .run fun b => .bind (.mapIdxM fun i e => .bind .fetched fun ok => ?_) fun out => ?_
  · split
    · refine .bind .elemRead fun code => ?_
      dsimp only
      split
      · exact .pure
      · exact .pure
      · exact .bind .elemWrite fun _ => .pure
    · exact .pure
  · exact .modify fun s h => h.foldl fun _ _ h1 => h1.sendWrite

theorem State.memoryWf.markDone {c0 : Cmd} {j : Nat} {s : State} (h : s.memoryWf) : (Machine.markDone c0 j s).memoryWf := by
  unfold Machine.markDone
  split
  · exact h
  · exact h.setCmd.markLanded

theorem State.memoryWf.runItems {c0 : Cmd} {l : List Nat} {s : State} (h : s.memoryWf) :
    (Machine.runItems c0 l s).memoryWf := by
  induction l generalizing s with
  | nil => exact h
  | cons j l ih =>
    unfold Machine.runItems
    split
    · exact h
    split
    · exact h
    split
    · exact ih h
    split
    · exact h
    split
    next e => exact ih (State.memoryWf.markDone (Keeps.performItem h e))
    · exact h
    · exact ih h.parkItem

theorem State.memoryWf.fillUp {c0 : Cmd} {s : State} (h : s.memoryWf) : (Machine.fillUp c0 s).memoryWf := by
  unfold Machine.fillUp
  split
  · exact h
  extract_lets left
  exact h

theorem State.memoryWf.runCopy {c0 : Cmd} {s : State} (h : s.memoryWf) : (Machine.runCopy c0 s).memoryWf := by
  unfold Machine.runCopy
  split
  · exact h
  next x _ _ =>
    extract_lets s1
    have hs1 : s1.memoryWf := by
      unfold s1
      refine h.foldl fun s x h1 => ?_
      split
      next e1 => exact (Keeps.requestItem h1) e1
      · exact h1
    exact hs1.runItems.fillUp

theorem State.memoryWf.oweLines {c : Cmd} {s : State} (h : s.memoryWf) : OptForm (Machine.oweLines c s) := by
  unfold Machine.oweLines
  extract_lets ls
  split
  · exact .none
  · exact .some (h.foldl fun _ _ h1 => h1.beginFill)

theorem State.memoryWf.startCopy {c : Cmd} {s : State} (h : s.memoryWf) : (Machine.startCopy c s).memoryWf := by
  unfold Machine.startCopy
  split
  · exact h.runCopy
  split
  · exact h
  split
  · exact h.setCmd.runCopy
  split
  · exact h
  · exact State.memoryWf.ite h.parkItem h
  next s1 e =>
    have hs1 : s1.memoryWf := Keeps.readList h e
    extract_lets c1
    split
    · exact h
    next s2 e2 =>
      have hs2 : s2.memoryWf := by
        split at e2
        · exact hs1.oweLines e2
        · cases e2; exact hs1
      exact hs2.setCmd.runCopy

theorem State.memoryWf.updateRead {w : Who} {a n : Nat} {s : State} (h : s.memoryWf) :
    ResForm (Machine.updateRead w a n s) := by
  unfold Machine.updateRead
  split
  · exact .error
  next e =>
    split
    · exact .error
    next e1 => exact .ok (((h.translate e).targetRead) e1)

theorem Keeps.returnOld {c : Cmd} {z pos old : Nat} : Keeps (Machine.returnOld c z pos old) := by
  unfold Machine.returnOld
  split
  · exact .pure
  refine .get fun s h => ?_
  split
  · exact .parkAt
  · exact .ite (.set (h.congr rfl)) .deliver

theorem Keeps.compareAt {c : Cmd} {z pos : Nat} : Keeps (Machine.compareAt c z pos) := by
  unfold Machine.compareAt
  split
  · exact .pure
  refine .get fun s h => ?_
  split
  · exact .parkAt
  extract_lets o
  split
  · exact .holdOn
  · exact .bind .eccRows fun _ => .get fun s1 h1 => .pure

theorem Keeps.updateElem {c : Cmd} {pos : Nat} : Keeps (Machine.updateElem c pos) := by
  unfold Machine.updateElem
  extract_lets j i rm
  refine .bind .run fun _ => .bind .run fun _ => ?_
  split
  · extract_lets z
    refine .bind .fetched fun _ => ?_
    split
    · exact .pure
    refine .bind .elemRead fun _ => .bind .compareAt fun _ => .get fun s h => ?_
    split
    · split
      · exact .set (h.congr rfl)
      · exact .bind .elemRead fun _ => .bind .returnOld fun _ => .deliver
    · refine .bind (.liftE fun _ h1 => h1.updateRead) fun _ => ?_
      split
      · refine .bind .returnOld fun _ => .bind (.liftEU fun _ h1 => h1.targetWrite) fun _ => ?_
        split
        · exact .modify fun _ h1 => h1.modCl rfl
        · exact .pure
    · split
      · exact .pure
      · exact .set h.setCmd.send
    · exact .pure
  · exact .pure

theorem State.memoryWf.nextUpdate {c : Cmd} {s : State} (h : s.memoryWf) : (Machine.nextUpdate c s).memoryWf := by
  unfold Machine.nextUpdate
  split
  · exact h
  extract_lets j
  split
  · exact h
  split
  · exact h.parkItem
  · exact h
  next e2 =>
    split
    · exact (Keeps.requestItem h) e2
    split
    · exact ((Keeps.requestItem h) e2).parkItem
    · exact (Keeps.requestItem h) e2
    next e4 =>
      split
      · exact (Keeps.updateElem ((Keeps.requestItem h) e2)) e4
      extract_lets k1
      exact ((((Keeps.updateElem ((Keeps.requestItem h) e2)) e4).setCmd).markLanded).fillUp

theorem State.memoryWf.execLineLanding {l : LineRef} {s : State} (h : s.memoryWf) :
    NextForm (Machine.execLineLanding l s) := by
  unfold Machine.execLineLanding
  split
  · exact .next h.landFill
  · exact .next h

theorem State.memoryWf.execEarm {p : Pred} {d a f0 : Reg} {s : State} (h : s.memoryWf) :
    NextForm (Machine.execEarm p d a f0 s) := by
  unfold Machine.execEarm
  refine h.actOp ?_
  refine .bind .awaitAll fun _ => .modify fun s h => ?_
  extract_lets old new
  exact (h.modCl (by rfl)).wr

theorem State.memoryWf.execEwait {p : Pred} {a : Reg} {s : State} (h : s.memoryWf) :
    NextForm (Machine.execEwait p a s) := by
  unfold Machine.execEwait
  refine h.actOp ?_
  refine .get fun s1 h1 => ?_
  extract_lets x t0 t
  exact .waitIf

theorem State.memoryWf.execEdrain {p : Pred} {s : State} (h : s.memoryWf) : NextForm (Machine.execEdrain p s) := by
  unfold Machine.execEdrain
  refine h.actOp ?_
  refine .get fun s1 h1 => ?_
  extract_lets x
  exact .waitIf

theorem State.memoryWf.cancelCmd {c : Cmd} {s : State} (h : s.memoryWf) :
    (Machine.cancelCmd c s).memoryWf := h.dropFills.setCmd

theorem State.memoryWf.execEcancel {p : Pred} {d a : Reg} {s : State} (h : s.memoryWf) :
    NextForm (Machine.execEcancel p d a s) := by
  unfold Machine.execEcancel
  refine h.plainOp fun s1 h1 => ?_
  extract_lets n x last issued
  split
  · exact h1.cancelCmd.wr
  · exact h1.wr

theorem State.memoryWf.execEstat {p : Pred} {d a : Reg} {s : State} (h : s.memoryWf) :
    NextForm (Machine.execEstat p d a s) := by
  unfold Machine.execEstat
  refine h.actOp ?_
  refine .get fun s1 h1 => ?_
  extract_lets x held v
  clear_value v
  split
  · exact .set h1.wr
  · exact .trap

theorem Keeps.postExpectation {d : Reg} {c : Cmd} : Keeps (Machine.postExpectation d c) := by
  unfold Machine.postExpectation
  refine .get fun s h => .bind .ownLine fun off => ?_
  extract_lets k b base lines b1 s1 s2
  have hs1 : s1.memoryWf := h.modCl (by dsimp only; split <;> rfl)
  have hs2 : s2.memoryWf := hs1.settleCounter
  exact .bind .trapIf fun _ => .bind .trapIf fun _ => .bind .trapIf fun _ => .set hs2.wr

theorem State.memoryWf.execEbexp {p : Pred} {d a f0 f1 f2 f3 : Reg} {s : State} (h : s.memoryWf) :
    NextForm (Machine.execEbexp p d a f0 f1 f2 f3 s) := by
  unfold Machine.execEbexp
  refine h.actOp ?_
  exact .bind .template fun _ => .bind .trapIf fun _ => .postExpectation

end Sys2Proof.Machine
end

section
/-! SUPPORT. The canonical form of the memories (log 4) is kept: batches, appends and sweeps. -/

namespace Sys2Proof.Machine

theorem Keeps.checkSource {c : Cmd} {n al : Nat} : Keeps (Machine.checkSource c n al) :=
  .bind .trapIf fun _ => .ite .checkCoord (.ite .trapAt .pure)

theorem Keeps.checkEappend {c : Cmd} : Keeps (Machine.checkEappend c) := by
  unfold Machine.checkEappend
  extract_lets r k
  have hk : ∀ x, Keeps (k x) := fun x => .pure
  split
  · exact .bind .trapIf fun _ => .bind .checkCwa fun _ => .pure
  refine .bind .trapIf fun _ => .bind .checkCwa fun _ => .bind .checkSource fun _ => ?_
  split
  · exact .bind .checkCoord fun _ => hk ()
  · exact .get fun s h => .bind (.liftA fun _ h1 => h1.wlDesc) fun _ => hk ()

theorem State.memoryWf.startAppend {c : Cmd} {s : State} (h : s.memoryWf) : (Machine.startAppend c s).memoryWf := by
  unfold Machine.startAppend
  split
  · exact h
  split
  · exact h.setCmd
  · extract_lets handles
    have hk : Keeps handles := .ite .pure (.bind .coordGet fun _ => .pure)
    split
    · exact h
    · exact State.memoryWf.ite h.parkItem h
    next e => exact (hk h e).setCmd

/-- The state that an item's append leaves has its memories in form. -/
def AppendedForm : Appended → Prop
  | .done s => s.memoryWf
  | .skip s => s.memoryWf
  | _ => True

theorem State.memoryWf.appendItem {c : Cmd} {j : Nat} {s : State} (h : s.memoryWf) :
    AppendedForm (Machine.appendItem c j s) := by
  unfold Machine.appendItem
  split
  · trivial
  next e1 =>
    have h1 := Keeps.sourceGet h e1
    extract_lets item k drop
    have hdrop : ∀ s, s.memoryWf → AppendedForm (drop s) := fun s hs => (hs.modDie (by rfl)).logCmd
    split
    · exact h1
    split
    · exact hdrop _ h1
    split
    · split
      · exact hdrop _ h1
      · trivial
    next e2 =>
      have h2 := h1.wlDesc e2
      split
      · trivial
      split
      · trivial
      · trivial
      next e3 => exact h2.wlAppend e3

theorem State.memoryWf.appendAll {c : Cmd} {l : List Nat} {s : State} (h : s.memoryWf) :
    (Machine.appendAll c l s).memoryWf := by
  induction l generalizing s with
  | nil => exact h
  | cons j l ih =>
    unfold Machine.appendAll
    split
    · exact h
    next k _ =>
      have hk := h.appendItem (c := k) (j := j)
      split
      next e => rw [e] at hk; exact ih (State.memoryWf.markDone hk)
      next e => rw [e] at hk; exact ih (State.memoryWf.markDone hk)
      · exact h
      · exact h
      · exact ih (.ite h.parkOwn h.parkItem)

theorem State.memoryWf.execWindrowAppend {cl : Nat} {seq : BitVec 32} {s : State} (h : s.memoryWf) :
    NextForm (Machine.execWindrowAppend cl seq s) := by
  unfold Machine.execWindrowAppend
  split
  · exact .next h
  · exact .next (State.memoryWf.ite h.appendAll h)

theorem State.memoryWf.modGang {s : State} {g : Nat} {f : Gang → Gang} (h : s.memoryWf) :
    (State.modGang s g f).memoryWf := by
  unfold State.modGang
  split
  · exact h
  · exact h

theorem State.memoryWf.tellAll {x : Gang} {devs : List Nat} {kind : PKind} {imd arg : Nat} {s : State} (h : s.memoryWf) :
    (Machine.tellAll x devs kind imd arg s).memoryWf :=
  h.foldl fun _ _ h1 => h1.send

theorem State.memoryWf.endArm {c : Cmd} {s : State} (h : s.memoryWf) : (Machine.endArm c s).memoryWf := by
  unfold Machine.endArm
  split
  · exact h.setCmd
  extract_lets k
  exact ((State.memoryWf.ite h h.setFlagOf).setCmd).retireCmd

theorem State.memoryWf.endArmed {g : Nat} {s : State} (h : s.memoryWf) : (Machine.endArmed g s).memoryWf :=
  h.foldl fun _ _ h1 => h1.endArm

theorem State.memoryWf.settleSweep {g : Nat} {x : Gang} {s : State} (h : s.memoryWf) :
    (Machine.settleSweep g x s).memoryWf := by
  unfold Machine.settleSweep
  extract_lets sum now keep
  have hkeep : ∀ l, (keep l).memoryWf := fun l => h.modGang
  exact State.memoryWf.ite h (State.memoryWf.ite (hkeep _) (State.memoryWf.ite (((hkeep _).tellAll).endArmed) (hkeep _)))

theorem State.memoryWf.execTerminationSweep {gang ctx num : Nat} {s : State} (h : s.memoryWf) :
    NextForm (Machine.execTerminationSweep gang ctx num s) := by
  unfold Machine.execTerminationSweep
  split
  · exact .next h
  split
  · exact .next h
  extract_lets y
  exact .next (h.congr (by rfl)).tellAll.settleSweep

theorem State.memoryWf.takeSweep {p : Packet} {g : Nat} {x : Gang} {s : State} (h : s.memoryWf) :
    (Machine.takeSweep p g x s).memoryWf := by
  unfold Machine.takeSweep
  split
  · exact h.send
  · extract_lets y
    exact (h.congr (by rfl)).settleSweep
  · exact h.endArmed

theorem Keeps.checkEbatch {c : Cmd} : Keeps (Machine.checkEbatch c) := by
  unfold Machine.checkEbatch
  refine .bind .trapIf fun x => .bind .trapIf fun _ => .bind .checkCwa fun _ => ?_
  extract_lets k
  have hk : ∀ x, Keeps (k x) := fun x => .bind .trapIf fun _ => .bind .checkSource fun _ => .bind .checkCoord fun _ =>
      .bind .checkCoord fun _ => .pure
  split
  · exact .bind .trapAt fun _ => hk ()
  · exact hk ()

theorem Keeps.nextGroup {c : Cmd} : Keeps (Machine.nextGroup c) := by
  unfold Machine.nextGroup
  refine .bind ?_ fun x => ?_
  · exact .mapM fun x => .bind .sourceGet fun _ => .pure
  extract_lets group last
  exact .bind .coordPut fun _ => .bind .coordPut fun _ => .pure

theorem State.memoryWf.execBatchGroup {cl : Nat} {seq : BitVec 32} {s : State} (h : s.memoryWf) :
    NextForm (Machine.execBatchGroup cl seq s) := by
  unfold Machine.execBatchGroup
  split
  · exact .next h
  split
  · exact .next h
  split
  · exact .next h
  · exact .next h.parkItem
  next e2 => exact .next (((Keeps.nextGroup h) e2).setCmd)

end Sys2Proof.Machine
end

section
/-! SUPPORT. The canonical form of the memories (log 4) is kept: ports and links. -/

namespace Sys2Proof.Machine

theorem State.memoryWf.setPort {s : State} {k : Nat} {p : Port} (h : s.memoryWf) : (State.setPort s k p).memoryWf := h

theorem State.memoryWf.sendOut {k : Nat} {p : Packet} {s : State} (h : s.memoryWf) : (Machine.sendOut k p s).memoryWf := by
  unfold Machine.sendOut
  extract_lets x far x1 x2
  have hx2 : x2.memoryWf := h.setPort
  exact hx2

theorem State.memoryWf.portDown {port : Nat} {s : State} (h : s.memoryWf) : (Machine.portDown port s).memoryWf := by
  unfold Machine.portDown
  extract_lets p s1 e s2
  have hs1 : s1.memoryWf := h.setPort
  have hs2 : s2.memoryWf := hs1.foldl fun _ _ h1 => h1.logFault
  exact (hs2.congr (by rfl)).soon

end Sys2Proof.Machine
end

section
/-! SUPPORT. The canonical form of the memories (log 4) is kept: reductions. -/

namespace Sys2Proof.Machine

theorem State.memoryWf.setSlot {s : State} {k : Nat} {x : GroupSlot} (h : s.memoryWf) : (State.setSlot s k x).memoryWf := h

theorem State.memoryWf.countGroup {s : State} {slot ctx : Nat} (h : s.memoryWf) :
    (State.countGroup s slot ctx).memoryWf := h

theorem State.memoryWf.keepRecord {k : Kept} {s : State} (h : s.memoryWf) : (Machine.keepRecord k s).memoryWf := h

theorem State.memoryWf.replyMember {c : Contribution} {status : Nat} {s : State} (h : s.memoryWf) :
    (Machine.replyMember c status s).memoryWf :=
  h.send

theorem State.memoryWf.deliverResult {r : Reduction} {x : GroupSlot} {missing : BitVec 1024} {s : State} (h : s.memoryWf) :
    (Machine.deliverResult r x missing s).memoryWf := by
  unfold Machine.deliverResult
  extract_lets n e leaf leaves packet all
  refine h.foldl fun s x h1 => ?_
  extract_lets vs
  exact h1.send

theorem State.memoryWf.finishReduction {r : Reduction} {x : GroupSlot} {s : State} (h : s.memoryWf) :
    (Machine.finishReduction r x s).memoryWf := by
  unfold Machine.finishReduction
  extract_lets missing s1 s2
  have hs1 : s1.memoryWf := (h.congr (by rfl)).deliverResult
  have hs2 : s2.memoryWf := hs1.keepRecord
  exact State.memoryWf.ite hs2 (hs2.foldl fun _ _ h1 => h1.send)

theorem State.memoryWf.contribute {c : Contribution} {s : State} (h : s.memoryWf) : (Machine.contribute c s).memoryWf := by
  unfold Machine.contribute
  split
  · exact (h.congr (by rfl)).replyMember
  extract_lets x2 dev mine late old r s1
  have hlate : ∀ s, s.memoryWf → (late s).memoryWf := fun s h => (h.congr (by rfl)).replyMember
  have hs1 : s1.memoryWf := (h.congr (by rfl)).replyMember
  split
  · exact State.memoryWf.ite (hlate _ h) (h.congr rfl)
  · exact State.memoryWf.ite (hlate _ h) (State.memoryWf.ite (h.congr rfl) (State.memoryWf.ite hs1.finishReduction hs1))

theorem State.memoryWf.execReductionTimeout {ctx grp ver : Nat} {seq : BitVec 32} {s : State} (h : s.memoryWf) :
    NextForm (Machine.execReductionTimeout ctx grp ver seq s) := by
  unfold Machine.execReductionTimeout
  split
  · exact .next (State.memoryWf.ite h h.finishReduction)
  · exact .next h

theorem State.memoryWf.drainSlot {k : Nat} {s : State} (h : s.memoryWf) : (Machine.drainSlot k s).memoryWf := by
  unfold Machine.drainSlot
  extract_lets x ps
  refine h.setSlot.foldl fun s x h1 => ?_
  split
  · exact h1.send
  · exact h1

theorem State.memoryWf.slotReturned {grp ver port : Nat} {s : State} (h : s.memoryWf) :
    (Machine.slotReturned grp ver port s).memoryWf := by
  unfold Machine.slotReturned
  refine h.foldl fun s x h1 => ?_
  extract_lets x1
  exact State.memoryWf.ite h1.setSlot h1

theorem State.memoryWf.execGroupSlotDrain {grp slot : Nat} {s : State} (h : s.memoryWf) :
    NextForm (Machine.execGroupSlotDrain grp slot s) := by
  unfold Machine.execGroupSlotDrain
  extract_lets k x x1
  have hx1 : x1.memoryWf := h.setSlot
  split
  · exact .next h
  · exact .next (hx1.congr rfl)

end Sys2Proof.Machine
end

section
/-! SUPPORT. The canonical form of the memories (log 4) is kept: remote commands, carries and groups. -/

namespace Sys2Proof.Machine

theorem Keeps.needFabric : Keeps Machine.needFabric := .get fun _ _ => .trapIf

theorem Keeps.needMember {g : Nat} : Keeps (Machine.needMember g) := by
  unfold Machine.needMember
  refine .get fun s h => ?_
  split
  · exact .ite .pure .trap
  · exact .trap

theorem Keeps.checkRemote {c : Cmd} {fs : List (Nat × Nat)} {srcKinds dstKinds : List Nat} :
    Keeps (Machine.checkRemote c fs srcKinds dstKinds) :=
  .bind .needFabric fun _ => .get fun _ _ => .bind .trapIf fun _ => .bind .trapIf fun _ => .bind .checkCwa fun _ =>
      .bind .checkSide fun _ => .checkSide

theorem Keeps.checkEget {c : Cmd} : Keeps (Machine.checkEget c) :=
  .bind .checkRemote fun _ => .bind .checkWindow fun _ => .bind .checkBitmap fun _ => .pure

theorem Keeps.checkEput {c : Cmd} : Keeps (Machine.checkEput c) :=
  .bind .checkRemote fun _ => .bind .checkWindow fun _ => .bind .checkBitmap fun _ => .pure

theorem Keeps.checkEmcast {c : Cmd} : Keeps (Machine.checkEmcast c) :=
  .bind .needFabric fun _ => .bind .trapIf fun _ => .bind .checkRemote fun _ => .bind .checkBitmap fun _ =>
      .bind .needMember fun _ => .pure

theorem Keeps.flagPackets {c : Cmd} : Keeps (Machine.flagPackets c) := by
  unfold Machine.flagPackets
  refine .get fun s h => ?_
  split
  · split
    · exact .pure
    refine .bind .locate fun _ => ?_
    split
    · exact .pure
    · exact .pure
  split
  · exact .pure
  extract_lets left x4
  exact .ite .pure .pure

theorem State.memoryWf.sendFlag {c0 : Cmd} {s : State} (h : s.memoryWf) : (Machine.sendFlag c0 s).memoryWf := by
  unfold Machine.sendFlag
  split
  · exact h
  split
  · exact h
  split
  · exact h
  next e2 =>
    extract_lets n
    exact (((Keeps.flagPackets h) e2).setCmd).foldl fun _ _ h1 => h1.send

theorem State.memoryWf.startRemote {c : Cmd} {s : State} (h : s.memoryWf) : (Machine.startRemote c s).memoryWf :=
  State.memoryWf.ite h h.setCmd.startCopy.sendFlag

theorem Keeps.checkEldred {c : Cmd} : Keeps (Machine.checkEldred c) := by
  unfold Machine.checkEldred
  refine .bind .needFabric fun x => .bind .trapIf fun _ => ?_
  refine .get fun s h => .bind .trapIf fun _ => .bind .trapIf fun _ => .bind .checkCwa fun _ => ?_
  extract_lets k k1 k2
  have hk1 : ∀ x, Keeps (k1 x) := by
    intro x
    unfold k1
    refine .bind .needMember fun _ => ?_
    extract_lets x6 code typed
    refine .bind .trapIf fun _ => ?_
    split
    · exact .bind (.modify fun _ h1 => h1.countGroup) fun _ => .pure
    · exact .pure
  have hk2 : ∀ x, Keeps (k2 x) := by
    intro x
    unfold k2
    refine .bind .checkSide fun _ => ?_
    split
    · exact .bind .checkCoord fun _ => hk1 ()
    · exact hk1 ()
  split
  · exact .bind .checkSide fun _ => hk2 ()
  · exact hk2 ()

theorem State.memoryWf.endReduce {c : Cmd} {status : Nat} {s : State} (h : s.memoryWf) :
    (Machine.endReduce c status s).memoryWf :=
  h.setCmd

theorem Keeps.contributed {c : Cmd} : Keeps (Machine.contributed c) :=
  .bind .run fun _ => .mapM fun _ => .bind .elemRead fun _ => .pure

theorem Keeps.landResult {c : Cmd} : Keeps (Machine.landResult c) := by
  unfold Machine.landResult
  extract_lets k
  have hk : ∀ x, Keeps (k x) := by
    intro x
    unfold k
    refine .bind .run fun _ => .bind ?_ fun x2 => ?_
    · refine .mapIdxM fun i x => ?_
      extract_lets v
      exact .elemWrite
    · exact .pure
  split
  · exact .bind .coordPut fun _ => hk ()
  · exact hk ()

theorem State.memoryWf.startReduce {c : Cmd} {s : State} (h : s.memoryWf) : (Machine.startReduce c s).memoryWf := by
  unfold Machine.startReduce
  extract_lets x noticed tagged rec_ c1 x1 n x2 x3
  split
  · exact h
  split
  · split
    · exact h.endReduce
    split
    · exact h
    split
    · split
      · exact h
      · exact h.parkItem
      next e5 => exact (((Keeps.contributed h) e5).setCmd).send
    · exact h.setCmd.send
  split
  · split
    · exact h
    · exact h.parkItem
    next e3 => exact (((Keeps.landResult h) e3).markDone).fillUp
  · exact h

theorem State.memoryWf.takeNotice {n : Kept} {s : State} (h : s.memoryWf) : (Machine.takeNotice n s).memoryWf := by
  unfold Machine.takeNotice
  extract_lets s1 cs
  have hs1 : s1.memoryWf := State.memoryWf.ite h (h.congr rfl)
  exact hs1.foldl fun _ _ h1 => h1.startReduce

theorem Keeps.checkEcarry {c : Cmd} : Keeps (Machine.checkEcarry c) := by
  unfold Machine.checkEcarry
  refine .bind .needFabric fun x => ?_
  refine .bind .trapIf fun _ => .bind .checkCwa fun _ => .bind .checkCoord fun _ => ?_
  extract_lets k
  have hk : ∀ x, Keeps (k x) := fun x => .bind (.liftA fun _ h => h.windowCheck) fun _ => .pure
  split
  · exact .bind .trapAt fun _ => hk ()
  · exact hk ()

theorem Keeps.sendCarry {c : Cmd} : Keeps (Machine.sendCarry c) := by
  unfold Machine.sendCarry
  refine .bind .coordGet fun _ => .bind (.liftE fun _ h => h.windowCheck) fun _ => .modify fun s h => ?_
  extract_lets part ps ps1
  exact h.setCmd.foldl fun _ _ h1 => h1.send

theorem State.memoryWf.startCarry {c : Cmd} {s : State} (h : s.memoryWf) : (Machine.startCarry c s).memoryWf := by
  unfold Machine.startCarry
  split
  · exact h
  split
  · exact h
  · exact h.parkItem
  next e1 => exact (Keeps.sendCarry h) e1

theorem Keeps.checkEgroup {c : Cmd} : Keeps (Machine.checkEgroup c) := by
  unfold Machine.checkEgroup
  refine .bind .needFabric fun x => .bind .trapIf fun _ => ?_
  extract_lets k
  have hk : ∀ x, Keeps (k x) := by
    intro x
    unfold k
    extract_lets c1 k1
    have hk1 : ∀ x, Keeps (k1 x) := fun x => .pure
    refine .get fun s h => ?_
    split
    · exact .bind .trapIf fun _ => .bind .trapIf fun _ => hk1 ()
    split
    · exact .bind .needMember fun _ => hk1 ()
    · exact hk1 ()
  split
  · exact .bind .ownRead fun _ => hk _
  · exact .bind .pure fun _ => hk _

theorem State.memoryWf.setGroup {g : Nat} {x : GroupSlot} {s : State} (h : s.memoryWf) :
    (Machine.setGroup g x s).memoryWf := by
  unfold Machine.setGroup
  extract_lets old k s1 x1
  have hs1 : s1.memoryWf := by
    unfold s1
    clear_value old
    split
    · exact h.drainSlot
    · exact h
  have hx1 : x1.memoryWf := hs1.setSlot
  exact hx1

theorem State.memoryWf.clearGroup {g : Nat} {s : State} (h : s.memoryWf) : (Machine.clearGroup g s).memoryWf := by
  unfold Machine.clearGroup
  refine h.foldl fun s x h1 => ?_
  extract_lets x1
  exact State.memoryWf.ite h1.drainSlot h1

theorem State.memoryWf.takeGroupUpdate {bs : List Byte} {s : State} (h : s.memoryWf) :
    (Machine.takeGroupUpdate bs s).1.memoryWf := by
  unfold Machine.takeGroupUpdate
  extract_lets w g x
  split
  · exact h
  · exact h.setGroup
  · exact h.clearGroup

theorem State.memoryWf.tellMembers {c : Cmd} {phase : Nat} {m : BitVec 1024} {s : State} (h : s.memoryWf) :
    (Machine.tellMembers c phase m s).memoryWf := by
  unfold Machine.tellMembers
  extract_lets ds s1
  have hs1 : s1.memoryWf := h.setCmd
  exact hs1.foldl fun _ _ h1 => h1.send

theorem State.memoryWf.groupStep {c : Cmd} {s : State} (h : s.memoryWf) : (Machine.groupStep c s).1.memoryWf := by
  have tell {phase : Nat} {m : BitVec 1024} {t : State} (ht : t.memoryWf) :
      ((Machine.tellMembers c phase m t, none) : State × Option Nat).1.memoryWf := by
    dsimp only
    exact ht.tellMembers
  unfold Machine.groupStep
  extract_lets g x
  split
  · exact h
  split
  · split
    · split
      · exact h
      split
      · exact h
      · exact tell h.clearGroup
    · exact h
  split
  · split
    · exact h
    split
    · exact h
    · exact tell h
  split
  · split
    · exact h
    · exact tell h.setGroup
  · exact h

theorem State.memoryWf.groupRun {cl n : Nat} {seq : BitVec 32} {s : State} (h : s.memoryWf) :
    (Machine.groupRun cl seq n s).1.memoryWf := by
  induction n generalizing s with
  | zero => exact h
  | succ n ih =>
    unfold Machine.groupRun
    split
    · exact h
    split
    · exact h
    split
    next e => exact h.groupStep.fst e
    next e => exact ih (h.groupStep.fst e)

theorem State.memoryWf.execEgroup {p : Pred} {d a f0 f1 f2 f3 : Reg} {s : State} (h : s.memoryWf) :
    NextForm (Machine.execEgroup p d a f0 f1 f2 f3 s) := by
  refine h.actOpW (.get fun s h => ?_)
  extract_lets cl who k
  have hk : Keeps (k ()) := by
    refine .bind (.modify fun _ h1 => h1.tryAccept) fun _ => .get fun s1 hs1 => ?_
    split
    · exact .pure
    split
    · exact .pure
    next c _ _ =>
      extract_lets r
      have hr : r.1.memoryWf := by
        unfold r
        split
        · exact hs1
        · exact hs1.groupRun
      clear_value r
      split
      · exact .bind (.set hr) fun _ => .pure
      · exact .bind (.set (State.memoryWf.wr (State.memoryWf.modCl hr rfl))) fun _ => .pure
  split
  · exact hk
  · exact .bind .awaitAll fun _ => .bind .template fun _ => .bind .checkEgroup fun _ =>
      .bind (.modify fun _ h1 => h1.modCl rfl) fun _ => hk

theorem State.memoryWf.startFabric {c : Cmd} {s : State} (h : s.memoryWf) : (Machine.startFabric c s).memoryWf :=
  State.memoryWf.ite h.startReduce (State.memoryWf.ite h.startCarry (State.memoryWf.ite h h.startRemote))

end Sys2Proof.Machine
end

section
/-! SUPPORT. The canonical form of the memories (log 4) is kept: collectives. -/

namespace Sys2Proof.Machine

theorem Keeps.checkEcoll {c : Cmd} : Keeps (Machine.checkEcoll c) := by
  unfold Machine.checkEcoll
  refine .bind .needFabric fun x => .bind .trapIf fun _ => .bind .checkCwa fun _ => ?_
  extract_lets z k
  have hk : ∀ x, Keeps (k x) := by
    intro x
    unfold k
    refine .bind .ownRead fun _ => .bind .needMember fun _ => ?_
    extract_lets c1 sz
    exact .bind .trapIf fun _ => .pure
  split
  · exact .bind .trapAt fun _ => hk ()
  split
  · exact .bind .trapAt fun _ => hk ()
  · exact hk ()

theorem State.memoryWf.sendStep {c : Cmd} {s : State} (h : s.memoryWf) : (Machine.sendStep c s).memoryWf := by
  unfold Machine.sendStep
  split
  · exact h
  next x _ _ =>
    extract_lets me x2 n
    refine h.foldl fun s x h1 => ?_
    split
    · exact h1
    · exact State.memoryWf.ite h1 h1.send

theorem State.memoryWf.startColl {c : Cmd} {s : State} (h : s.memoryWf) : (Machine.startColl c s).memoryWf := by
  unfold Machine.startColl
  split
  · exact h
  split
  · exact h
  · exact h.parkItem
  next e =>
    have hs1 := Keeps.liftE (fun _ h1 => h1.vaRead) h e
    exact hs1.setCmd.sendStep

theorem State.memoryWf.execCollectiveStep {cl : Nat} {seq : BitVec 32} {blocks : List CollBlock} {s : State}
    (h : s.memoryWf) :
    NextForm (Machine.execCollectiveStep cl seq blocks s) := by
  unfold Machine.execCollectiveStep
  split
  · exact .next h
  split
  · exact .next h
  split
  · split
    · exact .next h
    · exact .next h.setCmd.sendStep
  · split
    · exact .next h
    · exact .next h.parkItem
    next e => exact .next (State.memoryWf.markDone (Keeps.liftEU (fun _ h1 => h1.vaWrite) h e))

end Sys2Proof.Machine
end

section
/-! SUPPORT. The canonical form of the memories (log 4) is kept: control flow, fences and flags. -/

namespace Sys2Proof.Machine

theorem State.memoryWf.flushingRead {s : State} (h : s.memoryWf) : (Machine.flushingRead s).memoryWf := h

theorem State.memoryWf.execFence {i : BitVec 8} {s : State} (h : s.memoryWf) : NextForm (Machine.execFence i s) := by
  unfold Machine.execFence
  refine h.actOp ?_
  refine .bind .awaitAll fun _ => ?_
  split
  · exact .bind .awaitWack fun _ => .bind .acquireDevice fun _ => .modify fun _ h1 => State.memoryWf.ite h1.flushingRead h1
  · exact .pure

theorem State.memoryWf.discardText {s : State} (h : s.memoryWf) : (Machine.discardText s).memoryWf := by
  unfold Machine.discardText
  split
  · exact h.modCl rfl
  split
  · exact h.setSelfRake
  · exact h

theorem State.memoryWf.execIsync {s : State} (h : s.memoryWf) : NextForm (Machine.execIsync s) := by
  unfold Machine.execIsync
  refine h.actOp ?_
  exact .bind .awaitAll fun _ => .bind .awaitWack fun _ => .modify fun _ h1 => h1.discardText

theorem State.memoryWf.execHalt {i : BitVec 8} {s : State} (h : s.memoryWf) : NextForm (Machine.execHalt i s) := by
  unfold Machine.execHalt
  refine h.actOp ?_
  refine .bind .awaitAll fun _ => .get fun s1 h1 => ?_
  split
  · exact .bind .waitIf fun _ => .set (h1.modCl (by rfl)).soon
  · split
    · exact .set h1.finishItem.setSelfRake
    · exact .pure
  · exact .set (h1.finishItem.modDie rfl)
  · exact .pure

theorem State.memoryWf.execFtst {k : PIdx} {n : BitVec 14} {s : State} (h : s.memoryWf) :
    NextForm (Machine.execFtst k n s) := by
  unfold Machine.execFtst
  refine h.actOp ?_
  exact .bind .acquireDevice fun _ => .modify fun _ h1 => h1.wrK

theorem State.memoryWf.execFset {n : BitVec 14} {s : State} (h : s.memoryWf) : NextForm (Machine.execFset n s) := by
  unfold Machine.execFset
  refine h.actOp ?_
  exact .bind .awaitAll fun _ => .modify fun _ h1 => h1.setFlagOf

theorem State.memoryWf.execFclr {n : BitVec 14} {s : State} (h : s.memoryWf) : NextForm (Machine.execFclr n s) := by
  unfold Machine.execFclr
  refine h.actOp ?_
  exact .bind .awaitAll fun _ => .modify fun _ h1 => h1.setFlagOf

theorem State.memoryWf.execFwait {n : BitVec 14} {s : State} (h : s.memoryWf) : NextForm (Machine.execFwait n s) := by
  unfold Machine.execFwait
  refine h.actOpW ?_
  refine .get fun s1 h1 => ?_
  extract_lets c k
  split
  · exact .bind (.set (h1.modCl rfl)) fun _ => .bind .acquireDevice fun _ => .pure
  · exact .bind (.set (h1.modCl rfl)) fun _ => .pure

theorem Keeps.straddleX {i : Instr} : Keeps (Machine.straddleX i) := by
  unfold Machine.straddleX
  refine .get fun s h => ?_
  split
  · exact .pure
  · exact .trapIf

theorem Keeps.inText {tgt : Int} : Keeps (Machine.inText tgt) := .get fun _ _ => .ite .trap .pure

theorem Keeps.post {o : BrOut} : Keeps (Machine.post o) := by
  unfold Machine.post
  refine .get fun s h => ?_
  split
  · exact .bind .waitIf fun _ => .set (h.modCl rfl)
  · exact .pure

theorem Keeps.goTo {i : Instr} {nx : Nat} : Keeps (Machine.goTo i nx) := .modify fun _ h => h.retireTo

theorem Keeps.jump {i : Instr} {off : Int} {checked : Bool} {f : State → State} (hf : ∀ s, s.memoryWf → (f s).memoryWf) :
    Keeps (Machine.jump i off checked f) := by
  unfold Machine.jump
  refine .get fun s h => ?_
  extract_lets tgt
  exact .bind .inText fun _ => .bind .trapIf fun _ => .bind .straddleX fun _ =>
    .bind (.modify fun _ h1 => hf _ h1) fun _ => .goTo

theorem Keeps.branchK {i : Instr} {neg : Bool} {k : PIdx} {off : Int} : Keeps (Machine.branchK i neg k off) := by
  unfold Machine.branchK
  refine .get fun s h => ?_
  extract_lets taken tgt k1
  have hk1 : ∀ x, Keeps (k1 x) := fun x => .bind .trapIf fun _ => .bind .straddleX fun _ => .bind .post fun _ => .goTo
  split
  · exact .bind .inText fun _ => hk1 _
  · exact .bind .pure fun _ => hk1 _

theorem Keeps.jumpReg {i : Instr} {a : Reg} : Keeps (Machine.jumpReg i a) := by
  unfold Machine.jumpReg
  refine .get fun s h => ?_
  extract_lets tgt
  exact .bind .trapIf fun _ => .bind .inText fun _ => .bind .straddleX fun _ => .bind .post fun _ => .goTo

theorem State.memoryWf.linkTo {i : Instr} {s : State} (h : s.memoryWf) : (Machine.linkTo i s).memoryWf := h.wr

theorem State.memoryWf.setLoops {l : List LoopEntry} {s : State} (h : s.memoryWf) : (Machine.setLoops l s).memoryWf := by
  unfold Machine.setLoops
  split
  · exact h.modCl (by simp)
  · exact h

theorem Keeps.openLoop {i : Instr} {count : State → Nat} {len : Nat} : Keeps (Machine.openLoop i count len) := by
  unfold Machine.openLoop
  refine .get fun s h => ?_
  extract_lets n start stop
  refine .bind .trapIf fun _ => ?_
  refine .bind .trapIf fun _ => .bind .trapIf fun _ => .bind .straddleX fun _ => .bind .post fun _ => ?_
  split
  · exact .goTo
  · exact .bind (.modify fun _ h1 => h1.setLoops) fun _ => .goTo

theorem State.memoryWf.execLexit {neg : Bool} {k : PIdx} {s : State} (h : s.memoryWf) :
    NextForm (Machine.execLexit neg k s) := by
  unfold Machine.execLexit
  extract_lets i
  refine h.perform ?_
  refine .get fun s1 h1 => ?_
  split
  · exact .trap
  extract_lets exits
  refine .bind .straddleX fun _ => .bind .post fun _ => ?_
  split
  · exact .bind (.modify fun _ h2 => h2.setLoops) fun _ => .goTo
  · exact .goTo

theorem State.memoryWf.execMeet {s : State} (h : s.memoryWf) : NextForm (Machine.execMeet s) := by
  unfold Machine.execMeet
  refine h.perform ?_
  exact .bind .straddleX fun _ => .bind .awaitAll fun _ => .modify fun _ h1 => h1.retire

theorem State.memoryWf.execBar {d : Reg} {s : State} (h : s.memoryWf) : NextForm (Machine.execBar d s) := by
  unfold Machine.execBar
  refine h.perform ?_
  refine .bind .straddleX fun _ => .get fun s1 h1 => ?_
  split
  · split
    · exact .bind (.modify fun _ h2 => (h2.modCl (by rfl)).wr) fun _ => .modify fun _ h2 => h2.retire
    split
    · exact .waitFor
    · exact .bind .awaitAll fun _ => .bind .awaitWack fun _ => .modify fun _ h2 => (h2.modCl (by rfl)).noteWait
  · exact .modify fun _ h2 => h2.retire

theorem State.memoryWf.resetSig {s : State} (h : s.memoryWf) : (Machine.resetSig s).memoryWf := by
  unfold Machine.resetSig
  split
  · exact h.modCl (by simp)
  split
  · exact h.setSelfRake
  · exact h

theorem Keeps.sigEntry {n : Nat} : Keeps (Machine.sigEntry n) := by
  unfold Machine.sigEntry
  refine .get fun s h => ?_
  extract_lets o
  split
  · exact .liftA fun _ h1 => h1.vaRead
  · exact .coordLoad

theorem State.memoryWf.execSigchk {n : BitVec 20} {s : State} (h : s.memoryWf) : NextForm (Machine.execSigchk n s) := by
  unfold Machine.execSigchk
  refine h.perform ?_
  refine .get fun s1 h1 => .bind .trapIf fun _ => .bind .straddleX fun _ => .bind .sigEntry fun _ => ?_
  split
  · exact .checkStop
  · exact .bind (.modify fun _ h2 => h2.resetSig) fun _ => .modify fun _ h2 => h2.retire

end Sys2Proof.Machine
end

section
/-! SUPPORT. The canonical form of the memories (log 4) is kept: message rings and rake threads. -/

namespace Sys2Proof.Machine

theorem State.memoryWf.ringDeliver {c k : Nat} {msg : List Byte} {s : State} (h : s.memoryWf) :
    (Machine.ringDeliver c k msg s).1.memoryWf := by
  unfold Machine.ringDeliver
  extract_lets r need pos pad s1 r1
  have hs1 : s1.memoryWf := State.memoryWf.ite h (h.sramLand.modCl rfl)
  split
  · exact h.modCl rfl
  split
  · exact h
  split
  · exact h
  split
  · exact hs1
  · exact hs1.sramLand.modCl rfl

theorem State.memoryWf.tryInbox {c : Nat} {l : List (Nat × List Byte)} {stuck : List Nat} {s : State} (h : s.memoryWf) :
    (Machine.tryInbox c l stuck s).1.memoryWf := by
  induction l generalizing stuck s with
  | nil => exact h
  | cons m l ih =>
    unfold Machine.tryInbox
    split
    · exact ih h
    split
    next e => exact ih (h.ringDeliver.fst e)
    next e => exact ih ((h.ringDeliver.fst e).modCl rfl)
    next e => exact ih (h.ringDeliver.fst e)

theorem State.memoryWf.drainInbox {c : Nat} {s : State} (h : s.memoryWf) : (Machine.drainInbox c s).memoryWf := by
  unfold Machine.drainInbox
  split
  · exact h
  extract_lets q
  have hq : q.1.memoryWf := h.tryInbox
  exact hq.modCl rfl

theorem Keeps.ownRing {a : Reg} : Keeps (Machine.ownRing a) := by
  unfold Machine.ownRing
  refine .get fun s h => ?_
  extract_lets v r
  exact .ite .trap .pure

theorem Keeps.dropPads {k : Nat} : Keeps (Machine.dropPads k) := by
  unfold Machine.dropPads
  refine .get fun s h => .bind .awaitOwed fun _ => .get fun s1 h1 => ?_
  extract_lets x1 r
  exact .bind (.set (h1.modCl rfl)) fun _ => .pure

theorem State.memoryWf.sleepAs {st : RakeState} {remain : Option Nat} {s : State} (h : s.memoryWf) :
    (Machine.sleepAs st remain s).memoryWf := by
  unfold Machine.sleepAs
  split
  · exact h.setSelfRake
  · exact h

theorem State.memoryWf.execRecv {d a : Reg} {s : State} (h : s.memoryWf) : NextForm (Machine.execRecv d a s) := by
  unfold Machine.execRecv
  refine h.actOpW ?_
  refine .bind .ownRing fun _ => .bind .dropPads fun _ => ?_
  split
  · exact .bind (.modify fun _ h1 => h1.sleepAs) fun _ => .pure
  · exact .bind (.modify fun _ h1 => h1.sleepAs.wr) fun _ => .pure

theorem State.memoryWf.execRecvt {p : Pred} {d a : Reg} {b : RegOrImm} {s : State} (h : s.memoryWf) :
    NextForm (Machine.execRecvt p d a b s) := by
  unfold Machine.execRecvt
  refine h.actOpW ?_
  refine .bind .ownRing fun _ => .get fun s1 h1 => ?_
  extract_lets n left
  refine .bind .trapIf fun _ => .bind .dropPads fun _ => ?_
  split
  · exact .bind (.modify fun _ h2 => h2.sleepAs.wr) fun _ => .pure
  split
  · exact .bind (.modify fun _ h2 => h2.sleepAs.wr) fun _ => .pure
  · exact .bind (.modify fun _ h2 => h2.sleepAs) fun _ => .pure

theorem State.memoryWf.execRecvtTimeout {cl thr : Nat} {s : State} (h : s.memoryWf) :
    NextForm (Machine.execRecvtTimeout cl thr s) :=
  .next (h.modCl (by dsimp only; split <;> rfl))

theorem State.memoryWf.execRpeek {d a : Reg} {s : State} (h : s.memoryWf) : NextForm (Machine.execRpeek d a s) := by
  unfold Machine.execRpeek
  refine h.actOp ?_
  exact .bind .ownRing fun _ => .bind .dropPads fun _ => .modify fun _ h1 => h1.wr

theorem State.memoryWf.execRadv {a b : Reg} {s : State} (h : s.memoryWf) : NextForm (Machine.execRadv a b s) := by
  unfold Machine.execRadv
  refine h.actOp ?_
  refine .bind .ownRing fun _ => .get fun s1 h1 => ?_
  extract_lets r
  exact .bind .trapIf fun _ => .set (h1.modCl (by rfl)).drainInbox

theorem State.memoryWf.execRsend {p : Pred} {d a : Reg} {b : RegOrImm} {s : State} (h : s.memoryWf) :
    NextForm (Machine.execRsend p d a b s) := by
  unfold Machine.execRsend
  refine h.actOpW ?_
  refine .get fun s1 h1 => ?_
  extract_lets dst src x
  refine .bind .liftC fun _ => .bind .trapIf fun _ => .bind .trapIf fun _ => ?_
  split
  · exact .trapAt
  refine .bind .awaitOwed fun _ => ?_
  extract_lets n
  refine .bind .trapIf fun _ => ?_
  split
  · exact .trapAt
  refine .bind .awaitOwed fun _ => ?_
  split
  · exact .trapAt
  refine .bind .awaitHome fun _ => .bind .waitIf fun _ => .get fun s2 h2 => ?_
  split
  next e3 => exact .bind (.set ((h2.ringDeliver.fst e3).wr)) fun _ => .pure
  next e3 => exact .bind (.set ((h2.ringDeliver.fst e3).wr)) fun _ => .pure
  next e3 => exact .bind (.set ((h2.ringDeliver.fst e3).wr)) fun _ => .pure
  next e3 => exact .bind (.set (h2.ringDeliver.fst e3)) fun _ => .pure

theorem State.memoryWf.execRbind {d a b : Reg} {s : State} (h : s.memoryWf) : NextForm (Machine.execRbind d a b s) := by
  unfold Machine.execRbind
  refine h.actOp ?_
  refine .get fun s1 h1 => ?_
  extract_lets k v old
  exact .bind .trapIf fun _ => .set (h1.modCl (by rfl)).wr

theorem State.memoryWf.execKwake {a : Reg} {s : State} (h : s.memoryWf) : NextForm (Machine.execKwake a s) := by
  unfold Machine.execKwake
  refine h.actOp ?_
  refine .get fun s1 h1 => ?_
  extract_lets t
  exact .bind .trapIf fun _ => .set (h1.modCl rfl)

theorem State.memoryWf.execKsleep {s : State} (h : s.memoryWf) : NextForm (Machine.execKsleep s) := by
  unfold Machine.execKsleep
  refine h.actOpW ?_
  refine .get fun s1 h1 => ?_
  split
  · split
    · exact .bind (.set h1.setSelfRake) fun _ => .pure
    · exact .bind (.set h1.setSelfRake) fun _ => .pure
  · exact .pure

theorem State.memoryWf.ringArrive {ctx : Option Nat} {cl ring : Nat} {msg : List Byte} {s : State} (h : s.memoryWf) :
    (Machine.ringArrive ctx cl ring msg s).memoryWf := by
  unfold Machine.ringArrive
  split
  · exact h
  · extract_lets saved
    split
    · exact ⟨h.hbm, h.clusters, h.dies, Mem.wf_map h.spilled fun p => by split <;> rfl, h.mailboxes⟩
    · exact (h.modCl (by rfl)).drainInbox

end Sys2Proof.Machine
end

section
/-! SUPPORT. The canonical form of the memories (log 4) is kept: routing rounds. -/

namespace Sys2Proof.Machine

theorem Keeps.checkEroute {c : Cmd} : Keeps (Machine.checkEroute c) := by
  unfold Machine.checkEroute
  refine .get fun s h => .bind .trapIf fun x => .bind .trapIf fun _ => .bind .checkCwa fun _ => ?_
  refine .bind .checkSide fun _ => .bind .checkWindow fun _ => .bind .ownRead fun _ => ?_
  extract_lets c1 k
  have hk : ∀ x, Keeps (k x) := fun x => .pure
  refine .bind .trapIf fun _ => ?_
  split
  · exact .bind .trap fun _ => hk ()
  · exact hk ()

theorem State.memoryWf.setRound {s : State} {die : Nat} {r : Round} (h : s.memoryWf) :
    (Machine.setRound s die r).memoryWf :=
  (h.modDie rfl)

theorem State.memoryWf.sendRound {c : Cmd} {type p : Nat} {m : RoundMsg} {s : State} (h : s.memoryWf) :
    (Machine.sendRound c type p m s).memoryWf :=
  h.send

theorem State.memoryWf.runPasses {c : Cmd} {n : Nat} {r : Round} {s : State} (h : s.memoryWf) :
    (Machine.runPasses c n r s).memoryWf := by
  induction n generalizing r s with
  | zero =>
    refine h.setRound.foldl fun s p h1 => ?_
    exact h1.sendRound
  | succ n ih =>
    unfold Machine.runPasses
    extract_lets es s1 r1
    have hs1 : s1.memoryWf := by
      refine h.foldl fun s e h1 => ?_
      split
      · exact h1
      · exact h1.sendRound
    split
    · exact ih hs1
    · exact hs1.setRound

theorem State.memoryWf.afterReply {c : Cmd} {r : Round} {s : State} (h : s.memoryWf) :
    (Machine.afterReply c r s).memoryWf := by
  unfold Machine.afterReply
  split
  · extract_lets r1
    exact h.runPasses
  · exact h.setRound

theorem State.memoryWf.beginPasses {c : Cmd} {s : State} (h : s.memoryWf) : (Machine.beginPasses c s).memoryWf := by
  unfold Machine.beginPasses
  split
  · exact h
  extract_lets opened
  exact State.memoryWf.ite h h.runPasses

theorem State.memoryWf.owedRow {c : Cmd} {e : Nat} {l : Nat × Nat} {s : State} (h : s.memoryWf) :
    (Machine.owedRow c e l s).memoryWf :=
  h.oweHome

theorem State.memoryWf.answer {c : Cmd} {m : RoundMsg} {g b0 : Nat} {full bad : Bool} {s : State} (h : s.memoryWf) :
    (Machine.answer c m g b0 full bad s).memoryWf :=
  h.sendRound

theorem State.memoryWf.grant {c : Cmd} {m : RoundMsg} {r r1 : Round} {s t : State} (h : s.memoryWf)
    (e : Machine.grant c m r s = some (r1, t)) : t.memoryWf := by
  unfold Machine.grant at e
  split at e
  · cases e; exact h.answer
  split at e
  · cases e; exact h.answer
  dsimp only at e
  split at e <;> cases e
  exact State.memoryWf.answer (h.foldl fun _ _ h1 => h1.owedRow)

theorem State.memoryWf.grantAll {c : Cmd} {r : Round} {s : State} {l : List RoundMsg} (h : s.memoryWf) :
    (Machine.grantAll c r s l).2.1.memoryWf := by
  induction l generalizing r s with
  | nil => exact h
  | cons m l ih =>
    unfold Machine.grantAll
    split
    · exact h
    next e => exact ih (h.grant e)

theorem State.memoryWf.serve {c : Cmd} {n : Nat} {s : State} (h : s.memoryWf) : (Machine.serve c n s).memoryWf := by
  induction n generalizing s with
  | zero => exact h
  | succ n ih =>
    unfold Machine.serve
    split
    · exact h
    split
    · exact h
    split
    · exact (State.memoryWf.grantAll h).setRound
    · extract_lets refused s0 r0 now
      have hs0 : s0.memoryWf := h.foldl fun _ _ h1 => h1.answer
      split
      · exact hs0.setRound
      · exact ih (State.memoryWf.grantAll hs0).setRound

theorem State.memoryWf.meetParams {c : Cmd} {m : RoundMsg} {s : State} (h : s.memoryWf) :
    (Machine.meetParams c m s).memoryWf := by
  unfold Machine.meetParams
  split
  · exact h
  · exact State.memoryWf.ite h h.setRound.logDie

theorem State.memoryWf.takeMsg {type die ctx : Nat} {m : RoundMsg} {s : State} (h : s.memoryWf) :
    (Machine.takeMsg type die ctx m s).memoryWf := by
  unfold Machine.takeMsg
  split
  · exact h
  split
  · exact h.modDie rfl
  split
  · exact h
  split
  · split
    · exact h
    extract_lets r1
    exact h.afterReply
  extract_lets s1
  have hs1 : s1.memoryWf := h.meetParams
  split
  · exact hs1
  split
  · exact hs1.setRound.serve.beginPasses
  · exact hs1.setRound.serve
  · exact hs1.setRound

theorem State.memoryWf.openRound {c : Cmd} {s : State} (h : s.memoryWf) : (Machine.openRound c s).memoryWf := by
  unfold Machine.openRound
  extract_lets r s1 s2 mine s3
  have hs1 : s1.memoryWf := h.setCmd.modDie rfl
  have hs2 : s2.memoryWf := State.memoryWf.ite (hs1.foldl fun _ _ h1 => h1.sendRound) hs1
  have hs3 : s3.memoryWf := hs2.modDie rfl
  exact hs3.foldl fun _ _ h1 => h1.takeMsg

theorem State.memoryWf.landToken {die ctx num from_ e row j : Nat} {tag : BitVec 32} {bs : List Byte} {s : State}
    (h : s.memoryWf) :
    (Machine.landToken die ctx num from_ e row j tag bs s).1.memoryWf := by
  unfold Machine.landToken
  split
  · exact h
  split
  · exact h
  split
  · exact h
  split
  · exact h.logDie
  extract_lets l
  split
  · exact h
  split
  · exact h
  split
  · exact h
  extract_lets f1 s1 more
  have hs1 : s1.memoryWf := (h.congr (by rfl)).landFill
  split
  · exact hs1
  · exact hs1.setRound

theorem State.memoryWf.markSent {die : Nat} {r : Round} {x : RSlot} {s : State} (h : s.memoryWf) :
    (Machine.markSent die r x s).memoryWf := by
  unfold Machine.markSent
  split
  · exact h
  · exact h.setRound

theorem State.memoryWf.landRow {die ctx num p e row : Nat} {tag : BitVec 32} {ls : List (List Byte × Nat)} {s : State}
    (h : s.memoryWf) : (ls.foldl (fun (acc : State × Bool) (l : List Byte × Nat) =>
      match Machine.landToken die ctx num p e row l.2 tag l.1 acc.1 with
      | (s1, k) => (s1, acc.2 && k == 0)) (s, true)).1.memoryWf := by
  generalize true = b
  induction ls generalizing s b with
  | nil => exact h
  | cons l ls ih => exact ih h.landToken _

theorem State.memoryWf.sendRows {c : Cmd} {s : State} (h : s.memoryWf) : (Machine.sendRows c s).memoryWf := by
  unfold Machine.sendRows
  split
  · exact h
  refine h.foldl fun s x h1 => ?_
  split
  · split
    · exact h1
    split
    · exact h1
    · exact h1.parkItem
    split
    · split
      · exact h1.parkItem
      · extract_lets out
        have hout : out.1.memoryWf := h1.landRow
        exact State.memoryWf.ite hout.markSent h1
    · extract_lets s1
      have hs1 : s1.memoryWf := h1.foldl fun _ _ h2 => h2.send
      exact hs1.setCmd.markSent
  · exact h1

theorem State.memoryWf.pumpRound {c : Cmd} {s : State} (h : s.memoryWf) : (Machine.pumpRound c s).memoryWf :=
  h.serve.beginPasses.sendRows

theorem State.memoryWf.startRoute {c : Cmd} {s : State} (h : s.memoryWf) : (Machine.startRoute c s).memoryWf :=
  State.memoryWf.ite h.pumpRound (State.memoryWf.ite h.openRound h)

theorem Keeps.readTable {w : Who} {a n : Nat} : Keeps (Machine.readTable w a n) := by
  unfold Machine.readTable
  refine .bind ?_ fun x => ?_
  · refine .mapM fun x => ?_
    extract_lets lo
    exact .liftE fun _ h => h.vaRead
  · exact .pure

theorem State.memoryWf.execPlacementTableRead {die ctx rd : Nat} {s : State} (h : s.memoryWf) :
    NextForm (Machine.execPlacementTableRead die ctx rd s) := by
  unfold Machine.execPlacementTableRead
  split
  · exact .next h
  split
  · exact .next h
  split
  · exact .next h.pumpRound
  split
  · exact .next h
  split
  · exact .next h
  · exact .next h.parkOwn
  next e4 =>
    extract_lets table r1 me mine bins wrong s2
    have hs2 : s2.memoryWf := ((Keeps.readTable h) e4).setRound
    exact .next ((hs2.foldl fun _ _ h1 => h1.logDie).pumpRound)

theorem Keeps.tokenScores {c : Cmd} {t : Nat} : Keeps (Machine.tokenScores c t) := by
  unfold Machine.tokenScores
  refine .bind .run fun x => .mapM fun x => .bind .fetched fun _ => ?_
  extract_lets k
  have hk : ∀ x, Keeps (k x) := fun x => .pure
  split
  · exact .bind .elemRead fun _ => hk _
  · exact .bind .pure fun _ => hk _

theorem State.memoryWf.execTokenRanking {die ctx rd : Nat} {s : State} (h : s.memoryWf) :
    NextForm (Machine.execTokenRanking die ctx rd s) := by
  unfold Machine.execTokenRanking
  split
  · exact .next h
  split
  · exact .next h
  extract_lets t k
  split
  · exact .next h.pumpRound
  split
  · exact .next h.parkItem
  · exact .next h
  next e3 =>
    split
    · exact .next (((Keeps.requestItem h) e3).parkItem)
    · exact .next ((Keeps.requestItem h) e3)
    next e4 =>
      extract_lets val order cands r1
      exact .next (((((Keeps.tokenScores ((Keeps.requestItem h) e3)) e4).setRound).markDone).pumpRound)

theorem State.memoryWf.deadline {c : Cmd} {r : Round} {s : State} (h : s.memoryWf) : (Machine.deadline c r s).memoryWf := by
  unfold Machine.deadline
  extract_lets unopened missing s1 s2
  have hs1 : s1.memoryWf := State.memoryWf.ite h (h.setRound.foldl fun _ _ h1 => h1.logDie)
  have hs2 : s2.memoryWf := hs1.serve
  split
  · exact hs1
  extract_lets silent r2
  exact State.memoryWf.ite hs2 (State.memoryWf.ite hs2.afterReply hs2.setRound.beginPasses)

theorem State.memoryWf.execRoundDeadline {die ctx rd : Nat} {s : State} (h : s.memoryWf) :
    NextForm (Machine.execRoundDeadline die ctx rd s) := by
  unfold Machine.execRoundDeadline
  split
  · exact .next h
  split
  · exact .next h
  · exact .next (State.memoryWf.ite h.deadline h)

theorem Keeps.closingWrites {c : Cmd} {r : Round} : Keeps (Machine.closingWrites c r) := by
  unfold Machine.closingWrites
  extract_lets tbase entry part
  split
  · exact .pure
  · exact .bind .coordPut fun _ => .coordPut

theorem State.memoryWf.execBinClose {die ctx rd : Nat} {s : State} (h : s.memoryWf) :
    NextForm (Machine.execBinClose die ctx rd s) := by
  unfold Machine.execBinClose
  split
  · exact .next h
  split
  · exact .next h
  split
  · exact .next h.pumpRound
  extract_lets s0 hints msg
  have hs0 : s0.memoryWf := h.dropFills
  split
  · exact .next h
  · exact .next h.parkOwn
  next e3 =>
    extract_lets s2 s3 s4
    have hs2 : s2.memoryWf := ((Keeps.closingWrites hs0) e3).foldl fun _ _ h1 => h1.soon
    have hs3 : s3.memoryWf := State.memoryWf.ite hs2.setFlagOf hs2
    have hs4 : s4.memoryWf := State.memoryWf.ite hs3.ringArrive hs3
    exact .next hs4.setRound

theorem State.memoryWf.retireRound {c : Cmd} {r : Round} {s : State} (h : s.memoryWf) :
    (Machine.retireRound c r s).memoryWf := by
  unfold Machine.retireRound
  split
  · exact h.pumpRound
  · extract_lets writes
    have hw : Keeps writes := .bind (.forM fun _ => .coordPut) fun _ => .coordPut
    split
    · exact h
    · exact h.parkItem
    next e =>
      extract_lets s2
      have hs2 : s2.memoryWf := State.memoryWf.retireCmd (hw h e)
      exact .ite hs2 (hs2.modDie rfl)

theorem State.memoryWf.execRoundRetirement {die ctx rd : Nat} {s : State} (h : s.memoryWf) :
    NextForm (Machine.execRoundRetirement die ctx rd s) := by
  unfold Machine.execRoundRetirement
  split
  · exact .next h
  split
  · exact .next h
  · exact .next h.retireRound

theorem State.memoryWf.forgetRounds {keep : Round → Bool} {s : State} (h : s.memoryWf) :
    (Machine.forgetRounds keep s).memoryWf :=
  h.foldl fun _ _ h1 => h1.modDie rfl

end Sys2Proof.Machine
end

section
/-! SUPPORT. The canonical form of the memories (log 4) is kept: packets that arrive. -/

namespace Sys2Proof.Machine

theorem Keeps.landing {ctx cl off n a : Nat} : Keeps (Machine.landing ctx cl off n a) :=
  .get fun _ _ => .ite (.ite .holdOn .parkAt) (.ite .parkAt (.ite .holdOn .pure))

theorem Keeps.ingressRead {ctx a n : Nat} : Keeps (Machine.ingressRead ctx a n) := by
  unfold Machine.ingressRead
  extract_lets w
  refine .bind ?_ fun x => ?_
  · refine .mapM fun x => .bind (.liftE fun _ h => h.translate) fun _ => ?_
    split
    · exact .bind .landing fun _ => .bind .eccRows fun _ => .get fun s h => .pure
    · exact .liftE fun _ h => h.targetRead
  · exact .pure

theorem Keeps.ingressWrite {ctx : Nat} {tag : BitVec 32} {a : Nat} {bs : List Byte} :
    Keeps (Machine.ingressWrite ctx tag a bs) := by
  unfold Machine.ingressWrite
  refine .forM fun x => ?_
  extract_lets w part
  refine .bind (.liftE fun _ h => h.translate) fun _ => ?_
  split
  · refine .bind .landing fun _ => .get fun s h => ?_
    split
    · exact .parkAt
    · exact .bind .eccRows fun _ => .modify fun _ h1 => h1.sramWrite.countAll
  · exact .parkAt
  · exact .liftEU fun _ h => h.targetWrite

theorem Keeps.ingressUpdate {ctx a n : Nat} {f : Nat → Nat} : Keeps (Machine.ingressUpdate ctx a n f) := by
  unfold Machine.ingressUpdate
  extract_lets w
  refine .bind (.liftE fun _ h => h.translate) fun _ => ?_
  split
  · refine .bind .landing fun _ => .bind .eccRows fun _ => .get fun s h => ?_
    extract_lets old
    exact .bind (.set h.sramWrite) fun _ => .pure
  · exact .parkAt
  refine .bind (.liftE fun _ h => h.updateRead) fun _ => ?_
  split
  · exact .bind (.liftEU fun _ h => h.targetWrite) fun _ => .pure

theorem State.memoryWf.refuse {p : Packet} {status : Nat} {s : State} (h : s.memoryWf) :
    (Machine.refuse p status s).memoryWf := by
  unfold Machine.refuse
  extract_lets x
  have hx : x.memoryWf := h.send
  exact hx

theorem State.memoryWf.refuseKey {p : Packet} {s : State} (h : s.memoryWf) :
    (Machine.refuseKey p s).memoryWf := h.refuse.count

theorem State.memoryWf.logArrival {p : Packet} {ctx : Nat} {cause : BitVec 8} {a xtra : Nat} {s : State} (h : s.memoryWf) :
    (Machine.logArrival p ctx cause a xtra s).memoryWf :=
  h.logFault

theorem State.memoryWf.logScalar {cl who status addr : Nat} {s : State} (h : s.memoryWf) :
    (Machine.logScalar cl who status addr s).memoryWf := by
  unfold Machine.logScalar
  split
  · extract_lets e2
    exact h.logFault
  · exact h

theorem State.memoryWf.logStatus {c : Cmd} {status addr : Nat} {s : State} (h : s.memoryWf) :
    (Machine.logStatus c status addr s).memoryWf := by
  unfold Machine.logStatus
  split
  · exact h.logCmd
  · exact h

theorem State.memoryWf.takeAck {p : Packet} {s : State} (h : s.memoryWf) : OptForm (Machine.takeAck p s) := by
  unfold Machine.takeAck
  extract_lets cl status about cs e k pos
  split
  · exact .some (h.foldl fun _ _ h1 => State.memoryWf.ite h1.logStatus (State.memoryWf.ite h1.setCmd
      h1.endReduce.logStatus))
  split
  · exact .some h.logFault
  split
  · split
    · exact .some (h.modCl (by rfl)).logScalar
    · exact .some (h.modCl (by rfl)).logScalar
  split
  · exact .some h
  split
  · exact .some h.setCmd.logStatus
  extract_lets c1 s1
  have hs1 : s1.memoryWf := h.setCmd.logStatus
  split
  · exact .some hs1
  split
  next e7 => exact .some (((Keeps.returnOld hs1) e7).fillUp)
  · exact .some hs1.parkItem
  · exact .none

theorem State.memoryWf.takeData {p : Packet} {s : State} (h : s.memoryWf) : (Machine.takeData p s).memoryWf := by
  unfold Machine.takeData
  extract_lets cl k
  split
  · exact h.modCl rfl
  split
  · exact h
  · exact h.setCmd

theorem State.memoryWf.landCarry {ctx cl line : Nat} {tag : BitVec 32} {bs : List Byte} {s : State} (h : s.memoryWf) :
    (Machine.landCarry ctx cl line tag bs s).memoryWf := by
  unfold Machine.landCarry
  extract_lets s1 s2
  have hs1 : s1.memoryWf := h
  have hs2 : s2.memoryWf := hs1.sramLand.setOwed
  exact State.memoryWf.ite hs2 hs2.countAll

theorem State.memoryWf.takeCarry {p : Packet} {s : State} (h : s.memoryWf) : OptForm (Machine.takeCarry p s) := by
  unfold Machine.takeCarry
  extract_lets n lines tag rest done
  split
  · exact .some h.refuseKey
  next x _ _ _ =>
    split
    · exact .some h.refuse
    next e1 =>
      split
      · extract_lets taken own first s2 s3 s4 left here s5
        have hs2 : s2.memoryWf := by
          unfold s2
          refine (h.translate e1).foldl fun s x h1 => ?_
          extract_lets f
          exact (h1.congr (by rfl)).setOwed
        have hs3 : s3.memoryWf := hs2.foldl fun _ _ h1 => h1.landCarry
        have hs4 : s4.memoryWf := State.memoryWf.ite hs3.setFlagOf hs3
        have hs5 : s5.memoryWf := hs4
        split
        · exact .some ((h.translate e1).refuse)
        split
        · exact .some ((h.translate e1).refuse)
        split
        · exact .some ((h.translate e1).refuse)
        split
        · exact .some ((h.translate e1).refuse)
        split
        · exact .some ((h.translate e1).refuse)
        split
        · exact .some (((h.translate e1).logArrival).refuse)
        split
        · exact .none
        · exact .some hs5.send
      · exact .some ((h.translate e1).refuse)

theorem Keeps.servePull {p : Packet} {n : Nat} : Keeps (Machine.servePull p n) := by
  unfold Machine.servePull
  refine .get fun s h => ?_
  split
  · exact .set h.refuse
  extract_lets x2 z word
  split
  · exact .set h.refuse
  split
  · exact .set h.refuseKey
  refine .bind .ingressRead fun _ => ?_
  extract_lets vs
  exact .modify fun _ h1 => h1.countGroup.send

theorem State.memoryWf.parkPacket {p : Packet} {s : State} (h : s.memoryWf) : (Machine.parkPacket p s).memoryWf :=
  State.memoryWf.ite (h.congr rfl) (h.congr rfl)

theorem State.memoryWf.snagged {p : Packet} {ctx : Nat} {e : Snag} {s : State} (h : s.memoryWf) :
    OptForm (Machine.snagged p ctx e s) := by
  unfold Machine.snagged
  split
  · exact .none
  split
  · exact .some h.raiseCheck.refuse
  split
  · split
    · exact .none
    · exact .some h.parkPacket.logArrival
  · exact .some h.logArrival.refuse

theorem State.memoryWf.takePlacement {p : Packet} {s : State} (h : s.memoryWf) : (Machine.takePlacement p s).memoryWf := by
  unfold Machine.takePlacement
  extract_lets w places own far l x q
  split
  · exact h
  · exact State.memoryWf.ite (h.congr rfl) h.modGang
  · split
    · exact h
    split
    · exact h
    extract_lets s1 x6
    have hs1 : s1.memoryWf := h.modGang
    exact State.memoryWf.ite hs1.send hs1
  · exact h.modGang
  · exact State.memoryWf.ite h (h.congr rfl)
  · exact State.memoryWf.ite h (h.congr rfl)
  · exact h

theorem State.memoryWf.takeMarker {p : Packet} {s : State} (h : s.memoryWf) : (Machine.takeMarker p s).memoryWf := by
  unfold Machine.takeMarker
  split
  · exact h.send
  split
  · exact h.slotReturned
  · exact h
  split
  · exact h.modGang
  · exact h

theorem State.memoryWf.deliverWhole {p : Packet} {s : State} (h : s.memoryWf) : OptForm (Machine.deliverWhole p s) := by
  unfold Machine.deliverWhole
  extract_lets access ofGang
  have hacc {r : Right} {n : Nat} {f : Nat → Nat → EAct (List Byte)} {k : State → List Byte → State} (hf : ∀ c a,
    Keeps (f c a))
      (hk : ∀ s bs, s.memoryWf → (k s bs).memoryWf) : OptForm (access r n f k) := by
    unfold access
    split
    · exact .some h.refuse
    split
    · exact .some h.refuseKey
    split
    next e => exact .some (hk _ _ (hf _ _ h e))
    · exact h.snagged
  have hgang {f : Nat → State} (hf : ∀ g, (f g).memoryWf) : OptForm (ofGang f) := by
    refine .some ?_
    split
    · exact hf _
    · exact h
  clear_value access ofGang
  split
  · exact hacc (fun _ _ => .ingressRead) fun _ _ h1 => h1.send
  · exact .some h.takeData
  · exact hacc (fun _ _ => .bind .ingressWrite fun _ => .pure) fun _ _ h1 => h1.send
  · exact hacc (fun _ _ => .bind .ingressUpdate fun _ => .pure) fun _ _ h1 => h1.send
  · refine hacc (fun _ _ => .bind (.liftE fun _ h1 => h1.translate) fun x => ?_) fun _ _ h1 => h1.send
    split
    · exact .bind .landing fun _ => .bind (.modify fun _ h1 => h1.setFlagOf) fun _ => .pure
    · exact .parkAt
  · exact h.takeAck
  · exact h.takeCarry
  · exact .some h.takeMsg
  · split
    · exact .none
    next e => exact .some (h.landToken.fst e).send
    next e => exact .some ((h.landToken.fst e).logArrival).refuse
    next e => exact .some (h.landToken.fst e).refuse
  · split
    · exact .some h.refuse
    · exact .some h.contribute
  · split
    next e => exact .some (Keeps.servePull h e)
    · exact h.snagged
  · split
    · exact .some h.refuse
    · exact .some (h.foldl fun _ _ h1 => h1.setCmd)
  · split
    · exact .some h.refuse
    · exact .some h.takeNotice
  · split
    next e => exact .some (h.takeGroupUpdate.fst e).send
  · exact hgang fun _ => h.modGang
  · split
    · exact .some h
    · split
      · exact .some h.soon
      split
      · exact .none
      · exact .some h.modGang
  · exact hgang fun _ => h.takeSweep
  · exact .some h.takePlacement
  · exact .some h.takeMarker
  · exact .some h
  · exact .some h

theorem State.memoryWf.lateOf {p : Packet} {f : State → State} {s t : State} (h : t.memoryWf)
    (e : Machine.lateOf s p = some f) : (f t).memoryWf := by
  unfold Machine.lateOf at e
  dsimp only at e
  have hdrop : (State.count { t with dropped := t.dropped + 1 } 0 136 1).memoryWf := State.memoryWf.count (h.congr rfl)
  split at e <;> simp only [reduceCtorEq, Option.ite_none_right_eq_some, Option.some.injEq] at e <;> obtain ⟨-, rfl⟩ := e
  -- Tokens, pull loads, contributions and updates of a group are refused; permits and the rest are dropped.
  · exact h.refuseKey
  · exact h.refuseKey
  · exact h.refuseKey
  · exact h.refuseKey
  · exact hdrop
  · exact hdrop

theorem State.memoryWf.deliverPacket {p : Packet} {s : State} (h : s.memoryWf) : OptForm (Machine.deliverPacket p s) := by
  unfold Machine.deliverPacket
  split
  next e => exact .some (h.lateOf e)
  split
  · exact .some (h.congr rfl)
  split
  · exact .none
  split
  · exact h.deliverWhole
  extract_lets n ps
  split
  · exact .some (h.congr rfl)
  · exact State.memoryWf.deliverWhole (h.congr rfl)

theorem State.memoryWf.arrive {p : Packet} {s : State} (h : s.memoryWf) : (Machine.arrive p s).memoryWf := by
  unfold Machine.arrive
  split
  next e => exact OptForm.ite .none h.deliverPacket e
  · exact h.congr rfl

theorem State.memoryWf.policed {p : Packet} {s : State} (h : s.memoryWf) : (Machine.policed p s).1.memoryWf := by
  unfold Machine.policed
  split
  · exact h
  extract_lets x
  split
  · exact h.setPort
  · exact h

theorem State.memoryWf.execPacketArrival {p : Packet} {s : State} (h : s.memoryWf) :
    NextForm (Machine.execPacketArrival p s) := by
  unfold Machine.execPacketArrival
  split
  · exact .next h
  split
  · exact .next h.arrive
  refine .next ?_
  split
  next e2 => exact (h.policed.fst e2).congr rfl

theorem State.memoryWf.bounce {p : Packet} {s : State} (h : s.memoryWf) : (Machine.bounce p s).memoryWf := by
  unfold Machine.bounce
  extract_lets about back back1
  split
  · exact State.memoryWf.ite (h.congr rfl) h.send
  · exact h.send
  · exact h.send
  · exact h.send
  · exact h.send
  · exact h.send
  · exact h.send
  · exact h.send
  · exact h.send
  · exact h.send
  · exact State.memoryWf.ite (h.congr rfl) h.send
  · exact h.send

theorem State.memoryWf.forward {p : Packet} {s : State} (h : s.memoryWf) : (Machine.forward p s).memoryWf := by
  unfold Machine.forward
  extract_lets before s0 here out s1 s2
  have hs0 : s0.memoryWf := h.congr rfl
  have hs1 : s1.memoryWf := hs0.foldl fun _ _ h1 => h1.sendOut
  have hs2 : s2.memoryWf := hs1.foldl fun _ _ h1 => h1.bounce
  clear_value s1 s2
  split
  · exact h
  split
  · split
    · exact h
    split
    · split
      next e => exact OptForm.ite .none hs2.deliverPacket e
      · exact hs2.congr rfl
    · exact hs2
  split
  · split
    · exact h
    · cases e : Machine.deliverPacket p s0 with
      | none => exact h
      | some t => exact hs0.deliverPacket e
  split
  · exact hs0.bounce
  · exact .ite hs0.sendOut h

theorem State.memoryWf.clearPark {p : Packet} {s : State} (h : s.memoryWf) : (Machine.clearPark p s).memoryWf :=
  State.memoryWf.ite (h.congr rfl) (h.congr rfl)

theorem State.memoryWf.releaseParked {blocked : List Nat} {kept l : List Packet} {s : State} (h : s.memoryWf) :
    (Machine.releaseParked blocked kept l s).2.memoryWf := by
  induction l generalizing blocked kept s with
  | nil => exact h
  | cons p l ih =>
    unfold Machine.releaseParked
    split
    · exact ih h
    split
    · exact ih h
    next e =>
      have h1 := h.deliverPacket e
      split
      · exact ih h1
      · exact ih (.ite h h1.clearPark)

theorem State.memoryWf.execParkBufferRelease {jd : Nat} {s : State} (h : s.memoryWf) :
    NextForm (Machine.execParkBufferRelease jd s) := by
  unfold Machine.execParkBufferRelease
  split
  · split
    next e1 => exact .next (((h.congr (by rfl)).releaseParked.snd e1).congr rfl)
  split
  next e1 => exact .next (((h.congr (by rfl)).releaseParked.snd e1).congr rfl)

end Sys2Proof.Machine
end

section
/-! SUPPORT. The canonical form of the memories (log 4) is kept: what the engines do of their own accord. -/

namespace Sys2Proof.Machine

theorem State.memoryWf.acceptAway {cl who : Nat} {s : State} (h : s.memoryWf) : (Machine.acceptAway cl who s).memoryWf := by
  unfold Machine.acceptAway
  refine h.foldl fun s x h1 => ?_
  split
  · split
    · exact h1
    split
    next e2 => exact (h1.acceptCmd e2).modHome fun _ => rfl
    · exact h1
  · exact h1

theorem State.memoryWf.startFlagWrite {c : Cmd} {s : State} (h : s.memoryWf) : (Machine.startFlagWrite c s).memoryWf := by
  unfold Machine.startFlagWrite
  split
  · exact State.memoryWf.ite h.setCmd.parkItem h
  split
  · exact h
  extract_lets k s1
  have hs1 : s1.memoryWf := State.memoryWf.ite h h.setFlagOf
  exact hs1.setCmd.retireCmd

theorem State.memoryWf.markStarted {c : Cmd} {s : State} (h : s.memoryWf) : (Machine.markStarted c s).memoryWf :=
  State.memoryWf.ite h h.setCmd

theorem State.memoryWf.moveCmd {c : Cmd} {s : State} (h : s.memoryWf) : (Machine.moveCmd c s).memoryWf := by
  unfold Machine.moveCmd
  split
  · exact h
  split
  · exact State.memoryWf.ite h.markStarted.fillUp (State.memoryWf.ite (State.memoryWf.ite h.startFlagWrite h) h.startCopy)
  · exact h.startRoute
  · exact h.markStarted
  · exact h.startAppend
  · exact h.startFabric
  · exact h.startColl

theorem State.memoryWf.execCommandStart {u : Unit6} {cl : Nat} {seq : BitVec 32} {s : State} (h : s.memoryWf) :
    NextForm (Machine.execCommandStart u cl seq s) := by
  unfold Machine.execCommandStart
  split
  · exact .next h
  · exact .next h.moveCmd

theorem State.memoryWf.execCommandRetirement {u : Unit6} {cl : Nat} {seq : BitVec 32} {s : State} (h : s.memoryWf) :
    NextForm (Machine.execCommandRetirement u cl seq s) := by
  unfold Machine.execCommandRetirement
  split
  · exact .next h
  split
  · exact .next h.endArm
  split
  · exact .next h
  split
  · split
    · exact .next h.retireRound
    · exact .next h
  · exact .next (State.memoryWf.ite h.retireCmd h)

theorem State.memoryWf.execMarkerRetire {cl : Nat} {seq : BitVec 32} {s : State} (h : s.memoryWf) :
    NextForm (Machine.execMarkerRetire cl seq s) := by
  unfold Machine.execMarkerRetire
  split
  · exact .next h
  extract_lets matrix open_ k
  split
  · exact .next h
  · exact .next ((State.memoryWf.ite h h.setFlagOf.setCmd).retireCmd)

theorem State.memoryWf.execCombiningNodeMerge {die : Nat} {cmds : List (Nat × BitVec 32)} {s : State} (h : s.memoryWf) :
    NextForm (Machine.execCombiningNodeMerge die cmds s) := by
  unfold Machine.execCombiningNodeMerge
  extract_lets cs
  clear_value cs
  cases cs with
  | nil => exact .next h
  | cons c0 cs => exact .next (.ite (h.foldl fun _ _ h1 => h1.startCopy) h)

theorem State.memoryWf.execEaccUpdate {cl : Nat} {seq : BitVec 32} {s : State} (h : s.memoryWf) :
    NextForm (Machine.execEaccUpdate cl seq s) := by
  unfold Machine.execEaccUpdate
  split
  · exact .next h
  · exact .next (State.memoryWf.ite h.nextUpdate h)

theorem State.memoryWf.replayCommands {die ctx : Nat} {s : State} (h : s.memoryWf) :
    (Machine.replayCommands die ctx s).memoryWf := by
  unfold Machine.replayCommands
  refine h.foldl fun s x h1 => ?_
  split
  · exact h1
  extract_lets k1
  exact h1.setCmd.moveCmd

theorem State.memoryWf.discardCmds {gone : Cmd → Bool} {s : State} (h : s.memoryWf) :
    (Machine.discardCmds gone s).memoryWf := by
  unfold Machine.discardCmds
  extract_lets cs s2 s3 keep
  have hs2 : s2.memoryWf := h.dropFills
  have hs3 : s3.memoryWf := hs2.forgetRounds
  exact ⟨hs3.hbm, Mem.wf_map hs3.clusters fun _ => rfl, hs3.dies, Mem.wf_map hs3.spilled fun _ => rfl, hs3.mailboxes⟩

end Sys2Proof.Machine
end

section
/-! SUPPORT. The canonical form of the memories (log 4) is kept: the matrix engine. -/

namespace Sys2Proof.Machine

theorem State.memoryWf.modTile {s : State} {d k : Nat} {f : Tile → Tile} (h : s.memoryWf) :
    (State.modTile s d k f).memoryWf :=
  (h.modDie rfl)

theorem Keeps.myGrove : Keeps Machine.myGrove := by
  unfold Machine.myGrove
  refine .get fun s h => ?_
  extract_lets g
  exact .ite .trap .pure

theorem Keeps.setGrove {f : Grove → Grove} : Keeps (Machine.setGrove f) := .modify fun _ h => h.modCl rfl

theorem State.memoryWf.feedStep {cl n : Nat} {int : Bool} {rm : Rm} {f : Feed} {st : Nat} {s : State} (h : s.memoryWf) :
    (Machine.feedStep cl n int rm f st s).memoryWf := by
  unfold Machine.feedStep
  extract_lets g s1
  have hs1 : s1.memoryWf := by
    unfold s1
    refine h.foldl fun s x h1 => ?_
    extract_lets r c
    exact State.memoryWf.ite h1 h1.modTile
  exact hs1.modCl rfl

/-- The steps of a product, each of which keeps memories in form. -/
def StepsKeep (l : List MStep) : Prop := ∀ m ∈ l, ∀ s : State, s.memoryWf → (m.2.2 s).memoryWf

theorem StepsKeep.foldl {l : List MStep} (hl : StepsKeep l) {s : State} (h : s.memoryWf) :
    (l.foldl (fun (s : State) (m : MStep) => m.2.2 s) s).memoryWf := by
  induction l generalizing s with
  | nil => exact h
  | cons m l ih => exact ih (fun m hm => hl m (.tail _ hm)) (hl m (.head _) s h)

theorem slabSteps_keep {cl n : Nat} {t : Ty} {rms : BitVec 2} {g : Grove} {f : Feed} :
    StepsKeep (slabSteps cl n t rms g f) := by
  intro m hm s h
  obtain ⟨st, -, rfl⟩ := List.mem_map.mp hm
  exact h.feedStep

theorem Keeps.checkAcc {n : Nat} {at_ : Nat → Nat → Bool} : Keeps (Machine.checkAcc n at_) := by
  unfold Machine.checkAcc
  refine .get fun s h => ?_
  extract_lets bad
  exact .ite .checkStop .pure

theorem Keeps.checkSums : Keeps Machine.checkSums := by
  unfold Machine.checkSums
  refine .get fun s h => ?_
  extract_lets g
  exact .ite .checkStop .pure

theorem Keeps.runSteps {own : Bool} {limit : Option Nat} {n : Nat} {l : List MStep} (hl : StepsKeep l) :
    Keeps (Machine.runSteps own limit n l) := by
  unfold Machine.runSteps
  refine .bind .checkAcc fun _ => .bind .checkSums fun _ => .get fun s h => ?_
  extract_lets dp p todo now k
  have hk : ∀ x, Keeps (k x) := fun x => .pure
  have htodo : ∀ m ∈ todo, m ∈ l := by
    unfold todo
    clear_value p
    split
    · split
      · exact fun m hm => (List.mem_filter.mp hm).1
      · exact fun m hm => hm
    · exact fun m hm => hm
  have hnow : ∀ m ∈ now, m ∈ todo := by
    unfold now
    split
    · exact fun m hm => List.mem_of_mem_take hm
    · exact fun m hm => hm
  refine .bind (.set (StepsKeep.foldl (fun m hm => hl m (htodo m (hnow m hm))) h)) fun _ => ?_
  split
  · split
    · exact .bind (.modify fun _ h1 => h1.modCl rfl) fun _ => hk ()
    · exact hk ()
  · exact .bind (.modify fun _ h1 => h1.modCl rfl) fun _ => .pure

theorem Keeps.checkSlabs {t : Ty} {sa sb : Nat} {local_ : Bool} {scale : Option (Nat × Nat × Nat × Nat)} :
    Keeps (Machine.checkSlabs t sa sb local_ scale) := by
  unfold Machine.checkSlabs
  refine .bind .myGrove fun x => .get fun s h => ?_
  extract_lets d ps fp32 bad scales scaleBad k
  have hk : Keeps (k ()) :=
    .bind .trapIf fun _ => .bind .trapIf fun _ => .bind .trapIf fun _ => .bind .waitIf fun _ => .ite .checkStop .pure
  refine .bind .trapIf fun _ => ?_
  cases scale with
  | some q => exact .bind .trapIf fun _ => hk
  | none => exact hk

theorem Keeps.mmacSteps {t : Ty} {acc : BitVec 2} {sa sb : BitVec 3} {rms : BitVec 2}
    {scale : Option (Nat × Nat × Nat × Nat)} :
    Keeps (Machine.mmacSteps t acc sa sb rms scale) := by
  unfold Machine.mmacSteps
  refine .bind .checkSlabs fun _ => .get fun s h => ?_
  extract_lets cl g
  exact .pure

theorem Gives.mmacSteps {t : Ty} {acc : BitVec 2} {sa sb : BitVec 3} {rms : BitVec 2}
    {scale : Option (Nat × Nat × Nat × Nat)} :
    Gives StepsKeep (Machine.mmacSteps t acc sa sb rms scale) :=
  .bind fun _ => .bind fun _ => .pure slabSteps_keep

theorem State.memoryWf.rotateSlab {cl sl : Nat} {src : Nat → Nat → Nat × Nat} {s : State} (h : s.memoryWf) :
    (Machine.rotateSlab cl sl src s).memoryWf := by
  unfold Machine.rotateSlab
  extract_lets g d
  refine h.foldl fun s x h1 => ?_
  extract_lets r c o
  refine h1.foldl fun s x h2 => ?_
  extract_lets part
  exact h2.modTile

theorem Keeps.mrotSteps {t : Ty} {acc : BitVec 2} {sa sb : BitVec 3} {rms : BitVec 2} :
    Keeps (Machine.mrotSteps t acc sa sb rms) := by
  unfold Machine.mrotSteps
  refine .bind .checkSlabs fun _ => .get fun s h => ?_
  extract_lets cl g steps shift
  have hshift : ∀ s, s.memoryWf → (shift s).memoryWf := fun s h => h.rotateSlab.rotateSlab
  exact .pure

theorem StepsKeep.then {l : List MStep} {f : State → State} {p : Nat → Bool} (hl : StepsKeep l)
    (hf : ∀ s, s.memoryWf → (f s).memoryWf) :
    StepsKeep (l.mapIdx fun i m => if p i then (m.1, m.2.1, fun s => f (m.2.2 s)) else m) := by
  intro m hm s h
  obtain ⟨i, hi, rfl⟩ := List.mem_mapIdx.mp hm
  have hs := hl _ (List.getElem_mem hi) s h
  split
  · exact hf _ hs
  · exact hs

theorem Gives.mrotSteps {t : Ty} {acc : BitVec 2} {sa sb : BitVec 3} {rms : BitVec 2} :
    Gives StepsKeep (Machine.mrotSteps t acc sa sb rms) :=
  .bind fun _ => .bind fun _ => .pure (slabSteps_keep.then fun _ h => h.rotateSlab.rotateSlab)

theorem Keeps.checkWords {t : Ty} {as bs : List Nat} : Keeps (Machine.checkWords t as bs) := .trapIf

theorem Keeps.raiseFirst {es : List (Nat × BitVec 8)} : Keeps (Machine.raiseFirst es) := by
  unfold Machine.raiseFirst
  split
  · exact .trapAt
  · exact .pure

theorem Keeps.fetchSpots {ls : List (Nat × Nat)} : Keeps (Machine.fetchSpots ls) :=
  .bind (.forM fun _ => .awaitLines) fun _ => .forM fun _ => .fetchRows

theorem Keeps.fetchBlock {c off : Nat} {col : Bool} : Keeps (Machine.fetchBlock c off col) :=
  .bind .awaitLines fun _ => .ite .fetchCols .fetchRows

theorem Keeps.checkIndexNames {h : Nat} {c : Opnd} : Keeps (Machine.checkIndexNames h c) := by
  unfold Machine.checkIndexNames
  refine .get fun s h1 => ?_
  split
  · exact .trapIf
  · exact .pure

theorem Keeps.mgxIndices {h : Nat} {c : Opnd} : Keeps (Machine.mgxIndices h c) := by
  unfold Machine.mgxIndices
  split
  · exact .get fun s h1 => .ite .checkStop .pure
  next x _ => exact .mapM fun x => .bind .usePointer fun _ => .bind .rawFetch fun _ => .bind .movePointer fun _ => .pure
  · exact .trap

theorem Keeps.mgxSteps {t : Ty} {acc : BitVec 2} {sb : BitVec 3} {rms : BitVec 2} {a c : Opnd} :
    Keeps (Machine.mgxSteps t acc sb rms a c) := by
  unfold Machine.mgxSteps
  refine .bind .myGrove fun x => .get fun s h => ?_
  extract_lets cl tiles bw
  refine .bind .trapIf fun _ => .bind .checkIndexNames fun _ => ?_
  refine .bind .checkWords fun _ => .bind .mgxIndices fun _ => .get fun s1 h1 => ?_
  extract_lets base want tB bTiles ls k
  have hk : ∀ x, Keeps (k x) := by
    intro x
    unfold k
    refine .bind .fetchSpots fun _ => .get fun s2 h2 => ?_
    extract_lets rows f
    exact .pure
  refine .bind .checkWords fun _ => .bind .raiseFirst fun _ => .bind .trapIf fun _ => .bind .waitIf fun _ => ?_
  split
  · exact .bind .checkStop fun _ => hk ()
  · exact hk ()

theorem Gives.mgxSteps {t : Ty} {acc : BitVec 2} {sb : BitVec 3} {rms : BitVec 2} {a c : Opnd} :
    Gives StepsKeep (Machine.mgxSteps t acc sb rms a c) := by
  unfold Machine.mgxSteps
  refine .bind fun _ => .bind fun _ => .bind fun _ => .bind fun _ => .bind fun _ => .bind fun _ => .bind fun _ =>
    .bind fun _ => ?_
  refine .bind fun _ => .bind fun _ => .bind fun _ => ?_
  dsimp only
  split
  · exact .bind fun _ => .bind fun _ => .bind fun _ => .pure slabSteps_keep
  · exact .bind fun _ => .bind fun _ => .pure slabSteps_keep

theorem Keeps.mgrpSteps {t : Ty} {acc rms : BitVec 2} {a b : Opnd} {nb : BitVec 7} {j : BitVec 8} {ks : BitVec 16} :
    Keeps (Machine.mgrpSteps t acc rms a b nb j ks) := by
  unfold Machine.mgrpSteps
  refine .bind .myGrove fun _ => .get fun s h => ?_
  extract_lets cl val tab tok n pol lineAddr blockOff blockCl blockCause word
  refine .bind .liftC fun _ => ?_
  split
  · exact .trapAt
  refine .bind .awaitOwed fun _ => ?_
  extract_lets raw bins live ls blocks bws
  exact .bind .trapIf fun _ => .bind .trapIf fun _ => .bind .checkIf fun _ => .bind .trapIf fun _ =>
    .bind .checkWords fun _ =>
      .bind (.forM fun _ => .checkWords) fun _ => .bind .raiseFirst fun _ => .bind .fetchSpots fun _ =>
        .bind (.forM fun _ =>
      .forM fun _ => .fetchBlock) fun _ => .get fun s1 h1 => .pure

theorem Gives.mgrpSteps {t : Ty} {acc : BitVec 2} {rms : BitVec 2} {a b : Opnd} {nb : BitVec 7} {j : BitVec 8}
    {ks : BitVec 16} :
    Gives StepsKeep (Machine.mgrpSteps t acc rms a b nb j ks) := by
  unfold Machine.mgrpSteps
  refine .bind fun _ => .bind fun _ => .bind fun _ => .ite (fun _ _ _ e => by cases e) (.bind fun _ => ?_)
  refine .bind fun _ => .bind fun _ => .bind fun _ => .bind fun _ => .bind fun _ => .bind fun _ => .bind fun _ => ?_
  refine .bind fun _ => .bind fun _ => .bind fun _ => .pure fun m hm u h => ?_
  obtain ⟨x, -, hm⟩ := List.mem_flatMap.mp hm
  obtain ⟨q, hq, rfl⟩ := List.mem_map.mp hm
  exact slabSteps_keep q hq u h

theorem Keeps.mfillBody {col : Bool} {sl : BitVec 3} {a b : Opnd} : Keeps (Machine.mfillBody col sl a b) := by
  unfold Machine.mfillBody
  refine .bind .myGrove fun _ => .get fun s h => ?_
  extract_lets cl k wide tk t ref
  refine .bind .trapIf fun _ => .bind .trapIf fun _ => .bind .spotOf fun _ => ?_
  extract_lets w
  refine .bind .trapIf fun _ => .bind .fetchBlock fun _ => .get fun s1 h1 => ?_
  extract_lets x6 lineOf fills
  exact .bind (.modify fun _ h2 => (h2.congr (by rfl)).modTile.foldl fun _ _ h3 => h3.setOwed) fun _ => .stepPointer

theorem Keeps.mrelBody {sl : BitVec 3} : Keeps (Machine.mrelBody sl) := by
  unfold Machine.mrelBody
  refine .bind .myGrove fun _ => .get fun s h => ?_
  extract_lets d
  exact .bind .waitIf fun _ => .modify fun _ h1 => h1.foldl fun _ _ h2 => h2.modTile

theorem Keeps.mzeroBody {acc : BitVec 2} : Keeps (Machine.mzeroBody acc) :=
  .bind .myGrove fun _ => .bind (.modify fun _ h => h.foldl fun _ _ h1 => h1.modTile) fun _ => .setGrove

theorem Keeps.mkeepBody {acc : BitVec 2} : Keeps (Machine.mkeepBody acc) := .bind .myGrove fun _ => .setGrove

theorem Keeps.mdrainBody {r : Round_} {ty : Ty} {mcol : Bool} {acc : BitVec 2} {d : Opnd} :
    Keeps (Machine.mdrainBody r ty mcol acc d) := by
  unfold Machine.mdrainBody
  refine .bind .myGrove fun x => .get fun s h => .bind .trapIf fun _ => .bind .spotOf fun _ => ?_
  extract_lets z runs
  split
  · exact .trapAt
  refine .bind .checkAcc fun _ => .bind ?_ fun x4 => ?_
  · exact .mapM fun x => .bind .liftC fun _ => .bind .claimRun fun _ => .pure
  refine .bind ?_ fun x5 => ?_
  · refine .modify fun s h => ?_
    refine h.foldl fun s x h1 => ?_
    extract_lets t i c cs
    exact h1.runWrite
  · exact .bind .stepPointer fun _ => .setGrove

theorem Keeps.mmovBody {r : Round_} {ty : Ty} {acc : BitVec 2} {d a : Opnd} : Keeps (Machine.mmovBody r ty acc d a) := by
  unfold Machine.mmovBody
  refine .get fun s h => ?_
  extract_lets v k n first
  refine .bind .trapIf fun _ => .bind .myGrove fun _ => .bind .trapIf fun _ => .bind .checkAcc fun _ => ?_
  extract_lets t ls
  split
  · exact .writeName
  · exact .trap

theorem Keeps.mchkBody {op : ChkOp} {acc : BitVec 2} : Keeps (Machine.mchkBody op acc) := by
  unfold Machine.mchkBody
  refine .bind .myGrove fun _ => ?_
  split
  · exact .setGrove
  · exact .setGrove
  refine .bind .checkAcc fun _ => .get fun s h => ?_
  extract_lets good
  exact .ite .pure .checkStop

theorem Keeps.mrdBody {sel : BitVec 3} {d a : Opnd} : Keeps (Machine.mrdBody sel d a) := by
  unfold Machine.mrdBody
  refine .get fun s h => ?_
  extract_lets cl g lanes lanes1
  refine .bind .trapIf fun _ => .bind .checkIf fun _ => ?_
  split
  · exact .writeName
  · exact .trap

theorem Keeps.mshapeBody {a : Opnd} : Keeps (Machine.mshapeBody a) := by
  unfold Machine.mshapeBody
  refine .get fun s h => ?_
  extract_lets cl d x g old busy enter
  have henter : ∀ s k, s.memoryWf → (enter s k).memoryWf := fun s k h => State.memoryWf.ite h.modTile h.modTile
  refine .bind .waitIf fun _ => ?_
  split
  · exact .trap
  extract_lets n new leave
  have hleave : ∀ s k, s.memoryWf → (leave s k).memoryWf := fun s k h => State.memoryWf.ite h h.modTile
  exact .bind .trapIf fun _ => .bind .trapIf fun _ => .bind (.modify fun _ h1 => (h1.foldl hleave).foldl henter) fun _ =>
      .setGrove

/-- What a product's instruction does before its steps, and its steps. -/
theorem productSteps_keep {i : Instr} {a : Act (List MStep)} (h : productSteps i = some a) :
    Keeps a ∧ Gives StepsKeep a := by
  unfold productSteps at h
  split at h <;> cases h
  · exact ⟨.mmacSteps, .mmacSteps⟩
  · exact ⟨.mmacSteps, .mmacSteps⟩
  · exact ⟨.mrotSteps, .mrotSteps⟩
  · exact ⟨.mgxSteps, .mgxSteps⟩
  · exact ⟨.mgrpSteps, .mgrpSteps⟩

theorem Keeps.productBody {acc : BitVec 2} {steps : Act (List MStep)} (hsteps : Keeps steps) (hg : Gives StepsKeep steps) :
    Keeps (Machine.productBody acc steps) :=
  .bindGives hsteps hg fun _ hl => .bind (.runSteps hl) fun _ => .pure

theorem Keeps.followBody {i : Instr} : Keeps (Machine.followBody i) := by
  unfold Machine.followBody
  refine .get fun s h => ?_
  extract_lets rounded
  have hr (m : VMod) (f : Round_ → Act Unit) (hf : ∀ r, Keeps (f r)) : Keeps (rounded m f) :=
    .get fun _ _ => .bind (hf _) fun _ => .modify fun _ h1 => h1.countOrdinal
  split
  next hs =>
    exact .bindGives (productSteps_keep hs).1 (productSteps_keep hs).2 fun _ hl => .bind (.runSteps hl) fun _ => .pure
  · split
    · exact .mchkBody
    · exact .mshapeBody
    · exact .mzeroBody
    · exact hr _ _ fun _ => .mdrainBody
    · exact hr _ _ fun _ => .mmovBody
    · exact .mfillBody
    · exact .mrelBody
    · exact .mkeepBody
    · exact .mrdBody
    · exact .pure

theorem State.memoryWf.mOp {i : Instr} {tok : Tok} {body : Act Unit} {s : State} (h : s.memoryWf) (hbody : Keeps body) :
    NextForm (Machine.mOp i tok body s) :=
  h.engineOp (fun _ => hbody)

theorem State.memoryWf.withCaptured {c : Cmd} {f : State → Except Stop (Unit × State)} {s : State} (h : s.memoryWf)
    (hf : Keeps f) :
    ExcForm (Machine.withCaptured c f s) := by
  unfold Machine.withCaptured
  extract_lets x s1
  have hs1 : s1.memoryWf := State.memoryWf.modCl (h.congr rfl) rfl
  split
  · exact .error
  next s2 e =>
    have hs2 : s2.memoryWf := hf hs1 e
    exact .ok (State.memoryWf.modCl (hs2.congr rfl) rfl)

theorem State.memoryWf.execFollowOn {cl : Nat} {seq : BitVec 32} {s : State} (h : s.memoryWf) :
    NextForm (Machine.execFollowOn cl seq s) := by
  unfold Machine.execFollowOn
  split
  · exact .next h
  split
  · exact .next h
  split
  · exact .next h
  split
  · exact .next h
  split
  next e => exact .next (h.withCaptured .followBody e).setCmd.stir
  · exact .next h.setCmd.logFault
  · exact .next h.setCmd.raiseCheck
  · exact .next h

end Sys2Proof.Machine
end

section
/-! SUPPORT. The canonical form of the memories (log 4) is kept: images read and tasks launched. -/

namespace Sys2Proof.Machine

theorem State.memoryWf.loadImageOf {ctx die : Nat} {t : Stage} {s : State} (h : s.memoryWf) :
    ResForm (Machine.loadImageOf ctx die t s) := by
  unfold Machine.loadImageOf
  extract_lets get
  have hget : ∀ va n s, s.memoryWf → ResForm (get va n s) := fun _ _ s h1 => (h1.tableRead).mapError
  refine .bind (hget _ _ _ h) fun s1 hb h1 => ?_
  dsimp only
  split
  · exact .error
  refine .bind (hget _ _ _ h1) fun s2 fb h2 => .bind (hget _ _ _ h2) fun s3 sb h3 => .bind (hget _ _ _ h3) fun s4
    lb h4 => ?_
  dsimp only
  split
  · exact .error
  refine .bind (.foldlM (fun s b g h1 => ?_) _ h4) fun s5 segs h5 => .bind (hget _ _ _ h5) fun s6 sig h6 => ?_
  · refine .bind (hget _ _ _ h1) fun s2 bs h2 => ?_
    exact .ok h2
  · exact .ok h6

theorem State.memoryWf.noteAges {die : Nat} {s : State} (h : s.memoryWf) : (Machine.noteAges die s).memoryWf :=
  h.foldl fun _ _ h1 => h1.congr rfl

theorem State.memoryWf.takeTiles {c : Nat} {g : Grove} {s : State} (h : s.memoryWf) : (Machine.takeTiles c g s).memoryWf :=
  h.foldl fun _ _ h1 => h1.modTile

theorem State.memoryWf.dropTiles {c : Nat} {s : State} (h : s.memoryWf) : (Machine.dropTiles c s).memoryWf :=
  h.foldl fun _ _ h1 => h1.modTile

theorem State.memoryWf.markTiles {members : List Nat} {s : State} (h : s.memoryWf) :
    (Machine.markTiles members s).memoryWf :=
  h.foldl fun _ _ h1 => h1.foldl fun _ _ h2 => h2.modTile

theorem State.memoryWf.placeTask {c : Nat} {t : Task} {dims : Nat × Nat} {s : State} (h : s.memoryWf) :
    (Machine.placeTask c t dims s).memoryWf :=
  (h.modCl rfl)

theorem State.memoryWf.takeSnap {c : Nat} {s : State} (h : s.memoryWf) : (Machine.takeSnap c s).memoryWf := h.modCl rfl

theorem State.memoryWf.writeStatus {g : Nat} {cause : BitVec 8} {s : State} (h : s.memoryWf) :
    (Machine.writeStatus g cause s).memoryWf := by
  unfold Machine.writeStatus
  split
  · exact h
  extract_lets v
  split
  next e1 => exact (h.vaSyncWrite e1).congr rfl
  extract_lets e2
  exact (h.congr (by rfl)).logFault

theorem State.memoryWf.launchTask {c : Nat} {t : Task} {s : State} (h : s.memoryWf) :
    ExcForm (Machine.launchTask c t s) := by
  unfold Machine.launchTask
  extract_lets die
  split
  · exact .error
  split
  · exact .error
  next e1 _ _ _ e2 =>
    extract_lets s3
    have hs3 : s3.memoryWf := State.memoryWf_modCl _ _ ((h.tableRead e1).loadImageOf e2) (setUp_wf _ _ _ _)
    exact .ok (.ite hs3.takeSnap hs3)

end Sys2Proof.Machine
end

section
/-! SUPPORT. The canonical form of the memories (log 4) is kept: supersteps and rollbacks. -/

namespace Sys2Proof.Machine

theorem State.memoryWf.releaseTask {c : Nat} {s : State} (h : s.memoryWf) : (Machine.releaseTask c s).memoryWf := by
  unfold Machine.releaseTask
  split
  · exact h
  extract_lets s1 s2 s3 first
  have hs1 : s1.memoryWf := h.dropFills
  have hs2 : s2.memoryWf := hs1.dropTiles.modCl rfl
  have hs3 : s3.memoryWf := by
    unfold s3
    split
    · exact hs2.wlComplete
    · exact hs2
  exact (hs3.congr (by rfl)).modGang.showTrapped

theorem State.memoryWf.releaseWrites {g : Nat} {s : State} (h : s.memoryWf) : (Machine.releaseWrites g s).memoryWf := h

theorem State.memoryWf.emptyLogs {ctx : Nat} {s : State} (h : s.memoryWf) : (Machine.emptyLogs ctx s).memoryWf := h

theorem State.memoryWf.settleGang {g : Nat} {s : State} (h : s.memoryWf) : (Machine.settleGang g s).memoryWf := by
  unfold Machine.settleGang
  split
  · exact h
  split
  · exact h
  split
  · extract_lets s1
    have hs1 : s1.memoryWf := h.tellAll.releaseWrites
    exact hs1
  split
  · extract_lets s1 s2
    have hs1 : s1.memoryWf := by
      unfold s1
      split
      · exact h.wlComplete
      · exact h
    have hs2 : s2.memoryWf := hs1
    exact hs2.releaseWrites
  · exact h

theorem State.memoryWf.taskEnd {c : Nat} {s : State} (h : s.memoryWf) : (Machine.taskEnd c s).memoryWf := by
  unfold Machine.taskEnd
  split
  · exact h
  split
  · exact h
  split
  · exact h.releaseTask.settleGang
  extract_lets s1
  have hs1 : s1.memoryWf := (h.modCl (by rfl)).modGang
  split
  · exact hs1
  · exact State.memoryWf.ite ((((hs1.foldl fun _ _ h1 => h1.releaseTask).emptyLogs).releaseWrites).settleGang) hs1

theorem State.memoryWf.clearGrove {c : Nat} {s : State} (h : s.memoryWf) : (Machine.clearGrove c s).memoryWf := by
  unfold Machine.clearGrove
  extract_lets s1
  have hs1 : s1.memoryWf := h.foldl fun _ _ h1 => h1.modTile
  exact hs1.modCl rfl

theorem State.memoryWf.completeBarrier {g : Nat} {x : Gang} {s : State} (h : s.memoryWf) :
    (Machine.completeBarrier g x s).memoryWf := by
  unfold Machine.completeBarrier
  extract_lets n prot mine s1 s2 s3 each each1
  have hs1 : s1.memoryWf := h.modGang.releaseWrites
  have hs2 : s2.memoryWf := hs1.emptyLogs
  have hs3 : s3.memoryWf := State.memoryWf.ite (hs2.congr rfl) hs1
  have heach : each.memoryWf := hs3.foldl fun _ _ h1 => h1.releaseTask
  have heach1 : ∀ s c, s.memoryWf → (each1 s c).memoryWf := by
    intro s c h
    unfold each1
    split
    · exact h
    extract_lets a b
    have ha : a.memoryWf := h.modCl rfl
    have hb : b.memoryWf := State.memoryWf.ite ha.takeSnap ha
    exact hb.clearGrove.modCl rfl
  exact ((heach.foldl heach1).markTiles).settleGang

theorem State.memoryWf.execBarrierCompletion {gang : Nat} {s : State} (h : s.memoryWf) :
    NextForm (Machine.execBarrierCompletion gang s) := by
  unfold Machine.execBarrierCompletion
  split
  · exact .next h
  extract_lets ok low all one
  have hall : ∀ imd arg f, (all imd arg f).memoryWf := fun imd arg f => h.modGang.tellAll
  have hone : ∀ imd arg f, (one imd arg f).memoryWf := fun imd arg f => h.modGang.tellAll
  split
  · exact .next h
  split
  · exact .next (State.memoryWf.ite h.completeBarrier h)
  split
  · exact .next h
  split
  · split
    · exact .next (State.memoryWf.ite (hall _ _ _) h)
    split
    · exact .next (hall _ _ _)
    split
    · exact .next h.tellAll.completeBarrier
    · exact .next h
  split
  · exact .next h.completeBarrier
  split
  · exact .next (State.memoryWf.ite (hone _ _ _) h)
  split
  · exact .next (hone _ _ _)
  split
  · exact .next (hone _ _ _)
  · exact .next h

theorem State.memoryWf.sweep {c : Context} {pick : Nat → Bool} {s : State} (h : s.memoryWf) :
    (Machine.sweep c pick s).memoryWf := by
  unfold Machine.sweep
  refine h.foldl fun s x h1 => ?_
  extract_lets a
  exact State.memoryWf.ite h1.slicePut h1

theorem State.memoryWf.execShadowSweep {ctx : Nat} {s : State} (h : s.memoryWf) :
    NextForm (Machine.execShadowSweep ctx s) := by
  unfold Machine.execShadowSweep
  split
  · exact .next h
  extract_lets gen x2
  have hx2 : x2.memoryWf := h.sweep
  exact .next (hx2.congr rfl)

theorem State.memoryWf.putLine {ctx c line : Nat} {old : List Byte} {s : State} (h : s.memoryWf) :
    (Machine.putLine ctx c line old s).memoryWf :=
  h.modHomeIn fun _ hx => plantBytes_wf _ _ hx

theorem State.memoryWf.applyUndo {ctx : Nat} {sstep : BitVec 32} {shadows : List (Nat × Nat)} {s : State} {r : Nat}
    (h : s.memoryWf) :
    (Machine.applyUndo ctx sstep shadows s r).memoryWf := by
  unfold Machine.applyUndo
  extract_lets old loc s0 a
  have hs0 : s0.memoryWf := h.l2Read
  exact State.memoryWf.ite hs0 (State.memoryWf.ite hs0.putLine (hs0.slicePut.foldl fun _ _ h1 => h1.slicePut))

theorem State.memoryWf.discardWork {g : Nat} {x : Gang} {s : State} (h : s.memoryWf) :
    (Machine.discardWork g x s).memoryWf := by
  unfold Machine.discardWork
  extract_lets mine aims s2 stale
  have hs2 : s2.memoryWf := h.discardCmds.dropFills
  clear_value s2
  exact ⟨hs2.hbm, hs2.clusters, Mem.wf_map hs2.dies fun _ => rfl, hs2.spilled, hs2.mailboxes⟩

theorem State.memoryWf.restoreTiles {cs members : List Nat} {s : State} (h : s.memoryWf) :
    (Machine.restoreTiles cs members s).memoryWf := by
  unfold Machine.restoreTiles
  extract_lets s1
  have hs1 : s1.memoryWf := h.foldl fun _ _ h1 => h1.dropTiles
  exact (hs1.foldl fun _ _ h1 => h1.takeTiles).markTiles

theorem State.memoryWf.restoreCounters {ctx : Nat} {dies : List Nat} {snaps : List Snap} {s : State} (h : s.memoryWf) :
    (Machine.restoreCounters ctx dies snaps s).memoryWf := by
  unfold Machine.restoreCounters
  cases snaps <;> exact h.congr rfl

theorem State.memoryWf.forgetTags {ctx : Nat} {sstep : BitVec 32} {s : State} (h : s.memoryWf) :
    (Machine.forgetTags ctx sstep s).memoryWf :=
  h

theorem State.memoryWf.sendGangMarkers {g : Nat} {x : Gang} {s : State} (h : s.memoryWf) :
    (Machine.sendGangMarkers g x s).memoryWf := by
  unfold Machine.sendGangMarkers
  split
  · exact h
  extract_lets out s1
  have hs1 : s1.memoryWf := h.modGang
  exact hs1.foldl fun _ _ h1 => h1.send

theorem State.memoryWf.rollDevice {g : Nat} {x : Gang} {c : Context} {s : State} (h : s.memoryWf) :
    (Machine.rollDevice g x c s).memoryWf := by
  unfold Machine.rollDevice
  extract_lets shadows s1 s2 s3 mine away_ snaps homes s4 s5 revived s6
  have hs2 : s2.memoryWf := h.discardWork.foldl fun _ _ h1 => h1.applyUndo
  have hs3 : s3.memoryWf := hs2.sweep.emptyLogs
  have hs4 : s4.memoryWf := hs3.restoreCounters.forgetTags.restoreTiles
  have hs5 : s5.memoryWf :=
    hs4.foldl fun s k h1 => State.memoryWf_modCl _ _ h1 (rollCluster_wf s x.sstep (dieOf k) (State.sram_wf h1 k))
  clear_value s5
  have hs6 : s6.memoryWf := by
    refine ⟨hs5.hbm, hs5.clusters, hs5.dies, fun p hp => ?_, hs5.mailboxes⟩
    obtain ⟨q, hq, rfl⟩ := List.mem_map.mp hp
    split
    · exact rollCluster_wf _ _ _ (hs5.spilled q hq)
    · exact hs5.spilled q hq
  exact (hs6.foldl fun _ _ h1 => h1.showTrapped).sendGangMarkers

theorem State.memoryWf.resumeGang {g : Nat} {s : State} (h : s.memoryWf) : (Machine.resumeGang g s).memoryWf := by
  unfold Machine.resumeGang
  extract_lets ready s1 wake s2
  have hs1 : s1.memoryWf := h.foldl fun _ _ h1 => h1.modCl rfl
  have hs2 : s2.memoryWf := by
    refine ⟨hs1.hbm, hs1.clusters, hs1.dies, Mem.wf_map hs1.spilled fun p => ?_, hs1.mailboxes⟩
    unfold wake
    split <;> rfl
  exact hs2.modGang

theorem State.memoryWf.execRollback {gang : Nat} {cause : BitVec 8} {s : State} (h : s.memoryWf) :
    NextForm (Machine.execRollback gang cause s) := by
  unfold Machine.execRollback
  split
  · exact .next h
  extract_lets low
  split
  · split
    · exact .next h
    split
    · exact .next h.resumeGang
    split
    · split
      · exact .next h.resumeGang.tellAll
      · exact .next h
    split
    · exact .next h.resumeGang
    split
    · exact .next h
    · exact .next h.modGang.tellAll
  split
  · exact .next h
  split
  · split
    · exact .next h.raiseCheck
    split
    · exact .next h.logFault.soon.soon
    extract_lets s1 s2
    have hs1 : s1.memoryWf := State.memoryWf.ite h h.tellAll
    have hs2 : s2.memoryWf := hs1.rollDevice
    exact .next (State.memoryWf.ite hs2.resumeGang hs2)
  · exact .next h

theorem State.memoryWf.alertGang {g : Nat} {ends : Bool} {s : State} (h : s.memoryWf) :
    (Machine.alertGang g ends s).memoryWf := by
  unfold Machine.alertGang
  split
  · exact h.tellAll
  · exact h

theorem State.memoryWf.strike {x : Upset} {s : State} (h : s.memoryWf) : (Machine.strike x s).memoryWf := by
  unfold Machine.strike
  split
  · exact State.memoryWf.ite h (h.modCl rfl)
  · exact State.memoryWf.ite h (State.memoryWf.ite (h.modCl rfl) h.count)
  · exact State.memoryWf.ite h (State.memoryWf.ite (h.modCl rfl) h.count)
  · exact State.memoryWf.ite h (State.memoryWf.ite (h.modDie rfl) h.count)
  · exact State.memoryWf.ite h (State.memoryWf.ite (h.congr rfl) h.count)
  · exact State.memoryWf.ite h (State.memoryWf.ite h.poison h.count)
  · exact State.memoryWf.ite h (State.memoryWf.ite (h.modDie rfl) h.count)
  · exact State.memoryWf.ite h h.modTile
  · exact State.memoryWf.ite h h.modTile
  · exact State.memoryWf.ite h h.modTile
  · exact State.memoryWf.ite h (h.modCl rfl)
  · exact State.memoryWf.ite h.portDown h

end Sys2Proof.Machine
end

section
/-! SUPPORT. The canonical form of the memories (log 4) is kept: the plan of a walker. -/

namespace Sys2Proof.Machine

theorem State.memoryWf.holdText {s : State} {off : Nat} {ps : List Parcel} (h : s.memoryWf) :
    (State.holdText s off ps).memoryWf := by
  unfold State.holdText
  extract_lets put
  split
  · exact h.modCl (by simp)
  split
  · exact h.setSelfRake
  · exact h

theorem State.memoryWf.raiseFetch {s : State} {c : BitVec 8} {a : Nat} (h : s.memoryWf) :
    (State.raiseFetch s c a).memoryWf :=
  State.memoryWf.ite h.noteWait (State.memoryWf.ite h.raiseSelfCheck h.raise)

theorem State.memoryWf.metEarly {c : Nat} {e : Eng} {cause : BitVec 8} {a : Nat} {s : State} (h : s.memoryWf) :
    (Machine.metEarly c e cause a s).memoryWf :=
  State.memoryWf.ite h.raiseFetch ((h.modCl (by simp)).noteWait)

theorem State.memoryWf.issue {w : Who} {t : Task} {pc : Nat} {p : Parcel} {s : State} {k : Instr → State → Plan}
    (h : s.memoryWf)
    (hk : ∀ i s, s.memoryWf → PlanForm (k i s)) : PlanForm (Machine.issue w t pc p s k) := by
  unfold Machine.issue
  split
  · exact h.raiseFetch
  next e =>
    have h1 := h.heldParcels e
    split
    · exact h1.raise
    · exact hk _ _ h1.holdText

theorem State.memoryWf.issueX {w : Who} {t : Task} {pc : Nat} {p : Parcel} {s : State} {k : Instr → State → Plan}
    (h : s.memoryWf)
    (hk : ∀ i s, s.memoryWf → PlanForm (k i s)) : PlanForm (Machine.issueX w t pc p s k) := by
  unfold Machine.issueX
  split
  · exact h.noteWait
  next e =>
    have h1 := h.heldParcels e
    split
    · exact h1.noteWait
    · exact hk _ _ h1.holdText

theorem State.memoryWf.threadRun {i : Instr} {s : State} (h : s.memoryWf) : PlanForm (Machine.threadRun i s) := by
  unfold Machine.threadRun
  split
  · exact h
  split
  · exact h.raiseSelfCheck
  · exact h

theorem State.memoryWf.planRake {t : Task} {r : Rake} {s : State} (h : s.memoryWf) : PlanForm (Machine.planRake t r s) := by
  unfold Machine.planRake
  split
  · exact h
  split
  · exact h.raise
  split
  · exact h.raiseFetch
  next e =>
    have h1 := h.heldParcel e
    split
    · exact h1.raise
    split
    · exact h1.raise
    · exact h1.raise
    · exact h1.raise
    · exact h1.raise
    · split
      · exact h1.issue fun _ _ h2 => h2.threadRun
      · exact h1.raise
    · exact h1.issue fun _ _ h2 => h2.threadRun

/-- A word that its engine executes: held up, refused for a register in error, or run. -/
theorem State.memoryWf.run {c : Nat} {e : Eng} {who : Who} {t : Task} {b : Bool} {i : Instr} {s : State} (h : s.memoryWf) :
    PlanForm (match heldUp c e who t i s with
      | some r => .done (s.noteWait r)
      | none => if b && meetsBadReg s i then .done (s.raiseSelfCheck 0xC3#8) else .run i s) := by
  split
  · exact h.noteWait
  · split
    · exact h.raiseSelfCheck
    · exact h

theorem State.memoryWf.planPc {c : Nat} {e : Eng} {s : State} (h : s.memoryWf) : PlanForm (Machine.planPc c e s) := by
  unfold Machine.planPc
  extract_lets x
  split
  · exact h
  refine .ite h ?_
  refine .ite h.noteWait (.ite h.metEarly ?_)
  split
  · exact h.metEarly
  next hp =>
    extract_lets s1 len tag
    have hs1 : s1.memoryWf := (h.heldParcel hp).holdText
    clear_value s1
    refine .ite (.ite hs1.raise hs1.noteWait) (.ite hs1.raise (.ite (.ite hs1.noteWait (.ite hs1.noteWait ?_)) ?_))
    · exact hs1.modCl (by simp)
    refine .ite hs1.noteWait (.ite hs1.noteWait (.ite hs1.noteWait (.ite hs1.raise (.ite hs1.noteWait ?_))))
    by_cases hx : (tag == .X && e != .S) = true
    · rw [if_pos hx]
      exact hs1.issueX fun _ _ h2 => h2.run
    · rw [if_neg hx]
      exact hs1.issue fun _ _ h2 => h2.run

theorem State.memoryWf.plan {w : Walker} {s : State} (h : s.memoryWf) : PlanForm (Machine.plan w s) := by
  unfold Machine.plan
  split
  · exact h.planPc
  · split
    · exact h
    · dsimp only
      split
      · exact h.planRake
      · exact h
  · split
    · exact h
    · exact h.planRake

theorem State.memoryWf.fetchAhead {off : Nat} {s : State} (h : s.memoryWf) : (Machine.fetchAhead off s).memoryWf := by
  unfold Machine.fetchAhead
  split
  · exact h
  split
  · exact h
  split
  · exact h
  next e2 => exact (h.fetchParcel e2).holdText

end Sys2Proof.Machine
end

section
/-! SUPPORT. The canonical form of the memories (log 4) is kept: traps, spills and fills. -/

namespace Sys2Proof.Machine

theorem State.memoryWf.execTrapEntry {cl : Nat} {e : Eng} {cause : BitVec 8} {addr : Word} {s : State} (h : s.memoryWf) :
    NextForm (Machine.execTrapEntry cl e cause addr s) := by
  unfold Machine.execTrapEntry
  split
  · exact .next h
  split
  · exact .next h
  split
  · exact .next (State.memoryWf.ite h h.takeTrap)
  · extract_lets p tr s1
    have hs1 : s1.memoryWf := (h.modCl (by rfl)).writeHeader
    split
    · refine .next ?_
      split
      · exact hs1.relogFault
      · exact hs1
    · exact .next h
  · exact .next h

theorem State.memoryWf.execWalkDeadlock {cl : Nat} {s : State} (h : s.memoryWf) :
    NextForm (Machine.execWalkDeadlock cl s) := by
  unfold Machine.execWalkDeadlock
  extract_lets x
  split
  · exact .next h.takeTrap
  · exact .next h

theorem State.memoryWf.withdraw {g : Nat} {s : State} (h : s.memoryWf) : (Machine.withdraw g s).memoryWf := by
  unfold Machine.withdraw
  split
  · exact h
  · exact State.memoryWf.ite h.modGang.tellAll h

theorem State.memoryWf.haltTask {c : Nat} {s : State} (h : s.memoryWf) : (Machine.haltTask c s).memoryWf := by
  unfold Machine.haltTask
  split
  · exact h
  extract_lets x2 s1 s2
  have hs1 : s1.memoryWf := h.modCl (by simp)
  have hs2 : s2.memoryWf := State.memoryWf.ite hs1.withdraw hs1
  exact hs2.writeHeader

theorem State.memoryWf.partialProduct {c n : Nat} {s : State} (h : s.memoryWf) :
    (Machine.partialProduct c n s).memoryWf := by
  unfold Machine.partialProduct
  extract_lets x s0 back
  have hback : ∀ t : State, t.memoryWf → (back t).memoryWf := fun t ht => (ht.congr (by rfl)).modCl rfl
  have hs0 : s0.memoryWf := h.modCl rfl
  have hplan := State.memoryWf.plan (w := .pc c .M) (s := { s0 with actor := .pc c .M }) (hs0.congr rfl)
  split
  · exact h
  next i s1 e =>
    split
    · exact h
    next a ea =>
      extract_lets ready
      split
      · exact h
      · split
        next s2 e2 =>
          refine hback _ ((Keeps.bindGives (productSteps_keep ea).1 (productSteps_keep ea).2 fun _ hl =>
            .runSteps hl) ?_ e2)
          rw [e] at hplan
          exact hplan
        · exact h

theorem State.memoryWf.execPreemption {cl steps : Nat} {s : State} (h : s.memoryWf) :
    NextForm (Machine.execPreemption cl steps s) := by
  unfold Machine.execPreemption
  split
  · exact .next h.partialProduct.haltTask
  · exact .next h

theorem State.memoryWf.preemptTask {c : Nat} {s : State} (h : s.memoryWf) : (Machine.preemptTask c s).memoryWf :=
  h.partialProduct.haltTask

theorem State.memoryWf.slicePutCells {b n : Nat} {cells : Mem} {s : State} (h : s.memoryWf) (hc : Mem.wf cells = true)
    (hr : ∀ c ∈ cells, b ≤ c.1 ∧ c.1 < b + n) : (Machine.slicePutCells b n cells s).memoryWf :=
  have hs1 := h.l2Write.unpoison (a := b) (n := n)
  ⟨Mem.wf_spliceCells b n hs1.hbm hc hr, hs1.2⟩

theorem State.memoryWf.spillTile {ctx : Context} {d k : Nat} {s : State} (h : s.memoryWf) :
    (Machine.spillTile ctx d k s).memoryWf :=
  h.slicePut.slicePut.slicePut

theorem firstL1Bank_le (x : Cluster) : firstL1Bank x ≤ 48 := by
  unfold firstL1Bank
  split <;> omega

/-- Cells moved up by `b` stay in form. -/
theorem Mem.wf_shift {m : Mem} (b : Nat) (h : Mem.wf m = true) : Mem.wf (m.map fun c => (c.1 + b, c.2)) = true := by
  rw [Mem.wf_iff] at h ⊢
  refine ⟨List.pairwise_map.mpr (h.1.imp fun hlt => Nat.add_lt_add_right hlt b), fun c hc => ?_⟩
  obtain ⟨d, hd, rfl⟩ := List.mem_map.mp hc
  exact h.2 d hd

theorem State.memoryWf.writeFrame {c : Nat} {t : Task} {ctx : Context} {s : State} (h : s.memoryWf) :
    (Machine.writeFrame c t ctx s).memoryWf := by
  unfold Machine.writeFrame
  extract_lets x base top banks s1 s2 s3
  have hbanks : Mem.wf banks = true := Mem.wf_shift base (Mem.wf_filter _ (State.sram_wf h c))
  have hin : ∀ e ∈ banks, base ≤ e.1 ∧ e.1 < base + 3145728 := by
    intro e he
    obtain ⟨d, hd, rfl⟩ := List.mem_map.mp he
    have hlt : d.1 < top := of_decide_eq_true (Bool.and_eq_true_iff.mp (List.mem_filter.mp hd).2).1
    have htop : top ≤ 65536 * 48 := Nat.mul_le_mul_left _ (firstL1Bank_le x)
    dsimp only
    omega
  have hs1 : s1.memoryWf := h.slicePutCells hbanks hin
  have hs2 : s2.memoryWf := hs1.slicePut
  have hs3 : s3.memoryWf := hs2.slicePut
  exact (hs3.foldl fun _ _ h1 => h1.spillTile).writeHeader

theorem State.memoryWf.spillTask {c : Nat} {s : State} (h : s.memoryWf) : (Machine.spillTask c s).memoryWf := by
  unfold Machine.spillTask
  split
  · exact h
  split
  · exact h
  split
  · exact h
  · extract_lets kept s1 s2 x mine old image tiles p old' rest
    have hs1 : s1.memoryWf := h.dropFills
    have hs2 : s2.memoryWf := hs1.writeFrame
    have hx : Mem.wf x.sram = true := State.sram_wf hs2 c
    clear_value x
    have hp : Mem.wf p.image.sram = true := hx
    have hrest : ((Machine.dropTiles c s2).setCl c rest).memoryWf :=
      State.memoryWf_modCl c (fun _ => rest) hs2.dropTiles Mem.wf_nil
    clear_value p rest s2
    refine ⟨hrest.hbm, hrest.clusters, hrest.dies, fun q hq => ?_, hrest.mailboxes⟩
    rcases List.mem_append.mp hq with hq | hq
    · exact hs2.spilled q hq
    · obtain rfl := List.mem_singleton.mp hq
      exact hp

theorem State.memoryWf.execSpill {cl : Nat} {s : State} (h : s.memoryWf) : NextForm (Machine.execSpill cl s) := by
  unfold Machine.execSpill
  split
  · exact .next h
  extract_lets asked
  split
  · exact .next h.spillTask
  · exact .next h

theorem State.memoryWf.readFrame {p : Spilled} {s : State} (h : s.memoryWf) : (Machine.readFrame p s).2.memoryWf := by
  unfold Machine.readFrame
  split
  · exact h
  extract_lets parts
  exact h.foldl fun _ _ h1 => h1.l2Read

theorem State.memoryWf.fillTask {p : Spilled} {c : Nat} {s : State} (h : s.memoryWf) (hp : Mem.wf p.image.sram = true) :
    (Machine.fillTask p c s).memoryWf := by
  unfold Machine.fillTask
  extract_lets g d old img s1 put back mid s2 blocked
  have hs1 : s1.memoryWf := State.memoryWf_modCl _ _ h hp
  have hput : (old.tiles.foldl put s1).memoryWf := hs1.foldl fun _ _ h1 => h1.modTile
  have herase : State.memoryWf { old.tiles.foldl put s1 with spilled := s1.spilled.erase p } :=
    ⟨hput.hbm, hput.clusters, hput.dies, fun q hq => hs1.spilled q (List.mem_of_mem_erase hq), hput.mailboxes⟩
  have hback : ∀ s f, s.memoryWf → (back s f).memoryWf := fun s f h1 => State.memoryWf.setOwed (h1.congr rfl)
  have hs2 : s2.memoryWf := herase.foldl hback
  refine hs2.showTrapped.foldl fun s k h1 => ?_
  split
  · exact h1
  · exact h1.setCmd.moveCmd

theorem State.memoryWf.fillBack {p : Spilled} {c : Nat} {s : State} (h : s.memoryWf) (hp : Mem.wf p.image.sram = true) :
    (Machine.fillBack p c s).1.memoryWf := by
  unfold Machine.fillBack
  extract_lets gang
  split
  next e => exact (h.readFrame.snd e).raiseCheck
  next e =>
    split
    · exact (h.readFrame.snd e).fillTask hp
    · exact (h.readFrame.snd e).logFault

theorem State.memoryWf.execFillBack {agent ctx cl : Nat} {s : State} (h : s.memoryWf) :
    NextForm (Machine.execFillBack agent ctx cl s) := by
  unfold Machine.execFillBack
  split
  · exact .next h
  next hp => exact .next (.ite (h.fillBack (h.spilled _ (List.mem_of_find?_eq_some hp))) h)

theorem State.memoryWf.passTrapped {c : Nat} {e : Eng} {len : Nat} {bs : List Byte} {s : State} (h : s.memoryWf) :
    (Machine.passTrapped c e len bs s).memoryWf :=
  h.modCl (by simp)

theorem State.memoryWf.resumeThread {c thr : Nat} {past : Bool} {s : State} (h : s.memoryWf) :
    (Machine.resumeThread c thr past s).1.memoryWf := by
  unfold Machine.resumeThread
  extract_lets r
  split
  · exact h
  split
  · exact h
  split
  · exact h.resumeRake
  split
  · exact h
  · exact (h.modCl (by rfl)).resumeRake
  · exact h

theorem State.memoryWf.resumeAct {c : Nat} {ctx : Option Nat} {past : Bool} {s : State} (h : s.memoryWf) :
    (Machine.resumeAct c ctx past s).1.memoryWf := by
  unfold Machine.resumeAct
  extract_lets inPlace out dying
  have hout : ∀ p, out = some p → Mem.wf p.image.sram = true := fun p e => h.spilled p (List.mem_of_find?_eq_some e)
  clear_value inPlace out
  cases inPlace with
  | some t =>
    dsimp -zeta only
    split
    · exact h
    split
    · split
      · exact h
      · exact h.passTrapped.resumeTask
      · exact h
    · exact h
    · exact h.resumeTask
  | none =>
    cases out with
    | none => exact h
    | some p =>
      have hp := hout p rfl
      dsimp -zeta only
      split
      · exact h
      split
      · exact h
      next t _ =>
        extract_lets src who e word w y q s1
        have hy : Mem.wf y.sram = true := by
          unfold y
          clear_value word
          split
          · rw [Cluster.pass_sram, Cluster.setWalk_sram]
            exact hp
          · exact hp
        have hq : Mem.wf q.image.sram = true := hy
        have hs1 : s1.memoryWf := h.replaceSpilled hq
        split
        · exact h
        split
        · exact h
        split
        · exact hs1.showTrapped
        split
        next e1 => exact State.memoryWf.fst (hs1.fillBack hq) e1
        · exact h.fillBack hp

theorem State.memoryWf.execResume {cl : Nat} {thr : Option Nat} {s : State} (h : s.memoryWf) :
    NextForm (Machine.execResume cl thr s) := by
  unfold Machine.execResume
  split
  · exact .next h.resumeThread
  · exact .next h.resumeAct

theorem State.memoryWf.execResumePast {cl : Nat} {thr : Option Nat} {s : State} (h : s.memoryWf) :
    NextForm (Machine.execResumePast cl thr s) := by
  unfold Machine.execResumePast
  split
  · exact .next h.resumeThread
  · exact .next h.resumeAct

theorem State.memoryWf.spillSoon {c : Nat} {s : State} (h : s.memoryWf) : (Machine.spillSoon c s).memoryWf := by
  unfold Machine.spillSoon
  extract_lets s1
  have hs1 : s1.memoryWf := h.spillTask
  exact State.memoryWf.ite (hs1.modCl rfl) hs1

theorem State.memoryWf.saveAct {c : Nat} {ctx : Option Nat} {s : State} (h : s.memoryWf) :
    (Machine.saveAct c ctx s).1.memoryWf := by
  unfold Machine.saveAct
  split
  · exact h
  split
  · exact h
  split
  · exact h.preemptTask.spillSoon
  · exact (h.modCl (by rfl)).spillSoon
  · exact h.spillSoon
  · exact h

theorem State.memoryWf.replayAct {die ctx : Nat} {s : State} (h : s.memoryWf) : (Machine.replayAct die ctx s).memoryWf := by
  unfold Machine.replayAct
  extract_lets s1 s2
  have hs1 : s1.memoryWf := h.replayCommands
  have hs2 : s2.memoryWf := hs1
  exact hs2.foldl fun _ _ h1 => h1.writeStatus

theorem State.memoryWf.dropContext {ctx : Nat} {s : State} (h : s.memoryWf) : (Machine.dropContext ctx s).memoryWf :=
  ⟨h.hbm, Mem.wf_map h.clusters fun _ => rfl, Mem.wf_map h.dies fun _ => rfl, h.spilled, h.mailboxes⟩

theorem State.memoryWf.revoke {ctx : Nat} {s : State} (h : s.memoryWf) : (Machine.revoke ctx s).memoryWf := h

theorem State.memoryWf.sendMarkers {ctx : Nat} {s : State} (h : s.memoryWf) : (Machine.sendMarkers ctx s).memoryWf := by
  unfold Machine.sendMarkers
  split
  · exact h
  extract_lets out s1
  have hs1 : s1.memoryWf := h
  exact hs1.foldl fun _ _ h1 => h1.send

theorem State.memoryWf.killAct {ctx : Nat} {s : State} (h : s.memoryWf) : (Machine.killAct ctx s).memoryWf := by
  unfold Machine.killAct
  split
  · exact h
  split
  · exact h
  · extract_lets mine s1 s2 s3 cs gone s4 s5 old s6 left
    have hs1 : s1.memoryWf := h.foldl fun _ _ h1 => (h1.modCl (by rfl)).setTpend
    have hs2 : s2.memoryWf :=
      ⟨hs1.hbm, hs1.clusters, Mem.wf_map hs1.dies fun e => by split <;> rfl, hs1.spilled, hs1.mailboxes⟩
    have hs3 : s3.memoryWf := hs2.revoke.dropContext
    have hs4 : s4.memoryWf := hs3.foldl fun _ _ h1 => h1.logCmd
    have hs5 : s5.memoryWf := hs4.discardCmds
    clear_value s5
    have hs6 : s6.memoryWf :=
      ⟨hs5.hbm, hs5.clusters, Mem.wf_map hs5.dies fun _ => rfl, Mem.wf_filtered hs5.spilled, hs5.mailboxes⟩
    exact (hs6.foldl fun _ _ h1 => h1.showTrapped).sendMarkers

theorem State.memoryWf.execTeardownComplete {ctx : Nat} {s : State} (h : s.memoryWf) :
    NextForm (Machine.execTeardownComplete ctx s) := by
  unfold Machine.execTeardownComplete
  split
  · exact .next h
  split
  · exact .next h
  · extract_lets clear s1 s2
    have hclear : ∀ s k, s.memoryWf → (clear s k).memoryWf := fun s k h1 =>
      State.memoryWf_modCl k _ h1.dropFills.dropTiles Mem.wf_nil
    have hs1 : s1.memoryWf := h.foldl hclear
    have hs2 : s2.memoryWf := hs1.foldl fun _ _ h1 => h1.writeStatus
    clear_value s2
    exact .next ⟨hs2.hbm, hs2.clusters, Mem.wf_map hs2.dies fun e => by dsimp only; split <;> rfl, hs2.spilled,
      hs2.mailboxes⟩

theorem State.memoryWf.tctlAct {die : Nat} {s : State} (h : s.memoryWf) : (Machine.tctlAct die s).memoryWf := by
  unfold Machine.tctlAct
  extract_lets v act ctx c off dying finish
  have hf (p : State × Nat) (hp : p.1.memoryWf) : (finish p).memoryWf := hp.modDie rfl
  clear_value act finish
  split
  · exact .ite (hf _ h) (.ite (.ite (hf _ h.resumeThread) (hf _ h)) (hf _ h.resumeAct))
  · exact .ite (hf _ h) (.ite (.ite (hf _ h.resumeThread) (hf _ h)) (hf _ h.resumeAct))
  · exact .ite (hf _ h) (.ite (h.congr rfl) (hf _ h.saveAct))
  · exact .ite (hf _ h) (hf _ h.replayAct)
  · exact .ite (hf _ h) h.killAct
  · exact hf _ h

end Sys2Proof.Machine
end

section
/-! SUPPORT. The canonical form of the memories (log 4) is kept: queues, graphs and events. -/

namespace Sys2Proof.Machine

theorem State.memoryWf.readQueue {ctx i : Nat} {s : State} (h : s.memoryWf) : (Machine.readQueue ctx i s).memoryWf := by
  unfold Machine.readQueue
  split
  · exact h
  extract_lets a k q
  split
  · exact (h.congr (by rfl)).logFault
  next e1 =>
    extract_lets e2 q1
    exact State.memoryWf.ite ((h.tableRead e1).congr rfl) (State.memoryWf.ite (((h.tableRead e1).congr (by rfl)).logFault)
        ((h.tableRead e1).congr rfl))

theorem State.memoryWf.parkQueue {k : Nat} {q : LaunchQueue} {cause : BitVec 8} {addr : Nat} {s : State} (h : s.memoryWf) :
    (Machine.parkQueue k q cause addr s).memoryWf :=
  (h.congr (by rfl)).logFault

theorem State.memoryWf.addGraph {q : Graph} {s : State} (h : s.memoryWf) : (Machine.addGraph q s).memoryWf := h

theorem State.memoryWf.serveRecord {ctx home r : Nat} {s t : State} (h : s.memoryWf)
    (e : Machine.serveRecord ctx home r s = .ok (some t)) : t.memoryWf := by
  unfold Machine.serveRecord at e
  dsimp only at e
  split at e
  · cases e; exact h.logFault
  split at e
  · cases e; exact h.logFault
  next s1 _ e1 =>
    have hs1 : s1.memoryWf := h.translate e1
    split at e
    · cases e; exact hs1.addGraph.writeStatus
    · split at e
      · cases e; exact hs1.addGraph.writeStatus
      split at e
      · cases e; exact hs1.addGraph.writeStatus
      split at e
      · cases e
      split at e
      · cases e
      next e2 => cases e; exact hs1.addGraph.wlAppend e2

theorem State.memoryWf.execLaunchRecord {ctx q : Nat} {s : State} (h : s.memoryWf) :
    NextForm (Machine.execLaunchRecord ctx q s) := by
  unfold Machine.execLaunchRecord
  extract_lets k
  split
  · exact .next h
  split
  · exact .next h
  split
  · exact .next h.readQueue
  split
  · exact .next h.parkQueue
  next e1 =>
    have h1 := h.tableRead e1
    split
    · exact .next h.parkQueue
    next e2 =>
      have h2 := h1.tableRead e2
      extract_lets head a
      split
      · exact .next h
      split
      · exact .next h.parkQueue
      next e3 =>
        have h3 := h2.tableRead e3
        split
        · exact .next h.parkQueue
        next e4 =>
          have h4 := h3.vaSyncWrite e4
          split
          · exact .next h.parkQueue
          · exact .next h
          next e5 => exact .next (h4.serveRecord e5)

theorem State.memoryWf.openGang {g ctx : Nat} {s : State} (h : s.memoryWf) : (Machine.openGang g ctx s).memoryWf := by
  unfold Machine.openGang
  split
  · extract_lets x
    have hx : x.memoryWf := h.emptyLogs
    exact hx
  · exact h

theorem State.memoryWf.placeGang {g : Nat} {x : Gang} {t : Stage} {own : List Nat} {far : List (Nat × Nat)} {s : State}
    (h : s.memoryWf) :
    (Machine.placeGang g x t own far s).memoryWf := by
  unfold Machine.placeGang
  extract_lets all single s1 put
  have hs1 : s1.memoryWf := h
  have hput : ∀ s c, s.memoryWf → (put s c).memoryWf := by
    intro s c h
    unfold put
    extract_lets task
    exact h.placeTask.takeTiles
  exact ((hs1.foldl hput).markTiles).openGang

theorem State.memoryWf.popItem {g die : Nat} {x : Gang} {t : Stage} {s : State} (h : s.memoryWf) :
    OptForm (Machine.popItem g die x t s) := by
  unfold Machine.popItem
  split
  · exact .none
  split
  next e1 => exact .some ((h.wlTake e1).congr rfl)
  · exact .none

theorem State.memoryWf.refuseManagement {die : Nat} {cause : BitVec 8} {s : State} (h : s.memoryWf) :
    (Machine.refuseManagement die cause s).memoryWf :=
  (h.modDie rfl)

theorem State.memoryWf.scheduleManagement {die code : Nat} {s : State} (h : s.memoryWf) :
    (Machine.scheduleManagement die code s).memoryWf := by
  unfold Machine.scheduleManagement
  extract_lets v ctx c x
  split
  · exact h
  split
  · exact h
  next e1 =>
    extract_lets e2 t1 cs
    split
    · exact h
    split
    · exact h
    split
    next e5 =>
      extract_lets task task1 regs
      split
      · exact ((((h.tableRead e1).wlTake) e5).wlComplete).refuseManagement
      split
      · exact ((((h.tableRead e1).wlTake) e5).placeTask).takeTiles
      split
      · exact ((((h.tableRead e1).wlTake) e5).wlComplete).refuseManagement
      next e8 => exact (((((h.tableRead e1).wlTake) e5).loadImageOf) e8).modDie rfl
    · exact h

theorem State.memoryWf.execStageSchedule {die g st : Nat} {s : State} (h : s.memoryWf) :
    NextForm (Machine.execStageSchedule die g st s) := by
  unfold Machine.execStageSchedule
  split
  · exact .next h.scheduleManagement
  extract_lets s0 n
  have hs0 : s0.memoryWf := h.noteAges
  split
  · extract_lets x4 s1
    have hs1 : s1.memoryWf := hs0
    split
    · exact .next hs0
    split
    · split
      · exact .next hs0
      · exact .next (hs1.foldl fun _ _ h1 => h1.send)
    split
    · exact .next hs0
    split
    · exact .next hs0
    split
    · exact .next hs0
    next e7 => exact .next (((hs1.popItem e7).placeGang).noteAges)
  · exact .next hs0

theorem State.memoryWf.execTaskLaunch {cl : Nat} {s : State} (h : s.memoryWf) : NextForm (Machine.execTaskLaunch cl s) := by
  unfold Machine.execTaskLaunch
  split
  · exact .next h
  split
  · exact .next h
  split
  next e2 => exact .next (h.launchTask e2)
  extract_lets s1
  have hs1 : s1.memoryWf := h.releaseTask.settleGang
  split
  · exact .next (hs1.modDie rfl)
  · exact .next (State.memoryWf.ite hs1.writeStatus hs1)

theorem State.memoryWf.confirmClusters {g : Nat} {x : Gang} {t : Stage} {s : State} (h : s.memoryWf) :
    (Machine.confirmClusters g x t s).memoryWf :=
  State.memoryWf.ite h h.modGang.send

theorem State.memoryWf.execGangPlacement {gang : Nat} {remote : List (Nat × Nat)} {s : State} (h : s.memoryWf) :
    NextForm (Machine.execGangPlacement gang remote s) := by
  unfold Machine.execGangPlacement
  split
  · exact .next h
  split
  · exact .next h
  extract_lets w fits here keep hold far all own rest late
  have hhold : hold.memoryWf := State.memoryWf.ite h.modGang h
  split
  · exact .next h
  split
  · split
    · exact .next (State.memoryWf.ite h.placeGang h)
    · exact .next h.confirmClusters
  split
  · exact .next hhold
  split
  · exact .next hhold
  next e5 =>
    extract_lets y
    exact .next (((h.popItem e5).placeGang).foldl fun _ _ h1 => h1.send)

theorem State.memoryWf.execReservationRelease {gang : Nat} {s : State} (h : s.memoryWf) :
    NextForm (Machine.execReservationRelease gang s) := by
  unfold Machine.execReservationRelease
  split
  · split
    · exact .next h
    split
    · exact .next h.modGang.send
    extract_lets s1
    have hs1 : s1.memoryWf := h.modGang
    exact .next (State.memoryWf.ite hs1.modGang hs1)
  · exact .next h

theorem State.memoryWf.execAgingPreempt {die g st : Nat} {s : State} (h : s.memoryWf) :
    NextForm (Machine.execAgingPreempt die g st s) := by
  unfold Machine.execAgingPreempt
  split
  · split
    · exact .next h
    extract_lets w fits
    split
    · exact .next (h.modCl rfl)
    · exact .next h
  · exact .next h

theorem State.memoryWf.execYield {s : State} (h : s.memoryWf) : NextForm (Machine.execYield s) := by
  unfold Machine.execYield
  extract_lets s1
  have hs1 : s1.memoryWf := h.retire
  split
  · split
    · exact .next (State.memoryWf.ite hs1.preemptTask hs1)
    · exact .next hs1
  · exact .next hs1

theorem State.memoryWf.execGraphEnd {g : Nat} {s : State} (h : s.memoryWf) : NextForm (Machine.execGraphEnd g s) := by
  unfold Machine.execGraphEnd
  split
  · exact .next h
  next e =>
    extract_lets stages quiet gone tell x2
    have htell : ∀ s e, s.memoryWf → (tell s e).memoryWf := by
      intro s e h
      unfold tell
      extract_lets devs
      exact h.foldl fun _ _ h1 => h1.send
    have hx2 : x2.memoryWf := h.foldl htell
    split
    · exact .next (hx2.congr (by rfl)).writeStatus
    · exact .next h

theorem State.memoryWf.fireEvent {die code : Nat} {ea eb : BitVec 16} {rnd : BitVec 32} {val : BitVec 48} {s : State}
    (h : s.memoryWf) : OptForm (Machine.fireEvent die code ea eb rnd val s) := by
  unfold Machine.fireEvent
  extract_lets d v s1
  have hs1 : s1.memoryWf := h.slicePut.modDie rfl
  split
  · exact .some h
  split
  · exact .some (h.modDie rfl)
  split
  · exact .some (h.modDie rfl)
  split
  · exact .some hs1
  split
  · exact .some hs1
  split
  · exact .none
  split
  · exact .some hs1
  next e =>
    rintro t rfl
    exact hs1.wlAppend e

theorem State.memoryWf.execEventFire {die code : Nat} {ea eb : BitVec 16} {rnd : BitVec 32} {val : BitVec 48} {s : State}
    (h : s.memoryWf) :
    NextForm (Machine.execEventFire die code ea eb rnd val s) := by
  unfold Machine.execEventFire
  refine .next ?_
  split
  next e => exact h.fireEvent e
  · exact h

theorem State.memoryWf.extendMeas {n : Nat} {digest : List Byte} {s : State} (h : s.memoryWf) :
    (Machine.extendMeas n digest s).memoryWf :=
  h

theorem State.memoryWf.bindEvent {die k : Nat} {v : Word} {s : State} (h : s.memoryWf) :
    (Machine.bindEvent die k v s).memoryWf := by
  unfold Machine.bindEvent
  extract_lets s1
  have hs1 : s1.memoryWf := h.modDie rfl
  exact State.memoryWf.ite hs1.extendMeas hs1

end Sys2Proof.Machine
end

section
/-! SUPPORT. The canonical form of the memories (log 4) is kept: contexts and translation. -/

namespace Sys2Proof.Machine

theorem State.memoryWf.xlinvAct {die : Nat} {s : State} (h : s.memoryWf) : (Machine.xlinvAct die s).memoryWf := by
  unfold Machine.xlinvAct
  extract_lets v keep s1
  have hs1 : s1.memoryWf := h.modDie rfl
  exact ⟨hs1.hbm, Mem.wf_map hs1.clusters fun e => by split <;> rfl, hs1.dies, hs1.spilled, hs1.mailboxes⟩

theorem State.memoryWf.xlinvWrite {die : Nat} {v : Word} {s : State} (h : s.memoryWf) :
    (Machine.xlinvWrite die v s).memoryWf :=
  State.memoryWf.ite h (h.modDie (by rfl)).xlinvAct

theorem State.memoryWf.l2pinChange {die : Nat} {v : Word} {s : State} (h : s.memoryWf) :
    (Machine.l2pinChange die v s).memoryWf :=
  State.memoryWf.ite (State.memoryWf_modDie _ _ h.l2Unway (Mem.wf_below _ (State.pinned_wf h.l2Unway die))) h

theorem State.memoryWf.dropQueues {n : Nat} {s : State} (h : s.memoryWf) : (Machine.dropQueues n s).memoryWf := h

theorem State.memoryWf.loadContextNum {n : Nat} {s : State} (h : s.memoryWf) : (Machine.loadContextNum n s).memoryWf := by
  unfold Machine.loadContextNum
  split
  · exact h
  extract_lets a s0
  have hs0 : s0.memoryWf := h.l2Read
  split
  · exact hs0
  extract_lets c1 s1
  have hs1 : s1.memoryWf := (hs0.congr (by rfl)).dropQueues
  exact hs1.foldl fun _ _ h1 => h1.readQueue

theorem State.memoryWf.unloadContextNum {n : Nat} {s : State} (h : s.memoryWf) : (Machine.unloadContextNum n s).memoryWf :=
  State.memoryWf.ite h (h.congr (by rfl)).dropQueues

theorem State.memoryWf.ctxAct {s : State} (h : s.memoryWf) : (Machine.ctxAct s).memoryWf := by
  unfold Machine.ctxAct
  extract_lets n s1
  have hs1 : s1.memoryWf := State.memoryWf.ite h.loadContextNum h.unloadContextNum
  exact hs1

end Sys2Proof.Machine
end

section
/-! SUPPORT. The canonical form of the memories (log 4) is kept: supervisor and cluster registers. -/

namespace Sys2Proof.Machine

theorem State.memoryWf.setFabt {tbl i : Nat} {d : BitVec 256} {s : State} (h : s.memoryWf) :
    (Machine.setFabt tbl i d s).memoryWf := by
  unfold Machine.setFabt
  split
  · exact h
  · exact h
  extract_lets old
  exact h

theorem State.memoryWf.fabtAct {s : State} (h : s.memoryWf) : (Machine.fabtAct s).memoryWf := by
  unfold Machine.fabtAct
  extract_lets v s0
  have hs0 : s0.memoryWf := h
  exact State.memoryWf.ite hs0 (State.memoryWf.ite hs0.setFabt (hs0.congr rfl))

theorem State.memoryWf.settleThresholds {s : State} (h : s.memoryWf) : (Machine.settleThresholds s).memoryWf := by
  unfold Machine.settleThresholds
  extract_lets crossed s1
  have hs1 : s1.memoryWf := ⟨h.hbm, h.clusters, Mem.wf_map h.dies fun _ => rfl, h.spilled, h.mailboxes⟩
  exact hs1.foldl fun _ _ h1 => h1.soon

theorem State.memoryWf.settleLogs {s : State} (h : s.memoryWf) : (Machine.settleLogs s).memoryWf :=
  (h.congr (by rfl)).foldl fun _ _ h1 => h1.logFault

theorem State.memoryWf.settle {s : State} (h : s.memoryWf) : (State.settle s).memoryWf := h.settleLogs.settleThresholds

theorem State.memoryWf.fireCrossings {n : Nat} {old s : State} (h : s.memoryWf) :
    (Machine.fireCrossings n old s).memoryWf := by
  unfold Machine.fireCrossings
  extract_lets fire
  have hf (temp : Bool) (s : State) (h : s.memoryWf) : (fire temp s).memoryWf := State.memoryWf.ite h h.soon
  exact hf _ _ (hf _ _ h)

theorem State.memoryWf.supStore {die n : Nat} {v : Word} {s : State} (h : s.memoryWf) :
    (Machine.supStore die n v s).memoryWf := by
  unfold Machine.supStore
  extract_lets onDie
  have hs : ∀ v, (s.setPlacement v).memoryWf := fun _ => h.setPlacement
  refine .ite (hs _) (.ite (hs _) (.ite (.ite (h.modDie (by rfl)).l2pinChange.soon h) (.ite (.ite h (h.modDie (by
    rfl)).soon) (.ite (h.congr rfl) ?_))))
  refine .ite (h.congr rfl) (.ite (h.modDie rfl) (.ite (h.modDie rfl) (.ite (h.modDie (by rfl)).soon (.ite
    (h.congr rfl) (.ite (h.congr rfl) ?_)))))
  refine .ite (.ite (h.modDie rfl) h) (.ite (h.modDie rfl) (.ite (h.modDie rfl) (.ite h.bindEvent (.ite (h.congr
    (by rfl)).fireCrossings (h.modDie rfl)))))

theorem State.memoryWf.supWrite {die n : Nat} {v : Word} {s : State} (h : s.memoryWf) :
    ExcForm (Machine.supWrite die n v s) := by
  unfold Machine.supWrite
  split
  · exact .error
  split
  · exact .error
  split
  · exact .error
  · exact .ok (h.modDie (by rfl)).supStore

theorem State.memoryWf.execRegisterWrite {die num : Nat} {v : Word} {s : State} (h : s.memoryWf) :
    NextForm (Machine.execRegisterWrite die num v s) := by
  refine .next (.ite h ?_)
  cases e : Machine.supWrite die num v s with
  | error => exact h
  | ok t => exact h.supWrite e

theorem State.memoryWf.regAct {die n : Nat} {s : State} (h : s.memoryWf) : (Machine.regAct die n s).memoryWf :=
  State.memoryWf.ite (h.modDie rfl) (State.memoryWf.ite h.xlinvAct (State.memoryWf.ite h.ctxAct
    (State.memoryWf.ite h.tctlAct
      (State.memoryWf.ite h.fabtAct h))))

theorem Keeps.readPointer {c k : Nat} : Keeps (Machine.readPointer c k) := by
  unfold Machine.readPointer
  refine .get fun s h => ?_
  split
  next x _ _ =>
    extract_lets v k1
    have hk1 : ∀ x, Keeps (k1 x) := fun x => .bind .waitIf fun _ => .pure
    split
    · exact .bind .waitIf fun _ => hk1 ()
    · exact hk1 ()
  · exact .pure

theorem Keeps.readReg {n : Nat} : Keeps (Machine.readReg n) := by
  unfold Machine.readReg
  refine .get fun s h => ?_
  extract_lets c k
  have hk : ∀ x, Keeps (k x) := fun x => .pure
  split
  · split
    · exact .readPointer
    split
    · exact .bind .awaitAll fun _ => hk ()
    · exact hk ()
  split
  · exact .trap
  · exact .bind .trapIf fun _ => .pure

theorem State.memoryWf.execMfc {d : Reg} {n : BitVec 14} {s : State} (h : s.memoryWf) :
    NextForm (Machine.execMfc d n s) := by
  unfold Machine.execMfc
  refine h.actOp ?_
  exact .bind .readReg fun _ => .modify fun _ h1 => h1.wr

theorem State.memoryWf.clusterStore {c n : Nat} {v : Word} {s : State} (h : s.memoryWf) :
    (Machine.clusterStore c n v s).memoryWf := by
  refine h.modCl ?_
  dsimp only
  split
  · exact Cluster.keep_sram ..
  split
  · exact Cluster.keep_sram ..
  split
  · exact Cluster.keep_sram ..
  split_ifs <;> rfl

theorem Keeps.writeReg {n : Nat} {v : Word} : Keeps (Machine.writeReg n v) := by
  unfold Machine.writeReg
  refine .get fun s h => ?_
  extract_lets c k
  have hk : ∀ x, Keeps (k x) := fun x => .ite (.modify fun _ h1 => h1.clusterStore) .trap
  split
  · exact .trap
  split
  · split
    · exact .trap
    split
    · exact .trap
    refine .bind .trapIf fun _ => ?_
    split
    · exact .bind .awaitAll fun _ => hk ()
    · exact hk ()
  refine .bind .trapIf fun _ => ?_
  split
  next e2 => exact .set (h.supWrite e2)
  · exact .trap
  · exact .waitFor

theorem State.memoryWf.execMtc {d : Reg} {n : BitVec 14} {s : State} (h : s.memoryWf) :
    NextForm (Machine.execMtc d n s) := by
  unfold Machine.execMtc
  refine h.actOp ?_
  exact .get fun s1 h1 => .writeReg

end Sys2Proof.Machine
end

section
/-! SUPPORT. The canonical form of the memories (log 4) is kept: the host, mailboxes and boot. -/

namespace Sys2Proof.Machine

theorem State.memoryWf.setMailbox {s : State} {k : Nat} {m : Mailbox} (h : s.memoryWf) (hm : Mem.wf m.payload = true) :
    (State.setMailbox s k m).memoryWf := by
  refine ⟨h.hbm, h.clusters, h.dies, h.spilled, fun e he => ?_⟩
  rcases KMap.mem_set he with rfl | he
  · exact hm
  · exact h.mailboxes e he

theorem State.memoryWf.signalMsix {k : Nat} {s : State} (h : s.memoryWf) : (Machine.signalMsix k s).memoryWf :=
  State.memoryWf.ite (h.congr rfl) (h.congr rfl)

theorem State.memoryWf.msixStore {o : Nat} {bs : List Byte} {s : State} (h : s.memoryWf) :
    (Machine.msixStore o bs s).memoryWf := by
  unfold Machine.msixStore
  extract_lets put s1
  have hput : ∀ s e, s.memoryWf → (put s e).memoryWf := by
    intro s e h
    unfold put
    split
    · exact h
    extract_lets k b
    exact h
  have hs1 : s1.memoryWf := h.foldl hput
  exact hs1.foldl fun _ _ h1 => h1.signalMsix

theorem State.memoryWf.refuseHost {s : State} {va : Nat} {cause : BitVec 8} (h : s.memoryWf) :
    (Machine.refuseHost s va cause).memoryWf :=
  h.logFault

theorem State.memoryWf.complete {bar o : Nat} {d : Option (List Byte)} {s : State} (h : s.memoryWf) :
    (Machine.complete bar o d s).memoryWf :=
  h

theorem State.memoryWf.barRead {bar o len : Nat} {s : State} (h : s.memoryWf) : (Machine.barRead bar o len s).memoryWf :=
  State.memoryWf.ite h h.complete

theorem State.memoryWf.execHostApertureRead {o len : Nat} {s : State} (h : s.memoryWf) :
    NextForm (Machine.execHostApertureRead o len s) := by
  unfold Machine.execHostApertureRead
  extract_lets w part
  have hpart : ∀ s b p, s.memoryWf → ResForm (part (s, b) p) := by
    intro s b p h1
    unfold part
    split
    next e => exact .ok (h1.vaRead e)
    · exact .error
  split
  · exact .next h
  split
  · exact .next h.refuseHost.complete
  split
  next e => exact .next (State.memoryWf.complete (ResForm.foldlM hpart _ h e))
  · exact .next (.ite h h.refuseHost.complete)

theorem State.memoryWf.execHostApertureWrite {o : Nat} {bytes : List Byte} {s : State} (h : s.memoryWf) :
    NextForm (Machine.execHostApertureWrite o bytes s) := by
  unfold Machine.execHostApertureWrite
  extract_lets w va part
  have hpart : ∀ s p, s.memoryWf → ExcForm (part s p) := fun s p h1 => h1.vaWrite.mapError
  split
  · exact .next h
  split
  · exact .next h.refuseHost
  split
  next e => exact .next (ExcForm.foldlM hpart _ h e)
  · exact .next (.ite h h.refuseHost)

theorem State.memoryWf.reply {k mst : Nat} {bs : List Byte} {s : State} (h : s.memoryWf) :
    (Machine.reply k mst bs s).memoryWf :=
  (h.setMailbox (Mem.wf_write _ _ (State.payload_wf h k))).signalMsix

theorem State.memoryWf.takeRequest {k : Nat} {s : State} (h : s.memoryWf) : (Machine.takeRequest k s).memoryWf := by
  unfold Machine.takeRequest
  extract_lets m ctx s1
  have hs1 : s1.memoryWf := h.setMailbox (State.payload_wf h k)
  split
  · exact h.reply
  · split
    · exact hs1
    · exact hs1
    · exact .ite hs1 hs1.reply
    · exact hs1.reply

theorem hostByteIn_wf {m : Mailbox} {i : Nat} {b : Byte} (h : Mem.wf m.payload = true) :
    Mem.wf (hostByteIn m i b).payload = true := by
  unfold hostByteIn
  split
  · exact h
  split
  · exact h
  split
  · exact Mem.wf_write _ _ h
  · exact h

theorem State.memoryWf.execMailboxWrite {k off : Nat} {bytes : List Byte} {s : State} (h : s.memoryWf) :
    NextForm (Machine.execMailboxWrite k off bytes s) := by
  unfold Machine.execMailboxWrite
  split
  · exact .next h
  split
  · exact .next h.count
  · extract_lets m s1
    have hfold : ∀ (l : List (Nat × Byte)) (m : Mailbox), Mem.wf m.payload = true →
        Mem.wf (l.foldl (fun m e => hostByteIn m e.1 e.2) m).payload = true := by
      intro l
      induction l with
      | nil => exact fun _ hm => hm
      | cons e l ih => exact fun _ hm => ih _ (hostByteIn_wf hm)
    have hs1 : s1.memoryWf := h.setMailbox (hfold _ _ (State.payload_wf h k))
    exact .next (.ite hs1.takeRequest hs1)

theorem State.memoryWf.execFaultLogState {k : Nat} {s : State} (h : s.memoryWf) :
    NextForm (Machine.execFaultLogState k s) := by
  unfold Machine.execFaultLogState
  refine .next ?_
  split
  · split
    · exact h.reply
    · exact h.reply
  · exact h

theorem State.memoryWf.answerSpdm {code k : Nat} {s : State} (h : s.memoryWf) : (Machine.answerSpdm code k s).memoryWf := by
  unfold Machine.answerSpdm
  split
  · extract_lets req
    exact State.memoryWf.ite h.reply h
  extract_lets req answer answer1
  have hanswer1 : ∀ bs, (answer1 bs).memoryWf := fun bs => h.send
  exact State.memoryWf.ite h (State.memoryWf.ite (hanswer1 _) (State.memoryWf.ite (hanswer1 _) h))

theorem State.memoryWf.failBoot {step : Nat} {s : State} (h : s.memoryWf) : (Machine.failBoot step s).memoryWf := h

theorem State.memoryWf.romReset {s : State} (h : s.memoryWf) : (Machine.romReset s).memoryWf :=
  ⟨h.setPlacement.hbm, by simp [Machine.romReset, State.reset]⟩

theorem State.memoryWf.execBoot {img : BootImage} {s : State} (h : s.memoryWf) : NextForm (Machine.execBoot img s) := by
  unfold Machine.execBoot
  extract_lets dying n x d x1
  have hx : x.memoryWf := h.extendMeas
  have hx1 : x1.memoryWf := h.extendMeas
  split
  · exact .next (State.memoryWf.ite h h.romReset)
  split
  · exact .next h
  split
  · exact .next (hx.congr rfl)
  split
  · exact .next h.failBoot
  split
  · exact .next h.failBoot
  · exact .next (hx1.congr rfl)

theorem State.memoryWf.execFunctionLevelReset {s : State} (h : s.memoryWf) :
    NextForm (Machine.execFunctionLevelReset s) := by
  unfold Machine.execFunctionLevelReset
  extract_lets s1 s2
  have hs1 : s1.memoryWf := h.foldl fun _ _ h1 => h1.killAct
  clear_value s1
  have hs2 : s2.memoryWf := ⟨hs1.hbm, hs1.clusters, Mem.wf_map hs1.dies fun _ => rfl, hs1.spilled, by simp [s2]⟩
  exact .next (.ite hs2.romReset hs2)

theorem State.memoryWf.execCounterRefresh {n : Nat} {v : Word} {s : State} (h : s.memoryWf) :
    NextForm (Machine.execCounterRefresh n v s) := by
  unfold Machine.execCounterRefresh
  split
  · exact .next h
  extract_lets s1
  have hs1 : s1.memoryWf := h
  exact .next (State.memoryWf.ite hs1 hs1.fireCrossings)

theorem State.memoryWf.execIslandThrottle {n : Nat} {s : State} (h : s.memoryWf) :
    NextForm (Machine.execIslandThrottle n s) := by
  unfold Machine.execIslandThrottle
  split
  · exact .next h
  · exact .next (h.congr rfl)

end Sys2Proof.Machine
end

section
/-! SUPPORT. The canonical form of the memories (log 4) is kept: scalar arithmetic. -/

namespace Sys2Proof.Machine

theorem State.memoryWf.bin {s : State} {f : Word → Word → Word} {d a : Reg} {b : Word} (h : s.memoryWf) :
    (State.bin s f d a b).memoryWf :=
  h.wr

theorem State.memoryWf.cmp {s : State} {f : Word → Word → Bool} {k : PIdx} {a : Reg} {b : Word} (h : s.memoryWf) :
    (State.cmp s f k a b).memoryWf :=
  h.wrK

theorem Keeps.coordOp {f : Word → Word → Option Word} {d a : Reg} {b : State → Word} : Keeps (Machine.coordOp f d a b) := by
  intro s h
  unfold Machine.coordOp
  split
  · exact .ok h.wr
  · exact .error

end Sys2Proof.Machine
end

section
/-! SUPPORT. The canonical form of the memories (log 4) is kept: lane instructions. -/

namespace Sys2Proof.Machine

theorem Keeps.readSrcs {t : Ty} {r : Round_} {l : List (As × Opnd)} : Keeps (Machine.readSrcs t r l) := by
  induction l with
  | nil => exact .pure
  | cons p l ih => exact .bind .readSrc fun _ => .bind ih fun _ => .pure

theorem State.memoryWf.laneInstr {i : Instr} {hd : VHead} {dk : As} {d : Opnd} {srcs : List (As × Opnd)}
    {f : Round_ → List Vec → Vec} {s : State} (h : s.memoryWf) :
    NextForm (Machine.laneInstr i hd dk d srcs f s) :=
  h.headOp fun _ => .bind .readSrcs fun _ => .writeDst

theorem State.memoryWf.elementWise {i : Instr} {hd : VHead} {g : LaneFn} {d : Opnd} {srcs : List Opnd} {s : State}
    (h : s.memoryWf) :
    NextForm (Machine.elementWise i hd g d srcs s) :=
  h.laneInstr

theorem State.memoryWf.codeWise {i : Instr} {hd : VHead} {g : Rm → Bool → List Nat → Nat} {d : Opnd} {srcs : List Opnd}
    {s : State} (h : s.memoryWf) :
    NextForm (Machine.codeWise i hd g d srcs s) :=
  h.laneInstr

theorem State.memoryWf.compareWise {i : Instr} {hd : VHead} {g : Nat → Nat → Bool} {d a b : Opnd} {s : State}
    (h : s.memoryWf) :
    NextForm (Machine.compareWise i hd g d a b s) :=
  h.laneInstr

theorem State.memoryWf.execVcvt {hd : VHead} {part : BitVec 2} {st : Ty} {d a : Opnd} {s : State} (h : s.memoryWf) :
    NextForm (Machine.execVcvt hd part st d a s) := by
  unfold Machine.execVcvt
  refine h.headOp fun x => ?_
  extract_lets k
  have hk : ∀ x, Keeps (k x) := fun x => .writeDst
  split
  · exact .bind .readSrc fun _ => hk _
  · exact .bind .readSrc fun _ => .bind .pure fun _ => hk _

theorem State.memoryWf.reduceInstr {i : Instr} {hd : VHead} {op : Ty → Bool → Rm → Nat → Nat → Nat} {d a : Opnd} {s : State}
    (h : s.memoryWf) :
    NextForm (Machine.reduceInstr i hd op d a s) :=
  h.laneInstr

theorem State.memoryWf.execVscan {hd : VHead} {tot : Bool} {op : ScanOp} {d e a b : Opnd} {s : State} (h : s.memoryWf) :
    NextForm (Machine.execVscan hd tot op d e a b s) := by
  unfold Machine.execVscan
  extract_lets t
  split
  · refine h.headOp fun x1 => .bind .readSrcs fun _ => ?_
    extract_lets l q
    exact .bind .writeDst fun _ => .writeDst
  · exact h.laneInstr
  · exact h.laneInstr

theorem State.memoryWf.execVscanc {hd : VHead} {op : ScanOp} {d e a b c : Opnd} {s : State} (h : s.memoryWf) :
    NextForm (Machine.execVscanc hd op d e a b c s) := by
  unfold Machine.execVscanc
  cases op with
  | affine => exact h.headOp fun _ => .bind .readSrcs fun _ => .bind .writeDst fun _ => .writeDst
  | add => exact h.laneInstr
  | max => exact h.laneInstr

theorem State.memoryWf.pickInstr {i : Instr} {hd : VHead} {d : Opnd} {srcs : List (As × Opnd)}
    {f : List (List Nat) → Nat → Nat}
    {s : State} (h : s.memoryWf) :
    NextForm (Machine.pickInstr i hd d srcs f s) :=
  h.laneInstr

theorem State.memoryWf.execVnft {hd : VHead} {d a b : Opnd} {s : State} (h : s.memoryWf) :
    NextForm (Machine.execVnft hd d a b s) := by
  unfold Machine.execVnft
  refine h.headOp fun x => .get fun s1 h1 => ?_
  extract_lets n
  refine .bind .trapIf fun _ => .bind .readSrc fun _ => ?_
  extract_lets m
  exact .bind .writeDst fun _ => .ite (.modify fun _ h2 => h2.setFlagOf) .pure

theorem Keeps.readPattern {o : Opnd} : Keeps (Machine.readPattern o) := by
  unfold Machine.readPattern
  refine .bind .spotOf fun _ => .bind .rawFetch fun _ => ?_
  split
  · exact .pure
  · exact .trap

theorem Keeps.extFormat {t : Ty} {w : BitVec 32} : Keeps (Machine.extFormat t w) := .bind .trapIf fun _ => .pure

theorem State.memoryWf.execVbfx {hd : VHead} {base : BitVec 10} {fmt : BitVec 32} {d a c : Opnd} {s : State}
    (h : s.memoryWf) :
    NextForm (Machine.execVbfx hd base fmt d a c s) :=
  h.headOp fun _ => .bind .extFormat fun _ => .bind .readPattern fun _ => .bind .trapIf fun _ =>
    .bind .readSrc fun _ => .writeDst

end Sys2Proof.Machine
end

section
/-! SUPPORT. The canonical form of the memories (log 4) is kept: vector loads, stores and moves. -/

namespace Sys2Proof.Machine

theorem State.memoryWf.execVld {hd : VHead} {d a : Opnd} {s : State} (h : s.memoryWf) :
    NextForm (Machine.execVld hd d a s) :=
  h.headOp fun _ => .bind .spotOf fun _ => .bind .readRun fun _ => .bind .stepPointer fun _ => .writeDst

theorem State.memoryWf.execVldbc {hd : VHead} {d a : Opnd} {s : State} (h : s.memoryWf) :
    NextForm (Machine.execVldbc hd d a s) := by
  unfold Machine.execVldbc
  refine h.headOp fun x => .bind .spotOf fun _ => .get fun s1 h1 => ?_
  split
  · exact .trapAt
  extract_lets w k
  have hk : ∀ x, Keeps (k x) := by
    intro x
    unfold k
    refine .get fun s2 h2 => ?_
    extract_lets code
    exact .bind .stepPointer fun _ => .writeDst
  split
  · exact .bind .awaitCol fun _ => hk ()
  · exact .bind .awaitOwed fun _ => hk ()

theorem State.memoryWf.execVst {hd : VHead} {d a : Opnd} {s : State} (h : s.memoryWf) :
    NextForm (Machine.execVst hd d a s) :=
  h.headOp fun _ => .bind .readSrc fun _ => .bind .spotOf fun _ => .bind .writeRun fun _ => .stepPointer

theorem Keeps.indexedElems {nf : Bool} {p : Spot} {z : Nat} {idx : List Nat} : Keeps (Machine.indexedElems nf p z idx) := by
  unfold Machine.indexedElems
  refine .get fun s h => .mapM fun x => ?_
  extract_lets a
  refine .bind .liftC fun _ => ?_
  extract_lets w
  exact .ite .trapAt (.ite .trap .pure)

theorem Keeps.indexed {hd : VHead} {p : Spot} {idx : Vec} : Keeps (Machine.indexed hd p idx) := by
  unfold Machine.indexed
  refine .get fun s h => ?_
  extract_lets z
  exact .bind .indexedElems fun _ => .pure

theorem State.memoryWf.execVldx {hd : VHead} {d a b : Opnd} {s : State} (h : s.memoryWf) :
    NextForm (Machine.execVldx hd d a b s) := by
  unfold Machine.execVldx
  refine h.headOp fun x => .bind .readSrc fun _ => .bind .spotOf fun _ => ?_
  refine .bind .indexed fun _ => .bind (.forM fun _ => .awaitOwed) fun _ => .get fun s1 h1 => ?_
  extract_lets cs
  exact .bind .stepPointer fun _ => .writeDst

theorem State.memoryWf.execVstx {hd : VHead} {d a b : Opnd} {s : State} (h : s.memoryWf) :
    NextForm (Machine.execVstx hd d a b s) := by
  unfold Machine.execVstx
  refine h.headOp fun x => .bind .readSrc fun _ => .bind .readSrc fun _ => .bind .spotOf fun _ => ?_
  refine .bind .indexed fun _ => .bind (.forM fun _ => .rejectOwed) fun _ => .bind ?_ fun x6 => ?_
  · refine .modify fun s h => ?_
    extract_lets cs
    exact h.foldl fun _ _ h1 => h1.slotWrite
  · exact .stepPointer

theorem Keeps.runSlots {t : Ty} {p : Spot} : Keeps (Machine.runSlots t p) := by
  unfold Machine.runSlots
  refine .get fun s h => ?_
  split
  · exact .bind .needNarrow fun _ => .bind .liftC fun _ => .pure
  extract_lets z
  exact .bind .liftC fun _ => .pure

theorem State.memoryWf.execVstm {hd : VHead} {d a b : Opnd} {s : State} (h : s.memoryWf) :
    NextForm (Machine.execVstm hd d a b s) := by
  unfold Machine.execVstm
  refine h.headOp fun x => .bind .readSrc fun _ => .bind .readSrc fun _ => ?_
  refine .bind .spotOf fun _ => .bind .runSlots fun _ => .bind .claimRun fun _ => .bind ?_ fun x6 => ?_
  · refine .modify fun s h => ?_
    extract_lets f cs
    exact h.foldl fun _ _ h1 => State.memoryWf.ite h1.slotWrite h1
  · exact .stepPointer

theorem State.memoryWf.execVstc {hd : VHead} {d a b : Opnd} {s : State} (h : s.memoryWf) :
    NextForm (Machine.execVstc hd d a b s) := by
  unfold Machine.execVstc
  refine h.headOp fun x => .bind .readSrc fun _ => .bind .readSrc fun _ => ?_
  extract_lets on
  refine .bind .spotOf fun _ => .get fun s1 h1 => ?_
  extract_lets w z len cs
  refine .bind .trapIf fun _ => ?_
  refine .bind .rejectOwed fun _ => .bind (.modify fun _ h2 => h2.foldl fun _ _ h3 => h3.slotWrite) fun _ => ?_
  split
  · exact .movePointer
  · exact .pure

theorem Keeps.baseVa {o : Opnd} : Keeps (Machine.baseVa o) := by
  unfold Machine.baseVa
  refine .get fun s h => ?_
  split
  · exact .pure
  · exact .trap

theorem Keeps.lineTarget {a : Word} {write : Bool} : Keeps (Machine.lineTarget a write) := by
  unfold Machine.lineTarget
  refine .get fun s h => ?_
  split
  · exact .trapAt
  split
  · exact .trapAt
  refine .bind .translateA fun _ => ?_
  split
  · exact .pure
  · exact .pure
  · exact .trapAt

theorem Keeps.lineLoad {a : Word} : Keeps (Machine.lineLoad a) :=
  .bind .lineTarget fun _ => .get fun _ _ => .bind (.liftA fun _ h1 => h1.targetRead) fun _ => .pure

theorem Keeps.lineStore {a : Word} {v : Vec} : Keeps (Machine.lineStore a v) := by
  unfold Machine.lineStore
  refine .bind .lineTarget fun _ => ?_
  refine .get fun s h => .bind (.liftU fun _ h1 => h1.targetWrite) fun _ => .modify fun s h => .addWack ?_
  split
  · exact h.modCl rfl
  · exact h

theorem State.memoryWf.execVldg {hd : VHead} {d a : Opnd} {s : State} (h : s.memoryWf) :
    NextForm (Machine.execVldg hd d a s) :=
  h.headOp fun _ => .bind .baseVa fun _ => .bind .lineLoad fun _ => .writeDst

theorem State.memoryWf.execVstg {hd : VHead} {d a : Opnd} {s : State} (h : s.memoryWf) :
    NextForm (Machine.execVstg hd d a s) :=
  h.headOp fun _ => .bind .readSrc fun _ => .bind .baseVa fun _ => .lineStore

theorem State.memoryWf.prefetch {a : Word} {s : State} (h : s.memoryWf) : (Machine.prefetch a s).memoryWf := by
  unfold Machine.prefetch
  extract_lets w c va page d same
  split
  · exact h
  split
  · split
    · exact h.modCl rfl
    · exact State.memoryWf.ite (h.modDie rfl) ((State.memoryWf.ite h h.endWalk).modDie rfl)
  split
  · exact h
  next e2 =>
    split
    · split
      · split
        next e5 => exact ((h.translate e2).cachedRead) e5
        · exact h
      · exact h
    · exact h

theorem State.memoryWf.execVpref {hd : VHead} {a : Opnd} {s : State} (h : s.memoryWf) :
    NextForm (Machine.execVpref hd a s) :=
  h.headOp fun _ => .bind .baseVa fun _ => .modify fun _ h1 => h1.prefetch

theorem Keeps.orNone {α : Type} {a : Act α} (ha : Keeps a) : Keeps (Machine.orNone a) := by
  intro s h
  unfold Machine.orNone
  split
  next e => exact .ok (ha h e)
  · split
    · exact .ok h
    · exact .error
  · exact .error

theorem State.memoryWf.execVldfl {hd : VHead} {d a b : Opnd} {s : State} (h : s.memoryWf) :
    NextForm (Machine.execVldfl hd d a b s) := by
  unfold Machine.execVldfl
  refine h.headOp fun x => .bind .baseVa fun _ => .bind (.orNone .lineLoad) fun _ => ?_
  split
  · exact .bind .writeDst fun _ => .writeDst
  · exact .bind .writeDst fun _ => .writeDst

theorem Keeps.twoRowLines {o : Opnd} {col : Bool} : Keeps (Machine.twoRowLines o col) :=
  .bind .spotOf fun _ => .get fun _ _ => .ite .trapAt .pure

theorem State.memoryWf.execVldb {hd : VHead} {base : BitVec 10} {fmt : BitVec 32} {d a c : Opnd} {s : State}
    (h : s.memoryWf) :
    NextForm (Machine.execVldb hd base fmt d a c s) :=
  h.headOp fun _ => .bind .extFormat fun _ => .bind .readPattern fun _ => .bind .trapIf fun _ => .bind .twoRowLines fun _ =>
      .bind .awaitOwed fun _ => .get fun _ _ => .bind .stepPointer fun _ => .writeDst

theorem State.memoryWf.execVstb {hd : VHead} {base : BitVec 10} {fmt : BitVec 32} {d a c : Opnd} {s : State}
    (h : s.memoryWf) :
    NextForm (Machine.execVstb hd base fmt d a c s) :=
  h.headOp fun _ => .bind .extFormat fun _ => .bind .readPattern fun _ => .bind .trapIf fun _ => .bind .readSrc fun _ =>
      .bind .twoRowLines fun _ => .bind .rejectOwed fun _ => .bind (.modify fun _ h1 => h1.sramWrite) fun _ => .stepPointer

theorem State.memoryWf.execVlds {hd : VHead} {base : BitVec 10} {fmt : BitVec 32} {d a c : Opnd} {s : State}
    (h : s.memoryWf) :
    NextForm (Machine.execVlds hd base fmt d a c s) :=
  h.headOp fun _ => .bind .extFormat fun _ => .bind .readPattern fun _ => .bind .trapIf fun _ => .bind .baseVa fun _ =>
      .bind .lineLoad fun _ => .bind .lineLoad fun _ => .writeDst

theorem Keeps.lineMerge {a : Word} {x : Xlat} {mask : Nat} {bs : List Byte} : Keeps (Machine.lineMerge a x mask bs) := by
  unfold Machine.lineMerge
  refine .get fun s h => ?_
  split
  · exact .liftU fun _ h1 => .error
  extract_lets parts at_
  refine .bind ?_ fun x2 => ?_
  · refine .forM fun x => ?_
    extract_lets part
    refine .bind (.liftU fun _ h1 => h1.targetWrite) fun _ => .modify fun s h => ?_
    split
    · exact h.modCl rfl
    · exact h
  · exact .ite .pure (.modify fun _ h1 => h1.addWack)

theorem State.memoryWf.execVsts {hd : VHead} {base : BitVec 10} {fmt : BitVec 32} {d a c : Opnd} {s : State}
    (h : s.memoryWf) :
    NextForm (Machine.execVsts hd base fmt d a c s) := by
  unfold Machine.execVsts
  refine h.headOp fun x => ?_
  refine .bind .extFormat fun _ => .bind .readPattern fun _ => .bind .trapIf fun _ => .bind .readSrc fun _ => ?_
  refine .bind .baseVa fun _ => .bind .lineTarget fun _ => .bind .lineTarget fun _ => .get fun s1 h1 => ?_
  extract_lets put str mask
  exact .bind .lineMerge fun _ => .lineMerge

theorem State.memoryWf.execVbr {t : Ty} {c : BrCond} {tok : Tok} {a : Opnd} {i : BitVec 32} {s : State} (h : s.memoryWf) :
    NextForm (Machine.execVbr t c tok a i s) := by
  unfold Machine.execVbr
  refine h.perform (.get fun s h => ?_)
  extract_lets me tgt r
  split
  · split
    · exact .bind (.modify fun _ h1 => h1.modCl rfl) fun _ => .goTo
    · exact .goTo
  split
  · refine .bind .inText fun _ => .bind .trapIf fun _ => .bind .straddleX fun _ =>
      .set (State.memoryWf.noteWait (h.modCl ?_))
    dsimp only
    split <;> rfl
  split
  · refine .bind .waitIf fun _ => .bind .popTokens fun _ => .bind .readSrc fun v => ?_
    refine .bind (.modify fun _ h1 => h1.modCl ?_) fun _ => .bind .pushTokens fun _ => .goTo
    exact Cluster.foldl_sram (fun _ e => by simp) _ _
  · exact .waitFor

end Sys2Proof.Machine
end

section
/-! SUPPORT. The canonical form of the memories (log 4) is kept: every instruction and event, and every step. -/

namespace Sys2Proof.Machine

theorem State.memoryWf.exec {i : Instr} {s : State} (h : s.memoryWf) : NextForm (Machine.exec i s) := by
  cases i <;> dsimp only [Machine.exec]
  -- Scalar loads and stores.
  case ld | ldLong => exact h.actOp .loadCoord
  case st | stLong => exact h.actOp .storeCoord
  case ldg | ldgLong => exact h.actOpW .loadVirt
  case stg | stgLong => exact h.actOp .storeVirt
  -- Windrows.
  case wlpush => exact h.execWlpush
  case wlpop => exact h.execWlpop
  case tdone => exact h.plainOp (fun _ h1 => h1.finishItem)
  -- The copy family.
  case byteCounterDelivery => exact .next (State.memoryWf.ite h h.countAll)
  case lineLanding => exact h.execLineLanding
  case ecopy => exact h.issueOp (fun _ => .checkEcopy)
  case egath | escat => exact h.issueOp (fun _ => .checkIndexed)
  case eacc => exact h.issueOp (fun _ => .checkEacc)
  case emark => exact h.issueOp (fun _ => .checkEmark)
  case efset => exact h.issueOp (fun _ => .checkEfset)
  case earm => exact h.execEarm
  case ewait => exact h.execEwait
  case edrain => exact h.execEdrain
  case ecancel => exact h.execEcancel
  case estat => exact h.execEstat
  case ebexp => exact h.execEbexp
  -- Batches, appends and sweeps.
  case eappend => exact h.issueOp (fun _ => .checkEappend)
  case windrowAppend => exact h.execWindrowAppend
  case terminationSweep => exact h.execTerminationSweep
  case ebatch => exact h.issueOp (fun _ => .checkEbatch)
  case batchGroup => exact h.execBatchGroup
  -- Ports and links.
  case portTraining | linkReplay => exact .next (State.memoryWf.ite h.setPort h)
  case linkDown => exact .next (State.memoryWf.ite h h.portDown)
  -- Reductions.
  case reductionContribution => exact .next h.contribute
  case reductionTimeout => exact h.execReductionTimeout
  case groupSlotDrain => exact h.execGroupSlotDrain
  -- Remote commands, carries and groups.
  case eget => exact h.issueOp (fun _ => .checkEget)
  case eput => exact h.issueOp (fun _ => .checkEput)
  case emcast => exact h.issueOp (fun _ => .checkEmcast)
  case eldred => exact h.issueOp (fun _ => .checkEldred)
  case flushNotice => exact .next h.takeNotice
  case ecarry => exact h.issueOp (fun _ => .checkEcarry)
  case egroup => exact h.execEgroup
  -- Collectives.
  case ecoll => exact h.issueOp (fun _ => .checkEcoll)
  case collectiveStep => exact h.execCollectiveStep
  -- Control flow, fences and flags.
  case fence => exact h.execFence
  case isync => exact h.execIsync
  case halt => exact h.execHalt
  case trap => exact h.actOp .trap
  case ftst => exact h.execFtst
  case fset => exact h.execFset
  case fclr => exact h.execFclr
  case fwait => exact h.execFwait
  case b | bLong => exact h.perform (.jump (fun _ h1 => h1))
  case bk | bkLong => exact h.perform .branchK
  case call | callLong => exact h.perform (.jump (fun _ h1 => h1.linkTo))
  case ret | jr => exact h.perform .jumpReg
  case loop | loopi => exact h.perform .openLoop
  case lexit => exact h.execLexit
  case meet => exact h.execMeet
  case bar => exact h.execBar
  case sigchk => exact h.execSigchk
  -- Message rings and rake threads.
  case recv => exact h.execRecv
  case recvt => exact h.execRecvt
  case recvtTimeout => exact h.execRecvtTimeout
  case rpeek => exact h.execRpeek
  case radv => exact h.execRadv
  case rsend => exact h.execRsend
  case rbind => exact h.execRbind
  case kwake => exact h.execKwake
  case ksleep => exact h.execKsleep
  case kid | clz | clzLong | popc | popcLong | sext | sextLong | li | liLong | liHi | kget | cid | cidLong =>
    exact h.plainOp (fun _ h1 => h1.wr)
  case ringArrival => exact .next h.ringArrive
  -- Routing rounds.
  case eroute => exact h.issueOp (fun _ => .checkEroute)
  case roundOpening | permitRequest | permitReply | doneMessage => exact .next h.takeMsg
  case placementTableRead => exact h.execPlacementTableRead
  case tokenRanking => exact h.execTokenRanking
  case roundDeadline => exact h.execRoundDeadline
  case binClose => exact h.execBinClose
  case roundRetirement => exact h.execRoundRetirement
  -- Packets that arrive.
  case packetArrival => exact h.execPacketArrival
  case carryArrival | pullLoad => exact .next (State.memoryWf.ite h.arrive h)
  case packetForward => exact .next h.forward
  case parkBufferRelease => exact h.execParkBufferRelease
  case writeAcknowledge => exact .next (h.modCl rfl)
  -- What the engines do of their own accord.
  case commandAcceptance => exact .next ((State.memoryWf.ite h.tryAccept h).acceptAway)
  case commandStart => exact h.execCommandStart
  case commandRetirement => exact h.execCommandRetirement
  case markerRetire => exact h.execMarkerRetire
  case combiningNodeMerge => exact h.execCombiningNodeMerge
  case eaccUpdate => exact h.execEaccUpdate
  -- The matrix engine.
  case mmac | mmacs => exact h.mOp (.productBody .mmacSteps .mmacSteps)
  case mrot => exact h.mOp (.productBody .mrotSteps .mrotSteps)
  case mgx => exact h.mOp (.productBody .mgxSteps .mgxSteps)
  case mgrp => exact h.mOp (.productBody .mgrpSteps .mgrpSteps)
  case mchk => exact h.mOp .mchkBody
  case mshape => exact h.mOp .mshapeBody
  case mzero => exact h.mOp .mzeroBody
  case mdrain => exact h.headOp (fun _ => .mdrainBody)
  case mmov => exact h.headOp (fun _ => .mmovBody)
  case mfill => exact h.mOp .mfillBody
  case mrel => exact h.mOp .mrelBody
  case mkeep => exact h.mOp .mkeepBody
  case mrd => exact h.mOp .mrdBody
  case followOn => exact h.execFollowOn
  -- Supersteps and rollbacks.
  case taskEnd => exact .next h.taskEnd
  case barrierCompletion => exact h.execBarrierCompletion
  case shadowSweep => exact h.execShadowSweep
  case rollback => exact h.execRollback
  case patrolScrub => exact .next (State.memoryWf.ite h.poison h)
  -- Traps, spills and fills.
  case trapEntry => exact h.execTrapEntry
  case walkDeadlock => exact h.execWalkDeadlock
  case preemption => exact h.execPreemption
  case spill => exact h.execSpill
  case fillBack => exact h.execFillBack
  case resume => exact h.execResume
  case resumePast => exact h.execResumePast
  case save => exact .next (State.memoryWf.ite h h.saveAct)
  case replayParked => exact .next h.replayAct
  case kill => exact .next h.killAct
  case teardownComplete => exact h.execTeardownComplete
  -- Queues, graphs and events.
  case launchRecord => exact h.execLaunchRecord
  case stageSchedule => exact h.execStageSchedule
  case taskLaunch => exact h.execTaskLaunch
  case gangPlacement => exact h.execGangPlacement
  case reservationRelease => exact h.execReservationRelease
  case agingPreempt => exact h.execAgingPreempt
  case yield => exact h.execYield
  case graphEnd => exact h.execGraphEnd
  case eventFire => exact h.execEventFire
  case evringWrite => exact .next (State.memoryWf.ite (h.modDie rfl) h)
  case evbindWrite => exact .next (State.memoryWf.ite h.bindEvent h)
  -- Contexts and translation.
  case translationWalk => exact .next h.endWalk
  case xlinvPage | xlinvContext | xlinvAll => exact .next h.xlinvWrite
  case invalidationComplete => exact .next (State.memoryWf.ite h (h.modDie rfl))
  case l2pinWrite => exact .next (State.memoryWf.ite h.l2pinChange h)
  case contextLoad => exact .next h.loadContextNum
  case contextUnload => exact .next h.unloadContextNum
  -- Supervisor and cluster registers.
  case fabcfgWrite | pcieLinkTraining => exact .next (State.memoryWf.ite (h.congr rfl) h)
  case fabricTableWrite | fabricTableRead => exact .next (h.congr (by rfl)).fabtAct
  case registerWrite => exact h.execRegisterWrite
  case mfc => exact h.execMfc
  case mtc => exact h.execMtc
  -- The host, mailboxes and boot.
  case hapctlWrite => exact .next (h.congr rfl)
  case hostApertureRead => exact h.execHostApertureRead
  case hostApertureWrite => exact h.execHostApertureWrite
  case mailboxWrite => exact h.execMailboxWrite
  case quiesce => exact .next (State.memoryWf.ite h.reply h)
  case faultLogState => exact h.execFaultLogState
  case getVersion | getCapabilities | negotiateAlgorithms | getDigests | getCertificate | challenge | getMeasurements =>
    exact .next h.answerSpdm
  case boot => exact h.execBoot
  case functionLevelReset => exact h.execFunctionLevelReset
  case counterRefresh => exact h.execCounterRefresh
  case islandThrottle => exact h.execIslandThrottle
  -- Scalar arithmetic.
  case add | addLong | sub | subLong | mul | mulLong | mulh | mulhLong | mulhn | mulhnLong | div | divLong | divn
      | divnLong | rem | remLong | remn | remnLong | and | andLong | or | orLong | xor | xorLong | shl | shlLong | shr
      | shrLong | sra | sraLong | min | minLong | max | maxLong | minn | minnLong | maxn | maxnLong | andn | andnLong
      | addi | addiLong | andi | andiLong | ori | oriLong | xori | xoriLong | shli | shliLong | shri | shriLong | srai
      | sraiLong => exact h.plainOp (fun _ h1 => h1.bin)
  case cmpeq | cmpeqLong | cmpne | cmpneLong | cmplt | cmpltLong | cmple | cmpleLong | cmpltn | cmpltnLong | cmplen
      | cmplenLong => exact h.plainOp (fun _ h1 => h1.cmp)
  case pand | por | pxor | pnot => exact h.plainOp (fun _ h1 => h1.wrK)
  case kset => exact h.plainOp (fun _ h1 => h1.setPreds)
  case nearad | nearadLong | clad | cladLong => exact h.actOp .coordOp
  case nop => exact h.plainOp (fun _ h1 => h1)
  -- Lane instructions.
  case vmov | vadd | vsub | vmul | vfma | vfms | vfnma | vneg | vabs | vmin | vmax | vclamp => exact h.elementWise
  case vmulh | vavg | vabsd | vand | vor | vxor | vandn | vnot | vshl | vshr | vsra | vclz | vpopc | vrnd | vexp
      | vlog | vrcp | vrsqrt | vtanh | vhash => exact h.codeWise
  case vcmpeq | vcmpne | vcmplt | vcmple => exact h.compareWise
  case vsel | vmsk | vcnt | vcmpr | vexpd => exact h.laneInstr
  case vcvt => exact h.execVcvt
  case vredadd | vredmax | vredmin => exact h.reduceInstr
  case vscan => exact h.execVscan
  case vscanc => exact h.execVscanc
  case vperm | vrot | vshuf | vdup | vsplat | viota => exact h.pickInstr
  case vnft => exact h.execVnft
  case vbfx => exact h.execVbfx
  -- Vector loads, stores and moves.
  case vld => exact h.execVld
  case vldbc => exact h.execVldbc
  case vst => exact h.execVst
  case vldx => exact h.execVldx
  case vstx => exact h.execVstx
  case vstm => exact h.execVstm
  case vstc => exact h.execVstc
  case vldg => exact h.execVldg
  case vstg => exact h.execVstg
  case vpref => exact h.execVpref
  case vldfl => exact h.execVldfl
  case vldb => exact h.execVldb
  case vstb => exact h.execVstb
  case vlds => exact h.execVlds
  case vsts => exact h.execVsts
  case vbr => exact h.execVbr

theorem State.memoryWf.begin {s : State} {a : Actor} (h : s.memoryWf) : (s.begin a).memoryWf :=
  State.memoryWf.congr h.settle rfl

theorem State.memoryWf.beginEvent {s : State} (h : s.memoryWf) : s.beginEvent.memoryWf :=
  State.memoryWf.congr (h.begin (a := .device)) rfl

theorem State.memoryWf.takeSoon {x : Soon} {s : State} (h : s.memoryWf) : NextForm (Machine.takeSoon x s) := by
  cases x with
  | fire => exact h.execEventFire
  | kill => exact .next h.killAct
  | taskEnd => exact .next h.taskEnd
  | ring => exact .next h.drainInbox
  | act => exact .next h.regAct
  | alert => exact .next h.alertGang
  | upset => exact .next h.strike
  | barRead => exact .next h.barRead
  | msixWrite => exact .next h.msixStore
  | product => exact .next h.partialProduct
  | fetch => exact .next (.ite (State.memoryWf.fetchAhead (h.congr rfl)) h)

theorem State.memoryWf.takeTurn {t : Turn} {s : State} (h : s.memoryWf) : NextForm (Machine.takeTurn t s) := by
  cases t with
  | walk w =>
    unfold Machine.takeTurn
    dsimp only
    split
    · have hp := (State.memoryWf.begin (a := actorOf w) h).plan (w := w)
      split
      next e => rw [e] at hp; exact .next hp
      next e => rw [e] at hp; exact State.memoryWf.exec hp
    · exact fun _ e => by cases e
  | event i => exact h.beginEvent.exec
  | soon x => exact h.begin.takeSoon

theorem State.memoryWf.step {s : State} (h : s.memoryWf) : NextForm (Machine.step s) := by
  unfold Machine.step
  split
  · exact h.takeTurn
  · exact State.memoryWf.takeTurn (h.congr rfl)

/-- Settles O8: each walker's plan, and each arm of every instruction and event, keeps the memories in form. -/
theorem stepKeepsMemoryForm : Obligations.StepKeepsMemoryForm :=
  fun _ _ h e => h.step e

end Sys2Proof.Machine
end

section
/-! SUPPORT. Memory management (R89, R90, R93, R103, R104): what invalidating, pinning and the context table leave. -/

namespace Sys2Proof.Machine

/-! ### Maps and memories -/

theorem KMap.get?_map {α : Type} {f : Nat × α → Nat × α} (hf : ∀ e, (f e).1 = e.1) (m : KMap α) (k : Nat) :
    KMap.get? (m.map f) k = (KMap.get? m k).map fun x => (f (k, x)).2 := by
  induction m with
  | nil => rfl
  | cons e t ih =>
    obtain ⟨j, x⟩ := e
    have key := hf (j, x)
    by_cases h : j = k
    · subst h; simp [KMap.get?, key]
    · simpa [KMap.get?, key, h] using ih

theorem KMap.getD_map {α : Type} {f : Nat × α → Nat × α} (hf : ∀ e, (f e).1 = e.1) {k : Nat} {d : α}
    (hd : (f (k, d)).2 = d) (m : KMap α) : KMap.getD (m.map f) k d = (f (k, KMap.getD m k d)).2 := by
  unfold KMap.getD
  rw [KMap.get?_map hf]
  cases KMap.get? m k with
  | none => exact hd.symm
  | some x => rfl

theorem KMap.get?_erase_ne {α : Type} (m : KMap α) {k j : Nat} (h : j ≠ k) :
    KMap.get? (KMap.erase m k) j = KMap.get? m j := by
  induction m with
  | nil => rfl
  | cons e t ih =>
    obtain ⟨i, x⟩ := e
    unfold KMap.erase at ih ⊢
    rw [List.filter_cons]
    by_cases hi : i = k
    · simpa [hi, KMap.get?, Ne.symm h] using ih
    · simp [hi, KMap.get?, ih]

theorem Mem.byte_below (m : Mem) (n a : Nat) : Mem.byte (Mem.below m n) a = if a < n then Mem.byte m a else 0#8 := by
  split
  · next h => exact Mem.byte_filter m _ a fun c _ hc => by simpa [hc] using h
  · next h => exact Mem.byte_none _ a fun c hc e => h (e ▸ Mem.mem_below hc)

/-! ### Invalidations (R90) -/

section Words

variable {ctx : Nat} {e : TlbEntry}

theorem xlinvWord_toNat {vpg scope : Nat} (hc : ctx < 65536) (hv : vpg < 2 ^ 32) (hs : scope < 4) :
    (xlinvWord ctx vpg scope).toNat = ctx * 2 ^ 48 + vpg * 65536 + scope := by
  rw [xlinvWord, BitVec.toNat_ofNat, Nat.mod_eq_of_lt hc, Nat.mod_eq_of_lt hv, Nat.mod_eq_of_lt hs]
  omega

theorem xlinvMatches_page (vpg : BitVec 32) (h0 : 0 < ctx) (hc : ctx < 65536) :
    xlinvMatches (xlinvWord ctx vpg.toNat 0).toNat e = true
      ↔ e.ctx = ctx ∧ e.base ≤ 65536 * vpg.toNat ∧ 65536 * vpg.toNat < e.base + 2 ^ e.size := by
  have hv := vpg.isLt
  rw [xlinvWord_toNat hc hv (by decide)]
  generalize vpg.toNat = v at hv
  have scope : (ctx * 2 ^ 48 + v * 65536 + 0) % 4 = 0 := by omega
  have number : bits (ctx * 2 ^ 48 + v * 65536 + 0) 63 48 = ctx := by
    rw [bits, Nat.shiftRight_eq_div_pow]; omega
  have page : bits (ctx * 2 ^ 48 + v * 65536 + 0) 47 16 = v := by
    rw [bits, Nat.shiftRight_eq_div_pow]; omega
  simp only [xlinvMatches, scope, number, page, Bool.and_eq_true, beq_iff_eq, bne_iff_ne, decide_eq_true_eq]
  refine ⟨fun ⟨⟨⟨hctx, _⟩, hlo⟩, hhi⟩ => ⟨hctx, hlo, hhi⟩, fun ⟨hctx, hlo, hhi⟩ => ⟨⟨⟨hctx, by omega⟩, hlo⟩, hhi⟩⟩

theorem xlinvMatches_context (h0 : 0 < ctx) (hc : ctx < 65536) :
    xlinvMatches (xlinvWord ctx 0 1).toNat e = true ↔ e.ctx = ctx := by
  rw [xlinvWord_toNat hc (by decide) (by decide)]
  have scope : (ctx * 2 ^ 48 + 0 * 65536 + 1) % 4 = 1 := by omega
  have number : bits (ctx * 2 ^ 48 + 0 * 65536 + 1) 63 48 = ctx := by
    rw [bits, Nat.shiftRight_eq_div_pow]; omega
  simp only [xlinvMatches, scope, number, Bool.and_eq_true, beq_iff_eq, bne_iff_ne]
  exact ⟨And.left, fun h => ⟨h, by omega⟩⟩

theorem xlinvMatches_all : xlinvMatches (xlinvWord 0 0 2).toNat e = true := rfl

end Words

section Invalidation

variable {s : State} {die : Nat} {v : Word}

theorem xlinvWrite_busy (h : (s.die die).xlbusy = true) : xlinvWrite die v s = s := by simp [xlinvWrite, h]

theorem xlinvWrite_idle (hd : die < 4) (h : (s.die die).xlbusy = false) :
    xlinvWrite die v s = xlinvAct die (s.modDie die fun d => { d with xlinv := v, xlbusy := true }) := by
  simp [xlinvWrite, h, Nat.not_lt.mpr (Nat.le_of_lt_succ hd)]

theorem xlinvAct_hbm : (xlinvAct die s).hbm = s.hbm := rfl

theorem die_xlinvAct : (xlinvAct die s).die die = { s.die die with
    tlb := (s.die die).tlb.filter fun e => !xlinvMatches (s.die die).xlinv.toNat e } :=
  State.die_modDie_self s die fun d => { d with
    tlb := d.tlb.filter fun e => !xlinvMatches (s.die die).xlinv.toNat e }

theorem cl_xlinvAct (c : Nat) : (xlinvAct die s).cl c = if dieOf c = die then { s.cl c with
    tlb := (s.cl c).tlb.filter fun e => !xlinvMatches (s.die die).xlinv.toNat e } else s.cl c := by
  refine (KMap.getD_map (fun e => ?_) ?_ s.clusters).trans ?_
  · dsimp only; split <;> rfl
  · dsimp only; split <;> rfl
  · show Prod.snd (if (dieOf c == die) = true then _ else _) = _
    simp only [beq_iff_eq]
    split <;> rfl

/-- What an invalidation that is not busy leaves of its die. -/
theorem die_xlinvWrite (hd : die < 4) (h : (s.die die).xlbusy = false) : (xlinvWrite die v s).die die = { s.die die with
    xlinv := v, xlbusy := true, tlb := (s.die die).tlb.filter fun e => !xlinvMatches v.toNat e } := by
  rw [xlinvWrite_idle hd h, die_xlinvAct, State.die_modDie_self]

theorem cl_xlinvWrite (hd : die < 4) (h : (s.die die).xlbusy = false) (c : Nat) : (xlinvWrite die v s).cl c =
    if dieOf c = die then { s.cl c with tlb := (s.cl c).tlb.filter fun e => !xlinvMatches v.toNat e } else s.cl c := by
  rw [xlinvWrite_idle hd h, cl_xlinvAct, State.die_modDie_self, State.cl_modDie]

theorem xlinvWrite_hbm : (xlinvWrite die v s).hbm = s.hbm := by
  unfold xlinvWrite
  split
  · rfl
  · exact xlinvAct_hbm

end Invalidation

/-! ### Pinned lines (R103) -/

section Pinned

variable {s : State} {die : Nat} {v : Word}

theorem readFrame_l2Unway (d pin : Nat) (s : State) : ReadFrame s (l2Unway d pin s) := by
  unfold l2Unway
  refine .trans ?_ (readFrame_l2Leave _ _)
  exact ⟨rfl, fun _ => rfl, fun _ => rfl⟩

theorem l2pinChange_within (h : v.toNat ≤ 12) : l2pinChange die v s = (l2Unway die v.toNat s).modDie die fun d =>
    { d with
      l2pin := v, pinned := Mem.below d.pinned (6291456 * v.toNat), pinBad := d.pinBad.filter fun k => k < 196608 * v.toNat } :=
  if_pos (decide_eq_true h)

theorem l2pinChange_beyond (h : 12 < v.toNat) : l2pinChange die v s = s :=
  if_neg (by simp [l2pinOk, h])

theorem byte_pinned_l2pinChange (h : v.toNat ≤ 12) (a : Nat) : Mem.byte ((l2pinChange die v s).die die).pinned a =
    if a < 6291456 * v.toNat then Mem.byte (s.die die).pinned a else 0#8 := by
  rw [l2pinChange_within h, State.die_modDie_self, (readFrame_l2Unway die v.toNat s).die die]
  exact Mem.byte_below _ _ a

end Pinned

/-! ### Contexts (R93, R104) -/

section Contexts

variable {s : State} {n : Nat} {x : Context}

theorem loadContextNum_bad (h0 : 0 < n) (hn : n ≤ 4095)
    (h : sectorCause s (s.ctxbase.toNat + 256 * n) 256 ≠ none ∨ contextOf s (s.hbmNat (s.ctxbase.toNat + 256 * n) 256) = none) :
    loadContextNum n s = { l2Read (s.ctxbase.toNat + 256 * n) 256 s with ctxerr := true } := by
  have none : (if (sectorCause s (s.ctxbase.toNat + 256 * n) 256).isSome then Option.none
      else contextOf s (s.hbmNat (s.ctxbase.toNat + 256 * n) 256)) = none := by
    rcases h with h | h
    · rw [if_pos (Option.isSome_iff_ne_none.mpr h)]
    · rw [h, ite_self]
  unfold loadContextNum
  rw [if_neg (by simp; omega)]
  dsimp only
  rw [none]

theorem loadContextNum_good (h0 : 0 < n) (hn : n ≤ 4095) (hs : sectorCause s (s.ctxbase.toNat + 256 * n) 256 = none)
    (hx : contextOf s (s.hbmNat (s.ctxbase.toNat + 256 * n) 256) = some x) (hc : KMap.get? s.contexts n = none)
    (hq : x.lqcnt = 0) : loadContextNum n s = dropQueues n
      { l2Read (s.ctxbase.toNat + 256 * n) 256 s with contexts := KMap.set s.contexts n x, ctxerr := false } := by
  unfold loadContextNum
  rw [if_neg (by simp; omega)]
  simp [hs, hx, hc, hq]

theorem unloadContextNum_eq (h0 : 0 < n) :
    unloadContextNum n s = dropQueues n { s with contexts := KMap.erase s.contexts n } :=
  if_neg (by simp; omega)

theorem queues_dropQueues : ∀ e ∈ (dropQueues n s).queues, e.1 / 16 ≠ n := fun _ he => by
  simpa using (List.mem_filter.mp he).2

end Contexts

/-! ### Walks (R89) -/

theorem endWalk_past {s : State} {die k : Nat} (h : (s.die die).walks.length ≤ k) : endWalk die k s = s := by
  unfold endWalk
  rw [List.getElem?_eq_none h]

theorem endWalk_error {s s1 : State} {die k : Nat} {w : TWalk} {e : BitVec 8} (hw : (s.die die).walks[k]? = some w)
    (hp : walkPage w.ctx (65536 * w.page) (s.modDie die fun d => { d with walks := d.walks.eraseIdx k }) = (s1, .error e)) :
    endWalk die k s = s1 := by
  unfold endWalk
  rw [hw]
  dsimp only
  rw [hp]

theorem endWalk_ok {s s1 : State} {die k : Nat} {w : TWalk} {r : Nat × Nat} (hw : (s.die die).walks[k]? = some w)
    (hp : walkPage w.ctx (65536 * w.page) (s.modDie die fun d => { d with walks := d.walks.eraseIdx k }) = (s1, .ok r)) :
    endWalk die k s = tlbFill (some die) w.cls (leafEntry w.ctx (65536 * w.page) r) s1 := by
  unfold endWalk
  rw [hw]
  dsimp only
  rw [hp]

/-- Settles O55: each event is the operation of its register, whose rules stand above. -/
theorem contextsAndTranslation : Obligations.ContextsAndTranslation := by
  rintro s die d rfl
  refine ⟨fun k w s1 hw => ⟨fun e hp => ?_, fun r hp => ?_⟩, fun k hk => ?_, fun hd idle => ⟨fun ctx vpg h0 hc => ?_, ?_⟩,
    fun busy ctx vpg => ?_, rfl, fun v hd => ⟨fun hv => ?_, fun hv => ?_⟩, fun n h0 hn => ⟨fun h => ?_, ?_, ?_⟩, rfl, rfl⟩
  -- Walks.
  · exact congrArg Host.Outcome.next (endWalk_error hw hp)
  · exact congrArg Host.Outcome.next (endWalk_ok hw hp)
  · exact congrArg Host.Outcome.next (endWalk_past hk)
  -- Invalidations.
  · refine ⟨⟨_, rfl, ?_, fun e => ?_, xlinvWrite_hbm⟩, ⟨_, rfl, ?_, fun e => ?_⟩⟩ <;> rw [die_xlinvWrite hd idle]
    · simp [List.mem_filter, ← xlinvMatches_page vpg h0 hc]
    · simp [List.mem_filter, ← xlinvMatches_context h0 hc]
  · refine ⟨_, rfl, ?_, ?_, fun c hc => ?_, fun c hc => ?_⟩
    · rw [die_xlinvWrite hd idle]
    · rw [die_xlinvWrite hd idle]; simp [xlinvMatches_all]
    · rw [cl_xlinvWrite hd idle, if_pos hc]; simp [xlinvMatches_all]
    · rw [cl_xlinvWrite hd idle, if_neg hc]
  · exact ⟨congrArg Host.Outcome.next (xlinvWrite_busy busy), congrArg Host.Outcome.next (xlinvWrite_busy busy),
      congrArg Host.Outcome.next (xlinvWrite_busy busy)⟩
  -- Pinned lines.
  · refine ⟨_, congrArg Host.Outcome.next (if_pos hd), ?_, byte_pinned_l2pinChange hv, ?_⟩ <;> rw [l2pinChange_within hv]
    · rw [State.die_modDie_self]
    · exact (readFrame_l2Unway die v.toNat s).hbm
  · exact congrArg Host.Outcome.next ((if_pos hd).trans (l2pinChange_beyond hv))
  -- Contexts.
  · exact congrArg Host.Outcome.next (loadContextNum_bad h0 hn h)
  · intro x hs hx hc hq
    refine ⟨_, congrArg Host.Outcome.next (loadContextNum_good h0 hn hs hx hc hq), KMap.get?_set_self _ _ _, rfl, ?_⟩
    exact (readFrame_l2Read _ 256 s).hbm
  · exact ⟨_, congrArg Host.Outcome.next (unloadContextNum_eq h0), KMap.get?_erase_self _ _,
      fun m hm => KMap.get?_erase_ne _ hm, queues_dropQueues⟩

end Sys2Proof.Machine
end

section
/-! SUPPORT. The shadow sweep (R97) of a table that ends within a word: the word is zeroed whole, beyond the table's end. -/

namespace Sys2Proof.Machine

/-- A context of 32 checked bytes, whose table is one byte long and ends within its only word. The device takes multiples of
2 MiB only from a descriptor (R93); the statement speaks of every context. -/
def shortContext : Context := { (default : Context) with cksize := 32 }

/-- The word at 0 is of generation 256, which is not the present one; its last byte, at 3, lies beyond the table. -/
def shortTable : State := { State.reset with hbm := [(0, 1#8), (3, 0x10#8)], contexts := [(1, shortContext)] }

theorem execShadowSweep_shortTable : exec (.shadowSweep 1) shortTable = .next { sweep shortContext (fun n => n != 0) shortTable with
    contexts := KMap.set shortTable.contexts 1 { shortContext with sweepDue := false } } := rfl

theorem hbm_sweep_shortTable : (sweep shortContext (fun n => n != 0) shortTable).hbm = [] := by decide +kernel

/-- Refutes O54: the sweep of `shortTable` zeroes the byte at 3, which lies outside the table. -/
theorem not_supersteps : ¬ Obligations.Supersteps := by
  unfold Obligations.Supersteps
  rintro ⟨_, _, sweeps, _⟩
  obtain ⟨u, run, _, outside, _⟩ := sweeps shortTable 1 shortContext rfl
  rw [execShadowSweep_shortTable] at run
  cases run
  have kept : Mem.byte (sweep shortContext (fun n => n != 0) shortTable).hbm 3 = Mem.byte shortTable.hbm 3 :=
    outside 3 (by decide)
  rw [hbm_sweep_shortTable] at kept
  exact absurd kept (by decide)

end Sys2Proof.Machine
end

section
/-! SUPPORT. One instruction of a vector engine (R166, R209): what comes of its body, and actions taken over a list that leave
the state as it is. -/

namespace Sys2Proof.Machine

section HeadOp

variable {i : Instr} {hd : VHead} {slots : List Opnd} {body : Round_ → Act Unit} {s s1 : State}
  (start : s.vecStart hd.tok slots s1)
include start

/-- A body that succeeds is followed by the count of roundings, the pushes and the passing (R209). -/
theorem headOp_ok {s2 : State} (h : body (s.round hd) s1 = .ok ((), s2)) :
    headOp i hd slots body s = .next (s2.vecEnd i hd.tok (s.round hd)) := by
  obtain ⟨once, pop⟩ := start
  refine perform_ok ?_
  rw [once, Act.bind_ok (Act.trapIf_run _ _ _), Act.bind_ok pop]
  exact (Act.bind_ok h).trans rfl

/-- A body that stops on a precise cause leaves nothing but the trap, the tokens unpopped (R209). -/
theorem headOp_trap {c : BitVec 8} {v : Word} (h : body (s.round hd) s1 = .error (.trap c v)) :
    headOp i hd slots body s = .next (s.raise c v) := by
  obtain ⟨once, pop⟩ := start
  refine perform_trap ?_
  rw [once, Act.bind_ok (Act.trapIf_run _ _ _), Act.bind_ok pop]
  exact Act.bind_error h

end HeadOp

/-! ### Actions one after another -/

theorem liftC_ok {α : Type} {a : Nat} {x : Except (BitVec 8) α} {v : α} (h : x = .ok v) (s : State) : liftC a x s = .ok (v, s) := by
  rw [h]; rfl

theorem ok_of_liftC {α : Type} {a : Nat} {x : Except (BitVec 8) α} {v : α} {s t : State} (h : liftC a x s = .ok (v, t)) :
    x = .ok v := by
  cases x with
  | ok w => cases h; rfl
  | error e => cases h

/-- A sequence that succeeds has had its first action succeed. -/
theorem Act.bind_inv {α β : Type} {a : Act α} {f : α → Act β} {s t : State} {v : β} (h : (a >>= f) s = .ok (v, t)) :
    ∃ x u, a s = .ok (x, u) ∧ f x u = .ok (v, t) := by
  rw [Act.bind_run] at h
  cases ha : a s with
  | error e => rw [ha] at h; cases h
  | ok r => rw [ha] at h; exact ⟨r.1, r.2, rfl, h⟩

/-- Two ways to the same continuation. -/
theorem Act.ite_bind {α β : Type} (p : Prop) [Decidable p] (a b : Act α) (f : α → Act β) :
    (if p then a >>= f else b >>= f) = (if p then a else b) >>= f := by
  split <;> rfl

/-! ### Actions over a list -/

section Lists

variable {α β γ : Type} {s : State}

theorem Act.forM_stays {f : α → Act PUnit} {l : List α} (h : ∀ x ∈ l, f x s = .ok ((), s)) : l.forM f s = .ok ((), s) := by
  induction l with
  | nil => rfl
  | cons x l ih =>
    exact (Act.bind_ok (h x List.mem_cons_self)).trans (ih fun y hy => h y (List.mem_cons_of_mem _ hy))

theorem Act.mapM_stays {f : β → Act γ} {v : α → β} {g : α → γ} {l : List α} (h : ∀ x ∈ l, f (v x) s = .ok (g x, s)) :
    (l.map v).mapM f s = .ok (l.map g, s) := by
  induction l with
  | nil => rfl
  | cons x l ih =>
    rw [List.map_cons, List.mapM_cons, Act.bind_ok (h x List.mem_cons_self),
      Act.bind_ok (ih fun y hy => h y (List.mem_cons_of_mem _ hy))]
    rfl

theorem mapIdx_map_range (f : Nat → α → β) (g : Nat → α) (n : Nat) :
    ((List.range n).map g).mapIdx f = (List.range n).map fun i => f i (g i) :=
  List.ext_getElem (by simp) (by simp)

theorem zipIdx_map_range (g : Nat → α) (n : Nat) : ((List.range n).map g).zipIdx = (List.range n).map fun i => (g i, i) :=
  List.ext_getElem (by simp) (by simp)

/-- A list is its elements by number. -/
theorem map_getD_range (l : List α) (d : α) : (List.range l.length).map (fun i => l.getD i d) = l :=
  List.ext_getElem (by simp) (by simp +contextual)

/-- The values of a list taken in order with their numbers. -/
theorem foldl_numbered {σ : Type} (f : σ → Nat → β → σ) (g : α → β) (l : List α) (u : σ) :
    ((List.range (l.map g).length).zip (l.map g)).foldl (fun u e => f u e.1 e.2) u = l.zipIdx.foldl (fun u e => f u e.2 (g e.1)) u := by
  have pairs : (List.range (l.map g).length).zip (l.map g) = l.zipIdx.map fun e => (e.2, g e.1) :=
    List.ext_getElem (by simp) (by simp)
  rw [pairs, List.foldl_map]

end Lists

end Sys2Proof.Machine
end

section
/-! SUPPORT. The loads and stores of scratchpad runs (R121, R153, R214 to R216). -/

namespace Sys2Proof.Machine

/-! ### Lanes (R201) -/

theorem lanesOf_eq (t : Ty) (v : Vec) : lanesOf t v = (List.range t.lanes).map (laneAt t v) := by
  simp [lanesOf, lanesZ, laneAt, Nat.shiftRight_eq_div_pow]

/-- What each lane of a value gives, by the lane's number. -/
theorem mapIdx_lanesOf {β : Type} (t : Ty) (v : Vec) (f : Nat → Nat → β) :
    (lanesOf t v).mapIdx f = (List.range t.lanes).map fun i => f i (laneAt t v i) := by
  rw [lanesOf_eq, mapIdx_map_range]

theorem getD_lanesOf {t : Ty} {i : Nat} (h : i < t.lanes) (v : Vec) : (lanesOf t v).getD i 0 = laneAt t v i := by
  simp [lanesOf_eq, h]

/-! ### Lines read and written as they are (R121, R406) -/

theorem rowsEcc_clean {s : State} {c : Nat} (h : (s.cl c).bad = []) (ls : List Nat) : rowsEcc c ls s = some s := by
  have rows : ls.foldlM rowEcc (s.cl c) = some (s.cl c) := by
    induction ls with
    | nil => rfl
    | cons l ls ih => rw [List.foldlM_cons, show rowEcc (s.cl c) l = some (s.cl c) by simp [rowEcc, rowErrors, h]]; exact ih
  simp [rowsEcc, rows, h]

section Clean

variable {s : State} {c : Nat} {ls : List Nat} (haway : away s s.selfCtx c = false)
  (howed : (ls.any fun l => owedLine (s.cl c) l) = false)
include haway howed

theorem rejectLines_ok (addr : Nat) : rejectLines c ls addr s = .ok ((), s) := by
  rw [rejectLines, Act.bind_ok (awaitHome_ok haway), Act.bind_ok (Act.get_run s)]
  simp only [howed]
  rfl

theorem awaitOwed_run {s1 : State} (h : rowsEcc c ls s = some s1) : awaitOwed c ls s = .ok ((), s1) := by
  rw [awaitOwed, Act.bind_ok (awaitLines_ok haway howed), fetchRows_run h]

theorem rejectOwed_run {s1 : State} (h : rowsEcc c ls s = some s1) (addr : Nat) : rejectOwed c ls addr s = .ok ((), s1) := by
  rw [rejectOwed, Act.bind_ok (rejectLines_ok haway howed addr), fetchRows_run h]

end Clean

/-! ### The elements that indices name (R215) -/

section Element

variable {s : State} {p : Spot} {z : Nat} {t : Ty} {i c b : Nat} (h : elementAt s p z t i c b)
include h

/-- An element is read where nothing is owed and no bit is in error: the state stays. -/
theorem elementAt_awaitOwed : awaitOwed c [b / 1024] s = .ok ((), s) := by
  obtain ⟨-, -, -, -, haway, howed, hbad⟩ := h
  exact awaitOwed_run haway (by simp [howed]) (rowsEcc_clean hbad _)

theorem elementAt_rejectOwed (addr : Nat) : rejectOwed c [b / 1024] addr s = .ok ((), s) := by
  obtain ⟨-, -, -, -, haway, howed, hbad⟩ := h
  exact rejectOwed_run haway (by simp [howed]) (rowsEcc_clean hbad _) addr

end Element

/-- The elements of an indexed access that all lie where they may be reached. -/
theorem indexed_ok {hd : VHead} {p : Spot} {idx : Vec} {s : State} {cl bit : Nat → Nat}
    (h : ∀ i, i < hd.ty.lanes → elementAt s p (s.widthAt p) hd.ty (laneAt hd.ty idx i) (cl i) (bit i)) :
    indexed hd p idx s = .ok ((s.widthAt p, (List.range hd.ty.lanes).map fun i => (cl i, bit i)), s) := by
  have elems : indexedElems hd.ty.isN p (s.widthAt p) (lanesOf hd.ty idx) s =
      .ok ((List.range hd.ty.lanes).map fun i => (cl i, bit i), s) := by
    rw [indexedElems, Act.bind_ok (Act.get_run s), lanesOf_eq]
    refine Act.mapM_stays fun i hi => ?_
    obtain ⟨⟨off, hplace, hbit⟩, hbank, hslot, hnarrow, -⟩ := h i (List.mem_range.mp hi)
    have byte : bit i / 8 = off := by omega
    rw [byte] at hbank hslot hnarrow
    have wide : (slotBits (fmtWordOf s (cl i) (off / 65536)) != s.widthAt p
        || (hd.ty.isN && bits (fmtWordOf s (cl i) (off / 65536)) 3 0 != 11)) = false := by
      cases hn : hd.ty.isN with
      | false => simp [hslot]
      | true => simp [hslot, hnarrow hn]
    refine (Act.bind_ok (liftC_ok hplace s)).trans ?_
    simp only [hbank, wide]
    rw [hbit]
    rfl
  rw [indexed, Act.bind_ok (Act.get_run s)]
  exact (Act.bind_ok elems).trans rfl

/-! ### A pointer that may not be used so (R91, R153, R216) -/

theorem spotOf_trap {s : State} {k : BitVec 11} {mis : Bool → State → Nat → Nat → Bool} (col : Bool) (h : s.ownsPtr k)
    (hm : mis (bit (s.ptrWord k) 60) s s.here.1 (bits (s.ptrWord k) 21 0) = true) :
    spotOf (.p k) col mis s = .error (.trap 0x28#8 (BitVec.ofNat 64 (bits (s.ptrWord k) 21 0))) := by
  obtain ⟨bound, mine⟩ := h
  have owner : (bits (s.ptrWord k) 63 61 == 0 || bits (s.ptrWord k) 63 61 != engNum s.here.2) = false := by
    simp only [Bool.or_eq_false_iff, beq_eq_false_iff_ne, bne_eq_false_iff_eq]
    exact ⟨bound, mine⟩
  unfold State.ptrWord at owner hm ⊢
  refine Act.bind_error ?_
  rw [usePointer, Act.bind_ok (Act.get_run s)]
  simp only [owner, hm]
  rfl

/-- A dense run is misplaced by a column pointer, and beyond two lines of one block. -/
theorem denseMis_of {k c off len : Nat} {col : Bool} {s : State} (hlen : denseBytes s c off k = len)
    (h : col = true ∨ (len ≠ 0 ∧ (off / 8192 ≠ (off + len - 1) / 8192 ∨ 1 < (off + len - 1) / 128 - off / 128))) :
    denseMis k col s c off = true := by
  subst hlen
  rcases h with rfl | ⟨h0, hfar⟩
  · rfl
  · simp [denseMis, h0, hfar]

theorem wf_of_fields {i : Instr} (h : (checksOf i).fields = false) : wf i = false := by rw [wf, h]; rfl

/-! ### The runs that masked and dense stores take (R216) -/

/-- A run has a slot for each lane. -/
theorem runBits_length {n z off : Nat} {col : Bool} {ps : List Nat} (h : runBits n z off col = .ok ps) : ps.length = n := by
  unfold runBits at h
  dsimp only at h
  repeat' split at h
  all_goals cases h
  all_goals simp

theorem fetchBits_length {off : Nat} {col : Bool} {ps : List Nat} (h : fetchBits off col = .ok ps) : ps.length = 64 := by
  unfold fetchBits at h
  repeat' split at h
  all_goals cases h
  all_goals simp

theorem runSlots_length {t : Ty} {p : Spot} {q : Nat × List Nat} {s : State} (h : runSlots t p s = .ok (q, s)) :
    q.2.length = t.lanes := by
  rw [runSlots, Act.bind_ok (Act.get_run s)] at h
  cases hn : t.isN with
  | true =>
    rw [hn, if_pos rfl] at h
    obtain ⟨-, s1, -, h⟩ := Act.bind_inv h
    obtain ⟨ps, s2, hps, h⟩ := Act.bind_inv h
    have cells := fetchBits_length (ok_of_liftC hps)
    have lanes : t.lanes = 128 := by
      cases t with
      | nf => rfl
      | _ => cases hn
    cases h
    simp [List.length_flatMap, cells, lanes]
  | false =>
    rw [hn, if_neg Bool.false_ne_true] at h
    obtain ⟨ps, s1, hps, h⟩ := Act.bind_inv h
    cases h
    exact runBits_length (ok_of_liftC hps)

end Sys2Proof.Machine
end

section
namespace Sys2Proof.Machine.Settled

/-- Settles O36: each body runs piece by piece to the end that its pieces' results name; an indexed access finds its elements where
the statement has them, and the stores go over the lanes in order. -/
theorem scratchpadVectors : Obligations.ScratchpadVectors := by
  intro hd d a b s s1 t r start
  refine ⟨?vld, ?vst, ?vldbc, ?vldx, ?vstx, ?vstm, ?vstc, ?vldxColumn, ?column, ?malformed⟩
  case vld =>
    intro s2 s3 s4 s5 p v hp hv hs hw
    show execVld hd d a s = _
    refine headOp_ok start ?_
    rw [Act.bind_ok hp, Act.bind_ok hv, Act.bind_ok hs]
    exact hw
  case vst =>
    intro s2 s3 s4 s5 p v hv hp hw hs
    show execVst hd d a s = _
    refine headOp_ok start ?_
    rw [Act.bind_ok hv, Act.bind_ok hp, Act.bind_ok hw]
    exact hs
  case vldbc =>
    intro s2 s3 s4 s5 p hp aligned hread hs hw
    show execVldbc hd d a s = _
    refine headOp_ok start ?_
    rw [Act.bind_ok hp, Act.bind_ok (Act.get_run s2)]
    simp only [aligned, Bool.false_eq_true, if_false, Act.ite_bind]
    refine (Act.bind_ok hread).trans ?_
    rw [Act.bind_ok (Act.get_run s3), Act.bind_ok hs]
    exact hw
  case vldx =>
    intro s2 s3 s4 s5 p idx cl bit hidx hp elems hs hw
    show execVldx hd d a b s = _
    refine headOp_ok start ?_
    rw [Act.bind_ok hidx, Act.bind_ok hp, Act.bind_ok (indexed_ok elems)]
    have fetched : ((List.range t.lanes).map fun i => (cl i, bit i)).forM (fun e => awaitOwed e.1 [e.2 / 1024]) s3 = .ok ((), s3) := by
      refine Act.forM_stays fun e he => ?_
      obtain ⟨i, hi, rfl⟩ := List.mem_map.mp he
      exact elementAt_awaitOwed (elems i (List.mem_range.mp hi))
    refine (Act.bind_ok fetched).trans ?_
    rw [Act.bind_ok (Act.get_run s3), Act.bind_ok hs, mapIdx_map_range]
    exact hw
  case vstx =>
    intro s2 s3 s4 s5 p v idx cl bit hv hidx hp elems code hs
    show execVstx hd d a b s = _
    refine headOp_ok start ?_
    rw [Act.bind_ok hv, Act.bind_ok hidx, Act.bind_ok hp, Act.bind_ok (indexed_ok elems)]
    have claimed : (((List.range t.lanes).map fun i => (cl i, bit i)).zip (lanesOf t idx)).forM
        (fun e => rejectOwed e.1.1 [e.1.2 / 1024] (elemAddr p (s4.widthAt p) e.2).toNat) s4 = .ok ((), s4) := by
      rw [lanesOf_eq, List.zip_map']
      refine Act.forM_stays fun e he => ?_
      obtain ⟨i, hi, rfl⟩ := List.mem_map.mp he
      exact elementAt_rejectOwed (elems i (List.mem_range.mp hi)) _
    refine (Act.bind_ok claimed).trans ?_
    have codes : ((lanesOf t v).mapIdx fun i c =>
        let e := ((List.range t.lanes).map fun i => (cl i, bit i)).getD i (0, 0)
        if t.isN then c else convert (fmtTy t) (fmtAtBit s4 e.1 e.2) (r.rm i) r.sat c) = (List.range t.lanes).map code := by
      rw [mapIdx_lanesOf]
      refine List.map_congr_left fun i hi => ?_
      simp [List.mem_range.mp hi, code]
    rw [Act.bind_ok (Act.modify_run _ _)]
    dsimp only
    rw [codes, List.zip_map', List.foldl_map]
    exact hs
  case vstm =>
    intro s2 s3 s4 s5 s6 p v m q hv hm hp hq hclaim code hs
    show execVstm hd d a b s = _
    refine headOp_ok start ?_
    rw [Act.bind_ok hv, Act.bind_ok hm, Act.bind_ok hp, Act.bind_ok hq, Act.bind_ok hclaim, Act.bind_ok (Act.modify_run _ _)]
    have slots : q.2 = (List.range t.lanes).map fun i => q.2.getD i 0 := by
      rw [← runSlots_length hq, map_getD_range]
    dsimp only
    rw [mapIdx_lanesOf, slots, List.zip_map', zipIdx_map_range, List.foldl_map]
    exact hs
  case vstc =>
    intro s2 s3 s4 s5 p v m hv hm on hp hn z len hclaim code u moved
    show execVstc hd d a b s = _
    refine headOp_ok start ?_
    have narrow : trapIf (t.isN && bits (s4.wordAt p) 3 0 != 11) 0x09#8 s4 = .ok ((), s4) := by
      rw [Act.trapIf_run]
      cases ht : t.isN with
      | false => rfl
      | true => rw [hn ht]; rfl
    have codes : (on.map fun i =>
        let c := (lanesOf t v).getD i 0
        if t.isN then c else convert (fmtTy t) (fmtOfWord (s4.wordAt p)) (r.rm i) r.sat c) = on.map code := by
      refine List.map_congr_left fun i hi => ?_
      rw [getD_lanesOf (List.mem_range.mp (List.mem_filter.mp hi).1)]
    have stored := foldl_numbered (fun u n c => slotWrite u p.cl z (8 * p.off + z * n) c) code on s5
    rw [← codes] at stored
    rw [Act.bind_ok hv, Act.bind_ok hm]
    refine (Act.bind_ok hp).trans ?_
    rw [Act.bind_ok (Act.get_run s4)]
    refine (Act.bind_ok narrow).trans ((Act.bind_ok hclaim).trans ((Act.bind_ok (Act.modify_run _ _)).trans ?_))
    refine (congrArg _ stored).trans ?_
    cases d with
    | p k => rfl
    | _ => rfl
  case vldxColumn =>
    intro s2 idx k hidx ha owns hcol
    show execVldx hd d a b s = _
    refine headOp_trap start ?_
    rw [Act.bind_ok hidx, ha]
    exact Act.bind_error (spotOf_trap _ owns (by rw [hcol]; rfl))
  case column =>
    intro s2 s3 v m k hv hm hk owns off z len
    constructor
    · intro hcol
      show execVstx hd d a b s = _
      refine headOp_trap start ?_
      rw [Act.bind_ok hv, Act.bind_ok hm, hk]
      exact Act.bind_error (spotOf_trap _ owns (by rw [hcol]; rfl))
    · intro hbad
      show execVstc hd d a b s = _
      refine headOp_trap start ?_
      rw [Act.bind_ok hv, Act.bind_ok hm, hk]
      refine Act.bind_error (spotOf_trap _ owns (denseMis_of ?_ hbad))
      rw [denseBytes, ← List.countP_eq_length_filter]
  case malformed =>
    intro k hcol
    have column (x : Bool) : (x && !hd.mod.col) = false := by rw [hcol]; exact Bool.and_false x
    exact ⟨wf_of_fields (column _), wf_of_fields (column _)⟩

end Sys2Proof.Machine.Settled
end

section
/-! SUPPORT. What an agent holds (R149, R150): reading through the caches, storing, and passing an instruction leave every agent's
registers and predicates as they were. -/

namespace Sys2Proof.Machine

/-- The registers and predicates that a cluster's task and threads hold. -/
def Cluster.held (x : Cluster) : KMap Word × BitVec 16 × (Nat → KMap Word × BitVec 16) :=
  (x.sregs, x.preds, fun k => ((x.rake k).regs, (x.rake k).preds))

/-- `t` has the executing agent of `s`, and every agent's registers and predicates as they are there. -/
structure KeepsRegs (s t : State) : Prop where
  actor : t.actor = s.actor
  cl : ∀ c, (t.cl c).held = (s.cl c).held
  core : ∀ d, (t.die d).core.regs = (s.die d).core.regs ∧ (t.die d).core.preds = (s.die d).core.preds

namespace KeepsRegs

variable {s t u : State}

theorem refl (s : State) : KeepsRegs s s := ⟨rfl, fun _ => rfl, fun _ => ⟨rfl, rfl⟩⟩

theorem trans (h : KeepsRegs s t) (g : KeepsRegs t u) : KeepsRegs s u where
  actor := g.actor.trans h.actor
  cl c := (g.cl c).trans (h.cl c)
  core d := ⟨(g.core d).1.trans (h.core d).1, (g.core d).2.trans (h.core d).2⟩

theorem regOf (h : KeepsRegs s t) (n : Nat) : t.regOf s.actor n = s.regOf s.actor n := by
  cases ha : s.actor with
  | device => rfl
  | pc c e => exact congrArg (fun x => KMap.getD x.1 n 0#64) (h.cl c)
  | rake c k => exact congrArg (fun x => KMap.getD (x.2.2 k).1 n 0#64) (h.cl c)
  | mgr d => exact congrArg (fun x => KMap.getD x n 0#64) (h.core d).1

theorem preds (h : KeepsRegs s t) : t.preds = s.preds := by
  unfold State.preds
  rw [h.actor]
  cases ha : s.actor with
  | device => rfl
  | pc c e => exact congrArg (fun x => x.2.1 ||| 1#16) (h.cl c)
  | rake c k => exact congrArg (fun x => (x.2.2 k).2 ||| 1#16) (h.cl c)
  | mgr d => exact congrArg (· ||| 1#16) (h.core d).2

/-! ### The rule of each kind of change -/

/-- A change elsewhere than in the clusters and dies. -/
theorem of_parts (ha : t.actor = s.actor) (hc : t.clusters = s.clusters) (hd : t.dies = s.dies) : KeepsRegs s t where
  actor := ha
  cl c := by rw [State.cl_of_clusters hc]
  core d := by unfold State.die; rw [hd]; exact ⟨rfl, rfl⟩

theorem modCl {c : Nat} {f : Cluster → Cluster} (h : (f (s.cl c)).held = (s.cl c).held) : KeepsRegs s (s.modCl c f) where
  actor := rfl
  cl := State.cl_modCl_keeps Cluster.held s c f h
  core _ := ⟨rfl, rfl⟩

theorem of_readFrame (h : ReadFrame s t) : KeepsRegs s t where
  actor := h.actor
  cl c := by rw [h.cl c]; rfl
  core d := by rw [h.die d]; exact ⟨rfl, rfl⟩

theorem retire (i : Instr) (s : State) : KeepsRegs s (retire i s) := by
  unfold Machine.retire retireTo
  split
  · refine modCl ?_
    simp [Cluster.held, Cluster.rake]
  · next c k _ =>
    refine modCl ?_
    have threads : ∀ j nx, (((s.cl c).setRake k (((s.cl c).rake k).pass i nx)).rake j).regs = ((s.cl c).rake j).regs
        ∧ (((s.cl c).setRake k (((s.cl c).rake k).pass i nx)).rake j).preds = ((s.cl c).rake j).preds := by
      intro j nx
      by_cases hj : j = k
      · subst hj; rw [Cluster.rake_setRake_self]; exact ⟨rfl, rfl⟩
      · rw [Cluster.rake_setRake_ne _ _ hj]; exact ⟨rfl, rfl⟩
    simp only [Cluster.held, threads]
    rfl
  · next d _ =>
    refine ⟨rfl, fun _ => rfl, fun j => ?_⟩
    by_cases hj : j = d
    · subst hj; rw [State.die_modDie_self]; exact ⟨rfl, rfl⟩
    · rw [State.die_modDie_ne _ _ hj]; exact ⟨rfl, rfl⟩
  · exact refl s

/-! ### Stores by the device itself (R100, R116, R398) -/

theorem slicePut (s : State) (a : Nat) (bs : List Byte) : KeepsRegs s (s.slicePut a bs) :=
  (of_readFrame (readFrame_foldl (fun s _ => readFrame_l2One _ _ _ _ s) _ s)).trans (of_parts rfl rfl rfl)

theorem logFault (s : State) (ctx : Nat) (e : LogEntry) : KeepsRegs s (s.logFault ctx e) := by
  unfold State.logFault
  split
  · exact refl s
  next c _ =>
  have looked := (of_readFrame (readFrame_l2Read c.flbase 8 s)).trans (of_readFrame (readFrame_l2Read (c.flbase + 128) 4 _))
  dsimp only
  split
  · split
    · exact looked.trans (of_parts rfl rfl rfl)
    · exact looked.trans (slicePut _ _ _)
  · exact ((looked.trans (slicePut _ _ _)).trans (slicePut _ _ _)).trans (of_parts rfl rfl rfl)

theorem exposeGang (g : Nat) (s : State) : KeepsRegs s (exposeGang g s) := by
  unfold Machine.exposeGang
  split
  · exact refl s
  dsimp only
  split <;> exact of_parts rfl rfl rfl

theorem undoAppend (s : State) (ctx d : Nat) (old : List Byte) (loc osh g : Nat) :
    KeepsRegs s (undoAppend s ctx d old loc osh g).1 := by
  unfold Machine.undoAppend
  split
  · exact refl s
  dsimp only
  split
  · exact (slicePut _ _ _).trans (of_parts rfl rfl rfl)
  · exact (logFault _ _ _).trans (exposeGang _ _)

/-! ### Stores in a scratchpad -/

theorem logHeartwood (s : State) (c line : Nat) : KeepsRegs s (logHeartwood s c line) := by
  unfold Machine.logHeartwood
  split
  · have logged := undoAppend s (((s.cl c).task.map (·.ctx)).getD 0) (dieOf c) (sramLine (s.cl c) line)
      (2 ^ 63 + 4194304 * c + 128 * line) 0 (((s.cl c).task.map (·.gang)).getD 0)
    dsimp only
    split
    · next h => rw [h] at logged; exact logged.trans (modCl rfl)
    · next h => rw [h] at logged; exact logged
  · exact refl s

theorem readyLines (c : Nat) (ls : List Nat) (s : State) : KeepsRegs s (readyLines c ls s) := by
  induction ls generalizing s with
  | nil => exact refl s
  | cons l ls ih =>
    refine ((logHeartwood s c l).trans (modCl ?_)).trans (ih _)
    unfold touchLine
    split <;> rfl

theorem sramWrite (s : State) (c off : Nat) (bs : List Byte) : KeepsRegs s (sramWrite s c off bs) := by
  rw [sramWrite_eq]
  exact (readyLines c _ s).trans (modCl rfl)

end KeepsRegs

/-! ### What a store in a scratchpad changes -/

/-- Of a cluster a store changes the bytes, and which lines are touched and logged. -/
theorem cl_sramWrite_keeps {α : Type} (g : Cluster → α)
    (hg : ∀ x m w l, g { x with sram := m, written := w, logged := l } = g x) (s : State) (c off : Nat) (bs : List Byte) (j : Nat) :
    g ((sramWrite s c off bs).cl j) = g (s.cl j) := by
  have logged : ∀ (s : State) l, g ((logHeartwood s c l).cl j) = g (s.cl j) := by
    intro s l
    obtain h | ⟨t, ht, h⟩ := logHeartwood_cases s c l
    · rw [State.cl_of_clusters h]
    · rw [h, State.cl_modCl_keeps g _ _ _ (hg _ _ _ _), State.cl_of_clusters ht]
  have touched : ∀ x l, g (touchLine x l) = g x := by
    intro x l
    unfold touchLine
    split
    · rfl
    · exact hg _ _ _ _
  have ready : ∀ ls s, g ((readyLines c ls s).cl j) = g (s.cl j) := by
    intro ls
    induction ls with
    | nil => exact fun _ => rfl
    | cons l ls ih => exact fun s => (ih _).trans ((State.cl_modCl_keeps g _ _ _ (touched _ _) j).trans (logged s l))
  rw [sramWrite_eq]
  exact (State.cl_modCl_keeps g _ _ _ (hg _ _ _ _) j).trans (ready _ s)

/-- Where no line of a store serves the protected gang there is no undo record, and device memory stays. -/
theorem hbm_sramWrite {s : State} {c off line : Nat} {bs : List Byte} (hl : linesOf off bs.length = [line])
    (h : heartwood s c line = false) : (sramWrite s c off bs).hbm = s.hbm := by
  rw [sramWrite_eq, hl]
  simp [readyLines, logHeartwood, h]

/-! ### What reading changes -/

theorem ReadFrame.spByte {s t : State} (h : ReadFrame s t) (c a : Nat) : t.spByte c a = s.spByte c a := by
  rw [State.spByte_eq, State.spByte_eq, h.cl c]; rfl

theorem ReadFrame.heartwood {s t : State} (h : ReadFrame s t) (c line : Nat) : Machine.heartwood t c line = Machine.heartwood s c line := by
  have gangs : t.gangs = s.gangs := by rw [h.rest]
  have contexts : t.contexts = s.contexts := by rw [h.rest]
  simp only [Machine.heartwood, State.protectedGang, gangs, contexts]
  rw [h.cl c]

/-- The cluster of an agent is its place, whatever its task. -/
theorem who_cl_congr {s t : State} (h : t.actor = s.actor) : t.who.cl = s.who.cl := by
  unfold State.who State.selfCl
  rw [h]
  cases t.selfTask <;> cases s.selfTask <;> rfl

/-! ### What passing an instruction changes -/

/-- Of a cluster nothing changes but its task's place, registers and predicates, and its threads. -/
theorem Moved.cl_keeps {α : Type} {s t : State} (h : Moved s t) (g : Cluster → α) (task : ∀ x y, g (x.movedTo y) = g x)
    (threads : ∀ x l b, g { x with rakes := l, regBad := b } = g x) (j : Nat) : g (t.cl j) = g (s.cl j) := by
  unfold Moved at h
  split at h
  · next c e _ =>
    obtain ⟨-, others, own⟩ := h
    by_cases hj : j = c
    · rw [hj, own, task]
    · rw [others j hj]
  · next c k _ =>
    obtain ⟨-, others, own, -⟩ := h
    by_cases hj : j = c
    · rw [hj, own, threads]
    · rw [others j hj]
  · obtain ⟨rest, -⟩ := h
    rw [rest]; rfl
  · rw [h]

theorem Moved.hbm {s t : State} (h : Moved s t) : t.hbm = s.hbm := by
  unfold Moved at h
  split at h
  · rw [h.1]; rfl
  · rw [h.1]; rfl
  · rw [h.1]; rfl
  · rw [h]

theorem hbm_retire (i : Instr) (s : State) : (retire i s).hbm = s.hbm := (moved_retire i s).hbm

theorem flags_retire (i : Instr) (s : State) (c : Nat) : ((retire i s).cl c).flags = (s.cl c).flags :=
  (moved_retire i s).cl_keeps Cluster.flags (fun _ _ => rfl) (fun _ _ _ => rfl) c

theorem spByte_retire (i : Instr) (s : State) (c a : Nat) : (retire i s).spByte c a = s.spByte c a := by
  rw [State.spByte_eq, State.spByte_eq]
  exact (moved_retire i s).cl_keeps (Cluster.byte · a) (fun _ _ => rfl) (fun _ _ _ => rfl) c

end Sys2Proof.Machine
end

section
/-! SUPPORT. Scalar loads and stores (R178, R179): their forms, and what each access gives. -/

namespace Sys2Proof.Machine

/-! ### Bytes (R6, R178, R179) -/

@[simp] theorem length_natLe (n v : Nat) : (natLe n v).length = n := by
  induction n generalizing v with
  | zero => rfl
  | succ n ih => simp [natLe, ih]

theorem sx_eq_toInt {w : Nat} (hw : 0 < w) (v : Nat) : sx w v = (BitVec.ofNat w v).toInt := by
  obtain ⟨n, rfl⟩ : ∃ n, w = n + 1 := ⟨w - 1, by omega⟩
  rw [sx, BitVec.toInt_eq_toNat_cond, BitVec.toNat_ofNat, Nat.add_sub_cancel]
  congr 1
  rw [Nat.pow_succ, Nat.mul_comm 2, Nat.mul_lt_mul_right (by decide)]

/-- An element is extended as its type says. -/
theorem extendTy_eq_loaded (t : Ty) (bs : List Byte) : extendTy t bs = loaded t bs := by
  have signed {w : Nat} (hw : 0 < w) : wordOfInt (sx w (leNat bs)) = (BitVec.ofNat w (leNat bs)).signExtend 64 := by
    rw [sx_eq_toInt hw]; rfl
  cases t with
  | i8 => exact signed (by decide)
  | i16 => exact signed (by decide)
  | i32 => exact signed (by decide)
  | i64 => exact (signed (by decide)).trans (BitVec.signExtend_eq _)
  | _ => rfl

theorem sizeOf_eq_bytesOf {t : Ty} (h : isInt t = true) : sizeOf t = bytesOf t := by
  cases t with
  | nf | f16 | bf16 | f32 => cases h
  | _ => rfl

theorem Mem.read_write (m : Mem) (a : Nat) (bs : List Byte) : Mem.read (Mem.write m a bs) a bs.length = bs := by
  refine List.ext_getElem (by simp [Mem.read]) fun i hi _ => ?_
  have inside : i < bs.length := by simpa [Mem.read] using hi
  simp [Mem.read, Mem.byte_write, inside]

/-! ### The forms of an instruction (R178) -/

/-- Each form of a row executes at its address, under its predicate. -/
theorem MemRow.exec_form {r : MemRow} {run : Instr → Pred → (State → Word) → Host.Outcome State Fault Refusal} {s : State} {t : Ty}
    {d : Reg} {a : Word} {i : Instr}
    (short : ∀ b n, exec (r.short t d b n) s = run (r.short t d b n) always fun s => shortAddr s t b n)
    (long : ∀ p b o, exec (r.long p t d b o) s = run (r.long p t d b o) p fun s => longAddr s b o) (h : r.form s t d a i) :
    ∃ p addr, s.holds p = true ∧ addr s = a ∧ exec i s = run i p addr := by
  obtain ⟨hint, ⟨b, n, rfl, rfl⟩ | ⟨p, b, o, rfl, hp, rfl⟩⟩ := h
  · exact ⟨always, _, holds_always s, by rw [shortAddr, sizeOf_eq_bytesOf hint], short b n⟩
  · exact ⟨p, _, hp, rfl, long p b o⟩

section Forms

variable {s s1 : State} {t : Ty} {d : Reg} {a : Word} {i : Instr} {bs : List Byte}

theorem exec_ld_form (h : ldRow.form s t d a i) :
    ∃ p addr, s.holds p = true ∧ addr s = a ∧ exec i s = actOp i p (loadCoord t d addr) s :=
  MemRow.exec_form (run := fun i p addr => actOp i p (loadCoord t d addr) s) (fun _ _ => rfl) (fun _ _ _ => rfl) h

theorem exec_ld (h : ldRow.form s t d a i) (hl : coordLoad a (bytesOf t) s = .ok (bs, s1)) :
    exec i s = .next (retire i (s1.wr d (loaded t bs))) := by
  obtain ⟨p, addr, hp, rfl, run⟩ := exec_ld_form h
  rw [← sizeOf_eq_bytesOf h.1] at hl
  rw [run]
  refine actOp_ok hp ?_
  rw [loadCoord, Act.bind_ok (Act.get_run s), Act.bind_ok hl, extendTy_eq_loaded]
  rfl

theorem exec_ld_check {c : BitVec 8} (h : ldRow.form s t d a i) (hl : coordLoad a (bytesOf t) s = .error (.check c)) :
    exec i s = .next (s.raiseSelfCheck c) := by
  obtain ⟨p, addr, hp, rfl, run⟩ := exec_ld_form h
  rw [← sizeOf_eq_bytesOf h.1] at hl
  rw [run]
  refine perform_check (Act.bind_error ?_)
  rw [if_pos hp, loadCoord, Act.bind_ok (Act.get_run s), Act.bind_error hl]

theorem exec_st (h : stRow.form s t d a i) (hs : coordStore a (natLe (bytesOf t) (s.rd d).toNat) s = .ok ((), s1)) :
    exec i s = .next (retire i s1) := by
  obtain ⟨p, addr, hp, rfl, run⟩ :=
    MemRow.exec_form (run := fun i p addr => actOp i p (storeCoord t d addr) s) (fun _ _ => rfl) (fun _ _ _ => rfl) h
  rw [run]
  refine actOp_ok hp ?_
  rw [storeCoord, Act.bind_ok (Act.get_run s), sizeOf_eq_bytesOf h.1]
  exact hs

theorem exec_ldg (h : ldgRow.form s t d a i) (hl : virtLoad a (bytesOf t) s = .ok (some bs, s1)) :
    exec i s = .next (retire i (s1.wr d (loaded t bs))) := by
  obtain ⟨p, addr, hp, rfl, run⟩ :=
    MemRow.exec_form (run := fun i p addr => actOpW i p .window (loadVirt t d addr) s) (fun _ _ => rfl) (fun _ _ _ => rfl) h
  rw [← sizeOf_eq_bytesOf h.1] at hl
  rw [run]
  refine actOpW_done hp ?_
  rw [loadVirt, Act.bind_ok (Act.get_run s), Act.bind_ok hl, ← extendTy_eq_loaded]
  rfl

theorem exec_stg (h : stgRow.form s t d a i) (hs : virtStore a (natLe (bytesOf t) (s.rd d).toNat) s = .ok ((), s1)) :
    exec i s = .next (retire i s1) := by
  obtain ⟨p, addr, hp, rfl, run⟩ :=
    MemRow.exec_form (run := fun i p addr => actOp i p (storeVirt t d addr) s) (fun _ _ => rfl) (fun _ _ _ => rfl) h
  rw [run]
  refine actOp_ok hp ?_
  rw [storeVirt, Act.bind_ok (Act.get_run s), sizeOf_eq_bytesOf h.1]
  exact hs

end Forms

/-! ### The place of a coordinate access (R80, R81) -/

section Place

variable {s s1 : State} {a : Word} {n c off : Nat} {bs : List Byte}

theorem coordLoad_place (h : s.place a n = .ok (c, off)) : coordLoad a n s = localLoad c off n a s := by
  rw [coordLoad, Act.bind_ok (Act.get_run s)]
  exact Act.bind_ok (liftC_ok h s)

theorem coordStore_place (h : s.place a bs.length = .ok (c, off)) : coordStore a bs s = localStore c off bs a s := by
  rw [coordStore, Act.bind_ok (Act.get_run s)]
  exact Act.bind_ok (liftC_ok h s)

/-- A place is the low 22 bits of an aligned address. -/
theorem coord_ok {ctx own a : Nat} {mis : Bool} (h : coord s ctx own a mis = .ok (c, off)) : mis = false ∧ off = bits a 21 0 := by
  unfold coord at h
  dsimp only at h
  repeat' split at h
  all_goals cases h
  all_goals simp_all

theorem aligned_of_place (hn : n ∣ 128) (h : s.place a n = .ok (c, off)) : off % n = 0 := by
  obtain ⟨mis, rfl⟩ := coord_ok h
  have aligned : a.toNat % n = 0 := by simpa using mis
  rw [bits, Nat.shiftRight_zero, Nat.mod_mod_of_dvd _ (hn.trans (by decide)), aligned]

/-- An aligned access stays within one line. -/
theorem linesOf_aligned (hn : n ∣ 128) (h : off % n = 0) : linesOf off n = [off / 128] := by
  have pos : 0 < n := Nat.pos_of_dvd_of_pos hn (by decide)
  have inside : n ∣ off % 128 := (Nat.dvd_mod_iff hn).mpr (Nat.dvd_of_mod_eq_zero h)
  have room : n ≤ 128 - off % 128 := Nat.le_of_dvd (by omega) (Nat.dvd_sub hn inside)
  have last : (off + n - 1) / 128 = off / 128 := by omega
  simp [linesOf, pos.ne', last]

theorem bytesOf_dvd (t : Ty) : bytesOf t ∣ 128 := by cases t <;> decide

/-- The flag array lies beyond every bank (R82). -/
theorem inBanks_flags (x : Cluster) (n : Nat) : inBanks x (0x300000 + 4 * n) = false := by
  have := firstL1Bank_le x
  simp only [inBanks, decide_eq_false_iff_not]
  omega

end Place

/-! ### Stores in a local space -/

section LocalStore

variable {s s1 : State} {a : Word} {c off : Nat} {bs : List Byte} (haway : away s s.selfCtx c = false)
include haway

theorem localStore_bank (hbank : inBanks (s.cl c) off = true) (howed : owedLine (s.cl c) (off / 128) = false)
    (hecc : rowsEcc c [off / 128] s = some s1) : localStore c off bs a s = .ok ((), (sramWrite s1 c off bs).sent c) := by
  rw [localStore, Act.bind_ok (awaitHome_ok haway), Act.bind_ok (Act.get_run s)]
  simp only [hbank, if_true]
  rw [Act.bind_ok (rejectOwed_run haway (by simp [howed]) hecc _)]
  rfl

theorem localStore_flags {n : Nat} (hn : n < 4096) :
    localStore c (0x300000 + 4 * n) bs a s = .ok ((), (s.modCl c fun x => storeFlags x (0x300000 + 4 * n) bs).sent c) := by
  have flags : inFlags (0x300000 + 4 * n) = true := by
    simp only [inFlags, Bool.and_eq_true, decide_eq_true_eq]; omega
  rw [localStore, Act.bind_ok (awaitHome_ok haway), Act.bind_ok (Act.get_run s)]
  simp only [inBanks_flags, flags, if_true, Bool.false_eq_true, if_false]
  rfl

end LocalStore

section Sent

variable (s : State) (c : Nat)

theorem hbm_sent : (s.sent c).hbm = s.hbm := by
  unfold State.sent; split <;> rfl

theorem flags_sent (j : Nat) : ((s.sent c).cl j).flags = (s.cl j).flags := by
  unfold State.sent
  split
  · exact State.cl_modCl_keeps Cluster.flags _ _ _ rfl j
  · rfl

theorem spByte_sent (j a : Nat) : (s.sent c).spByte j a = s.spByte j a := by
  rw [State.spByte_eq, State.spByte_eq]
  unfold State.sent
  split
  · exact State.cl_modCl_keeps (Cluster.byte · a) _ _ _ rfl j
  · rfl

theorem KeepsRegs.sent : KeepsRegs s (s.sent c) := by
  unfold State.sent
  split
  · exact modCl rfl
  · exact refl s

end Sent

/-- The bytes that a run reads, where they are those of a list. -/
theorem sramRead_of_bytes {s : State} {c off : Nat} {bs : List Byte}
    (h : ∀ i, i < bs.length → s.spByte c (off + i) = bs.getD i 0#8) : sramRead (s.cl c) off bs.length = bs := by
  refine List.ext_getElem (by simp [sramRead]) fun i _ hi => ?_
  have byte := h i hi
  rw [State.spByte_eq, Cluster.byte] at byte
  simpa [sramRead, hi] using byte

theorem spByte_sramWrite (s : State) (c off : Nat) (bs : List Byte) (j a : Nat) : (sramWrite s c off bs).spByte j a =
    if j = c ∧ off ≤ a ∧ a < off + bs.length then bs.getD (a - off) 0#8 else s.spByte j a := by
  rw [State.spByte_eq, State.spByte_eq, byte_sramWrite]

/-! ### Flags (R117) -/

theorem getLsbD_setFlag (x : Cluster) {n : Nat} (hn : n < 4096) (b : Bool) (m : Nat) :
    (x.setFlag n b).flags.getLsbD m = if m = n then b else x.flags.getLsbD m := by
  by_cases hm : m < 4096
  · by_cases h : m = n
    · subst h
      cases b <;> simp [Cluster.setFlag, hm]
    · have off : (m < n ∨ ¬ m - n < 1) := by omega
      cases b <;> simp [Cluster.setFlag, hm, h] <;> omega
  · rw [if_neg (by omega), BitVec.getLsbD_of_ge _ _ (by omega), BitVec.getLsbD_of_ge _ _ (by omega)]

/-- A flag's word starts at a multiple of 4, and only its lowest byte does. -/
theorem flagWord_bytes (n : Nat) : (0x300000 + 4 * n) % 4 = 0 ∧ (0x300000 + 4 * n + 1) % 4 ≠ 0 ∧ (0x300000 + 4 * n + 2) % 4 ≠ 0
    ∧ (0x300000 + 4 * n + 3) % 4 ≠ 0 := by
  omega

/-- A word stored in the flag array writes its bit 0 to its flag. -/
theorem storeFlags_word (x : Cluster) (n : Nat) (v : Word) :
    storeFlags x (0x300000 + 4 * n) (natLe 4 v.toNat) = x.setFlag n (v.getLsbD 0) := by
  obtain ⟨h0, h1, h2, h3⟩ := flagWord_bytes n
  simp [storeFlags, natLe, h0, h1, h2, h3, BitVec.getLsbD]

/-- The word of a flag as a load reads it. -/
theorem loaded_flag (x : Cluster) (n : Nat) :
    loaded .n32 ((List.range 4).map fun i => flagByte x (0x300000 + 4 * n + i)) = if x.flags.getLsbD n then 1#64 else 0#64 := by
  obtain ⟨h0, h1, h2, h3⟩ := flagWord_bytes n
  cases hf : x.flags.getLsbD n <;> simp [List.range_succ, flagByte, loaded, leNat, h0, h1, h2, h3, hf]

end Sys2Proof.Machine
end

section
/-! SUPPORT. Device memory as an access reaches it (R100, R102, R118, R143, R407). -/

namespace Sys2Proof.Machine

/-! ### Stores at the slices (R100, R102) -/

theorem readFrame_l2Write (a n : Nat) (s : State) : ReadFrame s (l2Write a n s) :=
  readFrame_foldl (fun s _ => readFrame_l2One _ _ _ _ s) _ s

theorem hbm_devStore (a : Nat) (bs : List Byte) (s : State) : (devStore a bs s).hbm = Mem.write s.hbm a bs :=
  congrArg (Mem.write · a bs) (readFrame_l2Write a bs.length s).hbm

theorem clusters_devStore (a : Nat) (bs : List Byte) (s : State) : (devStore a bs s).clusters = s.clusters :=
  foldl_clusters (fun s _ => l2One_clusters _ _ _ _ s) _ s

theorem KeepsRegs.devStore (a : Nat) (bs : List Byte) (s : State) : KeepsRegs s (devStore a bs s) :=
  (of_readFrame (readFrame_l2Write a bs.length s)).trans (of_parts rfl rfl rfl)

theorem devRead_ok {w : Who} {va a n : Nat} {x : Xlat} {s : State} (h : sectorCause s a n = none) (hx : x.chk = false) :
    devRead w va a n x s = .ok (l2Read a n s, s.hbmRead a n) := by
  simp [devRead, h, hx]

theorem devRead_error {w : Who} {va a n : Nat} {x : Xlat} {s : State} {c : BitVec 8} (h : sectorCause s a n = some c) :
    devRead w va a n x s = .error c := by
  simp [devRead, h]

theorem devWrite_ok {w : Who} {va a : Nat} {bs : List Byte} {sync : Bool} {x : Xlat} {s : State}
    (h : mergeCause s a bs.length = none) (hx : x.chk = false) : devWrite w va a bs sync x s = .ok (devStore a bs s) := by
  simp [devWrite, h, hx]

theorem devWrite_error {w : Who} {va a : Nat} {bs : List Byte} {sync : Bool} {x : Xlat} {s : State} {c : BitVec 8}
    (h : mergeCause s a bs.length = some c) : devWrite w va a bs sync x s = .error c := by
  simp [devWrite, h]

/-! ### Targets in device memory -/

section Target

variable {w : Who} {va p n : Nat} {x : Xlat} {s : State} (hx : x.tgt = .dev p)
include hx

/-- A line that L1 does not cache is read at its slice. -/
theorem targetRead_uncached (hc : x.cache = false) (hk : x.chk = false) (h : sectorCause s p n = none) :
    targetRead w va n x s = .ok (l2Read p n s, s.hbmRead p n) := by
  rw [targetRead, hx]
  cases w.cl with
  | none => exact devRead_ok h hk
  | some c =>
    simp only [cachedRead, hc, Bool.false_eq_true, if_false]
    exact devRead_ok h hk

/-- A line that L1 holds without a parity error is read there (R118, R120). -/
theorem targetRead_hit {c : Nat} {l : L1Line} (hw : w.cl = some c) (hc : x.cache = true)
    (hl : (s.cl c).l1.find? (fun l => l.line == p / 128) = some l) (hp : Config.l1Parity s.tick (p / 128) = false) :
    targetRead w va n x s = .ok (s, (l.data.drop (p % 128)).take n) := by
  rw [targetRead, hx]
  simp [hw, cachedRead, hc, hl, hp]

theorem targetWrite_dev {bs : List Byte} (hk : x.chk = false) (h : mergeCause s p bs.length = none) :
    targetWrite w va bs false x s = .ok (devStore p bs s) := by
  rw [targetWrite, hx]
  exact devWrite_ok h hk

end Target

theorem translateA_ok {w : Who} {va : Nat} {write sync : Bool} {s s1 : State} {x : Xlat}
    (h : translate w va write sync s = .ok (s1, x)) : translateA w va write sync s = .ok (x, s1) := by
  rw [translateA, h]

/-! ### The accesses of `ldg` and `stg` (R178, R179) -/

/-- A store of device memory updates a line of the L1 of the cluster it comes from, and counts until it is acknowledged (R118,
R143). -/
def afterStore (from_ : Option Nat) (p : Nat) (bs : List Byte) (s : State) : State :=
  match from_ with
  | some c => addWack (s.modCl c fun y => l1Update y p bs) c 1
  | none => s

section AfterStore

variable (from_ : Option Nat) (p : Nat) (bs : List Byte) (s : State)

theorem afterStore_hbm : (afterStore from_ p bs s).hbm = s.hbm := by
  cases from_ <;> rfl

theorem spByte_afterStore (c a : Nat) : (afterStore from_ p bs s).spByte c a = s.spByte c a := by
  rw [State.spByte_eq, State.spByte_eq]
  cases from_ with
  | none => rfl
  | some k =>
    exact (State.cl_modCl_keeps (Cluster.byte · a) _ k _ rfl c).trans (State.cl_modCl_keeps (Cluster.byte · a) s k _ rfl c)

theorem KeepsRegs.afterStore : KeepsRegs s (afterStore from_ p bs s) := by
  unfold Machine.afterStore
  split
  · exact (modCl rfl).trans (modCl rfl)
  · exact refl s

end AfterStore

section Virtual

variable {s s1 s2 : State} {a : Word} {x : Xlat} {p n : Nat} {bs : List Byte} (h48 : bits a.toNat 63 48 = 0)
include h48

theorem virtTarget_ok {write : Bool} (hal : a.toNat % n = 0)
    (h : translate { s.who with wide := true } a.toNat write false s = .ok (s1, x)) : virtTarget a n write s = .ok (x, s1) := by
  rw [virtTarget, Act.bind_ok (Act.get_run s)]
  simp only [h48, hal, bne_self_eq_false, Bool.false_eq_true, if_false]
  exact translateA_ok h

theorem virtLoad_dev (hal : a.toNat % n = 0) (h : translate { s.who with wide := true } a.toNat false false s = .ok (s1, x))
    (hx : x.tgt = .dev p) (hr : targetRead s1.who a.toNat n x s1 = .ok (s2, bs)) : virtLoad a n s = .ok (some bs, s2) := by
  have read : liftA a.toNat (targetRead s1.who a.toNat n x) s1 = .ok (bs, s2) := by rw [Act.liftA_run, hr]
  rw [virtLoad, Act.bind_ok (virtTarget_ok h48 hal h), Act.bind_ok (Act.get_run s1)]
  simp only [hx]
  exact (Act.bind_ok read).trans rfl

theorem virtStore_dev (hal : a.toNat % bs.length = 0) (h : translate { s.who with wide := true } a.toNat true false s = .ok (s1, x))
    (hx : x.tgt = .dev p) (hk : x.chk = false) (hm : mergeCause s1 p bs.length = none) :
    virtStore a bs s = .ok ((), afterStore s1.who.cl p bs (devStore p bs s1)) := by
  have write : liftU a.toNat (targetWrite s1.who a.toNat bs false x) s1 = .ok ((), devStore p bs s1) := by
    rw [Act.liftU_run, targetWrite_dev hx hk hm]
  rw [virtStore, Act.bind_ok (virtTarget_ok h48 hal h), Act.bind_ok (Act.get_run s1)]
  simp only [hx]
  exact (Act.bind_ok write).trans rfl

end Virtual

end Sys2Proof.Machine
end

section
namespace Sys2Proof.Machine.Settled

/-- Settles O15: each load reads what its place, its page or L1 gives, and the value is extended to its register. -/
theorem scalarLoads : Obligations.ScalarLoads := by
  refine ⟨?bank, ?flag, ?device, ?hit⟩
  case bank =>
    intro s t d a i c off form place haway hbank howed
    refine ⟨fun s1 hecc => exec_ld form (coordLoad_bank place haway hbank howed hecc), fun hecc => exec_ld_check form ?_,
      fun clean => rowsEcc_clean clean _⟩
    have fetch : fetchRows c [off / 128] s = .error (.check 0xC0#8) := by simp only [fetchRows, hecc]
    rw [coordLoad_place place, localLoad, Act.bind_ok (awaitHome_ok haway), Act.bind_ok (Act.get_run s)]
    simp only [hbank, if_true]
    rw [awaitOwed, Act.bind_error]
    rw [Act.bind_ok (awaitLines_ok haway (by simp [howed])), fetch]
  case flag =>
    intro s t d a i c n form ht place haway hn
    subst ht
    rw [← loaded_flag]
    refine exec_ld form ?_
    have flags : inFlags (0x300000 + 4 * n) = true := by
      simp only [inFlags, Bool.and_eq_true, decide_eq_true_eq]; omega
    rw [show bytesOf .n32 = 4 from rfl, coordLoad_place place, localLoad, Act.bind_ok (awaitHome_ok haway),
      Act.bind_ok (Act.get_run s)]
    simp only [inBanks_flags, flags, if_true, Bool.false_eq_true, if_false]
    rw [Act.bind_ok (acquireDevice_run s)]
    rfl
  case device =>
    intro s s1 t d a i x p form h48 hal ht hx hk hc hs
    exact exec_ldg form (virtLoad_dev h48 hal ht hx (targetRead_uncached hx hc hk hs))
  case hit =>
    intro s s1 t d a i x p c l form h48 hal hw ht hx hc hl hp
    have who : s1.who.cl = some c := (who_cl_congr (readFrame_translate ht).actor).trans hw
    exact exec_ldg form (virtLoad_dev h48 hal ht hx (targetRead_hit hx who hc hl hp))

/-- Settles O16: a store writes its bytes at its place, after which acknowledgements are counted and the PC passes; none of that
touches another byte, nor a register. -/
theorem scalarStores : Obligations.ScalarStores := by
  refine ⟨?bank, ?flag, ?device⟩
  case bank =>
    intro s t d a i c off form place haway hbank howed hecc
    obtain ⟨s1, hecc⟩ := Option.isSome_iff_exists.mp hecc
    have read := readFrame_rowsEcc hecc
    have run := exec_st form ((coordStore_place (by rwa [length_natLe])).trans (localStore_bank haway hbank howed hecc))
    have regs := (((KeepsRegs.of_readFrame read).trans (.sramWrite s1 c off (natLe (bytesOf t) (s.rd d).toNat))).trans
      (.sent _ c)).trans (.retire i _)
    have byte : ∀ j x, (retire i ((sramWrite s1 c off (natLe (bytesOf t) (s.rd d).toNat)).sent c)).spByte j x =
        if j = c ∧ off ≤ x ∧ x < off + bytesOf t then (natLe (bytesOf t) (s.rd d).toNat).getD (x - off) 0#8 else s.spByte j x := by
      intro j x
      rw [spByte_retire, spByte_sent, spByte_sramWrite, length_natLe, read.spByte]
    refine ⟨_, run, ?_, fun j x hx => (byte j x).trans (if_neg hx), fun hw x => ?_, regs.regOf, regs.preds, fun j => ?_⟩
    · have stored := sramRead_of_bytes (bs := natLe (bytesOf t) (s.rd d).toNat) fun i hi => by
        rw [length_natLe] at hi
        rw [byte c (off + i), if_pos (by omega), Nat.add_sub_cancel_left]
      rwa [length_natLe] at stored
    · have line : linesOf off (natLe (bytesOf t) (s.rd d).toNat).length = [off / 128] := by
        rw [length_natLe]; exact linesOf_aligned (bytesOf_dvd t) (aligned_of_place (bytesOf_dvd t) place)
      rw [hbm_retire, hbm_sent, hbm_sramWrite line ((read.heartwood c _).trans hw), read.hbm]
    · rw [flags_retire, flags_sent, cl_sramWrite_keeps Cluster.flags fun _ _ _ _ => rfl, read.cl j]
  case flag =>
    intro s t d a i c n form ht place haway hn
    subst ht
    have run := exec_st form ((coordStore_place (by rwa [length_natLe])).trans (localStore_flags haway hn))
    rw [show bytesOf .n32 = 4 from rfl] at run
    simp only [storeFlags_word] at run
    refine ⟨_, run, ?_, fun m hm => ?_, fun j hj => ?_, fun j x => ?_, ?_⟩
    · rw [flags_retire, flags_sent, State.cl_modCl_self, getLsbD_setFlag _ hn, if_pos rfl]
    · rw [flags_retire, flags_sent, State.cl_modCl_self, getLsbD_setFlag _ hn, if_neg hm]
    · rw [flags_retire, flags_sent, State.cl_modCl_ne _ _ hj]
    · rw [spByte_retire, spByte_sent, State.spByte_eq, State.spByte_eq]
      exact State.cl_modCl_keeps (Cluster.byte · x) s c _ rfl j
    · rw [hbm_retire, hbm_sent]; rfl
  case device =>
    intro s s1 t d a i x p form h48 hal ht hx hk hm
    have read := readFrame_translate ht
    have run := exec_stg form (virtStore_dev h48 (by rwa [length_natLe]) ht hx hk (by rwa [length_natLe]))
    have regs := (((KeepsRegs.of_readFrame read).trans (.devStore p (natLe (bytesOf t) (s.rd d).toNat) s1)).trans
      (.afterStore s1.who.cl p (natLe (bytesOf t) (s.rd d).toNat) _)).trans (.retire i _)
    refine ⟨_, run, ?_, fun y hy => ?_, fun j y => ?_, regs.regOf, regs.preds⟩
    · have stored := Mem.read_write s1.hbm p (natLe (bytesOf t) (s.rd d).toNat)
      rw [length_natLe] at stored
      rw [State.hbmRead, hbm_retire, afterStore_hbm, hbm_devStore, stored]
    · rw [hbm_retire, afterStore_hbm, hbm_devStore, Mem.byte_write, length_natLe, if_neg hy, read.hbm]
    · rw [spByte_retire, spByte_afterStore, ← read.spByte, State.spByte_eq, State.spByte_eq,
        State.cl_of_clusters (clusters_devStore _ _ _)]

end Sys2Proof.Machine.Settled
end

section
/-! SUPPORT. What a prefetch leaves (R89, R118, R218): every register, predicate, vector name and byte of a scratchpad. -/

namespace Sys2Proof.Machine

/-- `t` has every agent's registers and predicates, every vector name and every scratchpad as `s` has them. -/
structure KeepsValues (s t : State) : Prop extends KeepsRegs s t where
  vnames : ∀ c, (t.cl c).vnames = (s.cl c).vnames
  sram : ∀ c, (t.cl c).sram = (s.cl c).sram

/-! ### Tokens (R166) -/

/-- The cluster with another's tokens. -/
def Cluster.withTokens (x y : Cluster) : Cluster := { x with tkcnt := y.tkcnt, tkheld := y.tkheld, heldAt := y.heldAt }

theorem Cluster.withTokens_trans {x y z : Cluster} (h : y = x.withTokens y) (g : z = y.withTokens z) : z = x.withTokens z := by
  have same : y.withTokens z = x.withTokens z := by rw [h]; rfl
  rwa [same] at g

theorem popTok_withTokens (x : Cluster) (ch : Nat) : popTok x ch = x.withTokens (popTok x ch) := by
  unfold popTok; split <;> rfl

theorem pushTok_withTokens (dp : Nat) (x : Cluster) (ch : Nat) : pushTok dp x ch = x.withTokens (pushTok dp x ch) := by
  unfold pushTok; split <;> rfl

theorem foldl_withTokens {f : Cluster → Nat → Cluster} (hf : ∀ x ch, f x ch = x.withTokens (f x ch)) (l : List Nat) (x : Cluster) :
    l.foldl f x = x.withTokens (l.foldl f x) := by
  induction l generalizing x with
  | nil => rfl
  | cons ch l ih => exact Cluster.withTokens_trans (hf x ch) (ih (f x ch))

theorem popTokens_inv {e : Eng} {m : BitVec 8} {s t : State} (h : popTokens e m s = .ok ((), t)) :
    t = s.modCl s.here.1 fun x => (channels m).foldl popTok x := by
  rw [popTokens, Act.bind_ok (Act.get_run s)] at h
  obtain ⟨_, u, hu, h⟩ := Act.bind_inv h
  rw [Act.waitIf_run] at hu
  split at hu
  · cases hu
  · cases hu; cases h; rfl

namespace KeepsValues

variable {s t u : State}

theorem refl (s : State) : KeepsValues s s := ⟨.refl s, fun _ => rfl, fun _ => rfl⟩

theorem trans (h : KeepsValues s t) (g : KeepsValues t u) : KeepsValues s u where
  toKeepsRegs := h.toKeepsRegs.trans g.toKeepsRegs
  vnames c := (g.vnames c).trans (h.vnames c)
  sram c := (g.sram c).trans (h.sram c)

theorem of_readFrame (h : ReadFrame s t) : KeepsValues s t where
  toKeepsRegs := .of_readFrame h
  vnames c := by rw [h.cl c]
  sram c := by rw [h.cl c]

theorem modCl {c : Nat} {f : Cluster → Cluster} (hr : (f (s.cl c)).held = (s.cl c).held) (hv : (f (s.cl c)).vnames = (s.cl c).vnames)
    (hm : (f (s.cl c)).sram = (s.cl c).sram) : KeepsValues s (s.modCl c f) where
  toKeepsRegs := .modCl hr
  vnames := State.cl_modCl_keeps Cluster.vnames s c f hv
  sram := State.cl_modCl_keeps Cluster.sram s c f hm

theorem tokens {c : Nat} {f : Cluster → Cluster} (h : f (s.cl c) = (s.cl c).withTokens (f (s.cl c))) : KeepsValues s (s.modCl c f) :=
  modCl (by rw [h]; rfl) (by rw [h]; rfl) (by rw [h]; rfl)

theorem popTokens {e : Eng} {m : BitVec 8} (h : popTokens e m s = .ok ((), t)) : KeepsValues s t := by
  rw [popTokens_inv h]
  exact tokens (foldl_withTokens popTok_withTokens _ _)

theorem retire (i : Instr) (s : State) : KeepsValues s (retire i s) where
  toKeepsRegs := .retire i s
  vnames := (moved_retire i s).cl_keeps Cluster.vnames (fun _ _ => rfl) fun _ _ _ => rfl
  sram := (moved_retire i s).cl_keeps Cluster.sram (fun _ _ => rfl) fun _ _ _ => rfl

theorem vecEnd (i : Instr) (tok : Tok) (r : Round_) (s : State) : KeepsValues s (s.vecEnd i tok r) := by
  have counted : KeepsValues s (countOrdinal r s) := by
    unfold countOrdinal
    split
    · exact modCl (by simp [Cluster.held, Cluster.rake]) (by simp) (by simp)
    · exact refl s
  exact (counted.trans (tokens (foldl_withTokens (pushTok_withTokens _) _ _))).trans (retire i _)

/-! ### A line fetched into L1 (R118, R120) -/

theorem l1Miss {c : Nat} {w : Who} {va a n : Nat} {x : Xlat} {bs : List Byte} (hx : x.chk = false)
    (h : l1Miss c w va a n x s = .ok (t, bs)) : KeepsValues s t := by
  unfold Machine.l1Miss at h
  split at h
  · cases h
  next s1 line hr =>
  cases h
  refine (of_readFrame (readFrame_devRead hx hr)).trans ?_
  have filled (y : Cluster) : ∃ l, l1Fill y (a / 128) line s.tick = { y with l1 := l } := by
    unfold l1Fill
    dsimp only
    split
    · exact ⟨y.l1, rfl⟩
    · exact ⟨_, rfl⟩
  obtain ⟨l, hl⟩ := filled (s1.cl c)
  exact modCl (by rw [hl]; rfl) (by rw [hl]) (by rw [hl])

theorem cachedRead {c : Nat} {w : Who} {va a n : Nat} {x : Xlat} {bs : List Byte} (hx : x.chk = false)
    (h : cachedRead c w va a n x s = .ok (t, bs)) : KeepsValues s t := by
  unfold Machine.cachedRead at h
  dsimp only at h
  split at h
  · split at h
    · split at h
      · exact (modCl rfl rfl rfl).trans (l1Miss hx h)
      · cases h; exact refl s
    · exact l1Miss hx h
  · exact of_readFrame (readFrame_devRead hx h)

theorem prefetch (a : Word) (s : State) : KeepsValues s (prefetch a s) := by
  unfold Machine.prefetch
  dsimp only
  split
  · exact refl s
  split
  · split
    · exact modCl rfl rfl rfl
    · split
      · exact of_readFrame (readFrame_modDie rfl)
      · refine (of_readFrame (t := if _ then s else endWalk s.selfDie 0 s) ?_).trans (of_readFrame (readFrame_modDie rfl))
        split
        · exact .refl s
        · exact readFrame_endWalk _ _ _
  · split
    · exact refl s
    next s1 x hx =>
    split
    · split
      · next cacheable =>
        have unchecked : x.chk = false := by simp at cacheable; exact cacheable.2
        split
        · next hr => exact (of_readFrame (readFrame_translate hx)).trans (cachedRead unchecked hr)
        · exact refl s
      · exact refl s
    · exact refl s

end KeepsValues

end Sys2Proof.Machine
end

section
/-! SUPPORT. Lines of device memory as the vector engines reach them (R217, R218). -/

namespace Sys2Proof.Machine

theorem here_congr {s t : State} (h : t.actor = s.actor) : t.here = s.here := by
  unfold State.here State.selfCl
  rw [h]

theorem baseVa_run (k : BitVec 11) (s : State) : baseVa (.s k) s = .ok (s.rd (k.setWidth 6), s) := rfl

section DeviceLine

variable {s s1 : State} {a : Word} {p : Nat}

/-- The target of an aligned line access whose translation succeeds, where it is device memory. -/
theorem lineTarget_dev {write : Bool} {x : Xlat} (h48 : bits a.toNat 63 48 = 0) (hal : a.toNat % 128 = 0)
    (h : translate s.who a.toNat write false s = .ok (s1, x)) (hx : x.tgt = .dev p) : lineTarget a write s = .ok (x, s1) := by
  rw [lineTarget, Act.bind_ok (Act.get_run s)]
  simp only [h48, hal, bne_self_eq_false, Bool.false_eq_true, if_false]
  refine (Act.bind_ok (translateA_ok h)).trans ?_
  simp only [hx]
  rfl

theorem lineLoad_dev (h : s.deviceLine a false s1 p) :
    lineLoad a s = .ok (BitVec.ofNat 1024 (leNat (s1.hbmRead p 128)), l2Read p 128 s1) := by
  obtain ⟨h48, hal, x, ht, hx, hk, hc, hs⟩ := h
  have read : liftA a.toNat (targetRead s1.who a.toNat 128 x) s1 = .ok (s1.hbmRead p 128, l2Read p 128 s1) := by
    rw [Act.liftA_run, targetRead_uncached hx (hc rfl) hk hs]
  rw [lineLoad, Act.bind_ok (lineTarget_dev h48 hal ht hx), Act.bind_ok (Act.get_run s1), Act.bind_ok read]
  rfl

theorem lineStore_dev (h : s.deviceLine a true s1 p) (v : Vec) :
    lineStore a v s = .ok ((), afterStore (some s1.here.1) p (natLe 128 v.toNat) (devStore p (natLe 128 v.toNat) s1)) := by
  obtain ⟨h48, hal, x, ht, hx, hk, -, hm⟩ := h
  have write : liftU a.toNat (targetWrite s1.who a.toNat (vecBytes v) false x) s1 = .ok ((), devStore p (vecBytes v) s1) := by
    rw [Act.liftU_run, targetWrite_dev hx hk]
    rw [vecBytes, length_natLe]
    exact hm
  rw [lineStore, Act.bind_ok (lineTarget_dev h48 hal ht hx), Act.bind_ok (Act.get_run s1), Act.bind_ok write, Act.modify_run]
  simp only [hx, here_congr (KeepsRegs.devStore p (vecBytes v) s1).actor]
  rfl

/-- A line access that meets a cause which `vldfl` suppresses (R218). -/
theorem lineLoad_suppressed (h48 : bits a.toNat 63 48 = 0) (hal : a.toNat % 128 = 0)
    (hok : ∀ q, translate s.who a.toNat false false s = .ok q → ∃ c o, q.2.tgt = .sram c o)
    (herr : ∀ e, translate s.who a.toNat false false s = .error e → e ∈ [0x20#8, 0x21#8, 0x22#8, 0x29#8, 0x2A#8, 0x2B#8]) :
    ∃ c v, lineLoad a s = .error (.trap c v) ∧ suppressed c = true := by
  have target : ∃ c v, lineTarget a false s = .error (.trap c v) ∧ suppressed c = true := by
    rw [lineTarget, Act.bind_ok (Act.get_run s)]
    simp only [h48, hal, bne_self_eq_false, Bool.false_eq_true, if_false]
    cases ht : translate s.who a.toNat false false s with
    | error e =>
      have stops : translateA s.who a.toNat false false s = .error (stopOf e a.toNat) := by rw [translateA, ht]
      rw [Act.bind_error stops]
      have cause := herr e ht
      simp only [List.mem_cons, List.not_mem_nil, or_false] at cause
      rcases cause with rfl | rfl | rfl | rfl | rfl | rfl <;> exact ⟨_, _, rfl, rfl⟩
    | ok q =>
      obtain ⟨c, o, hq⟩ := hok q ht
      refine ⟨0x2C#8, a, ?_, rfl⟩
      refine (Act.bind_ok (translateA_ok ht)).trans ?_
      rw [hq]
      rfl
  obtain ⟨c, v, ht, hc⟩ := target
  exact ⟨c, v, by rw [lineLoad, Act.bind_error ht], hc⟩

end DeviceLine

/-! ### `vldfl` (R218) -/

theorem orNone_some {α : Type} {b : Act α} {s t : State} {v : α} (h : b s = .ok (v, t)) : orNone b s = .ok (some v, t) := by
  rw [orNone, h]

theorem orNone_none {α : Type} {b : Act α} {s : State} {c : BitVec 8} {v : Word} (h : b s = .error (.trap c v))
    (hc : suppressed c = true) : orNone b s = .ok (none, s) := by
  rw [orNone, h]
  exact if_pos hc

/-- A mask of ones is made of as many ones as there are lanes. -/
theorem maskMade_true (t : Ty) : maskMade t (fun _ => true) = maskVec (List.replicate t.lanes true) := by
  rw [maskMade, List.map_const', List.length_range]

end Sys2Proof.Machine
end

section
namespace Sys2Proof.Machine.Settled

/-- Settles O37: a line is reached as its translation says, and the rest of each body follows; a prefetch touches nothing but
caches and outstanding walks. -/
theorem deviceVectors : Obligations.DeviceVectors := by
  intro hd d a b k s s1 t r va start
  refine ⟨?vldg, ?vstg, ?vldfl, ?suppressed, ?vpref⟩
  case vldg =>
    intro s2 s3 p line hw
    show execVldg hd d (.s k) s = _
    refine headOp_ok start ?_
    rw [Act.bind_ok (baseVa_run k s1), Act.bind_ok (lineLoad_dev line)]
    exact hw
  case vstg =>
    intro s2 s3 p v hv hva line c s4
    have walk : s3.hbm = s2.hbm ∧ ∀ c y, s3.spByte c y = s2.spByte c y := by
      obtain ⟨-, -, x, ht, -⟩ := line
      exact ⟨(readFrame_translate ht).hbm, (readFrame_translate ht).spByte⟩
    have hbm : s4.hbm = Mem.write s2.hbm p (natLe 128 v.toNat) :=
      (afterStore_hbm (some c) p (natLe 128 v.toNat) (devStore p (natLe 128 v.toNat) s3)).trans
        ((hbm_devStore _ _ _).trans (by rw [walk.1]))
    refine ⟨?_, ?_, fun y hy => ?_, fun j y => ?_⟩
    · show execVstg hd (.s k) a s = _
      refine headOp_ok start ?_
      rw [Act.bind_ok hv, Act.bind_ok (baseVa_run k s2), hva]
      exact lineStore_dev line v
    · have stored := Mem.read_write s2.hbm p (natLe 128 v.toNat)
      rw [length_natLe] at stored
      rw [State.hbmRead, hbm, stored]
    · rw [hbm, Mem.byte_write, length_natLe, if_neg hy]
    · refine (spByte_afterStore (some c) p (natLe 128 v.toNat) (devStore p (natLe 128 v.toNat) s3) j y).trans ?_
      rw [← walk.2, State.spByte_eq, State.spByte_eq, State.cl_of_clusters (clusters_devStore _ _ _)]
  case vldfl =>
    intro s2 s3 s4 p line hw hm
    show execVldfl hd d (.s k) b s = _
    refine headOp_ok start ?_
    rw [Act.bind_ok (baseVa_run k s1), Act.bind_ok (orNone_some (lineLoad_dev line))]
    rw [maskMade_true] at hm
    exact (Act.bind_ok hw).trans hm
  case suppressed =>
    intro s3 s4 h48 hal hok herr hw hm
    obtain ⟨c, v, hl, hc⟩ := lineLoad_suppressed h48 hal hok herr
    show execVldfl hd d (.s k) b s = _
    refine headOp_ok start ?_
    rw [Act.bind_ok (baseVa_run k s1), Act.bind_ok (orNone_none hl hc)]
    exact (Act.bind_ok hw).trans hm
  case vpref =>
    have run : exec (.vpref hd (.s k)) s = .next ((prefetch va s1).vecEnd (.vpref hd (.s k)) hd.tok r) := by
      show execVpref hd (.s k) s = _
      refine headOp_ok start ?_
      rw [Act.bind_ok (baseVa_run k s1)]
      rfl
    have kept := ((KeepsValues.popTokens start.2).trans (.prefetch va s1)).trans (.vecEnd (.vpref hd (.s k)) hd.tok r _)
    exact ⟨run, kept.regOf, fun c => ⟨congrArg Prod.fst (kept.cl c), kept.vnames c, kept.sram c⟩⟩

end Sys2Proof.Machine.Settled
end

section
/-! SUPPORT. Errors of storage (R405 to R408): what the codes correct, and what is counted. -/

namespace Sys2Proof.Machine

/-! ### Rows (R405, R406, log 72) -/

theorem mem_rowErrors {x : Cluster} {n b : Nat} : b ∈ rowErrors x n ↔ b ∈ x.bad ∧ b / 1024 = n := by
  simp [rowErrors]

/-- A row without an error stays; one whose errors its code, or its columns' codes, correct loses them. -/
theorem rowEcc_of_correctable {x : Cluster} {n : Nat}
    (h : (rowErrors x n).length ≤ 1 ∨ ∀ b ∈ rowErrors x n, (colErrors x (colOfBit b)).length = 1) :
    rowEcc x n = some { x with bad := x.bad.filter fun b => b / 1024 != n } := by
  have codes : (rowErrors x n).isEmpty = false →
      ((rowErrors x n).length == 1 || (rowErrors x n).all fun b => (colErrors x (colOfBit b)).length == 1) = true := by
    intro some_
    rcases h with one | alone
    · have pos : (rowErrors x n).length ≠ 0 := by simpa using some_
      simp [show (rowErrors x n).length = 1 by omega]
    · simp only [Bool.or_eq_true, List.all_eq_true, beq_iff_eq]
      exact Or.inr alone
  unfold rowEcc
  dsimp only
  cases he : (rowErrors x n).isEmpty with
  | true =>
    have none_ : x.bad.filter (fun b => b / 1024 != n) = x.bad := by
      rw [List.filter_eq_self]
      intro b hb
      rw [bne_iff_ne]
      intro hn
      have := mem_rowErrors.mpr ⟨hb, hn⟩
      rw [List.isEmpty_iff.mp he] at this
      cases this
    rw [if_pos rfl, none_]
  | false => rw [if_neg Bool.false_ne_true, if_pos (codes he)]

/-- Two or more errors of which one shares its column are beyond both codes. -/
theorem rowEcc_eq_none_iff {x : Cluster} {n : Nat} : rowEcc x n = none ↔
    1 < (rowErrors x n).length ∧ ∃ b ∈ rowErrors x n, (colErrors x (colOfBit b)).length ≠ 1 := by
  constructor
  · intro h
    by_contra hc
    have codes : (rowErrors x n).length ≤ 1 ∨ ∀ b ∈ rowErrors x n, (colErrors x (colOfBit b)).length = 1 := by
      by_contra beyond
      rw [not_or, not_le] at beyond
      obtain ⟨many, shared⟩ := beyond
      exact hc ⟨many, by simpa using shared⟩
    rw [rowEcc_of_correctable codes] at h
    cases h
  · rintro ⟨many, b, hb, shared⟩
    have some_ : ¬ (rowErrors x n).isEmpty = true := by
      intro he
      rw [List.isEmpty_iff.mp he] at hb
      cases hb
    have codes : ¬ ((rowErrors x n).length == 1 || (rowErrors x n).all fun b => (colErrors x (colOfBit b)).length == 1) = true := by
      simp only [Bool.or_eq_true, beq_iff_eq, List.all_eq_true, not_or, not_forall]
      exact ⟨by omega, b, hb, shared⟩
    unfold rowEcc
    dsimp only
    rw [if_neg some_, if_neg codes]

/-- The codes look at nothing of a cluster but its bits in error. -/
theorem rowEcc_none_of_bad {x y : Cluster} {n : Nat} (hbad : y.bad = x.bad) (h : rowEcc x n = none) : rowEcc y n = none := by
  rw [rowEcc_eq_none_iff] at h ⊢
  simpa only [rowErrors, colErrors, hbad] using h

/-- What a correction leaves: the row's errors are gone, the others stand. -/
theorem rowEcc_some {x y : Cluster} {n : Nat} (h : rowEcc x n = some y) : y = { x with bad := x.bad.filter fun b => b / 1024 != n } := by
  by_cases hc : (rowErrors x n).length ≤ 1 ∨ ∀ b ∈ rowErrors x n, (colErrors x (colOfBit b)).length = 1
  · rw [rowEcc_of_correctable hc] at h
    cases h; rfl
  · rw [rowEcc_eq_none_iff.mpr (by simpa using hc)] at h
    cases h

/-- As many errors leave as the row had. -/
theorem length_bad_rowEcc {x y : Cluster} {n : Nat} (h : rowEcc x n = some y) :
    x.bad.length - y.bad.length = (rowErrors x n).length := by
  have parts : x.bad.length = (rowErrors x n).length + (x.bad.filter fun b => b / 1024 != n).length :=
    List.length_eq_length_filter_add fun b => b / 1024 == n
  rw [rowEcc_some h, parts, Nat.add_sub_cancel]

/-! ### Counts (R405, R426) -/

/-- The events of a die's stores are counted by die (Table 18.4). -/
theorem counterValue_own {n : Nat} (hn : 129 ≤ n ∧ n ≤ 134) (s : State) (d : Nat) :
    counterValue s d n = KMap.getD s.counters (256 * d + n) 0#64 := by
  unfold counterValue
  rw [if_neg (by simp; omega), if_neg (by simp; omega), if_neg (by simp; omega), if_pos (by simp; omega)]

theorem counterValue_count {n : Nat} (hn : 129 ≤ n ∧ n ≤ 134) (s : State) (d k : Nat) :
    counterValue (s.count d n k) d n = counterValue s d n + BitVec.ofNat 64 k := by
  rw [counterValue_own hn, counterValue_own hn, State.count]
  split
  · next none_ => rw [beq_iff_eq.mp none_]; simp
  · simp [KMap.modify]

/-- A fetch that corrects its row counts what it corrected (R405). -/
theorem rowsEcc_one {s : State} {cl n : Nat} {y : Cluster} (h : rowEcc (s.cl cl) n = some y) :
    ∃ u, rowsEcc cl [n] s = some u ∧ counterValue u (dieOf cl) 129
      = counterValue s (dieOf cl) 129 + BitVec.ofNat 64 (rowErrors (s.cl cl) n).length := by
  have rows : [n].foldlM rowEcc (s.cl cl) = some y := by simp [h]
  unfold rowsEcc
  rw [rows]
  dsimp only
  split
  · next clean =>
    refine ⟨s, rfl, ?_⟩
    have none_ : rowErrors (s.cl cl) n = [] := by simp [rowErrors, List.isEmpty_iff.mp clean]
    rw [none_]; simp
  · refine ⟨_, rfl, ?_⟩
    rw [countCorrected, counterValue_count (by decide), length_bad_rowEcc h]
    rfl

theorem rowsEcc_one_none {s : State} {cl n : Nat} (h : rowEcc (s.cl cl) n = none) : rowsEcc cl [n] s = none := by
  simp [rowsEcc, h]

/-! ### Landing on a row beyond its codes (R406) -/

theorem raiseCheck_clusters (s : State) (ctx g agent unit : Nat) (cause : BitVec 8) :
    (s.raiseCheck ctx g agent unit cause).clusters = s.clusters := by
  unfold State.raiseCheck
  split
  · rfl
  · dsimp only
    split <;> exact logFault_clusters _ _ _

/-- What would land on an uncorrectable row is not written. -/
theorem landBytes_uncorrectable {cl n g : Nat} {data : List (Nat × Byte)} {s : State} (h : rowEcc (s.cl cl) n = none) :
    (landBytes cl n g data s).clusters = s.clusters := by
  unfold landBytes
  rw [rowsEcc_one_none h]
  dsimp only
  split <;> exact raiseCheck_clusters _ _ _ _ _ _

theorem spByte_landFill_uncorrectable {f : Fill} {cl n : Nat} {s : State} (hf : f.line = .sram cl n) (h : rowEcc (s.cl cl) n = none)
    (j a : Nat) : (landFill f s).spByte j a = s.spByte j a := by
  have waits : rowEcc ((State.stir { s with fills := s.fills.erase f } f.cl).cl cl) n = none :=
    rowEcc_none_of_bad (bad_stir _ _ _) h
  rw [State.spByte_eq, byte_of_store (store_landFill hf s j), lineStored, byte_setOwed, byte_of_store (store_stir _ _ _),
    State.cl_of_clusters (landBytes_uncorrectable waits), byte_of_store (store_stir _ _ _), State.spByte_eq]
  rfl

/-! ### Device memory (R407, R408) -/

theorem mem_poisoned_poison (s : State) (q : Nat) : q ∈ (s.poison q).poisoned := by
  unfold State.poison
  split
  · next h => simpa using h
  · unfold State.count
    exact NSet.mem_insert.mpr (Or.inl rfl)

/-- A sector poisoned anew is counted at its home. -/
theorem counterValue_poison {s : State} {q : Nat} (h : q ∉ s.poisoned) :
    counterValue (s.poison q) (homeDie s (32 * q)) 134 = counterValue s (homeDie s (32 * q)) 134 + 1#64 := by
  rw [State.poison, if_neg (by simpa using h), counterValue_count (by decide)]
  rfl

/-- A cause that a read consumes is one of the two of Table 17.1. -/
theorem sectorCause_cases {s : State} {a n : Nat} {c : BitVec 8} (h : sectorCause s a n = some c) : c = 0xC1#8 ∨ c = 0xC2#8 := by
  unfold sectorCause at h
  dsimp only at h
  split at h
  · cases h; exact Or.inl rfl
  split at h
  · cases h; exact Or.inr rfl
  · cases h

/-- A sector wholly written is good again. -/
theorem good_devStore {s : State} {a : Nat} {bs : List Byte} {k : Nat} (h : a ≤ 32 * k ∧ 32 * k + 32 ≤ a + bs.length) :
    k ∉ (devStore a bs s).poisoned ∧ k ∉ (devStore a bs s).l2bad := by
  have kept (l : NSet) : k ∉ l.filter fun k => !(a ≤ 32 * k && 32 * k + 32 ≤ a + bs.length) := by simp [h.1, h.2]
  exact ⟨kept _, kept _⟩

/-! ### The set of a line in L2 (R101, R102) -/

theorem foldl_keeps {α β : Type} (g : State → β) {f : State → α → State} (hf : ∀ s a, g (f s a) = g s) (l : List α) (s : State) :
    g (l.foldl f s) = g s := by
  induction l generalizing s with
  | nil => rfl
  | cons a l ih => exact (ih (f s a)).trans (hf s a)

theorem poison_l2 (s : State) (q : Nat) : (s.poison q).l2 = s.l2 := by
  unfold State.poison State.count
  split
  · rfl
  · rfl

/-- An access changes its line's set, and no other; what it writes back is not looked up again. -/
theorem l2_l2One (line : Nat) (fill whole part : BitVec 4) (s : State) : (l2One line fill whole part s).l2 =
    KMap.set s.l2 (l2Key s (128 * line)) (l2Insert (pinWays s (homeDie s (128 * line))) (KMap.getD s.l2 (l2Key s (128 * line)) [])
      line fill whole part (sectorMask line fun b => s.poisoned.contains (b / 32))).1 :=
  foldl_keeps State.l2 poison_l2 _ _

/-- The lines of a set are in unpinned ways, each in its own. -/
def soundSet (pin : Nat) (l : List L2Line) : Prop := (∀ x ∈ l, pin ≤ x.way ∧ x.way < 16) ∧ (l.map (·.way)).Nodup

theorem soundSet_append {pin : Nat} {ls kept : List L2Line} {new : L2Line} (h : soundSet pin ls) (hk : kept.Sublist ls)
    (hw : pin ≤ new.way ∧ new.way < 16) (hn : ∀ x ∈ kept, x.way ≠ new.way) : soundSet pin (kept ++ [new]) := by
  obtain ⟨ways, once⟩ := h
  constructor
  · intro x hx
    rcases List.mem_append.mp hx with hx | hx
    · exact ways x (hk.subset hx)
    · rw [List.mem_singleton.mp hx]; exact hw
  · rw [List.map_append, List.nodup_append]
    refine ⟨once.sublist (hk.map _), by simp, fun a ha b hb => ?_⟩
    obtain ⟨x, hx, rfl⟩ := List.mem_map.mp ha
    obtain rfl : b = new.way := by simpa using hb
    exact hn x hx

/-- A line that leaves its way leaves it to no other line of the set. -/
theorem way_ne_of_line_ne {pin : Nat} {ls : List L2Line} {v : L2Line} (h : soundSet pin ls) (hv : v ∈ ls) :
    ∀ x ∈ ls.filter (fun k => k.line != v.line), x.way ≠ v.way := by
  intro x hx same
  obtain ⟨hx, other⟩ := List.mem_filter.mp hx
  have : x = v := List.inj_on_of_nodup_map h.2 hx hv same
  simp [this] at other

/-- What an access of the sectors `fill` and `whole` shows of its line: the sectors are valid, and dirty where written, but for
those whose stack returns them poisoned. -/
def showsAccess (line : Nat) (fill whole bad : BitVec 4) (x : L2Line) : Prop :=
  x.line = line ∧ whole &&& ~~~ x.valid = 0#4 ∧ whole &&& ~~~ x.dirty = 0#4 ∧ fill &&& ~~~ (x.valid ||| bad) = 0#4

theorem written_covered (whole q v : BitVec 4) : whole &&& ~~~ (v ||| (whole ||| q)) = 0#4 := by
  ext i; simp; grind

/-- A fill that finds a sector missing makes every sector valid that its stack returns good. -/
theorem filled_covered (fill v put bad : BitVec 4) :
    fill &&& ~~~ (((if fill &&& ~~~ v != 0#4 then v ||| ~~~ bad else v) ||| put) ||| bad) = 0#4 := by
  split
  · ext i; simp; grind
  · next held =>
    have held : fill &&& ~~~ v = 0#4 := by simpa using held
    rw [show ~~~ ((v ||| put) ||| bad) = ~~~ v &&& ~~~ (put ||| bad) by ext i; simp; grind, ← BitVec.and_assoc, held, BitVec.zero_and]

/-- The line that an access leaves, where `v` and `d` were valid and dirty of it before. -/
theorem showsAccess_accessed (line w : Nat) (fill whole q bad v d : BitVec 4) : showsAccess line fill whole bad
    ⟨w, line, (if fill &&& ~~~ v != 0#4 then v ||| ~~~ bad else v) ||| (whole ||| q), d ||| (whole ||| q)⟩ :=
  ⟨rfl, written_covered _ _ _, written_covered _ _ _, filled_covered _ _ _ _⟩

/-- A line new to its set had no sector before. -/
theorem showsAccess_new (line w : Nat) (fill whole q bad : BitVec 4) : showsAccess line fill whole bad
    ⟨w, line, (if fill != 0#4 then ~~~ bad else 0#4) ||| (whole ||| q), whole ||| q⟩ := by
  have h := showsAccess_accessed line w fill whole q bad 0#4 0#4
  rwa [BitVec.zero_or, BitVec.zero_or, BitVec.not_zero, BitVec.and_allOnes] at h

theorem l2Insert_sound {pin line : Nat} {ls : List L2Line} {fill whole part bad : BitVec 4} (h : soundSet pin ls) (hp : pin < 16) :
    soundSet pin (l2Insert pin ls line fill whole part bad).1
      ∧ ∃ x ∈ (l2Insert pin ls line fill whole part bad).1, showsAccess line fill whole bad x := by
  unfold l2Insert
  split
  case h_1 l hit =>
    have hl : l ∈ ls := List.mem_of_find?_eq_some hit
    obtain rfl : l.line = line := by simpa using List.find?_some hit
    exact ⟨soundSet_append h List.filter_sublist (h.1 l hl) (way_ne_of_line_ne h hl),
      _, List.mem_append_right _ (List.mem_singleton_self _), showsAccess_accessed _ _ _ _ _ _ _ _⟩
  case h_2 miss =>
    dsimp only
    split
    case h_1 w free =>
      have hw : pin ≤ w ∧ ∀ x ∈ ls, x.way ≠ w := by simpa using List.find?_some free
      have below : w < 16 := List.mem_range.mp (List.mem_of_find?_eq_some free)
      exact ⟨soundSet_append h (List.Sublist.refl _) ⟨hw.1, below⟩ hw.2,
        _, List.mem_append_right _ (List.mem_singleton_self _), showsAccess_new _ _ _ _ _ _⟩
    case h_2 full =>
      split
      case h_1 v victim =>
        have hv : v ∈ ls := List.mem_of_find?_eq_some victim
        exact ⟨soundSet_append h List.filter_sublist (h.1 v hv) (way_ne_of_line_ne h hv),
          _, List.mem_append_right _ (List.mem_singleton_self _), showsAccess_new _ _ _ _ _ _⟩
      case h_2 pinned =>
        have empty : ls = [] := List.eq_nil_iff_forall_not_mem.mpr fun x hx =>
          List.find?_eq_none.mp pinned x hx (decide_eq_true (h.1 x hx).1)
        exact absurd (by simp [empty]) (List.find?_eq_none.mp full pin (List.mem_range.mpr hp))

end Sys2Proof.Machine
end

section
/-! SUPPORT. The clauses of O13 that speak of more than one store. -/

namespace Sys2Proof.Machine

/-- A row that its codes, or its columns' codes, correct keeps every byte, and every error of the other rows stands. -/
theorem rowEcc_corrects {x : Cluster} {n : Nat}
    (h : (rowErrors x n).length ≤ 1 ∨ ∀ b ∈ rowErrors x n, (colErrors x (colOfBit b)).length = 1) :
    ∃ y, rowEcc x n = some y ∧ rowErrors y n = [] ∧ y.sram = x.sram ∧ y.sregs = x.sregs
      ∧ ∀ b, b / 1024 ≠ n → (b ∈ y.bad ↔ b ∈ x.bad) := by
  refine ⟨_, rowEcc_of_correctable h, ?_, rfl, rfl, fun b hb => by simp [hb]⟩
  rw [List.eq_nil_iff_forall_not_mem]
  intro b hb
  simp only [mem_rowErrors, List.mem_filter, bne_iff_ne] at hb
  exact hb.1.2 hb.2

theorem strike_hbm {k : Nat} (hk : k < 2 ^ 34) (hard : Bool) (s : State) : strike (.hbm k hard) s
    = if hard then s.poison k else s.count (homeDie s (32 * k)) 131 1 :=
  if_neg (Nat.not_le_of_lt hk)

theorem poisoned_count (s : State) (d n k : Nat) : (s.count d n k).poisoned = s.poisoned := by
  unfold State.count
  split
  · rfl
  · rfl

/-- What an upset of device memory leaves: the bytes, and a poisoned sector or a corrected one, counted. -/
theorem strike_hbm_effect {k : Nat} (hk : k < 2 ^ 34) (hard : Bool) (s : State) :
    (strike (.hbm k hard) s).hbm = s.hbm
      ∧ (hard = true → k ∈ (strike (.hbm k hard) s).poisoned ∧ (k ∉ s.poisoned →
          counterValue (strike (.hbm k hard) s) (homeDie s (32 * k)) 134 = counterValue s (homeDie s (32 * k)) 134 + 1#64))
      ∧ (hard = false → (strike (.hbm k hard) s).poisoned = s.poisoned ∧
          counterValue (strike (.hbm k hard) s) (homeDie s (32 * k)) 131 = counterValue s (homeDie s (32 * k)) 131 + 1#64) := by
  rw [strike_hbm hk]
  cases hard with
  | true =>
    rw [if_pos rfl]
    exact ⟨(readFrame_poison s k).hbm, fun _ => ⟨mem_poisoned_poison s k, counterValue_poison⟩, fun h => absurd h (by decide)⟩
  | false =>
    rw [if_neg Bool.false_ne_true]
    exact ⟨(readFrame_count s _ _ _).hbm, fun h => absurd h (by decide),
      fun _ => ⟨poisoned_count _ _ _ _, counterValue_count (by decide) s _ 1⟩⟩

end Sys2Proof.Machine
end

section
namespace Sys2Proof.Machine.Settled

/-- Settles O13: a row is corrected or stands by the count of its errors and of its columns'; poison is read, merged and written
over sector by sector; a set stays within its unpinned ways because an access replaces the line it takes the way of. -/
theorem storageErrors : Obligations.StorageErrors := by
  refine ⟨?rows, ?fetch, ?landing, ?upset, ?sectors, fun s port => rfl, ?slices, ?set⟩
  case rows =>
    intro x n
    exact ⟨rowEcc_corrects, fun many shared => rowEcc_eq_none_iff.mpr ⟨many, shared⟩⟩
  case fetch =>
    intro s cl n y h
    obtain ⟨u, hu, counted⟩ := rowsEcc_one h
    exact ⟨u, hu, counted, (readFrame_rowsEcc hu).spByte⟩
  case landing =>
    intro s f cl n hf h
    exact ⟨_, exec_lineLanding hf, spByte_landFill_uncorrectable (line_of_landable hf) h⟩
  case upset =>
    intro s k hard hk
    exact strike_hbm_effect hk hard s
  case sectors =>
    intro s w va a bs x sync
    refine ⟨fun c h => ⟨devRead_error h, sectorCause_cases h⟩, fun h hx => devRead_ok h hx, fun c h => devWrite_error h,
      fun h hx => devWrite_ok h hx, fun _ => ⟨fun k lo hi => good_devStore ⟨lo, hi⟩, fun b => ?_⟩⟩
    rw [hbm_devStore, Mem.byte_write]
  case slices =>
    intro s a n
    exact ⟨(readFrame_l2Read a n s).hbm, (readFrame_l2Write a n s).hbm, fun _ => rfl⟩
  case set =>
    intro s line fill whole part pin key ls u sound bad
    have sets : u.l2 = KMap.set s.l2 key (l2Insert pin ls line fill whole part bad).1 := l2_l2One line fill whole part s
    rw [sets]
    refine ⟨fun j hj => KMap.getD_set_ne _ _ _ hj, fun hs hp => ?_⟩
    rw [KMap.getD_set_self]
    exact l2Insert_sound hs hp

end Sys2Proof.Machine.Settled
end

section
/-! SUPPORT. The C instructions that issue no command (R129, R142, R144, R145, R360), `egroup`, and the slots of a group (R318, R319). -/

namespace Sys2Proof.Machine

/-! ### Checks and waits (R129, R142) -/

/-- An instruction that only waits passes where it does not. -/
theorem actOp_waitIf {i : Instr} {p : Pred} {a : Act Unit} {s : State} {b : Bool} {w : Wait} (hp : s.holds p = true)
    (ha : a s = waitIf b w s) : actOp i p a s = .next (if b then s.noteWait w else retire i s) := by
  rw [Act.waitIf_run] at ha
  cases b
  · exact actOp_ok hp ha
  · exact actOp_wait hp ha

theorem trapIf_ok {b : Bool} {c : BitVec 8} (h : b = false) (s : State) : trapIf b c s = .ok ((), s) := by
  rw [Act.trapIf_run, h]; rfl

section Engine

variable {s : State} {p : Pred} (hp : s.holds p = true)
include hp

/-- `earm` (R129). -/
theorem exec_earm (d a f0 : Reg) (hall : allPassed s) : exec (.earm p d a f0) s = .next (retire (.earm p d a f0)
    ((s.modCl s.selfCl fun x => { x with scoreboard := (x.scoreboard &&& ~~~ s.rd a) ||| s.rd f0 }).wr d
      (s.cl s.selfCl).scoreboard)) :=
  actOp_ok hp ((Act.bind_ok (awaitAll_ok hall)).trans rfl)

/-- The number that `ewait` waits for: the one given, or, for 0, the last issued (R142). -/
def State.awaitedSeq (s : State) (a : Reg) : BitVec 32 :=
  if (s.rd a).setWidth 32 = 0#32 then (s.cl s.selfCl).lastSeq .copy else (s.rd a).setWidth 32

theorem exec_ewait (a : Reg) : exec (.ewait p a) s = .next
    (if 0 ≤ ((s.cl s.selfCl).rtOf .copy - s.awaitedSeq a).toInt then retire (.ewait p a) s else s.noteWait .engine) := by
  refine (actOp_waitIf (b := decide (((s.cl s.selfCl).rtOf .copy - s.awaitedSeq a).toInt < 0)) (w := .engine) hp ?_).trans ?_
  · rw [Act.bind_ok (Act.get_run s), State.awaitedSeq]
    simp only [beq_iff_eq]
  · simp only [decide_eq_true_eq, ← not_le, ite_not]

/-- `edrain` waits for the copy engine and for what has been written (R142). -/
theorem exec_edrain : exec (.edrain p) s = .next
    (if s.copies ≠ [] ∨ (s.cl s.selfCl).writeAcks ≠ 0 then s.noteWait .engine else retire (.edrain p) s) := by
  refine (actOp_waitIf (b := ((s.cl s.selfCl).cmds.any fun c => c.unit == .copy) || (s.cl s.selfCl).writeAcks != 0)
    (w := .engine) hp (by rw [Act.bind_ok (Act.get_run s)])).trans ?_
  congr 2
  simp [State.copies, List.filter_eq_nil_iff]

/-! ### `ecancel` (R144) -/

theorem exec_ecancel_held {d a : Reg} {c : Cmd} (h : s.cmdAt .copy s.selfCl ((s.rd a).setWidth 32) s.selfGang = some c) :
    exec (.ecancel p d a) s = .next (retire (.ecancel p d a) ((cancelCmd c s).wr d 0#64)) := by
  show execEcancel p d a s = _
  simp only [execEcancel, plainOp_holds hp, h]

/-- Whether the answer about a command that is not held is that it has been issued (log 96). -/
def Cluster.hasIssued (x : Cluster) (n : BitVec 32) : Bool :=
  (x.lastSeq .copy - n).toNat < 2147483648 && (x.gone .copy || (n != 0#32 && n.toNat ≤ (x.lastSeq .copy).toNat))

theorem exec_ecancel_unheld {d a : Reg} (h : s.cmdAt .copy s.selfCl ((s.rd a).setWidth 32) s.selfGang = none) :
    exec (.ecancel p d a) s = .next (retire (.ecancel p d a)
      (s.wr d (if (s.cl s.selfCl).hasIssued ((s.rd a).setWidth 32) then 1#64 else 2#64))) := by
  show execEcancel p d a s = _
  simp only [execEcancel, plainOp_holds hp, h]
  rfl

end Engine

theorem hasIssued_zero {x : Cluster} (h : x.gone .copy = false) : x.hasIssued 0#32 = false := by
  simp [Cluster.hasIssued, h]

theorem hasIssued_last {x : Cluster} (h : x.lastSeq .copy ≠ 0#32) : x.hasIssued (x.lastSeq .copy) = true := by
  simp [Cluster.hasIssued, h]

theorem hasIssued_none {x : Cluster} (hg : x.gone .copy = false) (h : x.lastSeq .copy = 0#32) (n : BitVec 32) :
    x.hasIssued n = false := by
  by_cases hn : n = 0#32
  · subst hn; exact hasIssued_zero hg
  · have : n.toNat ≠ 0 := fun e => hn (BitVec.eq_of_toNat_eq e)
    simp [Cluster.hasIssued, hg, h, this]

/-! ### `estat` (R145) -/

section Stat

variable {s : State} {p : Pred} {d a : Reg} (hp : s.holds p = true)
include hp

/-- The operands 0 to 5 of `estat` select these. -/
theorem exec_estat_listed {v : Word} (h : (s.rd a = 0#64 ∧ v = ((s.cl s.selfCl).rtOf .copy).setWidth 64)
    ∨ (s.rd a = 1#64 ∧ v = ((s.cl s.selfCl).lastSeq .copy).setWidth 64) ∨ (s.rd a = 2#64 ∧ v = BitVec.ofNat 64 s.copies.length)
    ∨ (s.rd a = 3#64 ∧ v = BitVec.ofNat 64 (s.cl s.selfCl).writeAcks) ∨ (s.rd a = 4#64 ∧ v = (s.cl s.selfCl).scoreboard)
    ∨ (s.rd a = 5#64 ∧ v = BitVec.ofNat 64 ((s.copies.map fun c => c.parked.length).sum))) :
    exec (.estat p d a) s = .next (retire (.estat p d a) (s.wr d v)) := by
  refine actOp_ok hp ((Act.bind_ok (Act.get_run s)).trans ?_)
  rcases h with ⟨h, rfl⟩ | ⟨h, rfl⟩ | ⟨h, rfl⟩ | ⟨h, rfl⟩ | ⟨h, rfl⟩ | ⟨h, rfl⟩
  all_goals rw [h]; rfl

/-- The operands from 0x100 on select words of the bitmaps. -/
theorem exec_estat_bitmap {b k : Nat} (hb : b < 16) (hk : k < 64) (h : (s.rd a).toNat = 0x100 + 64 * b + k) :
    exec (.estat p d a) s = .next (retire (.estat p d a)
      (s.wr d ((KMap.getD (s.cl s.selfCl).cbm b 0#4096).extractLsb' (64 * k) 64))) := by
  refine actOp_ok hp ((Act.bind_ok (Act.get_run s)).trans ?_)
  obtain ⟨m, hm⟩ : ∃ m, (s.rd a).toNat = m + 6 := ⟨0xFA + 64 * b + k, by omega⟩
  have inside : (0x100 ≤ m + 6 && m + 6 < 0x500) = true := by simp; omega
  have word : m + 6 - 0x100 = 64 * b + k := by omega
  have bitmap : (64 * b + k) / 64 = b ∧ (64 * b + k) % 64 = k := by omega
  rw [hm]
  simp only [inside, if_true, word, bitmap]
  rfl

/-- Every other operand traps. -/
theorem exec_estat_beyond (h : 5 < (s.rd a).toNat) (ho : (s.rd a).toNat < 0x100 ∨ 0x500 ≤ (s.rd a).toNat) :
    exec (.estat p d a) s = .next (s.raise 0x60#8 0#64) := by
  refine actOp_trap hp ((Act.bind_ok (Act.get_run s)).trans ?_)
  obtain ⟨m, hm⟩ : ∃ m, (s.rd a).toNat = m + 6 := ⟨(s.rd a).toNat - 6, by omega⟩
  have outside : (0x100 ≤ m + 6 && m + 6 < 0x500) = false := by
    simp; omega
  rw [hm]
  simp only [outside, Bool.false_eq_true, if_false]
  rfl

end Stat
/-! ### `ebexp` (R360) -/

section Expectation

/-- A byte counter with the expectation of a command posted to it, for the lines at `off`. -/
def ByteCounter.expecting (b : ByteCounter) (c : Cmd) (off : Nat) : ByteCounter :=
  { b with bound := true, base := off / 128, lines := c.n1 + 1, flag := c.flag, cur := b.cur - c.aux, pst := true }

/-- The cluster's counter posted, and its phase counted on where the command asks for that. -/
def State.expecting (s : State) (c : Cmd) (off : Nat) : State :=
  s.modCl s.selfCl fun x =>
    { x.setCounter (c.opx % 8) (((s.cl s.selfCl).counter (c.opx % 8)).expecting c off) with
      bphase := if 8 ≤ c.opx then x.bphase + 1#32 else x.bphase }

variable {s : State} {c : Cmd} {off : Nat}

/-- Nothing stands against the expectation: the counter is free, no other region overlaps, and its own is kept or has counted
nothing. -/
structure MayExpect (s : State) (c : Cmd) (off : Nat) : Prop where
  line : ownLine c.dst (128 * (c.n1 + 1)) 128 s = .ok (off, s)
  unposted : ((s.cl s.selfCl).counter (c.opx % 8)).pst = false
  sound : ((s.cl s.selfCl).counter (c.opx % 8)).err = false
  apart : ∀ j, j < 8 → j ≠ c.opx % 8 → ((s.cl s.selfCl).counter j).bound = true →
    off / 128 + c.n1 + 1 ≤ ((s.cl s.selfCl).counter j).base
      ∨ ((s.cl s.selfCl).counter j).base + ((s.cl s.selfCl).counter j).lines ≤ off / 128
  region : (((s.cl s.selfCl).counter (c.opx % 8)).bound = true ∧ ((s.cl s.selfCl).counter (c.opx % 8)).base = off / 128
      ∧ ((s.cl s.selfCl).counter (c.opx % 8)).lines = c.n1 + 1)
    ∨ (((s.cl s.selfCl).counter (c.opx % 8)).cur = 0 ∧ ((s.cl s.selfCl).counter (c.opx % 8)).nxt = 0)

theorem counter_expecting (s : State) (c : Cmd) (off : Nat) : ((s.expecting c off).cl s.selfCl).counter (c.opx % 8)
    = ((s.cl s.selfCl).counter (c.opx % 8)).expecting c off := by
  rw [State.expecting, State.cl_modCl_self]
  exact counter_setCounter_self _ _ _

/-- What the checks leave `ebexp` to do: post, let the counter settle, and answer whether its phase has advanced. -/
theorem postExpectation_run (d : Reg) (may : MayExpect s c off) :
    let u := settleCounter s.selfCl (c.opx % 8) (s.expecting c off)
    postExpectation d c s = .ok ((), u.wr d
      (if ((u.cl s.selfCl).counter (c.opx % 8)).phase != ((s.cl s.selfCl).counter (c.opx % 8)).phase then 1#64 else 0#64)) := by
  obtain ⟨line, unposted, sound, apart, region⟩ := may
  have overlaps : ((List.range 8).any fun j =>
      j != c.opx % 8 && ((s.cl s.selfCl).counter j).bound
        && off / 128 < ((s.cl s.selfCl).counter j).base + ((s.cl s.selfCl).counter j).lines
        && ((s.cl s.selfCl).counter j).base < off / 128 + (c.n1 + 1)) = false := by
    rw [List.any_eq_false]
    intro j hj
    simp only [Bool.and_eq_true, bne_iff_ne, decide_eq_true_eq, not_and]
    intro ⟨⟨hne, hb⟩, hlo⟩
    have := apart j (List.mem_range.mp hj) hne hb
    omega
  have kept : (!(((s.cl s.selfCl).counter (c.opx % 8)).bound && ((s.cl s.selfCl).counter (c.opx % 8)).base == off / 128
        && ((s.cl s.selfCl).counter (c.opx % 8)).lines == c.n1 + 1)
      && (((s.cl s.selfCl).counter (c.opx % 8)).cur != 0 || ((s.cl s.selfCl).counter (c.opx % 8)).nxt != 0)) = false := by
    rcases region with ⟨hb, hbase, hlines⟩ | ⟨hc, hn⟩
    · simp [hb, hbase, hlines]
    · simp [hc, hn]
  have posted : (s.modCl s.selfCl fun x =>
      let y := x.setCounter (c.opx % 8) (((s.cl s.selfCl).counter (c.opx % 8)).expecting c off)
      if 8 ≤ c.opx then { y with bphase := y.bphase + 1#32 } else y) = s.expecting c off := by
    rw [State.expecting]
    split <;> rfl
  refine (Act.bind_ok (Act.get_run s)).trans ((Act.bind_ok line).trans ?_)
  refine (Act.bind_ok (trapIf_ok (by rw [unposted, sound]; rfl) s)).trans ?_
  refine (Act.bind_ok (trapIf_ok overlaps s)).trans ((Act.bind_ok (trapIf_ok kept s)).trans ?_)
  exact congrArg (fun t => (Except.ok ((), (settleCounter s.selfCl (c.opx % 8) t).wr d
    (if (((settleCounter s.selfCl (c.opx % 8) t).cl s.selfCl).counter (c.opx % 8)).phase
      != ((s.cl s.selfCl).counter (c.opx % 8)).phase then 1#64 else 0#64)) : Except Stop (Unit × State))) posted

/-- The bytes have come, have not all come, or too many have come (R359, R360). -/
theorem postExpectation_cases (d : Reg) (may : MayExpect s c off) :
    let b := (s.cl s.selfCl).counter (c.opx % 8)
    let y := b.expecting c off
    (y.cur = 0 → postExpectation d c s = .ok ((), (((s.expecting c off).setFlagOf s.selfCl y.flag true).modCl s.selfCl fun x =>
        x.setCounter (c.opx % 8) { y with phase := b.phase + 1#32, cur := b.nxt, nxt := 0, pst := false }).wr d 1#64))
      ∧ (y.cur < 0 → postExpectation d c s = .ok ((), (s.expecting c off).wr d 0#64))
      ∧ (0 < y.cur → postExpectation d c s = .ok ((), (((s.expecting c off).modCl s.selfCl fun x =>
        x.setCounter (c.opx % 8) { y with err := true }).logPhase s.selfCl).wr d 0#64)) := by
  have run := postExpectation_run d may
  have here := counter_expecting s c off
  have posted : (((s.expecting c off).cl s.selfCl).counter (c.opx % 8)).pst = true := by rw [here]; rfl
  have sound : (((s.expecting c off).cl s.selfCl).counter (c.opx % 8)).err = false := by rw [here]; exact may.sound
  dsimp only at run ⊢
  rw [run]
  refine ⟨fun h => ?_, fun h => ?_, fun h => ?_⟩
  · rw [settleCounter_balanced posted sound (by rw [here]; exact h), here, State.cl_modCl_self, counter_setCounter_self, if_pos]
    · rfl
    · simp [ByteCounter.expecting]
  · have same : settleCounter s.selfCl (c.opx % 8) (s.expecting c off) = s.expecting c off := by
      simp [settleCounter, here, h.ne, h.not_gt]
    rw [same, here, if_neg]
    simp [ByteCounter.expecting]
  · rw [settleCounter_over posted sound (by rw [here]; exact h), here, cl_logPhase, State.cl_modCl_self, counter_setCounter_self,
      if_neg]
    simp [ByteCounter.expecting]

/-- `ebexp` whose template stands its checks comes to what its expectation comes to. -/
theorem exec_ebexp {p : Pred} {d a f0 f1 f2 f3 : Reg} {t : State} (hp : s.holds p = true)
    (ht : template .copy 0x11 a [f0, f1, f2, f3] s = .ok (c, s))
    (hf : onlyFields c.raw.toNat [(255, 192), (95, 80), (767, 704), (39, 36), (971, 960)] = true) (ha : c.aux < 2 ^ 39)
    (h : postExpectation d c s = .ok ((), t)) :
    exec (.ebexp p d a f0 f1 f2 f3) s = .next (retire (.ebexp p d a f0 f1 f2 f3) t) := by
  refine actOp_ok hp ((Act.bind_ok ht).trans ((Act.bind_ok (trapIf_ok ?_ s)).trans h))
  rw [hf, decide_eq_false (by omega)]; rfl

end Expectation

/-! ### `egroup` (R319) -/

/-- What follows the kick of agent `who`'s `egroup`: the engine accepts it where it can, and once its result is known it ends; true
when the instruction is done. -/
def groupEnd (d : Reg) (cl who : Nat) : Act Bool := do
  modify (tryAccept cl who)
  let s ← get
  match KMap.get? (s.cl cl).kicks who with
  | none => pure true
  | some k =>
    if !k.accepted then pure false
    else
      let r := if k.cmd.opx == 1 then (s, some (groupQuery s k.cmd.groupOf))
        else match groupRun cl k.cmd.seq 4 s with
          | (t, v) => (t, v.map (BitVec.ofNat 64))
      match r with
      | (t, none) => do
        set t
        pure false
      | (t, some v) => do
        set ((t.groupEnded cl who k.cmd).wr d v)
        pure true

section Group

variable {s u : State} {cl who : Nat} {d : Reg} {k : Kick}

/-- A query ends with its result (Table 12.10). -/
theorem groupEnd_query (hk : KMap.get? (s.cl cl).kicks who = some k) (ha : k.accepted = true) (hq : k.cmd.opx = 1) :
    groupEnd d cl who s = .ok (true, (s.groupEnded cl who k.cmd).wr d (groupQuery s k.cmd.groupOf)) := by
  unfold groupEnd
  rw [Act.bind_ok (Act.modify_run _ _), Act.bind_ok (Act.get_run _), tryAccept_accepted hk ha]
  simp only [hk, ha, hq]
  rfl

/-- An update ends with the status that its phases come to (R319). -/
theorem groupEnd_update {v : Nat} (hk : KMap.get? (s.cl cl).kicks who = some k) (ha : k.accepted = true) (hq : k.cmd.opx ≠ 1)
    (hr : groupRun cl k.cmd.seq 4 s = (u, some v)) :
    groupEnd d cl who s = .ok (true, (u.groupEnded cl who k.cmd).wr d (BitVec.ofNat 64 v)) := by
  have update : (k.cmd.opx == 1) = false := by simpa using hq
  unfold groupEnd
  rw [Act.bind_ok (Act.modify_run _ _), Act.bind_ok (Act.get_run _), tryAccept_accepted hk ha]
  simp only [hk, ha, update, hr]
  rfl

/-- The kick is gone whatever it had come to. -/
theorem groupEnded_modCl_kicks (s : State) (cl who : Nat) (k : Kick) (c : Cmd) :
    (s.modCl cl fun x => { x with kicks := KMap.set x.kicks who k }).groupEnded cl who c = s.groupEnded cl who c := by
  rw [State.groupEnded, State.modCl_modCl, State.groupEnded]
  simp only [KMap.erase_set]

/-- A query that the engine accepts at once ends at once. -/
theorem groupEnd_accepts (hk : KMap.get? (s.cl cl).kicks who = some k) (ha : k.accepted = false)
    (hu : acceptCmd k.cmd s = some u) (hq : k.cmd.opx = 1) :
    groupEnd d cl who s = .ok (true, (u.groupEnded cl who k.cmd).wr d (groupQuery u k.cmd.groupOf)) := by
  have taken := tryAccept_some hk ha hu
  have accepted : KMap.get? ((tryAccept cl who s).cl cl).kicks who = some { k with accepted := true } := by
    rw [taken]; simp [KMap.get?_set_self]
  have again : groupEnd d cl who s = groupEnd d cl who (tryAccept cl who s) := by
    unfold groupEnd
    rw [Act.bind_ok (Act.modify_run _ s), Act.bind_ok (Act.modify_run _ _), tryAccept_accepted accepted rfl]
  rw [again, groupEnd_query accepted rfl hq, taken, groupEnded_modCl_kicks]
  rfl

variable {p : Pred} {a f0 f1 f2 f3 : Reg} (hp : s.holds p = true)
include hp

/-- An `egroup` whose kick stands goes on to its end. -/
theorem exec_egroup_again (hk : KMap.get? (s.cl s.selfCl).kicks (agentNum s) = some k)
    (he : groupEnd d s.selfCl (agentNum s) s = .ok (true, u)) :
    exec (.egroup p d a f0 f1 f2 f3) s = .next (retire (.egroup p d a f0 f1 f2 f3) u) := by
  refine actOpW_done hp ((Act.bind_ok (Act.get_run s)).trans ?_)
  simp only [hk]
  exact he

/-- A first issue builds its command, checks it, kicks it under its queue's next number, and goes on to its end. -/
theorem exec_egroup_first {s1 s2 : State} {c0 c1 : Cmd} (hno : noKick s) (hall : allPassed s)
    (ht : template .fabric 0xA a [f0, f1, f2, f3] s = .ok (c0, s1)) (hc : checkEgroup c0 s1 = .ok (c1, s2))
    (he : groupEnd d s.selfCl (agentNum s) (s2.kicked s.selfCl (agentNum s) .fabric
      { c1 with seq := (s2.cl s.selfCl).lastSeq .fabric + 1#32 }) = .ok (true, u)) :
    exec (.egroup p d a f0 f1 f2 f3) s = .next (retire (.egroup p d a f0 f1 f2 f3) u) := by
  unfold noKick at hno
  refine actOpW_done hp ((Act.bind_ok (Act.get_run s)).trans ?_)
  simp only [hno]
  rw [Act.bind_ok (awaitAll_ok hall)]
  exact (Act.bind_ok ht).trans ((Act.bind_ok hc).trans ((Act.bind_ok (Act.modify_run _ _)).trans he))

end Group

/-! ### The slots of a group (R318, R319) -/

section Slots

variable {s : State} {g : Nat}

theorem slot_setSlot_self (s : State) (k : Nat) (x : GroupSlot) : (s.setSlot k x).slot k = x := KMap.getD_set_self _ _ _ _

theorem slot_setSlot_ne (s : State) {k j : Nat} (x : GroupSlot) (h : j ≠ k) : (s.setSlot k x).slot j = s.slot j :=
  KMap.getD_set_ne _ _ _ h

theorem slot_of_groups {s t : State} (h : t.groups = s.groups) (k : Nat) : t.slot k = s.slot k := by
  unfold State.slot; rw [h]

/-- The active slot is the first of the two whose state is 1. -/
theorem activeSlot_eq (s : State) (g : Nat) : activeSlot s g =
    if (s.slot (2 * g)).st = 1 then some (0, s.slot (2 * g))
    else if (s.slot (2 * g + 1)).st = 1 then some (1, s.slot (2 * g + 1)) else none := by
  have pair : activeSlot s g = [(0, s.slot (2 * g)), (1, s.slot (2 * g + 1))].find? fun x => x.2.st == 1 := rfl
  rw [pair]
  by_cases h0 : (s.slot (2 * g)).st = 1
  · simp [h0]
  by_cases h1 : (s.slot (2 * g + 1)).st = 1
  · simp [h0, h1]
  · simp [h0, h1]

theorem activeSlot_some {n : Nat} {y : GroupSlot} (h : activeSlot s g = some (n, y)) : n ≤ 1 ∧ s.slot (2 * g + n) = y := by
  rw [activeSlot_eq] at h
  split at h
  · cases h; exact ⟨by decide, rfl⟩
  split at h
  · cases h; exact ⟨by decide, rfl⟩
  · cases h

theorem activeSlot_first (h : (s.slot (2 * g)).st = 1) : activeSlot s g = some (0, s.slot (2 * g)) := by
  rw [activeSlot_eq, if_pos h]

theorem activeSlot_second (h0 : (s.slot (2 * g)).st ≠ 1) (h1 : (s.slot (2 * g + 1)).st = 1) :
    activeSlot s g = some (1, s.slot (2 * g + 1)) := by
  rw [activeSlot_eq, if_neg h0, if_pos h1]

theorem activeSlot_none : activeSlot s g = none ↔ (s.slot (2 * g)).st ≠ 1 ∧ (s.slot (2 * g + 1)).st ≠ 1 := by
  rw [activeSlot_eq]
  split
  · next h => simp [h]
  split
  · next h => simp [h]
  · next h0 h1 => simp [h0, h1]

/-- A slot that drains keeps its content, with a marker out on every port that is up (R319). -/
theorem groups_drainSlot (k : Nat) (s : State) : (drainSlot k s).groups
    = (s.setSlot k { s.slot k with st := 2, markers := upPorts s (2 ^ 64 - 1) }).groups := by
  unfold drainSlot
  dsimp only
  generalize s.setSlot k _ = t
  induction upPorts s (2 ^ 64 - 1) generalizing t with
  | nil => rfl
  | cons port ports ih =>
    rw [List.foldl_cons, ih]
    split <;> rfl

theorem slot_drainSlot_self (k : Nat) (s : State) :
    (drainSlot k s).slot k = { s.slot k with st := 2, markers := upPorts s (2 ^ 64 - 1) } := by
  rw [slot_of_groups (groups_drainSlot k s), slot_setSlot_self]

theorem st_drainSlot_self (k : Nat) (s : State) : ((drainSlot k s).slot k).st = 2 := by rw [slot_drainSlot_self]

theorem slot_drainSlot_ne {k j : Nat} (h : j ≠ k) (s : State) : (drainSlot k s).slot j = s.slot j := by
  rw [slot_of_groups (groups_drainSlot k s), slot_setSlot_ne _ _ h]

/-- The slot that a new content of a group is written into: the one that is not active, or the first free one. -/
def freshSlot (s : State) (g : Nat) : Nat :=
  match activeSlot s g with
  | some (n, _) => 2 * g + (1 - n)
  | none => if (s.slot (2 * g)).st == 0 then 2 * g else 2 * g + 1

/-- The former active slot drains, where there is one. -/
def drainFormer (g : Nat) (s : State) : State :=
  match activeSlot s g with
  | some (n, _) => drainSlot (2 * g + n) s
  | none => s

theorem slot_setGroup (g : Nat) (x : GroupSlot) (s : State) (k : Nat) :
    (setGroup g x s).slot k = ((drainFormer g s).setSlot (freshSlot s g) { x with st := 1 }).slot k := by
  unfold setGroup drainFormer freshSlot
  rcases activeSlot s g with _ | ⟨n, y⟩ <;> rfl

theorem freshSlot_cases (s : State) (g : Nat) : freshSlot s g = 2 * g ∨ freshSlot s g = 2 * g + 1 := by
  unfold freshSlot
  split
  · omega
  · split
    · exact .inl rfl
    · exact .inr rfl

theorem slot_drainFormer_ne {k : Nat} (h0 : k ≠ 2 * g) (h1 : k ≠ 2 * g + 1) : (drainFormer g s).slot k = s.slot k := by
  unfold drainFormer
  split
  · next n _ h =>
    have := (activeSlot_some h).1
    exact slot_drainSlot_ne (by omega) s
  · rfl

/-- The content that is set becomes the active one (R319). -/
theorem activeSlot_setGroup (g : Nat) (x : GroupSlot) (s : State) :
    (activeSlot (setGroup g x s) g).map (·.2) = some { x with st := 1 } := by
  have set_ : (setGroup g x s).slot (freshSlot s g) = { x with st := 1 } := by rw [slot_setGroup, slot_setSlot_self]
  rcases freshSlot_cases s g with fresh | fresh
  · rw [fresh] at set_
    rw [activeSlot_first (by rw [set_]), set_]; rfl
  · have former : ((drainFormer g s).slot (2 * g)).st ≠ 1 := by
      unfold drainFormer
      unfold freshSlot at fresh
      split
      · next n y h =>
        rw [h] at fresh
        obtain rfl : n = 0 := by dsimp only at fresh; omega
        rw [Nat.add_zero, st_drainSlot_self]; decide
      · next h => exact (activeSlot_none.mp h).1
    rw [fresh] at set_
    rw [activeSlot_second _ (by rw [set_]), set_]
    · rfl
    · rwa [slot_setGroup, slot_setSlot_ne _ _ (by omega)]

/-- The former active one drains (R319). -/
theorem slot_setGroup_former {n : Nat} {y : GroupSlot} (x : GroupSlot) (h : activeSlot s g = some (n, y)) :
    (setGroup g x s).slot (2 * g + n) = { y with st := 2, markers := upPorts s (2 ^ 64 - 1) } := by
  obtain ⟨hn, rfl⟩ := activeSlot_some h
  have fresh : freshSlot s g = 2 * g + (1 - n) := by simp only [freshSlot, h]
  have drained : drainFormer g s = drainSlot (2 * g + n) s := by simp only [drainFormer, h]
  rw [slot_setGroup, slot_setSlot_ne _ _ (by omega), drained, slot_drainSlot_self]

theorem slot_setGroup_ne {k : Nat} (x : GroupSlot) (h0 : k ≠ 2 * g) (h1 : k ≠ 2 * g + 1) :
    (setGroup g x s).slot k = s.slot k := by
  have := freshSlot_cases s g
  rw [slot_setGroup, slot_setSlot_ne _ _ (by omega), slot_drainFormer_ne h0 h1]

/-- A slot drains where it is active. -/
def drainActive (k : Nat) (s : State) : State := if (s.slot k).st == 1 then drainSlot k s else s

theorem st_drainActive_self (k : Nat) (s : State) : ((drainActive k s).slot k).st ≠ 1 := by
  unfold drainActive
  split
  · rw [st_drainSlot_self]; decide
  · next h => simpa using h

theorem slot_drainActive_ne {k j : Nat} (h : j ≠ k) (s : State) : (drainActive k s).slot j = s.slot j := by
  unfold drainActive
  split
  · exact slot_drainSlot_ne h s
  · rfl

/-- A group that is cleared has no active slot (R319). -/
theorem activeSlot_clearGroup (g : Nat) (s : State) : activeSlot (clearGroup g s) g = none := by
  have both : clearGroup g s = drainActive (2 * g + 1) (drainActive (2 * g) s) := rfl
  rw [both, activeSlot_none, slot_drainActive_ne (by omega)]
  exact ⟨st_drainActive_self _ _, st_drainActive_self _ _⟩

end Slots

end Sys2Proof.Machine
end

section
namespace Sys2Proof.Machine.Settled

/-- Settles O45: each instruction is its action, run piece by piece; an expectation is posted and its counter settles; an `egroup`
goes on to its end; and the two slots of a group are read after a content is set or cleared. -/
theorem engineStatus : Obligations.EngineStatus := by
  refine ⟨fun s p d a f0 f1 f2 f3 hp => ⟨exec_earm hp d a f0, exec_ewait hp a, ?drained, ?draining, fun c => exec_ecancel_held hp,
    ?unheld, ?stat, fun h => exec_estat_beyond hp h.1 h.2, ?expectation⟩, fun s p d a f0 f1 f2 f3 hp => ⟨?query, ?again⟩, ?slots⟩
  case drained =>
    intro idle acked
    rw [exec_edrain hp, if_neg (by simp [idle, acked])]
  case draining =>
    intro busy
    rw [exec_edrain hp, if_pos busy]
  case unheld =>
    refine fun unheld => ⟨_, exec_ecancel_unheld hp unheld, fun zero ungone => ?_, fun last issued => ?_, fun none ungone => ?_⟩
    · rw [zero, hasIssued_zero ungone]; rfl
    · rw [last, hasIssued_last issued]; rfl
    · rw [hasIssued_none ungone none]; rfl
  case stat =>
    intro v hv
    rcases hv with h | h | h | h | h | h | ⟨b, k, hb, hk, h, rfl⟩
    case inr.inr.inr.inr.inr.inr => exact exec_estat_bitmap hp hb hk h
    all_goals exact exec_estat_listed hp (by simp only [h, true_or, or_true, and_self])
  case expectation =>
    intro c off ht hf haux line k b y unposted sound apart region s1 j
    obtain ⟨balanced, short, excess⟩ := postExpectation_cases d (MayExpect.mk line unposted sound apart region)
    exact ⟨fun h => exec_ebexp hp ht hf haux (balanced h), fun h => exec_ebexp hp ht hf haux (short h),
      fun h => exec_ebexp hp ht hf haux (excess h)⟩
  case query =>
    intro c0 c1 s1 s2 hno hall ht hc c _ hq u hu
    have ended := groupEnd_accepts (d := d) (kicks_kicked s2 s.selfCl (agentNum s) .fabric c) rfl hu hq
    exact exec_egroup_first hp hno hall ht hc ended
  case again =>
    exact fun k hk ha => ⟨fun hq => exec_egroup_again hp hk (groupEnd_query hk ha hq),
      fun hq s2 v hr => exec_egroup_again hp hk (groupEnd_update hk ha hq hr)⟩
  case slots =>
    intro s g x _
    exact ⟨activeSlot_setGroup g x s, fun n y => slot_setGroup_former x, fun k => slot_setGroup_ne x, activeSlot_clearGroup g s⟩

end Sys2Proof.Machine.Settled
end

section
/-! SUPPORT. What waits at the router and in the park buffers (R302, R311), and what keeps it: accesses through the caches, stores
in a scratchpad, entries of a fault log, and byte counters. -/

namespace Sys2Proof.Machine

/-- `t` holds the packets of `s`: those of the router, the parked ones, and the reservations of carries. -/
structure KeepsPackets (s t : State) : Prop where
  net : t.net = s.net
  park0 : t.park0 = s.park0
  park1 : t.park1 = s.park1
  carries : t.carries = s.carries

namespace KeepsPackets

variable {s t u : State}

theorem refl (s : State) : KeepsPackets s s := ⟨rfl, rfl, rfl, rfl⟩

theorem trans (h : KeepsPackets s t) (g : KeepsPackets t u) : KeepsPackets s u :=
  ⟨g.net.trans h.net, g.park0.trans h.park0, g.park1.trans h.park1, g.carries.trans h.carries⟩

theorem of_readFrame (h : ReadFrame s t) : KeepsPackets s t := by
  rw [h.rest]; exact ⟨rfl, rfl, rfl, rfl⟩

theorem modCl (s : State) (c : Nat) (f : Cluster → Cluster) : KeepsPackets s (s.modCl c f) := ⟨rfl, rfl, rfl, rfl⟩

theorem slicePut (s : State) (a : Nat) (bs : List Byte) : KeepsPackets s (s.slicePut a bs) :=
  (of_readFrame (readFrame_foldl (fun s _ => readFrame_l2One _ _ _ _ s) _ s)).trans ⟨rfl, rfl, rfl, rfl⟩

theorem logFault (s : State) (ctx : Nat) (e : LogEntry) : KeepsPackets s (s.logFault ctx e) := by
  unfold State.logFault
  split
  · exact refl s
  next c _ =>
  have looked := (of_readFrame (readFrame_l2Read c.flbase 8 s)).trans (of_readFrame (readFrame_l2Read (c.flbase + 128) 4 _))
  dsimp only
  split
  · split
    · exact looked.trans ⟨rfl, rfl, rfl, rfl⟩
    · exact looked.trans (slicePut _ _ _)
  · exact ((looked.trans (slicePut _ _ _)).trans (slicePut _ _ _)).trans ⟨rfl, rfl, rfl, rfl⟩

theorem exposeGang (g : Nat) (s : State) : KeepsPackets s (exposeGang g s) := by
  unfold Machine.exposeGang
  split
  · exact refl s
  dsimp only
  split <;> exact ⟨rfl, rfl, rfl, rfl⟩

theorem undoAppend (s : State) (ctx d : Nat) (old : List Byte) (loc osh g : Nat) :
    KeepsPackets s (undoAppend s ctx d old loc osh g).1 := by
  unfold Machine.undoAppend
  split
  · exact refl s
  dsimp only
  split
  · exact (slicePut _ _ _).trans ⟨rfl, rfl, rfl, rfl⟩
  · exact (logFault _ _ _).trans (exposeGang _ _)

theorem logHeartwood (s : State) (c line : Nat) : KeepsPackets s (logHeartwood s c line) := by
  unfold Machine.logHeartwood
  split
  · have logged := undoAppend s (((s.cl c).task.map (·.ctx)).getD 0) (dieOf c) (sramLine (s.cl c) line)
      (2 ^ 63 + 4194304 * c + 128 * line) 0 (((s.cl c).task.map (·.gang)).getD 0)
    dsimp only
    split
    · next h => rw [h] at logged; exact logged.trans (modCl _ _ _)
    · next h => rw [h] at logged; exact logged
  · exact refl s

theorem readyLines (c : Nat) (ls : List Nat) (s : State) : KeepsPackets s (readyLines c ls s) := by
  induction ls generalizing s with
  | nil => exact refl s
  | cons l ls ih => exact ((logHeartwood s c l).trans (modCl _ _ _)).trans (ih _)

theorem sramWrite (s : State) (c off : Nat) (bs : List Byte) : KeepsPackets s (sramWrite s c off bs) := by
  rw [sramWrite_eq]
  exact (readyLines c _ s).trans (modCl _ _ _)

end KeepsPackets

/-! ### Byte counters (R358, R359) -/

/-- `t` is `s` but for what counting changes of a cluster, its counters, its flags and what waits on them, and for what the reports of
a phase unit do to the fault log. -/
structure CountsOnly (s t : State) : Prop where
  packets : KeepsPackets s t
  cl : ∀ c, t.cl c = { s.cl c with flags := (t.cl c).flags, awaited := (t.cl c).awaited, counters := (t.cl c).counters }

namespace CountsOnly

variable {s t u : State}

theorem refl (s : State) : CountsOnly s s := ⟨.refl s, fun _ => rfl⟩

theorem trans (h : CountsOnly s t) (g : CountsOnly t u) : CountsOnly s u where
  packets := h.packets.trans g.packets
  cl c := by rw [g.cl c, h.cl c]

theorem modCl {c : Nat} {f : Cluster → Cluster} (hf : ∀ x, f x = { x with
    flags := (f x).flags, awaited := (f x).awaited, counters := (f x).counters }) : CountsOnly s (s.modCl c f) where
  packets := .modCl s c f
  cl j := by
    by_cases hj : j = c
    · subst hj; rw [State.cl_modCl_self]; exact hf _
    · rw [State.cl_modCl_ne _ _ hj]

theorem logPhase (s : State) (cl : Nat) : CountsOnly s (s.logPhase cl) where
  packets := by
    unfold State.logPhase
    split
    · exact .refl s
    · exact .logFault _ _ _
  cl _ := by rw [cl_logPhase]

theorem settleCounter (cl k : Nat) (s : State) : CountsOnly s (settleCounter cl k s) := by
  unfold Machine.settleCounter
  dsimp only
  split
  · exact refl s
  split
  · exact (modCl fun _ => rfl).trans (modCl fun _ => rfl)
  split
  · exact (modCl fun _ => rfl).trans (logPhase _ _)
  · exact refl s

theorem countLanding (cl line n : Nat) (tag : BitVec 32) (k : Nat) (s : State) : CountsOnly s (countLanding cl line n tag k s) := by
  unfold Machine.countLanding
  dsimp only
  split
  · exact refl s
  split
  · split
    · exact (modCl fun _ => rfl).trans (logPhase _ _)
    · exact (modCl fun _ => rfl).trans (settleCounter cl k _)
  split
  · split
    · exact (modCl fun _ => rfl).trans (logPhase _ _)
    · exact modCl fun _ => rfl
  · exact (modCl fun _ => rfl).trans (logPhase _ _)

theorem countAll (cl line n : Nat) (tag : BitVec 32) (s : State) : CountsOnly s (countAll cl line n tag s) := by
  unfold Machine.countAll
  induction List.range 8 generalizing s with
  | nil => exact refl s
  | cons k ks ih => exact (countLanding cl line n tag k s).trans (ih _)

theorem spByte (h : CountsOnly s t) (c a : Nat) : t.spByte c a = s.spByte c a := by
  rw [State.spByte_eq, State.spByte_eq, h.cl c]; rfl

theorem bad (h : CountsOnly s t) (c : Nat) : (t.cl c).bad = (s.cl c).bad := by rw [h.cl c]

end CountsOnly

end Sys2Proof.Machine
end

section
/-! SUPPORT. Packets at this device (R143, R300, R302, R309, R311, R315): which are taken, and what each access comes to. -/

namespace Sys2Proof.Machine

/-! ### The event (R299, R302) -/

section Arrival

variable {s : State} {p : Packet}

theorem exec_packetArrival_off (h : fabricOn s = false) : exec (.packetArrival p) s = .next s := by
  show execPacketArrival p s = _
  simp [execPacketArrival, h]

theorem exec_carryArrival_off (h : fabricOn s = false) : exec (.carryArrival p) s = .next s := by
  show execCarryArrival p s = _
  simp [execCarryArrival, h]

/-- A packet for another device, or for several, goes to the router (R300, R317). -/
theorem exec_packetArrival_away (hon : fabricOn s = true) (h : p.ddev ≠ devId s ∨ p.mc = true) : exec (.packetArrival p) s
    = .next { (policed p s).1 with net := (policed p s).1.net ++ [(policed p s).2] } := by
  show execPacketArrival p s = _
  have away : (p.ddev == devId s && !p.mc) = false := by
    rcases h with h | h <;> simp [h]
  simp [execPacketArrival, hon, away]

theorem exec_packetArrival_here (hon : fabricOn s = true) (hd : p.ddev = devId s) (hm : p.mc = false) :
    exec (.packetArrival p) s = .next (arrive p s) := by
  show execPacketArrival p s = _
  simp [execPacketArrival, hon, hd, hm]

theorem exec_carryArrival_on (hon : fabricOn s = true) : exec (.carryArrival p) s = .next (arrive { p with kind := .carry } s) := by
  show execCarryArrival p s = _
  simp [execCarryArrival, hon]

theorem policed_untouched (h : p.tc ≠ 0 ∨ 64 ≤ p.via) : policed p s = (s, p) := by
  unfold policed
  rw [if_pos (by simpa using h)]

/-- Left to try again, behind what waits at the router. -/
def State.keeping (s : State) (p : Packet) : State := { s with net := s.net ++ [p] }

theorem arrive_held (h : behindPair s s.net p = true ∨ parkFull s p = true) : arrive p s = s.keeping p := by
  unfold arrive
  rw [if_pos (by simpa using h)]
  rfl

theorem arrive_free (hb : behindPair s s.net p = false) (hf : parkFull s p = false) :
    arrive p s = (deliverPacket p s).getD (s.keeping p) := by
  unfold arrive
  rw [if_neg (by simp [hb, hf])]
  cases deliverPacket p s <;> rfl

/-! ### Whether it is taken (R330, R355, R402) -/

theorem deliverPacket_late {f : State → State} (h : lateOf s p = some f) : deliverPacket p s = some (f s) := by
  simp only [deliverPacket, h]

theorem deliverPacket_aborted (hl : lateOf s p = none) (h : aborted s p = true) :
    deliverPacket p s = some { s with dropped := s.dropped + 1 } := by
  simp only [deliverPacket, hl, h, if_true]

theorem deliverPacket_afterBarrier (hl : lateOf s p = none) (ha : aborted s p = false) (h : afterBarrier s p = true) :
    deliverPacket p s = none := by
  simp [deliverPacket, hl, ha, h]

theorem arrive_admitted (h : s.admitsNow p) : arrive p s = (deliverWhole p s).getD (s.keeping p) := by
  obtain ⟨-, pair, room, current, late, begun, whole⟩ := h
  rw [arrive_free pair room]
  simp [deliverPacket, late, current, begun, whole]

theorem exec_packetArrival_admitted (h : s.admitsNow p) (hd : p.ddev = devId s) (hm : p.mc = false) :
    exec (.packetArrival p) s = .next ((deliverWhole p s).getD (s.keeping p)) := by
  rw [exec_packetArrival_here h.1 hd hm, arrive_admitted h]

/-! ### Accesses under a key (R309) -/

/-- What an access comes to: its key refuses it, it is performed and answered, or it snags. -/
def answered (p : Packet) (r : Right) (n : Nat) (f : Nat → Nat → EAct (List Byte)) (k : State → List Byte → State)
    (s : State) : Option State :=
  match keyCheck p p.addr r n s with
  | none => some (refuseKey p s)
  | some (ctx, a) =>
    match f ctx a s with
    | .ok (bs, t) => some (k t bs)
    | .error e => snagged p ctx e s

section Access

variable {r : Right} {n ctx a : Nat} {f : Nat → Nat → EAct (List Byte)} {k : State → List Byte → State}

theorem answered_refused (h : keyCheck p p.addr r n s = none) : answered p r n f k s = some (refuseKey p s) := by
  simp only [answered, h]

theorem answered_ok {t : State} {bs : List Byte} (h : keyCheck p p.addr r n s = some (ctx, a)) (hf : f ctx a s = .ok (bs, t)) :
    answered p r n f k s = some (k t bs) := by
  simp only [answered, h, hf]

theorem answered_snag {e : Snag} (h : keyCheck p p.addr r n s = some (ctx, a)) (hf : f ctx a s = .error e) :
    answered p r n f k s = snagged p ctx e s := by
  simp only [answered, h, hf]

end Access

/-- The answer to a read (R315). -/
def readAnswer (p : Packet) (s : State) (bs : List Byte) : Packet :=
  { newPacket s p.sdev 2 .readReply p.ctx p.gen with seq := p.seq, arg := p.arg, addr := p.addr, data := bs }

variable (hm : p.mc = false)
include hm

theorem deliverWhole_readReq (hk : p.kind = .readReq) : deliverWhole p s
    = answered p .rd p.mbr (fun ctx a => ingressRead ctx a p.mbr) (fun t bs => t.send (readAnswer p t bs)) s := by
  simp only [deliverWhole, hk, hm, Bool.false_and, Bool.false_eq_true, if_false]
  rfl

theorem deliverWhole_write (hk : p.kind = .write) : deliverWhole p s
    = answered p .wrt p.data.length (fun ctx a => do ingressWrite ctx (argTag p) a p.data; pure [])
      (fun t _ => t.send (ackOf t p 0 [])) s := by
  simp only [deliverWhole, hk, hm, Bool.false_and, Bool.false_eq_true, if_false]
  rfl

theorem deliverWhole_accUpdate_refused (hk : p.kind = .accUpdate) (h : keyCheck p p.addr .acc p.mbr s = none) :
    deliverWhole p s = some (refuseKey p s) := by
  simp only [deliverWhole, hk, hm, Bool.false_and, Bool.false_eq_true, if_false, h]

end Arrival

/-! ### Actions of the ingress -/

theorem EAct.bind_ok {α β : Type} {a : EAct α} {f : α → EAct β} {s t : State} {v : α} (h : a s = .ok (v, t)) :
    (a >>= f) s = f v t := by
  show (StateT.bind a f) s = _
  simp only [StateT.bind, h]
  rfl

theorem EAct.bind_error {α β : Type} {a : EAct α} {f : α → EAct β} {s : State} {e : Snag} (h : a s = .error e) :
    (a >>= f) s = .error e := by
  show (StateT.bind a f) s = _
  simp only [StateT.bind, h]
  rfl

section Performed

variable {s : State} {p : Packet} {ctx a : Nat}

/-- A write that a context's page admits is performed and acknowledged (R143, R309). -/
theorem deliverWhole_written {t : State} (hm : p.mc = false) (hk : p.kind = .write)
    (hkey : keyCheck p p.addr .wrt p.data.length s = some (ctx, a)) (hw : ingressWrite ctx (argTag p) a p.data s = .ok ((), t)) :
    deliverWhole p s = some (t.send (ackOf t p 0 [])) := by
  rw [deliverWhole_write hm hk]
  exact answered_ok hkey (EAct.bind_ok hw)

/-- A write that stops leaves what its snag leaves. -/
theorem deliverWhole_write_snagged {e : Snag} (hm : p.mc = false) (hk : p.kind = .write)
    (hkey : keyCheck p p.addr .wrt p.data.length s = some (ctx, a)) (hw : ingressWrite ctx (argTag p) a p.data s = .error e) :
    deliverWhole p s = snagged p ctx e s := by
  rw [deliverWhole_write hm hk]
  exact answered_snag hkey (EAct.bind_error hw)

/-- An answer to a write says what it answers. -/
theorem ackOf_write (t : State) (hk : p.kind = .write) (status : Nat) : (ackOf t p status []).mbr = status := by
  simp [ackOf, hk]

/-- Data that comes back for a held command is kept with it, and no longer owed (R315). -/
theorem deliverWhole_readReply {c : Cmd} (hk : p.kind = .readReply) (hu : argUnit p ≠ 7) (hc : cmdOfArg p s = some c) :
    deliverWhole p s = some (s.setCmd { c with
      got := Mem.write c.got (farKey p.sdev p.addr) p.data, owing := KMap.set c.owing (farKey p.sdev p.addr) 0 }) := by
  simp only [deliverWhole, hk, takeData, beq_iff_eq, hu, if_false, hc]

/-! ### The park buffers (R311) -/

/-- A miss of translation parks the packet, with its page, where the buffer of its junction die has room. -/
theorem snagged_park {b : Nat} (ht : p.tc ≠ 0) (hr : ((parkOf s p ++ [p]).map flits).sum ≤ parkRoom) :
    snagged p ctx (.park 0x20#8 b) s
      = some (logArrival p ctx 0x20#8 b 0 (parkPacket { p with imd := b / 65536 % 1024 } s)) := by
  simpa [snagged, ht] using hr

theorem parkOf_parkPacket (q : Packet) (s : State) : parkOf (parkPacket q s) q = parkOf s q ++ [q] := by
  unfold parkPacket parkOf
  split
  · rfl
  · rfl

theorem parkOf_of_keepsPackets {t : State} (h : KeepsPackets s t) (p : Packet) : parkOf t p = parkOf s p := by
  unfold parkOf; rw [h.park0, h.park1]

theorem parkPacket_net (q : Packet) (s : State) : (parkPacket q s).net = s.net := by
  unfold parkPacket; split <;> rfl

theorem parkPacket_clusters (q : Packet) (s : State) : (parkPacket q s).clusters = s.clusters := by
  unfold parkPacket; split <;> rfl

/-- The parked packet is the last of its buffer, and no cluster has changed. -/
theorem logArrival_parkPacket (q : Packet) (cause : BitVec 8) (b xtra : Nat) :
    let u := logArrival p ctx cause b xtra (parkPacket q s)
    parkOf u q = parkOf s q ++ [q] ∧ u.clusters = s.clusters ∧ u.net = s.net := by
  have logged : KeepsPackets (parkPacket q s) (logArrival p ctx cause b xtra (parkPacket q s)) := .logFault _ _ _
  refine ⟨?_, ?_, ?_⟩
  · rw [parkOf_of_keepsPackets logged, parkOf_parkPacket]
  · rw [logArrival, logFault_clusters, parkPacket_clusters]
  · rw [logged.net, parkPacket_net]

section Release

variable {u : State}

/-- The first park buffer taken out to be tried, and what is left of it put back before what has been parked since. -/
def State.unparked (s : State) : State := { s with park0 := [] }
def State.reparked (s : State) (l : List Packet) : State := { s with park0 := l ++ s.park0 }

theorem reparked_unparked (s : State) : s.unparked.reparked s.park0 = s := by
  simp [State.unparked, State.reparked]

/-- An empty park buffer releases nothing. -/
theorem exec_parkBufferRelease_empty {jd : Nat} (h0 : jd = 0 → s.park0 = []) (h1 : jd ≠ 0 → s.park1 = []) :
    exec (.parkBufferRelease jd) s = .next s := by
  show execParkBufferRelease jd s = _
  unfold execParkBufferRelease
  by_cases hj : jd = 0
  · have same : ({ s with park0 := [] } : State) = s := by rw [← h0 hj]
    simp only [hj, beq_self_eq_true, if_true, h0 hj, releaseParked, List.append_nil, same]
  · have same : ({ s with park1 := [] } : State) = s := by rw [← h1 hj]
    simp only [beq_iff_eq, hj, if_false, h1 hj, releaseParked, List.append_nil, same]

theorem exec_parkBufferRelease_one {l : List Packet} (h : s.park0 = [p]) (hr : releaseParked [] [] [p] s.unparked = (l, u)) :
    exec (.parkBufferRelease 0) s = .next (u.reparked l) := by
  show execParkBufferRelease 0 s = _
  rw [← h, State.unparked] at hr
  simp only [execParkBufferRelease, beq_self_eq_true, if_true, hr]
  rfl

/-- A packet that still waits stays. -/
theorem releaseParked_waits (h : deliverPacket p s = none) : releaseParked [] [] [p] s = ([p], s) := by
  simp [releaseParked, h]

/-- One that is delivered is gone. -/
theorem releaseParked_delivered (h : deliverPacket p s = some u) (hq : parkOf u p = []) : releaseParked [] [] [p] s = ([], u) := by
  simp [releaseParked, h, hq]

/-- One that misses its page again stays as it was parked anew. -/
theorem releaseParked_misses {q : Packet} {t : List Packet} (h : deliverPacket p s = some u) (hq : parkOf u p = q :: t)
    (hi : q.imd = p.imd) : releaseParked [] [] [p] s = ([q], s) := by
  simp [releaseParked, h, hq, hi]

end Release

end Performed

end Sys2Proof.Machine
end

section
/-! SUPPORT. Carries (R326): when one is refused, and what it leaves where it lands. -/

namespace Sys2Proof.Machine

/-! ### One line -/

section Line

variable {s : State} {ctx cl line : Nat} {tag : BitVec 32} {bs : List Byte}

/-- The fills that owe a line are given up, for its bytes have come. -/
def State.unfilled (s : State) (l : LineRef) : State := { s with fills := s.fills.filter fun f => f.line != l }

/-- A line of a carry with no bit in error is stored, is owed no longer, and counts. -/
theorem landCarry_clean (h : (s.cl cl).bad = []) : landCarry ctx cl line tag bs s
    = countAll cl line bs.length tag
      (State.setOwed (sramWrite (s.unfilled (.sram cl line)) cl (128 * line) bs) (.sram cl line) false) := by
  have rows (ls : List Nat) : rowsEcc cl ls (s.unfilled (.sram cl line)) = some (s.unfilled (.sram cl line)) :=
    rowsEcc_clean (s := s.unfilled (.sram cl line)) h ls
  have stored : sramLand (s.unfilled (.sram cl line)) cl (128 * line) ((protectedGangOf s ctx).getD 0) bs
      = sramWrite (s.unfilled (.sram cl line)) cl (128 * line) bs := by
    simp only [sramLand, rows]
  rw [← stored]
  refine if_neg ?_
  show ¬ (rowsEcc cl [line] (s.unfilled (.sram cl line))).isNone = true
  rw [rows]
  simp

theorem bad_landCarry (h : (s.cl cl).bad = []) : ((landCarry ctx cl line tag bs s).cl cl).bad = [] := by
  rw [landCarry_clean h, (CountsOnly.countAll _ _ _ _ _).bad]
  refine (State.cl_modCl_keeps Cluster.bad _ _ _ rfl cl).trans ?_
  exact (cl_sramWrite_keeps Cluster.bad (fun _ _ _ _ => rfl) _ _ _ _ _).trans h

theorem carries_landCarry (h : (s.cl cl).bad = []) : (landCarry ctx cl line tag bs s).carries = s.carries := by
  rw [landCarry_clean h, (CountsOnly.countAll _ _ _ _ _).packets.carries]
  exact (KeepsPackets.sramWrite _ _ _ _).carries

theorem spByte_landCarry (h : (s.cl cl).bad = []) (j b : Nat) : (landCarry ctx cl line tag bs s).spByte j b
    = if j = cl ∧ 128 * line ≤ b ∧ b < 128 * line + bs.length then bs.getD (b - 128 * line) 0#8 else s.spByte j b := by
  rw [landCarry_clean h, (CountsOnly.countAll _ _ _ _ _).spByte, State.spByte_eq, byte_setOwed, byte_sramWrite, State.spByte_eq]
  rfl

end Line

/-! ### Its lines one after another -/

/-- The first `n` lines of a carry's data land, from line `first` on. -/
def landLines (ctx cl first : Nat) (tag : BitVec 32) (data : List Byte) (n : Nat) (s : State) : State :=
  (List.range n).foldl (fun s i => landCarry ctx cl (first + i) tag ((data.drop (128 * i)).take 128) s) s

section Lines

variable {s : State} {ctx cl first n : Nat} {tag : BitVec 32} {data : List Byte}

theorem landLines_succ : landLines ctx cl first tag data (n + 1) s
    = landCarry ctx cl (first + n) tag ((data.drop (128 * n)).take 128) (landLines ctx cl first tag data n s) := by
  simp [landLines, List.range_succ]

theorem bad_landLines (h : (s.cl cl).bad = []) : ((landLines ctx cl first tag data n s).cl cl).bad = [] := by
  induction n with
  | zero => exact h
  | succ n ih => rw [landLines_succ]; exact bad_landCarry ih

theorem carries_landLines (h : (s.cl cl).bad = []) : (landLines ctx cl first tag data n s).carries = s.carries := by
  induction n with
  | zero => rfl
  | succ n ih => rw [landLines_succ, carries_landCarry (bad_landLines h), ih]

/-- The bytes of the lines that have landed are the carry's, and no other byte has changed. -/
theorem spByte_landLines (h : (s.cl cl).bad = []) (hlen : 128 * n ≤ data.length) (j b : Nat) :
    (landLines ctx cl first tag data n s).spByte j b
      = if j = cl ∧ 128 * first ≤ b ∧ b < 128 * first + 128 * n then data.getD (b - 128 * first) 0#8 else s.spByte j b := by
  induction n with
  | zero => rw [if_neg (by omega)]; rfl
  | succ n ih =>
    have whole : ((data.drop (128 * n)).take 128).length = 128 := by simp; omega
    rw [landLines_succ, spByte_landCarry (bad_landLines h), whole, ih (by omega)]
    by_cases here : j = cl ∧ 128 * (first + n) ≤ b ∧ b < 128 * (first + n) + 128
    · rw [if_pos here, if_pos (by omega)]
      rw [List.getD_eq_getElem?_getD, List.getD_eq_getElem?_getD, List.getElem?_take_of_lt (by omega), List.getElem?_drop]
      congr 2
      omega
    · rw [if_neg here]
      by_cases before : j = cl ∧ 128 * first ≤ b ∧ b < 128 * first + 128 * n
      · rw [if_pos before, if_pos (by omega)]
      · rw [if_neg before, if_neg (by omega)]

end Lines

/-! ### The mailbox (R326) -/

section Mailbox

variable {s t : State} {p : Packet} {ctx a cl off : Nat} {x : Xlat}

theorem deliverWhole_carry (hk : p.kind = .carry) : deliverWhole p s = takeCarry p s := by
  simp only [deliverWhole, hk]

theorem takeCarry_refusedKey (h : keyCheck p p.addr .wrt (128 * p.mbr) s = none) : takeCarry p s = some (refuseKey p s) := by
  simp only [takeCarry, h]

variable (hkey : keyCheck p p.addr .wrt (128 * p.mbr) s = some (ctx, a))
  (htr : translate (ingressWho ctx) a true false s = .ok (t, x)) (htgt : x.tgt = .sram cl off) (hal : off % 128 = 0)
include hkey htr htgt hal

theorem takeCarry_ungranted (hg : t.granted ctx 384 cl = false) : takeCarry p s = some (refuse p 3 t) := by
  simp [takeCarry, hkey, htr, htgt, hal, hg]

variable (hg : t.granted ctx 384 cl = true) (hlo : inBanks (t.cl cl) off = true)
  (hhi : inBanks (t.cl cl) (off + 128 * p.mbr - 1) = true) (hver : p.ver = 0)
include hg hlo hhi hver

theorem takeCarry_full (h : canLand t ctx cl = false ∨ (t.cl cl).flags.getLsbD p.grp = true) :
    takeCarry p s = some (refuse p 3 t) := by
  rcases h with h | h <;> simp [takeCarry, hkey, htr, htgt, hal, hg, hlo, hhi, hver, h]

/-- What a carry that has brought every line leaves: its lines, its flag set, its reservation gone. -/
def State.withCarry (s : State) (p : Packet) (ctx cl off : Nat) : State :=
  let landed := (landLines ctx cl (off / 128) (argTag p) p.data p.mbr s).setFlagOf cl p.grp true
  { landed with carries := landed.carries.filter fun e => !(e.of p && e.cl == cl && e.off == off) }

/-- A carry that brings every line lands, its flag is set, and it is acknowledged. -/
theorem takeCarry_lands (hland : canLand t ctx cl = true) (hflag : (t.cl cl).flags.getLsbD p.grp = false) (hno : t.carries = [])
    (hlen : p.data.length = 128 * p.mbr) (hfree : ∀ i, i < p.mbr → tagRefused (t.cl cl) (off / 128 + i) (argTag p) = false
      ∧ lineOwed t (.sram cl (off / 128 + i)) = false) :
    takeCarry p s = some ((t.withCarry p ctx cl off).send (ackOf (t.withCarry p ctx cl off) p 0 [])) := by
  have lines : (128 * p.mbr + 127) / 128 = p.mbr := by omega
  have untagged : ((List.range p.mbr).any fun i => tagRefused (t.cl cl) (off / 128 + i) (argTag p)) = false := by
    simp only [List.any_eq_false, List.mem_range, Bool.not_eq_true]
    exact fun i hi => (hfree i hi).1
  have unowed : ((List.range p.mbr).any fun i => lineOwed t (.sram cl (off / 128 + i))) = false := by
    simp only [List.any_eq_false, List.mem_range, Bool.not_eq_true]
    exact fun i hi => (hfree i hi).2
  have rest : (List.range p.mbr).drop p.mbr = [] := List.drop_of_length_le (by simp)
  simp only [takeCarry, hkey, htr, htgt, hal, hg, hlo, hhi, hver, hland, hflag, hno, hlen, lines, rest, List.any_nil, List.foldl_nil,
    Nat.add_zero, Nat.zero_add, untagged, unowed, bne_self_eq_false, beq_self_eq_true, Bool.not_true, Bool.or_self, Bool.and_false,
    Bool.false_and, Bool.false_eq_true, if_false, if_true]
  rfl

end Mailbox

/-- The flag of a carry that has landed is set, its reservation is gone, and its lines hold its bytes. -/
theorem withCarry_effect {s : State} {p : Packet} {ctx cl off : Nat} (hal : off % 128 = 0) (hbad : (s.cl cl).bad = [])
    (hno : s.carries = []) (hlen : p.data.length = 128 * p.mbr) (hgrp : p.grp < 4096) :
    ((s.withCarry p ctx cl off).cl cl).flags.getLsbD p.grp = true ∧ (s.withCarry p ctx cl off).carries = []
      ∧ ∀ j b, (s.withCarry p ctx cl off).spByte j b
        = if j = cl ∧ off ≤ b ∧ b < off + 128 * p.mbr then p.data.getD (b - off) 0#8 else s.spByte j b := by
  have start : 128 * (off / 128) = off := by omega
  refine ⟨?_, ?_, fun j b => ?_⟩
  · show ((State.setFlagOf _ cl p.grp true).cl cl).flags.getLsbD p.grp = true
    rw [State.setFlagOf, State.cl_modCl_self, flags_setFlag_self _ hgrp]
  · show (landLines ctx cl (off / 128) (argTag p) p.data p.mbr s).carries.filter _ = []
    rw [carries_landLines hbad, hno]
    rfl
  · have stored := spByte_landLines (ctx := ctx) (first := off / 128) (tag := argTag p) hbad hlen.ge j b
    rw [start] at stored
    rw [← stored, State.spByte_eq, State.spByte_eq]
    exact State.cl_modCl_keeps (Cluster.byte · b) (landLines ctx cl (off / 128) (argTag p) p.data p.mbr s) cl
      (fun x => x.setFlag p.grp true) rfl j

/-- A carry that arrives is taken, or tries again (R326). -/
theorem exec_carryArrival_admitted {s : State} {p : Packet} (h : s.admitsNow { p with kind := .carry }) :
    exec (.carryArrival p) s
      = .next ((takeCarry { p with kind := .carry } s).getD (s.keeping { p with kind := .carry })) := by
  rw [exec_carryArrival_on h.1, arrive_admitted h, deliverWhole_carry rfl]

end Sys2Proof.Machine
end

section
namespace Sys2Proof.Machine.Settled

/-- Settles O57: a packet is held, dropped or taken by its own clause; an access is its key's answer or the ingress's; a parked packet
is tried alone; a carry's lines land one after another, each leaving the bytes outside it. -/
theorem arrivals : Obligations.Arrivals := by
  refine fun s p => ⟨fun off => ⟨exec_packetArrival_off off, exec_carryArrival_off off⟩,
    fun hon away => ⟨exec_packetArrival_away hon away, policed_untouched⟩, ?held, ?judged, ?accesses,
    fun jd => exec_parkBufferRelease_empty, ?released, ?acknowledged, ?carry⟩
  case held =>
    intro hon hd hm waits
    rw [exec_packetArrival_here hon hd hm, arrive_held waits]
    rfl
  case judged =>
    intro hon hd hm pair room
    rw [exec_packetArrival_here hon hd hm, arrive_free pair room]
    refine ⟨fun f late => ?_, fun late old => ?_, fun late current early => ?_⟩
    · rw [deliverPacket_late late]; rfl
    · rw [deliverPacket_aborted late old]; rfl
    · rw [deliverPacket_afterBarrier late current early]; rfl
  case accesses =>
    intro now hd hm
    rw [exec_packetArrival_admitted now hd hm]
    refine ⟨fun hk key => ?_, fun hk key => ?_, fun hk key => ?_, fun ctx a bs s1 hk key read => ?_,
      fun ctx a s1 hk key written => ?_, fun ctx a b hk key slow misses room => ?_, fun ctx a hk key waits => ?_,
      fun c hk command held => ?_⟩
    · rw [deliverWhole_readReq hm hk, answered_refused key]; rfl
    · rw [deliverWhole_write hm hk, answered_refused key]; rfl
    · rw [deliverWhole_accUpdate_refused hm hk key]; rfl
    · rw [deliverWhole_readReq hm hk, answered_ok key read]
      exact ⟨_, readAnswer p s1 bs, rfl, rfl, rfl, rfl, rfl, rfl, rfl, rfl, rfl⟩
    · rw [deliverWhole_written hm hk key written]
      exact ⟨_, ackOf s1 p 0 [], rfl, rfl, rfl, ackOf_write s1 hk 0, rfl, rfl, rfl, rfl⟩
    · rw [deliverWhole_write_snagged hm hk key misses, snagged_park slow room]
      exact ⟨_, rfl, logArrival_parkPacket { p with imd := b / 65536 % 1024 } 0x20#8 b 0⟩
    · rw [deliverWhole_write_snagged hm hk key waits]; rfl
    · rw [deliverWhole_readReply hk command held]; rfl
  case released =>
    rintro s0 rfl one
    refine ⟨fun waits => ?_, fun u out gone => ?_, fun u q t out again page => ?_⟩
    · rw [exec_parkBufferRelease_one one (releaseParked_waits waits), ← one, reparked_unparked]
    · exact exec_parkBufferRelease_one one (releaseParked_delivered out gone)
    · exact exec_parkBufferRelease_one one (releaseParked_misses out again page)
  case acknowledged =>
    intro cl
    refine ⟨s.modCl cl fun x => { x with wack := x.wack - 1 }, rfl, ?_, ?_, fun c hc => State.cl_modCl_ne _ _ hc, rfl⟩
    · rw [State.cl_modCl_self]
    · rw [State.cl_modCl_self]
  case carry =>
    rintro c rfl now
    rw [exec_carryArrival_admitted now]
    refine ⟨fun key => ?_, fun ctx a s1 x cl off key found place aligned => ⟨fun ungranted => ?_, fun granted lo hi first =>
      ⟨fun full => ?_, fun free flags clear alone clean _ whole ready => ?_⟩⟩⟩
    · rw [takeCarry_refusedKey key]; rfl
    · rw [takeCarry_ungranted key found place aligned ungranted]; rfl
    · rw [takeCarry_full key found place aligned granted lo hi first full]; rfl
    · rw [takeCarry_lands key found place aligned granted lo hi first free clear alone whole ready]
      obtain ⟨flag, unreserved, bytes⟩ :=
        withCarry_effect (p := { p with kind := .carry }) (ctx := ctx) aligned clean alone whole flags
      refine ⟨_, rfl, flag, unreserved, fun o ho => ?_, fun k b outside => ?_⟩
      · exact (bytes cl (off + o)).trans ((if_pos ⟨rfl, by omega, by omega⟩).trans (by rw [Nat.add_sub_cancel_left]))
      · exact (bytes k b).trans (if_neg outside)

end Sys2Proof.Machine.Settled
end
